-- ==== Sys2Proof/Word.lean ====
section
/-! DEFINITION. The word types of the KN4610: bytes, 64-byte lines and the configuration image. -/

namespace Sys2Proof

/-- One byte (6.1 of 00_scope.md). -/
abbrev Byte := BitVec 8

/-- The 64 bytes of a line, written as one number with byte 0 at its most significant end: the order in
which lines and multi-byte fields are sent and stored (6.2 and 6.3 of 00_scope.md). -/
abbrev Line := BitVec 512

/-- The 75 bytes of a configuration image, byte 0 most significant (R178). -/
abbrev Image := BitVec 600

end Sys2Proof
end

