-- ==== Sys2Proof/Syntax.lean ====
section
/-! DEFINITION. The commands of the KN4610: one constructor per row of spec/opcode_table.json. A command is one of the
part's indivisible steps (95_what_each_step_holds.md): a request on the upstream bus, a management frame that has passed
its checks, a frame in error, or an event of the supply, the pins, the memory devices or a timer. -/

namespace Sys2Proof

/-- R110: the answer of the memory devices to an attempt. The bytes of `ok` are those of a LINE READ; the answer to a
LINE WRITE carries none and the port takes none. -/
inductive MemAnswer where
  | ok (bytes : Line)
  | busy
  | error
  deriving DecidableEq, Repr

/-- R144: where VDD lies among the levels the part compares it with: 2.20 V (power-on reset), VFAIL 2.55 V and the four
VWARN thresholds 2.70, 2.80, 2.90 and 3.00 V. A supply exactly at a threshold is not below it. -/
inductive SupplyLevel where
  | below220 | from220 | from255 | from270 | from280 | from290 | from300
  deriving DecidableEq, Repr

/-- The filters that run on the comparator outputs: the four conditions of R145, and the 100 µs filter that R147 starts
when the VFAIL comparison goes to not below in FAIL. -/
inductive SupplyFilter where
  /-- R145: below VWARN, 8 µs. -/
  | belowWarn
  /-- R145: below VFAIL, 2 µs. -/
  | belowFail
  /-- R145: not below VWARN, 100 µs. -/
  | notBelowWarn
  /-- R145: below VWARN and not below VFAIL, 100 µs. -/
  | between
  /-- R147: VFAIL comparison to not below in FAIL, 100 µs. -/
  | failRisen
  deriving DecidableEq, Repr

/-- The commands. Host requests carry the bus fields of Table 2-1, management commands the argument bytes of their rules,
most significant byte first, and events what the outside gives with them. -/
inductive Instr where
  /-- R26: a WRITE presentation: initiator, byte address, UCOUNT (0 stands for 64) and data bytes, the first of them
  most significant; bytes past the count are not on the bus. -/
  | write (initiator : BitVec 2) (addr : BitVec 26) (ucount : BitVec 6) (data : Line)
  /-- R30: a READ presentation. -/
  | read (initiator : BitVec 2) (addr : BitVec 26) (ucount : BitVec 6)
  /-- R173. -/
  | status
  /-- R153. -/
  | readInhibits
  /-- R157. -/
  | readRegionCodes
  /-- R159: the clear flag. -/
  | readCounters (clear : Byte)
  /-- R123. -/
  | readFailedLines
  /-- R163. -/
  | readEvents
  /-- R164: the events to clear. -/
  | clearEvents (bits : BitVec 16)
  /-- R165: mask set and visibility byte. -/
  | writeEventMask (mask : BitVec 16) (visible : Byte)
  /-- R17: index, base page, limit page, attribute byte, enable byte. -/
  | writeRegion (index : Byte) (base limit : BitVec 16) (attr enable : Byte)
  /-- R18: index. -/
  | readRegion (index : Byte)
  /-- R19: the 64-bit filter. -/
  | writeGuardFilter (filter : BitVec 64)
  /-- R20. -/
  | readGuardFilter
  /-- R174: claim timeout, attempt limit, prefetch depth, WARN level. -/
  | writeParameters (claim limit depth warn : Byte)
  /-- R175. -/
  | readParameters
  /-- R105: base page and size. -/
  | writeJournalPlacement (base size : BitVec 16)
  /-- R98. -/
  | closeEpoch
  /-- R103. -/
  | rollback
  /-- R101: the epoch. -/
  | initJournal (epoch : BitVec 32)
  /-- R150. -/
  | setInhibit
  /-- R150. -/
  | clearInhibit
  /-- R75. -/
  | resetUpstream
  /-- R140. -/
  | openPort
  /-- R169: a frame in error: the bytes received up to the error, and whether MCS# rising was the error. -/
  | frameError (bytes : List Byte) (mcsRose : Bool)
  /-- R127: the supply is below 2.20 V. -/
  | powerOnReset
  /-- R127: NRST goes low. -/
  | pinReset
  /-- R126: no reset condition holds any longer. -/
  | resetEnd
  /-- R131: the image read ends; the first 75 bytes of the serial configuration memory. -/
  | configurationLoad (image : Image)
  /-- R147: VDD moves to another place among the thresholds. -/
  | comparatorChange (level : SupplyLevel)
  /-- R145: the time of a filter runs out. -/
  | supplyFilterExpiry (filter : SupplyFilter)
  /-- R149: the WLOCK pin takes a level, high or low. -/
  | wlockPinChange (high : Bool)
  /-- R149: the WLOCK level has held 1 µs. -/
  | wlockFilterExpiry
  /-- R74: the claim timer of the entry in a place of the delayed request table runs out. -/
  | claimTimerExpiry (place : Fin 4)
  /-- R113: the devices answer; `late` marks an answer to an attempt that has timed out or was abandoned (R110). -/
  | memoryAnswer (answer : MemAnswer) (late : Bool)
  /-- R110: the attempt outstanding has had no answer within 100 µs. -/
  | attemptTimeout
  /-- R113: the 2 µs back-off ends. -/
  | backoffEnd
  /-- R166: MCS# rises after the request has ended. -/
  | mcsRisingEdge
  deriving DecidableEq, Repr

end Sys2Proof
end

