-- ==== Sys2Proof/Config.lean ====
section
/-! DEFINITION. What the KN4610 fixes: sizes of its structures, limits of its numbers, times and markers. The spec
leaves no result of a command open, so there is no free value here. -/

namespace Sys2Proof.Config

/-- R35: the posted write queue never holds more than 16 entries. -/
def queueDepth : Nat := 16
/-- R86: the epoch line set holds up to 128 entries. -/
def lineSetSize : Nat := 128
/-- R122: the failed-line list holds up to 8 entries. -/
def failedListSize : Nat := 8
/-- 6.2 of 00_scope.md: the last page number. -/
def lastPage : Nat := 16383
/-- R80: the number of pages of memory, which base page plus size may reach. -/
def pages : Nat := 16384
/-- R80: the largest journal size in pages. -/
def maxJournalPages : Nat := 1024
/-- 6.2 of 00_scope.md: the number of lines of memory. -/
def lines : Nat := 1048576
/-- 6.2 of 00_scope.md: the number of bytes of memory. -/
def bytes : Nat := 67108864
/-- R167: the longest argument of a management frame. -/
def maxArgument : Nat := 72
/-- R71: lines in a 1 KiB block. -/
def blockLines : Nat := 16

/-- R78: reset value of the claim timeout. -/
def resetClaimTimeout : Byte := 64
/-- R78: reset value of the prefetch depth. -/
def resetPrefetchDepth : BitVec 2 := 1
/-- R114: reset value of the attempt limit. -/
def resetAttemptLimit : Byte := 16
/-- R144: reset value of the WARN level. -/
def resetWarnLevel : BitVec 2 := 2

/-- R73: one unit of the claim timeout, in µs. -/
def claimUnit : Nat := 16
/-- R145: below VWARN must hold 8 µs. -/
def belowWarnTime : Nat := 8
/-- R145: below VFAIL must hold 2 µs. -/
def belowFailTime : Nat := 2
/-- R145: the two conditions of a rising supply must hold 100 µs. -/
def risingTime : Nat := 100
/-- R149: a WLOCK level must hold 1 µs. -/
def wlockTime : Nat := 1

/-- R81: marker of a journal header line. -/
def headerMarker : BitVec 32 := 0x4B4E4A48
/-- R81: marker of a record header line. -/
def recordMarker : BitVec 32 := 0x4B4E4A52
/-- R81: format byte of a journal header line. -/
def headerFormat : Byte := 1
/-- R131: marker of the configuration image. -/
def imageMarker : Byte := 0xC3
/-- R131: first byte of a configuration memory that is erased or not fitted. -/
def imageAbsent : Byte := 0xFF

/-- R177: generator of the CRC-32. -/
def crc32Poly : BitVec 32 := 0x04C11DB7
/-- R179: generator of the CRC-8. -/
def crc8Poly : Byte := 0x07

end Sys2Proof.Config
end

