-- ==== Sys2Proof/Machine/Formats.lean ====
section
/-! DEFINITION. Bytes and lines: taking bytes out of a line, byte masks, multi-byte fields, the two CRCs (R177, R179) and
the journal lines (R176). -/

namespace Sys2Proof.Machine

/-- Byte i of a line, 0 to 63 (6.2 of 00_scope.md). -/
def lineByte (l : Line) (i : Nat) : Byte := l.extractLsb' (8 * (63 - i)) 8

/-- The 64 bytes of a line, in line order. -/
def lineBytes (l : Line) : List Byte := (List.range 64).map (lineByte l)

/-- The field of n bytes at an offset of a line, most significant byte first (6.3 of 00_scope.md). -/
def lineField (l : Line) (off n : Nat) : BitVec (8 * n) := l.extractLsb' (512 - 8 * (off + n)) (8 * n)

/-- The first n bytes of a run of bytes, the rest made zero: the bytes past a count are not there (R21, R23). -/
def keepBytes (n : Nat) (d : Line) : Line := (d >>> (8 * (64 - n))) <<< (8 * (64 - n))

/-- Table 2-1: UCOUNT gives 1 to 63 as themselves and 0 for 64. -/
def countOf (ucount : BitVec 6) : Nat := if ucount = 0 then 64 else ucount.toNat

/-- Request bytes moved to their offset in the line (R36). -/
def placeBytes (off : Nat) (d : Line) : Line := d >>> (8 * off)

/-- The count bytes at an offset of a line, as the bytes of an answer (R30, R63). -/
def takeBytes (off n : Nat) (l : Line) : Line := keepBytes n (l <<< (8 * off))

/-- R36: the byte mask, its flag set for the bytes offset to offset + count − 1. -/
def byteMask (off n : Nat) : BitVec 64 := BitVec.ofNat 64 ((2 ^ n - 1) * 2 ^ off)

/-- R109: the mask with all 64 flags set. -/
def fullMask : BitVec 64 := BitVec.allOnes 64

/-- R115: every byte whose mask flag is set agrees. -/
def agreeOn (mask : BitVec 64) (a b : Line) : Bool :=
  (List.range 64).all fun i => !mask.getLsbD i || lineByte a i == lineByte b i

/-- A number as n bytes, most significant first (6.3 of 00_scope.md). -/
def bytesOf (n v : Nat) : List Byte := (List.range n).map fun i => BitVec.ofNat 8 (v / 256 ^ (n - 1 - i))

/-- The number that bytes give, most significant first. -/
def natOf (bs : List Byte) : Nat := bs.foldl (fun a b => a * 256 + b.toNat) 0

/-- One step of the CRC-32 register (R177). -/
def crc32Step (r : BitVec 32) : BitVec 32 := if r.msb then (r <<< 1) ^^^ Config.crc32Poly else r <<< 1

/-- The CRC-32 register after one byte: the byte into the top 8 bits, then eight steps (R177). -/
def crc32Byte (r : BitVec 32) (b : Byte) : BitVec 32 :=
  (List.range 8).foldl (fun x _ => crc32Step x) (r ^^^ (b.setWidth 32 <<< 24))

/-- R177: the CRC-32 of bytes in order, inverted at the end. -/
def crc32 (bs : List Byte) : BitVec 32 := ~~~ bs.foldl crc32Byte 0xFFFFFFFF

/-- One step of the CRC-8 register (R179). -/
def crc8Step (r : Byte) : Byte := if r.msb then (r <<< 1) ^^^ Config.crc8Poly else r <<< 1

/-- The CRC-8 register after one byte (R179). -/
def crc8Byte (r b : Byte) : Byte := (List.range 8).foldl (fun x _ => crc8Step x) (r ^^^ b)

/-- R167, R179: the CRC-8 of bytes in order, with no final inversion. -/
def crc8 (bs : List Byte) : Byte := bs.foldl crc8Byte 0xFF

/-- R176: the CRC-32 of a journal header: marker, format, epoch and size. -/
def headerCrc (epoch : BitVec 32) (size : Nat) : BitVec 32 :=
  crc32 (bytesOf 4 Config.headerMarker.toNat ++ [Config.headerFormat] ++ bytesOf 4 epoch.toNat ++ bytesOf 2 size)

/-- R176: the journal header line of an epoch and a size; bytes that carry no field are zero. -/
def headerLine (epoch : BitVec 32) (size : Nat) : Line :=
  Config.headerMarker ++ Config.headerFormat ++ (0 : BitVec 24) ++ epoch ++ BitVec.ofNat 16 size ++ (0 : BitVec 16) ++
    headerCrc epoch size ++ (0 : BitVec 352)

/-- R176: the CRC-32 of a record: epoch, sequence, target line and the 64 bytes of the image line. -/
def recordCrc (epoch seq target : BitVec 32) (image : Line) : BitVec 32 :=
  crc32 (bytesOf 4 epoch.toNat ++ bytesOf 4 seq.toNat ++ bytesOf 4 target.toNat ++ lineBytes image)

/-- R176: the record header line of epoch, sequence and target line over an image. -/
def recordLine (epoch : BitVec 32) (seq target : Nat) (image : Line) : Line :=
  Config.recordMarker ++ epoch ++ BitVec.ofNat 32 seq ++ BitVec.ofNat 32 target ++
    recordCrc epoch (BitVec.ofNat 32 seq) (BitVec.ofNat 32 target) image ++ (0 : BitVec 352)

/-- R176: the epoch field of a journal header line. -/
def headerEpoch (l : Line) : BitVec 32 := lineField l 8 4

/-- R81, R136: a journal header line is valid for a size: marker, format, CRC-32, size, and an epoch other than 0. -/
def headerValid (size : Nat) (l : Line) : Bool :=
  lineField l 0 4 == Config.headerMarker && lineField l 4 1 == Config.headerFormat &&
    lineField l 16 4 ==
      crc32 ((lineBytes l).take 5 ++ ((lineBytes l).drop 8).take 4 ++ ((lineBytes l).drop 12).take 2) &&
    (lineField l 12 2).toNat == size && headerEpoch l != 0

/-- R137, R141: the marker, epoch and sequence of a record header line are those of record k of epoch E. -/
def recordNamed (epoch : BitVec 32) (k : Nat) (l : Line) : Bool :=
  lineField l 0 4 == Config.recordMarker && lineField l 4 4 == epoch && lineField l 8 4 == BitVec.ofNat 32 k

/-- R81: the CRC-32 of a record header line checks over its epoch, sequence, target line and an image line. -/
def recordChecks (header image : Line) : Bool :=
  lineField header 16 4 == recordCrc (lineField header 4 4) (lineField header 8 4) (lineField header 12 4) image

/-- R176: the target line of a record, its field modulo the number of lines. -/
def recordTarget (header : Line) : Nat := (lineField header 12 4).toNat % Config.lines

/-- R84: the successor of an epoch number; FFFFFFFFh is followed by 1. -/
def nextEpoch (e : BitVec 32) : BitVec 32 := if e = BitVec.allOnes 32 then 1 else e + 1

end Sys2Proof.Machine
end

