-- ==== Sys2Proof/Machine/Frames.lean ====
section
/-! DEFINITION. The request of a management frame: the command index (Table 10-2), the bytes of each command's request
(R167, R179), and the judging of received bytes (R167, R168). -/

namespace Sys2Proof

/-- Table 10-2: code and argument bytes of a management command; none for a command that is no management command. -/
def Instr.codeAndArgs : Instr → Option (Byte × List Byte)
  | .status => some (0x01, [])
  | .readInhibits => some (0x02, [])
  | .readRegionCodes => some (0x03, [])
  | .readCounters c => some (0x04, [c])
  | .readFailedLines => some (0x05, [])
  | .readEvents => some (0x06, [])
  | .clearEvents b => some (0x07, Machine.bytesOf 2 b.toNat)
  | .writeEventMask m v => some (0x08, Machine.bytesOf 2 m.toNat ++ [v])
  | .writeRegion i b l a e => some (0x10, [i] ++ Machine.bytesOf 2 b.toNat ++ Machine.bytesOf 2 l.toNat ++ [a, e])
  | .readRegion i => some (0x11, [i])
  | .writeGuardFilter f => some (0x12, Machine.bytesOf 8 f.toNat)
  | .readGuardFilter => some (0x13, [])
  | .writeParameters c l d w => some (0x14, [c, l, d, w])
  | .readParameters => some (0x15, [])
  | .writeJournalPlacement b s => some (0x18, Machine.bytesOf 2 b.toNat ++ Machine.bytesOf 2 s.toNat)
  | .closeEpoch => some (0x20, [])
  | .rollback => some (0x21, [])
  | .initJournal e => some (0x22, Machine.bytesOf 4 e.toNat)
  | .setInhibit => some (0x28, [])
  | .clearInhibit => some (0x29, [])
  | .resetUpstream => some (0x30, [])
  | .openPort => some (0x31, [])
  | .write _ _ _ _ => none
  | .read _ _ _ => none
  | .frameError _ _ => none
  | .powerOnReset => none
  | .pinReset => none
  | .resetEnd => none
  | .configurationLoad _ => none
  | .comparatorChange _ => none
  | .supplyFilterExpiry _ => none
  | .wlockPinChange _ => none
  | .wlockFilterExpiry => none
  | .claimTimerExpiry _ => none
  | .memoryAnswer _ _ => none
  | .attemptTimeout => none
  | .backoffEnd => none
  | .mcsRisingEdge => none

namespace Machine

/-- R167: a request: code, argument length, arguments and the CRC-8 over all of them. -/
def requestBytes (code : Byte) (args : List Byte) : List Byte :=
  let body := code :: BitVec.ofNat 8 args.length :: args
  body ++ [crc8 body]

/-- The request bytes of a command; no bytes for a command that is no management command. -/
def requestOf (c : Instr) : List Byte :=
  match c.codeAndArgs with
  | some (code, args) => requestBytes code args
  | none => []

/-- Table 10-2: the argument byte count of a command code; none for a code that the index does not hold. -/
def argumentCount (code : Byte) : Option Nat :=
  match code.toNat with
  | 0x01 => some 0
  | 0x02 => some 0
  | 0x03 => some 0
  | 0x04 => some 1
  | 0x05 => some 0
  | 0x06 => some 0
  | 0x07 => some 2
  | 0x08 => some 3
  | 0x10 => some 7
  | 0x11 => some 1
  | 0x12 => some 8
  | 0x13 => some 0
  | 0x14 => some 4
  | 0x15 => some 0
  | 0x18 => some 4
  | 0x20 => some 0
  | 0x21 => some 0
  | 0x22 => some 4
  | 0x28 => some 0
  | 0x29 => some 0
  | 0x30 => some 0
  | 0x31 => some 0
  | _ => none

/-- What received request bytes come to. -/
inductive Judged where
  /-- R167: the request has not ended. -/
  | unfinished
  /-- R167, R168: the frame is a frame error. -/
  | error
  /-- R168: the command is executed: its code and its arguments. -/
  | good (code : Byte) (args : List Byte)
  deriving DecidableEq, Repr

/-- R167, R168: the judging of the bytes received with MCS# low. A length above 72 is an error at the length byte;
otherwise the request ends with its CRC byte, and it is an error when the CRC-8 differs, the code is not in the index,
or the length is not the one the index gives. -/
def judgeRequest : List Byte → Judged
  | [] => .unfinished
  | [_] => .unfinished
  | code :: n :: rest =>
    if Config.maxArgument < n.toNat then .error
    else if rest.length ≤ n.toNat then .unfinished
    else if crc8 (code :: n :: rest.take n.toNat) ≠ rest.getD n.toNat 0 then .error
    else if argumentCount code = some n.toNat then .good code (rest.take n.toNat)
    else .error

/-- The command that a code and its arguments spell (Table 10-2 and the argument orders of R17, R18, R19, R97, R101, R105,
R159, R164, R165, R174). -/
def commandOf (code : Byte) (args : List Byte) : Option Instr :=
  match code.toNat, args with
  | 0x01, [] => some .status
  | 0x02, [] => some .readInhibits
  | 0x03, [] => some .readRegionCodes
  | 0x04, [c] => some (.readCounters c)
  | 0x05, [] => some .readFailedLines
  | 0x06, [] => some .readEvents
  | 0x07, [a, b] => some (.clearEvents (a ++ b))
  | 0x08, [a, b, v] => some (.writeEventMask (a ++ b) v)
  | 0x10, [i, b1, b0, l1, l0, a, e] => some (.writeRegion i (b1 ++ b0) (l1 ++ l0) a e)
  | 0x11, [i] => some (.readRegion i)
  | 0x12, [a, b, c, d, e, f, g, h] => some (.writeGuardFilter (a ++ b ++ c ++ d ++ e ++ f ++ g ++ h))
  | 0x13, [] => some .readGuardFilter
  | 0x14, [c, l, d, w] => some (.writeParameters c l d w)
  | 0x15, [] => some .readParameters
  | 0x18, [b1, b0, s1, s0] => some (.writeJournalPlacement (b1 ++ b0) (s1 ++ s0))
  | 0x20, [] => some .closeEpoch
  | 0x21, [] => some .rollback
  | 0x22, [a, b, c, d] => some (.initJournal (a ++ b ++ c ++ d))
  | 0x28, [] => some .setInhibit
  | 0x29, [] => some .clearInhibit
  | 0x30, [] => some .resetUpstream
  | 0x31, [] => some .openPort
  | _, _ => none

end Machine

end Sys2Proof
end

