-- ==== Sys2Proof/Machine/State.lean ====
section
/-! DEFINITION. The state of the KN4610, block by block (Table 3-1 of 00_scope.md), and the machine right after reset.
Everything is plain data. INVENTORY.md lists each field with its rule. -/

namespace Sys2Proof.Machine

/-! ### Upstream port (chapter 2) -/

/-- UKIND: the kind of a request. -/
inductive RequestKind where
  | read | write
  deriving DecidableEq, Repr

/-- R22: the answer to a presentation; `short n` is SHORT(n). -/
inductive Answer where
  | done | short (n : BitVec 6) | retry | abort
  deriving DecidableEq, Repr

/-- Table 2-1: the code of an answer on UANS. -/
def Answer.uans : Answer → BitVec 2
  | .done => 0b00
  | .short _ => 0b01
  | .retry => 0b10
  | .abort => 0b11

/-- Table 2-1: the n of a SHORT answer on USHORT; with any other answer the line carries no n. -/
def Answer.ushort : Answer → Option (BitVec 6)
  | .short n => some n
  | .done => none
  | .retry => none
  | .abort => none

/-- What the answer lines of Table 2-1 carried at the last UACK: to whom, to which kind of request, the answer with its
n, and the bytes on URD (the first of them most significant, zero where none). -/
structure Response where
  initiator : BitVec 2
  kind : RequestKind
  answer : Answer
  data : Line
  deriving DecidableEq, Repr

/-- The port holds nothing between two requests (R34) but what stands on its answer lines. -/
structure UpstreamLines where
  answer : Option Response
  deriving DecidableEq, Repr

/-! ### Access classifier (chapter 1) -/

/-- R1, R4. -/
inductive WriteMode where
  | posted | durable | readOnly | noAccess
  deriving DecidableEq, Repr

/-- R1, R5. -/
inductive ReadMode where
  | prefetch | single
  deriving DecidableEq, Repr

/-- R1, R7. -/
inductive GuardMode where
  | off | all | hashed
  deriving DecidableEq, Repr

/-- R1: an attribute set. -/
structure Attributes where
  writeMode : WriteMode
  readMode : ReadMode
  guardMode : GuardMode
  verify : Bool
  deriving DecidableEq, Repr

/-- R1: a record of regions 0 to 7. -/
structure Region where
  enable : Bool
  basePage : Nat
  limitPage : Nat
  attributes : Attributes
  deriving DecidableEq, Repr

/-- The region table and the guard filter (R1, R8). -/
structure Classifier where
  regions : Vector Region 8
  background : Attributes
  guardFilter : BitVec 64
  deriving DecidableEq, Repr

/-- R13: the reservation kind. -/
inductive ReservationKind where
  | none | listed | own
  deriving DecidableEq, Repr

/-- R13: the captured classification. -/
structure Classification where
  region : Fin 9
  readMode : ReadMode
  guarded : Bool
  reservation : ReservationKind
  verify : Bool
  deriving DecidableEq, Repr

/-! ### Posted write queue (chapter 3) -/

/-- R36, R55: what an entry carries of its request: line, offset and count after the cut, data bytes (the first most
significant, zero past the count and for reads), byte mask, classification; whether its record has completed (R87); and
its position in acceptance order (R38, R57). -/
structure Body where
  line : Nat
  offset : Nat
  count : Nat
  data : Line
  mask : BitVec 64
  cls : Classification
  recorded : Bool
  pos : Nat
  deriving DecidableEq, Repr

/-- R35: an entry of the posted write queue. -/
inductive QueueEntry where
  | write (body : Body)
  | marker (pos : Nat)
  deriving DecidableEq, Repr

/-! ### Delayed request engine (chapter 4) -/

/-- R55: the result of a COMPLETE entry. -/
inductive EntryResult where
  | ok | fail
  deriving DecidableEq, Repr

/-- R56: the state of a delayed entry, with the result where it is COMPLETE. -/
inductive EntryState where
  | waiting | issued | complete (result : EntryResult)
  deriving DecidableEq, Repr

/-- A timer: stopped, or running with the length in µs it was started with. -/
abbrev Timer := Option Nat

/-- R55: an entry of the delayed request table. -/
structure DelayedEntry where
  kind : RequestKind
  initiator : BitVec 2
  body : Body
  state : EntryState
  slot : Option (Fin 8)
  timer : Timer
  deriving DecidableEq, Repr

/-- R68: a read buffer slot; an owner is a place of the delayed request table. A FILLING slot holds no data bytes: R68 lists
64 of them for it too and gives them no value before the fill ends, and nothing reads them (assumption log 21). -/
inductive Slot where
  | free
  | filling (line : Nat) (stale : Bool) (owner : Option (Fin 4))
  | valid (line : Nat) (data : Line) (owner : Option (Fin 4)) (age : Nat)
  deriving DecidableEq, Repr

/-- The delayed request table, the read buffer, the prefetch list and the two parameters of the engine (R55, R68, R71,
R78); `nextAge` is the age the next slot to become VALID takes. -/
structure Engine where
  table : Vector (Option DelayedEntry) 4
  slots : Vector Slot 8
  prefetch : List Nat
  claimTimeout : Byte
  prefetchDepth : BitVec 2
  nextAge : Nat
  deriving DecidableEq, Repr

/-! ### Journal controller (chapter 5) -/

/-- R82. -/
inductive JournalState where
  | off | unknown | pending | active | closing | rolling | failed
  deriving DecidableEq, Repr

/-- R86: the mark of a line in the epoch line set. -/
inductive Mark where
  | reserved | recorded
  deriving DecidableEq, Repr

/-- R80, R82, R84, R85, R86: placement, state, E, W and the epoch line set. -/
structure Journal where
  basePage : Nat
  sizePages : Nat
  state : JournalState
  epoch : BitVec 32
  written : Nat
  lineSet : List (Nat × Mark)
  deriving DecidableEq, Repr

/-- R38, R52: what the head of the write order is, once its drain has begun. `removed` is a delayed write that RESET
UPSTREAM removed while one of its operations was in flight (R76). -/
inductive DrainItem where
  | postedWrite
  | closeMarker
  | delayedWrite (place : Fin 4)
  | removed (body : Body)
  deriving DecidableEq, Repr

/-- R40, R41, R50: the operation a drain has reached. -/
inductive DrainStage where
  | beforeImage | imageWrite | recordHeader | dataWrite | closeHeader
  deriving DecidableEq, Repr

/-- The drain in progress: its item, the operation it has reached, the before-image once read, and whether every
operation so far succeeded on its first attempt (R42). -/
structure Drain where
  item : DrainItem
  stage : DrainStage
  image : Line
  firstTry : Bool
  deriving DecidableEq, Repr

/-! ### Memory port (chapter 6) -/

/-- R109. -/
inductive OpKind where
  | lineRead | lineWrite
  deriving DecidableEq, Repr

/-- R111. -/
inductive Phase where
  | awaiting | backoff | verifying | held
  deriving DecidableEq, Repr

/-- R113, R115, R116, R120: what an operation in BACKOFF or HELD issues next: the attempt again after BUSY, ERROR or
timeout; the write again after a verify mismatch; the verify read again; or the first verify read after a write's OK. -/
inductive NextIssue where
  | attemptAgain | writeAfterMismatch | verifyAgain | firstVerify
  deriving DecidableEq, Repr

/-- R111: the work an operation is done for; `initHeader` is the header write of an INIT JOURNAL (R112). -/
inductive Owner where
  | head | initHeader | demandFill | prefetch | scan | rollback
  deriving DecidableEq, Repr

/-- R122: the kind of a failed line. -/
inductive FailureKind where
  | dataWrite | read | journal | rollback
  deriving DecidableEq, Repr

/-- R111: the operation in flight. -/
structure Operation where
  kind : OpKind
  line : Nat
  data : Line
  mask : BitVec 64
  verify : Bool
  limit : Nat
  attempts : Nat
  phase : Phase
  next : NextIssue
  owner : Owner
  failure : Option FailureKind
  region : Fin 10
  deriving DecidableEq, Repr

/-- R118. -/
inductive PortClass where
  | write | read
  deriving DecidableEq, Repr

/-- R122. -/
structure FailedLine where
  line : Nat
  kind : FailureKind
  region : Fin 10
  deriving DecidableEq, Repr

/-- R111, R114, R118, R122. -/
structure MemoryPort where
  op : Option Operation
  attemptLimit : Byte
  lastClass : PortClass
  failed : List FailedLine
  overflow : Bool
  deriving DecidableEq, Repr

/-! ### Start-up controller (chapter 7) -/

/-- R128. -/
inductive PortState where
  | starting | hold | opened | rolling
  deriving DecidableEq, Repr

/-- R130. -/
inductive StartPhase where
  | loading | supplyWait | scanning | rolling | done
  deriving DecidableEq, Repr

/-- R131, R127. -/
inductive LoadResult where
  | none | absent | loaded | bad
  deriving DecidableEq, Repr

/-- R134. -/
inductive StartMode where
  | hold | auto
  deriving DecidableEq, Repr

/-- R138, R172: the result of a rollback or of a long command. -/
inductive LongResult where
  | none | ok | partly | failed
  deriving DecidableEq, Repr

/-- R126. -/
inductive ResetCause where
  | powerOn | pin
  deriving DecidableEq, Repr

/-- R136, R137, R141: where the scan or the rollback procedure stands: the line it reads or writes next, with the record
number k and what it has read of that record. -/
inductive Procedure where
  | idle
  | scanHeader
  | scanRecord (k : Nat)
  | scanImage (k : Nat) (header : Line)
  | rollRecord (k : Nat)
  | rollImage (k : Nat) (header : Line)
  | rollTarget (k : Nat) (target : Nat) (image : Line)
  | rollHeader
  deriving DecidableEq, Repr

/-- The start-up controller: reset lines and cause, port state, phase, configuration load, start-up mode, rollback result
and skipped count, shadow copy, and the scan or rollback in progress. -/
structure Startup where
  inReset : Bool
  nrstLow : Bool
  portState : PortState
  phase : StartPhase
  loadResult : LoadResult
  mode : StartMode
  rollbackResult : LongResult
  skipped : Nat
  cause : ResetCause
  shadow : List Byte
  procedure : Procedure
  rollPartial : Bool
  deriving DecidableEq, Repr

/-! ### Supply monitor and inhibit unit (chapter 8) -/

/-- R145. -/
inductive SupplyState where
  | normal | warn | fail
  deriving DecidableEq, Repr

/-- The filters of R145 and R147. -/
structure SupplyTimers where
  belowWarn : Timer
  belowFail : Timer
  notBelowWarn : Timer
  between : Timer
  failRisen : Timer
  deriving DecidableEq, Repr

/-- R152: the inhibit sources. -/
inductive InhibitSource where
  | wlock | software | warn | fail | journal | glitch
  deriving DecidableEq, Repr

/-- R152: the six latches. -/
structure Latches where
  wlock : Bool
  software : Bool
  warn : Bool
  fail : Bool
  journal : Bool
  glitch : Bool
  deriving DecidableEq, Repr

/-- The supply monitor, NWARN, WLOCK, the software inhibit and the latches. -/
structure SupplyUnit where
  level : SupplyLevel
  state : SupplyState
  belowWarn : Bool
  belowFail : Bool
  timers : SupplyTimers
  warnWatch : Bool
  failWatch : Bool
  warnLevel : BitVec 2
  nwarnLow : Bool
  wlockPin : Bool
  wlock : Bool
  wlockTimer : Timer
  software : Bool
  latches : Latches
  deriving DecidableEq, Repr

/-! ### Fault and event unit (chapter 9) -/

/-- R155: the region fault codes, most severe first. -/
inductive RegionCode where
  | memoryFail | journalFail | journalFull | claimLost | refused | recovered | clean | noTraffic
  deriving DecidableEq, Repr

/-- R158. -/
inductive CounterKind where
  | memRetry | verifyMismatch | claimLost | noRoom | journalRecords | frameErrors
  deriving DecidableEq, Repr

/-- R158: the six counters. -/
structure Counters where
  memRetry : BitVec 16
  verifyMismatch : BitVec 16
  claimLost : BitVec 16
  noRoom : BitVec 16
  journalRecords : BitVec 16
  frameErrors : BitVec 16
  deriving DecidableEq, Repr

/-- R160: the event kinds, in the order of their bits. -/
inductive EventKind where
  | startupDone | portHold | regionFault | inhibit | journal | longDone | failedLine | mgmtError | counterSat
  deriving DecidableEq, Repr

/-- R155, R158, R160, R162: region codes, counters, pending set, mask set, visibility flag and IRQ#. -/
structure FaultUnit where
  codes : Vector RegionCode 9
  counters : Counters
  events : BitVec 9
  mask : BitVec 9
  visible : Bool
  irqLow : Bool
  deriving DecidableEq, Repr

/-! ### Management port (chapter 10) -/

/-- R166. -/
inductive FrameState where
  | idle | request | filler | response | trailing
  deriving DecidableEq, Repr

/-- R171. -/
inductive ResultCode where
  | ok | taken | busy | state | qfull | arg | frame
  deriving DecidableEq, Repr

/-- R172: the long command that occupies the slot; a ROLLBACK holds the port state noted when it was taken (R103). -/
inductive LongCommand where
  | closeEpoch
  | initJournal
  | rollback (noted : PortState)
  deriving DecidableEq, Repr

/-- R166: an edge on the lines of the management port: MCS# falls or rises, or MCK rises with a level on MDI, or falls. -/
inductive FrameEdge where
  | mcsFalls
  | mcsRises
  | mckRises (mdi : Bool)
  | mckFalls
  deriving DecidableEq, Repr

/-- Frame receive state, bits clocked of the byte that is not yet complete, level of MDO (none where it is undriven), bytes
received, response fixed and how many of its bytes were sent, last-frame-error flag, long-command slot and last long result. -/
structure ManagementPort where
  frame : FrameState
  bits : List Bool
  mdoLine : Option Bool
  received : List Byte
  response : List Byte
  sent : Nat
  lastError : Bool
  longCmd : Option LongCommand
  lastLong : LongResult
  deriving DecidableEq, Repr

/-- The machine: the ten blocks, the drain in progress, the next position in acceptance order, what the spec defines of
the persistent memory's bytes (R110), the edges to come on the management port's lines, and the commands waiting, both
first in, first out. -/
structure State where
  lines : UpstreamLines
  classifier : Classifier
  queue : List QueueEntry
  engine : Engine
  nextPos : Nat
  journal : Journal
  drain : Option Drain
  port : MemoryPort
  startup : Startup
  supply : SupplyUnit
  faults : FaultUnit
  mgmt : ManagementPort
  memory : List Host.Cell
  frameLines : List FrameEdge
  pending : List Instr
  deriving DecidableEq, Repr

/-- Why a step stops with a fault. No behaviour of the spec stops the part, so there is no constructor. -/
inductive Fault where
  deriving DecidableEq, Repr

/-- Why a step is refused. -/
inductive Refusal where
  /-- Raised by an arm of exec for a command that has no meaning yet; safe, since nothing follows from it. No arm does. -/
  | notModelled (mnemonic : String)
  deriving DecidableEq, Repr

/-- The outcome of a step. -/
abbrev Result := Host.Outcome State Fault Refusal

/-! ### Reset values -/

/-- R1: the reset value of every attribute set. -/
def Attributes.reset : Attributes := ⟨.posted, .prefetch, .off, false⟩

/-- R1: the reset value of a region. -/
def Region.reset : Region := ⟨false, 0, 0, Attributes.reset⟩

/-- R1, R8. -/
def Classifier.reset : Classifier := ⟨Vector.replicate 8 Region.reset, Attributes.reset, 0⟩

/-- R55, R68, R77, R78. -/
def Engine.reset : Engine :=
  ⟨Vector.replicate 4 none, Vector.replicate 8 .free, [], Config.resetClaimTimeout, Config.resetPrefetchDepth, 0⟩

/-- R80, R82, R84, R85, R86. -/
def Journal.reset : Journal := ⟨0, 0, .off, 1, 0, []⟩

/-- R121. -/
def MemoryPort.reset : MemoryPort := ⟨none, Config.resetAttemptLimit, .write, [], false⟩

/-- R126, R127: start-up at the start of a reset; the two reset lines are those of the reset. -/
def Startup.reset (inReset nrstLow : Bool) (cause : ResetCause) : Startup :=
  ⟨inReset, nrstLow, .starting, .loading, .none, .hold, .none, 0, cause, [], .idle, false⟩

/-- R158. -/
def Counters.reset : Counters := ⟨0, 0, 0, 0, 0, 0⟩

/-- R155, R158, R160, R162. -/
def FaultUnit.reset : FaultUnit := ⟨Vector.replicate 9 .noTraffic, Counters.reset, 0, 0x1FF, false, false⟩

/-- R166, R172. -/
def ManagementPort.reset : ManagementPort := ⟨.idle, [], none, [], [], 0, false, none, .none⟩

/-- R152: every latch cleared, and the FAIL latch then set. -/
def Latches.reset : Latches := ⟨false, false, false, true, false, false⟩

/-- R144, R145, R146, R148, R149, R150, R152: the unit of `State.reset`, with VDD above 2.20 V and below VFAIL, so both
comparators below and their two filters begun, and the WLOCK pin low (assumption log 4). -/
def SupplyUnit.reset : SupplyUnit :=
  { level := .from220, state := .fail, belowWarn := true, belowFail := true
    timers := ⟨some Config.belowWarnTime, some Config.belowFailTime, none, none, none⟩
    warnWatch := false, failWatch := false, warnLevel := Config.resetWarnLevel, nwarnLow := true
    wlockPin := false, wlock := false, wlockTimer := some Config.wlockTime, software := false
    latches := Latches.reset }

/-- The machine right after a power-on reset: the reset condition has ended, start-up is in LOADING and the image read
has begun (R126, R127). -/
def State.reset : State :=
  { lines := ⟨none⟩, classifier := Classifier.reset, queue := [], engine := Engine.reset, nextPos := 0
    journal := Journal.reset, drain := none, port := MemoryPort.reset, startup := Startup.reset false false .powerOn
    supply := SupplyUnit.reset, faults := FaultUnit.reset, mgmt := ManagementPort.reset, memory := []
    frameLines := [], pending := [] }

end Sys2Proof.Machine
end

