-- ==== Sys2Proof/Machine/Operands.lean ====
section
/-! DEFINITION. The operands of commands: a host request after the line-boundary cut (R21, R23), the attribute byte
(Table 11-1), the checks on region records, placements, parameters and event sets (R17, R105, R164, R165, R174), and the
configuration image (R131, R132, R178). -/

namespace Sys2Proof.Machine

/-! ### Host requests -/

/-- R21, R23: a request after the cut; `cut` says that it was cut. A read carries no data. -/
structure Request where
  kind : RequestKind
  initiator : BitVec 2
  line : Nat
  offset : Nat
  count : Nat
  data : Line
  cut : Bool
  deriving DecidableEq, Repr

/-- R23: the request of the bus fields, cut at the line boundary where (address mod 64) + count is above 64: it keeps the
address, its count becomes 64 − (address mod 64), and the data bytes past the count are discarded. -/
def requestAt (kind : RequestKind) (initiator : BitVec 2) (addr : BitVec 26) (ucount : BitVec 6) (data : Line) : Request :=
  let off := addr.toNat % 64
  let full := countOf ucount
  let n := if 64 < off + full then 64 - off else full
  { kind := kind, initiator := initiator, line := addr.toNat / 64, offset := off, count := n
    data := keepBytes n data, cut := decide (64 < off + full) }

/-- R22, R23: the answer that says the request is handled: DONE, or SHORT(n) where it was cut. -/
def Request.handled (r : Request) : Answer := if r.cut then .short (BitVec.ofNat 6 r.count) else .done

/-! ### Attribute byte (Table 11-1) -/

/-- Table 11-1, bits 1–0. -/
def writeModeOf (b : Byte) : WriteMode :=
  match b.toNat % 4 with
  | 0 => .posted
  | 1 => .durable
  | 2 => .readOnly
  | _ => .noAccess

/-- Table 11-1, bits 4–3; code 3 is invalid and is refused before it is used (R17, R132). -/
def guardModeOf (b : Byte) : GuardMode :=
  match b.toNat / 8 % 4 with
  | 1 => .all
  | 2 => .hashed
  | _ => .off

/-- Table 11-1: the attribute set of a byte. -/
def attributesOf (b : Byte) : Attributes :=
  ⟨writeModeOf b, if b.getLsbD 2 then .single else .prefetch, guardModeOf b, b.getLsbD 5⟩

/-- R17, R132: the guard mode code is other than 3 and the bits that carry no attribute are 0. -/
def attributeByteOk (b : Byte) : Bool := b.toNat / 8 % 4 != 3 && b.toNat / 64 == 0

/-- Table 11-1: the byte of a write mode. -/
def WriteMode.code : WriteMode → Nat
  | .posted => 0
  | .durable => 1
  | .readOnly => 2
  | .noAccess => 3

/-- Table 11-1: the code of a guard mode. -/
def GuardMode.code : GuardMode → Nat
  | .off => 0
  | .all => 1
  | .hashed => 2

/-- Table 11-1: the byte of an attribute set. -/
def Attributes.byte (a : Attributes) : Byte :=
  BitVec.ofNat 8 (a.writeMode.code + (if a.readMode = .single then 4 else 0) + a.guardMode.code * 8 +
    (if a.verify then 32 else 0))

/-! ### Checks on arguments -/

/-- R17, R132: base page, limit page, attribute byte and enable byte of a region record hold legal values. -/
def regionFieldsOk (base limit : Nat) (attr enable : Byte) : Bool :=
  decide (base ≤ limit) && decide (limit ≤ Config.lastPage) && attributeByteOk attr && decide (enable.toNat ≤ 1)

/-- R17: the record that legal fields give. -/
def regionOfFields (base limit : Nat) (attr enable : Byte) : Region := ⟨enable == 1, base, limit, attributesOf attr⟩

/-- R105: size at most 1024, base page at most 16383, base page plus size at most 16384. -/
def placementOk (base size : Nat) : Bool :=
  decide (size ≤ Config.maxJournalPages) && decide (base ≤ Config.lastPage) && decide (base + size ≤ Config.pages)

/-- R174: claim timeout and attempt limit other than 0, prefetch depth and WARN level at most 3. -/
def parametersOk (claim limit depth warn : Byte) : Bool :=
  claim != 0 && limit != 0 && decide (depth.toNat ≤ 3) && decide (warn.toNat ≤ 3)

/-- R164, R165: bits 15 to 9, which name no event, are 0. -/
def eventBitsOk (bits : BitVec 16) : Bool := decide (bits.toNat < 512)

/-! ### The configuration image (R131, R132, R178) -/

/-- R131: the bytes that the read puts into the shadow copy, in order from the first byte: all 75 where the first is C3h,
and otherwise the first alone, since reading stops there (R178). -/
def readImage (im : Image) : List Byte :=
  let bs := bytesOf 75 im.toNat
  if bs.getD 0 0 = Config.imageMarker then bs else bs.take 1

/-- Byte i of the shadow copy. -/
def imageByte (im : List Byte) (i : Nat) : Byte := im.getD i 0

/-- n bytes of the shadow copy from an offset, as a number. -/
def imageField (im : List Byte) (off n : Nat) : Nat := natOf ((im.drop off).take n)

/-- R178: base page, limit page, attribute byte and enable byte of region entry i, at offset 5 + 6i. -/
def imageRegionOk (im : List Byte) (i : Nat) : Bool :=
  regionFieldsOk (imageField im (5 + 6 * i) 2) (imageField im (7 + 6 * i) 2) (imageByte im (9 + 6 * i)) (imageByte im (10 + 6 * i))

/-- R178: region entry i of the image. -/
def imageRegion (im : List Byte) (i : Nat) : Region :=
  regionOfFields (imageField im (5 + 6 * i) 2) (imageField im (7 + 6 * i) 2) (imageByte im (9 + 6 * i)) (imageByte im (10 + 6 * i))

/-- R178: the checksum of the image: the sum of its first 73 bytes, modulo 65536. -/
def imageSum (im : List Byte) : Nat := ((im.take 73).foldl (fun a b => a + b.toNat) 0) % 65536

/-- R132: every field of the image holds a value that the matching command would accept. -/
def imageFieldsOk (im : List Byte) : Bool :=
  attributeByteOk (imageByte im 4) && (List.range 8).all (imageRegionOk im) &&
    placementOk (imageField im 61 2) (imageField im 63 2) && decide ((imageByte im 65).toNat ≤ 1) &&
    parametersOk (imageByte im 66) (imageByte im 67) (imageByte im 68) (imageByte im 69) &&
    decide (imageField im 70 2 < 512) && decide ((imageByte im 72).toNat ≤ 1)

/-- R131, R178: the configuration load result that the image read ends with. -/
def judgeImage (im : List Byte) : LoadResult :=
  if imageByte im 0 = Config.imageAbsent then .absent
  else if imageByte im 0 = Config.imageMarker ∧ imageByte im 1 = 1 ∧ imageField im 2 2 = 75 ∧
      imageField im 73 2 = imageSum im ∧ imageFieldsOk im then .loaded
  else .bad

end Sys2Proof.Machine
end

