-- ==== Sys2Proof/Machine/Classify.lean ====
section
/-! DEFINITION. The access classifier (chapter 1): the region of a page, the journal area, guarding, and the
classification of a request. -/

namespace Sys2Proof.Machine

/-- 6.2 of 00_scope.md: the page of a line. -/
def pageOf (line : Nat) : Nat := line / 64

/-- R2: an enabled region whose range contains the page. -/
def Region.contains (r : Region) (page : Nat) : Bool := r.enable && decide (r.basePage ≤ page) && decide (page ≤ r.limitPage)

/-- R2: the region of a page: the lowest-numbered enabled region that contains it, and otherwise index 8. -/
def Classifier.regionOf (c : Classifier) (page : Nat) : Fin 9 :=
  Fin.ofNat 9 (c.regions.toList.findIdx fun r => r.contains page)

/-- R1, R3: the attribute set of a region index. -/
def Classifier.attributesAt (c : Classifier) (i : Fin 9) : Attributes :=
  if h : i.val < 8 then c.regions[i.val].attributes else c.background

/-- R10: the line lies in the journal area; with size 0 none does. -/
def Journal.inArea (j : Journal) (line : Nat) : Bool :=
  decide (j.basePage ≤ pageOf line) && decide (pageOf line < j.basePage + j.sizePages)

/-- R9: the guard index of a page, the exclusive-or of the three parts of its number. -/
def guardIndex (page : Nat) : Nat := (page % 64) ^^^ (page / 64 % 64) ^^^ (page / 4096)

/-- R7: the line is guarded. -/
def State.isGuarded (s : State) (line : Nat) : Bool :=
  !s.journal.inArea line &&
    match (s.classifier.attributesAt (s.classifier.regionOf (pageOf line))).guardMode with
    | .off => false
    | .all => true
    | .hashed => s.classifier.guardFilter.getLsbD (guardIndex (pageOf line))

/-- R12, R13: the classification of a request for a line, with reservation kind NONE; a journal area line is SINGLE (R11). -/
def State.classify (s : State) (line : Nat) : Classification :=
  let region := s.classifier.regionOf (pageOf line)
  let a := s.classifier.attributesAt region
  { region := region, readMode := if s.journal.inArea line then .single else a.readMode
    guarded := s.isGuarded line, reservation := .none, verify := a.verify }

/-- The write mode of a line's region, which is not captured (R4). -/
def State.writeModeAt (s : State) (line : Nat) : WriteMode :=
  (s.classifier.attributesAt (s.classifier.regionOf (pageOf line))).writeMode

/-- The body of an entry made for a request (R36, R55). -/
def bodyOf (r : Request) (c : Classification) (pos : Nat) : Body :=
  { line := r.line, offset := r.offset, count := r.count, data := r.data, mask := byteMask r.offset r.count, cls := c
    recorded := false, pos := pos }

end Sys2Proof.Machine
end

