-- ==== Sys2Proof/Machine/Flags.lean ====
section
/-! DEFINITION. Everything the part raises, counts or flags: events and IRQ#, region fault codes, counters, inhibit
latches, and the status byte. -/

namespace Sys2Proof.Machine

/-! ### Events and IRQ# (R160 to R162) -/

/-- R160: the bit of an event. -/
def EventKind.bit : EventKind → BitVec 9
  | .startupDone => 0x001
  | .portHold => 0x002
  | .regionFault => 0x004
  | .inhibit => 0x008
  | .journal => 0x010
  | .longDone => 0x020
  | .failedLine => 0x040
  | .mgmtError => 0x080
  | .counterSat => 0x100

/-- R162: at least one event has its pending bit at 1 and its mask bit at 0. -/
def irqCondition (events mask : BitVec 9) : Bool := events &&& ~~~ mask != 0

/-- R162: the pending set, the mask set and the visibility flag take values, and IRQ# follows at the same event. -/
def State.setEvents (events mask : BitVec 9) (visible : Bool) (s : State) : State :=
  { s with faults := { s.faults with events := events, mask := mask, visible := visible
                                     irqLow := irqCondition events mask } }

/-- R161: a cause raises an event: recorded when it is unmasked or visibility is 1, and otherwise not. -/
def State.raise (k : EventKind) (s : State) : State :=
  if s.faults.mask &&& k.bit = 0 ∨ s.faults.visible then
    s.setEvents (s.faults.events ||| k.bit) s.faults.mask s.faults.visible
  else s

/-! ### Counters (R158) -/

/-- The counter of a kind. -/
def Counters.get (c : Counters) : CounterKind → BitVec 16
  | .memRetry => c.memRetry
  | .verifyMismatch => c.verifyMismatch
  | .claimLost => c.claimLost
  | .noRoom => c.noRoom
  | .journalRecords => c.journalRecords
  | .frameErrors => c.frameErrors

/-- The counters with the one of a kind replaced. -/
def Counters.set (c : Counters) (k : CounterKind) (v : BitVec 16) : Counters :=
  match k with
  | .memRetry => { c with memRetry := v }
  | .verifyMismatch => { c with verifyMismatch := v }
  | .claimLost => { c with claimLost := v }
  | .noRoom => { c with noRoom := v }
  | .journalRecords => { c with journalRecords := v }
  | .frameErrors => { c with frameErrors := v }

/-- R158: the counters take values. -/
def State.setCounters (c : Counters) (s : State) : State := { s with faults := { s.faults with counters := c } }

/-- R158: a count raises a counter below 65535 by 1, and COUNTER_SAT when it reaches 65535; it leaves 65535 as it is. -/
def State.count (k : CounterKind) (s : State) : State :=
  let v := s.faults.counters.get k
  if v = BitVec.allOnes 16 then s
  else
    let s1 := s.setCounters (s.faults.counters.set k (v + 1))
    if v + 1 = BitVec.allOnes 16 then s1.raise .counterSat else s1

/-! ### Region fault codes (R155, R156) -/

/-- R155: the code byte, which is also the priority: the smaller the more severe. -/
def RegionCode.byte : RegionCode → Nat
  | .memoryFail => 1
  | .journalFail => 2
  | .journalFull => 3
  | .claimLost => 4
  | .refused => 5
  | .recovered => 6
  | .clean => 7
  | .noTraffic => 8

/-- R156: a change into one of these four codes raises REGION_FAULT. -/
def RegionCode.isFault (c : RegionCode) : Bool := c.byte ≤ 4

/-- R155: the region codes take values. -/
def State.setCodes (v : Vector RegionCode 9) (s : State) : State := { s with faults := { s.faults with codes := v } }

/-- R156: a code report: the region takes the more severe of its present code and the reported one, and REGION_FAULT is
raised at a change into one of the four fault codes. -/
def State.report (region : Fin 9) (code : RegionCode) (s : State) : State :=
  if code.byte < s.faults.codes[region].byte then
    let s1 := s.setCodes (s.faults.codes.set region code)
    if code.isFault then s1.raise .regionFault else s1
  else s

/-! ### Inhibit sources (R151, R152) -/

/-- R151: the journal inhibit holds in every journal state but ACTIVE and OFF. -/
def JournalState.inhibits : JournalState → Bool
  | .active => false
  | .off => false
  | .unknown => true
  | .pending => true
  | .closing => true
  | .rolling => true
  | .failed => true

/-- R152: the state of an inhibit source holds; GLITCH has no state. -/
def State.inhibitHolds (s : State) : InhibitSource → Bool
  | .wlock => s.supply.wlock
  | .software => s.supply.software
  | .warn => s.supply.state == .warn
  | .fail => s.supply.state == .fail
  | .journal => s.journal.state.inhibits
  | .glitch => false

/-- The latch of a source. -/
def Latches.get (l : Latches) : InhibitSource → Bool
  | .wlock => l.wlock
  | .software => l.software
  | .warn => l.warn
  | .fail => l.fail
  | .journal => l.journal
  | .glitch => l.glitch

/-- The latches with the one of a source replaced. -/
def Latches.set (l : Latches) (k : InhibitSource) (b : Bool) : Latches :=
  match k with
  | .wlock => { l with wlock := b }
  | .software => { l with software := b }
  | .warn => { l with warn := b }
  | .fail => { l with fail := b }
  | .journal => { l with journal := b }
  | .glitch => { l with glitch := b }

/-- The latches take values. -/
def State.setLatches (l : Latches) (s : State) : State := { s with supply := { s.supply with latches := l } }

/-- R152: a latch is set; going from clear to set raises INHIBIT. -/
def State.setLatch (k : InhibitSource) (s : State) : State :=
  if s.supply.latches.get k then s else (s.setLatches (s.supply.latches.set k true)).raise .inhibit

/-- R179, bit 3: at least one of the five inhibit states holds. -/
def State.anyInhibit (s : State) : Bool :=
  s.inhibitHolds .wlock || s.inhibitHolds .software || s.inhibitHolds .warn || s.inhibitHolds .fail ||
    s.inhibitHolds .journal

/-! ### The status byte (R179) -/

/-- R107, R179 bit 4: the journal attention bit. -/
def JournalState.attention : JournalState → Bool
  | .unknown => true
  | .pending => true
  | .failed => true
  | .off => false
  | .active => false
  | .closing => false
  | .rolling => false

/-- Eight flags as a byte, the first at bit 0. -/
def flagByte (b0 b1 b2 b3 b4 b5 b6 b7 : Bool) : Byte :=
  BitVec.ofBool b7 ++ BitVec.ofBool b6 ++ BitVec.ofBool b5 ++ BitVec.ofBool b4 ++ BitVec.ofBool b3 ++ BitVec.ofBool b2 ++
    BitVec.ofBool b1 ++ BitVec.ofBool b0

/-- R179: the status byte of a state, with bit 7 the last-frame-error flag as it stood before the frame's event. -/
def State.statusByte (s : State) (lastError : Bool) : Byte :=
  flagByte (s.startup.portState == .opened) (s.startup.portState == .starting || s.startup.portState == .rolling)
    s.faults.irqLow s.anyInhibit s.journal.state.attention s.mgmt.longCmd.isSome (s.startup.loadResult == .bad) lastError

end Sys2Proof.Machine
end

