-- ==== Sys2Proof/Machine/Memory.lean ====
section
/-! DEFINITION. What the spec defines of the persistent memory's content (R109, R110): a list of (address, byte) cells in
canonical form, addresses strictly rising and below 2^26. A byte that no cell lists has no defined value: no write has
defined it yet, or its line is undefined (assumption log 3). Only a LINE WRITE that succeeds defines a byte; a LINE READ
changes nothing here. The part itself never reads this: the bytes of a LINE READ come with the devices' answer. -/

namespace Sys2Proof.Machine.Memory

/-- The byte that memory is defined to hold at an address, if any. -/
def read (m : List Host.Cell) (a : Nat) : Option Byte := (m.find? fun c => c.1 == a).map (·.2)

/-- The cells of a line, from the bytes its content defines. -/
def lineCells (line : Nat) (f : Nat → Option Byte) : List Host.Cell :=
  (List.range 64).filterMap fun i => (f i).map fun b => (64 * line + i, b)

/-- The content of a line replaced; there is no line past the last (6.2 of 00_scope.md). -/
def setLine (line : Nat) (f : Nat → Option Byte) (m : List Host.Cell) : List Host.Cell :=
  if line < Config.lines then
    (m.filter fun c => decide (c.1 < 64 * line)) ++ lineCells line f ++ (m.filter fun c => decide (64 * line + 64 ≤ c.1))
  else m

/-- R110: a LINE WRITE answered OK: the enabled bytes hold the data sent, and the other bytes are as they were. -/
def writeLine (line : Nat) (mask : BitVec 64) (data : Line) (m : List Host.Cell) : List Host.Cell :=
  setLine line (fun i => if mask.getLsbD i then some (lineByte data i) else read m (64 * line + i)) m

/-- R110: every byte of the line is undefined. -/
def forgetLine (line : Nat) (m : List Host.Cell) : List Host.Cell := setLine line (fun _ => none) m

/-- The canonical form: addresses strictly rising, all of them addresses of memory. -/
def wf (m : List Host.Cell) : Bool :=
  decide (m.Pairwise fun a b => a.1 < b.1) && m.all fun c => decide (c.1 < Config.bytes)

end Sys2Proof.Machine.Memory
end

