-- ==== Sys2Proof/Machine/Ops.lean ====
section
/-! DEFINITION. Named operations shared by the blocks: the journal state, reservations and records; the long-command
slot; the failed-line list; the delayed request table and the read buffer; the write order. -/

namespace Sys2Proof.Machine

/-- The oldest of items that carry a position or an age: the one with the least. -/
def oldest {α : Type} : List (α × Nat) → Option (α × Nat)
  | [] => none
  | x :: xs =>
    match oldest xs with
    | none => some x
    | some y => if y.2 < x.2 then some y else some x

/-! ### Journal state (R82, R83) -/

/-- The journal controller takes values. -/
def State.setJournal (j : Journal) (s : State) : State := { s with journal := j }

/-- R82, R151, R152: the journal state moves; a change raises JOURNAL, and the JOURNAL latch is set where the journal
inhibit holds. -/
def State.setJournalState (st : JournalState) (s : State) : State :=
  if s.journal.state = st then s
  else
    let s1 := (s.setJournal { s.journal with state := st }).raise .journal
    if st.inhibits then s1.setLatch .journal else s1

/-- R80: the capacity in records, C = (64 × size − 1) div 2, and 0 with size 0. -/
def Journal.capacity (j : Journal) : Nat := (64 * j.sizePages - 1) / 2

/-- R81: the absolute line of an area line. -/
def Journal.areaLine (j : Journal) (i : Nat) : Nat := j.basePage * 64 + i

/-- R86: the line is in the epoch line set. -/
def Journal.inSet (j : Journal) (line : Nat) : Bool := j.lineSet.any fun e => e.1 == line

/-- R86: the line is in the epoch line set marked RECORDED. -/
def Journal.isRecorded (j : Journal) (line : Nat) : Bool := j.lineSet.any fun e => e.1 == line && e.2 == .recorded

/-- R86: the line's RESERVED mark becomes RECORDED. -/
def Journal.record (j : Journal) (line : Nat) : Journal :=
  { j with lineSet := j.lineSet.map fun e => if e.1 = line then (e.1, .recorded) else e }

/-- R99, R101, R105, R141: a new epoch number, W 0 and the set cleared. -/
def Journal.clear (j : Journal) (epoch : BitVec 32) : Journal := { j with epoch := epoch, written := 0, lineSet := [] }

/-! ### Long-command slot (R172) -/

/-- The slot is occupied by a long command. -/
def State.takeLong (c : LongCommand) (s : State) : State := { s with mgmt := { s.mgmt with longCmd := some c } }

/-- R172: the slot is freed, the last long result set and LONG_DONE raised. -/
def State.endLong (r : LongResult) (s : State) : State :=
  ({ s with mgmt := { s.mgmt with longCmd := none, lastLong := r } } : State).raise .longDone

/-- R102: the header write of an INIT JOURNAL is outstanding. -/
def State.initOutstanding (s : State) : Bool := s.mgmt.longCmd == some .initJournal

/-! ### Failed-line list (R122) -/

/-- The memory port takes values. -/
def State.setPort (p : MemoryPort) (s : State) : State := { s with port := p }

/-- R122: the line of an operation that failed: nothing where the operation has no failure kind or the line is listed;
otherwise an entry at the end and FAILED_LINE, or the overflow flag where 8 entries stand. -/
def State.listFailure (op : Operation) (s : State) : State :=
  match op.failure with
  | none => s
  | some k =>
    if s.port.failed.any fun f => f.line == op.line then s
    else if s.port.failed.length < Config.failedListSize then
      (s.setPort { s.port with failed := s.port.failed ++ [⟨op.line, k, op.region⟩] }).raise .failedLine
    else s.setPort { s.port with overflow := true }

/-! ### Delayed request table and read buffer (R55, R68) -/

/-- The engine takes values. -/
def State.setEngine (e : Engine) (s : State) : State := { s with engine := e }

/-- A place of the table takes an entry or none. -/
def State.setEntry (p : Fin 4) (e : Option DelayedEntry) (s : State) : State :=
  s.setEngine { s.engine with table := s.engine.table.set p e }

/-- A slot of the read buffer takes a value. -/
def State.setSlot (i : Fin 8) (x : Slot) (s : State) : State :=
  s.setEngine { s.engine with slots := s.engine.slots.set i x }

/-- R55: the table occupancy. -/
def Engine.occupancy (e : Engine) : Nat := e.table.toList.countP (·.isSome)

/-- A place of the table that holds no entry, the lowest (assumption log 9). -/
def Engine.freePlace (e : Engine) : Option (Fin 4) := (List.finRange 4).find? fun p => (e.table[p]).isNone

/-- The entries of the table with their places. -/
def Engine.entries (e : Engine) : List (Fin 4 × DelayedEntry) :=
  (List.finRange 4).filterMap fun p => (e.table[p]).map fun x => (p, x)

/-- The line a slot holds, FILLING or VALID. -/
def Slot.holds : Slot → Nat → Bool
  | .free, _ => false
  | .filling l _ _, line => l == line
  | .valid l _ _ _, line => l == line

/-- R71, R72: the line is in a slot, FILLING or VALID. -/
def Engine.inSlot (e : Engine) (line : Nat) : Bool := e.slots.toList.any fun x => x.holds line

/-- The slot that is FILLING, of which there is at most one (R68). -/
def Engine.fillingSlot (e : Engine) : Option (Fin 8 × Nat × Bool × Option (Fin 4)) :=
  (List.finRange 8).findSome? fun i =>
    match e.slots[i] with
    | .filling l st o => some (i, l, st, o)
    | .free => none
    | .valid _ _ _ _ => none

/-- R30 step 6, R70: a VALID slot that holds the line, owned or not. Two such slots hold the same bytes (R64), but for a line of
the journal area: R107 lets the journal's own writes leave a slot as it is, so a record written between two fills makes their
bytes differ, and R70 does not say which slot serves. That the one of lowest index does is the model's choice (DESIGN CHOICE,
assumption log 23). -/
def Engine.validSlot (e : Engine) (line : Nat) : Option Line :=
  (List.finRange 8).findSome? fun i =>
    match e.slots[i] with
    | .valid l d _ _ => if l = line then some d else none
    | .free => none
    | .filling _ _ _ => none

/-- R69: a free slot, the lowest, and otherwise the VALID slot of oldest age that has no owner. -/
def Engine.slotToTake (e : Engine) : Option (Fin 8) :=
  match (List.finRange 8).find? fun i => e.slots[i] == .free with
  | some i => some i
  | none =>
    (oldest ((List.finRange 8).filterMap fun i =>
      match e.slots[i] with
      | .valid _ _ none age => some (i, age)
      | .valid _ _ (some _) _ => none
      | .free => none
      | .filling _ _ _ => none)).map (·.1)

/-- R73: the claim timer's length, claim timeout × 16 µs, from the parameter as it stands. -/
def Engine.claimTime (e : Engine) : Nat := e.claimTimeout.toNat * Config.claimUnit

/-! ### Write order (R38, R52, R57, R58) -/

/-- R38: a delayed write entry that has not left the write order. -/
def DelayedEntry.isPendingWrite (e : DelayedEntry) : Bool :=
  e.kind == .write && match e.state with
    | .waiting => true
    | .issued => true
    | .complete _ => false

/-- The body of a write entry of the queue; a close marker has none. -/
def QueueEntry.body : QueueEntry → Option Body
  | .write b => some b
  | .marker _ => none

/-- The position of an entry of the queue. -/
def QueueEntry.pos : QueueEntry → Nat
  | .write b => b.pos
  | .marker p => p

/-- The body of the write whose drain is in progress after RESET UPSTREAM removed its entry (R76). -/
def State.removedBody (s : State) : Option Body :=
  match s.drain with
  | some ⟨.removed b, _, _, _⟩ => some b
  | some ⟨.postedWrite, _, _, _⟩ => none
  | some ⟨.closeMarker, _, _, _⟩ => none
  | some ⟨.delayedWrite _, _, _, _⟩ => none
  | none => none

/-- R38, R52: the bodies of the writes in the write order: posted write entries, delayed write entries that are not
COMPLETE, and a removed delayed write whose operation is in flight. -/
def State.writesInOrder (s : State) : List Body :=
  s.queue.filterMap QueueEntry.body ++
    ((s.engine.entries.filter fun e => e.2.isPendingWrite).map fun e => e.2.body) ++ s.removedBody.toList

/-- R58: no write to the entry's line that stands earlier in position is in the write order. -/
def State.isReady (s : State) (b : Body) : Bool :=
  s.writesInOrder.all fun w => !(w.line == b.line && decide (w.pos < b.pos))

/-- R62, R64: the ready WAITING read entry with the oldest position, of those whose line satisfies a condition. -/
def State.oldestReadyRead (lineOk : Nat → Bool) (s : State) : Option (Fin 4) :=
  (oldest (s.engine.entries.filterMap fun e =>
    if e.2.kind = .read ∧ e.2.state = .waiting ∧ lineOk e.2.body.line ∧ s.isReady e.2.body then some (e.1, e.2.body.pos)
    else none)).map (·.1)

/-- R38: the oldest delayed write entry in the write order, with its position. -/
def State.oldestDelayedWrite (s : State) : Option (Fin 4 × Nat) :=
  oldest ((s.engine.entries.filter fun e => e.2.isPendingWrite).map fun e => (e.1, e.2.body.pos))

/-- R38: the head of the write order: the oldest of the queue's head and the delayed write entries. -/
def State.headItem (s : State) : Option DrainItem :=
  match s.queue, s.oldestDelayedWrite with
  | [], none => none
  | [], some (p, _) => some (.delayedWrite p)
  | .write _ :: _, none => some .postedWrite
  | .marker _ :: _, none => some .closeMarker
  | .write b :: _, some (p, n) => some (if n < b.pos then .delayedWrite p else .postedWrite)
  | .marker m :: _, some (p, n) => some (if n < m then .delayedWrite p else .closeMarker)

/-- The body of the item a drain is for; a close marker has none. -/
def State.itemBody (s : State) : DrainItem → Option Body
  | .postedWrite => s.queue.head?.bind QueueEntry.body
  | .closeMarker => none
  | .delayedWrite p => (s.engine.table[p]).map (·.body)
  | .removed b => some b

/-! ### Reservations (R87) -/

/-- R87: an entry of kind OWN whose record has not completed. -/
def Body.holdsOwn (b : Body) : Bool := b.cls.reservation == .own && !b.recorded

/-- R87: R, the RESERVED entries of the set and the pending write entries of kind OWN without a completed record. -/
def State.reservations (s : State) : Nat :=
  (s.journal.lineSet.countP fun e => e.2 == .reserved) + s.writesInOrder.countP Body.holdsOwn

/-- R27, R88: the reservation kind that a guarded write to a line would take, or none where no reservation is possible. -/
def State.reservationFor (s : State) (line : Nat) : Option ReservationKind :=
  if s.journal.inSet line then some .none
  else if s.journal.written + s.reservations < s.journal.capacity then
    some (if s.journal.lineSet.length < Config.lineSetSize then .listed else .own)
  else none

/-- R86, R88: at acceptance a LISTED reservation enters the set as RESERVED; NONE and OWN add nothing. -/
def State.takeReservation (k : ReservationKind) (line : Nat) (s : State) : State :=
  match k with
  | .listed => s.setJournal { s.journal with lineSet := s.journal.lineSet ++ [(line, .reserved)] }
  | .none => s
  | .own => s

end Sys2Proof.Machine
end

