-- ==== Sys2Proof/Machine/Engine.lean ====
section
/-! DEFINITION. The delayed request engine (chapter 4): freshness, adoption, the issue and the end of demand fills and
prefetches, and the leaving of entries. -/

namespace Sys2Proof.Machine

/-! ### Operations of the read class (R112) -/

/-- R122: region index 9, none. -/
def noRegion : Fin 10 := 9

/-- R109, R111, R113: a LINE READ at its first attempt. -/
def readOp (owner : Owner) (line limit : Nat) (failure : Option FailureKind) (region : Fin 10) : Operation :=
  { kind := .lineRead, line := line, data := 0, mask := 0, verify := false, limit := limit, attempts := 1
    phase := .awaiting, next := .attemptAgain, owner := owner, failure := failure, region := region }

/-- R109, R111, R113: a LINE WRITE at its first attempt. -/
def writeOp (owner : Owner) (line : Nat) (data : Line) (mask : BitVec 64) (verify : Bool) (limit : Nat)
    (failure : FailureKind) (region : Fin 10) : Operation :=
  { kind := .lineWrite, line := line, data := data, mask := mask, verify := verify, limit := limit, attempts := 1
    phase := .awaiting, next := .attemptAgain, owner := owner, failure := some failure, region := region }

/-- R113, R118: an operation is granted and its first attempt issued. -/
def State.issue (op : Operation) (s : State) : State := s.setPort { s.port with op := some op }

/-- R118: the class granted last. -/
def State.grantedTo (c : PortClass) (s : State) : State := s.setPort { s.port with lastClass := c }

/-! ### Adoption and release of slots (R64, R68) -/

/-- R55, R73: an entry becomes COMPLETE with a result, and its claim timer starts. -/
def State.completeEntry (p : Fin 4) (e : DelayedEntry) (r : EntryResult) (slot : Option (Fin 8)) (s : State) : State :=
  s.setEntry p (some { e with state := .complete r, slot := slot, timer := some s.engine.claimTime })

/-- R64: a slot has become VALID and unowned: the ready WAITING read entry of its line with the oldest position adopts it
and becomes COMPLETE with result OK, and CLEAN is reported. -/
def State.adopt (i : Fin 8) (s : State) : State :=
  match s.engine.slots[i] with
  | .valid line data none age =>
    match s.oldestReadyRead (fun l => l == line) with
    | some p =>
      match s.engine.table[p] with
      | some e =>
        ((s.setSlot i (.valid line data (some p) age)).completeEntry p e .ok (some i)).report e.body.cls.region .clean
      | none => s
    | none => s
  | .valid _ _ (some _) _ => s
  | .free => s
  | .filling _ _ _ => s

/-- R31, R74: the entry that owned a slot has gone: the slot stays VALID, becomes unowned, and R64 applies to it. -/
def State.releaseSlot (slot : Option (Fin 8)) (s : State) : State :=
  match slot with
  | none => s
  | some i =>
    match s.engine.slots[i] with
    | .valid line data _ age => (s.setSlot i (.valid line data none age)).adopt i
    | .free => s
    | .filling _ _ _ => s

/-- R31, R74: an entry is removed, its claim timer with it, and a COMPLETE read's slot becomes unowned. -/
def State.removeEntry (p : Fin 4) (e : DelayedEntry) (s : State) : State := (s.setEntry p none).releaseSlot e.slot

/-! ### Freshness (R65) -/

/-- R65: a slot after a write to a line: VALID slots of the line are freed and FILLING ones marked stale. -/
def Slot.refresh (line : Nat) : Slot → Slot
  | .free => .free
  | .filling l st o => if l = line then .filling l true o else .filling l st o
  | .valid l d o a => if l = line then .free else .valid l d o a

/-- R65: a COMPLETE read entry returns to WAITING, its timer stopped, its slot and result gone. -/
def DelayedEntry.restart (e : DelayedEntry) : DelayedEntry :=
  match e.state with
  | .complete _ => { e with state := .waiting, slot := none, timer := none }
  | .waiting => e
  | .issued => e

/-- R65: the entry is a read entry of the line. -/
def DelayedEntry.readsLine (e : DelayedEntry) (line : Nat) : Bool := e.kind == .read && e.body.line == line

/-- R57: how many read entries of the line stand before a position. -/
def Engine.readsBefore (e : Engine) (line pos : Nat) : Nat :=
  e.entries.countP fun x => x.2.readsLine line && decide (x.2.body.pos < pos)

/-- R57: how many read entries the line has. -/
def Engine.readsOf (e : Engine) (line : Nat) : Nat := e.entries.countP fun x => x.2.readsLine line

/-- R57, R65: an entry after a write to a line: a read entry of the line is moved to just after the write, in the order
it had among those moved, and returns from COMPLETE. -/
def Engine.refreshEntry (g : Engine) (line first : Nat) (e : DelayedEntry) : DelayedEntry :=
  if e.readsLine line then
    { e.restart with body := { e.body with pos := first + g.readsBefore line e.body.pos } }
  else e

/-- R65: the freshness actions for a write to a line, `first` being the position just after the write's. -/
def Engine.refresh (g : Engine) (line first : Nat) : Engine :=
  { g with
    table := Vector.ofFn fun p => (g.table[p]).map (g.refreshEntry line first)
    slots := Vector.ofFn fun i => (g.slots[i]).refresh line
    prefetch := g.prefetch.filter fun l => l != line }

/-- R29, R57, R65: a write to a line has taken the newest position; the freshness actions follow. -/
def State.freshen (line : Nat) (s : State) : State :=
  { s with engine := s.engine.refresh line (s.nextPos + 1), nextPos := s.nextPos + 1 + s.engine.readsOf line }

/-! ### Demand fills (R62, R63, R66, R71) -/

/-- R16, R71: a candidate line for prefetch after line L is queued: same region as the demand's, outside the journal area,
in the 1 KiB block of L, in no slot, and with no write in the write order. -/
def State.mayPrefetch (s : State) (region : Fin 9) (first line : Nat) : Bool :=
  s.classifier.regionOf (pageOf line) == region && !s.journal.inArea line &&
    line / Config.blockLines == first / Config.blockLines && !s.engine.inSlot line &&
    s.writesInOrder.all fun w => w.line != line

/-- R71: the run of lines from line L + i on, at most n of them, up to the first candidate that may not be queued. -/
def State.prefetchRun (s : State) (region : Fin 9) (first : Nat) : Nat → Nat → List Nat
  | _, 0 => []
  | i, n + 1 =>
    if s.mayPrefetch region first (first + i) then (first + i) :: s.prefetchRun region first (i + 1) n else []

/-- R5, R71: the prefetch list after the demand fill of an entry is issued. -/
def State.prefetchFor (s : State) (b : Body) : List Nat :=
  match b.cls.readMode with
  | .single => []
  | .prefetch => s.prefetchRun b.cls.region b.line 1 s.engine.prefetchDepth.toNat

/-- R62: the memory port takes the demand fill of an entry: it becomes ISSUED, a slot is taken and set FILLING, and a new
prefetch run is queued. A slot is always found (R69). -/
def State.grantDemand (p : Fin 4) (s : State) : State :=
  match s.engine.table[p], s.engine.slotToTake with
  | some e, some i =>
    let s1 := (s.setEntry p (some { e with state := .issued, slot := some i })).setSlot i (.filling e.body.line false (some p))
    let s2 := s1.setEngine { s1.engine with prefetch := s1.prefetchFor e.body }
    (s2.grantedTo .read).issue
      (readOp .demandFill e.body.line s.port.attemptLimit.toNat (some .read) e.body.cls.region.castSucc)
  | some _, none => s
  | none, _ => s

/-- R72: the memory port takes a line of the prefetch list, `rest` being what is left of the list: a LINE READ with one
attempt into a slot set FILLING, unowned. R112 gives it no failure kind and no region index, so the index is none and nothing
reads it. -/
def State.grantPrefetch (line : Nat) (rest : List Nat) (s : State) : State :=
  let s0 := s.setEngine { s.engine with prefetch := rest }
  match s0.engine.slotToTake with
  | some i =>
    ((s0.setSlot i (.filling line false none)).grantedTo .read).issue (readOp .prefetch line 1 none noRegion)
  | none => s0

/-- R66: a stale fill's owning entry returns from ISSUED to WAITING, with no demand slot. -/
def State.returnReader (owner : Option (Fin 4)) (s : State) : State :=
  match owner with
  | none => s
  | some p =>
    match s.engine.table[p] with
    | some e => s.setEntry p (some { e with state := .waiting, slot := none })
    | none => s

/-- R63: the slot of a fill becomes VALID with the newest age. -/
def State.fillSlot (i : Fin 8) (line : Nat) (data : Line) (owner : Option (Fin 4)) (s : State) : State :=
  let s1 := s.setSlot i (.valid line data owner s.engine.nextAge)
  s1.setEngine { s1.engine with nextAge := s.engine.nextAge + 1 }

/-- R63, R66: a demand fill ends in success. A stale fill is discarded; a fill whose entry RESET UPSTREAM removed finds no
FILLING slot and reaches nothing (R76). -/
def State.demandSucceeded (data : Line) (first : Bool) (s : State) : State :=
  match s.engine.fillingSlot with
  | none => s
  | some (i, _, true, owner) => (s.setSlot i .free).returnReader owner
  | some (i, line, false, owner) =>
    let s1 := s.fillSlot i line data owner
    match owner with
    | none => s1
    | some p =>
      match s1.engine.table[p] with
      | some e => (s1.completeEntry p e .ok (some i)).report e.body.cls.region (if first then .clean else .recovered)
      | none => s1

/-- R63, R66: a demand fill ends in failure: its slot is freed; a stale fill returns its entry to WAITING, and otherwise
the entry becomes COMPLETE with FAIL and MEMORY_FAIL is reported. -/
def State.demandFailed (s : State) : State :=
  match s.engine.fillingSlot with
  | none => s
  | some (i, _, true, owner) => (s.setSlot i .free).returnReader owner
  | some (i, _, false, owner) =>
    let s1 := s.setSlot i .free
    match owner with
    | none => s1
    | some p =>
      match s1.engine.table[p] with
      | some e => (s1.completeEntry p e .fail none).report e.body.cls.region .memoryFail
      | none => s1

/-- R66, R72: a prefetch ends in success: its slot becomes VALID with the newest age and R64 applies to it, or is freed
where it was marked stale. -/
def State.prefetchSucceeded (data : Line) (s : State) : State :=
  match s.engine.fillingSlot with
  | none => s
  | some (i, _, true, _) => s.setSlot i .free
  | some (i, line, false, _) => (s.fillSlot i line data none).adopt i

/-- R72: a prefetch ends in failure: its slot is freed. -/
def State.prefetchFailed (s : State) : State :=
  match s.engine.fillingSlot with
  | none => s
  | some (i, _, _, _) => s.setSlot i .free

/-! ### Emptying (R75, R103) -/

/-- R103: every read buffer slot is freed and the prefetch list emptied; a fill in flight is discarded when it ends, and
its slot is freed then. -/
def Slot.discard : Slot → Slot
  | .free => .free
  | .filling l _ o => .filling l true o
  | .valid _ _ _ _ => .free

/-- R103: the engine when ROLLBACK is taken. -/
def Engine.freeBuffer (g : Engine) : Engine :=
  { g with slots := Vector.ofFn fun i => (g.slots[i]).discard, prefetch := [] }

/-- R75: the engine after RESET UPSTREAM: no entry, every slot free, no prefetch. -/
def Engine.empty (g : Engine) : Engine :=
  { g with table := Vector.replicate 4 none, slots := Vector.replicate 8 .free, prefetch := [] }

end Sys2Proof.Machine
end

