-- ==== Sys2Proof/Machine/Drain.lean ====
section
/-! DEFINITION. The drain of the head of the write order (chapters 3, 4 and 5): its beginning, its operations, and what
their outcomes do to the entry, the journal, the region codes and the long-command slot. -/

namespace Sys2Proof.Machine

/-- The drain in progress takes a value. -/
def State.setDrain (d : Option Drain) (s : State) : State := { s with drain := d }

/-- R35, R47: the head of the posted write queue leaves it. -/
def State.popQueue (s : State) : State := { s with queue := s.queue.tail }

/-- R42 to R46, R61: a write entry leaves the write order: a posted entry leaves the queue, a delayed entry becomes COMPLETE
with a result and its claim timer starts, and either reports a code for its captured region. An entry that RESET UPSTREAM
removed reports nothing (R76). -/
def State.leave (item : DrainItem) (code : RegionCode) (r : EntryResult) (s : State) : State :=
  match item with
  | .postedWrite =>
    match s.itemBody .postedWrite with
    | some b => (s.popQueue.setDrain none).report b.cls.region code
    | none => s.setDrain none
  | .delayedWrite p =>
    match s.engine.table[p] with
    | some e => ((s.completeEntry p e r none).setDrain none).report e.body.cls.region code
    | none => s.setDrain none
  | .closeMarker => s.setDrain none
  | .removed _ => s.setDrain none

/-! ### Beginning (R39, R41, R44, R50, R60) -/

/-- R60: a delayed write entry whose drain begins becomes ISSUED. -/
def State.issueEntry (item : DrainItem) (s : State) : State :=
  match item with
  | .delayedWrite p =>
    match s.engine.table[p] with
    | some e => s.setEntry p (some { e with state := .issued })
    | none => s
  | .postedWrite => s
  | .closeMarker => s
  | .removed _ => s

/-- R40, R41: the first operation of a write's drain: the data write, or for a guarded line without a record the
before-image read. -/
def State.firstStage (s : State) (b : Body) : DrainStage :=
  if b.cls.guarded && !s.journal.isRecorded b.line then .beforeImage else .dataWrite

/-- R39, R60: the drain of an item begins. A guarded entry whose drain begins in FAILED is dropped, or completes with FAIL
where it is delayed (R44, R61). -/
def State.beginItem (item : DrainItem) (s : State) : State :=
  match s.itemBody item with
  | none => if item = .closeMarker then s.setDrain (some ⟨item, .closeHeader, 0, true⟩) else s
  | some b =>
    if b.cls.guarded ∧ s.journal.state = .failed then s.leave item .journalFail .fail
    else (s.issueEntry item).setDrain (some ⟨item, s.firstStage b, 0, true⟩)

/-- R39, R59, R102: a drain can begin: none is in progress, the supply is NORMAL or WARN, and no INIT JOURNAL header write
is outstanding. -/
def State.mayBegin (s : State) : Bool := s.drain.isNone && s.supply.state != .fail && !s.initOutstanding

/-- R39, R44: the head of the write order begins its drain; while heads are dropped at their beginning the next one
becomes the head at the same event. The count bounds the run, which is never longer than the write order. -/
def State.beginDrains : Nat → State → State
  | 0, s => s
  | n + 1, s =>
    if s.mayBegin then
      match s.headItem with
      | none => s
      | some item => State.beginDrains n (s.beginItem item)
    else s

/-- R35, R55: the longest write order: 16 queue entries and 4 delayed entries. -/
def longestOrder : Nat := 20

/-! ### Operations (R91, R99, R102, R112) -/

/-- R99, R102, R141: a journal header write of an epoch. -/
def State.headerOp (owner : Owner) (epoch : BitVec 32) (s : State) : Operation :=
  writeOp owner (s.journal.areaLine 0) (headerLine epoch s.journal.sizePages) fullMask true s.port.attemptLimit.toNat
    .journal noRegion

/-- R91: the image line write of the record at sequence W. -/
def State.imageOp (image : Line) (s : State) : Operation :=
  writeOp .head (s.journal.areaLine (2 + 2 * s.journal.written)) image fullMask true s.port.attemptLimit.toNat .journal
    noRegion

/-- R91: the record header line write of the record at sequence W over a before-image. -/
def State.recordOp (line : Nat) (image : Line) (s : State) : Operation :=
  writeOp .head (s.journal.areaLine (1 + 2 * s.journal.written))
    (recordLine s.journal.epoch s.journal.written line image) fullMask true s.port.attemptLimit.toNat .journal noRegion

/-- R40: the data write of an entry: its data at its offset, its byte mask, verified as captured. -/
def State.dataOp (b : Body) (s : State) : Operation :=
  writeOp .head b.line (placeBytes b.offset b.data) b.mask b.cls.verify s.port.attemptLimit.toNat .dataWrite
    b.cls.region.castSucc

/-- R91: the before-image read of an entry's line. -/
def State.beforeOp (b : Body) (s : State) : Operation :=
  readOp .head b.line s.port.attemptLimit.toNat (some .read) b.cls.region.castSucc

/-- R112: the operation that a drain has reached. -/
def State.drainOp (d : Drain) (s : State) : Option Operation :=
  match d.stage, s.itemBody d.item with
  | .closeHeader, _ => some (s.headerOp .head (nextEpoch s.journal.epoch))
  | .beforeImage, some b => some (s.beforeOp b)
  | .imageWrite, some _ => some (s.imageOp d.image)
  | .recordHeader, some b => some (s.recordOp b.line d.image)
  | .dataWrite, some b => some (s.dataOp b)
  | .beforeImage, none => none
  | .imageWrite, none => none
  | .recordHeader, none => none
  | .dataWrite, none => none

/-- R102, R118: what the write class offers: the header write of an outstanding INIT JOURNAL, or the operation the drain of
the head has reached. -/
def State.writeOffer (s : State) : Option Operation :=
  if s.initOutstanding then some (s.headerOp .initHeader s.journal.epoch)
  else
    match s.drain with
    | some d => s.drainOp d
    | none => none

/-! ### Outcomes -/

/-- R87: the body of the item's entry takes a value. -/
def State.setItemBody (item : DrainItem) (b : Body) (s : State) : State :=
  match item with
  | .postedWrite => { s with queue := .write b :: s.queue.tail }
  | .delayedWrite p =>
    match s.engine.table[p] with
    | some e => s.setEntry p (some { e with body := b })
    | none => s
  | .closeMarker => s
  | .removed _ => s

/-- R92: a record completes: W rises by 1, the line's RESERVED mark becomes RECORDED, an OWN entry stops counting towards R,
and JOURNAL_RECORDS is counted. -/
def State.completeRecord (item : DrainItem) (b : Body) (s : State) : State :=
  let s1 := s.setJournal { s.journal.record b.line with written := s.journal.written + 1 }
  (s1.setItemBody item { b with recorded := true }).count .journalRecords

/-- R99: a close header write succeeds: the marker leaves, E + 1, W 0, the set cleared, ACTIVE, result OK. -/
def State.closeSucceeded (s : State) : State :=
  let s1 := (s.popQueue.setDrain none).setJournal (s.journal.clear (nextEpoch s.journal.epoch))
  (s1.setJournalState .active).endLong .ok

/-- R99: a close header write fails: the marker leaves, FAILED, result FAILED. -/
def State.closeFailed (s : State) : State := ((s.popQueue.setDrain none).setJournalState .failed).endLong .failed

/-- R76: an operation left to finish for a delayed write that RESET UPSTREAM removed ends in success: a record header write
completes the record, and nothing else follows. -/
def State.removedSucceeded (d : Drain) (b : Body) (s : State) : State :=
  match d.stage with
  | .recordHeader => (s.completeRecord d.item b).setDrain none
  | .beforeImage => s.setDrain none
  | .imageWrite => s.setDrain none
  | .dataWrite => s.setDrain none
  | .closeHeader => s.setDrain none

/-- R76: such an operation ends in failure: a failed image or record header write makes the journal FAILED. -/
def State.removedFailed (d : Drain) (s : State) : State :=
  match d.stage with
  | .imageWrite => (s.setDrain none).setJournalState .failed
  | .recordHeader => (s.setDrain none).setJournalState .failed
  | .beforeImage => s.setDrain none
  | .dataWrite => s.setDrain none
  | .closeHeader => s.setDrain none

/-- R41, R42, R91, R92: the operation of an entry's drain ends in success: the next stage, or the end of the drain. -/
def State.stageSucceeded (d : Drain) (b : Body) (data : Line) (first : Bool) (s : State) : State :=
  let ft := d.firstTry && first
  match d.stage with
  | .beforeImage => s.setDrain (some ⟨d.item, .imageWrite, data, ft⟩)
  | .imageWrite => s.setDrain (some ⟨d.item, .recordHeader, d.image, ft⟩)
  | .recordHeader => (s.completeRecord d.item b).setDrain (some ⟨d.item, .dataWrite, d.image, ft⟩)
  | .dataWrite => s.leave d.item (if ft then .clean else .recovered) .ok
  | .closeHeader => s.setDrain none

/-- R43, R45, R46, R61, R94: the operation of an entry's drain ends in failure. -/
def State.stageFailed (d : Drain) (s : State) : State :=
  match d.stage with
  | .beforeImage => s.leave d.item .memoryFail .fail
  | .dataWrite => s.leave d.item .memoryFail .fail
  | .imageWrite => (s.setJournalState .failed).leave d.item .journalFail .fail
  | .recordHeader => (s.setJournalState .failed).leave d.item .journalFail .fail
  | .closeHeader => s.setDrain none

/-- The head's operation ends in success (R117). -/
def State.headSucceeded (data : Line) (first : Bool) (s : State) : State :=
  match s.drain with
  | none => s
  | some d =>
    match d.item with
    | .closeMarker => s.closeSucceeded
    | .removed b => s.removedSucceeded d b
    | .postedWrite =>
      match s.itemBody .postedWrite with
      | some b => s.stageSucceeded d b data first
      | none => s.setDrain none
    | .delayedWrite p =>
      match s.itemBody (.delayedWrite p) with
      | some b => s.stageSucceeded d b data first
      | none => s.setDrain none

/-- The head's operation ends in failure (R117). -/
def State.headFailed (s : State) : State :=
  match s.drain with
  | none => s
  | some d =>
    match d.item with
    | .closeMarker => s.closeFailed
    | .removed _ => s.removedFailed d
    | .postedWrite => s.stageFailed d
    | .delayedWrite _ => s.stageFailed d

/-- R102: the header write of INIT JOURNAL ends. -/
def State.initEnded (ok : Bool) (s : State) : State :=
  if ok then (s.setJournalState .active).endLong .ok else (s.setJournalState .failed).endLong .failed

/-- R52, R76: RESET UPSTREAM's part in the drain: a delayed write in its drain whose operation is in flight is removed and
stays the head until that operation ends; where none is in flight its drain is abandoned (assumption log 11). -/
def State.orphanDrain (s : State) : State :=
  match s.drain with
  | some ⟨.delayedWrite p, stage, image, ft⟩ =>
    match s.port.op, s.engine.table[p] with
    | some op, some e => if op.owner = .head then s.setDrain (some ⟨.removed e.body, stage, image, ft⟩) else s.setDrain none
    | some _, none => s.setDrain none
    | none, _ => s.setDrain none
  | some ⟨.postedWrite, _, _, _⟩ => s
  | some ⟨.closeMarker, _, _, _⟩ => s
  | some ⟨.removed _, _, _, _⟩ => s
  | none => s

end Sys2Proof.Machine
end

