-- ==== Sys2Proof/Machine/Procedures.lean ====
section
/-! DEFINITION. The start-up phases, the journal scan and the rollback procedure (chapter 7). -/

namespace Sys2Proof.Machine

/-- The start-up controller takes values. -/
def State.setStartup (x : Startup) (s : State) : State := { s with startup := x }

/-- The scan or rollback moves to a line. -/
def State.setProcedure (p : Procedure) (s : State) : State := s.setStartup { s.startup with procedure := p }

/-! ### The end of start-up (R129, R130) -/

/-- R129: start-up ends with the port OPEN: configuration LOADED or ABSENT, and journal OFF or ACTIVE. -/
def State.opensAtEnd (s : State) : Bool :=
  (s.startup.loadResult == .loaded || s.startup.loadResult == .absent) &&
    (s.journal.state == .off || s.journal.state == .active)

/-- R129, R130: the move into DONE: the port becomes OPEN or HOLD, STARTUP_DONE is raised, and PORT_HOLD where it is HOLD. -/
def State.endStartup (s : State) : State :=
  let s1 := s.setStartup { s.startup with phase := .done, procedure := .idle
                                          portState := if s.opensAtEnd then .opened else .hold }
  if s.opensAtEnd then s1.raise .startupDone else (s1.raise .startupDone).raise .portHold

/-- R135, R136: SUPPLY_WAIT ends: SCANNING with a journal size above 0, and otherwise DONE. -/
def State.endSupplyWait (s : State) : State :=
  if 0 < s.journal.sizePages then s.setStartup { s.startup with phase := .scanning, procedure := .scanHeader }
  else s.endStartup

/-! ### Rollback (R138, R141) -/

/-- R141: the record that the procedure comes to with k records left, and the header write after record 0. -/
def rollFrom : Nat → Procedure
  | 0 => .rollHeader
  | k + 1 => .rollRecord k

/-- R141: the rollback procedure begins on records W − 1 down to 0, its skipped count 0. -/
def State.beginRollback (s : State) : State :=
  s.setStartup { s.startup with skipped := 0, rollPartial := false, procedure := rollFrom s.journal.written }

/-- R141: record k is skipped, and the result is marked PARTIAL. -/
def State.skipRecord (k : Nat) (s : State) : State :=
  s.setStartup { s.startup with skipped := s.startup.skipped + 1, rollPartial := true, procedure := rollFrom k }

/-- R103, R138, R141: the procedure reports its result: a command rollback as its long command's end, with the port back in
the noted state, and a start-up rollback as the start-up rollback result, with start-up ended. -/
def State.rollbackEnds (r : LongResult) (s : State) : State :=
  match s.mgmt.longCmd with
  | some (.rollback noted) => (s.setStartup { s.startup with procedure := .idle, portState := noted }).endLong r
  | some .closeEpoch => (s.setStartup { s.startup with rollbackResult := r }).endStartup
  | some .initJournal => (s.setStartup { s.startup with rollbackResult := r }).endStartup
  | none => (s.setStartup { s.startup with rollbackResult := r }).endStartup

/-- R141: the rollback header write succeeds: E + 1, W 0, the set cleared, ACTIVE; result OK, or PARTIAL. -/
def State.rollHeaderSucceeded (s : State) : State :=
  ((s.setJournal (s.journal.clear (nextEpoch s.journal.epoch))).setJournalState .active).rollbackEnds
    (if s.startup.rollPartial then .partly else .ok)

/-- R141: an operation of the procedure ends in success, with the bytes of a read. -/
def State.rollSucceeded (data : Line) (s : State) : State :=
  match s.startup.procedure with
  | .rollRecord k =>
    if recordNamed s.journal.epoch k data then s.setProcedure (.rollImage k data) else s.skipRecord k
  | .rollImage k header =>
    if recordChecks header data ∧ ¬ s.journal.inArea (recordTarget header) then
      s.setProcedure (.rollTarget k (recordTarget header) data)
    else s.skipRecord k
  | .rollTarget k _ _ => s.setProcedure (rollFrom k)
  | .rollHeader => s.rollHeaderSucceeded
  | .idle => s
  | .scanHeader => s
  | .scanRecord _ => s
  | .scanImage _ _ => s

/-- R141: an operation of the procedure fails at the attempt limit. -/
def State.rollFailed (s : State) : State :=
  match s.startup.procedure with
  | .rollRecord k => s.skipRecord k
  | .rollImage k _ => s.skipRecord k
  | .rollTarget k _ _ => s.setStartup { s.startup with rollPartial := true, procedure := rollFrom k }
  | .rollHeader => (s.setJournalState .failed).rollbackEnds .failed
  | .idle => s
  | .scanHeader => s
  | .scanRecord _ => s
  | .scanImage _ _ => s

/-! ### Scan (R136, R137) -/

/-- R137, R138: the scan ends with N validated records: ACTIVE where N is 0, and otherwise PENDING, which start-up mode AUTO
takes on to ROLLING. -/
def State.scanEnds (n : Nat) (s : State) : State :=
  let s1 := s.setJournal { s.journal with written := n }
  if n = 0 then (s1.setJournalState .active).endStartup
  else
    let s2 := s1.setJournalState .pending
    if s2.startup.mode = .auto then
      ((s2.setStartup { s2.startup with phase := .rolling }).setJournalState .rolling).beginRollback
    else s2.endStartup

/-- R137: the scan comes to record k; with k equal to C it ends. -/
def State.scanTo (k : Nat) (s : State) : State :=
  if k = s.journal.capacity then s.scanEnds k else s.setProcedure (.scanRecord k)

/-- R136, R137: a scan read ends in success. -/
def State.scanSucceeded (data : Line) (s : State) : State :=
  match s.startup.procedure with
  | .scanHeader =>
    if headerValid s.journal.sizePages data then (s.setJournal { s.journal with epoch := headerEpoch data }).scanTo 0
    else s.endStartup
  | .scanRecord k => if recordNamed s.journal.epoch k data then s.setProcedure (.scanImage k data) else s.scanEnds k
  | .scanImage k header => if recordChecks header data then s.scanTo (k + 1) else s.scanEnds k
  | .idle => s
  | .rollRecord _ => s
  | .rollImage _ _ => s
  | .rollTarget _ _ _ => s
  | .rollHeader => s

/-- R137: a record read of the scan fails: FAILED, with W the records validated before it. -/
def State.scanBroken (k : Nat) (s : State) : State :=
  ((s.setJournal { s.journal with written := k }).setJournalState .failed).endStartup

/-- R136, R137: a scan read fails at the attempt limit. -/
def State.scanFailed (s : State) : State :=
  match s.startup.procedure with
  | .scanHeader => s.endStartup
  | .scanRecord k => s.scanBroken k
  | .scanImage k _ => s.scanBroken k
  | .idle => s
  | .rollRecord _ => s
  | .rollImage _ _ => s
  | .rollTarget _ _ _ => s
  | .rollHeader => s

/-! ### Operations (R112, R119) -/

/-- R112: a read of an area line by the scan or the rollback procedure. -/
def State.areaRead (owner : Owner) (i : Nat) (s : State) : Operation :=
  readOp owner (s.journal.areaLine i) s.port.attemptLimit.toNat (some .journal) noRegion

/-- R112: the write of an image to its target line, every byte enabled, verified. -/
def State.targetOp (target : Nat) (image : Line) (s : State) : Operation :=
  writeOp .rollback target image fullMask true s.port.attemptLimit.toNat .rollback noRegion

/-- R119: the operation that the scan or the rollback procedure has come to. -/
def State.procedureOp (s : State) : Option Operation :=
  match s.startup.procedure with
  | .idle => none
  | .scanHeader => some (s.areaRead .scan 0)
  | .scanRecord k => some (s.areaRead .scan (1 + 2 * k))
  | .scanImage k _ => some (s.areaRead .scan (2 + 2 * k))
  | .rollRecord k => some (s.areaRead .rollback (1 + 2 * k))
  | .rollImage k _ => some (s.areaRead .rollback (2 + 2 * k))
  | .rollTarget _ target image => some (s.targetOp target image)
  | .rollHeader => some (s.headerOp .rollback (nextEpoch s.journal.epoch))

end Sys2Proof.Machine
end

