-- ==== Sys2Proof/Machine/Port.lean ====
section
/-! DEFINITION. The memory port (chapter 6): the arbiter, attempts, back-off, verify, and the end of an operation. -/

namespace Sys2Proof.Machine

/-! ### The arbiter (R118, R119) -/

/-- R118: an operation of the write class is granted. -/
def State.grantWrite (op : Operation) (s : State) : State := (s.grantedTo .write).issue op

/-- R118: the write class is granted its offer, if it has one. -/
def State.grantOffer (offer : Option Operation) (s : State) : State :=
  match offer with
  | some op => s.grantWrite op
  | none => s

/-- R72: the lines of the prefetch list from the first that is in no slot: a line that is in a slot leaves the list with
nothing issued. -/
def Engine.prefetchLeft (g : Engine) : List Nat := g.prefetch.dropWhile g.inSlot

/-- R72, R118: the read class is taken for the prefetch list: the first line in no slot is issued; where none is left the
write class is granted at the same event. -/
def State.takePrefetch (offer : Option Operation) (s : State) : State :=
  match s.engine.prefetchLeft with
  | line :: rest => s.grantPrefetch line rest
  | [] => (s.setEngine { s.engine with prefetch := [] }).grantOffer offer

/-- R62: what the read class does when it is granted: the demand fill of the oldest ready WAITING read entry, and where
there is none the prefetch list. -/
def State.takeRead (offer : Option Operation) (s : State) : State :=
  match s.oldestReadyRead (fun _ => true) with
  | some p => s.grantDemand p
  | none => s.takePrefetch offer

/-- R118: both classes offer and the last granted was read, so the write class is granted. -/
def State.writeTurn (s : State) : Bool := s.writeOffer.isSome && s.port.lastClass == .read

/-- R118, R119, R120: the arbiter, with the port free and the supply not in FAIL: the scan or rollback where it has an
operation, and otherwise the two classes by alternation. -/
def State.arbitrate (s : State) : State :=
  if s.port.op.isSome || s.supply.state == .fail then s
  else
    match s.procedureOp with
    | some op => s.issue op
    | none => if s.writeTurn then s.grantOffer s.writeOffer else s.takeRead s.writeOffer

/-- R39, R117, R118: what follows at every event that offers work: the head of the write order begins its drain, and the
arbiter grants. -/
def State.settle (s : State) : State := (State.beginDrains longestOrder s).arbitrate

/-! ### The end of an operation (R117) -/

/-- R117: the record of the operation is discarded and the port is free. -/
def State.freePort (s : State) : State := s.setPort { s.port with op := none }

/-- R117: the outcome of a success reaches the owner. -/
def State.ownerSucceeded (op : Operation) (data : Line) (s : State) : State :=
  match op.owner with
  | .head => s.headSucceeded data (op.attempts == 1)
  | .initHeader => s.initEnded true
  | .demandFill => s.demandSucceeded data (op.attempts == 1)
  | .prefetch => s.prefetchSucceeded data
  | .scan => s.scanSucceeded data
  | .rollback => s.rollSucceeded data

/-- R117: the outcome of a failure reaches the owner. -/
def State.ownerFailed (op : Operation) (s : State) : State :=
  match op.owner with
  | .head => s.headFailed
  | .initHeader => s.initEnded false
  | .demandFill => s.demandFailed
  | .prefetch => s.prefetchFailed
  | .scan => s.scanFailed
  | .rollback => s.rollFailed

/-- R117: an operation ends in success; the next grant follows at the same event. -/
def State.succeed (op : Operation) (data : Line) (s : State) : State := (s.freePort.ownerSucceeded op data).settle

/-- R113, R117, R122: an operation ends in failure: a failed prefetch counts MEM_RETRY, the line is listed, the owner is
told, and the next grant follows at the same event. -/
def State.failOp (op : Operation) (s : State) : State :=
  let s1 := if op.owner = .prefetch then s.freePort.count .memRetry else s.freePort
  ((s1.listFailure op).ownerFailed op).settle

/-! ### Attempts, verify and back-off (R110, R113, R115, R116, R120) -/

/-- The memory's content takes a value. -/
def State.setMemory (m : List Host.Cell) (s : State) : State := { s with memory := m }

/-- R43, R46, R110, R115, R116: memory after an attempt of an operation that leaves its line undefined; a LINE READ leaves
memory as it is. -/
def Operation.spoils (op : Operation) (m : List Host.Cell) : List Host.Cell :=
  match op.kind with
  | .lineWrite => Memory.forgetLine op.line m
  | .lineRead => m

/-- R113: an operation waits out its back-off before it issues something. -/
def State.backOff (op : Operation) (n : NextIssue) (s : State) : State := s.issue { op with phase := .backoff, next := n }

/-- R115, R120: the first verify read after a write's OK is issued at once, or waits in HELD while the supply is FAIL. -/
def State.startVerify (op : Operation) (s : State) : State :=
  s.issue { op with phase := if s.supply.state = .fail then .held else .verifying, next := .firstVerify }

/-- R43, R46, R115, R116, R122, Table 5-3: an operation ends in failure at its attempt limit, and the line of a LINE WRITE is
undefined whatever its answers were. Where they were BUSY alone R110 says that the line is unchanged; that the rules on the
failure hold there too is the model's choice (assumption log 22). -/
def State.failAtLimit (op : Operation) (s : State) : State := (s.setMemory (op.spoils s.memory)).failOp op

/-- R113: an attempt is answered BUSY. -/
def State.attemptFailed (op : Operation) (s : State) : State :=
  if op.attempts < op.limit then s.backOff op .attemptAgain else s.failAtLimit op

/-- R110, R113: an attempt is answered ERROR or not at all: every byte of a LINE WRITE's line is undefined. -/
def State.attemptError (op : Operation) (s : State) : State :=
  if op.attempts < op.limit then (s.setMemory (op.spoils s.memory)).backOff op .attemptAgain else s.failAtLimit op

/-- R110, R113: an attempt is answered OK. -/
def State.attemptOk (op : Operation) (data : Line) (s : State) : State :=
  match op.kind with
  | .lineRead => s.succeed op data
  | .lineWrite =>
    let s1 := s.setMemory (Memory.writeLine op.line op.mask op.data s.memory)
    if op.verify then s1.startVerify op else s1.succeed op 0

/-- R116: a verify read is answered BUSY, ERROR or not at all. -/
def State.verifyFailed (op : Operation) (s : State) : State :=
  if op.attempts < op.limit then s.backOff op .verifyAgain else s.failAtLimit op

/-- R115: a verify read is answered OK: the enabled bytes are compared. -/
def State.verifyOk (op : Operation) (data : Line) (s : State) : State :=
  if agreeOn op.mask op.data data then s.succeed op 0
  else if op.attempts < op.limit then s.backOff op .writeAfterMismatch
  else s.failAtLimit op

/-- R113, R115, R116: an answer in AWAITING or VERIFYING; in any other phase no attempt is outstanding and the answer is
discarded (R110). -/
def State.answered (op : Operation) (a : MemAnswer) (s : State) : State :=
  match op.phase, a with
  | .awaiting, .ok data => s.attemptOk op data
  | .awaiting, .busy => s.attemptFailed op
  | .awaiting, .error => s.attemptError op
  | .verifying, .ok data => s.verifyOk op data
  | .verifying, .busy => s.verifyFailed op
  | .verifying, .error => s.verifyFailed op
  | .backoff, _ => s
  | .held, _ => s

/-- R113, R115, R116, R120: what an operation waited to issue is issued: the count rises at every reissue, and MEM_RETRY or
VERIFY_MISMATCH is counted; a first verify read counts nothing. -/
def State.reissue (op : Operation) (s : State) : State :=
  match op.next with
  | .attemptAgain => (s.issue { op with phase := .awaiting, attempts := op.attempts + 1 }).count .memRetry
  | .writeAfterMismatch => (s.issue { op with phase := .awaiting, attempts := op.attempts + 1 }).count .verifyMismatch
  | .verifyAgain => (s.issue { op with phase := .verifying, attempts := op.attempts + 1 }).count .memRetry
  | .firstVerify => s.issue { op with phase := .verifying }

/-- R120: the end of a back-off: the reissue, or HELD while the supply is FAIL. -/
def State.endBackoff (op : Operation) (s : State) : State :=
  if s.supply.state = .fail then s.issue { op with phase := .held } else s.reissue op

/-- R120: a HELD operation issues what it waited for. -/
def State.releaseHeld (s : State) : State :=
  match s.port.op with
  | some op => if op.phase = .held then s.reissue op else s
  | none => s

/-- R39, R59, R120: the supply has left FAIL: a HELD operation goes on, a head that waited begins its drain, and a free port
is granted. -/
def State.resume (s : State) : State := s.releaseHeld.settle

end Sys2Proof.Machine
end

