-- ==== Sys2Proof/Machine/Supply.lean ====
section
/-! DEFINITION. The supply monitor and the inhibit unit (chapter 8): comparators, filters, the GLITCH latch, moves of the
supply state, and WLOCK. -/

namespace Sys2Proof.Machine

/-- The unit takes values. -/
def State.setSupply (u : SupplyUnit) (s : State) : State := { s with supply := u }

/-- R144: the place of a level among the thresholds, lowest first. -/
def levelRank : SupplyLevel → Nat
  | .below220 => 0
  | .from220 => 1
  | .from255 => 2
  | .from270 => 3
  | .from280 => 4
  | .from290 => 5
  | .from300 => 6

/-- R144: below VWARN, which the WARN level sets at 3.00, 2.90, 2.80 or 2.70 V. -/
def belowVwarn (l : SupplyLevel) (warnLevel : BitVec 2) : Bool := levelRank l < 6 - warnLevel.toNat

/-- R144: below VFAIL, 2.55 V. -/
def belowVfail (l : SupplyLevel) : Bool := levelRank l < 2

/-- R145: the timer of a condition that held before or not and holds now or not: it starts when the condition begins to
hold, stops when the condition stops, and otherwise goes on. -/
def followTimer (before now : Bool) (time : Nat) (t : Timer) : Timer :=
  if now then (if before then t else some time) else none

/-- R145: the four condition timers when the comparator outputs go from (w, f) to (w', f'). -/
def SupplyTimers.follow (t : SupplyTimers) (w f w' f' : Bool) : SupplyTimers :=
  { belowWarn := followTimer w w' Config.belowWarnTime t.belowWarn
    belowFail := followTimer f f' Config.belowFailTime t.belowFail
    notBelowWarn := followTimer (!w) (!w') Config.risingTime t.notBelowWarn
    between := followTimer (w && !f) (w' && !f') Config.risingTime t.between
    failRisen := t.failRisen }

/-- R147: the GLITCH latch is set where a comparator's change had started a filter that has not run out. -/
def State.glitchIf (b : Bool) (s : State) : State := if b then s.setLatch .glitch else s

/-- R145, R147: the VWARN comparison takes a value. A change to below starts its filter in NORMAL, and one to not below in
WARN and FAIL; a change back before that filter has run out sets the GLITCH latch. In FAIL, with VFAIL not below, a change to
below begins the condition that leads to WARN: R147's sentence would have it start a filter, and its table lists the change in
NORMAL alone. That the table holds, so that no watch opens and the change back sets nothing, is the model's choice (DESIGN
CHOICE, assumption log 24); the condition's own time runs all the same (R145). -/
def State.setBelowWarn (b : Bool) (s : State) : State :=
  let u := s.supply
  if u.belowWarn = b then s
  else
    (s.setSupply { u with belowWarn := b, timers := u.timers.follow u.belowWarn u.belowFail b u.belowFail
                          warnWatch := if b then u.state == .normal else u.state != .normal }).glitchIf u.warnWatch

/-- R145, R147: the VFAIL comparison takes a value. A change to below starts its filter in NORMAL and WARN, and one to not
below in FAIL. -/
def State.setBelowFail (b : Bool) (s : State) : State :=
  let u := s.supply
  if u.belowFail = b then s
  else
    let t := u.timers.follow u.belowWarn u.belowFail u.belowWarn b
    (s.setSupply { u with belowFail := b
                          timers := { t with failRisen := if !b && u.state == .fail then some Config.risingTime else none }
                          failWatch := if b then u.state != .fail else u.state == .fail }).glitchIf u.failWatch

/-- R144, R147: both comparisons are made anew. A supply that falls passes VWARN first, and one that rises VFAIL first. -/
def State.recompare (s : State) : State :=
  let w := belowVwarn s.supply.level s.supply.warnLevel
  if belowVfail s.supply.level then (s.setBelowWarn w).setBelowFail true else (s.setBelowFail false).setBelowWarn w

/-- R145, R147, R148, R152: the supply state moves: NWARN follows it, the comparators' watches end, and the latch of WARN or
FAIL is set. -/
def State.enterSupply (st : SupplyState) (s : State) : State :=
  let u := s.supply
  let s1 := s.setSupply { u with state := st, nwarnLow := st != .normal, warnWatch := false, failWatch := false
                                 timers := { u.timers with failRisen := none } }
  match st with
  | .normal => s1
  | .warn => s1.setLatch .warn
  | .fail => s1.setLatch .fail

/-- R135: SUPPLY_WAIT ends at the event at which the supply state becomes NORMAL. -/
def State.endWaitIfNormal (s : State) : State :=
  if s.startup.phase = .supplyWait ∧ s.supply.state = .normal then s.endSupplyWait else s

/-- R120, R135, R145: a move of the supply state and what follows at the same event: the end of SUPPLY_WAIT; a HELD operation
goes on when FAIL is left; and the arbiter grants. -/
def State.moveSupply (st : SupplyState) (s : State) : State :=
  let s1 := (s.enterSupply st).endWaitIfNormal
  if s.supply.state = .fail ∧ st ≠ .fail then s1.resume else s1.settle

/-- The timer of a filter. -/
def SupplyTimers.get (t : SupplyTimers) : SupplyFilter → Timer
  | .belowWarn => t.belowWarn
  | .belowFail => t.belowFail
  | .notBelowWarn => t.notBelowWarn
  | .between => t.between
  | .failRisen => t.failRisen

/-- The timer of a filter stopped. -/
def SupplyTimers.stop (t : SupplyTimers) : SupplyFilter → SupplyTimers
  | .belowWarn => { t with belowWarn := none }
  | .belowFail => { t with belowFail := none }
  | .notBelowWarn => { t with notBelowWarn := none }
  | .between => { t with between := none }
  | .failRisen => { t with failRisen := none }

/-- R145, R147: a filter's time has run out: its timer stops, and with it the watch of the comparator whose change started
the filter. -/
def SupplyUnit.expire (u : SupplyUnit) (f : SupplyFilter) : SupplyUnit :=
  match f with
  | .belowWarn => { u with timers := u.timers.stop f, warnWatch := false }
  | .notBelowWarn => { u with timers := u.timers.stop f, warnWatch := false }
  | .belowFail => { u with timers := u.timers.stop f, failWatch := false }
  | .between => { u with timers := (u.timers.stop f).stop .failRisen, failWatch := false }
  | .failRisen => { u with timers := u.timers.stop f, failWatch := false }

/-- R145: the state that the condition of a filter leads to from a state, if the state is one of those listed. -/
def filterTarget (f : SupplyFilter) (st : SupplyState) : Option SupplyState :=
  match f, st with
  | .belowWarn, .normal => some .warn
  | .belowFail, .normal => some .fail
  | .belowFail, .warn => some .fail
  | .notBelowWarn, .warn => some .normal
  | .notBelowWarn, .fail => some .normal
  | .between, .fail => some .warn
  | .belowWarn, .warn => none
  | .belowWarn, .fail => none
  | .belowFail, .fail => none
  | .notBelowWarn, .normal => none
  | .between, .normal => none
  | .between, .warn => none
  | .failRisen, _ => none

/-- R146, R148, R149, R150, R152: the unit at the start of a reset: every filter stopped, the comparisons made anew with the
reset WARN level, and each condition that holds counted as beginning. A WARN level that returns to 2 can change the VWARN
comparison at this event, with the supply state FAIL (VDD at 2.85 V, level 0 to 2): R147 does not say whether that change starts a
filter that can bounce. That it opens no watch, so that a change back sets no GLITCH, is the model's choice (DESIGN CHOICE,
assumption log 25). -/
def SupplyUnit.atReset (level : SupplyLevel) (wlockPin : Bool) : SupplyUnit :=
  let w := belowVwarn level Config.resetWarnLevel
  let f := belowVfail level
  { level := level, state := .fail, belowWarn := w, belowFail := f
    timers := { belowWarn := followTimer false w Config.belowWarnTime none
                belowFail := followTimer false f Config.belowFailTime none
                notBelowWarn := followTimer false (!w) Config.risingTime none
                between := followTimer false (w && !f) Config.risingTime none, failRisen := none }
    warnWatch := false, failWatch := false, warnLevel := Config.resetWarnLevel, nwarnLow := true
    wlockPin := wlockPin, wlock := false, wlockTimer := some Config.wlockTime, software := false
    latches := Latches.reset }

end Sys2Proof.Machine
end

