-- ==== Sys2Proof/Machine/Management.lean ====
section
/-! DEFINITION. The management port's part in every command (chapter 10): when a frame is taken, and the response that is
fixed at the command's event. -/

namespace Sys2Proof.Machine

/-- R171: the byte of a result code. -/
def ResultCode.byte : ResultCode → Byte
  | .ok => 0x00
  | .taken => 0x01
  | .busy => 0x02
  | .state => 0x03
  | .qfull => 0x04
  | .arg => 0x05
  | .frame => 0x06

/-- R170: what a command answers: its result code and its reply bytes. -/
structure Reply where
  result : ResultCode
  bytes : List Byte
  deriving DecidableEq, Repr

/-- R171: result OK with reply bytes. -/
def okReply (bs : List Byte) : Reply := ⟨.ok, bs⟩

/-- R171: a result with reply length 0. -/
def bareReply (r : ResultCode) : Reply := ⟨r, []⟩

/-- The management port takes values. -/
def State.setMgmt (m : ManagementPort) (s : State) : State := { s with mgmt := m }

/-- R126, R166, R167: the port takes a frame: the part is not held in reset, and MCS# has risen since the last frame. -/
def State.takesFrame (s : State) : Bool := !s.startup.inReset && s.mgmt.frame == .idle

/-- R169: the last-frame-error flag takes a value. -/
def State.flagError (b : Bool) (s : State) : State := s.setMgmt { s.mgmt with lastError := b }

/-- R170: the bytes of a response: status byte, result code, reply length, reply bytes and CRC-8. -/
def responseBytes (status : Byte) (r : Reply) : List Byte :=
  let body := [status, r.result.byte, BitVec.ofNat 8 r.bytes.length] ++ r.bytes
  body ++ [crc8 body]

/-- R167, R170: the request has been received, the response is fixed from the state after the command, and the filler byte
comes next; MDO still carries the FFh of the request (R166). `flag` is the last-frame-error flag as it stood before the
frame's event. -/
def State.respond (request : List Byte) (r : Reply) (flag : Bool) (s : State) : State :=
  s.setMgmt { s.mgmt with
    frame := .filler, bits := [], mdoLine := some true, received := request
    response := responseBytes (s.statusByte flag) r, sent := 0 }

/-- R166, R168, R169: the bytes of a request have come in, in state REQUEST, and passed its checks: the last-frame-error flag
is cleared, and the command is executed at this event. -/
def State.endRequest (request : List Byte) (s : State) : State :=
  s.setMgmt { s.mgmt with
    frame := .request, bits := [], mdoLine := some true, received := request, response := [], sent := 0, lastError := false }

/-- R168, R169, R170: a management command: at the end of its request the frame's flag is cleared, it is executed, and its
response is fixed. While no frame is taken nothing happens. -/
def manage (c : Instr) (act : State → Reply × State) (s : State) : State :=
  if s.takesFrame then
    let out := act (s.endRequest (requestOf c))
    out.2.respond (requestOf c) out.1 s.mgmt.lastError
  else s

end Sys2Proof.Machine
end

