-- ==== Sys2Proof/Machine/Settings.lean ====
section
/-! DEFINITION. The commands that write settings: CLEAR EVENTS, WRITE EVENT MASK, WRITE REGION, WRITE GUARD FILTER, WRITE
PARAMETERS, WRITE JOURNAL PLACEMENT, SET INHIBIT, CLEAR INHIBIT, OPEN PORT and RESET UPSTREAM. -/

namespace Sys2Proof.Machine

/-! ### Events (R164, R165) -/

/-- R164: the named pending bits become 0; a bit that names no event gives ARG. -/
def State.clearEvents (bits : BitVec 16) (s : State) : Reply × State :=
  if eventBitsOk bits then
    (bareReply .ok, s.setEvents (s.faults.events &&& ~~~ bits.setWidth 9) s.faults.mask s.faults.visible)
  else (bareReply .arg, s)

/-- R164: CLEAR EVENTS. -/
def execClearEvents (bits : BitVec 16) (s : State) : Result :=
  .next (manage (.clearEvents bits) (fun t => t.clearEvents bits) s)

/-- R165: the mask set and the visibility flag take the argument values; pending bits are not changed. -/
def State.writeEventMask (mask : BitVec 16) (visible : Byte) (s : State) : Reply × State :=
  if eventBitsOk mask ∧ visible.toNat ≤ 1 then
    (bareReply .ok, s.setEvents s.faults.events (mask.setWidth 9) (visible == 1))
  else (bareReply .arg, s)

/-- R165: WRITE EVENT MASK. -/
def execWriteEventMask (mask : BitVec 16) (visible : Byte) (s : State) : Result :=
  .next (manage (.writeEventMask mask visible) (fun t => t.writeEventMask mask visible) s)

/-! ### Region table and guard filter (R17, R19) -/

/-- The classifier takes values. -/
def State.setClassifier (c : Classifier) (s : State) : State := { s with classifier := c }

/-- R17: the record of an index replaced; for index 8 the background attributes alone (R3). -/
def Classifier.putRegion (c : Classifier) (index : Nat) (r : Region) : Classifier :=
  if h : index < 8 then { c with regions := c.regions.set index r } else { c with background := r.attributes }

/-- R17: WRITE REGION: ARG for an index above 8 or illegal fields, and otherwise the record is replaced. -/
def State.writeRegion (index : Byte) (base limit : BitVec 16) (attr enable : Byte) (s : State) : Reply × State :=
  if index.toNat ≤ 8 ∧ regionFieldsOk base.toNat limit.toNat attr enable then
    (bareReply .ok, s.setClassifier
      (s.classifier.putRegion index.toNat (regionOfFields base.toNat limit.toNat attr enable)))
  else (bareReply .arg, s)

/-- R17: WRITE REGION. -/
def execWriteRegion (index : Byte) (base limit : BitVec 16) (attr enable : Byte) (s : State) : Result :=
  .next (manage (.writeRegion index base limit attr enable) (fun t => t.writeRegion index base limit attr enable) s)

/-- R19: WRITE GUARD FILTER: the whole filter is replaced. -/
def execWriteGuardFilter (filter : BitVec 64) (s : State) : Result :=
  .next (manage (.writeGuardFilter filter)
    (fun t => (bareReply .ok, t.setClassifier { t.classifier with guardFilter := filter })) s)

/-! ### Parameters (R144, R174) -/

/-- R78, R114, R174: claim timeout, attempt limit and prefetch depth take values. -/
def State.setLimits (claim limit depth : Byte) (s : State) : State :=
  (s.setEngine { s.engine with claimTimeout := claim, prefetchDepth := depth.setWidth 2 }).setPort
    { s.port with attemptLimit := limit }

/-- R144: the WARN level takes a value, and the comparisons are made anew at the same event. -/
def State.setWarnLevel (warn : Byte) (s : State) : State :=
  (s.setSupply { s.supply with warnLevel := warn.setWidth 2 }).recompare

/-- R174: WRITE PARAMETERS: ARG, or all four parameters take the argument values. -/
def State.writeParameters (claim limit depth warn : Byte) (s : State) : Reply × State :=
  if parametersOk claim limit depth warn then (bareReply .ok, (s.setLimits claim limit depth).setWarnLevel warn)
  else (bareReply .arg, s)

/-- R174: WRITE PARAMETERS. -/
def execWriteParameters (claim limit depth warn : Byte) (s : State) : Result :=
  .next (manage (.writeParameters claim limit depth warn) (fun t => t.writeParameters claim limit depth warn) s)

/-! ### Journal placement (R105) -/

/-- R52, R101, R103, R105: write work or a delayed entry stands: the queue or the table holds an entry, or a delayed write
removed by RESET UPSTREAM still holds the head of the write order. -/
def State.hasWork (s : State) : Bool :=
  !s.queue.isEmpty || decide (0 < s.engine.occupancy) || s.removedBody.isSome

/-- R105: base page and size take the values, W becomes 0, the set is cleared, and the state becomes OFF or UNKNOWN. -/
def State.placeJournal (base size : Nat) (s : State) : State :=
  (s.setJournal { s.journal with basePage := base, sizePages := size, written := 0, lineSet := [] }).setJournalState
    (if size = 0 then .off else .unknown)

/-- R105: WRITE JOURNAL PLACEMENT: ARG, then STATE, and otherwise taken. -/
def State.writePlacement (base size : Nat) (s : State) : Reply × State :=
  if !placementOk base size then (bareReply .arg, s)
  else if s.startup.portState = .starting ∨ s.journal.state = .closing ∨ s.journal.state = .rolling ∨ s.hasWork then
    (bareReply .state, s)
  else (bareReply .ok, s.placeJournal base size)

/-- R105: WRITE JOURNAL PLACEMENT. -/
def execWriteJournalPlacement (base size : BitVec 16) (s : State) : Result :=
  .next (manage (.writeJournalPlacement base size) (fun t => t.writePlacement base.toNat size.toNat) s)

/-! ### Software inhibit (R150) -/

/-- R150, R152: the flag is set, and its latch. -/
def State.setSoftware (s : State) : State := (s.setSupply { s.supply with software := true }).setLatch .software

/-- R150: SET INHIBIT. -/
def execSetInhibit (s : State) : Result := .next (manage .setInhibit (fun t => (bareReply .ok, t.setSoftware)) s)

/-- R150: CLEAR INHIBIT: the flag is cleared. -/
def execClearInhibit (s : State) : Result :=
  .next (manage .clearInhibit (fun t => (bareReply .ok, t.setSupply { t.supply with software := false })) s)

/-! ### OPEN PORT (R140) -/

/-- R140: in HOLD with the journal OFF or ACTIVE the port becomes OPEN; in OPEN nothing changes; otherwise STATE. -/
def State.openPort (s : State) : Reply × State :=
  if s.startup.portState = .hold ∧ (s.journal.state = .off ∨ s.journal.state = .active) then
    (bareReply .ok, s.setStartup { s.startup with portState := .opened })
  else if s.startup.portState = .opened then (bareReply .ok, s)
  else (bareReply .state, s)

/-- R140: OPEN PORT. -/
def execOpenPort (s : State) : Result := .next (manage .openPort (fun t => t.openPort) s)

/-! ### RESET UPSTREAM (R52, R75, R76) -/

/-- R75: every entry is removed, every slot freed and the prefetch list emptied. A delayed write whose operation is in
flight stays the head of the write order until that operation ends (R52, R76). -/
def State.resetUpstream (s : State) : State := (s.orphanDrain.setEngine s.engine.empty).settle

/-- R75: RESET UPSTREAM. -/
def execResetUpstream (s : State) : Result := .next (manage .resetUpstream (fun t => (bareReply .ok, t.resetUpstream)) s)

end Sys2Proof.Machine
end

