-- ==== Sys2Proof/Machine/EpochCommands.lean ====
section
/-! DEFINITION. The long commands CLOSE EPOCH, INIT JOURNAL and ROLLBACK (R97 to R103, R172). -/

namespace Sys2Proof.Machine

/-! ### CLOSE EPOCH (R98) -/

/-- R50, R98: a close marker joins the queue's tail and the write order. -/
def State.appendMarker (s : State) : State :=
  { s with queue := s.queue ++ [.marker s.nextPos], nextPos := s.nextPos + 1 }

/-- R98: CLOSE EPOCH is taken: marker appended, journal CLOSING, slot occupied; the marker's drain begins at this event
where it is the head. -/
def State.takeClose (s : State) : State := ((s.appendMarker.setJournalState .closing).takeLong .closeEpoch).settle

/-- R98: BUSY, then STATE, then QFULL, and otherwise TAKEN. -/
def State.closeEpoch (s : State) : Reply × State :=
  if s.mgmt.longCmd.isSome then (bareReply .busy, s)
  else if s.startup.portState = .starting ∨ (s.journal.state ≠ .active ∧ s.journal.state ≠ .failed) then (bareReply .state, s)
  else if Config.queueDepth ≤ s.queue.length then (bareReply .qfull, s)
  else (bareReply .taken, s.takeClose)

/-- R98: CLOSE EPOCH. -/
def execCloseEpoch (s : State) : Result := .next (manage .closeEpoch (fun t => t.closeEpoch) s)

/-! ### INIT JOURNAL (R101) -/

/-- R101: INIT JOURNAL is taken: E the argument, W 0, the set cleared, journal CLOSING, slot occupied; its header write is
offered from this event. -/
def State.takeInit (epoch : BitVec 32) (s : State) : State :=
  (((s.setJournal (s.journal.clear epoch)).setJournalState .closing).takeLong .initJournal).settle

/-- R101: the ARG condition: epoch 0, or equal to E while W is above 0. -/
def State.initArgBad (epoch : BitVec 32) (s : State) : Bool :=
  epoch == 0 || (epoch == s.journal.epoch && decide (0 < s.journal.written))

/-- R101: the STATE condition. -/
def State.initStateBad (s : State) : Bool :=
  s.startup.portState == .starting || s.journal.state == .off || s.journal.state == .closing ||
    s.journal.state == .rolling || s.hasWork

/-- R101: ARG, then BUSY, then STATE, and otherwise TAKEN. -/
def State.initJournal (epoch : BitVec 32) (s : State) : Reply × State :=
  if s.initArgBad epoch then (bareReply .arg, s)
  else if s.mgmt.longCmd.isSome then (bareReply .busy, s)
  else if s.initStateBad then (bareReply .state, s)
  else (bareReply .taken, s.takeInit epoch)

/-- R101: INIT JOURNAL. -/
def execInitJournal (epoch : BitVec 32) (s : State) : Result :=
  .next (manage (.initJournal epoch) (fun t => t.initJournal epoch) s)

/-! ### ROLLBACK (R103) -/

/-- R103: ROLLBACK is taken: slot occupied with the port state noted, journal and port ROLLING, the read buffer freed, and
the procedure begun. -/
def State.takeRollback (s : State) : State :=
  let s1 := (s.takeLong (.rollback s.startup.portState)).setJournalState .rolling
  let s2 := s1.setStartup { s1.startup with portState := .rolling }
  ((s2.setEngine s2.engine.freeBuffer).beginRollback).settle

/-- R103: the STATE condition. -/
def State.rollbackStateBad (s : State) : Bool :=
  (s.startup.portState != .opened && s.startup.portState != .hold) ||
    (s.journal.state != .pending && s.journal.state != .active && s.journal.state != .failed) || s.hasWork

/-- R103: BUSY, then STATE, and otherwise TAKEN. -/
def State.rollback (s : State) : Reply × State :=
  if s.mgmt.longCmd.isSome then (bareReply .busy, s)
  else if s.rollbackStateBad then (bareReply .state, s)
  else (bareReply .taken, s.takeRollback)

/-- R103: ROLLBACK. -/
def execRollback (s : State) : Result := .next (manage .rollback (fun t => t.rollback) s)

end Sys2Proof.Machine
end

