-- ==== Sys2Proof/Machine/Resets.lean ====
section
/-! DEFINITION. Resets and the configuration load: POWER_ON_RESET, PIN_RESET, RESET_END and CONFIGURATION_LOAD. -/

namespace Sys2Proof.Machine

/-! ### Resets (R121, R126, R127) -/

/-- R121: at the start of a reset the operation in flight is abandoned; if the attempt outstanding was a LINE WRITE its
line is undefined. Nothing else of memory changes. -/
def State.memoryAtReset (s : State) : List Host.Cell :=
  match s.port.op with
  | some op => if op.kind = .lineWrite ∧ op.phase = .awaiting then Memory.forgetLine op.line s.memory else s.memory
  | none => s.memory

/-- R127: the start of a reset: every block takes its reset state, whatever it held; the levels at VDD, NRST and WLOCK are
those of the outside. -/
def State.startReset (cause : ResetCause) (level : SupplyLevel) (nrstLow : Bool) (s : State) : State :=
  { lines := ⟨none⟩, classifier := Classifier.reset, queue := [], engine := Engine.reset, nextPos := 0
    journal := Journal.reset, drain := none, port := MemoryPort.reset, startup := Startup.reset true nrstLow cause
    supply := SupplyUnit.atReset level s.supply.wlockPin, faults := FaultUnit.reset, mgmt := ManagementPort.reset
    memory := s.memoryAtReset, frameLines := s.frameLines, pending := s.pending }

/-- R126, R127: a power-on reset starts: the supply is below 2.20 V. -/
def execPowerOnReset (s : State) : Result := .next (s.startReset .powerOn .below220 s.startup.nrstLow)

/-- R126, R127: a pin reset starts: NRST is low. -/
def execPinReset (s : State) : Result := .next (s.startReset .pin s.supply.level true)

/-- The lowest level at which no power-on reset holds, for a supply that was below it. -/
def levelAfterReset (l : SupplyLevel) : SupplyLevel := if l = .below220 then .from220 else l

/-- R126: the reset conditions have ended: NRST is high and the supply not below 2.20 V; start-up begins in LOADING. -/
def State.endReset (s : State) : State :=
  (s.setStartup { s.startup with inReset := false, nrstLow := false }).setSupply
    { s.supply with level := levelAfterReset s.supply.level }

/-- R126: RESET_END; it does not come while the part is not held in reset (assumption log 2). -/
def execResetEnd (s : State) : Result := .next (if s.startup.inReset then s.endReset else s)

/-! ### Configuration load (R131, R133, R135) -/

/-- R178: the region table and guard filter of an image. -/
def imageClassifier (im : List Byte) : Classifier :=
  { regions := Vector.ofFn fun i => imageRegion im i.val, background := attributesOf (imageByte im 4)
    guardFilter := BitVec.ofNat 64 (imageField im 53 8) }

/-- R178: the start-up mode of an image. -/
def imageMode (im : List Byte) : StartMode := if imageByte im 65 = 1 then .auto else .hold

/-- R133: the shadow copy is applied whole: region table, guard filter, placement, parameters, start-up mode, and the event
masks and visibility, which are in force for everything that follows. -/
def State.applySettings (im : List Byte) (s : State) : State :=
  let s1 := (s.setClassifier (imageClassifier im)).setLimits (imageByte im 66) (imageByte im 67) (imageByte im 68)
  let s2 := s1.setStartup { s1.startup with mode := imageMode im }
  let s3 := s2.setJournal { s2.journal with basePage := imageField im 61 2, sizePages := imageField im 63 2 }
  s3.setEvents s3.faults.events (BitVec.ofNat 9 (imageField im 70 2)) (imageByte im 72 == 1)

/-- R133, R144: the new WARN level governs from this event, and the journal moves from OFF to UNKNOWN where the image's size
is above 0. -/
def State.applyImage (im : List Byte) (s : State) : State :=
  let s1 := (s.applySettings im).setWarnLevel (imageByte im 69)
  if 0 < imageField im 63 2 then s1.setJournalState .unknown else s1

/-- R131: the image read into the shadow copy has ended with a result; a LOADED shadow copy is applied, any other is
discarded; LOADING ends. -/
def State.judgeShadow (s : State) : State :=
  let im := s.startup.shadow
  let s1 := s.setStartup { s.startup with loadResult := judgeImage im, shadow := [], phase := .supplyWait }
  if judgeImage im = .loaded then s1.applyImage im else s1

/-- R131, R133, R135: the end of LOADING, and of SUPPLY_WAIT at the same event where the supply is NORMAL. -/
def State.endLoading (im : Image) (s : State) : State :=
  ((s.setStartup { s.startup with shadow := readImage im }).judgeShadow.endWaitIfNormal).settle

/-- R131: CONFIGURATION_LOAD; no image is read while the part is held in reset or after LOADING (assumption log 2). -/
def execConfigurationLoad (image : Image) (s : State) : Result :=
  .next (if !s.startup.inReset && s.startup.phase == .loading then s.endLoading image else s)

end Sys2Proof.Machine
end

