-- ==== Sys2Proof/Machine/Events.lean ====
section
/-! DEFINITION. Events of the supply, the WLOCK pin, the timers, the memory devices and the frame lines. -/

namespace Sys2Proof.Machine

/-! ### Supply and WLOCK (R144, R145, R147, R149) -/

/-- R144, R147: VDD moves to a level, and the comparisons follow. A supply that falls below 2.20 V is the start of a power-on
reset (R126), whichever command tells it. That a rise from below 2.20 V does not end the reset, which RESET_END alone does,
is the model's choice (assumption log 18). -/
def execComparatorChange (level : SupplyLevel) (s : State) : Result :=
  .next (if level = .below220 ∧ s.supply.level ≠ .below220 then s.startReset .powerOn .below220 s.startup.nrstLow
    else (s.setSupply { s.supply with level := level }).recompare)

/-- R145, R147: a filter's time runs out: the supply state moves where it is one from which the condition leads to a move. -/
def State.expireFilter (f : SupplyFilter) (s : State) : State :=
  let s1 := s.setSupply (s.supply.expire f)
  match filterTarget f s.supply.state with
  | some st => s1.moveSupply st
  | none => s1

/-- R145: SUPPLY_FILTER_EXPIRY; a filter that is not running does not run out (assumption log 2). -/
def execSupplyFilterExpiry (f : SupplyFilter) (s : State) : Result :=
  .next (if (s.supply.timers.get f).isSome then s.expireFilter f else s)

/-- R149: a change of the WLOCK pin's level starts or restarts its filter. -/
def execWlockPinChange (high : Bool) (s : State) : Result :=
  .next (if s.supply.wlockPin = high then s
    else s.setSupply { s.supply with wlockPin := high, wlockTimer := some Config.wlockTime })

/-- R149, R152: the filtered WLOCK state takes the pin's level; its latch is set where it is asserted. -/
def State.followWlock (s : State) : State :=
  let s1 := s.setSupply { s.supply with wlock := s.supply.wlockPin, wlockTimer := none }
  if s.supply.wlockPin then s1.setLatch .wlock else s1

/-- R149: WLOCK_FILTER_EXPIRY; a filter that is not running does not run out (assumption log 2). -/
def execWlockFilterExpiry (s : State) : Result := .next (if s.supply.wlockTimer.isSome then s.followWlock else s)

/-! ### Claim timer (R74) -/

/-- R74: the claim timer of a COMPLETE entry expires: CLAIM_LOST reported and counted, the entry removed, and a read's slot
VALID and unowned. -/
def State.expireClaim (p : Fin 4) (e : DelayedEntry) (s : State) : State :=
  ((s.report e.body.cls.region .claimLost).count .claimLost).removeEntry p e

/-- R56, R74: CLAIM_TIMER_EXPIRY of the entry in a place; an entry that is not COMPLETE has no timer running. -/
def execClaimTimerExpiry (p : Fin 4) (s : State) : Result :=
  .next (match s.engine.table[p] with
    | some e => if e.timer.isSome then s.expireClaim p e else s
    | none => s)

/-! ### Memory devices (R110, R113, R115, R116, R120) -/

/-- R110, R113: MEMORY_ANSWER: an answer to the attempt outstanding is taken; one that comes late, or with no attempt
outstanding, is discarded. -/
def execMemoryAnswer (answer : MemAnswer) (late : Bool) (s : State) : Result :=
  .next (match s.port.op with
    | some op => if late then s else s.answered op answer
    | none => s)

/-- R110: ATTEMPT_TIMEOUT: an attempt without an answer is taken as answered ERROR. -/
def execAttemptTimeout (s : State) : Result :=
  .next (match s.port.op with
    | some op => s.answered op .error
    | none => s)

/-- R113, R120: BACKOFF_END; it does not come while the port is not in back-off (assumption log 2). -/
def execBackoffEnd (s : State) : Result :=
  .next (match s.port.op with
    | some op => if op.phase = .backoff then s.endBackoff op else s
    | none => s)

/-! ### Frame lines (R166 to R170) -/

/-- R169: what a frame error does: FRAME_ERRORS counted, MGMT_ERROR raised, the last-frame-error flag set. -/
def State.frameFault (s : State) : State := ((s.count .frameErrors).raise .mgmtError).flagError true

/-- R167, R169: a frame error: with MCS# rising early there is no response and the port is IDLE; with no byte received there
was no frame; otherwise the response carries result FRAME. Bytes that are no frame error are no event of this kind
(assumption log 2). -/
def State.frameErrorAt (bytes : List Byte) (mcsRose : Bool) (s : State) : State :=
  if mcsRose then
    if bytes ≠ [] ∧ judgeRequest bytes = .unfinished then s.frameFault else s
  else if judgeRequest bytes = .error then s.frameFault.respond bytes (bareReply .frame) s.mgmt.lastError
  else s

/-- R169: FRAME_ERROR. -/
def execFrameError (bytes : List Byte) (mcsRose : Bool) (s : State) : Result :=
  .next (if s.takesFrame then s.frameErrorAt bytes mcsRose else s)

/-- R166: the lines of the port with MCS# high: state IDLE, MDO undriven, and nothing of a frame is left. -/
def State.leaveFrame (s : State) : State :=
  s.setMgmt { s.mgmt with frame := .idle, bits := [], mdoLine := none, received := [], response := [], sent := 0 }

/-- R166, R167, R170: MCS# rises: the frame receive state is IDLE, bits left over are discarded, and the bytes of the response
not yet sent are not sent. In REQUEST with a byte complete the frame is a frame error. -/
def execMcsRisingEdge (s : State) : Result :=
  .next (if s.mgmt.frame = .request ∧ s.mgmt.received ≠ [] then s.frameFault.leaveFrame else s.leaveFrame)

/-- R166, R170: a byte that is not of the request is complete: the filler is followed by the response byte by byte, and this
by TRAILING. -/
def State.advanceFrame (s : State) : State :=
  match s.mgmt.frame with
  | .filler => s.setMgmt { s.mgmt with frame := .response }
  | .response =>
    if s.mgmt.sent + 1 < s.mgmt.response.length then s.setMgmt { s.mgmt with sent := s.mgmt.sent + 1 }
    else s.setMgmt { s.mgmt with frame := .trailing, sent := s.mgmt.response.length }
  | .idle => s
  | .request => s
  | .trailing => s

/-- R166: the byte that is put out on MDO next, or is being put out; MDO is undriven in IDLE. -/
def State.mdo (s : State) : Option Byte :=
  match s.mgmt.frame with
  | .idle => none
  | .request => some 0xFF
  | .filler => some 0xFF
  | .response => some (s.mgmt.response.getD s.mgmt.sent 0xFF)
  | .trailing => some 0xFF

/-- R166: the bit that the next falling edge of MCK puts on MDO, most significant bit of the byte first, by the rising edges
of the byte so far. -/
def State.mdoBit (s : State) : Option Bool := s.mdo.map fun b => b.getMsbD s.mgmt.bits.length

/-- R166: the level of MDO takes a value. -/
def State.driveMdo (level : Option Bool) (s : State) : State := s.setMgmt { s.mgmt with mdoLine := level }

/-- R166, R170, R179: one byte time on MCK, eight falling and eight rising edges: MDO is left with the last bit of the byte put
out. In IDLE the port ignores MCK, and a request takes its bytes edge by edge alone (assumption log 7). A byte time that begins
with 1 to 7 bits of a byte already clocked is the model's own (DESIGN CHOICE, assumption log 7): the frame goes on by a whole byte
as at a byte's start, `bits` stays as it is, and MDO is left with the last bit of the byte that was begun, not with the bit of the
byte behind it that eight further edges would put out; where that byte is the response's last, MDO may so read 0 in TRAILING. -/
def State.clockByte (s : State) : State :=
  match s.mgmt.frame with
  | .idle => s
  | .request => s
  | .filler => (s.driveMdo (s.mdo.map fun b => b.getLsbD 0)).advanceFrame
  | .response => (s.driveMdo (s.mdo.map fun b => b.getLsbD 0)).advanceFrame
  | .trailing => (s.driveMdo (s.mdo.map fun b => b.getLsbD 0)).advanceFrame

end Sys2Proof.Machine
end

