-- ==== Sys2Proof/Machine/ReadOuts.lean ====
section
/-! DEFINITION. The read-out commands: STATUS, READ INHIBITS, READ REGION CODES, READ COUNTERS, READ FAILED LINES, READ
EVENTS, READ REGION, READ GUARD FILTER and READ PARAMETERS. -/

namespace Sys2Proof.Machine

/-! ### STATUS (R173) -/

/-- Table 10-1. -/
def PortState.code : PortState → Byte
  | .starting => 0
  | .hold => 1
  | .opened => 2
  | .rolling => 3

/-- Table 10-1. -/
def StartPhase.code : StartPhase → Byte
  | .loading => 0
  | .supplyWait => 1
  | .scanning => 2
  | .rolling => 3
  | .done => 4

/-- Table 10-1. -/
def LoadResult.code : LoadResult → Byte
  | .none => 0
  | .absent => 1
  | .loaded => 2
  | .bad => 3

/-- Table 10-1. -/
def LongResult.code : LongResult → Byte
  | .none => 0
  | .ok => 1
  | .partly => 2
  | .failed => 3

/-- Table 10-1. -/
def SupplyState.code : SupplyState → Byte
  | .normal => 0
  | .warn => 1
  | .fail => 2

/-- Table 10-1. -/
def JournalState.code : JournalState → Byte
  | .off => 0
  | .unknown => 1
  | .pending => 2
  | .active => 3
  | .closing => 4
  | .rolling => 5
  | .failed => 6

/-- Table 10-1. -/
def ResetCause.code : ResetCause → Byte
  | .powerOn => 0
  | .pin => 1

/-- A flag as a byte, 00h or 01h. -/
def boolByte (b : Bool) : Byte := if b then 1 else 0

/-- Table 10-1: the 23 bytes of the STATUS reply. -/
def State.statusReply (s : State) : List Byte :=
  [s.startup.portState.code, s.startup.phase.code, s.startup.loadResult.code, s.startup.rollbackResult.code,
    s.supply.state.code, s.journal.state.code] ++ bytesOf 4 s.journal.epoch.toNat ++ bytesOf 2 s.journal.written ++
  bytesOf 2 s.reservations ++ bytesOf 2 s.journal.capacity ++
  [BitVec.ofNat 8 s.queue.length, BitVec.ofNat 8 s.engine.occupancy, boolByte s.mgmt.longCmd.isSome,
    s.mgmt.lastLong.code] ++ bytesOf 2 s.startup.skipped ++ [s.startup.cause.code]

/-- R173: STATUS. -/
def execStatus (s : State) : Result := .next (manage .status (fun t => (okReply t.statusReply, t)) s)

/-! ### READ INHIBITS (R153) -/

/-- R153: the states byte and the latches byte. -/
def State.inhibitReply (s : State) : List Byte :=
  let l := s.supply.latches
  [flagByte (s.inhibitHolds .wlock) (s.inhibitHolds .software) (s.inhibitHolds .warn) (s.inhibitHolds .fail)
      (s.inhibitHolds .journal) false false false,
    flagByte l.wlock l.software l.warn l.fail l.journal l.glitch false false]

/-- R153: each latch whose state does not hold is cleared, and the GLITCH latch is cleared. -/
def State.clearLatches (s : State) : State :=
  let l := s.supply.latches
  s.setLatches
    { wlock := l.wlock && s.inhibitHolds .wlock, software := l.software && s.inhibitHolds .software
      warn := l.warn && s.inhibitHolds .warn, fail := l.fail && s.inhibitHolds .fail
      journal := l.journal && s.inhibitHolds .journal, glitch := false }

/-- R153: READ INHIBITS. -/
def execReadInhibits (s : State) : Result :=
  .next (manage .readInhibits (fun t => (okReply t.inhibitReply, t.clearLatches)) s)

/-! ### READ REGION CODES (R157) -/

/-- R157: the code bytes of regions 0 to 8. -/
def State.codesReply (s : State) : List Byte := s.faults.codes.toList.map fun c => BitVec.ofNat 8 c.byte

/-- R157: READ REGION CODES: the codes, then every code NO_TRAFFIC. -/
def execReadRegionCodes (s : State) : Result :=
  .next (manage .readRegionCodes (fun t => (okReply t.codesReply, t.setCodes (Vector.replicate 9 .noTraffic))) s)

/-! ### READ COUNTERS (R159) -/

/-- R159: the six counters, 2 bytes each. -/
def Counters.reply (c : Counters) : List Byte :=
  bytesOf 2 c.memRetry.toNat ++ bytesOf 2 c.verifyMismatch.toNat ++ bytesOf 2 c.claimLost.toNat ++
    bytesOf 2 c.noRoom.toNat ++ bytesOf 2 c.journalRecords.toNat ++ bytesOf 2 c.frameErrors.toNat

/-- R159: READ COUNTERS with a clear flag: 00h leaves the counters, 01h clears them, any other value gives ARG. -/
def State.readCounters (clear : Byte) (s : State) : Reply × State :=
  if clear = 0 then (okReply s.faults.counters.reply, s)
  else if clear = 1 then (okReply s.faults.counters.reply, s.setCounters Counters.reset)
  else (bareReply .arg, s)

/-- R159: READ COUNTERS. -/
def execReadCounters (clear : Byte) (s : State) : Result :=
  .next (manage (.readCounters clear) (fun t => t.readCounters clear) s)

/-! ### READ FAILED LINES (R123) -/

/-- R123: the byte of a failure kind. -/
def FailureKind.code : FailureKind → Byte
  | .dataWrite => 0
  | .read => 1
  | .journal => 2
  | .rollback => 3

/-- R123: the five bytes of an entry. -/
def FailedLine.bytes (f : FailedLine) : List Byte := bytesOf 3 f.line ++ [f.kind.code, BitVec.ofNat 8 f.region.val]

/-- R123: the number of entries, the overflow flag and the entries, oldest first. -/
def State.failedReply (s : State) : List Byte :=
  [BitVec.ofNat 8 s.port.failed.length, boolByte s.port.overflow] ++ s.port.failed.flatMap FailedLine.bytes

/-- R123: READ FAILED LINES: the list and the flag, then the list emptied and the flag cleared. -/
def execReadFailedLines (s : State) : Result :=
  .next (manage .readFailedLines
    (fun t => (okReply t.failedReply, t.setPort { t.port with failed := [], overflow := false })) s)

/-! ### READ EVENTS (R163) -/

/-- R163: pending set, mask set and visibility flag. -/
def State.eventsReply (s : State) : List Byte :=
  bytesOf 2 s.faults.events.toNat ++ bytesOf 2 s.faults.mask.toNat ++ [boolByte s.faults.visible]

/-- R163: READ EVENTS. -/
def execReadEvents (s : State) : Result := .next (manage .readEvents (fun t => (okReply t.eventsReply, t)) s)

/-! ### READ REGION, READ GUARD FILTER, READ PARAMETERS (R18, R20, R175) -/

/-- R18: the six bytes of a region record. -/
def Region.reply (r : Region) : List Byte :=
  bytesOf 2 r.basePage ++ bytesOf 2 r.limitPage ++ [r.attributes.byte, boolByte r.enable]

/-- R3, R18: index 8 has base page, limit page and enable 0 with the background attributes; above 8 the result is ARG. -/
def State.readRegion (index : Byte) (s : State) : Reply × State :=
  if h : index.toNat < 8 then (okReply s.classifier.regions[index.toNat].reply, s)
  else if index.toNat = 8 then (okReply (Region.reply ⟨false, 0, 0, s.classifier.background⟩), s)
  else (bareReply .arg, s)

/-- R18: READ REGION. -/
def execReadRegion (index : Byte) (s : State) : Result :=
  .next (manage (.readRegion index) (fun t => t.readRegion index) s)

/-- R20: READ GUARD FILTER: the 64-bit filter in eight bytes. -/
def execReadGuardFilter (s : State) : Result :=
  .next (manage .readGuardFilter (fun t => (okReply (bytesOf 8 t.classifier.guardFilter.toNat), t)) s)

/-- R175: claim timeout, attempt limit, prefetch depth, WARN level. -/
def State.parametersReply (s : State) : List Byte :=
  [s.engine.claimTimeout, s.port.attemptLimit, s.engine.prefetchDepth.setWidth 8, s.supply.warnLevel.setWidth 8]

/-- R175: READ PARAMETERS. -/
def execReadParameters (s : State) : Result := .next (manage .readParameters (fun t => (okReply t.parametersReply, t)) s)

end Sys2Proof.Machine
end

