-- ==== Sys2Proof/Machine/Upstream.lean ====
section
/-! DEFINITION. The upstream port (chapter 2): the decision of a WRITE and of a READ presentation. -/

namespace Sys2Proof.Machine

/-! ### Answers (R22, R31, R32) -/

/-- R22: the one answer to a presentation, on the answer lines. -/
def State.answerTo (r : Request) (a : Answer) (data : Line) (s : State) : State :=
  { s with lines := ⟨some ⟨r.initiator, r.kind, a, data⟩⟩ }

/-- R22: RETRY, with no data. -/
def State.retryTo (r : Request) (s : State) : State := s.answerTo r .retry 0

/-- R32: ABORT, with a code charged to a region. -/
def State.abortTo (r : Request) (region : Fin 9) (code : RegionCode) (s : State) : State :=
  (s.report region code).answerTo r .abort 0

/-- R32: RETRY for lack of room, NO_ROOM counted. -/
def State.noRoomTo (r : Request) (s : State) : State := (s.count .noRoom).retryTo r

/-- R24: an entry's matching key equals the request's. -/
def DelayedEntry.matches (e : DelayedEntry) (r : Request) : Bool :=
  e.kind == r.kind && e.initiator == r.initiator && e.body.line == r.line && e.body.offset == r.offset &&
    e.body.count == r.count && e.body.data == r.data

/-- R28: an entry has the same initiator, kind, address and count as the request. -/
def DelayedEntry.sameKey (e : DelayedEntry) (r : Request) : Bool :=
  e.kind == r.kind && e.initiator == r.initiator && e.body.line == r.line && e.body.offset == r.offset &&
    e.body.count == r.count

/-- R24: the entry that a presentation matches. -/
def State.matching (r : Request) (s : State) : Option (Fin 4 × DelayedEntry) :=
  s.engine.entries.find? fun x => x.2.matches r

/-- The bytes of a read buffer slot. -/
def Engine.slotData (g : Engine) (i : Fin 8) : Line :=
  match g.slots[i] with
  | .valid _ d _ _ => d
  | .free => 0
  | .filling _ _ _ => 0

/-- R31, R63: the data of the answer to a claim: for a read, its bytes of its demand slot. -/
def Engine.claimData (g : Engine) (e : DelayedEntry) : Line :=
  match e.kind, e.slot with
  | .read, some i => takeBytes e.body.offset e.body.count (g.slotData i)
  | .read, none => 0
  | .write, _ => 0

/-- R31: a presentation that matches an entry is answered by the entry's state; a COMPLETE entry is removed. -/
def State.answerFromEntry (r : Request) (p : Fin 4) (e : DelayedEntry) (s : State) : State :=
  match e.state with
  | .waiting => s.retryTo r
  | .issued => s.retryTo r
  | .complete .ok => (s.removeEntry p e).answerTo r r.handled (s.engine.claimData e)
  | .complete .fail => (s.removeEntry p e).answerTo r .abort 0

/-! ### Acceptance (R27, R28, R29, R37) -/

/-- R29, R37: a posted write is accepted: reservation taken, entry at the queue's tail, freshness actions, DONE or
SHORT(n). -/
def State.acceptPosted (r : Request) (c : Classification) (s : State) : State :=
  let s1 := s.takeReservation c.reservation r.line
  let s2 := ({ s1 with queue := s1.queue ++ [.write (bodyOf r c s.nextPos)] } : State).freshen r.line
  s2.settle.answerTo r r.handled 0

/-- R55: a new delayed entry, WAITING. -/
def newEntry (r : Request) (c : Classification) (pos : Nat) : DelayedEntry :=
  { kind := r.kind, initiator := r.initiator, body := bodyOf r c pos, state := .waiting, slot := none, timer := none }

/-- R28, R29: a durable write is accepted: reservation taken, entry WAITING, freshness actions, RETRY. -/
def State.acceptDurable (r : Request) (c : Classification) (p : Fin 4) (s : State) : State :=
  let s1 := s.takeReservation c.reservation r.line
  ((s1.setEntry p (some (newEntry r c s.nextPos))).freshen r.line).settle.retryTo r

/-- R28: a durable write is given an entry where the table has a free place and no entry has its key; otherwise RETRY with
NO_ROOM. -/
def State.roomDurable (r : Request) (c : Classification) (s : State) : State :=
  if s.engine.entries.any fun x => x.2.sameKey r then s.noRoomTo r
  else
    match s.engine.freePlace with
    | some p => s.acceptDurable r c p
    | none => s.noRoomTo r

/-- R26 step 7: room, by the write mode of the region. A write in a READ_ONLY or NO_ACCESS region was refused at step 4. -/
def State.roomWrite (r : Request) (c : Classification) (s : State) : State :=
  match s.writeModeAt r.line with
  | .posted => if Config.queueDepth ≤ s.queue.length then s.noRoomTo r else s.acceptPosted r c
  | .durable => s.roomDurable r c
  | .readOnly => s.abortTo r c.region .refused
  | .noAccess => s.abortTo r c.region .refused

/-- R26 step 6, R27: guarding. -/
def State.guardWrite (r : Request) (s : State) : State :=
  let c := s.classify r.line
  if !c.guarded then s.roomWrite r c
  else
    match s.journal.state with
    | .active =>
      match s.reservationFor r.line with
      | some k => s.roomWrite r { c with reservation := k }
      | none => s.abortTo r c.region .journalFull
    | .closing => s.retryTo r
    | .off => s.abortTo r c.region .journalFail
    | .unknown => s.abortTo r c.region .journalFail
    | .pending => s.abortTo r c.region .journalFail
    | .failed => s.abortTo r c.region .journalFail
    | .rolling => s.abortTo r c.region .journalFail

/-- R4, R11, R26 step 4: the classification refuses a write: journal area, READ_ONLY or NO_ACCESS. -/
def State.refusesWrite (s : State) (line : Nat) : Bool :=
  s.journal.inArea line || s.writeModeAt line == .readOnly || s.writeModeAt line == .noAccess

/-- R26 steps 4 and 5: classification, inhibit sources and supply. -/
def State.classifyWrite (r : Request) (s : State) : State :=
  let region := s.classifier.regionOf (pageOf r.line)
  if s.refusesWrite r.line then s.abortTo r region .refused
  else if s.supply.wlock || s.supply.software then s.abortTo r region .refused
  else if s.supply.state != .normal then s.retryTo r
  else s.guardWrite r

/-- R25, R26: the decision of a WRITE. -/
def State.decideWrite (r : Request) (s : State) : State :=
  match s.startup.portState with
  | .starting => s.retryTo r
  | .rolling => s.retryTo r
  | .hold => s.abortTo r (s.classifier.regionOf (pageOf r.line)) .refused
  | .opened =>
    match s.matching r with
    | some (p, e) => s.answerFromEntry r p e
    | none => s.classifyWrite r

/-- R26: a WRITE presentation. -/
def execWrite (initiator : BitVec 2) (addr : BitVec 26) (ucount : BitVec 6) (data : Line) (s : State) : Result :=
  .next (s.decideWrite (requestAt .write initiator addr ucount data))

/-! ### Reads (R30) -/

/-- R30 step 7: a delayed read entry is created, WAITING, with the newest position; the read is answered RETRY. -/
def State.createRead (r : Request) (p : Fin 4) (s : State) : State :=
  let s1 := s.setEntry p (some (newEntry r (s.classify r.line) s.nextPos))
  (({ s1 with nextPos := s.nextPos + 1 } : State).settle).retryTo r

/-- R30 steps 6 and 7: a read buffer hit, or room in the table. -/
def State.bufferRead (r : Request) (s : State) : State :=
  match s.engine.validSlot r.line with
  | some d =>
    (s.report (s.classifier.regionOf (pageOf r.line)) .clean).answerTo r r.handled (takeBytes r.offset r.count d)
  | none =>
    match s.engine.freePlace with
    | some p => s.createRead r p
    | none => s.noRoomTo r

/-- R30 step 4: the classification refuses a read: NO_ACCESS, or a guarded line in HOLD. -/
def State.refusesRead (s : State) (line : Nat) : Bool :=
  s.writeModeAt line == .noAccess || (s.startup.portState == .hold && s.isGuarded line)

/-- R30 steps 4 and 5: classification and supply. -/
def State.classifyRead (r : Request) (s : State) : State :=
  if s.refusesRead r.line then s.abortTo r (s.classifier.regionOf (pageOf r.line)) .refused
  else if s.supply.state == .fail then s.retryTo r
  else s.bufferRead r

/-- R30 steps 2 and 3 on: matching, and then classification. -/
def State.matchRead (r : Request) (s : State) : State :=
  match s.matching r with
  | some (p, e) => s.answerFromEntry r p e
  | none => s.classifyRead r

/-- R25, R30: the decision of a READ. -/
def State.decideRead (r : Request) (s : State) : State :=
  match s.startup.portState with
  | .starting => s.retryTo r
  | .rolling => s.retryTo r
  | .hold => s.matchRead r
  | .opened => s.matchRead r

/-- R30: a READ presentation. -/
def execRead (initiator : BitVec 2) (addr : BitVec 26) (ucount : BitVec 6) (s : State) : Result :=
  .next (s.decideRead (requestAt .read initiator addr ucount 0))

end Sys2Proof.Machine
end

