-- ==== Sys2Proof/Machine/Dispatch.lean ====
section
/-! DEFINITION. The meaning of every command, one arm per constructor. -/

namespace Sys2Proof.Machine

/-- The effect of a command on everything but the queue of waiting commands. -/
def exec (i : Instr) (s : State) : Host.Outcome State Fault Refusal :=
  match i with
  | .write initiator addr ucount data => Sys2Proof.Machine.execWrite initiator addr ucount data s
  | .read initiator addr ucount => Sys2Proof.Machine.execRead initiator addr ucount s
  | .status => Sys2Proof.Machine.execStatus s
  | .readInhibits => Sys2Proof.Machine.execReadInhibits s
  | .readRegionCodes => Sys2Proof.Machine.execReadRegionCodes s
  | .readCounters clear => Sys2Proof.Machine.execReadCounters clear s
  | .readFailedLines => Sys2Proof.Machine.execReadFailedLines s
  | .readEvents => Sys2Proof.Machine.execReadEvents s
  | .clearEvents bits => Sys2Proof.Machine.execClearEvents bits s
  | .writeEventMask mask visible => Sys2Proof.Machine.execWriteEventMask mask visible s
  | .writeRegion index base limit attr enable => Sys2Proof.Machine.execWriteRegion index base limit attr enable s
  | .readRegion index => Sys2Proof.Machine.execReadRegion index s
  | .writeGuardFilter filter => Sys2Proof.Machine.execWriteGuardFilter filter s
  | .readGuardFilter => Sys2Proof.Machine.execReadGuardFilter s
  | .writeParameters claim limit depth warn => Sys2Proof.Machine.execWriteParameters claim limit depth warn s
  | .readParameters => Sys2Proof.Machine.execReadParameters s
  | .writeJournalPlacement base size => Sys2Proof.Machine.execWriteJournalPlacement base size s
  | .closeEpoch => Sys2Proof.Machine.execCloseEpoch s
  | .rollback => Sys2Proof.Machine.execRollback s
  | .initJournal epoch => Sys2Proof.Machine.execInitJournal epoch s
  | .setInhibit => Sys2Proof.Machine.execSetInhibit s
  | .clearInhibit => Sys2Proof.Machine.execClearInhibit s
  | .resetUpstream => Sys2Proof.Machine.execResetUpstream s
  | .openPort => Sys2Proof.Machine.execOpenPort s
  | .frameError bytes mcsRose => Sys2Proof.Machine.execFrameError bytes mcsRose s
  | .powerOnReset => Sys2Proof.Machine.execPowerOnReset s
  | .pinReset => Sys2Proof.Machine.execPinReset s
  | .resetEnd => Sys2Proof.Machine.execResetEnd s
  | .configurationLoad image => Sys2Proof.Machine.execConfigurationLoad image s
  | .comparatorChange level => Sys2Proof.Machine.execComparatorChange level s
  | .supplyFilterExpiry filter => Sys2Proof.Machine.execSupplyFilterExpiry filter s
  | .wlockPinChange high => Sys2Proof.Machine.execWlockPinChange high s
  | .wlockFilterExpiry => Sys2Proof.Machine.execWlockFilterExpiry s
  | .claimTimerExpiry place => Sys2Proof.Machine.execClaimTimerExpiry place s
  | .memoryAnswer answer late => Sys2Proof.Machine.execMemoryAnswer answer late s
  | .attemptTimeout => Sys2Proof.Machine.execAttemptTimeout s
  | .backoffEnd => Sys2Proof.Machine.execBackoffEnd s
  | .mcsRisingEdge => Sys2Proof.Machine.execMcsRisingEdge s

end Sys2Proof.Machine
end

