-- ==== Sys2Proof/Machine/FrameLines.lean ====
section
/-! DEFINITION. The management port at its lines (R166 to R168): a request that comes in edge by edge on MCS#, MCK and MDI. A
management command of the table stands for a whole request; the edges that carry its bytes have the same effect. -/

namespace Sys2Proof.Machine

/-- R166: the byte that eight bits make, most significant bit first. -/
def byteOfBits (bits : List Bool) : Byte := BitVec.ofNat 8 (bits.foldl (fun n b => 2 * n + b.toNat) 0)

/-- R167, R168, R169: a byte of the request is complete: the request goes on, or it is a frame error, or its command is
executed. -/
def State.judgeReceived (s : State) : Result :=
  match judgeRequest s.mgmt.received with
  | .unfinished => .next s
  | .error => .next (s.frameFault.respond s.mgmt.received (bareReply .frame) s.mgmt.lastError)
  | .good code args =>
    match commandOf code args with
    | some c => exec c (s.setMgmt { s.mgmt with frame := .idle, mdoLine := none })
    | none => .next s

/-- R166, R179: MCS# falls: from IDLE a frame begins, and MDO gives FFh. While the part is held in reset no frame is taken
(R126). -/
def State.fallMcs (s : State) : State :=
  if s.takesFrame then
    s.setMgmt { s.mgmt with
      frame := .request, bits := [], mdoLine := some true, received := [], response := [], sent := 0 }
  else s

/-- R166: a byte is complete at its eighth rising edge: a byte of the request, or after it a byte time of the response, in
which MDI is ignored. -/
def State.completeByte (b : Byte) (s : State) : Result :=
  let s1 := s.setMgmt { s.mgmt with bits := [] }
  match s.mgmt.frame with
  | .request => (s1.setMgmt { s1.mgmt with received := s1.mgmt.received ++ [b] }).judgeReceived
  | .filler => .next s1.advanceFrame
  | .response => .next s1.advanceFrame
  | .trailing => .next s1.advanceFrame
  | .idle => .next s1

/-- R166: MCK rises with a level on MDI; with MCS# high the port ignores both. -/
def State.riseMck (mdi : Bool) (s : State) : Result :=
  if s.mgmt.frame = .idle then .next s
  else if s.mgmt.bits.length < 7 then .next (s.setMgmt { s.mgmt with bits := s.mgmt.bits ++ [mdi] })
  else s.completeByte (byteOfBits (s.mgmt.bits ++ [mdi]))

/-- R166: MCK falls: MDO changes to the next bit; with MCS# high the port ignores MCK. -/
def State.fallMck (s : State) : State := if s.mgmt.frame = .idle then s else s.driveMdo s.mdoBit

/-- R166: an edge on the lines of the management port. -/
def State.frameEdge (e : FrameEdge) (s : State) : Result :=
  match e with
  | .mcsFalls => .next s.fallMcs
  | .mcsRises => execMcsRisingEdge s
  | .mckRises mdi => s.riseMck mdi
  | .mckFalls => .next s.fallMck

/-- R166: the edges of MCK, a rising and a falling one a bit, that clock bytes in, most significant bit first. -/
def edgesOf (bytes : List Byte) : List FrameEdge :=
  bytes.flatMap fun b => (List.range 8).flatMap fun i => [.mckRises (b.getMsbD i), .mckFalls]

end Sys2Proof.Machine
end

