-- ==== Sys2Proof/Machine/Step.lean ====
section
/-! DEFINITION. One step of the machine, and the queue of waiting commands. -/

namespace Sys2Proof.Machine

/-- The waiting commands take a value. -/
def State.setPending (q : List Instr) (s : State) : State := { s with pending := q }

/-- The edges to come on the management port's lines take a value. -/
def State.setFrameLines (q : List FrameEdge) (s : State) : State := { s with frameLines := q }

/-- One step: the command at the front of the queue is carried out. On an empty queue the next edge comes on the lines of the
management port (R166); where none is to come, one byte time passes on MCK, which moves a frame whose response is fixed, with
MDO (R166, R170), and otherwise changes nothing (assumption log 7). -/
def step (s : State) : Host.Outcome State Fault Refusal :=
  match s.pending with
  | c :: rest => exec c (s.setPending rest)
  | [] =>
    match s.frameLines with
    | e :: rest => (s.setFrameLines rest).frameEdge e
    | [] => .next s.clockByte

/-- The command that a table word spells, put at the front of the queue; no row of the table has bits, so no word spells
one. -/
def State.withFetchWord (s : State) (nbits w : Nat) : State :=
  match decodeTableWord nbits w with
  | some c => s.setPending (c :: s.pending)
  | none => s

end Sys2Proof.Machine
end

