-- ==== Sys2Proof/Safety.lean ====
section
/-! DEFINITION. What a run of the part keeps, and the words the statements use: the laws that every step keeps, what one
step may change at most, and the conditions under which a request reaches a step of its decision order. -/

namespace Sys2Proof

/-- The commands that come as management frames (Table 10-2). -/
def Instr.isManagement (c : Instr) : Bool := c.codeAndArgs.isSome

/-- R126: the commands that start a reset. A fall of VDD below 2.20 V starts one too. -/
def Instr.mayReset : Instr → Bool
  | .powerOnReset => true
  | .pinReset => true
  | .comparatorChange .below220 => true
  | _ => false

namespace Machine

/-! ### Laws of the state -/

/-- R162: IRQ# is low exactly when an event is pending and unmasked; R148: NWARN is low exactly when the supply state is
WARN or FAIL; R166: MDO is undriven exactly in frame receive state IDLE. -/
def State.pinsFollow (s : State) : Prop :=
  (s.faults.irqLow = true ↔ ∃ k : EventKind, s.faults.events &&& k.bit ≠ 0 ∧ s.faults.mask &&& k.bit = 0) ∧
    (s.supply.nwarnLow = true ↔ s.supply.state ≠ .normal) ∧ (s.mgmt.mdoLine = none ↔ s.mgmt.frame = .idle)

/-- R152: a latch stays set while its state holds. -/
def State.latchesCover (s : State) : Prop := ∀ k, s.inhibitHolds k = true → s.supply.latches.get k = true

/-- R35: a close marker. -/
def QueueEntry.isMarker : QueueEntry → Bool
  | .write _ => false
  | .marker _ => true

/-- R38: the drain in progress at the head of the posted write queue is that of the queue's head. -/
def State.headMatches (s : State) : Prop :=
  ∀ d, s.drain = some d →
    (d.item = .postedWrite → ∃ b rest, s.queue = .write b :: rest) ∧
      (d.item = .closeMarker → ∃ p rest, s.queue = .marker p :: rest)

/-- R35, R50, R102: at most 16 entries, of them at most one close marker; a marker stands in the queue exactly while CLOSE
EPOCH occupies the long-command slot; the head's drain is that of the head; and the header write of INIT JOURNAL is carried
only while INIT JOURNAL occupies the slot. -/
def State.queueLaw (s : State) : Prop :=
  s.queue.length ≤ 16 ∧ s.queue.countP QueueEntry.isMarker ≤ 1 ∧
    (s.queue.any QueueEntry.isMarker = true ↔ s.mgmt.longCmd = some .closeEpoch) ∧ s.headMatches ∧
    ∀ op, s.port.op = some op → op.owner = .initHeader → s.mgmt.longCmd = some .initJournal

/-- R55: no two entries of the delayed request table have the same initiator, kind, address and count, and a read entry
carries no data. -/
def State.tableLaw (s : State) : Prop :=
  (∀ (p q : Fin 4) (e f : DelayedEntry), s.engine.table[p] = some e → s.engine.table[q] = some f → p ≠ q →
    ¬ (e.initiator = f.initiator ∧ e.kind = f.kind ∧ e.body.line = f.body.line ∧ e.body.offset = f.body.offset ∧
      e.body.count = f.body.count)) ∧
  ∀ (p : Fin 4) (e : DelayedEntry), s.engine.table[p] = some e → e.kind = .read → e.body.data = 0

/-- R38, R57: the queue stands in acceptance order, and every entry of the queue and of the table has a position of its own
that has been given out. -/
def State.orderLaw (s : State) : Prop :=
  (s.queue.map QueueEntry.pos).Pairwise (· < ·) ∧ (∀ x ∈ s.queue, x.pos < s.nextPos) ∧
    (∀ (p : Fin 4) (e : DelayedEntry), s.engine.table[p] = some e →
      e.body.pos < s.nextPos ∧ ∀ x ∈ s.queue, x.pos ≠ e.body.pos) ∧
    ∀ (p q : Fin 4) (e f : DelayedEntry), s.engine.table[p] = some e → s.engine.table[q] = some f → p ≠ q →
      e.body.pos ≠ f.body.pos

/-- R86: the epoch line set holds at most 128 entries and no line twice. -/
def State.lineSetLaw (s : State) : Prop :=
  s.journal.lineSet.length ≤ 128 ∧ (s.journal.lineSet.map (·.1)).Nodup

/-- R122: the failed-line list holds at most 8 entries and no line twice. -/
def State.failedListLaw (s : State) : Prop :=
  s.port.failed.length ≤ 8 ∧ (s.port.failed.map (·.line)).Nodup

/-- R1, R78, R80, R114: the ranges of the settings. -/
def State.settingsLegal (s : State) : Prop :=
  (∀ i : Fin 8, s.classifier.regions[i].basePage ≤ s.classifier.regions[i].limitPage ∧
    s.classifier.regions[i].limitPage ≤ 16383) ∧
  (s.journal.basePage ≤ 16383 ∧ s.journal.sizePages ≤ 1024 ∧ s.journal.basePage + s.journal.sizePages ≤ 16384) ∧
  s.engine.claimTimeout ≠ 0 ∧ s.port.attemptLimit ≠ 0

/-- R111, R113: the attempt count of the operation in flight lies between 1 and its limit, and below it while a reissue is
due; the attempt limit parameter is not 0 (R114). -/
def State.attemptsLaw (s : State) : Prop :=
  s.port.attemptLimit ≠ 0 ∧
    ∀ op, s.port.op = some op → 1 ≤ op.attempts ∧ op.attempts ≤ op.limit ∧ op.limit ≤ 255 ∧
      (op.phase = .backoff ∨ op.phase = .held → op.next ≠ .firstVerify → op.attempts < op.limit)

/-! ### Laws of the work that stands -/

/-- R38, R60: the entry in a place of the table is a delayed write that has not left the write order. -/
def State.delays (s : State) (p : Fin 4) (e : DelayedEntry) : Prop :=
  s.engine.table[p] = some e ∧ e.kind = .write ∧ (e.state = .waiting ∨ e.state = .issued)

/-- R38, R52: the body of a write in the write order: posted, delayed, or a removed delayed write whose operation is in
flight. -/
def State.writeStands (s : State) (b : Body) : Prop :=
  .write b ∈ s.queue ∨ (∃ p e, s.delays p e ∧ e.body = b) ∨ ∃ d, s.drain = some d ∧ d.item = .removed b

/-- R58: no write to the line of an entry that stands earlier in position is in the write order. -/
def State.noWriteBefore (s : State) (b : Body) : Prop := ∀ w, s.writeStands w → w.line = b.line → ¬ w.pos < b.pos

/-- R38: the item stands in the write order at a position. -/
def State.standsAt (s : State) (n : Nat) : DrainItem → Prop
  | .postedWrite => ∃ b rest, s.queue = .write b :: rest ∧ b.pos = n
  | .closeMarker => ∃ rest, s.queue = .marker n :: rest
  | .delayedWrite p => ∃ e, s.delays p e ∧ e.body.pos = n
  | .removed b => b.pos = n

/-- R38, R39, R52, R59: the item whose drain is in progress is the head of the write order: it stands at a smaller position than
every other item, of the queue and of the table. -/
def State.drainsOldest (s : State) : Prop :=
  ∀ d, s.drain = some d → ∃ n, s.standsAt n d.item ∧ n < s.nextPos ∧
    (∀ x ∈ s.queue, n < x.pos ∨ (x.pos = n ∧ (d.item = .postedWrite ∨ d.item = .closeMarker))) ∧
    ∀ p e, s.delays p e → n < e.body.pos ∨ d.item = .delayedWrite p

/-- What ties entries, slots, the drain and the operation in flight together. -/
structure State.entryLaw (s : State) : Prop where
  /-- R55, R73: the claim timer runs exactly in a COMPLETE entry. -/
  timers : ∀ (p : Fin 4) (e : DelayedEntry), s.engine.table[p] = some e →
    (e.timer.isSome = true ↔ ∃ r, e.state = .complete r)
  /-- R60: a delayed write is ISSUED exactly while its drain is in progress. -/
  drains : ∀ (p : Fin 4) (e : DelayedEntry), s.engine.table[p] = some e → e.kind = .write →
    (e.state = .issued ↔ ∃ d, s.drain = some d ∧ d.item = .delayedWrite p)
  /-- R62, R63, R68: a demand slot is that of an ISSUED read, FILLING with its line, or of a read COMPLETE with result OK, VALID
  with its line, and the entry is the slot's owner. -/
  slots : ∀ (p : Fin 4) (e : DelayedEntry) (i : Fin 8), s.engine.table[p] = some e → e.slot = some i → e.kind = .read ∧
    ((e.state = .issued ∧ ∃ st, s.engine.slots[i] = .filling e.body.line st (some p)) ∨
      (e.state = .complete .ok ∧ ∃ d a, s.engine.slots[i] = .valid e.body.line d (some p) a))
  /-- R62, R63: such a read has a demand slot. -/
  reads : ∀ (p : Fin 4) (e : DelayedEntry), s.engine.table[p] = some e → e.kind = .read →
    e.state = .issued ∨ e.state = .complete .ok → e.slot.isSome = true
  /-- R68: the owner of a slot is an entry whose demand slot it is. -/
  owners : ∀ (i : Fin 8) (p : Fin 4), (∃ l st, s.engine.slots[i] = .filling l st (some p)) ∨
    (∃ l d a, s.engine.slots[i] = .valid l d (some p) a) → ∃ e, s.engine.table[p] = some e ∧ e.slot = some i
  /-- R62, R68, R72: while a slot is FILLING the port carries its fill, a prefetch where it has no owner. -/
  fills : ∀ (i : Fin 8) (l : Nat) (st : Bool) (o : Option (Fin 4)), s.engine.slots[i] = .filling l st o →
    ∃ op, s.port.op = some op ∧ op.line = l ∧ op.owner = if o = none then .prefetch else .demandFill
  /-- R68: at most one slot is FILLING. -/
  oneFill : ∀ (i j : Fin 8) (l l' : Nat) (st st' : Bool) (o o' : Option (Fin 4)), s.engine.slots[i] = .filling l st o →
    s.engine.slots[j] = .filling l' st' o' → i = j

/-- Freshness: what a line with a write in the write order finds in the delayed request engine. -/
structure State.freshLaw (s : State) : Prop where
  /-- R29, R57, R65: every read entry of the line stands behind the write. -/
  behind : ∀ (b : Body) (p : Fin 4) (e : DelayedEntry), s.writeStands b → s.engine.table[p] = some e → e.kind = .read →
    e.body.line = b.line → b.pos < e.body.pos
  /-- R65, R67: no slot is VALID with the line, and none is FILLING with it but a stale one. -/
  slots : ∀ (b : Body) (i : Fin 8), s.writeStands b → (∀ d o a, s.engine.slots[i] ≠ .valid b.line d o a) ∧
    ∀ o, s.engine.slots[i] ≠ .filling b.line false o
  /-- R65, R71: the line is not in the prefetch list. -/
  prefetch : ∀ b, s.writeStands b → b.line ∉ s.engine.prefetch
  /-- R58, R65, R66: a read entry of the line is WAITING, or ISSUED on a stale slot. -/
  entries : ∀ (b : Body) (p : Fin 4) (e : DelayedEntry), s.writeStands b → s.engine.table[p] = some e → e.kind = .read →
    e.body.line = b.line → e.state = .waiting ∨
      (e.state = .issued ∧ ∃ i, e.slot = some i ∧ s.engine.slots[i] = .filling b.line true (some p))

/-- R136, R137: the procedure is the scan. -/
def Procedure.scans : Procedure → Prop
  | .scanHeader => True
  | .scanRecord _ => True
  | .scanImage _ _ => True
  | .idle => False
  | .rollRecord _ => False
  | .rollImage _ _ => False
  | .rollTarget _ _ _ => False
  | .rollHeader => False

/-- R141: the procedure is the rollback. -/
def Procedure.rolls : Procedure → Prop
  | .rollRecord _ => True
  | .rollImage _ _ => True
  | .rollTarget _ _ _ => True
  | .rollHeader => True
  | .idle => False
  | .scanHeader => False
  | .scanRecord _ => False
  | .scanImage _ _ => False

/-- R80: the capacity of the journal area in records, C. -/
def Journal.holdsAtMost (j : Journal) : Nat := (64 * j.sizePages - 1) / 2

/-- Where start-up, the scan, a rollback and INIT JOURNAL stand, and what cannot stand beside them. -/
structure State.phaseLaw (s : State) : Prop where
  /-- R103, R128, R138: no write work in STARTING, nor while the journal is ROLLING. -/
  quiet : s.startup.portState = .starting ∨ s.journal.state = .rolling →
    s.queue = [] ∧ s.drain = none ∧ ∀ b, ¬ s.writeStands b
  /-- R80, R127, R130, R131. -/
  loading : s.startup.phase = .loading → s.startup.portState = .starting ∧ s.journal.state = .off ∧ s.journal.sizePages = 0
  /-- R133, R135. -/
  wait : s.startup.phase = .supplyWait → s.startup.portState = .starting ∧
    s.journal.state = if 0 < s.journal.sizePages then .unknown else .off
  /-- R136. -/
  scan : s.startup.procedure.scans → s.startup.portState = .starting ∧ s.journal.state = .unknown
  /-- R137: the scan has not come to record C. -/
  scanned : ∀ k, s.startup.procedure = .scanRecord k ∨ (∃ l, s.startup.procedure = .scanImage k l) →
    k < s.journal.holdsAtMost
  /-- R103, R141. -/
  roll : s.startup.procedure.rolls → s.journal.state = .rolling
  /-- R103, R138. -/
  rolling : s.journal.state = .rolling → s.startup.portState = .starting ∨ s.startup.portState = .rolling
  /-- R101, R102: the journal is CLOSING and no drain begins while the header write of INIT JOURNAL is outstanding. -/
  init : s.mgmt.longCmd = some .initJournal → s.journal.state = .closing ∧ s.drain = none

/-- What the journal holds for the guarded writes that stand, and where a drain stands in it. -/
structure State.coverLaw (s : State) : Prop where
  /-- R98: a close marker stands behind every guarded write. -/
  marker : ∀ m, .marker m ∈ s.queue → (s.journal.state = .closing ∨ s.journal.state = .failed) ∧
    ∀ b, s.writeStands b → b.cls.guarded = true → b.pos < m
  /-- R27, R82. -/
  pending : ∀ b, s.writeStands b → b.cls.guarded = true →
    s.journal.state = .active ∨ s.journal.state = .closing ∨ s.journal.state = .failed
  /-- R86, R105. -/
  empty : s.journal.state = .off ∨ s.journal.state = .unknown ∨ s.journal.state = .pending → s.journal.lineSet = []
  /-- R85, R105. -/
  zero : s.journal.state = .off ∨ s.journal.state = .unknown → s.journal.written = 0
  /-- R27, R86: a guarded write has a reservation of its own, or its line is in the epoch line set. -/
  covered : ∀ b, s.writeStands b → b.cls.guarded = true →
    b.cls.reservation = .own ∨ b.line ∈ s.journal.lineSet.map (·.1)
  /-- R27. -/
  own : ∀ b, s.writeStands b → b.cls.reservation = .own → b.cls.guarded = true
  /-- R87, R92: a write whose record has completed is in its data write. -/
  recorded : ∀ b, s.writeStands b → b.recorded = true →
    ∃ d, s.drain = some d ∧ d.stage = .dataWrite ∧ s.itemBody d.item = some b
  /-- R50, R99. -/
  close : ∀ d, s.drain = some d → (d.stage = .closeHeader ↔ d.item = .closeMarker)
  /-- R41, R91: a drain that has still to record its line is that of a guarded write, with a reservation held for it. -/
  stage : ∀ d, s.drain = some d → d.stage = .beforeImage ∨ d.stage = .imageWrite ∨ d.stage = .recordHeader →
    ∃ b, s.itemBody d.item = some b ∧ b.cls.guarded = true ∧
      ((b.line, Mark.reserved) ∈ s.journal.lineSet ∨ (b.cls.reservation = .own ∧ b.recorded = false))

/-- R87: the reservation of a pending write of kind OWN counts until its record has completed. -/
def Body.countsOwn (b : Body) : Bool := decide (b.cls.reservation = .own ∧ b.recorded = false)

/-- R87: an entry of the queue that counts towards R. -/
def QueueEntry.countsOwn : QueueEntry → Bool
  | .write b => b.countsOwn
  | .marker _ => false

/-- R38, R87: a delayed entry that counts towards R: a write that has not left the write order. -/
def DelayedEntry.countsOwn (e : DelayedEntry) : Bool :=
  decide (e.kind = .write ∧ (e.state = .waiting ∨ e.state = .issued)) && e.body.countsOwn

/-- R76, R87: a drain that counts towards R: that of a delayed write which RESET UPSTREAM removed. -/
def Drain.countsOwn (d : Drain) : Bool :=
  match d.item with
  | .removed b => b.countsOwn
  | .postedWrite => false
  | .closeMarker => false
  | .delayedWrite _ => false

/-- R87: R, the number of reservations held: the RESERVED entries of the epoch line set, and the writes of kind OWN in the write
order whose record has not completed. -/
def State.held (s : State) : Nat :=
  s.journal.lineSet.countP (fun x => decide (x.2 = .reserved)) + s.queue.countP QueueEntry.countsOwn +
    (List.finRange 4).countP (fun p => (s.engine.table[p]).any DelayedEntry.countsOwn) +
    if s.drain.any Drain.countsOwn then 1 else 0

/-- R87: W + R does not exceed the capacity. -/
def State.capacityLaw (s : State) : Prop := s.journal.written + s.held ≤ s.journal.holdsAtMost

/-- The laws of the work that stands, each a rule of the spec on its own; together every step keeps them. -/
structure State.workLaw (s : State) : Prop where
  oldest : s.drainsOldest
  entry : s.entryLaw
  fresh : s.freshLaw
  phase : s.phaseLaw
  cover : s.coverLaw
  capacity : s.capacityLaw

/-! ### What one step may change at most -/

/-- R120: no attempt, reissue or verify read is issued between two states: the operation in flight after is the one before,
with its attempt count, and it awaits an answer only where it did before. -/
def State.issuesNothing (s t : State) : Prop :=
  ∀ o, t.port.op = some o → ∃ o', s.port.op = some o' ∧ o.kind = o'.kind ∧ o.line = o'.line ∧ o.owner = o'.owner ∧
    o.attempts = o'.attempts ∧ (o.phase = .awaiting ∨ o.phase = .verifying → o.phase = o'.phase)

/-- R161: the event is pending, where it is unmasked or visibility is 1: what a cause leaves of its event. -/
def State.recorded (t : State) (k : EventKind) : Prop :=
  t.faults.mask &&& k.bit = 0 ∨ t.faults.visible = true → t.faults.events &&& k.bit ≠ 0

/-- R152: the latch of a source has been set: an INHIBIT is recorded where the latch was clear before. -/
def State.inhibited (t s : State) (k : InhibitSource) : Prop :=
  t.supply.latches.get k = true ∧ (s.supply.latches.get k = false → t.recorded .inhibit)

/-! ### Management frames -/

/-- R167, R169, R170: what the frame of a command that was executed leaves: `s` before the frame, `t` with the command's own
effect, the result and the reply bytes. The status byte is taken from `t` but for bit 7. -/
def frameDone (c : Instr) (r : ResultCode) (reply : List Byte) (s t : State) : State :=
  { t with mgmt :=
    { frame := .filler, bits := [], mdoLine := some true, received := requestOf c
      response := [t.statusByte s.mgmt.lastError, r.byte, BitVec.ofNat 8 reply.length] ++ reply ++
        [crc8 ([t.statusByte s.mgmt.lastError, r.byte, BitVec.ofNat 8 reply.length] ++ reply)]
      sent := 0, lastError := false, longCmd := t.mgmt.longCmd, lastLong := t.mgmt.lastLong } }

/-! ### Requests on the upstream port -/

/-- What the answer lines carry after a presentation (R22). -/
def State.answering (s : State) (initiator : BitVec 2) (kind : RequestKind) (a : Answer) (data : Line) : State :=
  { s with lines := ⟨some ⟨initiator, kind, a, data⟩⟩ }

/-- R24: the request has the matching key of an entry: kind, initiator, address, count and, for a write, the data. -/
def Request.sameAs (r : Request) (e : DelayedEntry) : Prop :=
  e.kind = r.kind ∧ e.initiator = r.initiator ∧ e.body.line = r.line ∧ e.body.offset = r.offset ∧
    e.body.count = r.count ∧ e.body.data = r.data

/-- R24: no entry of the delayed request table matches the request. -/
def State.matchesNone (s : State) (r : Request) : Prop :=
  ∀ (p : Fin 4) (e : DelayedEntry), s.engine.table[p] = some e → ¬ r.sameAs e

/-- R27, R88: the reservation kind of a guarded write to a line in journal state ACTIVE. -/
def State.reserves (s : State) (line : Nat) : ReservationKind → Prop
  | .none => line ∈ s.journal.lineSet.map (·.1)
  | .listed => line ∉ s.journal.lineSet.map (·.1) ∧
      s.journal.written + s.reservations < (64 * s.journal.sizePages - 1) / 2 ∧ s.journal.lineSet.length < 128
  | .own => line ∉ s.journal.lineSet.map (·.1) ∧
      s.journal.written + s.reservations < (64 * s.journal.sizePages - 1) / 2 ∧ 128 ≤ s.journal.lineSet.length

/-- R87: W + R after a write was accepted with a reservation kind: it rises by 1 with LISTED and OWN and does not pass the
capacity, and with NONE it stays. -/
def State.covers (s t : State) (k : ReservationKind) : Prop :=
  t.journal.written + t.reservations = s.journal.written + s.reservations + (if k = .none then 0 else 1) ∧
    (k ≠ .none → t.journal.written + t.reservations ≤ (64 * t.journal.sizePages - 1) / 2)

/-- R4, R11, R26 step 4: the classification does not refuse a write to the line. -/
def State.writable (s : State) (line : Nat) : Prop :=
  s.journal.inArea line = false ∧ s.writeModeAt line ≠ .readOnly ∧ s.writeModeAt line ≠ .noAccess

/-- R26 steps 1 to 5: a WRITE presentation that reaches step 6. -/
def State.unhindered (s : State) (r : Request) : Prop :=
  s.startup.portState = .opened ∧ s.matchesNone r ∧ s.writable r.line ∧ s.supply.wlock = false ∧
    s.supply.software = false ∧ s.supply.state = .normal

/-- R26 steps 1 to 6, R27: a WRITE presentation that reaches step 7, with its reservation kind. -/
def State.admits (s : State) (r : Request) (k : ReservationKind) : Prop :=
  s.unhindered r ∧
    ((s.isGuarded r.line = false ∧ k = .none) ∨
      (s.isGuarded r.line = true ∧ s.journal.state = .active ∧ s.reserves r.line k))

/-- R30 steps 1 to 5: a READ presentation that reaches step 6. -/
def State.admitsRead (s : State) (r : Request) : Prop :=
  (s.startup.portState = .opened ∨ s.startup.portState = .hold) ∧ s.matchesNone r ∧
    s.writeModeAt r.line ≠ .noAccess ∧ (s.startup.portState = .opened ∨ s.isGuarded r.line = false) ∧
    s.supply.state ≠ .fail

/-- R13, R36, R55: what an entry made for a request carries. -/
def State.carried (s : State) (r : Request) (k : ReservationKind) : Body :=
  { line := r.line, offset := r.offset, count := r.count, data := r.data, mask := byteMask r.offset r.count
    cls := { s.classify r.line with reservation := k }, recorded := false, pos := s.nextPos }

/-- R22, R23: the answer that says that the request is handled, from the fields on the bus. -/
def handledAnswer (addr : BitVec 26) (ucount : BitVec 6) : Answer :=
  let n := if ucount = 0 then 64 else ucount.toNat
  if addr.toNat % 64 + n ≤ 64 then .done else .short (BitVec.ofNat 6 (64 - addr.toNat % 64))

/-- R29, R57, R65: what a write to a line that is accepted does to the delayed request engine: VALID slots of the line are
freed and a FILLING one is marked stale; the line leaves the prefetch list; and the read entries of the line come to stand
between the write and position n, in the order they had, a COMPLETE one returning to WAITING. Nothing else of the engine
changes. -/
def State.freshened (s : State) (line : Nat) (g : Engine) (n : Nat) : Prop :=
  (∀ i : Fin 8,
    (∀ d o a, s.engine.slots[i] = .valid line d o a → g.slots[i] = .free) ∧
    (∀ st o, s.engine.slots[i] = .filling line st o → g.slots[i] = .filling line true o) ∧
    (s.engine.slots[i].holds line = false → g.slots[i] = s.engine.slots[i])) ∧
  g.prefetch = s.engine.prefetch.filter (fun l => l != line) ∧
  (∀ (p : Fin 4) (e : DelayedEntry), s.engine.table[p] = some e →
    if e.kind = .read ∧ e.body.line = line then
      ∃ k, s.nextPos < k ∧ k < n ∧
        ((∀ r, e.state ≠ .complete r) → g.table[p] = some { e with body := { e.body with pos := k } }) ∧
        ∀ r, e.state = .complete r → g.table[p] = some { e with
          body := { e.body with pos := k }, state := .waiting, slot := none, timer := none }
    else g.table[p] = some e) ∧
  (∀ p : Fin 4, s.engine.table[p] = none → g.table[p] = none) ∧
  (∀ (p q : Fin 4) (e f e' f' : DelayedEntry), s.engine.table[p] = some e → s.engine.table[q] = some f →
    e.kind = .read → f.kind = .read → e.body.line = line → f.body.line = line → e.body.pos < f.body.pos →
    g.table[p] = some e' → g.table[q] = some f' → e'.body.pos < f'.body.pos) ∧
  g.claimTimeout = s.engine.claimTimeout ∧ g.prefetchDepth = s.engine.prefetchDepth ∧ g.nextAge = s.engine.nextAge

/-- The region to which a request is charged (R2, R32). -/
def State.regionAt (s : State) (line : Nat) : Fin 9 := s.classifier.regionOf (pageOf line)

/-- R118, R119: nothing stands at the memory port: no operation, no write work, no delayed entry, no prefetch, no scan or
rollback, no long command, and the supply is NORMAL. -/
def State.idlePort (s : State) : Prop :=
  s.port.op = none ∧ s.drain = none ∧ s.queue = [] ∧ s.engine.table = Vector.replicate 4 none ∧ s.engine.prefetch = [] ∧
    s.startup.procedure = .idle ∧ s.mgmt.longCmd = none ∧ s.supply.state = .normal

/-- R38, R109: the port carries an operation and a drain is in progress, so that nothing begins at a new acceptance. -/
def State.busyPort (s : State) : Prop := s.port.op.isSome = true ∧ s.drain.isSome = true

/-! ### The values of a reset -/

/-- R144: VDD at the lower end of its band, in units of 0.01 V. -/
def SupplyLevel.volts : SupplyLevel → Nat
  | .below220 => 0
  | .from220 => 220
  | .from255 => 255
  | .from270 => 270
  | .from280 => 280
  | .from290 => 290
  | .from300 => 300

/-- R144, R146, R147: the two comparator outputs, the filters and the watches of an event at which every filter is stopped and
each condition that holds counts as beginning. That no watch is open, whatever the WARN level was before, is the model's choice
(assumption log 25). -/
def SupplyUnit.begunAfresh (u : SupplyUnit) : Prop :=
  let w := decide (SupplyLevel.volts u.level < 280)
  let b := decide (SupplyLevel.volts u.level < 255)
  u.belowWarn = w ∧ u.belowFail = b ∧ u.warnWatch = false ∧ u.failWatch = false ∧
    u.timers = ⟨if w then some 8 else none, if b then some 2 else none, if w then none else some 100,
      if w && !b then some 100 else none, none⟩

/-- R127 and the rules it names: the value of every piece of state at the start of a reset. VDD, the pins NRST and WLOCK and
what waits outside are those of the outside. The answer lines carry no answer and the model's own numbers begin at 0
(assumption logs 10, 12). -/
def State.hasResetValues (t : State) : Prop :=
  (t.lines = ⟨none⟩ ∧ t.queue = [] ∧ t.drain = none ∧ t.nextPos = 0 ∧
    t.engine = ⟨Vector.replicate 4 none, Vector.replicate 8 .free, [], 64, 1, 0⟩) ∧
  t.classifier = ⟨Vector.replicate 8 ⟨false, 0, 0, ⟨.posted, .prefetch, .off, false⟩⟩, ⟨.posted, .prefetch, .off, false⟩, 0⟩ ∧
  t.journal = ⟨0, 0, .off, 1, 0, []⟩ ∧ t.port = ⟨none, 16, .write, [], false⟩ ∧
  (t.startup.portState = .starting ∧ t.startup.phase = .loading ∧ t.startup.loadResult = .none ∧
    t.startup.mode = .hold ∧ t.startup.rollbackResult = .none ∧ t.startup.skipped = 0 ∧ t.startup.shadow = [] ∧
    t.startup.procedure = .idle ∧ t.startup.rollPartial = false) ∧
  (t.supply.state = .fail ∧ t.supply.nwarnLow = true ∧ t.supply.warnLevel = 2 ∧ t.supply.begunAfresh ∧
    t.supply.wlock = false ∧ t.supply.wlockTimer = some 1 ∧ t.supply.software = false ∧
    t.supply.latches = ⟨false, false, false, true, false, false⟩) ∧
  t.faults = ⟨Vector.replicate 9 .noTraffic, ⟨0, 0, 0, 0, 0, 0⟩, 0, 0x1FF, false, false⟩ ∧
  t.mgmt = ⟨.idle, [], none, [], [], 0, false, none, .none⟩

/-! ### Comparisons of VDD -/

/-- R145: the timer of a condition that held before or not and holds now or not: started where it begins to hold, stopped
where it ends, and otherwise as it was. -/
def Timer.follows (before now : Bool) (time : Nat) (t t' : Timer) : Prop :=
  (now = true → t' = if before then t else some time) ∧ (now = false → before = true ∨ t = none → t' = none)

/-- R145, R147: the filters of a unit after comparisons that give w for VWARN and b for VFAIL. That the filter of a risen VFAIL
comparison is one of its own is the model's reading (assumption log 6). -/
def SupplyUnit.timersFollow (u : SupplyUnit) (w b : Bool) (t : SupplyTimers) : Prop :=
  Timer.follows u.belowWarn w 8 u.timers.belowWarn t.belowWarn ∧
  Timer.follows u.belowFail b 2 u.timers.belowFail t.belowFail ∧
  Timer.follows (!u.belowWarn) (!w) 100 u.timers.notBelowWarn t.notBelowWarn ∧
  Timer.follows (u.belowWarn && !u.belowFail) (w && !b) 100 u.timers.between t.between ∧
  t.failRisen = if b = u.belowFail then u.timers.failRisen else if b = false ∧ u.state = .fail then some 100 else none

/-- R144, R147: the state after fresh comparisons at a level of VDD with a WARN level, with the timers t: the comparator
outputs; a watch, opened where a change starts a filter in the present state and closed where it starts none; and the GLITCH
latch, set where a comparison went back under an open watch, with its event. Nothing else changes. -/
def State.compared (s : State) (level : SupplyLevel) (warn : BitVec 2) (t : SupplyTimers) : State :=
  let w := decide (SupplyLevel.volts level < 300 - 10 * warn.toNat)
  let b := decide (SupplyLevel.volts level < 255)
  let u := s.supply
  let glitch := (w != u.belowWarn && u.warnWatch) || (b != u.belowFail && u.failWatch)
  { s with
    supply := { u with
      level := level, warnLevel := warn, belowWarn := w, belowFail := b, timers := t
      warnWatch := if w = u.belowWarn then u.warnWatch else if w then u.state == .normal else u.state != .normal
      failWatch := if b = u.belowFail then u.failWatch else if b then u.state != .fail else u.state == .fail
      latches := { u.latches with glitch := u.latches.glitch || glitch } }
    faults := if glitch && !u.latches.glitch then (s.raise .inhibit).faults else s.faults }

/-! ### Images and lines -/

/-- The n bytes at an offset of a configuration image, as a number (R178, 6.3 of 00_scope.md). -/
def imageAt (im : Image) (off n : Nat) : Nat := im.toNat / 256 ^ (75 - off - n) % 256 ^ n

/-- The n bytes at an offset of a line, as a number (R176, 6.3 of 00_scope.md). -/
def lineAt (l : Line) (off n : Nat) : Nat := l.toNat / 256 ^ (64 - off - n) % 256 ^ n

/-- R17, Table 11-1: an attribute byte that carries a guard mode and no bit without a meaning. -/
def attributeByteLegal (b : Nat) : Prop := b / 8 % 4 ≠ 3 ∧ b < 64

/-- Table 11-1: the attribute set that a byte spells. -/
def Attributes.spelled (a : Attributes) (b : Nat) : Prop :=
  [WriteMode.posted, .durable, .readOnly, .noAccess][b % 4]? = some a.writeMode ∧
    [ReadMode.prefetch, .single][b / 4 % 2]? = some a.readMode ∧
    [GuardMode.off, .all, .hashed][b / 8 % 4]? = some a.guardMode ∧ a.verify = decide (b / 32 % 2 = 1)

/-- R131, R132, R178: the image loads: marker, version, length, checksum, and a legal value in every field. -/
def imageLegal (im : Image) : Prop :=
  imageAt im 0 1 = 0xC3 ∧ imageAt im 1 1 = 1 ∧ imageAt im 2 2 = 75 ∧
    imageAt im 73 2 = ((List.range 73).map fun i => imageAt im i 1).sum % 65536 ∧
    attributeByteLegal (imageAt im 4 1) ∧
    (∀ i < 8, imageAt im (5 + 6 * i) 2 ≤ imageAt im (7 + 6 * i) 2 ∧ imageAt im (7 + 6 * i) 2 ≤ 16383 ∧
      attributeByteLegal (imageAt im (9 + 6 * i) 1) ∧ imageAt im (10 + 6 * i) 1 ≤ 1) ∧
    (imageAt im 63 2 ≤ 1024 ∧ imageAt im 61 2 ≤ 16383 ∧ imageAt im 61 2 + imageAt im 63 2 ≤ 16384) ∧
    imageAt im 65 1 ≤ 1 ∧
    (imageAt im 66 1 ≠ 0 ∧ imageAt im 67 1 ≠ 0 ∧ imageAt im 68 1 ≤ 3 ∧ imageAt im 69 1 ≤ 3) ∧
    imageAt im 70 2 < 512 ∧ imageAt im 72 1 ≤ 1

/-! ### Operations at the memory port -/

/-- R113, R115, R117: the command ends the operation in success, with the bytes that its owner is given. -/
def Operation.succeedsBy (op : Operation) (data : Line) : Instr → Prop
  | .memoryAnswer (.ok bytes) false =>
    (op.phase = .awaiting ∧ op.kind = .lineRead ∧ data = bytes) ∨
      (op.phase = .awaiting ∧ op.kind = .lineWrite ∧ op.verify = false ∧ data = 0) ∨
      (op.phase = .verifying ∧ agreeOn op.mask op.data bytes = true ∧ data = 0)
  | _ => False

/-- R113, R115, R116, R117: the command ends the operation in failure: its last attempt gets BUSY, ERROR or no answer, or its
verify read at the attempt limit does, or differs. -/
def Operation.failsBy (op : Operation) : Instr → Prop
  | .memoryAnswer .busy false => op.limit ≤ op.attempts ∧ (op.phase = .awaiting ∨ op.phase = .verifying)
  | .memoryAnswer .error false => op.limit ≤ op.attempts ∧ (op.phase = .awaiting ∨ op.phase = .verifying)
  | .attemptTimeout => op.limit ≤ op.attempts ∧ (op.phase = .awaiting ∨ op.phase = .verifying)
  | .memoryAnswer (.ok bytes) false =>
    op.limit ≤ op.attempts ∧ op.phase = .verifying ∧ agreeOn op.mask op.data bytes = false
  | _ => False

/-- R109, R112, R113: the port has just issued the first attempt of an operation that is not verified, under the attempt
limit, a prefetch under limit 1; `lists` is the failure kind and the region index that it was granted with, none for a
prefetch. -/
def State.justIssued (s : State) (kind : OpKind) (line : Nat) (owner : Owner) (lists : Option (FailureKind × Fin 10)) : Prop :=
  ∃ o, s.port.op = some o ∧ o.kind = kind ∧ o.line = line ∧ o.owner = owner ∧ o.verify = false ∧
    o.limit = (if owner = .prefetch then 1 else s.port.attemptLimit.toNat) ∧ o.attempts = 1 ∧ o.phase = .awaiting ∧
    o.failure = lists.map (·.1) ∧ ∀ x, lists = some x → o.region = x.2

/-- R58, R64: a place of the table holds a ready WAITING read entry of the line. -/
def State.readyRead (s : State) (line : Nat) (q : Fin 4) (f : DelayedEntry) : Prop :=
  s.engine.table[q] = some f ∧ f.kind = .read ∧ f.state = .waiting ∧ f.body.line = line ∧ s.noWriteBefore f.body

/-- R62: a ready WAITING read entry that is older than every other WAITING read entry. -/
def State.oldestReader (s : State) (p : Fin 4) (e : DelayedEntry) : Prop :=
  s.readyRead e.body.line p e ∧ ∀ (q : Fin 4) (f : DelayedEntry), q ≠ p → s.engine.table[q] = some f → f.kind = .read →
    f.state = .waiting → e.body.pos < f.body.pos

/-- R64: the entry that adopts a slot of the line that becomes VALID and unowned: of the ready WAITING read entries of the
line the one with the oldest position. -/
def State.adopter (s : State) (line : Nat) (q : Fin 4) (f : DelayedEntry) : Prop :=
  s.readyRead line q f ∧ ∀ q' f', q' ≠ q → s.readyRead line q' f' → f.body.pos < f'.body.pos

/-- R62, R72, R112: the fill of a slot has just been issued: without an owner a prefetch, which lists no failure, and otherwise
the demand fill of the entry that owns the slot, which lists READ and the entry's captured region. -/
def State.fillIssued (t : State) (line : Nat) (owner : Option (Fin 4)) : Prop :=
  match owner with
  | none => t.justIssued .lineRead line .prefetch none
  | some p => ∃ e, t.engine.table[p] = some e ∧ e.body.line = line ∧
      t.justIssued .lineRead line .demandFill (some (.read, e.body.cls.region.castSucc))

/-- R109, R112, R113: the port has just issued the first attempt of a verified write of a whole line, under the attempt limit.
-/
def State.justWrites (s : State) (line : Nat) (data : Line) (owner : Owner) (failure : FailureKind) : Prop :=
  ∃ o, s.port.op = some o ∧ o.kind = .lineWrite ∧ o.line = line ∧ o.data = data ∧ o.mask = BitVec.allOnes 64 ∧
    o.verify = true ∧ o.limit = s.port.attemptLimit.toNat ∧ o.attempts = 1 ∧ o.phase = .awaiting ∧ o.owner = owner ∧
    o.failure = some failure ∧ o.region = 9

/-- R112, R119, R136, R137, R141: the operation that the scan or the rollback has come to has just been issued. -/
def State.procedureIssued (t : State) : Prop :=
  let base := t.journal.basePage * 64
  match t.startup.procedure with
  | .idle => True
  | .scanHeader => t.justIssued .lineRead base .scan (some (.journal, 9))
  | .scanRecord k => t.justIssued .lineRead (base + 1 + 2 * k) .scan (some (.journal, 9))
  | .scanImage k _ => t.justIssued .lineRead (base + 2 + 2 * k) .scan (some (.journal, 9))
  | .rollRecord k => t.justIssued .lineRead (base + 1 + 2 * k) .rollback (some (.journal, 9))
  | .rollImage k _ => t.justIssued .lineRead (base + 2 + 2 * k) .rollback (some (.journal, 9))
  | .rollTarget _ target image => t.justWrites target image .rollback .rollback
  | .rollHeader => t.justWrites base (headerLine (nextEpoch t.journal.epoch) t.journal.sizePages) .rollback .journal

/-- R39, R44, R47: no drain was in progress, or it has ended: the drain in progress, if any, is one that has just begun, and with
the journal FAILED it is of no guarded entry. -/
def State.drainsAnew (t : State) : Prop :=
  ∀ d, t.drain = some d → d.image = 0 ∧ d.firstTry = true ∧ d.stage ≠ .imageWrite ∧ d.stage ≠ .recordHeader ∧
    (∀ b, d.item ≠ .removed b) ∧ (t.journal.state = .failed → ∀ b, t.itemBody d.item = some b → b.cls.guarded = false)

/-- R44, R61: a guarded entry has been dropped: the journal is FAILED, and JOURNAL_FAIL or a more severe code stands for the
entry's captured region. -/
def State.dropped (t : State) (b : Body) : Prop :=
  b.cls.guarded = true ∧ t.journal.state = .failed ∧ t.faults.codes[b.cls.region].byte ≤ 2

/-- R44: the queue is what a run of drops left of a queue: guarded entries alone have gone from its front. -/
def State.dropsFrom (t : State) (q : List QueueEntry) : Prop :=
  ∃ gone, q = gone ++ t.queue ∧ ∀ x ∈ gone, ∃ b, x = .write b ∧ t.dropped b

/-- R60, R61: what the beginning of drains makes of a delayed write entry: nothing; ISSUED, where its drain has begun; or
COMPLETE with result FAIL, where it was dropped. -/
def State.writeGoesOn (t : State) (p : Fin 4) (e : DelayedEntry) : Prop :=
  t.engine.table[p] = some e ∨
    (t.engine.table[p] = some { e with state := .issued } ∧ ∃ d, t.drain = some d ∧ d.item = .delayedWrite p) ∨
    (t.engine.table[p] = some { e with
      state := .complete .fail, slot := none, timer := some (t.engine.claimTimeout.toNat * 16) } ∧
      e.isPendingWrite = true ∧ t.dropped e.body)

/-- R39, R44, R59: the write order goes on: where a drain may begin and none is in progress, no write entry and no close marker
is left. -/
def State.writesGoOn (t : State) : Prop :=
  t.drain = none → t.supply.state ≠ .fail → t.mgmt.longCmd ≠ some .initJournal →
    t.queue = [] ∧ ∀ (p : Fin 4) (e : DelayedEntry), t.engine.table[p] = some e → e.isPendingWrite = false

/-- R52, R101, R103, R105: an entry stands in the queue or in the delayed request table, or a delayed write that RESET UPSTREAM
removed still holds the head of the write order. -/
def State.workStands (s : State) : Prop :=
  s.queue ≠ [] ∨ (∃ p : Fin 4, s.engine.table[p].isSome = true) ∨ ∃ d b, s.drain = some d ∧ d.item = .removed b

/-- R40, R91, R98, R112, R113: the operation is the one that the drain in progress has reached, at its first attempt under the
attempt limit, with the epoch E and the record number W of the journal as they stand, and with the verify, failure kind and
region index of R112. -/
def State.carriesDrain (s : State) (o : Operation) : Prop :=
  ∃ d, s.drain = some d ∧ o.limit = s.port.attemptLimit.toNat ∧ o.attempts = 1 ∧ o.phase = .awaiting ∧
    match d.stage with
    | .beforeImage => ∃ b, s.itemBody d.item = some b ∧ o.kind = .lineRead ∧ o.line = b.line ∧ o.verify = false ∧
        o.failure = some .read ∧ o.region = b.cls.region.castSucc
    | .imageWrite => o.kind = .lineWrite ∧ o.line = s.journal.basePage * 64 + 2 + 2 * s.journal.written ∧
        o.data = d.image ∧ o.mask = BitVec.allOnes 64 ∧ o.verify = true ∧ o.failure = some .journal ∧ o.region = 9
    | .recordHeader => ∃ b, s.itemBody d.item = some b ∧ o.kind = .lineWrite ∧
        o.line = s.journal.basePage * 64 + 1 + 2 * s.journal.written ∧
        o.data = recordLine s.journal.epoch s.journal.written b.line d.image ∧ o.mask = BitVec.allOnes 64 ∧ o.verify = true ∧
        o.failure = some .journal ∧ o.region = 9
    | .dataWrite => ∃ b, s.itemBody d.item = some b ∧ o.kind = .lineWrite ∧ o.line = b.line ∧
        o.data = b.data >>> (8 * b.offset) ∧ o.mask = b.mask ∧ o.verify = b.cls.verify ∧ o.failure = some .dataWrite ∧
        o.region = b.cls.region.castSucc
    | .closeHeader => o.kind = .lineWrite ∧ o.line = s.journal.basePage * 64 ∧
        o.data = headerLine (nextEpoch s.journal.epoch) s.journal.sizePages ∧ o.mask = BitVec.allOnes 64 ∧ o.verify = true ∧
        o.failure = some .journal ∧ o.region = 9

/-! ### Start-up, scan and rollback -/

/-- R129, R130: start-up has ended: the port is OPEN with configuration LOADED or ABSENT and journal OFF or ACTIVE, and
otherwise in HOLD; STARTUP_DONE is raised, and in HOLD PORT_HOLD. -/
def State.startupEnded (t : State) : Prop :=
  t.startup.phase = .done ∧ t.startup.procedure = .idle ∧ t.recorded .startupDone ∧
    ((t.startup.loadResult = .loaded ∨ t.startup.loadResult = .absent) ∧ (t.journal.state = .off ∨ t.journal.state = .active) →
      t.startup.portState = .opened) ∧
    (¬ ((t.startup.loadResult = .loaded ∨ t.startup.loadResult = .absent) ∧
      (t.journal.state = .off ∨ t.journal.state = .active)) → t.startup.portState = .hold ∧ t.recorded .portHold)

/-- R141: the record that the rollback comes to after record k: record k − 1, and after record 0 the header write. -/
def State.rollsOn (t : State) (k : Nat) : Prop :=
  (∀ j, k = j + 1 → t.startup.procedure = .rollRecord j) ∧ (k = 0 → t.startup.procedure = .rollHeader)

/-- R119, R120, R141: the procedure has gone on after record k, and while the supply is not FAIL its operation is issued: the
read of record k − 1, or the write of the journal header of the next epoch. -/
def State.rollsOnAtOnce (t : State) (k : Nat) : Prop :=
  t.rollsOn k ∧ (t.supply.state ≠ .fail →
    (∀ j, k = j + 1 →
      t.justIssued .lineRead (t.journal.basePage * 64 + 1 + 2 * j) .rollback (some (.journal, 9))) ∧
    (k = 0 → t.justWrites (t.journal.basePage * 64) (headerLine (nextEpoch t.journal.epoch) t.journal.sizePages) .rollback
      .journal))

/-- R137, R138, R139: what the end of the scan with n validated records leaves: ACTIVE with none; PENDING with some in start-up
mode HOLD; and in AUTO the rollback begun. -/
def State.scanEnded (t : State) (s : State) (n : Nat) : Prop :=
  (n = 0 → t.journal = { s.journal with state := .active, written := 0 } ∧ t.startupEnded ∧
    (s.journal.state ≠ .active → t.recorded .journal)) ∧
  (0 < n → s.startup.mode = .hold → t.journal = { s.journal with state := .pending, written := n } ∧ t.startupEnded ∧
    (s.journal.state ≠ .pending → t.recorded .journal)) ∧
  (0 < n → s.startup.mode = .auto → t.journal = { s.journal with state := .rolling, written := n } ∧
    t.startup.phase = .rolling ∧ t.startup.portState = s.startup.portState ∧ t.startup.skipped = 0 ∧
    t.startup.rollPartial = false ∧ t.recorded .journal ∧ t.rollsOnAtOnce n)

end Machine

end Sys2Proof
end

