-- ==== Sys2Proof/Certificates/Slice0/Obligations.lean ====
section
/-! DEFINITION. The statements for the provers. -/

open Sys2Proof Sys2Proof.Machine

/-! ### Steps and resets -/

/-- A step with a command at the front of the queue is exec of that command on the state with the queue's rest. -/
def Obligations.StepRunsTheFrontCommand : Prop :=
  ∀ (c : Instr) (rest : List Instr) (s : State),
    step { s with pending := c :: rest } = exec c { s with pending := rest }

/-- Every step answers a next state: no command of the spec ends in a fault or a refusal, and the queue loses its front. What a
step does on an empty queue, an edge on the lines of the management port or a byte time on MCK, is the model's choice
(assumption log 7). -/
def Obligations.EveryStepAnswersANextState : Prop :=
  ∀ s : State, ∃ t : State, step s = .next t ∧ t.pending = s.pending.tail

/-- R126, R127 and the rules it names: both reset kinds give every piece of state its reset value, the comparator outputs, the
supply filters and the WLOCK filter begun afresh with it (R146, R149) and no watch open (assumption log 25), set the last reset
cause to their own kind, and hold the part in reset; VDD, the pins and what waits outside are those of the outside. At the end of a reset start-up begins in LOADING:
nothing else changes but the outside's NRST and VDD, which are then high and not below 2.20 V (assumption log 18); while the
part is not held in reset that command does nothing (assumption log 2). Of memory only the line of a LINE WRITE whose attempt
is outstanding becomes undefined (R121). -/
def Obligations.ResetsGiveTheResetValues : Prop :=
  ∀ s : State,
    (s.startup.inReset = true → exec .resetEnd s = .next { s with
      startup := { s.startup with inReset := false, nrstLow := false }
      supply := { s.supply with level := if s.supply.level = .below220 then .from220 else s.supply.level } }) ∧
    (s.startup.inReset = false → exec .resetEnd s = .next s) ∧
    ∃ p q : State, exec .powerOnReset s = .next p ∧ exec .pinReset s = .next q ∧
    p.hasResetValues ∧ q.hasResetValues ∧ p.startup.cause = .powerOn ∧ q.startup.cause = .pin ∧
    p.startup.inReset = true ∧ q.startup.inReset = true ∧ p.memory = q.memory ∧
    (p.supply.level = .below220 ∧ p.startup.nrstLow = s.startup.nrstLow ∧ p.supply.wlockPin = s.supply.wlockPin ∧
      p.pending = s.pending ∧ p.frameLines = s.frameLines) ∧
    (q.supply.level = s.supply.level ∧ q.startup.nrstLow = true ∧ q.supply.wlockPin = s.supply.wlockPin ∧
      q.pending = s.pending ∧ q.frameLines = s.frameLines) ∧
    ∀ a : Nat, a < 67108864 →
      (∀ op, s.port.op = some op → op.kind = .lineWrite → op.phase = .awaiting → a / 64 = op.line →
        Memory.read p.memory a = none) ∧
      ((∀ op, s.port.op = some op → op.kind = .lineWrite → op.phase = .awaiting → a / 64 ≠ op.line) →
        Memory.read p.memory a = Memory.read s.memory a)

/-! ### Laws that every step keeps -/

/-- R162: IRQ# is low exactly when at least one event is pending and unmasked; R148: NWARN is low while the supply state is
WARN or FAIL and released while it is NORMAL; R166: MDO is undriven exactly while the frame receive state is IDLE. -/
def Obligations.EveryStepKeepsThePins : Prop :=
  ∀ s t : State, s.pinsFollow → step s = .next t → t.pinsFollow

/-- R152: a latch is set while its state holds. -/
def Obligations.EveryStepKeepsTheLatches : Prop :=
  ∀ s t : State, s.latchesCover → step s = .next t → t.latchesCover

/-- R35: the posted write queue holds at most 16 entries, of them at most one close marker, which stands there exactly while
CLOSE EPOCH occupies the long-command slot. -/
def Obligations.EveryStepKeepsTheQueueLaw : Prop :=
  ∀ s t : State, s.queueLaw → step s = .next t → t.queueLaw

/-- R55: no two entries of the delayed request table have the same initiator, kind, address and count. -/
def Obligations.EveryStepKeepsTheTableLaw : Prop :=
  ∀ s t : State, s.tableLaw → step s = .next t → t.tableLaw

/-- R38, R57: the queue stands in acceptance order and every entry has a position of its own; R86, R122: the bounds of the
epoch line set and of the failed-line list, neither of which holds a line twice. Together with the order and the queue's law
the laws of the work that stands (`State.workLaw`): the item whose drain is in progress is the oldest of the write order over
queue, delayed writes and a removed delayed write (R38, R39, R52, R59); entries, demand slots and the operation in flight belong
together, with at most one slot FILLING (R60, R62, R63, R68, R73); a line with a write in the write order has no VALID slot, no
FILLING one but a stale one, no place in the prefetch list, and read entries behind the write alone, WAITING or ISSUED on a
stale slot (R58, R65, R67, R71); what may stand beside start-up, a scan, a rollback and INIT JOURNAL; a guarded write has a
reservation or a line in the epoch line set, and a close marker stands behind every guarded write (R27, R86, R98); and W + R does
not exceed the capacity (R87). And a fill that a step issues is of no line with a write in the write order. -/
def Obligations.EveryStepKeepsTheOrderAndTheLists : Prop :=
  ∀ s t : State, step s = .next t →
    (s.orderLaw → t.orderLaw) ∧ (s.lineSetLaw → t.lineSetLaw) ∧ (s.failedListLaw → t.failedListLaw) ∧
    (s.orderLaw → s.queueLaw → s.workLaw → t.workLaw ∧
      (s.attemptsLaw → ∀ line owner, s.port.op ≠ t.port.op → t.fillIssued line owner →
        ∀ b, t.writeStands b → b.line ≠ line))

/-- R1, R78, R80, R114: every setting stays in its range. -/
def Obligations.EveryStepKeepsTheSettingsLegal : Prop :=
  ∀ s t : State, s.settingsLegal → step s = .next t → t.settingsLegal

/-- R111, R113: the attempt count of the operation in flight stays between 1 and its limit. -/
def Obligations.EveryStepKeepsTheAttemptCount : Prop :=
  ∀ s t : State, s.attemptsLaw → step s = .next t → t.attemptsLaw

/-- The canonical form of what is known of memory (assumption log 3): addresses strictly rising and below 64 MiB. -/
def Obligations.EveryStepKeepsTheMemoryForm : Prop :=
  ∀ s t : State, Memory.wf s.memory = true → step s = .next t → Memory.wf t.memory = true

/-- `State.reset` is the part after a power-on reset that has ended (assumption log 4), and every law of this section holds
in it. -/
def Obligations.TheLawsHoldAfterReset : Prop :=
  (State.reset.hasResetValues ∧ State.reset.startup.cause = .powerOn ∧ State.reset.startup.inReset = false ∧
    State.reset.pending = [] ∧ State.reset.frameLines = [] ∧ State.reset.memory = []) ∧
  State.reset.pinsFollow ∧ State.reset.latchesCover ∧ State.reset.queueLaw ∧ State.reset.tableLaw ∧
    State.reset.orderLaw ∧ State.reset.lineSetLaw ∧ State.reset.failedListLaw ∧ State.reset.settingsLegal ∧
    State.reset.attemptsLaw ∧ State.reset.workLaw ∧ Memory.wf State.reset.memory = true

/-- R120: no memory operation is issued while the supply monitor is in FAIL. -/
def Obligations.NothingIsIssuedInFail : Prop :=
  ∀ s t : State, step s = .next t → t.supply.state = .fail → s.issuesNothing t

/-- R156, R158: outside a reset a region's fault code only moves to a more severe code, except where READ REGION CODES reads
it, and a counter only rises, except where READ COUNTERS clears it. -/
def Obligations.CodesAndCountersOnlyGrow : Prop :=
  ∀ (c : Instr) (s t : State), exec c s = .next t → c.mayReset = false →
    (c ≠ .readRegionCodes → ∀ i : Fin 9, t.faults.codes[i].byte ≤ s.faults.codes[i].byte) ∧
    (c ≠ .readCounters 1 → ∀ k : CounterKind, (s.faults.counters.get k).toNat ≤ (t.faults.counters.get k).toNat)

/-! ### Management frames -/

/-- R167, R168, R179, Table 10-2: the request bytes of every management command are judged good, and the code and arguments
that they carry spell the command, with every operand at every value. The codes are those of Table 10-2, and a multi-byte
argument goes most significant byte first. The CRC-8 starts at FFh, and each byte is exclusive-ored in and stepped eight times
with generator 07h. -/
def Obligations.RequestsSpellTheirCommands : Prop :=
  (∀ (c : Instr) (code : Byte) (args : List Byte), c.codeAndArgs = some (code, args) →
    judgeRequest (requestOf c) = .good code args ∧ commandOf code args = some c) ∧
  ([Instr.status, .readInhibits, .readRegionCodes, .readFailedLines, .readEvents, .readGuardFilter, .readParameters,
      .closeEpoch, .rollback, .setInhibit, .clearInhibit, .resetUpstream, .openPort].map Instr.codeAndArgs =
    [0x01, 0x02, 0x03, 0x05, 0x06, 0x13, 0x15, 0x20, 0x21, 0x28, 0x29, 0x30, 0x31].map fun code => some (code, [])) ∧
  (∀ (a b c d : Byte) (u v : BitVec 16) (e : BitVec 32) (f : BitVec 64),
    (Instr.readCounters a).codeAndArgs = some (0x04, [a]) ∧
    (Instr.clearEvents u).codeAndArgs = some (0x07, [u.extractLsb' 8 8, u.extractLsb' 0 8]) ∧
    (Instr.writeEventMask u a).codeAndArgs = some (0x08, [u.extractLsb' 8 8, u.extractLsb' 0 8, a]) ∧
    (Instr.writeRegion a u v b c).codeAndArgs =
      some (0x10, [a, u.extractLsb' 8 8, u.extractLsb' 0 8, v.extractLsb' 8 8, v.extractLsb' 0 8, b, c]) ∧
    (Instr.readRegion a).codeAndArgs = some (0x11, [a]) ∧
    (Instr.writeGuardFilter f).codeAndArgs = some (0x12, [f.extractLsb' 56 8, f.extractLsb' 48 8, f.extractLsb' 40 8,
      f.extractLsb' 32 8, f.extractLsb' 24 8, f.extractLsb' 16 8, f.extractLsb' 8 8, f.extractLsb' 0 8]) ∧
    (Instr.writeParameters a b c d).codeAndArgs = some (0x14, [a, b, c, d]) ∧
    (Instr.writeJournalPlacement u v).codeAndArgs =
      some (0x18, [u.extractLsb' 8 8, u.extractLsb' 0 8, v.extractLsb' 8 8, v.extractLsb' 0 8]) ∧
    (Instr.initJournal e).codeAndArgs =
      some (0x22, [e.extractLsb' 24 8, e.extractLsb' 16 8, e.extractLsb' 8 8, e.extractLsb' 0 8])) ∧
  let shift := fun r : Byte => if r.msb then (r <<< 1) ^^^ 0x07 else r <<< 1
  crc8 [] = 0xFF ∧ ∀ (bytes : List Byte) (b : Byte), crc8 (bytes ++ [b]) = shift^[8] (crc8 bytes ^^^ b)

/-- R126, R166, R167, R168, R170: while the part is held in reset, and until MCS# has risen after a frame, no frame is taken: a
management command or a frame in error does nothing (assumption log 2). MCS# rising returns the frame receive state to IDLE
from any state, and the bytes of the response not yet sent are not sent. On an empty queue a step is the next edge on the lines
of the port, and with none to come one byte time on MCK (assumption log 7). MCS# falling begins a request; eight rising edges
of MCK make a byte, most significant bit first; and the edges that carry a command's request have the command's effect at the
last rising one. FILLER is followed by the response's bytes and these by TRAILING. MDO is undriven in IDLE and begins a frame
at the level of FFh; in the frame it changes at the falling edges of MCK alone, to the next bit, of FFh but for the response's
bytes. Nothing else changes. -/
def Obligations.FramesAreTakenInTurn : Prop :=
  ∀ s : State,
    (s.startup.inReset = true ∨ s.mgmt.frame ≠ .idle →
      (∀ c : Instr, c.isManagement = true → exec c s = .next s) ∧
        ∀ bytes mcsRose, exec (.frameError bytes mcsRose) s = .next s) ∧
    (s.mgmt.frame ≠ .request ∨ s.mgmt.received = [] → exec .mcsRisingEdge s = .next { s with
      mgmt := { s.mgmt with frame := .idle, bits := [], mdoLine := none, received := [], response := [], sent := 0 } }) ∧
    (s.pending = [] → s.frameLines = [] →
      let last := some ((s.mgmt.response.getD s.mgmt.sent 0xFF).getLsbD 0)
      (s.mgmt.frame = .filler → step s = .next { s with
        mgmt := { s.mgmt with frame := .response, mdoLine := some true } }) ∧
      (s.mgmt.frame = .response → s.mgmt.sent + 1 < s.mgmt.response.length →
        step s = .next { s with mgmt := { s.mgmt with mdoLine := last, sent := s.mgmt.sent + 1 } }) ∧
      (s.mgmt.frame = .response → s.mgmt.response.length ≤ s.mgmt.sent + 1 → step s = .next { s with
        mgmt := { s.mgmt with frame := .trailing, mdoLine := last, sent := s.mgmt.response.length } }) ∧
      (s.mgmt.frame = .trailing → step s = .next { s with mgmt := { s.mgmt with mdoLine := some true } }) ∧
      (s.mgmt.frame = .idle ∨ s.mgmt.frame = .request → step s = .next s)) ∧
    (∀ e rest, s.pending = [] → s.frameLines = e :: rest →
      let u := { s with frameLines := rest }
      (e = .mcsRises → step s = exec .mcsRisingEdge u) ∧
      (e = .mcsFalls → step s = .next (if s.startup.inReset = false ∧ s.mgmt.frame = .idle then { u with
        mgmt := { s.mgmt with
          frame := .request, bits := [], mdoLine := some true, received := [], response := [], sent := 0 } } else u)) ∧
      (e = .mckFalls →
        step s = .next (if s.mgmt.frame = .idle then u else { u with mgmt := { s.mgmt with mdoLine := s.mdoBit } })) ∧
      ∀ mdi, e = .mckRises mdi →
        (s.mgmt.frame = .idle → step s = .next u) ∧
        (s.mgmt.frame ≠ .idle → s.mgmt.bits.length < 7 →
          step s = .next { u with mgmt := { s.mgmt with bits := s.mgmt.bits ++ [mdi] } }) ∧
        (s.mgmt.frame = .filler ∨ s.mgmt.frame = .response ∨ s.mgmt.frame = .trailing → 7 ≤ s.mgmt.bits.length →
          ∃ t : State, step { s with frameLines := [], mgmt := { s.mgmt with bits := [] } } = .next t ∧
            step s = .next { t with frameLines := rest, mgmt := { t.mgmt with mdoLine := s.mgmt.mdoLine } })) ∧
    (∀ (c : Instr) (rest : List FrameEdge), c.isManagement = true → s.takesFrame = true → s.pending = [] →
      s.frameLines = .mcsFalls :: (edgesOf (requestOf c) ++ rest) →
      core.run (16 * (requestOf c).length) s = exec c { s with frameLines := .mckFalls :: rest }) ∧
    (s.mgmt.frame = .idle → s.mdo = none) ∧
    (s.mgmt.frame = .request ∨ s.mgmt.frame = .filler ∨ s.mgmt.frame = .trailing → s.mdo = some 0xFF) ∧
    (s.mgmt.frame = .response → ∀ b, s.mgmt.response[s.mgmt.sent]? = some b → s.mdo = some b) ∧
    ∀ b, s.mdo = some b → s.mgmt.bits.length < 8 → s.mdoBit = some (b.getLsbD (7 - s.mgmt.bits.length))

/-- R168, R169: a length byte above 72, a CRC byte that is not the CRC-8 of the bytes before it, a code that is not in the
index, and a length that the index does not give are frame errors. A frame in error is counted and flagged and raises
MGMT_ERROR, and nothing else of the part changes; found at the length byte or the CRC byte it is answered with result FRAME
(06h, the last of the result bytes 00h to 06h) and no reply byte, with bit 7 of the status byte the flag as it stood before.
With MCS# rising early there is no response; with no byte received there was no frame. The edges that carry the bytes of a
frame in error have its effect. -/
def Obligations.FrameErrorsAreCountedAndFlagged : Prop :=
  (∀ (code n crc : Byte) (args : List Byte),
    (72 < n.toNat → judgeRequest [code, n] = .error) ∧
    (args.length = n.toNat → n.toNat ≤ 72 → crc ≠ crc8 (code :: n :: args) ∨
        (∀ (c : Instr) (others : List Byte), c.codeAndArgs = some (code, others) → others.length ≠ n.toNat) →
      judgeRequest (code :: n :: args ++ [crc]) = .error)) ∧
  [ResultCode.ok, .taken, .busy, .state, .qfull, .arg, .frame].map ResultCode.byte = [0x00, 0x01, 0x02, 0x03, 0x04, 0x05, 0x06] ∧
  ∀ (bytes : List Byte) (s : State), s.takesFrame = true →
    (judgeRequest bytes = .error →
      ∃ (f : FaultUnit) (status : Byte), ((s.count .frameErrors).raise .mgmtError).faults = f ∧
        ({ s with faults := f } : State).statusByte s.mgmt.lastError = status ∧
        exec (.frameError bytes false) s = .next { s with
          faults := f
          mgmt := { s.mgmt with
            frame := .filler, bits := [], mdoLine := some true, received := bytes, sent := 0, lastError := true
            response := [status, 0x06, 0x00, crc8 [status, 0x06, 0x00]] } }) ∧
    (bytes ≠ [] → judgeRequest bytes = .unfinished →
      exec (.frameError bytes true) s = .next { s with
        faults := ((s.count .frameErrors).raise .mgmtError).faults, mgmt := { s.mgmt with lastError := true } }) ∧
    exec (.frameError [] true) s = .next s ∧
    (∀ rest, s.pending = [] → (∀ n < bytes.length, judgeRequest (bytes.take n) = .unfinished) →
      judgeRequest bytes = .error → s.frameLines = .mcsFalls :: (edgesOf bytes ++ rest) →
      core.run (16 * bytes.length) s = exec (.frameError bytes false) { s with frameLines := .mckFalls :: rest }) ∧
    (s.mgmt.frame = .idle → bytes ≠ [] →
      exec .mcsRisingEdge { s with mgmt := { s.mgmt with frame := .request, received := bytes } } = .next { s with
        faults := ((s.count .frameErrors).raise .mgmtError).faults
        mgmt := { s.mgmt with
          frame := .idle, bits := [], mdoLine := none, received := [], response := [], sent := 0, lastError := true } })

/-! ### Read-outs -/

/-- R87, R173, R179: STATUS changes no state but its frame; its reply is the 23 bytes of Table 10-1, and the multi-byte fields
read most significant byte first give E, W, R, C and the skipped count, a 2-byte field what fits in it. R is the RESERVED
entries of the epoch line set and the pending write entries of kind OWN whose record has not completed. The status byte of
every response shows the bits of R179. -/
def Obligations.StatusReportsThePart : Prop :=
  ∀ s : State,
    (∀ flag : Bool, let b := s.statusByte flag
      b.getLsbD 0 = decide (s.startup.portState = .opened) ∧
      b.getLsbD 1 = decide (s.startup.portState = .starting ∨ s.startup.portState = .rolling) ∧
      b.getLsbD 2 = s.faults.irqLow ∧
      b.getLsbD 3 = (s.supply.wlock || s.supply.software || decide (s.supply.state ≠ .normal) ||
        decide (s.journal.state ≠ .active ∧ s.journal.state ≠ .off)) ∧
      b.getLsbD 4 = decide (s.journal.state = .unknown ∨ s.journal.state = .pending ∨ s.journal.state = .failed) ∧
      b.getLsbD 5 = s.mgmt.longCmd.isSome ∧ b.getLsbD 6 = decide (s.startup.loadResult = .bad) ∧ b.getLsbD 7 = flag) ∧
    let own := fun b : Body => b.cls.reservation == .own && !b.recorded
    s.takesFrame = true →
    ∃ reply : List Byte, exec .status s = .next (frameDone .status .ok reply s s) ∧ reply.length = 23 ∧
      [PortState.starting, .hold, .opened, .rolling][(reply.getD 0 0).toNat]? = some s.startup.portState ∧
      [StartPhase.loading, .supplyWait, .scanning, .rolling, .done][(reply.getD 1 0).toNat]? = some s.startup.phase ∧
      [LoadResult.none, .absent, .loaded, .bad][(reply.getD 2 0).toNat]? = some s.startup.loadResult ∧
      [LongResult.none, .ok, .partly, .failed][(reply.getD 3 0).toNat]? = some s.startup.rollbackResult ∧
      [SupplyState.normal, .warn, .fail][(reply.getD 4 0).toNat]? = some s.supply.state ∧
      [JournalState.off, .unknown, .pending, .active, .closing, .rolling, .failed][(reply.getD 5 0).toNat]? =
        some s.journal.state ∧
      natOf ((reply.drop 6).take 4) = s.journal.epoch.toNat ∧
      natOf ((reply.drop 10).take 2) = s.journal.written % 65536 ∧
      natOf ((reply.drop 12).take 2) = (s.journal.lineSet.countP (fun e => e.2 == .reserved) +
        s.queue.countP (fun x => x.body.any own) +
        s.engine.table.toList.countP (fun x => x.any fun e => e.isPendingWrite && own e.body) +
        s.removedBody.toList.countP own) % 65536 ∧
      natOf ((reply.drop 14).take 2) = s.journal.capacity % 65536 ∧
      reply.getD 16 0 = BitVec.ofNat 8 s.queue.length ∧
      reply.getD 17 0 = BitVec.ofNat 8 (s.engine.table.toList.countP (·.isSome)) ∧
      [false, true][(reply.getD 18 0).toNat]? = some s.mgmt.longCmd.isSome ∧
      [LongResult.none, .ok, .partly, .failed][(reply.getD 19 0).toNat]? = some s.mgmt.lastLong ∧
      natOf ((reply.drop 20).take 2) = s.startup.skipped % 65536 ∧
      [ResetCause.powerOn, .pin][(reply.getD 22 0).toNat]? = some s.startup.cause

/-- R153: READ INHIBITS replies the states byte and the latches byte; then each latch whose state does not hold, and the
GLITCH latch, is cleared, and nothing else changes. -/
def Obligations.ReadInhibitsReportsAndClears : Prop :=
  ∀ s : State, s.takesFrame = true →
    ∃ (states latches : Byte) (l : Latches),
      exec .readInhibits s = .next (frameDone .readInhibits .ok [states, latches] s
        { s with supply := { s.supply with latches := l } }) ∧
      (states.getLsbD 0 = s.supply.wlock ∧ states.getLsbD 1 = s.supply.software ∧
        states.getLsbD 2 = (s.supply.state == .warn) ∧ states.getLsbD 3 = (s.supply.state == .fail) ∧
        states.getLsbD 4 = !(s.journal.state == .active || s.journal.state == .off) ∧
        states.getLsbD 5 = false ∧ states.getLsbD 6 = false ∧ states.getLsbD 7 = false) ∧
      (latches.getLsbD 0 = s.supply.latches.wlock ∧ latches.getLsbD 1 = s.supply.latches.software ∧
        latches.getLsbD 2 = s.supply.latches.warn ∧ latches.getLsbD 3 = s.supply.latches.fail ∧
        latches.getLsbD 4 = s.supply.latches.journal ∧ latches.getLsbD 5 = s.supply.latches.glitch ∧
        latches.getLsbD 6 = false ∧ latches.getLsbD 7 = false) ∧
      l = ⟨s.supply.latches.wlock && states.getLsbD 0, s.supply.latches.software && states.getLsbD 1,
        s.supply.latches.warn && states.getLsbD 2, s.supply.latches.fail && states.getLsbD 3,
        s.supply.latches.journal && states.getLsbD 4, false⟩

/-- R157: READ REGION CODES replies the nine code bytes in region order, and every code becomes NO_TRAFFIC; events and all else
stay. -/
def Obligations.ReadRegionCodesReportsAndClears : Prop :=
  ∀ s : State, s.takesFrame = true →
    ∃ reply : List Byte, exec .readRegionCodes s = .next (frameDone .readRegionCodes .ok reply s
        { s with faults := { s.faults with codes := Vector.replicate 9 .noTraffic } }) ∧
      reply.length = 9 ∧ ∀ i : Fin 9, reply[i.val]? = some ((match s.faults.codes[i] with
        | .memoryFail => 1 | .journalFail => 2 | .journalFull => 3 | .claimLost => 4
        | .refused => 5 | .recovered => 6 | .clean => 7 | .noTraffic => 8) : Byte)

/-- R159: READ COUNTERS with clear flag 00h or 01h replies the six counters, 2 bytes each, most significant first, and with
01h clears them; any other flag gives ARG and changes nothing. -/
def Obligations.ReadCountersReportsAndMayClear : Prop :=
  ∀ (clear : Byte) (s : State), s.takesFrame = true →
    (clear.toNat ≤ 1 → ∃ reply : List Byte,
      exec (.readCounters clear) s = .next (frameDone (.readCounters clear) .ok reply s
        { s with faults := { s.faults with
          counters := if clear = 1 then ⟨0, 0, 0, 0, 0, 0⟩ else s.faults.counters } }) ∧
      reply.length = 12 ∧
      natOf (reply.take 2) = s.faults.counters.memRetry.toNat ∧
      natOf ((reply.drop 2).take 2) = s.faults.counters.verifyMismatch.toNat ∧
      natOf ((reply.drop 4).take 2) = s.faults.counters.claimLost.toNat ∧
      natOf ((reply.drop 6).take 2) = s.faults.counters.noRoom.toNat ∧
      natOf ((reply.drop 8).take 2) = s.faults.counters.journalRecords.toNat ∧
      natOf ((reply.drop 10).take 2) = s.faults.counters.frameErrors.toNat) ∧
    (1 < clear.toNat → exec (.readCounters clear) s = .next (frameDone (.readCounters clear) .arg [] s s))

/-- R123: READ FAILED LINES replies the number of entries, the overflow flag and five bytes for each entry, oldest first; the
list is then emptied and the flag cleared, and nothing else changes. -/
def Obligations.ReadFailedLinesReportsAndEmpties : Prop :=
  ∀ s : State, s.takesFrame = true →
    ∃ reply : List Byte, exec .readFailedLines s = .next (frameDone .readFailedLines .ok reply s
        { s with port := { s.port with failed := [], overflow := false } }) ∧
      reply.length = 2 + 5 * s.port.failed.length ∧
      reply[0]? = some (BitVec.ofNat 8 s.port.failed.length) ∧
      [false, true][(reply.getD 1 0).toNat]? = some s.port.overflow ∧
      ∀ (i : Nat) (f : FailedLine), s.port.failed[i]? = some f →
        natOf ((reply.drop (2 + 5 * i)).take 3) = f.line % 16777216 ∧
        [FailureKind.dataWrite, .read, .journal, .rollback][(reply.getD (5 + 5 * i) 0).toNat]? = some f.kind ∧
        reply[6 + 5 * i]? = some (BitVec.ofNat 8 f.region.val)

/-! ### Settings -/

/-- R163, R164: READ EVENTS replies pending set, mask set and visibility flag and changes no state. CLEAR EVENTS with a bit
above 8 gives ARG and changes nothing; otherwise each named pending bit becomes 0, the others stay, and IRQ# follows. -/
def Obligations.EventsAreReadAndCleared : Prop :=
  ∀ (bits : BitVec 16) (s : State), s.takesFrame = true →
    (∃ reply : List Byte, exec .readEvents s = .next (frameDone .readEvents .ok reply s s) ∧ reply.length = 5 ∧
      natOf (reply.take 2) = s.faults.events.toNat ∧ natOf ((reply.drop 2).take 2) = s.faults.mask.toNat ∧
      [false, true][(reply.getD 4 0).toNat]? = some s.faults.visible) ∧
    (bits.toNat < 512 → ∃ f : FaultUnit, exec (.clearEvents bits) s =
        .next (frameDone (.clearEvents bits) .ok [] s { s with faults := f }) ∧
      (∀ i < 9, f.events.getLsbD i = (s.faults.events.getLsbD i && !bits.getLsbD i)) ∧
      (f.irqLow = true ↔ ∃ i < 9, f.events.getLsbD i = true ∧ s.faults.mask.getLsbD i = false) ∧
      f.mask = s.faults.mask ∧ f.visible = s.faults.visible ∧ f.codes = s.faults.codes ∧
      f.counters = s.faults.counters) ∧
    (512 ≤ bits.toNat → exec (.clearEvents bits) s = .next (frameDone (.clearEvents bits) .arg [] s s))

/-- R165: WRITE EVENT MASK sets mask and visibility, leaves the pending bits, and IRQ# follows; illegal values give ARG. -/
def Obligations.WriteEventMaskSetsMaskAndVisibility : Prop :=
  ∀ (mask : BitVec 16) (visible : Byte) (s : State), s.takesFrame = true →
    (mask.toNat < 512 → visible.toNat ≤ 1 → ∃ f : FaultUnit, exec (.writeEventMask mask visible) s =
        .next (frameDone (.writeEventMask mask visible) .ok [] s { s with faults := f }) ∧
      f.mask.toNat = mask.toNat ∧ (f.visible = true ↔ visible = 1) ∧ f.events = s.faults.events ∧
      (f.irqLow = true ↔ ∃ i < 9, s.faults.events.getLsbD i = true ∧ mask.getLsbD i = false) ∧
      f.codes = s.faults.codes ∧ f.counters = s.faults.counters) ∧
    (512 ≤ mask.toNat ∨ 1 < visible.toNat →
      exec (.writeEventMask mask visible) s = .next (frameDone (.writeEventMask mask visible) .arg [] s s))

/-- R3, R17, R18: WRITE REGION replaces one record and nothing else, or, for index 8, the background attributes; with an
illegal argument it gives ARG and changes nothing. READ REGION then returns what was written; for index 8 it returns 0000h,
0000h and 00h with the attribute byte. -/
def Obligations.WriteRegionThenReadRegion : Prop :=
  ∀ (index : Byte) (base limit : BitVec 16) (attr enable : Byte) (s : State), s.takesFrame = true →
    (index.toNat ≤ 8 → base.toNat ≤ limit.toNat → limit.toNat ≤ 16383 → attr.toNat / 8 % 4 ≠ 3 → attr.toNat < 64 →
        enable.toNat ≤ 1 →
      ∃ c : Classifier, exec (.writeRegion index base limit attr enable) s =
          .next (frameDone (.writeRegion index base limit attr enable) .ok [] s { s with classifier := c }) ∧
        c.guardFilter = s.classifier.guardFilter ∧
        (∀ i : Fin 8, i.val ≠ index.toNat → c.regions[i] = s.classifier.regions[i]) ∧
        (index.toNat ≠ 8 → c.background = s.classifier.background) ∧
        (∀ i : Fin 8, i.val = index.toNat → c.regions[i].enable = decide (enable = 1) ∧
          c.regions[i].basePage = base.toNat ∧ c.regions[i].limitPage = limit.toNat ∧
          c.regions[i].attributes.spelled attr.toNat) ∧
        (index.toNat = 8 → c.background.spelled attr.toNat) ∧
        exec (.readRegion index) { s with classifier := c } =
          .next (frameDone (.readRegion index) .ok
            (if index.toNat = 8 then [0, 0, 0, 0, attr, 0]
              else [base.extractLsb' 8 8, base.extractLsb' 0 8, limit.extractLsb' 8 8, limit.extractLsb' 0 8, attr, enable])
            { s with classifier := c } { s with classifier := c })) ∧
    (¬ (index.toNat ≤ 8 ∧ base.toNat ≤ limit.toNat ∧ limit.toNat ≤ 16383 ∧ attr.toNat / 8 % 4 ≠ 3 ∧ attr.toNat < 64 ∧
        enable.toNat ≤ 1) →
      exec (.writeRegion index base limit attr enable) s =
        .next (frameDone (.writeRegion index base limit attr enable) .arg [] s s)) ∧
    (8 < index.toNat → exec (.readRegion index) s = .next (frameDone (.readRegion index) .arg [] s s))

/-- R8, R19, R20: WRITE GUARD FILTER replaces the whole filter and nothing else, and READ GUARD FILTER returns it in eight
bytes: bit i of the value, the entry for guard index i, is bit i mod 8 of byte 7 − (i div 8). -/
def Obligations.WriteGuardFilterThenReadGuardFilter : Prop :=
  ∀ (filter : BitVec 64) (s : State), s.takesFrame = true →
    exec (.writeGuardFilter filter) s = .next (frameDone (.writeGuardFilter filter) .ok [] s
      { s with classifier := { s.classifier with guardFilter := filter } }) ∧
    ∃ reply : List Byte, exec .readGuardFilter s = .next (frameDone .readGuardFilter .ok reply s s) ∧
      reply.length = 8 ∧
      ∀ i < 64, (reply.getD (7 - i / 8) 0).getLsbD (i % 8) = s.classifier.guardFilter.getLsbD i

/-- R144, R174, R175: WRITE PARAMETERS sets all four parameters or, with an illegal argument, gives ARG and changes nothing;
besides the parameters only what a fresh comparison with VWARN decides changes: the comparator outputs, filters and watches,
and the GLITCH latch with its event. READ PARAMETERS replies the four parameters and changes no state. That the filter of a
risen VFAIL comparison is one of its own, and which change opens a watch, is the model's reading (assumption logs 6, 24). -/
def Obligations.ParametersAreWrittenAndRead : Prop :=
  ∀ (claim limit depth warn : Byte) (s : State), s.takesFrame = true →
    (claim ≠ 0 → limit ≠ 0 → depth.toNat ≤ 3 → warn.toNat ≤ 3 →
      ∃ (w : BitVec 2) (t : SupplyTimers), w.toNat = warn.toNat ∧
        s.supply.timersFollow (decide (SupplyLevel.volts s.supply.level < 300 - 10 * w.toNat))
          (decide (SupplyLevel.volts s.supply.level < 255)) t ∧
        exec (.writeParameters claim limit depth warn) s =
          .next (frameDone (.writeParameters claim limit depth warn) .ok [] s (({ s with
            engine := { s.engine with claimTimeout := claim, prefetchDepth := depth.setWidth 2 }
            port := { s.port with attemptLimit := limit } } : State).compared s.supply.level w t))) ∧
    (claim = 0 ∨ limit = 0 ∨ 3 < depth.toNat ∨ 3 < warn.toNat →
      exec (.writeParameters claim limit depth warn) s =
        .next (frameDone (.writeParameters claim limit depth warn) .arg [] s s)) ∧
    ∃ d w : Byte, exec .readParameters s = .next (frameDone .readParameters .ok
        [s.engine.claimTimeout, s.port.attemptLimit, d, w] s s) ∧
      d.toNat = s.engine.prefetchDepth.toNat ∧ w.toNat = s.supply.warnLevel.toNat

/-- R150: SET INHIBIT sets the flag and its latch, the latch raising INHIBIT where it was clear (R152); CLEAR INHIBIT clears
the flag and leaves the latch; nothing else changes. -/
def Obligations.SetAndClearInhibit : Prop :=
  ∀ s : State, s.takesFrame = true →
    exec .setInhibit s = .next (frameDone .setInhibit .ok [] s { s with
      supply := { s.supply with software := true, latches := { s.supply.latches with software := true } }
      faults := if s.supply.latches.software then s.faults else (s.raise .inhibit).faults }) ∧
    exec .clearInhibit s = .next (frameDone .clearInhibit .ok [] s { s with
      supply := { s.supply with software := false } })

/-- R140: OPEN PORT opens a port in HOLD whose journal is OFF or ACTIVE, changes nothing in OPEN, and is refused with STATE in
every other case. -/
def Obligations.OpenPortOpensAHeldPort : Prop :=
  ∀ s : State, s.takesFrame = true →
    (s.startup.portState = .hold → s.journal.state = .off ∨ s.journal.state = .active →
      exec .openPort s = .next (frameDone .openPort .ok [] s { s with
        startup := { s.startup with portState := .opened } })) ∧
    (s.startup.portState = .opened → exec .openPort s = .next (frameDone .openPort .ok [] s s)) ∧
    (¬ (s.startup.portState = .hold ∧ (s.journal.state = .off ∨ s.journal.state = .active)) →
      s.startup.portState ≠ .opened → exec .openPort s = .next (frameDone .openPort .state [] s s))

/-- R52, R75, R76: RESET UPSTREAM removes every delayed entry, frees every slot and empties the prefetch list; journal,
settings, counters, memory and answer lines stay. While the port carries an operation and a drain is in progress nothing else
changes at all, but for the drain of a delayed write whose operation is in flight, which passes to that operation. -/
def Obligations.ResetUpstreamEmptiesTheEngine : Prop :=
  ∀ s : State, s.takesFrame = true →
    ∃ t : State, exec .resetUpstream s = .next (frameDone .resetUpstream .ok [] s t) ∧
      t.engine = { s.engine with
        table := Vector.replicate 4 none, slots := Vector.replicate 8 .free, prefetch := [] } ∧
      t.journal = s.journal ∧ t.faults.counters = s.faults.counters ∧ t.classifier = s.classifier ∧
      t.startup = s.startup ∧ t.supply = s.supply ∧ t.memory = s.memory ∧ t.lines = s.lines ∧ t.nextPos = s.nextPos ∧
      t.mgmt.longCmd = s.mgmt.longCmd ∧ t.mgmt.lastLong = s.mgmt.lastLong ∧ t.pending = s.pending ∧
      t.frameLines = s.frameLines ∧
      ∀ (x : Drain) (op : Operation), s.drain = some x → s.port.op = some op →
        (∀ p, x.item = .delayedWrite p → op.owner = .head ∧ s.engine.table[p].isSome = true) →
        t.queue = s.queue ∧ t.port = s.port ∧ t.faults = s.faults ∧
        ((∀ p, x.item ≠ .delayedWrite p) → t.drain = some x) ∧
        ∀ p e, x.item = .delayedWrite p → s.engine.table[p] = some e →
          t.drain = some { x with item := .removed e.body }

/-! ### Start-up, scan and rollback -/

/-- R131, R132, R135, R178: the end of the image read. ABSENT with a first byte FFh, LOADED for a legal image, BAD otherwise;
the shadow copy is gone and without LOADED no setting changes (assumption log 15: the read is one event). LOADING is then over:
SUPPLY_WAIT lasts while the supply is not NORMAL; where it is, the scan begins with a journal size above 0, and with size 0
start-up ends, with its events (R129, R130). Outside LOADING the command does nothing (assumption log 2). -/
def Obligations.ConfigurationLoadJudgesTheImage : Prop :=
  ∀ (image : Image) (s : State),
    (s.startup.inReset = false → s.startup.phase = .loading →
      ∃ t : State, exec (.configurationLoad image) s = .next t ∧ t.startup.shadow = [] ∧
        (imageAt image 0 1 = 0xFF → t.startup.loadResult = .absent) ∧
        (imageLegal image → t.startup.loadResult = .loaded) ∧
        (imageAt image 0 1 ≠ 0xFF → ¬ imageLegal image → t.startup.loadResult = .bad) ∧
        (¬ imageLegal image → t.classifier = s.classifier ∧ t.journal = s.journal ∧ t.startup.mode = s.startup.mode ∧
          t.engine.claimTimeout = s.engine.claimTimeout ∧ t.engine.prefetchDepth = s.engine.prefetchDepth ∧
          t.port.attemptLimit = s.port.attemptLimit ∧ t.supply = s.supply ∧ t.faults.mask = s.faults.mask ∧
          t.faults.visible = s.faults.visible) ∧
        (s.supply.state ≠ .normal → t.startup.phase = .supplyWait ∧ t.startup.portState = s.startup.portState) ∧
        (s.supply.state = .normal → 0 < t.journal.sizePages →
          t.startup.phase = .scanning ∧ t.startup.procedure = .scanHeader ∧ t.startup.portState = s.startup.portState) ∧
        (s.supply.state = .normal → t.journal.sizePages = 0 → t.startupEnded)) ∧
    (s.startup.inReset = true ∨ s.startup.phase ≠ .loading → exec (.configurationLoad image) s = .next s)

/-- R133, R152, R178: a legal image is applied whole, every setting from its own offset; with a journal size above 0 the
journal becomes UNKNOWN with its event and its inhibit latch, under the new masks, and E, W and the epoch line set stay. -/
def Obligations.ALoadedImageIsAppliedWhole : Prop :=
  ∀ (image : Image) (s : State), s.startup.inReset = false → s.startup.phase = .loading → imageLegal image →
    ∃ t : State, exec (.configurationLoad image) s = .next t ∧
      t.classifier.background.spelled (imageAt image 4 1) ∧
      (∀ i : Fin 8, t.classifier.regions[i].basePage = imageAt image (5 + 6 * i.val) 2 ∧
        t.classifier.regions[i].limitPage = imageAt image (7 + 6 * i.val) 2 ∧
        t.classifier.regions[i].attributes.spelled (imageAt image (9 + 6 * i.val) 1) ∧
        t.classifier.regions[i].enable = decide (imageAt image (10 + 6 * i.val) 1 = 1)) ∧
      t.classifier.guardFilter.toNat = imageAt image 53 8 ∧
      t.journal = { s.journal with
        basePage := imageAt image 61 2, sizePages := imageAt image 63 2
        state := if imageAt image 63 2 = 0 then s.journal.state else .unknown } ∧
      t.startup.mode = (if imageAt image 65 1 = 1 then .auto else .hold) ∧
      t.engine.claimTimeout.toNat = imageAt image 66 1 ∧ t.port.attemptLimit.toNat = imageAt image 67 1 ∧
      t.engine.prefetchDepth.toNat = imageAt image 68 1 ∧ t.supply.warnLevel.toNat = imageAt image 69 1 ∧
      t.faults.mask.toNat = imageAt image 70 2 ∧ t.faults.visible = decide (imageAt image 72 1 = 1) ∧
      (0 < imageAt image 63 2 → s.journal.state ≠ .unknown → t.recorded .journal ∧ t.inhibited s .journal)

/-- R112, R136, R137, R138: the scan. A valid header gives its epoch and leads to record 0; no valid header, or a failed
header read, ends start-up with the journal as it is. A record header that names record k leads to its image line, and an
image over which the CRC checks to record k + 1; the first record that does not validate, or k reaching C, ends the scan with
k records, and a failed record read makes the journal FAILED with W = k. While the supply is not FAIL the next line of the
area is read at once, with the failure kind JOURNAL. Where start-up ends the port is OPEN or in HOLD by R129, and the end and
each change of the journal state raise their events. -/
def Obligations.TheScanReadsTheJournal : Prop :=
  ∀ (c : Instr) (s : State) (op : Operation) (data : Line), s.port.op = some op → op.owner = .scan →
    (op.succeedsBy data c → ∃ t : State, exec c s = .next t ∧ t.startup.loadResult = s.startup.loadResult ∧
      (s.startup.procedure = .scanHeader → 0 < s.journal.sizePages → headerValid s.journal.sizePages data = true →
        t.startup.procedure = .scanRecord 0 ∧ t.journal = { s.journal with epoch := headerEpoch data } ∧
        (s.supply.state ≠ .fail → t.justIssued .lineRead (s.journal.basePage * 64 + 1) .scan (some (.journal, 9)))) ∧
      (s.startup.procedure = .scanHeader → headerValid s.journal.sizePages data = false →
        t.startupEnded ∧ t.startup.loadResult = s.startup.loadResult ∧ t.journal = s.journal) ∧
      (∀ k, s.startup.procedure = .scanRecord k → recordNamed s.journal.epoch k data = true →
        t.startup.procedure = .scanImage k data ∧ t.journal = s.journal ∧
        (s.supply.state ≠ .fail → t.justIssued .lineRead (s.journal.basePage * 64 + 2 + 2 * k) .scan (some (.journal, 9)))) ∧
      (∀ k, s.startup.procedure = .scanRecord k → recordNamed s.journal.epoch k data = false → t.scanEnded s k) ∧
      (∀ k header, s.startup.procedure = .scanImage k header → recordChecks header data = true →
        k + 1 < (64 * s.journal.sizePages - 1) / 2 → t.startup.procedure = .scanRecord (k + 1) ∧ t.journal = s.journal ∧
        (s.supply.state ≠ .fail →
          t.justIssued .lineRead (s.journal.basePage * 64 + 1 + 2 * (k + 1)) .scan (some (.journal, 9)))) ∧
      (∀ k header, s.startup.procedure = .scanImage k header → recordChecks header data = true →
        k + 1 = (64 * s.journal.sizePages - 1) / 2 → t.scanEnded s (k + 1)) ∧
      (∀ k header, s.startup.procedure = .scanImage k header → recordChecks header data = false → t.scanEnded s k)) ∧
    (op.failsBy c → ∃ t : State, exec c s = .next t ∧
      t.startup.loadResult = s.startup.loadResult ∧
      (s.startup.procedure = .scanHeader → t.startupEnded ∧ t.journal = s.journal) ∧
      ∀ k, (s.startup.procedure = .scanRecord k ∨ ∃ header, s.startup.procedure = .scanImage k header) →
        t.startupEnded ∧ t.startup.portState = .hold ∧
          t.journal = { s.journal with state := .failed, written := k } ∧
          (s.journal.state ≠ .failed → t.recorded .journal))

/-- R112, R141: the rollback procedure. A record header that names record k leads to its image line; an image over which the
CRC checks, for a target line outside the journal area, to the verified write of the whole image to that line; and the write
to record k − 1, or after record 0 to the verified write of the journal header of epoch E + 1. A record that does not
validate, lies in the area, or cannot be read is skipped and counted; a target write that fails is not counted, but makes the
result PARTIAL. The header write ends the procedure: in success E rises, W is 0, the set is empty and the journal ACTIVE with
result OK or PARTIAL; in failure the journal is FAILED, with result FAILED. A command rollback then raises LONG_DONE, a
start-up rollback ends start-up (R129, R130), and the change of the journal state raises JOURNAL. -/
def Obligations.TheRollbackRestoresTheRecords : Prop :=
  ∀ (c : Instr) (s : State) (op : Operation) (data : Line), s.port.op = some op → op.owner = .rollback →
    let skips := fun (t : State) (k : Nat) =>
      t.rollsOnAtOnce k ∧ t.startup.skipped = s.startup.skipped + 1 ∧ t.startup.rollPartial = true
    let ends := fun (t : State) (r : LongResult) =>
      (∀ noted, s.mgmt.longCmd = some (.rollback noted) →
        t.mgmt.lastLong = r ∧ t.mgmt.longCmd = none ∧ t.startup.portState = noted ∧ t.startup.procedure = .idle ∧
          t.startup.phase = s.startup.phase ∧ t.recorded .longDone) ∧
      (s.mgmt.longCmd = none → t.startup.rollbackResult = r ∧ t.startup.loadResult = s.startup.loadResult ∧
        t.mgmt.longCmd = none ∧ t.mgmt.lastLong = s.mgmt.lastLong ∧ t.startupEnded)
    (op.succeedsBy data c → ∃ t : State, exec c s = .next t ∧
      (∀ k, s.startup.procedure = .rollRecord k → recordNamed s.journal.epoch k data = true →
        t.startup.procedure = .rollImage k data ∧ t.startup.skipped = s.startup.skipped ∧
        (s.supply.state ≠ .fail →
          t.justIssued .lineRead (s.journal.basePage * 64 + 2 + 2 * k) .rollback (some (.journal, 9)))) ∧
      (∀ k, s.startup.procedure = .rollRecord k → recordNamed s.journal.epoch k data = false → skips t k) ∧
      (∀ k header, s.startup.procedure = .rollImage k header → recordChecks header data = true →
        s.journal.inArea (recordTarget header) = false →
        t.startup.procedure = .rollTarget k (recordTarget header) data ∧ t.startup.skipped = s.startup.skipped ∧
        (s.supply.state ≠ .fail → t.justWrites (recordTarget header) data .rollback .rollback)) ∧
      (∀ k header, s.startup.procedure = .rollImage k header →
        recordChecks header data = false ∨ s.journal.inArea (recordTarget header) = true → skips t k) ∧
      (∀ k target image, s.startup.procedure = .rollTarget k target image →
        t.rollsOnAtOnce k ∧ t.startup.skipped = s.startup.skipped ∧ t.startup.rollPartial = s.startup.rollPartial) ∧
      (s.startup.procedure ≠ .rollHeader → t.journal = s.journal) ∧
      (s.startup.procedure = .rollHeader →
        t.journal = { s.journal with epoch := nextEpoch s.journal.epoch, written := 0, lineSet := [], state := .active } ∧
        (s.journal.state ≠ .active → t.recorded .journal) ∧ ends t (if s.startup.rollPartial then .partly else .ok))) ∧
    (op.failsBy c → ∃ t : State, exec c s = .next t ∧
      (∀ k, (s.startup.procedure = .rollRecord k ∨ ∃ header, s.startup.procedure = .rollImage k header) → skips t k) ∧
      (∀ k target image, s.startup.procedure = .rollTarget k target image →
        t.rollsOnAtOnce k ∧ t.startup.skipped = s.startup.skipped ∧ t.startup.rollPartial = true) ∧
      (s.startup.procedure ≠ .rollHeader → t.journal = s.journal) ∧
      (s.startup.procedure = .rollHeader →
        t.journal = { s.journal with state := .failed } ∧ (s.journal.state ≠ .failed → t.recorded .journal) ∧
        ends t .failed))

/-- R81, R136, R176, R177: a line is a valid journal header for a size exactly when its marker, format, size and CRC-32 are
right and its epoch is not 0; it names record k of an epoch exactly when its marker, epoch and sequence are right; and it
checks over an image exactly when its CRC-32 is that of its epoch, sequence, target line and the image's bytes. The header
line that the part writes for an epoch other than 0 is valid for its own size and gives its epoch back; the record header line
that it writes names its own epoch and number, checks over its own image, and gives its target line back. The CRC-32 starts at
FFFFFFFFh, each byte is exclusive-ored into the top 8 bits and stepped eight times with generator 04C11DB7h, and the register
is inverted at the end. -/
def Obligations.JournalLinesReadBack : Prop :=
  (∀ (size : Nat) (l : Line), headerValid size l = true ↔
    lineAt l 0 4 = 0x4B4E4A48 ∧ lineAt l 4 1 = 1 ∧ lineAt l 12 2 = size ∧ lineAt l 8 4 ≠ 0 ∧
      lineAt l 16 4 = (crc32 ([0, 1, 2, 3, 4, 8, 9, 10, 11, 12, 13].map (lineByte l))).toNat) ∧
  (∀ (epoch : BitVec 32) (k : Nat) (l : Line), k < 4294967296 → (recordNamed epoch k l = true ↔
    lineAt l 0 4 = 0x4B4E4A52 ∧ lineAt l 4 4 = epoch.toNat ∧ lineAt l 8 4 = k)) ∧
  (∀ header image : Line, recordChecks header image = true ↔ lineAt header 16 4 =
    (crc32 ((List.range 12).map (fun i => lineByte header (4 + i)) ++ (List.range 64).map (lineByte image))).toNat) ∧
  (∀ (epoch : BitVec 32) (size : Nat), epoch ≠ 0 → size < 65536 →
    headerValid size (headerLine epoch size) = true ∧ headerEpoch (headerLine epoch size) = epoch) ∧
  (∀ (epoch : BitVec 32) (k target : Nat) (image : Line), k < 4294967296 → target < 1048576 →
    recordNamed epoch k (recordLine epoch k target image) = true ∧
    recordChecks (recordLine epoch k target image) image = true ∧ recordTarget (recordLine epoch k target image) = target) ∧
  let shift := fun r : BitVec 32 => if r.msb then (r <<< 1) ^^^ 0x04C11DB7 else r <<< 1
  crc32 [] = 0 ∧ ∀ (bytes : List Byte) (b : Byte),
    crc32 (bytes ++ [b]) = ~~~ shift^[8] (~~~ crc32 bytes ^^^ (b.setWidth 32 <<< 24))

/-! ### Requests -/

/-- R2, R7, R9, R10, R11, R13, R22, R23, R36: a request is cut at its line's end, and keeps the first of its data bytes; the
answer that it is handled is DONE, or where it was cut SHORT, coded on UANS as Table 2-1 gives. The byte mask is that of the
bytes it writes, a read takes as many bytes at its offset, and the data goes to its offset. Its page's region is the
lowest-numbered enabled region that contains the page, and otherwise the background; its attribute set gives the write mode and
the rest. A line is guarded outside the journal area, under ALL, or under HASHED where the filter holds its guard index; a
journal area line reads SINGLE. -/
def Obligations.RequestsAreCutAndClassified : Prop :=
  ∀ (kind : RequestKind) (initiator : BitVec 2) (addr : BitVec 26) (ucount : BitVec 6) (data : Line) (s : State),
    let r := requestAt kind initiator addr ucount data
    let page := addr.toNat / 4096
    let n := if ucount = 0 then 64 else ucount.toNat
    let area := s.journal.basePage ≤ page ∧ page < s.journal.basePage + s.journal.sizePages
    let within := fun i : Fin 8 => s.classifier.regions[i].enable = true ∧ s.classifier.regions[i].basePage ≤ page ∧
      page ≤ s.classifier.regions[i].limitPage
    let c := s.classify r.line
    let a := if h : c.region.val < 8 then s.classifier.regions[c.region.val].attributes else s.classifier.background
    (r.line * 64 + r.offset = addr.toNat ∧ r.offset < 64 ∧ r.count = min n (64 - addr.toNat % 64) ∧
      r.handled = handledAnswer addr ucount ∧ r.kind = kind ∧ r.initiator = initiator) ∧
    (r.handled.uans = (if addr.toNat % 64 + n ≤ 64 then 0 else 1) ∧ Answer.retry.uans = 2 ∧ Answer.abort.uans = 3 ∧
      ∀ k, r.handled.ushort = some k → k.toNat = r.count) ∧
    (∀ i < 64, lineByte r.data i = (if i < r.count then lineByte data i else 0) ∧
      (byteMask r.offset r.count).getLsbD i = decide (r.offset ≤ i ∧ i < r.offset + r.count) ∧
      (∀ l : Line, lineByte (takeBytes r.offset r.count l) i = if i < r.count then lineByte l (r.offset + i) else 0) ∧
      (r.offset ≤ i → lineByte (r.data >>> (8 * r.offset)) i = lineByte r.data (i - r.offset))) ∧
    (∀ i : Fin 8, within i → (∀ j : Fin 8, j < i → ¬ within j) → c.region.val = i.val) ∧
    ((∀ i : Fin 8, ¬ within i) → c.region.val = 8) ∧
    (c.guarded = true ↔ ¬ area ∧ (a.guardMode = .all ∨ (a.guardMode = .hashed ∧
      s.classifier.guardFilter.getLsbD ((page % 64) ^^^ (page / 64 % 64) ^^^ (page / 4096)) = true))) ∧
    (area → c.readMode = .single) ∧ (¬ area → c.readMode = a.readMode) ∧ c.verify = a.verify ∧ c.reservation = .none ∧
    (s.journal.inArea r.line = true ↔ area) ∧ s.writeModeAt r.line = a.writeMode ∧ s.isGuarded r.line = c.guarded ∧
    s.regionAt r.line = c.region

/-- R25, R26, R27, R32: the WRITE presentations that are not accepted. In STARTING and ROLLING the answer is RETRY, in HOLD
ABORT with REFUSED. In OPEN, where no entry matches: ABORT with REFUSED for a line the classification refuses and under WLOCK
or the software inhibit; RETRY in WARN and FAIL; and for a guarded line RETRY in CLOSING, ABORT with JOURNAL_FAIL in the other
states but ACTIVE, and ABORT with JOURNAL_FULL in ACTIVE where no reservation can be made. Nothing else changes. -/
def Obligations.WritesThatAreNotAccepted : Prop :=
  ∀ (i : BitVec 2) (addr : BitVec 26) (ucount : BitVec 6) (data : Line) (s : State),
    let r := requestAt .write i addr ucount data
    let refused := fun code => exec (.write i addr ucount data) s =
      .next ((s.report (s.regionAt r.line) code).answering i .write .abort 0)
    let retried := exec (.write i addr ucount data) s = .next (s.answering i .write .retry 0)
    (s.startup.portState = .starting ∨ s.startup.portState = .rolling → retried) ∧
    (s.startup.portState = .hold → refused .refused) ∧
    (s.startup.portState = .opened → s.matchesNone r → ¬ s.writable r.line → refused .refused) ∧
    (s.startup.portState = .opened → s.matchesNone r → s.writable r.line → s.supply.wlock = true ∨ s.supply.software = true →
      refused .refused) ∧
    (s.startup.portState = .opened → s.matchesNone r → s.writable r.line → s.supply.wlock = false →
      s.supply.software = false → s.supply.state ≠ .normal → retried) ∧
    (s.unhindered r → s.isGuarded r.line = true → s.journal.state = .closing → retried) ∧
    (s.unhindered r → s.isGuarded r.line = true → s.journal.state ≠ .closing → s.journal.state ≠ .active →
      refused .journalFail) ∧
    (s.unhindered r → s.isGuarded r.line = true → s.journal.state = .active → (∀ k, ¬ s.reserves r.line k) →
      refused .journalFull)

/-- R26 step 7, R29, R36, R37, R65, R86, R88: a write in a POSTED region that reaches step 7 is answered DONE or SHORT(n)
while the queue holds fewer than 16 entries: the entry joins the queue's tail with the classification captured, and a LISTED
reservation enters the epoch line set as RESERVED. While the port carries an operation and a drain is in progress, all that
happens besides is that the freshness actions follow; W + R rises by 1 with a LISTED or OWN reservation, and not above the
capacity (R87). Otherwise a drain or an operation may begin at the same event (R39, R44). With 16 entries the answer is RETRY
and NO_ROOM is counted. The numbers that stand for positions in acceptance order are the model's own (assumption log 10). -/
def Obligations.PostedWritesAreAccepted : Prop :=
  ∀ (i : BitVec 2) (addr : BitVec 26) (ucount : BitVec 6) (data : Line) (s : State) (k : ReservationKind),
    let r := requestAt .write i addr ucount data
    s.admits r k → s.writeModeAt r.line = .posted →
    (s.queue.length < 16 → ∃ t : State, exec (.write i addr ucount data) s = .next t ∧
      t.lines = ⟨some ⟨i, .write, handledAnswer addr ucount, 0⟩⟩ ∧
      (∃ q, t.queue = q ++ [.write (s.carried r k)]) ∧ t.dropsFrom (s.queue ++ [.write (s.carried r k)]) ∧
      t.journal = { s.journal with
        lineSet := if k = .listed then s.journal.lineSet ++ [(r.line, .reserved)] else s.journal.lineSet } ∧
      (s.busyPort → ∃ (g : Engine) (n : Nat), s.freshened r.line g n ∧ s.nextPos < n ∧ s.covers t k ∧
        t = { s with
          lines := t.lines, queue := s.queue ++ [.write (s.carried r k)], engine := g, nextPos := n
          journal := { s.journal with
            lineSet := if k = .listed then s.journal.lineSet ++ [(r.line, .reserved)] else s.journal.lineSet } })) ∧
    (16 ≤ s.queue.length →
      exec (.write i addr ucount data) s = .next ((s.count .noRoom).answering i .write .retry 0))

/-- R26 step 7, R28, R29, R55, R60, R65, R86, R88: a write in a DURABLE region that reaches step 7 gets an entry in state
WAITING, or ISSUED where its drain begins at the same event, and the answer RETRY, where the table has a free place and no
entry has its initiator, kind, address and count; a LISTED reservation enters the epoch line set. While the port carries an
operation and a drain is in progress, nothing else happens but the reservation, with W + R as R87 says, and the freshness
actions. With no room the answer is RETRY and NO_ROOM is counted. That the lowest free place is taken is the model's choice
(assumption log 9). -/
def Obligations.DurableWritesAreGivenAnEntry : Prop :=
  ∀ (i : BitVec 2) (addr : BitVec 26) (ucount : BitVec 6) (data : Line) (s : State) (k : ReservationKind),
    let r := requestAt .write i addr ucount data
    let conflict := ∃ (p : Fin 4) (e : DelayedEntry), s.engine.table[p] = some e ∧ e.kind = .write ∧ e.initiator = i ∧
      e.body.line = r.line ∧ e.body.offset = r.offset ∧ e.body.count = r.count
    s.admits r k → s.writeModeAt r.line = .durable →
    (∀ p : Fin 4, ¬ conflict → s.engine.table[p] = none → (∀ q : Fin 4, q < p → s.engine.table[q].isSome = true) →
      let e : DelayedEntry := ⟨.write, i, s.carried r k, .waiting, none, none⟩
      ∃ t : State, exec (.write i addr ucount data) s = .next t ∧ t.lines = ⟨some ⟨i, .write, .retry, 0⟩⟩ ∧
        (t.engine.table[p] = some e ∨ (t.engine.table[p] = some { e with state := .issued } ∧
          ∃ d, t.drain = some d ∧ d.item = .delayedWrite p)) ∧
        t.dropsFrom s.queue ∧
        t.journal = { s.journal with
          lineSet := if k = .listed then s.journal.lineSet ++ [(r.line, .reserved)] else s.journal.lineSet } ∧
        (s.busyPort → ∃ (g : Engine) (n : Nat), s.freshened r.line g n ∧ s.nextPos < n ∧ s.covers t k ∧
          t = { s with
            lines := t.lines, nextPos := n
            engine := { g with table := g.table.set p (some e) }
            journal := { s.journal with
              lineSet := if k = .listed then s.journal.lineSet ++ [(r.line, .reserved)] else s.journal.lineSet } })) ∧
    (conflict ∨ (∀ p : Fin 4, s.engine.table[p].isSome = true) →
      exec (.write i addr ucount data) s = .next ((s.count .noRoom).answering i .write .retry 0))

/-- R25, R30, R55, R62, R70: a READ presentation that no entry matches. RETRY in STARTING and ROLLING; ABORT with REFUSED in a
NO_ACCESS region and for a guarded line in HOLD; RETRY in FAIL; a line in a VALID slot is answered DONE or SHORT(n) with its
bytes and CLEAN; otherwise an entry is created, WAITING or, where its demand fill is granted at the same event, ISSUED with its
slot FILLING, and the answer is RETRY, or with no free place RETRY with NO_ROOM counted. While the port carries an operation
and a drain is in progress the entry is WAITING, and nothing else happens. That the lowest free place is taken is the model's
choice (assumption log 9), and so is the slot that serves where two hold one line with different bytes (assumption log 23). -/
def Obligations.ReadsAreAnsweredOrDelayed : Prop :=
  ∀ (i : BitVec 2) (addr : BitVec 26) (ucount : BitVec 6) (s : State),
    let r := requestAt .read i addr ucount 0
    let passes := (s.startup.portState = .opened ∨ s.startup.portState = .hold) ∧ s.matchesNone r
    let forbidden := s.writeModeAt r.line = .noAccess ∨ (s.startup.portState = .hold ∧ s.isGuarded r.line = true)
    let buffered := ∃ (j : Fin 8) (d : Line) (o : Option (Fin 4)) (g : Nat), s.engine.slots[j] = .valid r.line d o g
    (s.startup.portState = .starting ∨ s.startup.portState = .rolling →
      exec (.read i addr ucount) s = .next (s.answering i .read .retry 0)) ∧
    (passes → forbidden → exec (.read i addr ucount) s =
      .next ((s.report (s.regionAt r.line) .refused).answering i .read .abort 0)) ∧
    (passes → ¬ forbidden → s.supply.state = .fail →
      exec (.read i addr ucount) s = .next (s.answering i .read .retry 0)) ∧
    (∀ d, s.admitsRead r → buffered → (∀ (j : Fin 8) d' o g, s.engine.slots[j] = .valid r.line d' o g → d' = d) →
      exec (.read i addr ucount) s = .next ((s.report (s.regionAt r.line) .clean).answering i .read
        (handledAnswer addr ucount) (takeBytes r.offset r.count d))) ∧
    (∀ p : Fin 4, s.admitsRead r → ¬ buffered → s.engine.table[p] = none →
      (∀ q : Fin 4, q < p → s.engine.table[q].isSome = true) →
      let e : DelayedEntry := ⟨.read, i, s.carried r .none, .waiting, none, none⟩
      ∃ t : State, exec (.read i addr ucount) s = .next t ∧ t.lines = ⟨some ⟨i, .read, .retry, 0⟩⟩ ∧
        (t.engine.table[p] = some e ∨ ∃ j : Fin 8, t.engine.table[p] = some { e with state := .issued, slot := some j } ∧
          t.engine.slots[j] = .filling r.line false (some p) ∧
          t.justIssued .lineRead r.line .demandFill (some (.read, (s.regionAt r.line).castSucc))) ∧
        t.dropsFrom s.queue ∧ t.journal = s.journal ∧
        (s.busyPort → t = { s with
          lines := t.lines, nextPos := s.nextPos + 1
          engine := { s.engine with table := s.engine.table.set p (some e) } })) ∧
    (s.admitsRead r → ¬ buffered → (∀ p : Fin 4, s.engine.table[p].isSome = true) →
      exec (.read i addr ucount) s = .next ((s.count .noRoom).answering i .read .retry 0))

/-- R31, R64: a presentation that matches an entry. RETRY and no change while the entry is WAITING or ISSUED. A COMPLETE entry
is removed: with result OK the answer is DONE or SHORT(n), for a read with its bytes of its slot, which stays VALID; with
result FAIL the answer is ABORT and no code is reported. The slot becomes unowned where no WAITING read entry of its line is
ready, and nothing else changes; otherwise the one with the oldest position among the ready ones adopts it, becomes COMPLETE
with result OK with its claim timer running, and CLEAN is reported for its region. -/
def Obligations.CompleteEntriesAreClaimed : Prop :=
  ∀ (c : Instr) (r : Request) (i : BitVec 2) (addr : BitVec 26) (ucount : BitVec 6) (data : Line) (s : State) (p : Fin 4)
    (e : DelayedEntry),
    (c = .write i addr ucount data ∧ r = requestAt .write i addr ucount data) ∨
      (c = .read i addr ucount ∧ r = requestAt .read i addr ucount 0) →
    s.startup.portState = .opened ∨ (r.kind = .read ∧ s.startup.portState = .hold) → s.tableLaw →
    s.engine.table[p] = some e → r.sameAs e →
    (e.state = .waiting ∨ e.state = .issued → exec c s = .next (s.answering i r.kind .retry 0)) ∧
    (e.state = .complete .fail → e.slot = none → exec c s =
      .next (({ s with engine := { s.engine with table := s.engine.table.set p none } } : State).answering i r.kind .abort 0)) ∧
    (r.kind = .write → e.state = .complete .ok → e.slot = none → exec c s =
      .next (({ s with engine := { s.engine with table := s.engine.table.set p none } } : State).answering i r.kind
        (handledAnswer addr ucount) 0)) ∧
    ∀ (j : Fin 8) (line : Nat) (d : Line) (g : Nat), r.kind = .read → e.state = .complete .ok → e.slot = some j →
      s.engine.slots[j] = .valid line d (some p) g →
      ∃ t : State, exec c s = .next t ∧
        t.lines = ⟨some ⟨i, .read, handledAnswer addr ucount, takeBytes r.offset r.count d⟩⟩ ∧
        t.engine.table[p] = none ∧
        ((∀ q f, ¬ s.readyRead line q f) → t = { s with
          lines := t.lines
          engine := { s.engine with
            table := s.engine.table.set p none, slots := s.engine.slots.set j (.valid line d none g) } }) ∧
        ∀ (q : Fin 4) (f : DelayedEntry), s.adopter line q f → t = { s with
            lines := t.lines
            engine := { s.engine with
              table := (s.engine.table.set p none).set q (some { f with
                state := .complete .ok, slot := some j, timer := some (s.engine.claimTimeout.toNat * 16) })
              slots := s.engine.slots.set j (.valid line d (some q) g) }
            faults := (s.report f.body.cls.region .clean).faults }

/-- R56, R64, R74: the claim timer of a COMPLETE entry runs out: CLAIM_LOST is reported for its region and counted, and the
entry is removed; the slot of a read stays VALID. It becomes unowned where no WAITING read entry of its line is ready, and
nothing else changes; otherwise the one with the oldest position among the ready ones adopts it, becomes COMPLETE with result
OK with its claim timer running, and CLEAN is reported for its region. Where no timer runs the command does nothing
(assumption log 2). -/
def Obligations.ClaimTimersExpire : Prop :=
  ∀ (p : Fin 4) (s : State),
    (∀ e, s.engine.table[p] = some e → e.timer.isSome = true →
      ∃ t : State, exec (.claimTimerExpiry p) s = .next t ∧ t.engine.table[p] = none ∧
        t.faults.counters = ((s.report e.body.cls.region .claimLost).count .claimLost).faults.counters ∧
        t.faults.codes[e.body.cls.region].byte ≤ 4 ∧ t.queue = s.queue ∧ t.port = s.port ∧ t.journal = s.journal ∧
        t.lines = s.lines ∧ t.memory = s.memory ∧ t.engine.prefetch = s.engine.prefetch ∧
        (e.slot = none → t = { s with
          engine := { s.engine with table := s.engine.table.set p none }
          faults := ((s.report e.body.cls.region .claimLost).count .claimLost).faults }) ∧
        (∀ (j : Fin 8) (line : Nat) (d : Line) (o : Option (Fin 4)) (g : Nat), e.slot = some j →
          s.engine.slots[j] = .valid line d o g → ∃ o', t.engine.slots[j] = .valid line d o' g ∧ o' ≠ some p) ∧
        ∀ (j : Fin 8) (line : Nat) (d : Line) (g : Nat), e.kind = .read → e.state = .complete .ok → e.slot = some j →
          s.engine.slots[j] = .valid line d (some p) g →
          let lost := (s.report e.body.cls.region .claimLost).count .claimLost
          ((∀ q f, ¬ s.readyRead line q f) → t = { s with
            engine := { s.engine with
              table := s.engine.table.set p none, slots := s.engine.slots.set j (.valid line d none g) }
            faults := lost.faults }) ∧
          ∀ (q : Fin 4) (f : DelayedEntry), s.adopter line q f → t = { s with
              engine := { s.engine with
                table := (s.engine.table.set p none).set q (some { f with
                  state := .complete .ok, slot := some j, timer := some (s.engine.claimTimeout.toNat * 16) })
                slots := s.engine.slots.set j (.valid line d (some q) g) }
              faults := (lost.report f.body.cls.region .clean).faults }) ∧
    (s.engine.table[p] = none ∨ (∃ e, s.engine.table[p] = some e ∧ e.timer = none) →
      exec (.claimTimerExpiry p) s = .next s)

/-! ### The memory port -/

/-- R43, R46, R110, R115, R116: what the devices' answers say of memory. A LINE WRITE answered OK gives its enabled bytes the
data sent; a LINE WRITE with ERROR or no answer, and one that fails at the attempt limit, leaves its line undefined. No other
byte changes, and a LINE READ changes none. That an undefined byte reads as no value is the model's form (assumption log 3),
and that a write which fails on BUSY answers alone leaves its line undefined the model's choice (assumption log 22). -/
def Obligations.MemoryFollowsTheAnswers : Prop :=
  ∀ (s : State) (op : Operation) (bytes : Line), s.port.op = some op →
    ∃ ok busy error timeout : State,
      exec (.memoryAnswer (.ok bytes) false) s = .next ok ∧ exec (.memoryAnswer .busy false) s = .next busy ∧
      exec (.memoryAnswer .error false) s = .next error ∧ exec .attemptTimeout s = .next timeout ∧
      ∀ a : Nat, a < 67108864 →
        (a / 64 ≠ op.line ∨ op.kind = .lineRead ∨ op.phase = .backoff ∨ op.phase = .held →
          ∀ t, t = ok ∨ t = busy ∨ t = error ∨ t = timeout → Memory.read t.memory a = Memory.read s.memory a) ∧
        (a / 64 = op.line → op.kind = .lineWrite → op.phase = .awaiting →
          Memory.read ok.memory a = (if op.mask.getLsbD (a % 64) then some (lineByte op.data (a % 64))
            else Memory.read s.memory a) ∧
          Memory.read error.memory a = none ∧ Memory.read timeout.memory a = none ∧
          Memory.read busy.memory a = if op.attempts < op.limit then Memory.read s.memory a else none) ∧
        (a / 64 = op.line → op.kind = .lineWrite → op.phase = .verifying →
          Memory.read ok.memory a = (if agreeOn op.mask op.data bytes = true ∨ op.attempts < op.limit then
            Memory.read s.memory a else none) ∧
          ∀ t, t = busy ∨ t = error ∨ t = timeout → Memory.read t.memory a =
            if op.attempts < op.limit then Memory.read s.memory a else none)

/-- R110, R113, R115, R116, R120: below the attempt limit BUSY, ERROR and a timeout put the operation into BACKOFF, to issue
its attempt or its verify read again, and a verify that differs to write again; a LINE WRITE to be verified goes on to its
verify read, or waits in HELD while the supply is FAIL. Memory changes by the answer: after ERROR or a timeout the line of a
LINE WRITE is undefined, after OK its enabled bytes hold the data sent, and otherwise nothing changes. An answer that comes
late, or with no attempt outstanding, is discarded. -/
def Obligations.AttemptsAreAnswered : Prop :=
  ∀ (s : State) (op : Operation) (bytes : Line), s.port.op = some op →
    let goesTo := fun (c : Instr) (phase : Phase) (next : NextIssue) (m : List Host.Cell) => exec c s = .next { s with
      port := { s.port with op := some { op with phase := phase, next := next } }, memory := m }
    (op.attempts < op.limit → op.phase = .awaiting →
      goesTo (.memoryAnswer .busy false) .backoff .attemptAgain s.memory ∧
      ∀ c, c = .memoryAnswer .error false ∨ c = .attemptTimeout → goesTo c .backoff .attemptAgain
        (if op.kind = .lineWrite then Memory.forgetLine op.line s.memory else s.memory)) ∧
    (op.attempts < op.limit → op.phase = .verifying →
      (∀ c, c = .memoryAnswer .busy false ∨ c = .memoryAnswer .error false ∨ c = .attemptTimeout →
        goesTo c .backoff .verifyAgain s.memory) ∧
      (agreeOn op.mask op.data bytes = false →
        goesTo (.memoryAnswer (.ok bytes) false) .backoff .writeAfterMismatch s.memory)) ∧
    (op.phase = .awaiting → op.kind = .lineWrite → op.verify = true →
      goesTo (.memoryAnswer (.ok bytes) false) (if s.supply.state = .fail then .held else .verifying) .firstVerify
        (Memory.writeLine op.line op.mask op.data s.memory)) ∧
    (∀ a, exec (.memoryAnswer a true) s = .next s) ∧
    (op.phase = .backoff ∨ op.phase = .held →
      (∀ a, exec (.memoryAnswer a false) s = .next s) ∧ exec .attemptTimeout s = .next s)

/-- R113, R115, R116, R120: at the end of the back-off what the operation waits for is issued, the attempt count rises by 1,
and MEM_RETRY is counted, or after a verify that differed VERIFY_MISMATCH; while the supply is FAIL the operation waits in HELD
instead and nothing is counted. Outside BACKOFF the command does nothing (assumption log 2). -/
def Obligations.TheBackoffEnds : Prop :=
  ∀ (s : State) (op : Operation), s.port.op = some op →
    let reissued := fun (phase : Phase) (k : CounterKind) => exec .backoffEnd s = .next
      (({ s with port := { s.port with op := some { op with phase := phase, attempts := op.attempts + 1 } } } :
        State).count k)
    (op.phase = .backoff → s.supply.state ≠ .fail →
      (op.next = .attemptAgain → reissued .awaiting .memRetry) ∧
      (op.next = .writeAfterMismatch → reissued .awaiting .verifyMismatch) ∧
      (op.next = .verifyAgain → reissued .verifying .memRetry)) ∧
    (op.phase = .backoff → s.supply.state = .fail →
      exec .backoffEnd s = .next { s with port := { s.port with op := some { op with phase := .held } } }) ∧
    (op.phase ≠ .backoff → exec .backoffEnd s = .next s)

/-- R112, R122: an operation that fails lists its line once, with its kind and region, behind the older entries, raising
FAILED_LINE, or sets the overflow flag where 8 entries stand; one that was granted with no failure kind, a prefetch, lists
none. -/
def Obligations.FailuresListTheirLine : Prop :=
  ∀ (c : Instr) (s : State) (op : Operation), s.port.op = some op → op.failsBy c →
    ∃ t : State, exec c s = .next t ∧
      (op.failure = none ∨ (∃ f ∈ s.port.failed, f.line = op.line) →
        t.port.failed = s.port.failed ∧ t.port.overflow = s.port.overflow) ∧
      ∀ k, op.failure = some k → (∀ f ∈ s.port.failed, f.line ≠ op.line) →
        (s.port.failed.length < 8 →
          t.port.failed = s.port.failed ++ [⟨op.line, k, op.region⟩] ∧ t.port.overflow = s.port.overflow ∧
            t.recorded .failedLine) ∧
        (8 ≤ s.port.failed.length → t.port.failed = s.port.failed ∧ t.port.overflow = true)

/-- R40, R41, R42, R44, R47, R61, R76, R87, R91, R92, R112: the head's operation ends in success. After the before-image read
comes the image write, and after it the record header write, whose success adds the record: W rises, the line is RECORDED,
JOURNAL_RECORDS is counted, and for a posted entry W + R stays where the record takes the line's or the entry's reservation (a
delayed entry's is taken likewise, which this does not state). The data write follows; its success ends the drain: a posted
entry leaves the queue, a delayed entry is COMPLETE with result OK and its claim timer starts, and CLEAN is reported where
every operation took one attempt, RECOVERED otherwise. With the journal FAILED no guarded drain begins, and where a drain may
begin (the supply not FAIL, no INIT JOURNAL, at most 16 entries queued) the run of guarded entries that are then at the head
is dropped, each with JOURNAL_FAIL or worse in its region: a posted one leaves the queue, a delayed one is COMPLETE with
result FAIL. Of a delayed write that RESET UPSTREAM removed, a record is still added; its drain ends with that operation, no
data write follows and no code is reported. The operation then issued for the head, if any, is the one its drain has reached,
with the verify flag, limit, failure kind and region of R112. -/
def Obligations.TheHeadsOperationSucceeds : Prop :=
  ∀ (c : Instr) (s : State) (op : Operation) (data : Line) (d : Drain) (b : Body), s.port.op = some op →
    op.owner = .head → op.succeedsBy data c → s.drain = some d → s.itemBody d.item = some b →
    let once := d.firstTry && op.attempts == 1
    let kept := ∀ x, d.item ≠ .removed x
    let recorded := { s.journal with
      written := s.journal.written + 1
      lineSet := s.journal.lineSet.map fun e => if e.1 = b.line then (e.1, Mark.recorded) else e }
    let left := (s.report b.cls.region (if once then .clean else .recovered)).faults
    ∃ t : State, exec c s = .next t ∧
      (kept → d.stage = .beforeImage → t.drain = some ⟨d.item, .imageWrite, data, once⟩ ∧ t.journal = s.journal) ∧
      (kept → d.stage = .imageWrite → t.drain = some ⟨d.item, .recordHeader, d.image, once⟩ ∧ t.journal = s.journal) ∧
      (d.stage = .recordHeader → t.journal = recorded ∧
        t.faults.counters = (s.count .journalRecords).faults.counters ∧
        (kept → t.drain = some ⟨d.item, .dataWrite, d.image, once⟩)) ∧
      (d.item = .postedWrite → d.stage = .recordHeader → s.lineSetLaw →
        ((b.line, Mark.reserved) ∈ s.journal.lineSet ∧ b.holdsOwn = false) ∨
          (b.line ∉ s.journal.lineSet.map (·.1) ∧ b.holdsOwn = true) →
        t.journal.written + t.reservations = s.journal.written + s.reservations) ∧
      ((kept → d.stage = .dataWrite) → t.drainsAnew ∧ (s.queue.length ≤ 16 → t.writesGoOn) ∧
        (d.item = .postedWrite → t.dropsFrom s.queue.tail) ∧ (d.item ≠ .postedWrite → t.dropsFrom s.queue) ∧
        ∀ p e, d.item ≠ .delayedWrite p → s.engine.table[p] = some e → e.kind = .write → t.writeGoesOn p e) ∧
      (kept → d.stage = .dataWrite → t.journal = s.journal ∧ t.faults.counters = s.faults.counters ∧
        (s.journal.state ≠ .failed → t.faults = left ∧ (d.item = .postedWrite → t.queue = s.queue.tail)) ∧
        (∀ i : Fin 9, t.faults.codes[i] = left.codes[i] ∨ t.faults.codes[i] = .journalFail) ∧
        ∀ p e, d.item = .delayedWrite p → s.engine.table[p] = some e → t.engine.table[p] = some { e with
          state := .complete .ok, slot := none, timer := some (s.engine.claimTimeout.toNat * 16) }) ∧
      (¬ kept → (d.stage ≠ .recordHeader → t.journal = s.journal) ∧
        (s.journal.state ≠ .failed → t.queue = s.queue ∧ t.faults.codes = s.faults.codes) ∧
        ∀ i : Fin 9, t.faults.codes[i] = s.faults.codes[i] ∨ t.faults.codes[i] = .journalFail) ∧
      ∀ o, t.port.op = some o → o.owner = .head → t.carriesDrain o

/-- R43, R44, R45, R46, R61, R76, R94, R112: the head's operation ends in failure, and with it the drain. A data write or a
before-image read that fails reports MEMORY_FAIL; an image or record header write that fails makes the journal FAILED and
reports JOURNAL_FAIL; no record is added. A posted entry leaves the queue, a delayed entry is COMPLETE with result FAIL. With
the journal FAILED no guarded drain begins, and where a drain may begin (the supply not FAIL, no INIT JOURNAL, at most 16
entries queued) the run of guarded entries that are then at the head is dropped, each with JOURNAL_FAIL or worse in its
region: a posted one leaves the queue, a delayed one is COMPLETE with result FAIL. Of a delayed write that RESET UPSTREAM
removed no code is reported. The operation then issued for the head, if any, is the one its drain has reached, with the verify
flag, limit, failure kind and region of R112. -/
def Obligations.TheHeadsOperationFails : Prop :=
  ∀ (c : Instr) (s : State) (op : Operation) (d : Drain) (b : Body), s.port.op = some op → op.owner = .head →
    op.failsBy c → s.drain = some d → s.itemBody d.item = some b → d.stage ≠ .closeHeader →
    let written := d.stage = .imageWrite ∨ d.stage = .recordHeader
    let kept := ∀ x, d.item ≠ .removed x
    ∃ t : State, exec c s = .next t ∧ t.drainsAnew ∧ (s.queue.length ≤ 16 → t.writesGoOn) ∧
      (∀ p e, d.item ≠ .delayedWrite p → s.engine.table[p] = some e → e.kind = .write → t.writeGoesOn p e) ∧
      t.journal = { s.journal with state := if written then .failed else s.journal.state } ∧
      (written → s.journal.state ≠ .failed → t.recorded .journal) ∧
      t.faults.counters = s.faults.counters ∧
      (kept →
        t.faults.codes[b.cls.region] = (if written ∧ s.faults.codes[b.cls.region] ≠ .memoryFail then .journalFail
          else .memoryFail)) ∧
      (∀ i : Fin 9, kept → i ≠ b.cls.region →
        t.faults.codes[i] = s.faults.codes[i] ∨ (t.journal.state = .failed ∧ t.faults.codes[i] = .journalFail)) ∧
      (¬ kept → ∀ i : Fin 9,
        t.faults.codes[i] = s.faults.codes[i] ∨ (t.journal.state = .failed ∧ t.faults.codes[i] = .journalFail)) ∧
      (¬ kept → s.queue = [] →
        (∀ (p : Fin 4) (e : DelayedEntry), s.engine.table[p] = some e → e.isPendingWrite = false) →
        t.faults.codes = s.faults.codes ∧ t.drain = none) ∧
      (d.item = .postedWrite → t.dropsFrom s.queue.tail) ∧ (d.item ≠ .postedWrite → t.dropsFrom s.queue) ∧
      (t.journal.state ≠ .failed → t.queue = if d.item = .postedWrite then s.queue.tail else s.queue) ∧
      (∀ p e, d.item = .delayedWrite p → s.engine.table[p] = some e →
        t.engine.table[p] = some { e with
          state := .complete .fail, slot := none, timer := some (s.engine.claimTimeout.toNat * 16) }) ∧
      ∀ o, t.port.op = some o → o.owner = .head → t.carriesDrain o

/-- R63, R64, R66, R72, R76: a demand fill or a prefetch ends. In success a demand fill's slot is VALID with the bytes read
and the newest age, its entry is COMPLETE with result OK and its claim timer starts, and CLEAN is reported after one attempt,
RECOVERED after more; in failure its entry is COMPLETE with result FAIL and MEMORY_FAIL is reported. A fill marked stale
leaves its entry to be read again. A prefetch's slot is VALID in success, with the bytes read and the newest age: the ready
WAITING read of the line with the oldest position adopts it, becomes COMPLETE with result OK and reports CLEAN; with no ready
WAITING read of the line it stays unowned, while another slot is free or VALID, unowned and older for the grant that follows.
A prefetch that was marked stale, or that fails, leaves its slot free for the next fill and completes no entry; a failure
counts MEM_RETRY once. Where RESET UPSTREAM has freed the slot, so that none is FILLING, the result reaches no entry and no
slot and reports no code: a slot changes by the next fill alone, a read entry by its own demand fill, and a write entry as the
write order goes on. -/
def Obligations.DemandFillsEnd : Prop :=
  (∀ (c : Instr) (s : State) (op : Operation) (data : Line) (j : Fin 8) (p : Fin 4) (e : DelayedEntry) (line : Nat)
    (stale : Bool), s.port.op = some op → op.owner = .demandFill → s.engine.slots[j] = .filling line stale (some p) →
    (∀ i : Fin 8, i < j → ∀ l st o, s.engine.slots[i] ≠ .filling l st o) → s.engine.table[p] = some e →
    e.kind = .read →
    let completes := fun (t : State) (r : EntryResult) (slot : Option (Fin 8)) => t.engine.table[p] = some { e with
      state := .complete r, slot := slot, timer := some (s.engine.claimTimeout.toNat * 16) }
    (op.succeedsBy data c → ∃ t : State, exec c s = .next t ∧
      (stale = false → completes t .ok (some j) ∧ t.engine.slots[j] = .valid line data (some p) s.engine.nextAge ∧
        (s.journal.state ≠ .failed →
          t.faults = (s.report e.body.cls.region (if op.attempts = 1 then .clean else .recovered)).faults)) ∧
      (stale = true → ∃ f, t.engine.table[p] = some f ∧ f.body = e.body ∧ (f.state = .waiting ∨ f.state = .issued))) ∧
    (op.failsBy c → ∃ t : State, exec c s = .next t ∧
      (stale = false → completes t .fail none ∧ t.faults.codes[e.body.cls.region] = .memoryFail) ∧
      (stale = true → ∃ f, t.engine.table[p] = some f ∧ f.body = e.body ∧ (f.state = .waiting ∨ f.state = .issued)))) ∧
  (∀ (c : Instr) (s : State) (op : Operation) (data : Line) (j : Fin 8) (line : Nat) (stale : Bool), s.port.op = some op →
    op.owner = .prefetch → s.engine.slots[j] = .filling line stale none →
    (∀ i : Fin 8, i < j → ∀ l st o, s.engine.slots[i] ≠ .filling l st o) →
    let waits := fun (q : Fin 4) (f : DelayedEntry) => s.engine.table[q] = some f ∧ f.kind = .read ∧ f.state = .waiting
    let roomBeside := ∃ i : Fin 8, s.engine.slots[i] = .free ∨
      ∃ l d a, s.engine.slots[i] = .valid l d none a ∧ a < s.engine.nextAge
    let discards := fun t : State =>
      (t.engine.slots[j] = .free ∨ ∃ l o, t.engine.slots[j] = .filling l false o ∧ t.fillIssued l o) ∧
        ∀ q f, waits q f → ∃ f', t.engine.table[q] = some f' ∧ f'.body = f.body ∧ (f'.state = .waiting ∨ f'.state = .issued)
    (op.succeedsBy data c → ∃ t : State, exec c s = .next t ∧
      (stale = false → (∀ q f, ¬ s.readyRead line q f) → roomBeside →
        t.engine.slots[j] = .valid line data none s.engine.nextAge ∧ (s.journal.state ≠ .failed → t.faults = s.faults)) ∧
      (stale = false → ∀ q f, s.adopter line q f →
        t.engine.slots[j] = .valid line data (some q) s.engine.nextAge ∧
        t.engine.table[q] = some { f with
          state := .complete .ok, slot := some j, timer := some (s.engine.claimTimeout.toNat * 16) } ∧
        (s.journal.state ≠ .failed → t.faults = (s.report f.body.cls.region .clean).faults)) ∧
      (stale = true → discards t ∧ (s.journal.state ≠ .failed → t.faults = s.faults))) ∧
    (op.failsBy c → ∃ t : State, exec c s = .next t ∧ discards t ∧
      t.faults.counters = (s.count .memRetry).faults.counters ∧
      (op.failure = none → s.journal.state ≠ .failed → t.faults = (s.count .memRetry).faults))) ∧
  ∀ (c : Instr) (s : State) (op : Operation) (data : Line), s.port.op = some op →
    op.owner = .demandFill ∨ op.owner = .prefetch → (∀ (i : Fin 8) l st o, s.engine.slots[i] ≠ .filling l st o) →
    let reachesNothing := fun t : State =>
      (∀ i : Fin 8, t.engine.slots[i] = s.engine.slots[i] ∨
        ∃ l o, t.engine.slots[i] = .filling l false o ∧ t.fillIssued l o) ∧
      (∀ p e, s.engine.table[p] = some e → e.kind = .read → t.engine.table[p] = some e ∨
        (e.state = .waiting ∧ ∃ i : Fin 8, t.engine.table[p] = some { e with state := .issued, slot := some i } ∧
          t.engine.slots[i] = .filling e.body.line false (some p))) ∧
      (∀ p e, s.engine.table[p] = some e → e.kind = .write → t.writeGoesOn p e) ∧ t.dropsFrom s.queue ∧
      t.journal = s.journal ∧ t.engine.nextAge = s.engine.nextAge ∧
      ∀ i : Fin 9, t.faults.codes[i] = s.faults.codes[i] ∨ (s.journal.state = .failed ∧ t.faults.codes[i] = .journalFail)
    (op.succeedsBy data c → ∃ t : State, exec c s = .next t ∧ reachesNothing t ∧
      (s.journal.state ≠ .failed → t.faults = s.faults)) ∧
    (op.failsBy c → ∃ t : State, exec c s = .next t ∧ reachesNothing t ∧
      t.faults.counters = (if op.owner = .prefetch then s.count .memRetry else s).faults.counters ∧
      (op.failure = none → s.journal.state ≠ .failed →
        t.faults = (if op.owner = .prefetch then s.count .memRetry else s).faults))

/-- R39, R40, R41, R60, R62, R71, R112, R118: with nothing at the memory port the work of an accepted request starts at the
same event: an unguarded write, or a guarded one whose line is RECORDED, with its data write; another guarded one with its
before-image read; a durable one so becomes ISSUED; and a read starts with its demand fill, which queues for prefetch the
lines after its own, as many as the prefetch depth, up to the first in another region, in the journal area or in the next 1
KiB block. That the first place and the first slot are taken is the model's choice (assumption log 9). -/
def Obligations.AnIdlePartStartsAtOnce : Prop :=
  ∀ (i : BitVec 2) (addr : BitVec 26) (ucount : BitVec 6) (data : Line) (s : State), s.idlePort →
    (∀ k, let r := requestAt .write i addr ucount data
      let begins := fun (t : State) (item : DrainItem) =>
        (∃ stage, t.drain = some ⟨item, stage, 0, true⟩ ∧
          (stage = .dataWrite ↔ s.isGuarded r.line = false ∨ (r.line, Mark.recorded) ∈ s.journal.lineSet) ∧
          (stage = .beforeImage ↔ ¬ (s.isGuarded r.line = false ∨ (r.line, Mark.recorded) ∈ s.journal.lineSet))) ∧
        ∃ o, t.port.op = some o ∧ o.owner = .head ∧ o.attempts = 1 ∧ o.limit = s.port.attemptLimit.toNat ∧
          o.phase = .awaiting ∧ t.carriesDrain o
      s.admits r k →
      (s.writeModeAt r.line = .posted →
        ∃ t : State, exec (.write i addr ucount data) s = .next t ∧ t.queue = [.write (s.carried r k)] ∧
          begins t .postedWrite) ∧
      (s.writeModeAt r.line = .durable →
        ∃ t : State, exec (.write i addr ucount data) s = .next t ∧ t.queue = [] ∧
          t.engine.table[(0 : Fin 4)] = some ⟨.write, i, s.carried r k, .issued, none, none⟩ ∧
          begins t (.delayedWrite 0))) ∧
    let r := requestAt .read i addr ucount 0
    let queueable := fun l => s.regionAt l = s.regionAt r.line ∧ s.journal.inArea l = false ∧ l / 16 = r.line / 16
    s.admitsRead r → (∀ j : Fin 8, s.engine.slots[j] = .free) →
      ∃ t : State, exec (.read i addr ucount) s = .next t ∧
        t.justIssued .lineRead r.line .demandFill (some (.read, (s.regionAt r.line).castSucc)) ∧
        t.engine.table[(0 : Fin 4)] = some ⟨.read, i, s.carried r .none, .issued, some 0, none⟩ ∧
        t.engine.slots[(0 : Fin 8)] = .filling r.line false (some 0) ∧
        ((s.classify r.line).readMode = .single → t.engine.prefetch = []) ∧
        ((s.classify r.line).readMode = .prefetch → ∃ m ≤ s.engine.prefetchDepth.toNat,
          t.engine.prefetch = (List.range m).map (fun j => r.line + 1 + j) ∧ (∀ j < m, queueable (r.line + 1 + j)) ∧
          (m < s.engine.prefetchDepth.toNat → ¬ queueable (r.line + 1 + m)))

/-- R72, R112, R118, R122: a prefetch, the last grant of the read class, ends in failure with the scan and the rollback idle
and the supply not FAIL; its slot is freed. Where the head's drain stands at an operation, that is granted next; where no
write work stands and a WAITING read entry does, its demand fill is issued; with no entry, the prefetch of the first line of
the list, with its one attempt and no failure kind; and with an empty list nothing. And a before-image read, the last grant of
the write class, ends in success while a ready WAITING read entry stands: the head's next operation waits, and the demand fill
is granted. -/
def Obligations.TheClassesAlternate : Prop :=
  (∀ (c : Instr) (s : State) (op : Operation) (i : Fin 8) (line : Nat) (stale : Bool), s.port.op = some op →
    op.owner = .prefetch → op.failsBy c → s.engine.slots[i] = .filling line stale none →
    (∀ j : Fin 8, j < i → ∀ l st o, s.engine.slots[j] ≠ .filling l st o) → s.startup.procedure = .idle →
    s.supply.state ≠ .fail → s.port.lastClass = .read → s.mgmt.longCmd = none →
    ∃ t : State, exec c s = .next t ∧
      (∀ d, s.drain = some d → (s.itemBody d.item).isSome = true ∨ d.stage = .closeHeader →
        t.port.lastClass = .write ∧ t.engine.slots = s.engine.slots.set i .free ∧
        ∃ o, t.port.op = some o ∧ o.owner = .head ∧ o.attempts = 1 ∧ t.carriesDrain o) ∧
      (s.drain = none → s.queue = [] → ∀ (p : Fin 4) (e : DelayedEntry), s.engine.table[p] = some e → e.kind = .read →
        e.state = .waiting → (∀ q, q ≠ p → s.engine.table[q] = none) →
        t.justIssued .lineRead e.body.line .demandFill (some (.read, e.body.cls.region.castSucc)) ∧
        t.port.lastClass = .read) ∧
      (s.drain = none → s.queue = [] → s.engine.table = Vector.replicate 4 none →
        (∀ l rest, s.engine.prefetch = l :: rest → s.engine.inSlot l = false →
          t.justIssued .lineRead l .prefetch none ∧ t.engine.prefetch = rest ∧
            ∀ o, t.port.op = some o → o.limit = 1 ∧ o.failure = none) ∧
        (s.engine.prefetch = [] → t.port.op = none))) ∧
  ∀ (c : Instr) (s : State) (op : Operation) (data : Line) (d : Drain) (b : Body) (p : Fin 4) (e : DelayedEntry),
    s.port.op = some op → op.owner = .head → op.succeedsBy data c → s.drain = some d → s.itemBody d.item = some b →
    (∀ x, d.item ≠ .removed x) → d.stage = .beforeImage → s.startup.procedure = .idle → s.supply.state ≠ .fail →
    s.port.lastClass = .write → s.mgmt.longCmd ≠ some .initJournal → s.engine.table[p] = some e → e.kind = .read →
    e.state = .waiting → s.noWriteBefore e.body →
    (∀ q f, q ≠ p → s.engine.table[q] = some f → f.kind = .read → f.state ≠ .waiting) →
    (∃ j : Fin 8, s.engine.slots[j] = .free) →
    ∃ t : State, exec c s = .next t ∧ t.drain = some ⟨d.item, .imageWrite, data, d.firstTry && op.attempts == 1⟩ ∧
      t.justIssued .lineRead e.body.line .demandFill (some (.read, e.body.cls.region.castSucc)) ∧ t.port.lastClass = .read ∧
      ∃ j, t.engine.table[p] = some { e with state := .issued, slot := some j } ∧
        t.engine.slots[j] = .filling e.body.line false (some p)

/-! ### Journal commands -/

/-- R85, R98, R99: CLOSE EPOCH gives BUSY while a long command runs, STATE in STARTING or unless the journal is ACTIVE or
FAILED, QFULL with 16 entries; otherwise TAKEN, with a close marker at the queue's tail and the journal CLOSING. The marker's
header write ends it: in success E rises, FFFFFFFFh being followed by 1 (R84), W is 0, the set is empty, the journal ACTIVE,
result OK; in failure FAILED, with result FAILED, and where a drain may begin the run of guarded entries then at the head is
dropped (R44). The end raises LONG_DONE, each change of the journal state JOURNAL, and the inhibit latch INHIBIT where it was
clear (R82, R152, R172). -/
def Obligations.CloseEpochRunsToItsEnd : Prop :=
  (∀ e : BitVec 32, nextEpoch e = if e = 0xFFFFFFFF then 1 else e + 1) ∧
  ∀ s : State,
    (s.takesFrame = true →
      let stateBad := s.startup.portState = .starting ∨ (s.journal.state ≠ .active ∧ s.journal.state ≠ .failed)
      (s.mgmt.longCmd.isSome = true → exec .closeEpoch s = .next (frameDone .closeEpoch .busy [] s s)) ∧
      (s.mgmt.longCmd = none → stateBad → exec .closeEpoch s = .next (frameDone .closeEpoch .state [] s s)) ∧
      (s.mgmt.longCmd = none → ¬ stateBad → 16 ≤ s.queue.length →
        exec .closeEpoch s = .next (frameDone .closeEpoch .qfull [] s s)) ∧
      (s.mgmt.longCmd = none → ¬ stateBad → s.queue.length < 16 →
        ∃ t : State, exec .closeEpoch s = .next (frameDone .closeEpoch .taken [] s t) ∧
          t.queue = s.queue ++ [.marker s.nextPos] ∧ t.journal = { s.journal with state := .closing } ∧
          t.mgmt.longCmd = some .closeEpoch ∧ t.recorded .journal ∧ t.inhibited s .journal)) ∧
    ∀ (c : Instr) (op : Operation) (data : Line) (d : Drain), s.port.op = some op → op.owner = .head →
      s.drain = some d → d.item = .closeMarker →
      (op.succeedsBy data c → ∃ t : State, exec c s = .next t ∧ t.queue = s.queue.tail ∧
        t.journal = { s.journal with epoch := nextEpoch s.journal.epoch, written := 0, lineSet := [], state := .active } ∧
        t.mgmt.longCmd = none ∧ t.mgmt.lastLong = .ok ∧ t.recorded .longDone ∧
        (s.journal.state ≠ .active → t.recorded .journal)) ∧
      (op.failsBy c → ∃ t : State, exec c s = .next t ∧ t.dropsFrom s.queue.tail ∧ t.drainsAnew ∧
        (s.queue.length ≤ 16 → t.writesGoOn) ∧ t.journal = { s.journal with state := .failed } ∧ t.mgmt.longCmd = none ∧ t.mgmt.lastLong = .failed ∧
        t.recorded .longDone ∧ (s.journal.state ≠ .failed → t.recorded .journal))

/-- R101, R102: INIT JOURNAL gives ARG for epoch 0 and for E while W is above 0, then BUSY while a long command runs, then
STATE in STARTING, with the journal OFF, CLOSING or ROLLING, or with an entry in the queue or the table; otherwise TAKEN: E is
the argument, W 0, the set empty, the journal CLOSING, and the header of that epoch is written to area line 0 as soon as the
port is free. Its end makes the journal ACTIVE with result OK, or FAILED with result FAILED. The end raises LONG_DONE, each
change of the journal state JOURNAL, and the inhibit latch INHIBIT where it was clear (R82, R152, R172). A delayed write that
RESET UPSTREAM removed is work until its operation ends (assumption log 16). -/
def Obligations.InitJournalRunsToItsEnd : Prop :=
  ∀ (epoch : BitVec 32) (s : State),
    let init := Instr.initJournal epoch
    let argBad := epoch = 0 ∨ (epoch = s.journal.epoch ∧ 0 < s.journal.written)
    let stateBad := s.startup.portState = .starting ∨ s.journal.state = .off ∨ s.journal.state = .closing ∨
      s.journal.state = .rolling ∨ s.workStands
    (s.takesFrame = true →
      (argBad → exec init s = .next (frameDone init .arg [] s s)) ∧
      (¬ argBad → s.mgmt.longCmd.isSome = true → exec init s = .next (frameDone init .busy [] s s)) ∧
      (¬ argBad → s.mgmt.longCmd = none → stateBad → exec init s = .next (frameDone init .state [] s s)) ∧
      (¬ argBad → s.mgmt.longCmd = none → ¬ stateBad →
        ∃ t : State, exec init s = .next (frameDone init .taken [] s t) ∧
          t.journal = { s.journal with epoch := epoch, written := 0, lineSet := [], state := .closing } ∧
          t.mgmt.longCmd = some .initJournal ∧ t.recorded .journal ∧ t.inhibited s .journal ∧
          (s.port.op = none → s.startup.procedure = .idle → s.supply.state ≠ .fail → s.engine.prefetch = [] →
            t.justWrites (s.journal.basePage * 64) (headerLine epoch s.journal.sizePages) .initHeader .journal))) ∧
    ∀ (c : Instr) (op : Operation) (data : Line), s.port.op = some op → op.owner = .initHeader →
      (op.succeedsBy data c → ∃ t : State, exec c s = .next t ∧ t.journal = { s.journal with state := .active } ∧
        t.mgmt.longCmd = none ∧ t.mgmt.lastLong = .ok ∧ t.recorded .longDone ∧
        (s.journal.state ≠ .active → t.recorded .journal)) ∧
      (op.failsBy c → ∃ t : State, exec c s = .next t ∧ t.journal = { s.journal with state := .failed } ∧
        t.mgmt.longCmd = none ∧ t.mgmt.lastLong = .failed ∧ t.recorded .longDone ∧
        (s.journal.state ≠ .failed → t.recorded .journal))

/-- R103, R141: ROLLBACK gives BUSY while a long command runs, STATE unless the port is OPEN or HOLD, the journal PENDING,
ACTIVE or FAILED, and no entry stands in the queue or the table; otherwise TAKEN: journal and port ROLLING, the port state
noted, no VALID slot and no prefetch left, and the procedure begins with record W − 1, or with W = 0 with the header write,
which is issued at once where the port is free and the supply not FAIL; JOURNAL is raised, and INHIBIT where the journal's
latch was clear. A delayed write that RESET UPSTREAM removed is work until its operation ends (assumption log 16). -/
def Obligations.RollbackIsTaken : Prop :=
  ∀ s : State, s.takesFrame = true →
    let stateBad := (s.startup.portState ≠ .opened ∧ s.startup.portState ≠ .hold) ∨
      (s.journal.state ≠ .pending ∧ s.journal.state ≠ .active ∧ s.journal.state ≠ .failed) ∨ s.workStands
    (s.mgmt.longCmd.isSome = true → exec .rollback s = .next (frameDone .rollback .busy [] s s)) ∧
    (s.mgmt.longCmd = none → stateBad → exec .rollback s = .next (frameDone .rollback .state [] s s)) ∧
    (s.mgmt.longCmd = none → ¬ stateBad →
      ∃ t : State, exec .rollback s = .next (frameDone .rollback .taken [] s t) ∧
        t.journal = { s.journal with state := .rolling } ∧ t.startup.portState = .rolling ∧ t.startup.skipped = 0 ∧
        t.startup.rollPartial = false ∧ t.rollsOn s.journal.written ∧ t.recorded .journal ∧ t.inhibited s .journal ∧
        t.mgmt.longCmd = some (.rollback s.startup.portState) ∧ t.engine.prefetch = [] ∧
        (∀ (j : Fin 8) l d o g, t.engine.slots[j] ≠ .valid l d o g) ∧
        (s.port.op = none → t.rollsOnAtOnce s.journal.written))

/-- R105: WRITE JOURNAL PLACEMENT gives ARG for an illegal base page or size, then STATE in STARTING, with the journal CLOSING
or ROLLING, or with an entry in the queue or the table; otherwise base page and size are taken, W is 0, the set is empty, E
stays, and the journal is OFF with size 0 and UNKNOWN otherwise. Besides the journal only its inhibit latch changes, and the
events: JOURNAL at a change of the journal state, and INHIBIT where the latch is set. A delayed write that RESET UPSTREAM
removed is work until its operation ends (assumption log 16). -/
def Obligations.WriteJournalPlacementMovesTheJournal : Prop :=
  ∀ (base size : BitVec 16) (s : State), s.takesFrame = true →
    let c := Instr.writeJournalPlacement base size
    let legal := size.toNat ≤ 1024 ∧ base.toNat ≤ 16383 ∧ base.toNat + size.toNat ≤ 16384
    let stateBad := s.startup.portState = .starting ∨ s.journal.state = .closing ∨ s.journal.state = .rolling ∨ s.workStands
    let state : JournalState := if size.toNat = 0 then .off else .unknown
    let moved := if s.journal.state = state then s else s.raise .journal
    let latched := s.supply.latches.journal || decide (state = .unknown ∧ s.journal.state ≠ .unknown)
    (¬ legal → exec c s = .next (frameDone c .arg [] s s)) ∧
    (legal → stateBad → exec c s = .next (frameDone c .state [] s s)) ∧
    (legal → ¬ stateBad → exec c s = .next (frameDone c .ok [] s { s with
      journal := ⟨base.toNat, size.toNat, state, s.journal.epoch, 0, []⟩
      supply := { s.supply with latches := { s.supply.latches with journal := latched } }
      faults := if latched && !s.supply.latches.journal then (moved.raise .inhibit).faults else moved.faults }))

/-! ### Supply, WLOCK, faults and events -/

/-- R48, R120, R145, R147, R148, R152: a filter's time runs out. The supply state moves as the condition says, and stays where
the condition leads nowhere; NWARN follows, and the latch of WARN or FAIL is set on entering it, with INHIBIT where it was
clear. A move to FAIL changes nothing beside the supply unit and that event: the queue, the entries, the slots, the drain, the
operation in flight, start-up and the long command stay. So does a move from NORMAL to WARN while the port carries an
operation and a drain is in progress. A filter that is not running does not run out (assumption log 2); that the filter of a
risen VFAIL comparison is one of its own is the model's reading (assumption log 6). -/
def Obligations.SupplyFiltersMoveTheState : Prop :=
  ∀ (f : SupplyFilter) (s : State),
    let running := match f with
      | .belowWarn => s.supply.timers.belowWarn | .belowFail => s.supply.timers.belowFail
      | .notBelowWarn => s.supply.timers.notBelowWarn | .between => s.supply.timers.between
      | .failRisen => s.supply.timers.failRisen
    let target := match f, s.supply.state with
      | .belowWarn, .normal => SupplyState.warn | .belowFail, _ => .fail | .notBelowWarn, _ => .normal
      | .between, .fail => .warn | _, st => st
    (running = none → exec (.supplyFilterExpiry f) s = .next s) ∧
    (running.isSome = true → ∃ t : State, exec (.supplyFilterExpiry f) s = .next t ∧ t.supply.state = target ∧
      (target = s.supply.state → ∃ u : SupplyUnit, t = { s with supply := u } ∧ u.latches = s.supply.latches ∧
        u.nwarnLow = s.supply.nwarnLow ∧ u.level = s.supply.level) ∧
      (target ≠ s.supply.state →
        t.supply.nwarnLow = decide (target ≠ .normal) ∧ t.supply.level = s.supply.level ∧
        t.supply.wlock = s.supply.wlock ∧ t.supply.software = s.supply.software ∧
        t.journal = s.journal ∧ t.lines = s.lines ∧ t.memory = s.memory ∧ t.classifier = s.classifier ∧
        t.supply.latches.warn = (s.supply.latches.warn || decide (target = .warn)) ∧
        t.supply.latches.fail = (s.supply.latches.fail || decide (target = .fail)) ∧
        t.supply.latches.glitch = s.supply.latches.glitch ∧
        (target = .warn → t.inhibited s .warn) ∧ (target = .fail → t.inhibited s .fail) ∧
        (target = .fail → t = { s with
          supply := t.supply, faults := if s.supply.latches.fail then s.faults else (s.raise .inhibit).faults }) ∧
        (target = .warn → s.supply.state = .normal → s.busyPort → t = { s with
          supply := t.supply, faults := if s.supply.latches.warn then s.faults else (s.raise .inhibit).faults })))

/-- R39, R48, R62, R112, R113, R115, R118, R119, R120, R129, R135: the supply leaves FAIL for NORMAL or WARN: an operation in
HELD is reissued with its count raised and MEM_RETRY or VERIFY_MISMATCH counted, a first verify read without. A paused drain
keeps the head and its stage; with none in progress the write order goes on: the next head begins its drain, the run of guarded
heads that stand in journal FAILED being dropped. With the port free the operation that the scan or the rollback has come to is
issued; with both idle, the write class, where its turn is or no read work stands, issues the header write of INIT JOURNAL or
the operation that the head's drain has reached, and the read class, where its turn is or no write work stands, the demand fill
of the oldest WAITING read entry, if that is ready. A start-up in SUPPLY_WAIT goes on at NORMAL, to the scan with a journal size
above 0, and with size 0 it ends, with its events; WARN does not end the wait. The move from WARN to NORMAL ends SUPPLY_WAIT in
the same way, and the operation in flight goes on as it stands; while the port carries one and a drain is in progress, a move
from WARN to NORMAL outside SUPPLY_WAIT changes the supply unit alone. -/
def Obligations.LeavingFailResumesTheWork : Prop :=
  let waitEnds := fun s t : State =>
    (0 < s.journal.sizePages → t.startup.phase = .scanning ∧
      t.startup.portState = s.startup.portState ∧ t.startup.procedure = .scanHeader ∧
      (s.port.op = none → t.justIssued .lineRead (s.journal.basePage * 64) .scan (some (.journal, 9)))) ∧
    (s.journal.sizePages = 0 → t.startupEnded ∧ t.startup.loadResult = s.startup.loadResult)
  let readsNothing := fun s : State => s.engine.prefetch = [] ∧
    ∀ (p : Fin 4) (e : DelayedEntry), s.engine.table[p] = some e → e.kind = .read → e.state ≠ .waiting
  (∀ (f : SupplyFilter) (goal : SupplyState) (s : State), s.supply.state = .fail →
    (f = .notBelowWarn ∧ goal = .normal ∧ s.supply.timers.notBelowWarn.isSome = true) ∨
      (f = .between ∧ goal = .warn ∧ s.supply.timers.between.isSome = true) →
    ∃ t : State, exec (.supplyFilterExpiry f) s = .next t ∧ t.supply.state = goal ∧
      (∀ op, s.port.op = some op → op.phase = .held → t.port.op = some { op with
          phase := if op.next = .verifyAgain ∨ op.next = .firstVerify then .verifying else .awaiting
          attempts := if op.next = .firstVerify then op.attempts else op.attempts + 1 } ∧
        t.faults.counters = (match op.next with
          | .attemptAgain => (s.count .memRetry).faults.counters
          | .verifyAgain => (s.count .memRetry).faults.counters
          | .writeAfterMismatch => (s.count .verifyMismatch).faults.counters
          | .firstVerify => s.faults.counters)) ∧
      (∀ op, s.port.op = some op → op.phase ≠ .held → t.port.op = some op ∧ t.faults.counters = s.faults.counters) ∧
      (s.startup.phase = .supplyWait → goal = .normal → waitEnds s t) ∧
      (s.startup.phase ≠ .supplyWait ∨ goal = .warn → t.startup = s.startup) ∧
      (∀ d, s.drain = some d → t.drain = some d ∧ t.queue = s.queue) ∧
      (s.drain = none → t.drainsAnew ∧ (s.queue.length ≤ 16 → t.writesGoOn) ∧ t.dropsFrom s.queue ∧
        ∀ p e, s.engine.table[p] = some e → e.kind = .write → t.writeGoesOn p e) ∧
      (s.port.op = none → s.startup.phase ≠ .supplyWait ∨ goal = .warn → t.procedureIssued ∧
        (s.startup.procedure = .idle →
          (s.port.lastClass = .read ∨ readsNothing s →
            (s.mgmt.longCmd = some .initJournal → t.justWrites (s.journal.basePage * 64)
              (headerLine s.journal.epoch s.journal.sizePages) .initHeader .journal) ∧
            (s.mgmt.longCmd ≠ some .initJournal → ∀ d, t.drain = some d →
              d.stage = .closeHeader ∨ (t.itemBody d.item).isSome = true →
              t.port.lastClass = .write ∧ ∃ o, t.port.op = some o ∧ o.owner = .head ∧ t.carriesDrain o)) ∧
          ∀ (p : Fin 4) (e : DelayedEntry), s.oldestReader p e → (∃ j : Fin 8, s.engine.slots[j] = .free) →
            s.port.lastClass = .write ∨ (t.drain = none ∧ s.mgmt.longCmd ≠ some .initJournal) →
            t.justIssued .lineRead e.body.line .demandFill (some (.read, e.body.cls.region.castSucc)) ∧
            t.port.lastClass = .read ∧ ∃ j, t.engine.table[p] = some { e with state := .issued, slot := some j } ∧
              t.engine.slots[j] = .filling e.body.line false (some p)))) ∧
  ∀ s : State, s.supply.state = .warn → s.supply.timers.notBelowWarn.isSome = true →
    ∃ t : State, exec (.supplyFilterExpiry .notBelowWarn) s = .next t ∧ t.supply.state = .normal ∧
      (∀ op, s.port.op = some op → t.port.op = some op ∧ t.faults.counters = s.faults.counters) ∧
      (s.startup.phase = .supplyWait → waitEnds s t) ∧
      (s.startup.phase ≠ .supplyWait → t.startup = s.startup ∧
        (s.busyPort → t = { s with supply := t.supply }))

/-- R126, R144, R145, R147: VDD moves. Both comparisons are made anew, a supply at a threshold not being below it; the timer
of a condition starts where it begins to hold and stops where it ends; a comparison's watch opens where its change starts a
filter in the present state; and the GLITCH latch is set where a comparison goes back under its open watch, with its event.
Nothing else changes: the supply state does not move, and a rise from below 2.20 V does not end a reset. A fall below 2.20 V
starts a power-on reset. VDD is the band between two thresholds that it lies in (assumption logs 5, 18), and the watches and
the filter of a risen VFAIL comparison are the model's reading (assumption log 6); that a VWARN comparison which goes to below
in FAIL opens no watch is its choice (assumption log 24). -/
def Obligations.ComparatorChangesRunTheFilters : Prop :=
  ∀ (level : SupplyLevel) (s : State),
    (level = .below220 → s.supply.level ≠ .below220 → ∃ t : State, exec (.comparatorChange level) s = .next t ∧
      exec .powerOnReset s = .next t ∧ t.hasResetValues ∧ t.startup.inReset = true ∧ t.startup.cause = .powerOn) ∧
    (¬ (level = .below220 ∧ s.supply.level ≠ .below220) →
      ∃ t : SupplyTimers, exec (.comparatorChange level) s = .next (s.compared level s.supply.warnLevel t) ∧
        s.supply.timersFollow (decide (SupplyLevel.volts level < 300 - 10 * s.supply.warnLevel.toNat))
          (decide (SupplyLevel.volts level < 255)) t)

/-- R149, R152: a change of the WLOCK pin's level starts its filter; when the level has held, the WLOCK state takes it, and an
asserted one sets its latch, which raises INHIBIT where it was clear. Without a change, and with no filter running
(assumption log 2), nothing happens. -/
def Obligations.WlockIsFiltered : Prop :=
  ∀ (high : Bool) (s : State),
    (s.supply.wlockPin ≠ high → exec (.wlockPinChange high) s = .next { s with
      supply := { s.supply with wlockPin := high, wlockTimer := some 1 } }) ∧
    (s.supply.wlockPin = high → exec (.wlockPinChange high) s = .next s) ∧
    (s.supply.wlockTimer = none → exec .wlockFilterExpiry s = .next s) ∧
    (s.supply.wlockTimer.isSome = true → exec .wlockFilterExpiry s = .next { s with
      supply := { s.supply with
        wlock := s.supply.wlockPin, wlockTimer := none
        latches := { s.supply.latches with wlock := s.supply.latches.wlock || s.supply.wlockPin } }
      faults := if s.supply.wlockPin && !s.supply.latches.wlock then (s.raise .inhibit).faults else s.faults })

/-- R156, R158, R161: what the unit's three actions do. A cause sets its event's pending bit where the event is unmasked or
visibility is 1, and otherwise nothing; a count raises its counter by 1 up to 65535, where it stays, and reaching it raises
COUNTER_SAT; a report gives its region the more severe of two codes, and a change into a fault code raises REGION_FAULT. The
event bits are those of R160, and the codes 1 to 8, most severe first, those of R155. -/
def Obligations.FaultsAreRecorded : Prop :=
  [EventKind.startupDone, .portHold, .regionFault, .inhibit, .journal, .longDone, .failedLine, .mgmtError, .counterSat].map
      EventKind.bit = [0x001, 0x002, 0x004, 0x008, 0x010, 0x020, 0x040, 0x080, 0x100] ∧
  [RegionCode.memoryFail, .journalFail, .journalFull, .claimLost, .refused, .recovered, .clean, .noTraffic].map
      RegionCode.byte = [1, 2, 3, 4, 5, 6, 7, 8] ∧
  ∀ (s : State) (k : EventKind) (n : CounterKind) (region : Fin 9) (code : RegionCode),
    ((s.faults.mask &&& k.bit = 0 ∨ s.faults.visible = true) → (s.raise k).faults.events = s.faults.events ||| k.bit) ∧
    (¬ (s.faults.mask &&& k.bit = 0 ∨ s.faults.visible = true) → s.raise k = s) ∧
    ((s.count n).faults.counters.get n).toNat = min ((s.faults.counters.get n).toNat + 1) 65535 ∧
    (∀ m, m ≠ n → (s.count n).faults.counters.get m = s.faults.counters.get m) ∧
    ((s.count n).faults.events = if (s.faults.counters.get n).toNat = 65534 then (s.raise .counterSat).faults.events
      else s.faults.events) ∧
    ((s.report region code).faults.codes[region].byte = min code.byte s.faults.codes[region].byte) ∧
    (∀ i : Fin 9, i ≠ region → (s.report region code).faults.codes[i] = s.faults.codes[i]) ∧
    ((s.report region code).faults.events = if code.byte < s.faults.codes[region].byte ∧ code.byte ≤ 4 then
      (s.raise .regionFault).faults.events else s.faults.events)
end

