-- ==== Sys2Proof/Laws/State.lean ====
section
/-! SUPPORT. What each named update of the state does to each field: the field it sets, and the fields it leaves. -/

namespace Sys2Proof.Machine.State

@[simp] theorem setPending_lines (s : State) (q : List Instr) : (s.setPending q).lines = s.lines := (rfl)
@[simp] theorem setPending_classifier (s : State) (q : List Instr) : (s.setPending q).classifier = s.classifier := (rfl)
@[simp] theorem setPending_queue (s : State) (q : List Instr) : (s.setPending q).queue = s.queue := (rfl)
@[simp] theorem setPending_engine (s : State) (q : List Instr) : (s.setPending q).engine = s.engine := (rfl)
@[simp] theorem setPending_nextPos (s : State) (q : List Instr) : (s.setPending q).nextPos = s.nextPos := (rfl)
@[simp] theorem setPending_journal (s : State) (q : List Instr) : (s.setPending q).journal = s.journal := (rfl)
@[simp] theorem setPending_drain (s : State) (q : List Instr) : (s.setPending q).drain = s.drain := (rfl)
@[simp] theorem setPending_port (s : State) (q : List Instr) : (s.setPending q).port = s.port := (rfl)
@[simp] theorem setPending_startup (s : State) (q : List Instr) : (s.setPending q).startup = s.startup := (rfl)
@[simp] theorem setPending_supply (s : State) (q : List Instr) : (s.setPending q).supply = s.supply := (rfl)
@[simp] theorem setPending_faults (s : State) (q : List Instr) : (s.setPending q).faults = s.faults := (rfl)
@[simp] theorem setPending_mgmt (s : State) (q : List Instr) : (s.setPending q).mgmt = s.mgmt := (rfl)
@[simp] theorem setPending_memory (s : State) (q : List Instr) : (s.setPending q).memory = s.memory := (rfl)
@[simp] theorem setPending_frameLines (s : State) (q : List Instr) : (s.setPending q).frameLines = s.frameLines := (rfl)
@[simp] theorem setPending_pending (s : State) (q : List Instr) : (s.setPending q).pending = q := (rfl)

@[simp] theorem setClassifier_lines (s : State) (c : Classifier) : (s.setClassifier c).lines = s.lines := (rfl)
@[simp] theorem setClassifier_classifier (s : State) (c : Classifier) : (s.setClassifier c).classifier = c := (rfl)
@[simp] theorem setClassifier_queue (s : State) (c : Classifier) : (s.setClassifier c).queue = s.queue := (rfl)
@[simp] theorem setClassifier_engine (s : State) (c : Classifier) : (s.setClassifier c).engine = s.engine := (rfl)
@[simp] theorem setClassifier_nextPos (s : State) (c : Classifier) : (s.setClassifier c).nextPos = s.nextPos := (rfl)
@[simp] theorem setClassifier_journal (s : State) (c : Classifier) : (s.setClassifier c).journal = s.journal := (rfl)
@[simp] theorem setClassifier_drain (s : State) (c : Classifier) : (s.setClassifier c).drain = s.drain := (rfl)
@[simp] theorem setClassifier_port (s : State) (c : Classifier) : (s.setClassifier c).port = s.port := (rfl)
@[simp] theorem setClassifier_startup (s : State) (c : Classifier) : (s.setClassifier c).startup = s.startup := (rfl)
@[simp] theorem setClassifier_supply (s : State) (c : Classifier) : (s.setClassifier c).supply = s.supply := (rfl)
@[simp] theorem setClassifier_faults (s : State) (c : Classifier) : (s.setClassifier c).faults = s.faults := (rfl)
@[simp] theorem setClassifier_mgmt (s : State) (c : Classifier) : (s.setClassifier c).mgmt = s.mgmt := (rfl)
@[simp] theorem setClassifier_memory (s : State) (c : Classifier) : (s.setClassifier c).memory = s.memory := (rfl)
@[simp] theorem setClassifier_frameLines (s : State) (c : Classifier) : (s.setClassifier c).frameLines = s.frameLines := (rfl)
@[simp] theorem setClassifier_pending (s : State) (c : Classifier) : (s.setClassifier c).pending = s.pending := (rfl)

@[simp] theorem popQueue_lines (s : State) : (s.popQueue).lines = s.lines := (rfl)
@[simp] theorem popQueue_classifier (s : State) : (s.popQueue).classifier = s.classifier := (rfl)
@[simp] theorem popQueue_queue (s : State) : (s.popQueue).queue = s.queue.tail := (rfl)
@[simp] theorem popQueue_engine (s : State) : (s.popQueue).engine = s.engine := (rfl)
@[simp] theorem popQueue_nextPos (s : State) : (s.popQueue).nextPos = s.nextPos := (rfl)
@[simp] theorem popQueue_journal (s : State) : (s.popQueue).journal = s.journal := (rfl)
@[simp] theorem popQueue_drain (s : State) : (s.popQueue).drain = s.drain := (rfl)
@[simp] theorem popQueue_port (s : State) : (s.popQueue).port = s.port := (rfl)
@[simp] theorem popQueue_startup (s : State) : (s.popQueue).startup = s.startup := (rfl)
@[simp] theorem popQueue_supply (s : State) : (s.popQueue).supply = s.supply := (rfl)
@[simp] theorem popQueue_faults (s : State) : (s.popQueue).faults = s.faults := (rfl)
@[simp] theorem popQueue_mgmt (s : State) : (s.popQueue).mgmt = s.mgmt := (rfl)
@[simp] theorem popQueue_memory (s : State) : (s.popQueue).memory = s.memory := (rfl)
@[simp] theorem popQueue_frameLines (s : State) : (s.popQueue).frameLines = s.frameLines := (rfl)
@[simp] theorem popQueue_pending (s : State) : (s.popQueue).pending = s.pending := (rfl)

@[simp] theorem setEngine_lines (s : State) (g : Engine) : (s.setEngine g).lines = s.lines := (rfl)
@[simp] theorem setEngine_classifier (s : State) (g : Engine) : (s.setEngine g).classifier = s.classifier := (rfl)
@[simp] theorem setEngine_queue (s : State) (g : Engine) : (s.setEngine g).queue = s.queue := (rfl)
@[simp] theorem setEngine_engine (s : State) (g : Engine) : (s.setEngine g).engine = g := (rfl)
@[simp] theorem setEngine_nextPos (s : State) (g : Engine) : (s.setEngine g).nextPos = s.nextPos := (rfl)
@[simp] theorem setEngine_journal (s : State) (g : Engine) : (s.setEngine g).journal = s.journal := (rfl)
@[simp] theorem setEngine_drain (s : State) (g : Engine) : (s.setEngine g).drain = s.drain := (rfl)
@[simp] theorem setEngine_port (s : State) (g : Engine) : (s.setEngine g).port = s.port := (rfl)
@[simp] theorem setEngine_startup (s : State) (g : Engine) : (s.setEngine g).startup = s.startup := (rfl)
@[simp] theorem setEngine_supply (s : State) (g : Engine) : (s.setEngine g).supply = s.supply := (rfl)
@[simp] theorem setEngine_faults (s : State) (g : Engine) : (s.setEngine g).faults = s.faults := (rfl)
@[simp] theorem setEngine_mgmt (s : State) (g : Engine) : (s.setEngine g).mgmt = s.mgmt := (rfl)
@[simp] theorem setEngine_memory (s : State) (g : Engine) : (s.setEngine g).memory = s.memory := (rfl)
@[simp] theorem setEngine_frameLines (s : State) (g : Engine) : (s.setEngine g).frameLines = s.frameLines := (rfl)
@[simp] theorem setEngine_pending (s : State) (g : Engine) : (s.setEngine g).pending = s.pending := (rfl)

@[simp] theorem setJournal_lines (s : State) (j : Journal) : (s.setJournal j).lines = s.lines := (rfl)
@[simp] theorem setJournal_classifier (s : State) (j : Journal) : (s.setJournal j).classifier = s.classifier := (rfl)
@[simp] theorem setJournal_queue (s : State) (j : Journal) : (s.setJournal j).queue = s.queue := (rfl)
@[simp] theorem setJournal_engine (s : State) (j : Journal) : (s.setJournal j).engine = s.engine := (rfl)
@[simp] theorem setJournal_nextPos (s : State) (j : Journal) : (s.setJournal j).nextPos = s.nextPos := (rfl)
@[simp] theorem setJournal_journal (s : State) (j : Journal) : (s.setJournal j).journal = j := (rfl)
@[simp] theorem setJournal_drain (s : State) (j : Journal) : (s.setJournal j).drain = s.drain := (rfl)
@[simp] theorem setJournal_port (s : State) (j : Journal) : (s.setJournal j).port = s.port := (rfl)
@[simp] theorem setJournal_startup (s : State) (j : Journal) : (s.setJournal j).startup = s.startup := (rfl)
@[simp] theorem setJournal_supply (s : State) (j : Journal) : (s.setJournal j).supply = s.supply := (rfl)
@[simp] theorem setJournal_faults (s : State) (j : Journal) : (s.setJournal j).faults = s.faults := (rfl)
@[simp] theorem setJournal_mgmt (s : State) (j : Journal) : (s.setJournal j).mgmt = s.mgmt := (rfl)
@[simp] theorem setJournal_memory (s : State) (j : Journal) : (s.setJournal j).memory = s.memory := (rfl)
@[simp] theorem setJournal_frameLines (s : State) (j : Journal) : (s.setJournal j).frameLines = s.frameLines := (rfl)
@[simp] theorem setJournal_pending (s : State) (j : Journal) : (s.setJournal j).pending = s.pending := (rfl)

@[simp] theorem setDrain_lines (s : State) (d : Option Drain) : (s.setDrain d).lines = s.lines := (rfl)
@[simp] theorem setDrain_classifier (s : State) (d : Option Drain) : (s.setDrain d).classifier = s.classifier := (rfl)
@[simp] theorem setDrain_queue (s : State) (d : Option Drain) : (s.setDrain d).queue = s.queue := (rfl)
@[simp] theorem setDrain_engine (s : State) (d : Option Drain) : (s.setDrain d).engine = s.engine := (rfl)
@[simp] theorem setDrain_nextPos (s : State) (d : Option Drain) : (s.setDrain d).nextPos = s.nextPos := (rfl)
@[simp] theorem setDrain_journal (s : State) (d : Option Drain) : (s.setDrain d).journal = s.journal := (rfl)
@[simp] theorem setDrain_drain (s : State) (d : Option Drain) : (s.setDrain d).drain = d := (rfl)
@[simp] theorem setDrain_port (s : State) (d : Option Drain) : (s.setDrain d).port = s.port := (rfl)
@[simp] theorem setDrain_startup (s : State) (d : Option Drain) : (s.setDrain d).startup = s.startup := (rfl)
@[simp] theorem setDrain_supply (s : State) (d : Option Drain) : (s.setDrain d).supply = s.supply := (rfl)
@[simp] theorem setDrain_faults (s : State) (d : Option Drain) : (s.setDrain d).faults = s.faults := (rfl)
@[simp] theorem setDrain_mgmt (s : State) (d : Option Drain) : (s.setDrain d).mgmt = s.mgmt := (rfl)
@[simp] theorem setDrain_memory (s : State) (d : Option Drain) : (s.setDrain d).memory = s.memory := (rfl)
@[simp] theorem setDrain_frameLines (s : State) (d : Option Drain) : (s.setDrain d).frameLines = s.frameLines := (rfl)
@[simp] theorem setDrain_pending (s : State) (d : Option Drain) : (s.setDrain d).pending = s.pending := (rfl)

@[simp] theorem setPort_lines (s : State) (p : MemoryPort) : (s.setPort p).lines = s.lines := (rfl)
@[simp] theorem setPort_classifier (s : State) (p : MemoryPort) : (s.setPort p).classifier = s.classifier := (rfl)
@[simp] theorem setPort_queue (s : State) (p : MemoryPort) : (s.setPort p).queue = s.queue := (rfl)
@[simp] theorem setPort_engine (s : State) (p : MemoryPort) : (s.setPort p).engine = s.engine := (rfl)
@[simp] theorem setPort_nextPos (s : State) (p : MemoryPort) : (s.setPort p).nextPos = s.nextPos := (rfl)
@[simp] theorem setPort_journal (s : State) (p : MemoryPort) : (s.setPort p).journal = s.journal := (rfl)
@[simp] theorem setPort_drain (s : State) (p : MemoryPort) : (s.setPort p).drain = s.drain := (rfl)
@[simp] theorem setPort_port (s : State) (p : MemoryPort) : (s.setPort p).port = p := (rfl)
@[simp] theorem setPort_startup (s : State) (p : MemoryPort) : (s.setPort p).startup = s.startup := (rfl)
@[simp] theorem setPort_supply (s : State) (p : MemoryPort) : (s.setPort p).supply = s.supply := (rfl)
@[simp] theorem setPort_faults (s : State) (p : MemoryPort) : (s.setPort p).faults = s.faults := (rfl)
@[simp] theorem setPort_mgmt (s : State) (p : MemoryPort) : (s.setPort p).mgmt = s.mgmt := (rfl)
@[simp] theorem setPort_memory (s : State) (p : MemoryPort) : (s.setPort p).memory = s.memory := (rfl)
@[simp] theorem setPort_frameLines (s : State) (p : MemoryPort) : (s.setPort p).frameLines = s.frameLines := (rfl)
@[simp] theorem setPort_pending (s : State) (p : MemoryPort) : (s.setPort p).pending = s.pending := (rfl)

@[simp] theorem setStartup_lines (s : State) (x : Startup) : (s.setStartup x).lines = s.lines := (rfl)
@[simp] theorem setStartup_classifier (s : State) (x : Startup) : (s.setStartup x).classifier = s.classifier := (rfl)
@[simp] theorem setStartup_queue (s : State) (x : Startup) : (s.setStartup x).queue = s.queue := (rfl)
@[simp] theorem setStartup_engine (s : State) (x : Startup) : (s.setStartup x).engine = s.engine := (rfl)
@[simp] theorem setStartup_nextPos (s : State) (x : Startup) : (s.setStartup x).nextPos = s.nextPos := (rfl)
@[simp] theorem setStartup_journal (s : State) (x : Startup) : (s.setStartup x).journal = s.journal := (rfl)
@[simp] theorem setStartup_drain (s : State) (x : Startup) : (s.setStartup x).drain = s.drain := (rfl)
@[simp] theorem setStartup_port (s : State) (x : Startup) : (s.setStartup x).port = s.port := (rfl)
@[simp] theorem setStartup_startup (s : State) (x : Startup) : (s.setStartup x).startup = x := (rfl)
@[simp] theorem setStartup_supply (s : State) (x : Startup) : (s.setStartup x).supply = s.supply := (rfl)
@[simp] theorem setStartup_faults (s : State) (x : Startup) : (s.setStartup x).faults = s.faults := (rfl)
@[simp] theorem setStartup_mgmt (s : State) (x : Startup) : (s.setStartup x).mgmt = s.mgmt := (rfl)
@[simp] theorem setStartup_memory (s : State) (x : Startup) : (s.setStartup x).memory = s.memory := (rfl)
@[simp] theorem setStartup_frameLines (s : State) (x : Startup) : (s.setStartup x).frameLines = s.frameLines := (rfl)
@[simp] theorem setStartup_pending (s : State) (x : Startup) : (s.setStartup x).pending = s.pending := (rfl)

@[simp] theorem setSupply_lines (s : State) (u : SupplyUnit) : (s.setSupply u).lines = s.lines := (rfl)
@[simp] theorem setSupply_classifier (s : State) (u : SupplyUnit) : (s.setSupply u).classifier = s.classifier := (rfl)
@[simp] theorem setSupply_queue (s : State) (u : SupplyUnit) : (s.setSupply u).queue = s.queue := (rfl)
@[simp] theorem setSupply_engine (s : State) (u : SupplyUnit) : (s.setSupply u).engine = s.engine := (rfl)
@[simp] theorem setSupply_nextPos (s : State) (u : SupplyUnit) : (s.setSupply u).nextPos = s.nextPos := (rfl)
@[simp] theorem setSupply_journal (s : State) (u : SupplyUnit) : (s.setSupply u).journal = s.journal := (rfl)
@[simp] theorem setSupply_drain (s : State) (u : SupplyUnit) : (s.setSupply u).drain = s.drain := (rfl)
@[simp] theorem setSupply_port (s : State) (u : SupplyUnit) : (s.setSupply u).port = s.port := (rfl)
@[simp] theorem setSupply_startup (s : State) (u : SupplyUnit) : (s.setSupply u).startup = s.startup := (rfl)
@[simp] theorem setSupply_supply (s : State) (u : SupplyUnit) : (s.setSupply u).supply = u := (rfl)
@[simp] theorem setSupply_faults (s : State) (u : SupplyUnit) : (s.setSupply u).faults = s.faults := (rfl)
@[simp] theorem setSupply_mgmt (s : State) (u : SupplyUnit) : (s.setSupply u).mgmt = s.mgmt := (rfl)
@[simp] theorem setSupply_memory (s : State) (u : SupplyUnit) : (s.setSupply u).memory = s.memory := (rfl)
@[simp] theorem setSupply_frameLines (s : State) (u : SupplyUnit) : (s.setSupply u).frameLines = s.frameLines := (rfl)
@[simp] theorem setSupply_pending (s : State) (u : SupplyUnit) : (s.setSupply u).pending = s.pending := (rfl)

@[simp] theorem setMgmt_lines (s : State) (m : ManagementPort) : (s.setMgmt m).lines = s.lines := (rfl)
@[simp] theorem setMgmt_classifier (s : State) (m : ManagementPort) : (s.setMgmt m).classifier = s.classifier := (rfl)
@[simp] theorem setMgmt_queue (s : State) (m : ManagementPort) : (s.setMgmt m).queue = s.queue := (rfl)
@[simp] theorem setMgmt_engine (s : State) (m : ManagementPort) : (s.setMgmt m).engine = s.engine := (rfl)
@[simp] theorem setMgmt_nextPos (s : State) (m : ManagementPort) : (s.setMgmt m).nextPos = s.nextPos := (rfl)
@[simp] theorem setMgmt_journal (s : State) (m : ManagementPort) : (s.setMgmt m).journal = s.journal := (rfl)
@[simp] theorem setMgmt_drain (s : State) (m : ManagementPort) : (s.setMgmt m).drain = s.drain := (rfl)
@[simp] theorem setMgmt_port (s : State) (m : ManagementPort) : (s.setMgmt m).port = s.port := (rfl)
@[simp] theorem setMgmt_startup (s : State) (m : ManagementPort) : (s.setMgmt m).startup = s.startup := (rfl)
@[simp] theorem setMgmt_supply (s : State) (m : ManagementPort) : (s.setMgmt m).supply = s.supply := (rfl)
@[simp] theorem setMgmt_faults (s : State) (m : ManagementPort) : (s.setMgmt m).faults = s.faults := (rfl)
@[simp] theorem setMgmt_mgmt (s : State) (m : ManagementPort) : (s.setMgmt m).mgmt = m := (rfl)
@[simp] theorem setMgmt_memory (s : State) (m : ManagementPort) : (s.setMgmt m).memory = s.memory := (rfl)
@[simp] theorem setMgmt_frameLines (s : State) (m : ManagementPort) : (s.setMgmt m).frameLines = s.frameLines := (rfl)
@[simp] theorem setMgmt_pending (s : State) (m : ManagementPort) : (s.setMgmt m).pending = s.pending := (rfl)

@[simp] theorem setMemory_lines (s : State) (m : List Host.Cell) : (s.setMemory m).lines = s.lines := (rfl)
@[simp] theorem setMemory_classifier (s : State) (m : List Host.Cell) : (s.setMemory m).classifier = s.classifier := (rfl)
@[simp] theorem setMemory_queue (s : State) (m : List Host.Cell) : (s.setMemory m).queue = s.queue := (rfl)
@[simp] theorem setMemory_engine (s : State) (m : List Host.Cell) : (s.setMemory m).engine = s.engine := (rfl)
@[simp] theorem setMemory_nextPos (s : State) (m : List Host.Cell) : (s.setMemory m).nextPos = s.nextPos := (rfl)
@[simp] theorem setMemory_journal (s : State) (m : List Host.Cell) : (s.setMemory m).journal = s.journal := (rfl)
@[simp] theorem setMemory_drain (s : State) (m : List Host.Cell) : (s.setMemory m).drain = s.drain := (rfl)
@[simp] theorem setMemory_port (s : State) (m : List Host.Cell) : (s.setMemory m).port = s.port := (rfl)
@[simp] theorem setMemory_startup (s : State) (m : List Host.Cell) : (s.setMemory m).startup = s.startup := (rfl)
@[simp] theorem setMemory_supply (s : State) (m : List Host.Cell) : (s.setMemory m).supply = s.supply := (rfl)
@[simp] theorem setMemory_faults (s : State) (m : List Host.Cell) : (s.setMemory m).faults = s.faults := (rfl)
@[simp] theorem setMemory_mgmt (s : State) (m : List Host.Cell) : (s.setMemory m).mgmt = s.mgmt := (rfl)
@[simp] theorem setMemory_memory (s : State) (m : List Host.Cell) : (s.setMemory m).memory = m := (rfl)
@[simp] theorem setMemory_frameLines (s : State) (m : List Host.Cell) : (s.setMemory m).frameLines = s.frameLines := (rfl)
@[simp] theorem setMemory_pending (s : State) (m : List Host.Cell) : (s.setMemory m).pending = s.pending := (rfl)

@[simp] theorem setCounters_lines (s : State) (c : Counters) : (s.setCounters c).lines = s.lines := (rfl)
@[simp] theorem setCounters_classifier (s : State) (c : Counters) : (s.setCounters c).classifier = s.classifier := (rfl)
@[simp] theorem setCounters_queue (s : State) (c : Counters) : (s.setCounters c).queue = s.queue := (rfl)
@[simp] theorem setCounters_engine (s : State) (c : Counters) : (s.setCounters c).engine = s.engine := (rfl)
@[simp] theorem setCounters_nextPos (s : State) (c : Counters) : (s.setCounters c).nextPos = s.nextPos := (rfl)
@[simp] theorem setCounters_journal (s : State) (c : Counters) : (s.setCounters c).journal = s.journal := (rfl)
@[simp] theorem setCounters_drain (s : State) (c : Counters) : (s.setCounters c).drain = s.drain := (rfl)
@[simp] theorem setCounters_port (s : State) (c : Counters) : (s.setCounters c).port = s.port := (rfl)
@[simp] theorem setCounters_startup (s : State) (c : Counters) : (s.setCounters c).startup = s.startup := (rfl)
@[simp] theorem setCounters_supply (s : State) (c : Counters) : (s.setCounters c).supply = s.supply := (rfl)
@[simp] theorem setCounters_faults (s : State) (c : Counters) : (s.setCounters c).faults = { s.faults with counters := c } := (rfl)
@[simp] theorem setCounters_mgmt (s : State) (c : Counters) : (s.setCounters c).mgmt = s.mgmt := (rfl)
@[simp] theorem setCounters_memory (s : State) (c : Counters) : (s.setCounters c).memory = s.memory := (rfl)
@[simp] theorem setCounters_frameLines (s : State) (c : Counters) : (s.setCounters c).frameLines = s.frameLines := (rfl)
@[simp] theorem setCounters_pending (s : State) (c : Counters) : (s.setCounters c).pending = s.pending := (rfl)

@[simp] theorem setCodes_lines (s : State) (v : Vector RegionCode 9) : (s.setCodes v).lines = s.lines := (rfl)
@[simp] theorem setCodes_classifier (s : State) (v : Vector RegionCode 9) : (s.setCodes v).classifier = s.classifier := (rfl)
@[simp] theorem setCodes_queue (s : State) (v : Vector RegionCode 9) : (s.setCodes v).queue = s.queue := (rfl)
@[simp] theorem setCodes_engine (s : State) (v : Vector RegionCode 9) : (s.setCodes v).engine = s.engine := (rfl)
@[simp] theorem setCodes_nextPos (s : State) (v : Vector RegionCode 9) : (s.setCodes v).nextPos = s.nextPos := (rfl)
@[simp] theorem setCodes_journal (s : State) (v : Vector RegionCode 9) : (s.setCodes v).journal = s.journal := (rfl)
@[simp] theorem setCodes_drain (s : State) (v : Vector RegionCode 9) : (s.setCodes v).drain = s.drain := (rfl)
@[simp] theorem setCodes_port (s : State) (v : Vector RegionCode 9) : (s.setCodes v).port = s.port := (rfl)
@[simp] theorem setCodes_startup (s : State) (v : Vector RegionCode 9) : (s.setCodes v).startup = s.startup := (rfl)
@[simp] theorem setCodes_supply (s : State) (v : Vector RegionCode 9) : (s.setCodes v).supply = s.supply := (rfl)
@[simp] theorem setCodes_faults (s : State) (v : Vector RegionCode 9) : (s.setCodes v).faults = { s.faults with codes := v } := (rfl)
@[simp] theorem setCodes_mgmt (s : State) (v : Vector RegionCode 9) : (s.setCodes v).mgmt = s.mgmt := (rfl)
@[simp] theorem setCodes_memory (s : State) (v : Vector RegionCode 9) : (s.setCodes v).memory = s.memory := (rfl)
@[simp] theorem setCodes_frameLines (s : State) (v : Vector RegionCode 9) : (s.setCodes v).frameLines = s.frameLines := (rfl)
@[simp] theorem setCodes_pending (s : State) (v : Vector RegionCode 9) : (s.setCodes v).pending = s.pending := (rfl)

@[simp] theorem setLatches_lines (s : State) (l : Latches) : (s.setLatches l).lines = s.lines := (rfl)
@[simp] theorem setLatches_classifier (s : State) (l : Latches) : (s.setLatches l).classifier = s.classifier := (rfl)
@[simp] theorem setLatches_queue (s : State) (l : Latches) : (s.setLatches l).queue = s.queue := (rfl)
@[simp] theorem setLatches_engine (s : State) (l : Latches) : (s.setLatches l).engine = s.engine := (rfl)
@[simp] theorem setLatches_nextPos (s : State) (l : Latches) : (s.setLatches l).nextPos = s.nextPos := (rfl)
@[simp] theorem setLatches_journal (s : State) (l : Latches) : (s.setLatches l).journal = s.journal := (rfl)
@[simp] theorem setLatches_drain (s : State) (l : Latches) : (s.setLatches l).drain = s.drain := (rfl)
@[simp] theorem setLatches_port (s : State) (l : Latches) : (s.setLatches l).port = s.port := (rfl)
@[simp] theorem setLatches_startup (s : State) (l : Latches) : (s.setLatches l).startup = s.startup := (rfl)
@[simp] theorem setLatches_supply (s : State) (l : Latches) : (s.setLatches l).supply = { s.supply with latches := l } := (rfl)
@[simp] theorem setLatches_faults (s : State) (l : Latches) : (s.setLatches l).faults = s.faults := (rfl)
@[simp] theorem setLatches_mgmt (s : State) (l : Latches) : (s.setLatches l).mgmt = s.mgmt := (rfl)
@[simp] theorem setLatches_memory (s : State) (l : Latches) : (s.setLatches l).memory = s.memory := (rfl)
@[simp] theorem setLatches_frameLines (s : State) (l : Latches) : (s.setLatches l).frameLines = s.frameLines := (rfl)
@[simp] theorem setLatches_pending (s : State) (l : Latches) : (s.setLatches l).pending = s.pending := (rfl)

@[simp] theorem takeLong_lines (s : State) (c : LongCommand) : (s.takeLong c).lines = s.lines := (rfl)
@[simp] theorem takeLong_classifier (s : State) (c : LongCommand) : (s.takeLong c).classifier = s.classifier := (rfl)
@[simp] theorem takeLong_queue (s : State) (c : LongCommand) : (s.takeLong c).queue = s.queue := (rfl)
@[simp] theorem takeLong_engine (s : State) (c : LongCommand) : (s.takeLong c).engine = s.engine := (rfl)
@[simp] theorem takeLong_nextPos (s : State) (c : LongCommand) : (s.takeLong c).nextPos = s.nextPos := (rfl)
@[simp] theorem takeLong_journal (s : State) (c : LongCommand) : (s.takeLong c).journal = s.journal := (rfl)
@[simp] theorem takeLong_drain (s : State) (c : LongCommand) : (s.takeLong c).drain = s.drain := (rfl)
@[simp] theorem takeLong_port (s : State) (c : LongCommand) : (s.takeLong c).port = s.port := (rfl)
@[simp] theorem takeLong_startup (s : State) (c : LongCommand) : (s.takeLong c).startup = s.startup := (rfl)
@[simp] theorem takeLong_supply (s : State) (c : LongCommand) : (s.takeLong c).supply = s.supply := (rfl)
@[simp] theorem takeLong_faults (s : State) (c : LongCommand) : (s.takeLong c).faults = s.faults := (rfl)
@[simp] theorem takeLong_mgmt (s : State) (c : LongCommand) : (s.takeLong c).mgmt = { s.mgmt with longCmd := some c } := (rfl)
@[simp] theorem takeLong_memory (s : State) (c : LongCommand) : (s.takeLong c).memory = s.memory := (rfl)
@[simp] theorem takeLong_frameLines (s : State) (c : LongCommand) : (s.takeLong c).frameLines = s.frameLines := (rfl)
@[simp] theorem takeLong_pending (s : State) (c : LongCommand) : (s.takeLong c).pending = s.pending := (rfl)

@[simp] theorem flagError_lines (s : State) (b : Bool) : (s.flagError b).lines = s.lines := (rfl)
@[simp] theorem flagError_classifier (s : State) (b : Bool) : (s.flagError b).classifier = s.classifier := (rfl)
@[simp] theorem flagError_queue (s : State) (b : Bool) : (s.flagError b).queue = s.queue := (rfl)
@[simp] theorem flagError_engine (s : State) (b : Bool) : (s.flagError b).engine = s.engine := (rfl)
@[simp] theorem flagError_nextPos (s : State) (b : Bool) : (s.flagError b).nextPos = s.nextPos := (rfl)
@[simp] theorem flagError_journal (s : State) (b : Bool) : (s.flagError b).journal = s.journal := (rfl)
@[simp] theorem flagError_drain (s : State) (b : Bool) : (s.flagError b).drain = s.drain := (rfl)
@[simp] theorem flagError_port (s : State) (b : Bool) : (s.flagError b).port = s.port := (rfl)
@[simp] theorem flagError_startup (s : State) (b : Bool) : (s.flagError b).startup = s.startup := (rfl)
@[simp] theorem flagError_supply (s : State) (b : Bool) : (s.flagError b).supply = s.supply := (rfl)
@[simp] theorem flagError_faults (s : State) (b : Bool) : (s.flagError b).faults = s.faults := (rfl)
@[simp] theorem flagError_mgmt (s : State) (b : Bool) : (s.flagError b).mgmt = { s.mgmt with lastError := b } := (rfl)
@[simp] theorem flagError_memory (s : State) (b : Bool) : (s.flagError b).memory = s.memory := (rfl)
@[simp] theorem flagError_frameLines (s : State) (b : Bool) : (s.flagError b).frameLines = s.frameLines := (rfl)
@[simp] theorem flagError_pending (s : State) (b : Bool) : (s.flagError b).pending = s.pending := (rfl)

@[simp] theorem issue_lines (s : State) (op : Operation) : (s.issue op).lines = s.lines := (rfl)
@[simp] theorem issue_classifier (s : State) (op : Operation) : (s.issue op).classifier = s.classifier := (rfl)
@[simp] theorem issue_queue (s : State) (op : Operation) : (s.issue op).queue = s.queue := (rfl)
@[simp] theorem issue_engine (s : State) (op : Operation) : (s.issue op).engine = s.engine := (rfl)
@[simp] theorem issue_nextPos (s : State) (op : Operation) : (s.issue op).nextPos = s.nextPos := (rfl)
@[simp] theorem issue_journal (s : State) (op : Operation) : (s.issue op).journal = s.journal := (rfl)
@[simp] theorem issue_drain (s : State) (op : Operation) : (s.issue op).drain = s.drain := (rfl)
@[simp] theorem issue_port (s : State) (op : Operation) : (s.issue op).port = { s.port with op := some op } := (rfl)
@[simp] theorem issue_startup (s : State) (op : Operation) : (s.issue op).startup = s.startup := (rfl)
@[simp] theorem issue_supply (s : State) (op : Operation) : (s.issue op).supply = s.supply := (rfl)
@[simp] theorem issue_faults (s : State) (op : Operation) : (s.issue op).faults = s.faults := (rfl)
@[simp] theorem issue_mgmt (s : State) (op : Operation) : (s.issue op).mgmt = s.mgmt := (rfl)
@[simp] theorem issue_memory (s : State) (op : Operation) : (s.issue op).memory = s.memory := (rfl)
@[simp] theorem issue_frameLines (s : State) (op : Operation) : (s.issue op).frameLines = s.frameLines := (rfl)
@[simp] theorem issue_pending (s : State) (op : Operation) : (s.issue op).pending = s.pending := (rfl)

@[simp] theorem grantedTo_lines (s : State) (c : PortClass) : (s.grantedTo c).lines = s.lines := (rfl)
@[simp] theorem grantedTo_classifier (s : State) (c : PortClass) : (s.grantedTo c).classifier = s.classifier := (rfl)
@[simp] theorem grantedTo_queue (s : State) (c : PortClass) : (s.grantedTo c).queue = s.queue := (rfl)
@[simp] theorem grantedTo_engine (s : State) (c : PortClass) : (s.grantedTo c).engine = s.engine := (rfl)
@[simp] theorem grantedTo_nextPos (s : State) (c : PortClass) : (s.grantedTo c).nextPos = s.nextPos := (rfl)
@[simp] theorem grantedTo_journal (s : State) (c : PortClass) : (s.grantedTo c).journal = s.journal := (rfl)
@[simp] theorem grantedTo_drain (s : State) (c : PortClass) : (s.grantedTo c).drain = s.drain := (rfl)
@[simp] theorem grantedTo_port (s : State) (c : PortClass) : (s.grantedTo c).port = { s.port with lastClass := c } := (rfl)
@[simp] theorem grantedTo_startup (s : State) (c : PortClass) : (s.grantedTo c).startup = s.startup := (rfl)
@[simp] theorem grantedTo_supply (s : State) (c : PortClass) : (s.grantedTo c).supply = s.supply := (rfl)
@[simp] theorem grantedTo_faults (s : State) (c : PortClass) : (s.grantedTo c).faults = s.faults := (rfl)
@[simp] theorem grantedTo_mgmt (s : State) (c : PortClass) : (s.grantedTo c).mgmt = s.mgmt := (rfl)
@[simp] theorem grantedTo_memory (s : State) (c : PortClass) : (s.grantedTo c).memory = s.memory := (rfl)
@[simp] theorem grantedTo_frameLines (s : State) (c : PortClass) : (s.grantedTo c).frameLines = s.frameLines := (rfl)
@[simp] theorem grantedTo_pending (s : State) (c : PortClass) : (s.grantedTo c).pending = s.pending := (rfl)

@[simp] theorem setProcedure_lines (s : State) (p : Procedure) : (s.setProcedure p).lines = s.lines := (rfl)
@[simp] theorem setProcedure_classifier (s : State) (p : Procedure) : (s.setProcedure p).classifier = s.classifier := (rfl)
@[simp] theorem setProcedure_queue (s : State) (p : Procedure) : (s.setProcedure p).queue = s.queue := (rfl)
@[simp] theorem setProcedure_engine (s : State) (p : Procedure) : (s.setProcedure p).engine = s.engine := (rfl)
@[simp] theorem setProcedure_nextPos (s : State) (p : Procedure) : (s.setProcedure p).nextPos = s.nextPos := (rfl)
@[simp] theorem setProcedure_journal (s : State) (p : Procedure) : (s.setProcedure p).journal = s.journal := (rfl)
@[simp] theorem setProcedure_drain (s : State) (p : Procedure) : (s.setProcedure p).drain = s.drain := (rfl)
@[simp] theorem setProcedure_port (s : State) (p : Procedure) : (s.setProcedure p).port = s.port := (rfl)
@[simp] theorem setProcedure_startup (s : State) (p : Procedure) : (s.setProcedure p).startup = { s.startup with procedure := p } := (rfl)
@[simp] theorem setProcedure_supply (s : State) (p : Procedure) : (s.setProcedure p).supply = s.supply := (rfl)
@[simp] theorem setProcedure_faults (s : State) (p : Procedure) : (s.setProcedure p).faults = s.faults := (rfl)
@[simp] theorem setProcedure_mgmt (s : State) (p : Procedure) : (s.setProcedure p).mgmt = s.mgmt := (rfl)
@[simp] theorem setProcedure_memory (s : State) (p : Procedure) : (s.setProcedure p).memory = s.memory := (rfl)
@[simp] theorem setProcedure_frameLines (s : State) (p : Procedure) : (s.setProcedure p).frameLines = s.frameLines := (rfl)
@[simp] theorem setProcedure_pending (s : State) (p : Procedure) : (s.setProcedure p).pending = s.pending := (rfl)

@[simp] theorem setEvents_lines (s : State) (e m : BitVec 9) (v : Bool) : (s.setEvents e m v).lines = s.lines := (rfl)
@[simp] theorem setEvents_classifier (s : State) (e m : BitVec 9) (v : Bool) : (s.setEvents e m v).classifier = s.classifier := (rfl)
@[simp] theorem setEvents_queue (s : State) (e m : BitVec 9) (v : Bool) : (s.setEvents e m v).queue = s.queue := (rfl)
@[simp] theorem setEvents_engine (s : State) (e m : BitVec 9) (v : Bool) : (s.setEvents e m v).engine = s.engine := (rfl)
@[simp] theorem setEvents_nextPos (s : State) (e m : BitVec 9) (v : Bool) : (s.setEvents e m v).nextPos = s.nextPos := (rfl)
@[simp] theorem setEvents_journal (s : State) (e m : BitVec 9) (v : Bool) : (s.setEvents e m v).journal = s.journal := (rfl)
@[simp] theorem setEvents_drain (s : State) (e m : BitVec 9) (v : Bool) : (s.setEvents e m v).drain = s.drain := (rfl)
@[simp] theorem setEvents_port (s : State) (e m : BitVec 9) (v : Bool) : (s.setEvents e m v).port = s.port := (rfl)
@[simp] theorem setEvents_startup (s : State) (e m : BitVec 9) (v : Bool) : (s.setEvents e m v).startup = s.startup := (rfl)
@[simp] theorem setEvents_supply (s : State) (e m : BitVec 9) (v : Bool) : (s.setEvents e m v).supply = s.supply := (rfl)
@[simp] theorem setEvents_faults (s : State) (e m : BitVec 9) (v : Bool) : (s.setEvents e m v).faults = { s.faults with events := e, mask := m, visible := v, irqLow := irqCondition e m } := (rfl)
@[simp] theorem setEvents_mgmt (s : State) (e m : BitVec 9) (v : Bool) : (s.setEvents e m v).mgmt = s.mgmt := (rfl)
@[simp] theorem setEvents_memory (s : State) (e m : BitVec 9) (v : Bool) : (s.setEvents e m v).memory = s.memory := (rfl)
@[simp] theorem setEvents_frameLines (s : State) (e m : BitVec 9) (v : Bool) : (s.setEvents e m v).frameLines = s.frameLines := (rfl)
@[simp] theorem setEvents_pending (s : State) (e m : BitVec 9) (v : Bool) : (s.setEvents e m v).pending = s.pending := (rfl)

@[simp] theorem setEntry_lines (s : State) (p : Fin 4) (e : Option DelayedEntry) : (s.setEntry p e).lines = s.lines := (rfl)
@[simp] theorem setEntry_classifier (s : State) (p : Fin 4) (e : Option DelayedEntry) : (s.setEntry p e).classifier = s.classifier := (rfl)
@[simp] theorem setEntry_queue (s : State) (p : Fin 4) (e : Option DelayedEntry) : (s.setEntry p e).queue = s.queue := (rfl)
@[simp] theorem setEntry_engine (s : State) (p : Fin 4) (e : Option DelayedEntry) : (s.setEntry p e).engine = { s.engine with table := s.engine.table.set p e } := (rfl)
@[simp] theorem setEntry_nextPos (s : State) (p : Fin 4) (e : Option DelayedEntry) : (s.setEntry p e).nextPos = s.nextPos := (rfl)
@[simp] theorem setEntry_journal (s : State) (p : Fin 4) (e : Option DelayedEntry) : (s.setEntry p e).journal = s.journal := (rfl)
@[simp] theorem setEntry_drain (s : State) (p : Fin 4) (e : Option DelayedEntry) : (s.setEntry p e).drain = s.drain := (rfl)
@[simp] theorem setEntry_port (s : State) (p : Fin 4) (e : Option DelayedEntry) : (s.setEntry p e).port = s.port := (rfl)
@[simp] theorem setEntry_startup (s : State) (p : Fin 4) (e : Option DelayedEntry) : (s.setEntry p e).startup = s.startup := (rfl)
@[simp] theorem setEntry_supply (s : State) (p : Fin 4) (e : Option DelayedEntry) : (s.setEntry p e).supply = s.supply := (rfl)
@[simp] theorem setEntry_faults (s : State) (p : Fin 4) (e : Option DelayedEntry) : (s.setEntry p e).faults = s.faults := (rfl)
@[simp] theorem setEntry_mgmt (s : State) (p : Fin 4) (e : Option DelayedEntry) : (s.setEntry p e).mgmt = s.mgmt := (rfl)
@[simp] theorem setEntry_memory (s : State) (p : Fin 4) (e : Option DelayedEntry) : (s.setEntry p e).memory = s.memory := (rfl)
@[simp] theorem setEntry_frameLines (s : State) (p : Fin 4) (e : Option DelayedEntry) : (s.setEntry p e).frameLines = s.frameLines := (rfl)
@[simp] theorem setEntry_pending (s : State) (p : Fin 4) (e : Option DelayedEntry) : (s.setEntry p e).pending = s.pending := (rfl)

@[simp] theorem setSlot_lines (s : State) (i : Fin 8) (x : Slot) : (s.setSlot i x).lines = s.lines := (rfl)
@[simp] theorem setSlot_classifier (s : State) (i : Fin 8) (x : Slot) : (s.setSlot i x).classifier = s.classifier := (rfl)
@[simp] theorem setSlot_queue (s : State) (i : Fin 8) (x : Slot) : (s.setSlot i x).queue = s.queue := (rfl)
@[simp] theorem setSlot_engine (s : State) (i : Fin 8) (x : Slot) : (s.setSlot i x).engine = { s.engine with slots := s.engine.slots.set i x } := (rfl)
@[simp] theorem setSlot_nextPos (s : State) (i : Fin 8) (x : Slot) : (s.setSlot i x).nextPos = s.nextPos := (rfl)
@[simp] theorem setSlot_journal (s : State) (i : Fin 8) (x : Slot) : (s.setSlot i x).journal = s.journal := (rfl)
@[simp] theorem setSlot_drain (s : State) (i : Fin 8) (x : Slot) : (s.setSlot i x).drain = s.drain := (rfl)
@[simp] theorem setSlot_port (s : State) (i : Fin 8) (x : Slot) : (s.setSlot i x).port = s.port := (rfl)
@[simp] theorem setSlot_startup (s : State) (i : Fin 8) (x : Slot) : (s.setSlot i x).startup = s.startup := (rfl)
@[simp] theorem setSlot_supply (s : State) (i : Fin 8) (x : Slot) : (s.setSlot i x).supply = s.supply := (rfl)
@[simp] theorem setSlot_faults (s : State) (i : Fin 8) (x : Slot) : (s.setSlot i x).faults = s.faults := (rfl)
@[simp] theorem setSlot_mgmt (s : State) (i : Fin 8) (x : Slot) : (s.setSlot i x).mgmt = s.mgmt := (rfl)
@[simp] theorem setSlot_memory (s : State) (i : Fin 8) (x : Slot) : (s.setSlot i x).memory = s.memory := (rfl)
@[simp] theorem setSlot_frameLines (s : State) (i : Fin 8) (x : Slot) : (s.setSlot i x).frameLines = s.frameLines := (rfl)
@[simp] theorem setSlot_pending (s : State) (i : Fin 8) (x : Slot) : (s.setSlot i x).pending = s.pending := (rfl)

@[simp] theorem freePort_lines (s : State) : (s.freePort).lines = s.lines := (rfl)
@[simp] theorem freePort_classifier (s : State) : (s.freePort).classifier = s.classifier := (rfl)
@[simp] theorem freePort_queue (s : State) : (s.freePort).queue = s.queue := (rfl)
@[simp] theorem freePort_engine (s : State) : (s.freePort).engine = s.engine := (rfl)
@[simp] theorem freePort_nextPos (s : State) : (s.freePort).nextPos = s.nextPos := (rfl)
@[simp] theorem freePort_journal (s : State) : (s.freePort).journal = s.journal := (rfl)
@[simp] theorem freePort_drain (s : State) : (s.freePort).drain = s.drain := (rfl)
@[simp] theorem freePort_port (s : State) : (s.freePort).port = { s.port with op := none } := (rfl)
@[simp] theorem freePort_startup (s : State) : (s.freePort).startup = s.startup := (rfl)
@[simp] theorem freePort_supply (s : State) : (s.freePort).supply = s.supply := (rfl)
@[simp] theorem freePort_faults (s : State) : (s.freePort).faults = s.faults := (rfl)
@[simp] theorem freePort_mgmt (s : State) : (s.freePort).mgmt = s.mgmt := (rfl)
@[simp] theorem freePort_memory (s : State) : (s.freePort).memory = s.memory := (rfl)
@[simp] theorem freePort_frameLines (s : State) : (s.freePort).frameLines = s.frameLines := (rfl)
@[simp] theorem freePort_pending (s : State) : (s.freePort).pending = s.pending := (rfl)

@[simp] theorem answerTo_lines (s : State) (r : Request) (a : Answer) (d : Line) : (s.answerTo r a d).lines = ⟨some ⟨r.initiator, r.kind, a, d⟩⟩ := (rfl)
@[simp] theorem answerTo_classifier (s : State) (r : Request) (a : Answer) (d : Line) : (s.answerTo r a d).classifier = s.classifier := (rfl)
@[simp] theorem answerTo_queue (s : State) (r : Request) (a : Answer) (d : Line) : (s.answerTo r a d).queue = s.queue := (rfl)
@[simp] theorem answerTo_engine (s : State) (r : Request) (a : Answer) (d : Line) : (s.answerTo r a d).engine = s.engine := (rfl)
@[simp] theorem answerTo_nextPos (s : State) (r : Request) (a : Answer) (d : Line) : (s.answerTo r a d).nextPos = s.nextPos := (rfl)
@[simp] theorem answerTo_journal (s : State) (r : Request) (a : Answer) (d : Line) : (s.answerTo r a d).journal = s.journal := (rfl)
@[simp] theorem answerTo_drain (s : State) (r : Request) (a : Answer) (d : Line) : (s.answerTo r a d).drain = s.drain := (rfl)
@[simp] theorem answerTo_port (s : State) (r : Request) (a : Answer) (d : Line) : (s.answerTo r a d).port = s.port := (rfl)
@[simp] theorem answerTo_startup (s : State) (r : Request) (a : Answer) (d : Line) : (s.answerTo r a d).startup = s.startup := (rfl)
@[simp] theorem answerTo_supply (s : State) (r : Request) (a : Answer) (d : Line) : (s.answerTo r a d).supply = s.supply := (rfl)
@[simp] theorem answerTo_faults (s : State) (r : Request) (a : Answer) (d : Line) : (s.answerTo r a d).faults = s.faults := (rfl)
@[simp] theorem answerTo_mgmt (s : State) (r : Request) (a : Answer) (d : Line) : (s.answerTo r a d).mgmt = s.mgmt := (rfl)
@[simp] theorem answerTo_memory (s : State) (r : Request) (a : Answer) (d : Line) : (s.answerTo r a d).memory = s.memory := (rfl)
@[simp] theorem answerTo_frameLines (s : State) (r : Request) (a : Answer) (d : Line) : (s.answerTo r a d).frameLines = s.frameLines := (rfl)
@[simp] theorem answerTo_pending (s : State) (r : Request) (a : Answer) (d : Line) : (s.answerTo r a d).pending = s.pending := (rfl)

@[simp] theorem setFrameLines_lines (s : State) (q : List FrameEdge) : (s.setFrameLines q).lines = s.lines := (rfl)
@[simp] theorem setFrameLines_classifier (s : State) (q : List FrameEdge) : (s.setFrameLines q).classifier = s.classifier := (rfl)
@[simp] theorem setFrameLines_queue (s : State) (q : List FrameEdge) : (s.setFrameLines q).queue = s.queue := (rfl)
@[simp] theorem setFrameLines_engine (s : State) (q : List FrameEdge) : (s.setFrameLines q).engine = s.engine := (rfl)
@[simp] theorem setFrameLines_nextPos (s : State) (q : List FrameEdge) : (s.setFrameLines q).nextPos = s.nextPos := (rfl)
@[simp] theorem setFrameLines_journal (s : State) (q : List FrameEdge) : (s.setFrameLines q).journal = s.journal := (rfl)
@[simp] theorem setFrameLines_drain (s : State) (q : List FrameEdge) : (s.setFrameLines q).drain = s.drain := (rfl)
@[simp] theorem setFrameLines_port (s : State) (q : List FrameEdge) : (s.setFrameLines q).port = s.port := (rfl)
@[simp] theorem setFrameLines_startup (s : State) (q : List FrameEdge) : (s.setFrameLines q).startup = s.startup := (rfl)
@[simp] theorem setFrameLines_supply (s : State) (q : List FrameEdge) : (s.setFrameLines q).supply = s.supply := (rfl)
@[simp] theorem setFrameLines_faults (s : State) (q : List FrameEdge) : (s.setFrameLines q).faults = s.faults := (rfl)
@[simp] theorem setFrameLines_mgmt (s : State) (q : List FrameEdge) : (s.setFrameLines q).mgmt = s.mgmt := (rfl)
@[simp] theorem setFrameLines_memory (s : State) (q : List FrameEdge) : (s.setFrameLines q).memory = s.memory := (rfl)
@[simp] theorem setFrameLines_frameLines (s : State) (q : List FrameEdge) : (s.setFrameLines q).frameLines = q := (rfl)
@[simp] theorem setFrameLines_pending (s : State) (q : List FrameEdge) : (s.setFrameLines q).pending = s.pending := (rfl)

@[simp] theorem endRequest_lines (s : State) (r : List Byte) : (s.endRequest r).lines = s.lines := (rfl)
@[simp] theorem endRequest_classifier (s : State) (r : List Byte) : (s.endRequest r).classifier = s.classifier := (rfl)
@[simp] theorem endRequest_queue (s : State) (r : List Byte) : (s.endRequest r).queue = s.queue := (rfl)
@[simp] theorem endRequest_engine (s : State) (r : List Byte) : (s.endRequest r).engine = s.engine := (rfl)
@[simp] theorem endRequest_nextPos (s : State) (r : List Byte) : (s.endRequest r).nextPos = s.nextPos := (rfl)
@[simp] theorem endRequest_journal (s : State) (r : List Byte) : (s.endRequest r).journal = s.journal := (rfl)
@[simp] theorem endRequest_drain (s : State) (r : List Byte) : (s.endRequest r).drain = s.drain := (rfl)
@[simp] theorem endRequest_port (s : State) (r : List Byte) : (s.endRequest r).port = s.port := (rfl)
@[simp] theorem endRequest_startup (s : State) (r : List Byte) : (s.endRequest r).startup = s.startup := (rfl)
@[simp] theorem endRequest_supply (s : State) (r : List Byte) : (s.endRequest r).supply = s.supply := (rfl)
@[simp] theorem endRequest_faults (s : State) (r : List Byte) : (s.endRequest r).faults = s.faults := (rfl)
@[simp] theorem endRequest_mgmt (s : State) (r : List Byte) : (s.endRequest r).mgmt = { s.mgmt with
      frame := .request, bits := [], mdoLine := some true, received := r, response := [], sent := 0
      lastError := false } := (rfl)
@[simp] theorem endRequest_memory (s : State) (r : List Byte) : (s.endRequest r).memory = s.memory := (rfl)
@[simp] theorem endRequest_frameLines (s : State) (r : List Byte) : (s.endRequest r).frameLines = s.frameLines := (rfl)
@[simp] theorem endRequest_pending (s : State) (r : List Byte) : (s.endRequest r).pending = s.pending := (rfl)

@[simp] theorem leaveFrame_lines (s : State) : (s.leaveFrame).lines = s.lines := (rfl)
@[simp] theorem leaveFrame_classifier (s : State) : (s.leaveFrame).classifier = s.classifier := (rfl)
@[simp] theorem leaveFrame_queue (s : State) : (s.leaveFrame).queue = s.queue := (rfl)
@[simp] theorem leaveFrame_engine (s : State) : (s.leaveFrame).engine = s.engine := (rfl)
@[simp] theorem leaveFrame_nextPos (s : State) : (s.leaveFrame).nextPos = s.nextPos := (rfl)
@[simp] theorem leaveFrame_journal (s : State) : (s.leaveFrame).journal = s.journal := (rfl)
@[simp] theorem leaveFrame_drain (s : State) : (s.leaveFrame).drain = s.drain := (rfl)
@[simp] theorem leaveFrame_port (s : State) : (s.leaveFrame).port = s.port := (rfl)
@[simp] theorem leaveFrame_startup (s : State) : (s.leaveFrame).startup = s.startup := (rfl)
@[simp] theorem leaveFrame_supply (s : State) : (s.leaveFrame).supply = s.supply := (rfl)
@[simp] theorem leaveFrame_faults (s : State) : (s.leaveFrame).faults = s.faults := (rfl)
@[simp] theorem leaveFrame_mgmt (s : State) : (s.leaveFrame).mgmt = { s.mgmt with
      frame := .idle, bits := [], mdoLine := none, received := [], response := [], sent := 0 } := (rfl)
@[simp] theorem leaveFrame_memory (s : State) : (s.leaveFrame).memory = s.memory := (rfl)
@[simp] theorem leaveFrame_frameLines (s : State) : (s.leaveFrame).frameLines = s.frameLines := (rfl)
@[simp] theorem leaveFrame_pending (s : State) : (s.leaveFrame).pending = s.pending := (rfl)

@[simp] theorem driveMdo_lines (s : State) (b : Option Bool) : (s.driveMdo b).lines = s.lines := (rfl)
@[simp] theorem driveMdo_classifier (s : State) (b : Option Bool) : (s.driveMdo b).classifier = s.classifier := (rfl)
@[simp] theorem driveMdo_queue (s : State) (b : Option Bool) : (s.driveMdo b).queue = s.queue := (rfl)
@[simp] theorem driveMdo_engine (s : State) (b : Option Bool) : (s.driveMdo b).engine = s.engine := (rfl)
@[simp] theorem driveMdo_nextPos (s : State) (b : Option Bool) : (s.driveMdo b).nextPos = s.nextPos := (rfl)
@[simp] theorem driveMdo_journal (s : State) (b : Option Bool) : (s.driveMdo b).journal = s.journal := (rfl)
@[simp] theorem driveMdo_drain (s : State) (b : Option Bool) : (s.driveMdo b).drain = s.drain := (rfl)
@[simp] theorem driveMdo_port (s : State) (b : Option Bool) : (s.driveMdo b).port = s.port := (rfl)
@[simp] theorem driveMdo_startup (s : State) (b : Option Bool) : (s.driveMdo b).startup = s.startup := (rfl)
@[simp] theorem driveMdo_supply (s : State) (b : Option Bool) : (s.driveMdo b).supply = s.supply := (rfl)
@[simp] theorem driveMdo_faults (s : State) (b : Option Bool) : (s.driveMdo b).faults = s.faults := (rfl)
@[simp] theorem driveMdo_mgmt (s : State) (b : Option Bool) : (s.driveMdo b).mgmt = { s.mgmt with mdoLine := b } := (rfl)
@[simp] theorem driveMdo_memory (s : State) (b : Option Bool) : (s.driveMdo b).memory = s.memory := (rfl)
@[simp] theorem driveMdo_frameLines (s : State) (b : Option Bool) : (s.driveMdo b).frameLines = s.frameLines := (rfl)
@[simp] theorem driveMdo_pending (s : State) (b : Option Bool) : (s.driveMdo b).pending = s.pending := (rfl)

end Sys2Proof.Machine.State

namespace Sys2Proof.Machine.Journal

@[simp] theorem record_basePage (j : Journal) (l : Nat) : (j.record l).basePage = j.basePage := (rfl)
@[simp] theorem record_sizePages (j : Journal) (l : Nat) : (j.record l).sizePages = j.sizePages := (rfl)
@[simp] theorem record_state (j : Journal) (l : Nat) : (j.record l).state = j.state := (rfl)
@[simp] theorem record_epoch (j : Journal) (l : Nat) : (j.record l).epoch = j.epoch := (rfl)
@[simp] theorem record_written (j : Journal) (l : Nat) : (j.record l).written = j.written := (rfl)

@[simp] theorem clear_basePage (j : Journal) (e : BitVec 32) : (j.clear e).basePage = j.basePage := (rfl)
@[simp] theorem clear_sizePages (j : Journal) (e : BitVec 32) : (j.clear e).sizePages = j.sizePages := (rfl)
@[simp] theorem clear_state (j : Journal) (e : BitVec 32) : (j.clear e).state = j.state := (rfl)
@[simp] theorem clear_epoch (j : Journal) (e : BitVec 32) : (j.clear e).epoch = e := (rfl)
@[simp] theorem clear_written (j : Journal) (e : BitVec 32) : (j.clear e).written = 0 := (rfl)
@[simp] theorem clear_lineSet (j : Journal) (e : BitVec 32) : (j.clear e).lineSet = [] := (rfl)

end Sys2Proof.Machine.Journal

namespace Sys2Proof.Machine.Engine

@[simp] theorem empty_claimTimeout (g : Engine) : (g.empty).claimTimeout = g.claimTimeout := (rfl)
@[simp] theorem freeBuffer_claimTimeout (g : Engine) : (g.freeBuffer).claimTimeout = g.claimTimeout := (rfl)
@[simp] theorem refresh_claimTimeout (g : Engine) (l n : Nat) : (g.refresh l n).claimTimeout = g.claimTimeout := (rfl)
@[simp] theorem empty_prefetchDepth (g : Engine) : (g.empty).prefetchDepth = g.prefetchDepth := (rfl)
@[simp] theorem freeBuffer_prefetchDepth (g : Engine) : (g.freeBuffer).prefetchDepth = g.prefetchDepth := (rfl)
@[simp] theorem refresh_prefetchDepth (g : Engine) (l n : Nat) : (g.refresh l n).prefetchDepth = g.prefetchDepth := (rfl)
@[simp] theorem empty_nextAge (g : Engine) : (g.empty).nextAge = g.nextAge := (rfl)
@[simp] theorem freeBuffer_nextAge (g : Engine) : (g.freeBuffer).nextAge = g.nextAge := (rfl)
@[simp] theorem refresh_nextAge (g : Engine) (l n : Nat) : (g.refresh l n).nextAge = g.nextAge := (rfl)
@[simp] theorem empty_table (g : Engine) : g.empty.table = Vector.replicate 4 none := (rfl)
@[simp] theorem empty_slots (g : Engine) : g.empty.slots = Vector.replicate 8 .free := (rfl)
@[simp] theorem empty_prefetch (g : Engine) : g.empty.prefetch = [] := (rfl)
@[simp] theorem freeBuffer_table (g : Engine) : g.freeBuffer.table = g.table := (rfl)
@[simp] theorem freeBuffer_prefetch (g : Engine) : g.freeBuffer.prefetch = [] := (rfl)

end Sys2Proof.Machine.Engine
end

