-- ==== Sys2Proof/Laws/FlagFrames.lean ====
section
/-! SUPPORT. What the shared flag, event and journal operations leave unchanged, one lemma for each operation. -/

namespace Sys2Proof.Machine.State

@[simp] theorem raise_frame (s : State) (k : EventKind) :
    (s.raise k).lines = s.lines ∧ (s.raise k).classifier = s.classifier ∧ (s.raise k).queue = s.queue ∧
    (s.raise k).engine = s.engine ∧ (s.raise k).nextPos = s.nextPos ∧ (s.raise k).journal = s.journal ∧
    (s.raise k).drain = s.drain ∧ (s.raise k).port = s.port ∧ (s.raise k).startup = s.startup ∧ (s.raise
    k).supply = s.supply ∧ (s.raise k).mgmt = s.mgmt ∧ (s.raise k).memory = s.memory ∧
    (s.raise k).frameLines = s.frameLines ∧ (s.raise k).pending = s.pending := by
  simp only [raise]
  repeat' split
  all_goals simp

@[simp] theorem count_frame (s : State) (k : CounterKind) :
    (s.count k).lines = s.lines ∧ (s.count k).classifier = s.classifier ∧ (s.count k).queue = s.queue ∧
    (s.count k).engine = s.engine ∧ (s.count k).nextPos = s.nextPos ∧ (s.count k).journal = s.journal ∧
    (s.count k).drain = s.drain ∧ (s.count k).port = s.port ∧ (s.count k).startup = s.startup ∧ (s.count
    k).supply = s.supply ∧ (s.count k).mgmt = s.mgmt ∧ (s.count k).memory = s.memory ∧
    (s.count k).frameLines = s.frameLines ∧ (s.count k).pending = s.pending := by
  simp only [count]
  repeat' split
  all_goals simp

@[simp] theorem report_frame (s : State) (r : Fin 9) (c : RegionCode) :
    (s.report r c).lines = s.lines ∧ (s.report r c).classifier = s.classifier ∧ (s.report r c).queue = s.queue
    ∧ (s.report r c).engine = s.engine ∧ (s.report r c).nextPos = s.nextPos ∧ (s.report r c).journal =
    s.journal ∧ (s.report r c).drain = s.drain ∧ (s.report r c).port = s.port ∧ (s.report r c).startup =
    s.startup ∧ (s.report r c).supply = s.supply ∧ (s.report r c).mgmt = s.mgmt ∧ (s.report r c).memory =
    s.memory ∧ (s.report r c).frameLines = s.frameLines ∧ (s.report r c).pending = s.pending := by
  simp only [report]
  repeat' split
  all_goals simp

@[simp] theorem setLatch_frame (s : State) (k : InhibitSource) :
    (s.setLatch k).lines = s.lines ∧ (s.setLatch k).classifier = s.classifier ∧ (s.setLatch k).queue = s.queue
    ∧ (s.setLatch k).engine = s.engine ∧ (s.setLatch k).nextPos = s.nextPos ∧ (s.setLatch k).journal =
    s.journal ∧ (s.setLatch k).drain = s.drain ∧ (s.setLatch k).port = s.port ∧ (s.setLatch k).startup =
    s.startup ∧ (s.setLatch k).mgmt = s.mgmt ∧ (s.setLatch k).memory = s.memory ∧
    (s.setLatch k).frameLines = s.frameLines ∧ (s.setLatch k).pending = s.pending := by
  simp only [setLatch]
  repeat' split
  all_goals simp

@[simp] theorem setJournalState_frame (s : State) (x : JournalState) :
    (s.setJournalState x).lines = s.lines ∧ (s.setJournalState x).classifier = s.classifier ∧
    (s.setJournalState x).queue = s.queue ∧ (s.setJournalState x).engine = s.engine ∧ (s.setJournalState
    x).nextPos = s.nextPos ∧ (s.setJournalState x).drain = s.drain ∧ (s.setJournalState x).port = s.port ∧
    (s.setJournalState x).startup = s.startup ∧ (s.setJournalState x).mgmt = s.mgmt ∧ (s.setJournalState
    x).memory = s.memory ∧ (s.setJournalState x).frameLines = s.frameLines ∧
    (s.setJournalState x).pending = s.pending := by
  simp only [setJournalState]
  repeat' split
  all_goals simp

@[simp] theorem endLong_frame (s : State) (r : LongResult) :
    (s.endLong r).lines = s.lines ∧ (s.endLong r).classifier = s.classifier ∧ (s.endLong r).queue = s.queue ∧
    (s.endLong r).engine = s.engine ∧ (s.endLong r).nextPos = s.nextPos ∧ (s.endLong r).journal = s.journal ∧
    (s.endLong r).drain = s.drain ∧ (s.endLong r).port = s.port ∧ (s.endLong r).startup = s.startup ∧
    (s.endLong r).supply = s.supply ∧ (s.endLong r).memory = s.memory ∧ (s.endLong r).frameLines = s.frameLines ∧
    (s.endLong r).pending = s.pending := by
  simp only [endLong]
  all_goals simp

@[simp] theorem listFailure_frame (s : State) (op : Operation) :
    (s.listFailure op).lines = s.lines ∧ (s.listFailure op).classifier = s.classifier ∧ (s.listFailure
    op).queue = s.queue ∧ (s.listFailure op).engine = s.engine ∧ (s.listFailure op).nextPos = s.nextPos ∧
    (s.listFailure op).journal = s.journal ∧ (s.listFailure op).drain = s.drain ∧ (s.listFailure op).startup =
    s.startup ∧ (s.listFailure op).supply = s.supply ∧ (s.listFailure op).mgmt = s.mgmt ∧ (s.listFailure
    op).memory = s.memory ∧ (s.listFailure op).frameLines = s.frameLines ∧ (s.listFailure op).pending = s.pending := by
  simp only [listFailure]
  repeat' split
  all_goals simp

@[simp] theorem takeReservation_frame (s : State) (k : ReservationKind) (l : Nat) :
    (s.takeReservation k l).lines = s.lines ∧ (s.takeReservation k l).classifier = s.classifier ∧
    (s.takeReservation k l).queue = s.queue ∧ (s.takeReservation k l).engine = s.engine ∧ (s.takeReservation k
    l).nextPos = s.nextPos ∧ (s.takeReservation k l).drain = s.drain ∧ (s.takeReservation k l).port = s.port ∧
    (s.takeReservation k l).startup = s.startup ∧ (s.takeReservation k l).supply = s.supply ∧
    (s.takeReservation k l).faults = s.faults ∧ (s.takeReservation k l).mgmt = s.mgmt ∧ (s.takeReservation k
    l).memory = s.memory ∧ (s.takeReservation k l).frameLines = s.frameLines ∧
    (s.takeReservation k l).pending = s.pending := by cases k <;> simp [takeReservation]

end Sys2Proof.Machine.State
end

