-- ==== Sys2Proof/Laws/EngineFrames.lean ====
section
/-! SUPPORT. What the operations of the delayed request engine and of the drain leave unchanged, one lemma for each operation. -/

namespace Sys2Proof.Machine.State

@[simp] theorem completeEntry_frame (s : State) (p : Fin 4) (e : DelayedEntry) (r : EntryResult) (x : Option (Fin 8)) :
    (s.completeEntry p e r x).lines = s.lines ∧ (s.completeEntry p e r x).classifier = s.classifier ∧
    (s.completeEntry p e r x).queue = s.queue ∧ (s.completeEntry p e r x).nextPos = s.nextPos ∧
    (s.completeEntry p e r x).journal = s.journal ∧ (s.completeEntry p e r x).drain = s.drain ∧
    (s.completeEntry p e r x).port = s.port ∧ (s.completeEntry p e r x).startup = s.startup ∧ (s.completeEntry
    p e r x).supply = s.supply ∧ (s.completeEntry p e r x).faults = s.faults ∧ (s.completeEntry p e r x).mgmt
    = s.mgmt ∧ (s.completeEntry p e r x).memory = s.memory ∧ (s.completeEntry p e r x).frameLines = s.frameLines ∧
    (s.completeEntry p e r x).pending = s.pending := by
  simp only [completeEntry]
  all_goals simp

@[simp] theorem adopt_frame (s : State) (i : Fin 8) :
    (s.adopt i).lines = s.lines ∧ (s.adopt i).classifier = s.classifier ∧ (s.adopt i).queue = s.queue ∧
    (s.adopt i).nextPos = s.nextPos ∧ (s.adopt i).journal = s.journal ∧ (s.adopt i).drain = s.drain ∧ (s.adopt
    i).port = s.port ∧ (s.adopt i).startup = s.startup ∧ (s.adopt i).supply = s.supply ∧ (s.adopt i).mgmt =
    s.mgmt ∧ (s.adopt i).memory = s.memory ∧ (s.adopt i).frameLines = s.frameLines ∧
    (s.adopt i).pending = s.pending := by
  simp only [adopt]
  repeat' split
  all_goals simp

@[simp] theorem releaseSlot_frame (s : State) (x : Option (Fin 8)) :
    (s.releaseSlot x).lines = s.lines ∧ (s.releaseSlot x).classifier = s.classifier ∧ (s.releaseSlot x).queue
    = s.queue ∧ (s.releaseSlot x).nextPos = s.nextPos ∧ (s.releaseSlot x).journal = s.journal ∧ (s.releaseSlot
    x).drain = s.drain ∧ (s.releaseSlot x).port = s.port ∧ (s.releaseSlot x).startup = s.startup ∧
    (s.releaseSlot x).supply = s.supply ∧ (s.releaseSlot x).mgmt = s.mgmt ∧ (s.releaseSlot x).memory =
    s.memory ∧ (s.releaseSlot x).frameLines = s.frameLines ∧ (s.releaseSlot x).pending = s.pending := by
  simp only [releaseSlot]
  repeat' split
  all_goals simp

@[simp] theorem removeEntry_frame (s : State) (p : Fin 4) (e : DelayedEntry) :
    (s.removeEntry p e).lines = s.lines ∧ (s.removeEntry p e).classifier = s.classifier ∧ (s.removeEntry p
    e).queue = s.queue ∧ (s.removeEntry p e).nextPos = s.nextPos ∧ (s.removeEntry p e).journal = s.journal ∧
    (s.removeEntry p e).drain = s.drain ∧ (s.removeEntry p e).port = s.port ∧ (s.removeEntry p e).startup =
    s.startup ∧ (s.removeEntry p e).supply = s.supply ∧ (s.removeEntry p e).mgmt = s.mgmt ∧ (s.removeEntry p
    e).memory = s.memory ∧ (s.removeEntry p e).frameLines = s.frameLines ∧ (s.removeEntry p e).pending = s.pending := by
  simp only [removeEntry]
  all_goals simp

@[simp] theorem freshen_frame (s : State) (l : Nat) :
    (s.freshen l).lines = s.lines ∧ (s.freshen l).classifier = s.classifier ∧ (s.freshen l).queue = s.queue ∧
    (s.freshen l).journal = s.journal ∧ (s.freshen l).drain = s.drain ∧ (s.freshen l).port = s.port ∧
    (s.freshen l).startup = s.startup ∧ (s.freshen l).supply = s.supply ∧ (s.freshen l).faults = s.faults ∧
    (s.freshen l).mgmt = s.mgmt ∧ (s.freshen l).memory = s.memory ∧ (s.freshen l).frameLines = s.frameLines ∧
    (s.freshen l).pending = s.pending := by
  simp only [freshen]
  all_goals simp

@[simp] theorem grantDemand_frame (s : State) (p : Fin 4) :
    (s.grantDemand p).lines = s.lines ∧ (s.grantDemand p).classifier = s.classifier ∧ (s.grantDemand p).queue
    = s.queue ∧ (s.grantDemand p).nextPos = s.nextPos ∧ (s.grantDemand p).journal = s.journal ∧ (s.grantDemand
    p).drain = s.drain ∧ (s.grantDemand p).startup = s.startup ∧ (s.grantDemand p).supply = s.supply ∧
    (s.grantDemand p).faults = s.faults ∧ (s.grantDemand p).mgmt = s.mgmt ∧ (s.grantDemand p).memory =
    s.memory ∧ (s.grantDemand p).frameLines = s.frameLines ∧ (s.grantDemand p).pending = s.pending := by
  simp only [grantDemand]
  repeat' split
  all_goals simp

@[simp] theorem grantPrefetch_frame (s : State) (l : Nat) (rest : List Nat) :
    (s.grantPrefetch l rest).lines = s.lines ∧ (s.grantPrefetch l rest).classifier = s.classifier ∧
    (s.grantPrefetch l rest).queue = s.queue ∧ (s.grantPrefetch l rest).nextPos = s.nextPos ∧ (s.grantPrefetch
    l rest).journal = s.journal ∧ (s.grantPrefetch l rest).drain = s.drain ∧ (s.grantPrefetch l rest).startup
    = s.startup ∧ (s.grantPrefetch l rest).supply = s.supply ∧ (s.grantPrefetch l rest).faults = s.faults ∧
    (s.grantPrefetch l rest).mgmt = s.mgmt ∧ (s.grantPrefetch l rest).memory = s.memory ∧ (s.grantPrefetch l
    rest).frameLines = s.frameLines ∧ (s.grantPrefetch l
    rest).pending = s.pending := by
  simp only [grantPrefetch]
  repeat' split
  all_goals simp

@[simp] theorem returnReader_frame (s : State) (o : Option (Fin 4)) :
    (s.returnReader o).lines = s.lines ∧ (s.returnReader o).classifier = s.classifier ∧ (s.returnReader
    o).queue = s.queue ∧ (s.returnReader o).nextPos = s.nextPos ∧ (s.returnReader o).journal = s.journal ∧
    (s.returnReader o).drain = s.drain ∧ (s.returnReader o).port = s.port ∧ (s.returnReader o).startup =
    s.startup ∧ (s.returnReader o).supply = s.supply ∧ (s.returnReader o).faults = s.faults ∧ (s.returnReader
    o).mgmt = s.mgmt ∧ (s.returnReader o).memory = s.memory ∧ (s.returnReader o).frameLines = s.frameLines ∧
    (s.returnReader o).pending = s.pending := by
  simp only [returnReader]
  repeat' split
  all_goals simp

@[simp] theorem fillSlot_frame (s : State) (i : Fin 8) (l : Nat) (d : Line) (o : Option (Fin 4)) :
    (s.fillSlot i l d o).lines = s.lines ∧ (s.fillSlot i l d o).classifier = s.classifier ∧ (s.fillSlot i l d
    o).queue = s.queue ∧ (s.fillSlot i l d o).nextPos = s.nextPos ∧ (s.fillSlot i l d o).journal = s.journal ∧
    (s.fillSlot i l d o).drain = s.drain ∧ (s.fillSlot i l d o).port = s.port ∧ (s.fillSlot i l d o).startup =
    s.startup ∧ (s.fillSlot i l d o).supply = s.supply ∧ (s.fillSlot i l d o).faults = s.faults ∧ (s.fillSlot
    i l d o).mgmt = s.mgmt ∧ (s.fillSlot i l d o).memory = s.memory ∧
    (s.fillSlot i l d o).frameLines = s.frameLines ∧ (s.fillSlot i l d o).pending = s.pending := by
  simp only [fillSlot]
  all_goals simp

@[simp] theorem demandSucceeded_frame (s : State) (d : Line) (b : Bool) :
    (s.demandSucceeded d b).lines = s.lines ∧ (s.demandSucceeded d b).classifier = s.classifier ∧
    (s.demandSucceeded d b).queue = s.queue ∧ (s.demandSucceeded d b).nextPos = s.nextPos ∧ (s.demandSucceeded
    d b).journal = s.journal ∧ (s.demandSucceeded d b).drain = s.drain ∧ (s.demandSucceeded d b).port = s.port
    ∧ (s.demandSucceeded d b).startup = s.startup ∧ (s.demandSucceeded d b).supply = s.supply ∧
    (s.demandSucceeded d b).mgmt = s.mgmt ∧ (s.demandSucceeded d b).memory = s.memory ∧ (s.demandSucceeded d
    b).frameLines = s.frameLines ∧ (s.demandSucceeded d
    b).pending = s.pending := by
  simp only [demandSucceeded]
  repeat' split
  all_goals simp

@[simp] theorem demandFailed_frame (s : State) :
    (s.demandFailed).lines = s.lines ∧ (s.demandFailed).classifier = s.classifier ∧ (s.demandFailed).queue =
    s.queue ∧ (s.demandFailed).nextPos = s.nextPos ∧ (s.demandFailed).journal = s.journal ∧
    (s.demandFailed).drain = s.drain ∧ (s.demandFailed).port = s.port ∧ (s.demandFailed).startup = s.startup ∧
    (s.demandFailed).supply = s.supply ∧ (s.demandFailed).mgmt = s.mgmt ∧ (s.demandFailed).memory = s.memory ∧
    (s.demandFailed).frameLines = s.frameLines ∧ (s.demandFailed).pending = s.pending := by
  simp only [demandFailed]
  repeat' split
  all_goals simp

@[simp] theorem prefetchSucceeded_frame (s : State) (d : Line) :
    (s.prefetchSucceeded d).lines = s.lines ∧ (s.prefetchSucceeded d).classifier = s.classifier ∧
    (s.prefetchSucceeded d).queue = s.queue ∧ (s.prefetchSucceeded d).nextPos = s.nextPos ∧
    (s.prefetchSucceeded d).journal = s.journal ∧ (s.prefetchSucceeded d).drain = s.drain ∧
    (s.prefetchSucceeded d).port = s.port ∧ (s.prefetchSucceeded d).startup = s.startup ∧ (s.prefetchSucceeded
    d).supply = s.supply ∧ (s.prefetchSucceeded d).mgmt = s.mgmt ∧ (s.prefetchSucceeded d).memory = s.memory ∧
    (s.prefetchSucceeded d).frameLines = s.frameLines ∧ (s.prefetchSucceeded d).pending = s.pending := by
  simp only [prefetchSucceeded]
  repeat' split
  all_goals simp

@[simp] theorem prefetchFailed_frame (s : State) :
    (s.prefetchFailed).lines = s.lines ∧ (s.prefetchFailed).classifier = s.classifier ∧
    (s.prefetchFailed).queue = s.queue ∧ (s.prefetchFailed).nextPos = s.nextPos ∧ (s.prefetchFailed).journal =
    s.journal ∧ (s.prefetchFailed).drain = s.drain ∧ (s.prefetchFailed).port = s.port ∧
    (s.prefetchFailed).startup = s.startup ∧ (s.prefetchFailed).supply = s.supply ∧ (s.prefetchFailed).faults
    = s.faults ∧ (s.prefetchFailed).mgmt = s.mgmt ∧ (s.prefetchFailed).memory = s.memory ∧
    (s.prefetchFailed).frameLines = s.frameLines ∧ (s.prefetchFailed).pending = s.pending := by
  simp only [prefetchFailed]
  repeat' split
  all_goals simp

@[simp] theorem leave_frame (s : State) (i : DrainItem) (c : RegionCode) (r : EntryResult) :
    (s.leave i c r).lines = s.lines ∧ (s.leave i c r).classifier = s.classifier ∧ (s.leave i c r).nextPos =
    s.nextPos ∧ (s.leave i c r).journal = s.journal ∧ (s.leave i c r).port = s.port ∧ (s.leave i c r).startup
    = s.startup ∧ (s.leave i c r).supply = s.supply ∧ (s.leave i c r).mgmt = s.mgmt ∧ (s.leave i c r).memory =
    s.memory ∧ (s.leave i c r).frameLines = s.frameLines ∧ (s.leave i c r).pending = s.pending := by
  simp only [leave]
  repeat' split
  all_goals simp

@[simp] theorem issueEntry_frame (s : State) (i : DrainItem) :
    (s.issueEntry i).lines = s.lines ∧ (s.issueEntry i).classifier = s.classifier ∧ (s.issueEntry i).queue =
    s.queue ∧ (s.issueEntry i).nextPos = s.nextPos ∧ (s.issueEntry i).journal = s.journal ∧ (s.issueEntry
    i).drain = s.drain ∧ (s.issueEntry i).port = s.port ∧ (s.issueEntry i).startup = s.startup ∧ (s.issueEntry
    i).supply = s.supply ∧ (s.issueEntry i).faults = s.faults ∧ (s.issueEntry i).mgmt = s.mgmt ∧ (s.issueEntry
    i).memory = s.memory ∧ (s.issueEntry i).frameLines = s.frameLines ∧ (s.issueEntry i).pending = s.pending := by
  simp only [issueEntry]
  repeat' split
  all_goals simp

@[simp] theorem beginItem_frame (s : State) (i : DrainItem) :
    (s.beginItem i).lines = s.lines ∧ (s.beginItem i).classifier = s.classifier ∧ (s.beginItem i).nextPos =
    s.nextPos ∧ (s.beginItem i).journal = s.journal ∧ (s.beginItem i).port = s.port ∧ (s.beginItem i).startup
    = s.startup ∧ (s.beginItem i).supply = s.supply ∧ (s.beginItem i).mgmt = s.mgmt ∧ (s.beginItem i).memory =
    s.memory ∧ (s.beginItem i).frameLines = s.frameLines ∧ (s.beginItem i).pending = s.pending := by
  simp only [beginItem]
  repeat' split
  all_goals simp

@[simp] theorem beginDrains_frame (n : Nat) (s : State) :
    (State.beginDrains n s).lines = s.lines ∧
    (State.beginDrains n s).classifier = s.classifier ∧
    (State.beginDrains n s).nextPos = s.nextPos ∧
    (State.beginDrains n s).journal = s.journal ∧
    (State.beginDrains n s).port = s.port ∧
    (State.beginDrains n s).startup = s.startup ∧
    (State.beginDrains n s).supply = s.supply ∧
    (State.beginDrains n s).mgmt = s.mgmt ∧
    (State.beginDrains n s).memory = s.memory ∧
    (State.beginDrains n s).frameLines = s.frameLines ∧ (State.beginDrains n s).pending = s.pending := by
  induction n generalizing s with
  | zero => simp [beginDrains]
  | succ n ih =>
    unfold beginDrains
    repeat' split
    all_goals simp [ih]

@[simp] theorem setItemBody_frame (s : State) (i : DrainItem) (b : Body) :
    (s.setItemBody i b).lines = s.lines ∧ (s.setItemBody i b).classifier = s.classifier ∧ (s.setItemBody i
    b).nextPos = s.nextPos ∧ (s.setItemBody i b).journal = s.journal ∧ (s.setItemBody i b).drain = s.drain ∧
    (s.setItemBody i b).port = s.port ∧ (s.setItemBody i b).startup = s.startup ∧ (s.setItemBody i b).supply =
    s.supply ∧ (s.setItemBody i b).faults = s.faults ∧ (s.setItemBody i b).mgmt = s.mgmt ∧ (s.setItemBody i
    b).memory = s.memory ∧ (s.setItemBody i b).frameLines = s.frameLines ∧ (s.setItemBody i b).pending = s.pending := by
  simp only [setItemBody]
  repeat' split
  all_goals simp

@[simp] theorem completeRecord_frame (s : State) (i : DrainItem) (b : Body) :
    (s.completeRecord i b).lines = s.lines ∧ (s.completeRecord i b).classifier = s.classifier ∧
    (s.completeRecord i b).nextPos = s.nextPos ∧ (s.completeRecord i b).drain = s.drain ∧ (s.completeRecord i
    b).port = s.port ∧ (s.completeRecord i b).startup = s.startup ∧ (s.completeRecord i b).supply = s.supply ∧
    (s.completeRecord i b).mgmt = s.mgmt ∧ (s.completeRecord i b).memory = s.memory ∧ (s.completeRecord i
    b).frameLines = s.frameLines ∧ (s.completeRecord i
    b).pending = s.pending := by
  simp only [completeRecord]
  all_goals simp

@[simp] theorem closeSucceeded_frame (s : State) :
    (s.closeSucceeded).lines = s.lines ∧ (s.closeSucceeded).classifier = s.classifier ∧
    (s.closeSucceeded).engine = s.engine ∧ (s.closeSucceeded).nextPos = s.nextPos ∧ (s.closeSucceeded).port =
    s.port ∧ (s.closeSucceeded).startup = s.startup ∧ (s.closeSucceeded).memory = s.memory ∧
    (s.closeSucceeded).frameLines = s.frameLines ∧ (s.closeSucceeded).pending = s.pending := by
  simp only [closeSucceeded]
  all_goals simp

@[simp] theorem closeFailed_frame (s : State) :
    (s.closeFailed).lines = s.lines ∧ (s.closeFailed).classifier = s.classifier ∧ (s.closeFailed).engine =
    s.engine ∧ (s.closeFailed).nextPos = s.nextPos ∧ (s.closeFailed).port = s.port ∧ (s.closeFailed).startup =
    s.startup ∧ (s.closeFailed).memory = s.memory ∧ (s.closeFailed).frameLines = s.frameLines ∧
    (s.closeFailed).pending = s.pending := by
  simp only [closeFailed]
  all_goals simp

@[simp] theorem removedSucceeded_frame (s : State) (d : Drain) (b : Body) :
    (s.removedSucceeded d b).lines = s.lines ∧ (s.removedSucceeded d b).classifier = s.classifier ∧
    (s.removedSucceeded d b).nextPos = s.nextPos ∧ (s.removedSucceeded d b).port = s.port ∧
    (s.removedSucceeded d b).startup = s.startup ∧ (s.removedSucceeded d b).supply = s.supply ∧
    (s.removedSucceeded d b).mgmt = s.mgmt ∧ (s.removedSucceeded d b).memory = s.memory ∧ (s.removedSucceeded
    d b).frameLines = s.frameLines ∧ (s.removedSucceeded
    d b).pending = s.pending := by
  simp only [removedSucceeded]
  repeat' split
  all_goals simp

@[simp] theorem removedFailed_frame (s : State) (d : Drain) :
    (s.removedFailed d).lines = s.lines ∧ (s.removedFailed d).classifier = s.classifier ∧ (s.removedFailed
    d).queue = s.queue ∧ (s.removedFailed d).engine = s.engine ∧ (s.removedFailed d).nextPos = s.nextPos ∧
    (s.removedFailed d).port = s.port ∧ (s.removedFailed d).startup = s.startup ∧ (s.removedFailed d).mgmt =
    s.mgmt ∧ (s.removedFailed d).memory = s.memory ∧ (s.removedFailed d).frameLines = s.frameLines ∧
    (s.removedFailed d).pending = s.pending := by
  simp only [removedFailed]
  repeat' split
  all_goals simp

@[simp] theorem stageSucceeded_frame (s : State) (d : Drain) (b : Body) (x : Line) (f : Bool) :
    (s.stageSucceeded d b x f).lines = s.lines ∧ (s.stageSucceeded d b x f).classifier = s.classifier ∧
    (s.stageSucceeded d b x f).nextPos = s.nextPos ∧ (s.stageSucceeded d b x f).port = s.port ∧
    (s.stageSucceeded d b x f).startup = s.startup ∧ (s.stageSucceeded d b x f).supply = s.supply ∧
    (s.stageSucceeded d b x f).mgmt = s.mgmt ∧ (s.stageSucceeded d b x f).memory = s.memory ∧
    (s.stageSucceeded d b x f).frameLines = s.frameLines ∧ (s.stageSucceeded d b x f).pending = s.pending := by
  simp only [stageSucceeded]
  repeat' split
  all_goals simp

@[simp] theorem stageFailed_frame (s : State) (d : Drain) :
    (s.stageFailed d).lines = s.lines ∧ (s.stageFailed d).classifier = s.classifier ∧ (s.stageFailed
    d).nextPos = s.nextPos ∧ (s.stageFailed d).port = s.port ∧ (s.stageFailed d).startup = s.startup ∧
    (s.stageFailed d).mgmt = s.mgmt ∧ (s.stageFailed d).memory = s.memory ∧
    (s.stageFailed d).frameLines = s.frameLines ∧ (s.stageFailed d).pending = s.pending := by
  simp only [stageFailed]
  repeat' split
  all_goals simp

@[simp] theorem headSucceeded_frame (s : State) (x : Line) (f : Bool) :
    (s.headSucceeded x f).lines = s.lines ∧ (s.headSucceeded x f).classifier = s.classifier ∧ (s.headSucceeded
    x f).nextPos = s.nextPos ∧ (s.headSucceeded x f).port = s.port ∧ (s.headSucceeded x f).startup = s.startup
    ∧ (s.headSucceeded x f).memory = s.memory ∧ (s.headSucceeded x f).frameLines = s.frameLines ∧
    (s.headSucceeded x f).pending = s.pending := by
  simp only [headSucceeded]
  repeat' split
  all_goals simp

@[simp] theorem headFailed_frame (s : State) :
    (s.headFailed).lines = s.lines ∧ (s.headFailed).classifier = s.classifier ∧ (s.headFailed).nextPos =
    s.nextPos ∧ (s.headFailed).port = s.port ∧ (s.headFailed).startup = s.startup ∧ (s.headFailed).memory =
    s.memory ∧ (s.headFailed).frameLines = s.frameLines ∧ (s.headFailed).pending = s.pending := by
  simp only [headFailed]
  repeat' split
  all_goals simp

@[simp] theorem initEnded_frame (s : State) (ok : Bool) :
    (s.initEnded ok).lines = s.lines ∧ (s.initEnded ok).classifier = s.classifier ∧ (s.initEnded ok).queue =
    s.queue ∧ (s.initEnded ok).engine = s.engine ∧ (s.initEnded ok).nextPos = s.nextPos ∧ (s.initEnded
    ok).drain = s.drain ∧ (s.initEnded ok).port = s.port ∧ (s.initEnded ok).startup = s.startup ∧ (s.initEnded
    ok).memory = s.memory ∧ (s.initEnded ok).frameLines = s.frameLines ∧ (s.initEnded ok).pending = s.pending := by
  simp only [initEnded]
  repeat' split
  all_goals simp

@[simp] theorem orphanDrain_frame (s : State) :
    (s.orphanDrain).lines = s.lines ∧ (s.orphanDrain).classifier = s.classifier ∧ (s.orphanDrain).queue =
    s.queue ∧ (s.orphanDrain).engine = s.engine ∧ (s.orphanDrain).nextPos = s.nextPos ∧
    (s.orphanDrain).journal = s.journal ∧ (s.orphanDrain).port = s.port ∧ (s.orphanDrain).startup = s.startup
    ∧ (s.orphanDrain).supply = s.supply ∧ (s.orphanDrain).faults = s.faults ∧ (s.orphanDrain).mgmt = s.mgmt ∧
    (s.orphanDrain).memory = s.memory ∧ (s.orphanDrain).frameLines = s.frameLines ∧
    (s.orphanDrain).pending = s.pending := by
  simp only [orphanDrain]
  repeat' split
  all_goals simp

end Sys2Proof.Machine.State
end

