-- ==== Sys2Proof/Laws/PortFrames.lean ====
section
/-! SUPPORT. What the start-up procedures, the memory port and the supply monitor leave unchanged, one lemma for each operation. -/

namespace Sys2Proof.Machine.State

@[simp] theorem endStartup_frame (s : State) :
    (s.endStartup).lines = s.lines ∧ (s.endStartup).classifier = s.classifier ∧ (s.endStartup).queue = s.queue
    ∧ (s.endStartup).engine = s.engine ∧ (s.endStartup).nextPos = s.nextPos ∧ (s.endStartup).journal =
    s.journal ∧ (s.endStartup).drain = s.drain ∧ (s.endStartup).port = s.port ∧ (s.endStartup).supply =
    s.supply ∧ (s.endStartup).mgmt = s.mgmt ∧ (s.endStartup).memory = s.memory ∧
    (s.endStartup).frameLines = s.frameLines ∧ (s.endStartup).pending = s.pending := by
  simp only [endStartup]
  repeat' split
  all_goals simp

@[simp] theorem endSupplyWait_frame (s : State) :
    (s.endSupplyWait).lines = s.lines ∧ (s.endSupplyWait).classifier = s.classifier ∧ (s.endSupplyWait).queue
    = s.queue ∧ (s.endSupplyWait).engine = s.engine ∧ (s.endSupplyWait).nextPos = s.nextPos ∧
    (s.endSupplyWait).journal = s.journal ∧ (s.endSupplyWait).drain = s.drain ∧ (s.endSupplyWait).port =
    s.port ∧ (s.endSupplyWait).supply = s.supply ∧ (s.endSupplyWait).mgmt = s.mgmt ∧ (s.endSupplyWait).memory
    = s.memory ∧ (s.endSupplyWait).frameLines = s.frameLines ∧ (s.endSupplyWait).pending = s.pending := by
  simp only [endSupplyWait]
  repeat' split
  all_goals simp

@[simp] theorem beginRollback_frame (s : State) :
    (s.beginRollback).lines = s.lines ∧ (s.beginRollback).classifier = s.classifier ∧ (s.beginRollback).queue
    = s.queue ∧ (s.beginRollback).engine = s.engine ∧ (s.beginRollback).nextPos = s.nextPos ∧
    (s.beginRollback).journal = s.journal ∧ (s.beginRollback).drain = s.drain ∧ (s.beginRollback).port =
    s.port ∧ (s.beginRollback).supply = s.supply ∧ (s.beginRollback).faults = s.faults ∧
    (s.beginRollback).mgmt = s.mgmt ∧ (s.beginRollback).memory = s.memory ∧
    (s.beginRollback).frameLines = s.frameLines ∧ (s.beginRollback).pending = s.pending := by
  simp only [beginRollback]
  all_goals simp

@[simp] theorem skipRecord_frame (s : State) (k : Nat) :
    (s.skipRecord k).lines = s.lines ∧ (s.skipRecord k).classifier = s.classifier ∧ (s.skipRecord k).queue =
    s.queue ∧ (s.skipRecord k).engine = s.engine ∧ (s.skipRecord k).nextPos = s.nextPos ∧ (s.skipRecord
    k).journal = s.journal ∧ (s.skipRecord k).drain = s.drain ∧ (s.skipRecord k).port = s.port ∧ (s.skipRecord
    k).supply = s.supply ∧ (s.skipRecord k).faults = s.faults ∧ (s.skipRecord k).mgmt = s.mgmt ∧ (s.skipRecord
    k).memory = s.memory ∧ (s.skipRecord k).frameLines = s.frameLines ∧ (s.skipRecord k).pending = s.pending := by
  simp only [skipRecord]
  all_goals simp

@[simp] theorem rollbackEnds_frame (s : State) (r : LongResult) :
    (s.rollbackEnds r).lines = s.lines ∧ (s.rollbackEnds r).classifier = s.classifier ∧ (s.rollbackEnds
    r).queue = s.queue ∧ (s.rollbackEnds r).engine = s.engine ∧ (s.rollbackEnds r).nextPos = s.nextPos ∧
    (s.rollbackEnds r).journal = s.journal ∧ (s.rollbackEnds r).drain = s.drain ∧ (s.rollbackEnds r).port =
    s.port ∧ (s.rollbackEnds r).supply = s.supply ∧ (s.rollbackEnds r).memory = s.memory ∧ (s.rollbackEnds
    r).frameLines = s.frameLines ∧ (s.rollbackEnds
    r).pending = s.pending := by
  simp only [rollbackEnds]
  repeat' split
  all_goals simp

@[simp] theorem rollHeaderSucceeded_frame (s : State) :
    (s.rollHeaderSucceeded).lines = s.lines ∧ (s.rollHeaderSucceeded).classifier = s.classifier ∧
    (s.rollHeaderSucceeded).queue = s.queue ∧ (s.rollHeaderSucceeded).engine = s.engine ∧
    (s.rollHeaderSucceeded).nextPos = s.nextPos ∧ (s.rollHeaderSucceeded).drain = s.drain ∧
    (s.rollHeaderSucceeded).port = s.port ∧ (s.rollHeaderSucceeded).memory = s.memory ∧
    (s.rollHeaderSucceeded).frameLines = s.frameLines ∧ (s.rollHeaderSucceeded).pending = s.pending := by
  simp only [rollHeaderSucceeded]
  repeat' split
  all_goals simp

@[simp] theorem rollSucceeded_frame (s : State) (d : Line) :
    (s.rollSucceeded d).lines = s.lines ∧ (s.rollSucceeded d).classifier = s.classifier ∧ (s.rollSucceeded
    d).queue = s.queue ∧ (s.rollSucceeded d).engine = s.engine ∧ (s.rollSucceeded d).nextPos = s.nextPos ∧
    (s.rollSucceeded d).drain = s.drain ∧ (s.rollSucceeded d).port = s.port ∧ (s.rollSucceeded d).memory =
    s.memory ∧ (s.rollSucceeded d).frameLines = s.frameLines ∧ (s.rollSucceeded d).pending = s.pending := by
  simp only [rollSucceeded]
  repeat' split
  all_goals simp

@[simp] theorem rollFailed_frame (s : State) :
    (s.rollFailed).lines = s.lines ∧ (s.rollFailed).classifier = s.classifier ∧ (s.rollFailed).queue = s.queue
    ∧ (s.rollFailed).engine = s.engine ∧ (s.rollFailed).nextPos = s.nextPos ∧ (s.rollFailed).drain = s.drain ∧
    (s.rollFailed).port = s.port ∧ (s.rollFailed).memory = s.memory ∧ (s.rollFailed).frameLines = s.frameLines ∧
    (s.rollFailed).pending = s.pending := by
  simp only [rollFailed]
  repeat' split
  all_goals simp

@[simp] theorem scanEnds_frame (s : State) (n : Nat) :
    (s.scanEnds n).lines = s.lines ∧ (s.scanEnds n).classifier = s.classifier ∧ (s.scanEnds n).queue = s.queue
    ∧ (s.scanEnds n).engine = s.engine ∧ (s.scanEnds n).nextPos = s.nextPos ∧ (s.scanEnds n).drain = s.drain ∧
    (s.scanEnds n).port = s.port ∧ (s.scanEnds n).mgmt = s.mgmt ∧ (s.scanEnds n).memory = s.memory ∧
    (s.scanEnds n).frameLines = s.frameLines ∧ (s.scanEnds n).pending = s.pending := by
  simp only [scanEnds]
  repeat' split
  all_goals simp

@[simp] theorem scanTo_frame (s : State) (k : Nat) :
    (s.scanTo k).lines = s.lines ∧ (s.scanTo k).classifier = s.classifier ∧ (s.scanTo k).queue = s.queue ∧
    (s.scanTo k).engine = s.engine ∧ (s.scanTo k).nextPos = s.nextPos ∧ (s.scanTo k).drain = s.drain ∧
    (s.scanTo k).port = s.port ∧ (s.scanTo k).mgmt = s.mgmt ∧ (s.scanTo k).memory = s.memory ∧ (s.scanTo
    k).frameLines = s.frameLines ∧ (s.scanTo
    k).pending = s.pending := by
  simp only [scanTo]
  repeat' split
  all_goals simp

@[simp] theorem scanSucceeded_frame (s : State) (d : Line) :
    (s.scanSucceeded d).lines = s.lines ∧ (s.scanSucceeded d).classifier = s.classifier ∧ (s.scanSucceeded
    d).queue = s.queue ∧ (s.scanSucceeded d).engine = s.engine ∧ (s.scanSucceeded d).nextPos = s.nextPos ∧
    (s.scanSucceeded d).drain = s.drain ∧ (s.scanSucceeded d).port = s.port ∧ (s.scanSucceeded d).mgmt =
    s.mgmt ∧ (s.scanSucceeded d).memory = s.memory ∧ (s.scanSucceeded d).frameLines = s.frameLines ∧
    (s.scanSucceeded d).pending = s.pending := by
  simp only [scanSucceeded]
  repeat' split
  all_goals simp

@[simp] theorem scanBroken_frame (s : State) (k : Nat) :
    (s.scanBroken k).lines = s.lines ∧ (s.scanBroken k).classifier = s.classifier ∧ (s.scanBroken k).queue =
    s.queue ∧ (s.scanBroken k).engine = s.engine ∧ (s.scanBroken k).nextPos = s.nextPos ∧ (s.scanBroken
    k).drain = s.drain ∧ (s.scanBroken k).port = s.port ∧ (s.scanBroken k).mgmt = s.mgmt ∧ (s.scanBroken
    k).memory = s.memory ∧ (s.scanBroken k).frameLines = s.frameLines ∧ (s.scanBroken k).pending = s.pending := by
  simp only [scanBroken]
  all_goals simp

@[simp] theorem scanFailed_frame (s : State) :
    (s.scanFailed).lines = s.lines ∧ (s.scanFailed).classifier = s.classifier ∧ (s.scanFailed).queue = s.queue
    ∧ (s.scanFailed).engine = s.engine ∧ (s.scanFailed).nextPos = s.nextPos ∧ (s.scanFailed).drain = s.drain ∧
    (s.scanFailed).port = s.port ∧ (s.scanFailed).mgmt = s.mgmt ∧ (s.scanFailed).memory = s.memory ∧
    (s.scanFailed).frameLines = s.frameLines ∧ (s.scanFailed).pending = s.pending := by
  simp only [scanFailed]
  repeat' split
  all_goals simp

@[simp] theorem grantWrite_frame (s : State) (op : Operation) :
    (s.grantWrite op).lines = s.lines ∧ (s.grantWrite op).classifier = s.classifier ∧ (s.grantWrite op).queue
    = s.queue ∧ (s.grantWrite op).engine = s.engine ∧ (s.grantWrite op).nextPos = s.nextPos ∧ (s.grantWrite
    op).journal = s.journal ∧ (s.grantWrite op).drain = s.drain ∧ (s.grantWrite op).startup = s.startup ∧
    (s.grantWrite op).supply = s.supply ∧ (s.grantWrite op).faults = s.faults ∧ (s.grantWrite op).mgmt =
    s.mgmt ∧ (s.grantWrite op).memory = s.memory ∧ (s.grantWrite op).frameLines = s.frameLines ∧
    (s.grantWrite op).pending = s.pending := by
  simp only [grantWrite]
  all_goals simp

@[simp] theorem grantOffer_frame (s : State) (o : Option Operation) :
    (s.grantOffer o).lines = s.lines ∧ (s.grantOffer o).classifier = s.classifier ∧ (s.grantOffer o).queue =
    s.queue ∧ (s.grantOffer o).engine = s.engine ∧ (s.grantOffer o).nextPos = s.nextPos ∧ (s.grantOffer
    o).journal = s.journal ∧ (s.grantOffer o).drain = s.drain ∧ (s.grantOffer o).startup = s.startup ∧
    (s.grantOffer o).supply = s.supply ∧ (s.grantOffer o).faults = s.faults ∧ (s.grantOffer o).mgmt = s.mgmt ∧
    (s.grantOffer o).memory = s.memory ∧ (s.grantOffer o).frameLines = s.frameLines ∧
    (s.grantOffer o).pending = s.pending := by
  simp only [grantOffer]
  repeat' split
  all_goals simp

@[simp] theorem takePrefetch_frame (s : State) (o : Option Operation) :
    (s.takePrefetch o).lines = s.lines ∧ (s.takePrefetch o).classifier = s.classifier ∧ (s.takePrefetch
    o).queue = s.queue ∧ (s.takePrefetch o).nextPos = s.nextPos ∧ (s.takePrefetch o).journal = s.journal ∧
    (s.takePrefetch o).drain = s.drain ∧ (s.takePrefetch o).startup = s.startup ∧ (s.takePrefetch o).supply =
    s.supply ∧ (s.takePrefetch o).faults = s.faults ∧ (s.takePrefetch o).mgmt = s.mgmt ∧ (s.takePrefetch
    o).memory = s.memory ∧ (s.takePrefetch o).frameLines = s.frameLines ∧ (s.takePrefetch o).pending = s.pending := by
  simp only [takePrefetch]
  repeat' split
  all_goals simp

@[simp] theorem takeRead_frame (s : State) (o : Option Operation) :
    (s.takeRead o).lines = s.lines ∧ (s.takeRead o).classifier = s.classifier ∧ (s.takeRead o).queue = s.queue
    ∧ (s.takeRead o).nextPos = s.nextPos ∧ (s.takeRead o).journal = s.journal ∧ (s.takeRead o).drain = s.drain
    ∧ (s.takeRead o).startup = s.startup ∧ (s.takeRead o).supply = s.supply ∧ (s.takeRead o).faults = s.faults
    ∧ (s.takeRead o).mgmt = s.mgmt ∧ (s.takeRead o).memory = s.memory ∧ (s.takeRead o).frameLines = s.frameLines ∧
    (s.takeRead o).pending = s.pending := by
  simp only [takeRead]
  repeat' split
  all_goals simp

@[simp] theorem arbitrate_frame (s : State) :
    (s.arbitrate).lines = s.lines ∧ (s.arbitrate).classifier = s.classifier ∧ (s.arbitrate).queue = s.queue ∧
    (s.arbitrate).nextPos = s.nextPos ∧ (s.arbitrate).journal = s.journal ∧ (s.arbitrate).drain = s.drain ∧
    (s.arbitrate).startup = s.startup ∧ (s.arbitrate).supply = s.supply ∧ (s.arbitrate).faults = s.faults ∧
    (s.arbitrate).mgmt = s.mgmt ∧ (s.arbitrate).memory = s.memory ∧ (s.arbitrate).frameLines = s.frameLines ∧
    (s.arbitrate).pending = s.pending := by
  simp only [arbitrate]
  repeat' split
  all_goals simp

@[simp] theorem settle_frame (s : State) :
    (s.settle).lines = s.lines ∧ (s.settle).classifier = s.classifier ∧ (s.settle).nextPos = s.nextPos ∧
    (s.settle).journal = s.journal ∧ (s.settle).startup = s.startup ∧ (s.settle).supply = s.supply ∧
    (s.settle).mgmt = s.mgmt ∧ (s.settle).memory = s.memory ∧ (s.settle).frameLines = s.frameLines ∧
    (s.settle).pending = s.pending := by
  simp only [settle]
  all_goals simp

@[simp] theorem ownerSucceeded_frame (s : State) (op : Operation) (d : Line) :
    (s.ownerSucceeded op d).lines = s.lines ∧ (s.ownerSucceeded op d).classifier = s.classifier ∧
    (s.ownerSucceeded op d).nextPos = s.nextPos ∧ (s.ownerSucceeded op d).port = s.port ∧ (s.ownerSucceeded op
    d).memory = s.memory ∧ (s.ownerSucceeded op d).frameLines = s.frameLines ∧
    (s.ownerSucceeded op d).pending = s.pending := by cases h : op.owner <;> simp [ownerSucceeded, h]

@[simp] theorem ownerFailed_frame (s : State) (op : Operation) :
    (s.ownerFailed op).lines = s.lines ∧ (s.ownerFailed op).classifier = s.classifier ∧ (s.ownerFailed
    op).nextPos = s.nextPos ∧ (s.ownerFailed op).port = s.port ∧ (s.ownerFailed op).memory = s.memory ∧
    (s.ownerFailed op).frameLines = s.frameLines ∧
    (s.ownerFailed op).pending = s.pending := by cases h : op.owner <;> simp [ownerFailed, h]

@[simp] theorem succeed_frame (s : State) (op : Operation) (d : Line) :
    (s.succeed op d).lines = s.lines ∧ (s.succeed op d).classifier = s.classifier ∧ (s.succeed op d).nextPos =
    s.nextPos ∧ (s.succeed op d).memory = s.memory ∧ (s.succeed op d).frameLines = s.frameLines ∧
    (s.succeed op d).pending = s.pending := by
  simp only [succeed]
  all_goals simp

@[simp] theorem failOp_frame (s : State) (op : Operation) :
    (s.failOp op).lines = s.lines ∧ (s.failOp op).classifier = s.classifier ∧ (s.failOp op).nextPos =
    s.nextPos ∧ (s.failOp op).memory = s.memory ∧ (s.failOp op).frameLines = s.frameLines ∧
    (s.failOp op).pending = s.pending := by
  simp only [failOp]
  repeat' split
  all_goals simp

@[simp] theorem failAtLimit_frame (s : State) (op : Operation) :
    (s.failAtLimit op).lines = s.lines ∧ (s.failAtLimit op).classifier = s.classifier ∧ (s.failAtLimit op).nextPos =
    s.nextPos ∧ (s.failAtLimit op).memory = op.spoils s.memory ∧ (s.failAtLimit op).frameLines = s.frameLines ∧
    (s.failAtLimit op).pending = s.pending := by simp [failAtLimit]

@[simp] theorem backOff_frame (s : State) (op : Operation) (n : NextIssue) :
    (s.backOff op n).lines = s.lines ∧ (s.backOff op n).classifier = s.classifier ∧ (s.backOff op n).queue =
    s.queue ∧ (s.backOff op n).engine = s.engine ∧ (s.backOff op n).nextPos = s.nextPos ∧ (s.backOff op
    n).journal = s.journal ∧ (s.backOff op n).drain = s.drain ∧ (s.backOff op n).startup = s.startup ∧
    (s.backOff op n).supply = s.supply ∧ (s.backOff op n).faults = s.faults ∧ (s.backOff op n).mgmt = s.mgmt ∧
    (s.backOff op n).memory = s.memory ∧ (s.backOff op n).frameLines = s.frameLines ∧
    (s.backOff op n).pending = s.pending := by
  simp only [backOff]
  all_goals simp

@[simp] theorem startVerify_frame (s : State) (op : Operation) :
    (s.startVerify op).lines = s.lines ∧ (s.startVerify op).classifier = s.classifier ∧ (s.startVerify
    op).queue = s.queue ∧ (s.startVerify op).engine = s.engine ∧ (s.startVerify op).nextPos = s.nextPos ∧
    (s.startVerify op).journal = s.journal ∧ (s.startVerify op).drain = s.drain ∧ (s.startVerify op).startup =
    s.startup ∧ (s.startVerify op).supply = s.supply ∧ (s.startVerify op).faults = s.faults ∧ (s.startVerify
    op).mgmt = s.mgmt ∧ (s.startVerify op).memory = s.memory ∧ (s.startVerify op).frameLines = s.frameLines ∧
    (s.startVerify op).pending = s.pending := by
  simp only [startVerify]
  repeat' split
  all_goals simp

@[simp] theorem attemptFailed_frame (s : State) (op : Operation) :
    (s.attemptFailed op).lines = s.lines ∧ (s.attemptFailed op).classifier = s.classifier ∧ (s.attemptFailed
    op).nextPos = s.nextPos ∧ (s.attemptFailed op).frameLines = s.frameLines ∧ (s.attemptFailed op).pending = s.pending := by
  simp only [attemptFailed]
  repeat' split
  all_goals simp

@[simp] theorem attemptError_frame (s : State) (op : Operation) :
    (s.attemptError op).lines = s.lines ∧ (s.attemptError op).classifier = s.classifier ∧ (s.attemptError
    op).nextPos = s.nextPos ∧ (s.attemptError op).frameLines = s.frameLines ∧
    (s.attemptError op).pending = s.pending := by
  simp only [attemptError]
  repeat' split
  all_goals simp

@[simp] theorem attemptOk_frame (s : State) (op : Operation) (d : Line) :
    (s.attemptOk op d).lines = s.lines ∧ (s.attemptOk op d).classifier = s.classifier ∧ (s.attemptOk op
    d).nextPos = s.nextPos ∧ (s.attemptOk op d).frameLines = s.frameLines ∧ (s.attemptOk op d).pending = s.pending := by
  simp only [attemptOk]
  repeat' split
  all_goals simp

@[simp] theorem verifyFailed_frame (s : State) (op : Operation) :
    (s.verifyFailed op).lines = s.lines ∧ (s.verifyFailed op).classifier = s.classifier ∧ (s.verifyFailed
    op).nextPos = s.nextPos ∧ (s.verifyFailed op).frameLines = s.frameLines ∧
    (s.verifyFailed op).pending = s.pending := by
  simp only [verifyFailed]
  repeat' split
  all_goals simp

@[simp] theorem verifyOk_frame (s : State) (op : Operation) (d : Line) :
    (s.verifyOk op d).lines = s.lines ∧ (s.verifyOk op d).classifier = s.classifier ∧ (s.verifyOk op
    d).nextPos = s.nextPos ∧ (s.verifyOk op d).frameLines = s.frameLines ∧ (s.verifyOk op d).pending = s.pending := by
  simp only [verifyOk]
  repeat' split
  all_goals simp

@[simp] theorem answered_frame (s : State) (op : Operation) (a : MemAnswer) :
    (s.answered op a).lines = s.lines ∧ (s.answered op a).classifier = s.classifier ∧ (s.answered op
    a).nextPos = s.nextPos ∧ (s.answered op a).frameLines = s.frameLines ∧ (s.answered op a).pending = s.pending := by
  simp only [answered]
  repeat' split
  all_goals simp

@[simp] theorem reissue_frame (s : State) (op : Operation) :
    (s.reissue op).lines = s.lines ∧ (s.reissue op).classifier = s.classifier ∧ (s.reissue op).queue = s.queue
    ∧ (s.reissue op).engine = s.engine ∧ (s.reissue op).nextPos = s.nextPos ∧ (s.reissue op).journal =
    s.journal ∧ (s.reissue op).drain = s.drain ∧ (s.reissue op).startup = s.startup ∧ (s.reissue op).supply =
    s.supply ∧ (s.reissue op).mgmt = s.mgmt ∧ (s.reissue op).memory = s.memory ∧
    (s.reissue op).frameLines = s.frameLines ∧ (s.reissue op).pending = s.pending := by
  simp only [reissue]
  repeat' split
  all_goals simp

@[simp] theorem endBackoff_frame (s : State) (op : Operation) :
    (s.endBackoff op).lines = s.lines ∧ (s.endBackoff op).classifier = s.classifier ∧ (s.endBackoff op).queue
    = s.queue ∧ (s.endBackoff op).engine = s.engine ∧ (s.endBackoff op).nextPos = s.nextPos ∧ (s.endBackoff
    op).journal = s.journal ∧ (s.endBackoff op).drain = s.drain ∧ (s.endBackoff op).startup = s.startup ∧
    (s.endBackoff op).supply = s.supply ∧ (s.endBackoff op).mgmt = s.mgmt ∧ (s.endBackoff op).memory =
    s.memory ∧ (s.endBackoff op).frameLines = s.frameLines ∧ (s.endBackoff op).pending = s.pending := by
  simp only [endBackoff]
  repeat' split
  all_goals simp

@[simp] theorem releaseHeld_frame (s : State) :
    (s.releaseHeld).lines = s.lines ∧ (s.releaseHeld).classifier = s.classifier ∧ (s.releaseHeld).queue =
    s.queue ∧ (s.releaseHeld).engine = s.engine ∧ (s.releaseHeld).nextPos = s.nextPos ∧
    (s.releaseHeld).journal = s.journal ∧ (s.releaseHeld).drain = s.drain ∧ (s.releaseHeld).startup =
    s.startup ∧ (s.releaseHeld).supply = s.supply ∧ (s.releaseHeld).mgmt = s.mgmt ∧ (s.releaseHeld).memory =
    s.memory ∧ (s.releaseHeld).frameLines = s.frameLines ∧ (s.releaseHeld).pending = s.pending := by
  simp only [releaseHeld]
  repeat' split
  all_goals simp

@[simp] theorem resume_frame (s : State) :
    (s.resume).lines = s.lines ∧ (s.resume).classifier = s.classifier ∧ (s.resume).nextPos = s.nextPos ∧
    (s.resume).journal = s.journal ∧ (s.resume).startup = s.startup ∧ (s.resume).supply = s.supply ∧
    (s.resume).mgmt = s.mgmt ∧ (s.resume).memory = s.memory ∧ (s.resume).frameLines = s.frameLines ∧
    (s.resume).pending = s.pending := by
  simp only [resume]
  all_goals simp

@[simp] theorem glitchIf_frame (s : State) (b : Bool) :
    (s.glitchIf b).lines = s.lines ∧ (s.glitchIf b).classifier = s.classifier ∧ (s.glitchIf b).queue = s.queue
    ∧ (s.glitchIf b).engine = s.engine ∧ (s.glitchIf b).nextPos = s.nextPos ∧ (s.glitchIf b).journal =
    s.journal ∧ (s.glitchIf b).drain = s.drain ∧ (s.glitchIf b).port = s.port ∧ (s.glitchIf b).startup =
    s.startup ∧ (s.glitchIf b).mgmt = s.mgmt ∧ (s.glitchIf b).memory = s.memory ∧
    (s.glitchIf b).frameLines = s.frameLines ∧ (s.glitchIf b).pending = s.pending := by
  simp only [glitchIf]
  repeat' split
  all_goals simp

@[simp] theorem setBelowWarn_frame (s : State) (b : Bool) :
    (s.setBelowWarn b).lines = s.lines ∧ (s.setBelowWarn b).classifier = s.classifier ∧ (s.setBelowWarn
    b).queue = s.queue ∧ (s.setBelowWarn b).engine = s.engine ∧ (s.setBelowWarn b).nextPos = s.nextPos ∧
    (s.setBelowWarn b).journal = s.journal ∧ (s.setBelowWarn b).drain = s.drain ∧ (s.setBelowWarn b).port =
    s.port ∧ (s.setBelowWarn b).startup = s.startup ∧ (s.setBelowWarn b).mgmt = s.mgmt ∧ (s.setBelowWarn
    b).memory = s.memory ∧ (s.setBelowWarn b).frameLines = s.frameLines ∧ (s.setBelowWarn b).pending = s.pending := by
  simp only [setBelowWarn]
  repeat' split
  all_goals simp

@[simp] theorem setBelowFail_frame (s : State) (b : Bool) :
    (s.setBelowFail b).lines = s.lines ∧ (s.setBelowFail b).classifier = s.classifier ∧ (s.setBelowFail
    b).queue = s.queue ∧ (s.setBelowFail b).engine = s.engine ∧ (s.setBelowFail b).nextPos = s.nextPos ∧
    (s.setBelowFail b).journal = s.journal ∧ (s.setBelowFail b).drain = s.drain ∧ (s.setBelowFail b).port =
    s.port ∧ (s.setBelowFail b).startup = s.startup ∧ (s.setBelowFail b).mgmt = s.mgmt ∧ (s.setBelowFail
    b).memory = s.memory ∧ (s.setBelowFail b).frameLines = s.frameLines ∧ (s.setBelowFail b).pending = s.pending := by
  simp only [setBelowFail]
  repeat' split
  all_goals simp

@[simp] theorem recompare_frame (s : State) :
    (s.recompare).lines = s.lines ∧ (s.recompare).classifier = s.classifier ∧ (s.recompare).queue = s.queue ∧
    (s.recompare).engine = s.engine ∧ (s.recompare).nextPos = s.nextPos ∧ (s.recompare).journal = s.journal ∧
    (s.recompare).drain = s.drain ∧ (s.recompare).port = s.port ∧ (s.recompare).startup = s.startup ∧
    (s.recompare).mgmt = s.mgmt ∧ (s.recompare).memory = s.memory ∧ (s.recompare).frameLines = s.frameLines ∧
    (s.recompare).pending = s.pending := by
  simp only [recompare]
  repeat' split
  all_goals simp

@[simp] theorem enterSupply_frame (s : State) (x : SupplyState) :
    (s.enterSupply x).lines = s.lines ∧ (s.enterSupply x).classifier = s.classifier ∧ (s.enterSupply x).queue
    = s.queue ∧ (s.enterSupply x).engine = s.engine ∧ (s.enterSupply x).nextPos = s.nextPos ∧ (s.enterSupply
    x).journal = s.journal ∧ (s.enterSupply x).drain = s.drain ∧ (s.enterSupply x).port = s.port ∧
    (s.enterSupply x).startup = s.startup ∧ (s.enterSupply x).mgmt = s.mgmt ∧ (s.enterSupply x).memory =
    s.memory ∧ (s.enterSupply x).frameLines = s.frameLines ∧ (s.enterSupply x).pending = s.pending := by
  simp only [enterSupply]
  repeat' split
  all_goals simp

@[simp] theorem endWaitIfNormal_frame (s : State) :
    (s.endWaitIfNormal).lines = s.lines ∧ (s.endWaitIfNormal).classifier = s.classifier ∧
    (s.endWaitIfNormal).queue = s.queue ∧ (s.endWaitIfNormal).engine = s.engine ∧ (s.endWaitIfNormal).nextPos
    = s.nextPos ∧ (s.endWaitIfNormal).journal = s.journal ∧ (s.endWaitIfNormal).drain = s.drain ∧
    (s.endWaitIfNormal).port = s.port ∧ (s.endWaitIfNormal).supply = s.supply ∧ (s.endWaitIfNormal).mgmt =
    s.mgmt ∧ (s.endWaitIfNormal).memory = s.memory ∧ (s.endWaitIfNormal).frameLines = s.frameLines ∧
    (s.endWaitIfNormal).pending = s.pending := by
  simp only [endWaitIfNormal]
  repeat' split
  all_goals simp

@[simp] theorem moveSupply_frame (s : State) (x : SupplyState) :
    (s.moveSupply x).lines = s.lines ∧ (s.moveSupply x).classifier = s.classifier ∧ (s.moveSupply x).nextPos =
    s.nextPos ∧ (s.moveSupply x).journal = s.journal ∧ (s.moveSupply x).mgmt = s.mgmt ∧ (s.moveSupply
    x).memory = s.memory ∧ (s.moveSupply x).frameLines = s.frameLines ∧ (s.moveSupply x).pending = s.pending := by
  simp only [moveSupply]
  repeat' split
  all_goals simp

end Sys2Proof.Machine.State
end

