-- ==== Sys2Proof/Laws/CommandFrames.lean ====
section
/-! SUPPORT. What the operations of commands leave unchanged, one lemma for each operation. -/

namespace Sys2Proof.Machine.State

@[simp] theorem respond_frame (s : State) (q : List Byte) (r : Reply) (f : Bool) :
    (s.respond q r f).lines = s.lines ∧ (s.respond q r f).classifier = s.classifier ∧ (s.respond q r f).queue
    = s.queue ∧ (s.respond q r f).engine = s.engine ∧ (s.respond q r f).nextPos = s.nextPos ∧ (s.respond q r
    f).journal = s.journal ∧ (s.respond q r f).drain = s.drain ∧ (s.respond q r f).port = s.port ∧ (s.respond
    q r f).startup = s.startup ∧ (s.respond q r f).supply = s.supply ∧ (s.respond q r f).faults = s.faults ∧
    (s.respond q r f).memory = s.memory ∧ (s.respond q r f).frameLines = s.frameLines ∧
    (s.respond q r f).pending = s.pending := by
  simp only [respond]
  all_goals simp

@[simp] theorem clearLatches_frame (s : State) :
    (s.clearLatches).lines = s.lines ∧ (s.clearLatches).classifier = s.classifier ∧ (s.clearLatches).queue =
    s.queue ∧ (s.clearLatches).engine = s.engine ∧ (s.clearLatches).nextPos = s.nextPos ∧
    (s.clearLatches).journal = s.journal ∧ (s.clearLatches).drain = s.drain ∧ (s.clearLatches).port = s.port ∧
    (s.clearLatches).startup = s.startup ∧ (s.clearLatches).faults = s.faults ∧ (s.clearLatches).mgmt = s.mgmt
    ∧ (s.clearLatches).memory = s.memory ∧ (s.clearLatches).frameLines = s.frameLines ∧
    (s.clearLatches).pending = s.pending := by
  simp only [clearLatches]
  all_goals simp

@[simp] theorem setLimits_frame (s : State) (c l d : Byte) :
    (s.setLimits c l d).lines = s.lines ∧ (s.setLimits c l d).classifier = s.classifier ∧ (s.setLimits c l
    d).queue = s.queue ∧ (s.setLimits c l d).nextPos = s.nextPos ∧ (s.setLimits c l d).journal = s.journal ∧
    (s.setLimits c l d).drain = s.drain ∧ (s.setLimits c l d).startup = s.startup ∧ (s.setLimits c l d).supply
    = s.supply ∧ (s.setLimits c l d).faults = s.faults ∧ (s.setLimits c l d).mgmt = s.mgmt ∧ (s.setLimits c l
    d).memory = s.memory ∧ (s.setLimits c l d).frameLines = s.frameLines ∧ (s.setLimits c l d).pending = s.pending := by
  simp only [setLimits]
  all_goals simp

@[simp] theorem setWarnLevel_frame (s : State) (w : Byte) :
    (s.setWarnLevel w).lines = s.lines ∧ (s.setWarnLevel w).classifier = s.classifier ∧ (s.setWarnLevel
    w).queue = s.queue ∧ (s.setWarnLevel w).engine = s.engine ∧ (s.setWarnLevel w).nextPos = s.nextPos ∧
    (s.setWarnLevel w).journal = s.journal ∧ (s.setWarnLevel w).drain = s.drain ∧ (s.setWarnLevel w).port =
    s.port ∧ (s.setWarnLevel w).startup = s.startup ∧ (s.setWarnLevel w).mgmt = s.mgmt ∧ (s.setWarnLevel
    w).memory = s.memory ∧ (s.setWarnLevel w).frameLines = s.frameLines ∧ (s.setWarnLevel w).pending = s.pending := by
  simp only [setWarnLevel]
  all_goals simp

@[simp] theorem placeJournal_frame (s : State) (b z : Nat) :
    (s.placeJournal b z).lines = s.lines ∧ (s.placeJournal b z).classifier = s.classifier ∧ (s.placeJournal b
    z).queue = s.queue ∧ (s.placeJournal b z).engine = s.engine ∧ (s.placeJournal b z).nextPos = s.nextPos ∧
    (s.placeJournal b z).drain = s.drain ∧ (s.placeJournal b z).port = s.port ∧ (s.placeJournal b z).startup =
    s.startup ∧ (s.placeJournal b z).mgmt = s.mgmt ∧ (s.placeJournal b z).memory = s.memory ∧ (s.placeJournal
    b z).frameLines = s.frameLines ∧ (s.placeJournal
    b z).pending = s.pending := by
  simp only [placeJournal]
  repeat' split
  all_goals simp

@[simp] theorem setSoftware_frame (s : State) :
    (s.setSoftware).lines = s.lines ∧ (s.setSoftware).classifier = s.classifier ∧ (s.setSoftware).queue =
    s.queue ∧ (s.setSoftware).engine = s.engine ∧ (s.setSoftware).nextPos = s.nextPos ∧
    (s.setSoftware).journal = s.journal ∧ (s.setSoftware).drain = s.drain ∧ (s.setSoftware).port = s.port ∧
    (s.setSoftware).startup = s.startup ∧ (s.setSoftware).mgmt = s.mgmt ∧ (s.setSoftware).memory = s.memory ∧
    (s.setSoftware).frameLines = s.frameLines ∧ (s.setSoftware).pending = s.pending := by
  simp only [setSoftware]
  all_goals simp

@[simp] theorem resetUpstream_frame (s : State) :
    (s.resetUpstream).lines = s.lines ∧ (s.resetUpstream).classifier = s.classifier ∧
    (s.resetUpstream).nextPos = s.nextPos ∧ (s.resetUpstream).journal = s.journal ∧ (s.resetUpstream).startup
    = s.startup ∧ (s.resetUpstream).supply = s.supply ∧ (s.resetUpstream).mgmt = s.mgmt ∧
    (s.resetUpstream).memory = s.memory ∧ (s.resetUpstream).frameLines = s.frameLines ∧
    (s.resetUpstream).pending = s.pending := by
  simp only [resetUpstream]
  all_goals simp

@[simp] theorem appendMarker_frame (s : State) :
    (s.appendMarker).lines = s.lines ∧ (s.appendMarker).classifier = s.classifier ∧ (s.appendMarker).engine =
    s.engine ∧ (s.appendMarker).journal = s.journal ∧ (s.appendMarker).drain = s.drain ∧ (s.appendMarker).port
    = s.port ∧ (s.appendMarker).startup = s.startup ∧ (s.appendMarker).supply = s.supply ∧
    (s.appendMarker).faults = s.faults ∧ (s.appendMarker).mgmt = s.mgmt ∧ (s.appendMarker).memory = s.memory ∧
    (s.appendMarker).frameLines = s.frameLines ∧ (s.appendMarker).pending = s.pending := by
  simp only [appendMarker]
  all_goals simp

@[simp] theorem takeClose_frame (s : State) :
    (s.takeClose).lines = s.lines ∧ (s.takeClose).classifier = s.classifier ∧ (s.takeClose).startup =
    s.startup ∧ (s.takeClose).memory = s.memory ∧ (s.takeClose).frameLines = s.frameLines ∧
    (s.takeClose).pending = s.pending := by
  simp only [takeClose]
  all_goals simp

@[simp] theorem takeInit_frame (s : State) (e : BitVec 32) :
    (s.takeInit e).lines = s.lines ∧ (s.takeInit e).classifier = s.classifier ∧ (s.takeInit e).nextPos =
    s.nextPos ∧ (s.takeInit e).startup = s.startup ∧ (s.takeInit e).memory = s.memory ∧
    (s.takeInit e).frameLines = s.frameLines ∧ (s.takeInit e).pending = s.pending := by
  simp only [takeInit]
  all_goals simp

@[simp] theorem takeRollback_frame (s : State) :
    (s.takeRollback).lines = s.lines ∧ (s.takeRollback).classifier = s.classifier ∧ (s.takeRollback).nextPos =
    s.nextPos ∧ (s.takeRollback).memory = s.memory ∧ (s.takeRollback).frameLines = s.frameLines ∧
    (s.takeRollback).pending = s.pending := by
  simp only [takeRollback]
  all_goals simp

@[simp] theorem retryTo_frame (s : State) (r : Request) :
    (s.retryTo r).classifier = s.classifier ∧ (s.retryTo r).queue = s.queue ∧ (s.retryTo r).engine = s.engine
    ∧ (s.retryTo r).nextPos = s.nextPos ∧ (s.retryTo r).journal = s.journal ∧ (s.retryTo r).drain = s.drain ∧
    (s.retryTo r).port = s.port ∧ (s.retryTo r).startup = s.startup ∧ (s.retryTo r).supply = s.supply ∧
    (s.retryTo r).faults = s.faults ∧ (s.retryTo r).mgmt = s.mgmt ∧ (s.retryTo r).memory = s.memory ∧
    (s.retryTo r).frameLines = s.frameLines ∧ (s.retryTo r).pending = s.pending := by
  simp only [retryTo]
  all_goals simp

@[simp] theorem abortTo_frame (s : State) (r : Request) (i : Fin 9) (c : RegionCode) :
    (s.abortTo r i c).classifier = s.classifier ∧ (s.abortTo r i c).queue = s.queue ∧ (s.abortTo r i c).engine
    = s.engine ∧ (s.abortTo r i c).nextPos = s.nextPos ∧ (s.abortTo r i c).journal = s.journal ∧ (s.abortTo r
    i c).drain = s.drain ∧ (s.abortTo r i c).port = s.port ∧ (s.abortTo r i c).startup = s.startup ∧
    (s.abortTo r i c).supply = s.supply ∧ (s.abortTo r i c).mgmt = s.mgmt ∧ (s.abortTo r i c).memory =
    s.memory ∧ (s.abortTo r i c).frameLines = s.frameLines ∧ (s.abortTo r i c).pending = s.pending := by
  simp only [abortTo]
  all_goals simp

@[simp] theorem noRoomTo_frame (s : State) (r : Request) :
    (s.noRoomTo r).classifier = s.classifier ∧ (s.noRoomTo r).queue = s.queue ∧ (s.noRoomTo r).engine =
    s.engine ∧ (s.noRoomTo r).nextPos = s.nextPos ∧ (s.noRoomTo r).journal = s.journal ∧ (s.noRoomTo r).drain
    = s.drain ∧ (s.noRoomTo r).port = s.port ∧ (s.noRoomTo r).startup = s.startup ∧ (s.noRoomTo r).supply =
    s.supply ∧ (s.noRoomTo r).mgmt = s.mgmt ∧ (s.noRoomTo r).memory = s.memory ∧
    (s.noRoomTo r).frameLines = s.frameLines ∧ (s.noRoomTo r).pending = s.pending := by
  simp only [noRoomTo]
  all_goals simp

@[simp] theorem answerFromEntry_frame (s : State) (r : Request) (p : Fin 4) (e : DelayedEntry) :
    (s.answerFromEntry r p e).classifier = s.classifier ∧ (s.answerFromEntry r p e).queue = s.queue ∧
    (s.answerFromEntry r p e).nextPos = s.nextPos ∧ (s.answerFromEntry r p e).journal = s.journal ∧
    (s.answerFromEntry r p e).drain = s.drain ∧ (s.answerFromEntry r p e).port = s.port ∧ (s.answerFromEntry r
    p e).startup = s.startup ∧ (s.answerFromEntry r p e).supply = s.supply ∧ (s.answerFromEntry r p e).mgmt =
    s.mgmt ∧ (s.answerFromEntry r p e).memory = s.memory ∧ (s.answerFromEntry r p e).frameLines = s.frameLines ∧
    (s.answerFromEntry r p e).pending = s.pending := by
  simp only [answerFromEntry]
  repeat' split
  all_goals simp

@[simp] theorem acceptPosted_frame (s : State) (r : Request) (c : Classification) :
    (s.acceptPosted r c).classifier = s.classifier ∧ (s.acceptPosted r c).startup = s.startup ∧
    (s.acceptPosted r c).supply = s.supply ∧ (s.acceptPosted r c).mgmt = s.mgmt ∧ (s.acceptPosted r c).memory
    = s.memory ∧ (s.acceptPosted r c).frameLines = s.frameLines ∧ (s.acceptPosted r c).pending = s.pending := by
  simp only [acceptPosted]
  all_goals simp

@[simp] theorem acceptDurable_frame (s : State) (r : Request) (c : Classification) (p : Fin 4) :
    (s.acceptDurable r c p).classifier = s.classifier ∧ (s.acceptDurable r c p).startup = s.startup ∧
    (s.acceptDurable r c p).supply = s.supply ∧ (s.acceptDurable r c p).mgmt = s.mgmt ∧ (s.acceptDurable r c
    p).memory = s.memory ∧ (s.acceptDurable r c p).frameLines = s.frameLines ∧
    (s.acceptDurable r c p).pending = s.pending := by
  simp only [acceptDurable]
  all_goals simp

@[simp] theorem roomDurable_frame (s : State) (r : Request) (c : Classification) :
    (s.roomDurable r c).classifier = s.classifier ∧ (s.roomDurable r c).startup = s.startup ∧ (s.roomDurable r
    c).supply = s.supply ∧ (s.roomDurable r c).mgmt = s.mgmt ∧ (s.roomDurable r c).memory = s.memory ∧
    (s.roomDurable r c).frameLines = s.frameLines ∧ (s.roomDurable r c).pending = s.pending := by
  simp only [roomDurable]
  repeat' split
  all_goals simp

@[simp] theorem roomWrite_frame (s : State) (r : Request) (c : Classification) :
    (s.roomWrite r c).classifier = s.classifier ∧ (s.roomWrite r c).startup = s.startup ∧ (s.roomWrite r
    c).supply = s.supply ∧ (s.roomWrite r c).mgmt = s.mgmt ∧ (s.roomWrite r c).memory = s.memory ∧
    (s.roomWrite r c).frameLines = s.frameLines ∧ (s.roomWrite r c).pending = s.pending := by
  simp only [roomWrite]
  repeat' split
  all_goals simp

@[simp] theorem guardWrite_frame (s : State) (r : Request) :
    (s.guardWrite r).classifier = s.classifier ∧ (s.guardWrite r).startup = s.startup ∧ (s.guardWrite
    r).supply = s.supply ∧ (s.guardWrite r).mgmt = s.mgmt ∧ (s.guardWrite r).memory = s.memory ∧ (s.guardWrite
    r).frameLines = s.frameLines ∧ (s.guardWrite
    r).pending = s.pending := by
  simp only [guardWrite]
  repeat' split
  all_goals simp

@[simp] theorem classifyWrite_frame (s : State) (r : Request) :
    (s.classifyWrite r).classifier = s.classifier ∧ (s.classifyWrite r).startup = s.startup ∧ (s.classifyWrite
    r).supply = s.supply ∧ (s.classifyWrite r).mgmt = s.mgmt ∧ (s.classifyWrite r).memory = s.memory ∧
    (s.classifyWrite r).frameLines = s.frameLines ∧ (s.classifyWrite r).pending = s.pending := by
  simp only [classifyWrite]
  repeat' split
  all_goals simp

@[simp] theorem decideWrite_frame (s : State) (r : Request) :
    (s.decideWrite r).classifier = s.classifier ∧ (s.decideWrite r).startup = s.startup ∧ (s.decideWrite
    r).supply = s.supply ∧ (s.decideWrite r).mgmt = s.mgmt ∧ (s.decideWrite r).memory = s.memory ∧
    (s.decideWrite r).frameLines = s.frameLines ∧ (s.decideWrite r).pending = s.pending := by
  simp only [decideWrite]
  repeat' split
  all_goals simp

@[simp] theorem createRead_frame (s : State) (r : Request) (p : Fin 4) :
    (s.createRead r p).classifier = s.classifier ∧ (s.createRead r p).journal = s.journal ∧ (s.createRead r
    p).startup = s.startup ∧ (s.createRead r p).supply = s.supply ∧ (s.createRead r p).mgmt = s.mgmt ∧
    (s.createRead r p).memory = s.memory ∧ (s.createRead r p).frameLines = s.frameLines ∧
    (s.createRead r p).pending = s.pending := by
  simp only [createRead]
  all_goals simp

@[simp] theorem bufferRead_frame (s : State) (r : Request) :
    (s.bufferRead r).classifier = s.classifier ∧ (s.bufferRead r).journal = s.journal ∧ (s.bufferRead
    r).startup = s.startup ∧ (s.bufferRead r).supply = s.supply ∧ (s.bufferRead r).mgmt = s.mgmt ∧
    (s.bufferRead r).memory = s.memory ∧ (s.bufferRead r).frameLines = s.frameLines ∧
    (s.bufferRead r).pending = s.pending := by
  simp only [bufferRead]
  repeat' split
  all_goals simp

@[simp] theorem classifyRead_frame (s : State) (r : Request) :
    (s.classifyRead r).classifier = s.classifier ∧ (s.classifyRead r).journal = s.journal ∧ (s.classifyRead
    r).startup = s.startup ∧ (s.classifyRead r).supply = s.supply ∧ (s.classifyRead r).mgmt = s.mgmt ∧
    (s.classifyRead r).memory = s.memory ∧ (s.classifyRead r).frameLines = s.frameLines ∧
    (s.classifyRead r).pending = s.pending := by
  simp only [classifyRead]
  repeat' split
  all_goals simp

@[simp] theorem matchRead_frame (s : State) (r : Request) :
    (s.matchRead r).classifier = s.classifier ∧ (s.matchRead r).journal = s.journal ∧ (s.matchRead r).startup
    = s.startup ∧ (s.matchRead r).supply = s.supply ∧ (s.matchRead r).mgmt = s.mgmt ∧ (s.matchRead r).memory =
    s.memory ∧ (s.matchRead r).frameLines = s.frameLines ∧ (s.matchRead r).pending = s.pending := by
  simp only [matchRead]
  repeat' split
  all_goals simp

@[simp] theorem decideRead_frame (s : State) (r : Request) :
    (s.decideRead r).classifier = s.classifier ∧ (s.decideRead r).journal = s.journal ∧ (s.decideRead
    r).startup = s.startup ∧ (s.decideRead r).supply = s.supply ∧ (s.decideRead r).mgmt = s.mgmt ∧
    (s.decideRead r).memory = s.memory ∧ (s.decideRead r).frameLines = s.frameLines ∧
    (s.decideRead r).pending = s.pending := by
  simp only [decideRead]
  repeat' split
  all_goals simp

@[simp] theorem applySettings_frame (s : State) (im : List Byte) :
    (s.applySettings im).lines = s.lines ∧ (s.applySettings im).queue = s.queue ∧ (s.applySettings im).nextPos
    = s.nextPos ∧ (s.applySettings im).drain = s.drain ∧ (s.applySettings im).supply = s.supply ∧
    (s.applySettings im).mgmt = s.mgmt ∧ (s.applySettings im).memory = s.memory ∧
    (s.applySettings im).frameLines = s.frameLines ∧ (s.applySettings im).pending = s.pending := by
  simp only [applySettings]
  all_goals simp

@[simp] theorem applyImage_frame (s : State) (im : List Byte) :
    (s.applyImage im).lines = s.lines ∧ (s.applyImage im).queue = s.queue ∧ (s.applyImage im).nextPos =
    s.nextPos ∧ (s.applyImage im).drain = s.drain ∧ (s.applyImage im).mgmt = s.mgmt ∧ (s.applyImage im).memory
    = s.memory ∧ (s.applyImage im).frameLines = s.frameLines ∧ (s.applyImage im).pending = s.pending := by
  simp only [applyImage]
  repeat' split
  all_goals simp

@[simp] theorem judgeShadow_frame (s : State) :
    (s.judgeShadow).lines = s.lines ∧ (s.judgeShadow).queue = s.queue ∧ (s.judgeShadow).nextPos = s.nextPos ∧
    (s.judgeShadow).drain = s.drain ∧ (s.judgeShadow).mgmt = s.mgmt ∧ (s.judgeShadow).memory = s.memory ∧
    (s.judgeShadow).frameLines = s.frameLines ∧ (s.judgeShadow).pending = s.pending := by
  simp only [judgeShadow]
  repeat' split
  all_goals simp

@[simp] theorem endLoading_frame (s : State) (im : Image) :
    (s.endLoading im).lines = s.lines ∧ (s.endLoading im).nextPos = s.nextPos ∧ (s.endLoading im).mgmt =
    s.mgmt ∧ (s.endLoading im).memory = s.memory ∧ (s.endLoading im).frameLines = s.frameLines ∧
    (s.endLoading im).pending = s.pending := by
  simp only [endLoading]
  all_goals simp

@[simp] theorem expireFilter_frame (s : State) (f : SupplyFilter) :
    (s.expireFilter f).lines = s.lines ∧ (s.expireFilter f).classifier = s.classifier ∧ (s.expireFilter
    f).nextPos = s.nextPos ∧ (s.expireFilter f).journal = s.journal ∧ (s.expireFilter f).mgmt = s.mgmt ∧
    (s.expireFilter f).memory = s.memory ∧ (s.expireFilter f).frameLines = s.frameLines ∧
    (s.expireFilter f).pending = s.pending := by
  simp only [expireFilter]
  repeat' split
  all_goals simp

@[simp] theorem followWlock_frame (s : State) :
    (s.followWlock).lines = s.lines ∧ (s.followWlock).classifier = s.classifier ∧ (s.followWlock).queue =
    s.queue ∧ (s.followWlock).engine = s.engine ∧ (s.followWlock).nextPos = s.nextPos ∧
    (s.followWlock).journal = s.journal ∧ (s.followWlock).drain = s.drain ∧ (s.followWlock).port = s.port ∧
    (s.followWlock).startup = s.startup ∧ (s.followWlock).mgmt = s.mgmt ∧ (s.followWlock).memory = s.memory ∧
    (s.followWlock).frameLines = s.frameLines ∧ (s.followWlock).pending = s.pending := by
  simp only [followWlock]
  repeat' split
  all_goals simp

@[simp] theorem expireClaim_frame (s : State) (p : Fin 4) (e : DelayedEntry) :
    (s.expireClaim p e).lines = s.lines ∧ (s.expireClaim p e).classifier = s.classifier ∧ (s.expireClaim p
    e).queue = s.queue ∧ (s.expireClaim p e).nextPos = s.nextPos ∧ (s.expireClaim p e).journal = s.journal ∧
    (s.expireClaim p e).drain = s.drain ∧ (s.expireClaim p e).port = s.port ∧ (s.expireClaim p e).startup =
    s.startup ∧ (s.expireClaim p e).supply = s.supply ∧ (s.expireClaim p e).mgmt = s.mgmt ∧ (s.expireClaim p
    e).memory = s.memory ∧ (s.expireClaim p e).frameLines = s.frameLines ∧ (s.expireClaim p e).pending = s.pending := by
  simp only [expireClaim]
  all_goals simp

@[simp] theorem frameFault_frame (s : State) :
    (s.frameFault).lines = s.lines ∧ (s.frameFault).classifier = s.classifier ∧ (s.frameFault).queue = s.queue
    ∧ (s.frameFault).engine = s.engine ∧ (s.frameFault).nextPos = s.nextPos ∧ (s.frameFault).journal =
    s.journal ∧ (s.frameFault).drain = s.drain ∧ (s.frameFault).port = s.port ∧ (s.frameFault).startup =
    s.startup ∧ (s.frameFault).supply = s.supply ∧ (s.frameFault).memory = s.memory ∧
    (s.frameFault).frameLines = s.frameLines ∧ (s.frameFault).pending = s.pending := by
  simp only [frameFault]
  all_goals simp

@[simp] theorem frameErrorAt_frame (s : State) (b : List Byte) (r : Bool) :
    (s.frameErrorAt b r).lines = s.lines ∧ (s.frameErrorAt b r).classifier = s.classifier ∧ (s.frameErrorAt b
    r).queue = s.queue ∧ (s.frameErrorAt b r).engine = s.engine ∧ (s.frameErrorAt b r).nextPos = s.nextPos ∧
    (s.frameErrorAt b r).journal = s.journal ∧ (s.frameErrorAt b r).drain = s.drain ∧ (s.frameErrorAt b
    r).port = s.port ∧ (s.frameErrorAt b r).startup = s.startup ∧ (s.frameErrorAt b r).supply = s.supply ∧
    (s.frameErrorAt b r).memory = s.memory ∧ (s.frameErrorAt b r).frameLines = s.frameLines ∧
    (s.frameErrorAt b r).pending = s.pending := by
  simp only [frameErrorAt]
  repeat' split
  all_goals simp

@[simp] theorem advanceFrame_frame (s : State) :
    (s.advanceFrame).lines = s.lines ∧ (s.advanceFrame).classifier = s.classifier ∧ (s.advanceFrame).queue = s.queue ∧
    (s.advanceFrame).engine = s.engine ∧ (s.advanceFrame).nextPos = s.nextPos ∧ (s.advanceFrame).journal = s.journal ∧
    (s.advanceFrame).drain = s.drain ∧ (s.advanceFrame).port = s.port ∧ (s.advanceFrame).startup = s.startup ∧
    (s.advanceFrame).supply = s.supply ∧ (s.advanceFrame).faults = s.faults ∧ (s.advanceFrame).memory = s.memory ∧
    (s.advanceFrame).frameLines = s.frameLines ∧ (s.advanceFrame).pending = s.pending := by
  simp only [advanceFrame]
  repeat' split
  all_goals simp

@[simp] theorem clockByte_frame (s : State) :
    (s.clockByte).lines = s.lines ∧ (s.clockByte).classifier = s.classifier ∧ (s.clockByte).queue = s.queue ∧
    (s.clockByte).engine = s.engine ∧ (s.clockByte).nextPos = s.nextPos ∧ (s.clockByte).journal = s.journal ∧
    (s.clockByte).drain = s.drain ∧ (s.clockByte).port = s.port ∧ (s.clockByte).startup = s.startup ∧
    (s.clockByte).supply = s.supply ∧ (s.clockByte).faults = s.faults ∧ (s.clockByte).memory = s.memory ∧
    (s.clockByte).frameLines = s.frameLines ∧ (s.clockByte).pending = s.pending := by
  simp only [clockByte]
  repeat' split
  all_goals simp

@[simp] theorem startReset_frame (s : State) (c : ResetCause) (l : SupplyLevel) (n : Bool) :
    (s.startReset c l n).frameLines = s.frameLines ∧ (s.startReset c l n).pending = s.pending := ⟨rfl, rfl⟩

@[simp] theorem endReset_frame (s : State) :
    (s.endReset).lines = s.lines ∧ (s.endReset).classifier = s.classifier ∧ (s.endReset).queue = s.queue ∧
    (s.endReset).engine = s.engine ∧ (s.endReset).nextPos = s.nextPos ∧ (s.endReset).journal = s.journal ∧
    (s.endReset).drain = s.drain ∧ (s.endReset).port = s.port ∧ (s.endReset).faults = s.faults ∧
    (s.endReset).mgmt = s.mgmt ∧ (s.endReset).memory = s.memory ∧ (s.endReset).frameLines = s.frameLines ∧
    (s.endReset).pending = s.pending := by
  simp only [endReset]
  all_goals simp

@[simp] theorem readCounters_frame (s : State) (c : Byte) :
    ((s.readCounters c).2).lines = s.lines ∧ ((s.readCounters c).2).classifier = s.classifier ∧
    ((s.readCounters c).2).queue = s.queue ∧ ((s.readCounters c).2).engine = s.engine ∧ ((s.readCounters
    c).2).nextPos = s.nextPos ∧ ((s.readCounters c).2).journal = s.journal ∧ ((s.readCounters c).2).drain =
    s.drain ∧ ((s.readCounters c).2).port = s.port ∧ ((s.readCounters c).2).startup = s.startup ∧
    ((s.readCounters c).2).supply = s.supply ∧ ((s.readCounters c).2).mgmt = s.mgmt ∧ ((s.readCounters
    c).2).memory = s.memory ∧ ((s.readCounters c).2).frameLines = s.frameLines ∧
    ((s.readCounters c).2).pending = s.pending := by
  simp only [readCounters]
  repeat' split
  all_goals simp

@[simp] theorem readRegion_frame (s : State) (i : Byte) :
    ((s.readRegion i).2).lines = s.lines ∧ ((s.readRegion i).2).classifier = s.classifier ∧ ((s.readRegion
    i).2).queue = s.queue ∧ ((s.readRegion i).2).engine = s.engine ∧ ((s.readRegion i).2).nextPos = s.nextPos
    ∧ ((s.readRegion i).2).journal = s.journal ∧ ((s.readRegion i).2).drain = s.drain ∧ ((s.readRegion
    i).2).port = s.port ∧ ((s.readRegion i).2).startup = s.startup ∧ ((s.readRegion i).2).supply = s.supply ∧
    ((s.readRegion i).2).faults = s.faults ∧ ((s.readRegion i).2).mgmt = s.mgmt ∧ ((s.readRegion i).2).memory
    = s.memory ∧ ((s.readRegion i).2).frameLines = s.frameLines ∧ ((s.readRegion i).2).pending = s.pending := by
  simp only [readRegion]
  repeat' split
  all_goals simp

@[simp] theorem clearEvents_frame (s : State) (b : BitVec 16) :
    ((s.clearEvents b).2).lines = s.lines ∧ ((s.clearEvents b).2).classifier = s.classifier ∧ ((s.clearEvents
    b).2).queue = s.queue ∧ ((s.clearEvents b).2).engine = s.engine ∧ ((s.clearEvents b).2).nextPos =
    s.nextPos ∧ ((s.clearEvents b).2).journal = s.journal ∧ ((s.clearEvents b).2).drain = s.drain ∧
    ((s.clearEvents b).2).port = s.port ∧ ((s.clearEvents b).2).startup = s.startup ∧ ((s.clearEvents
    b).2).supply = s.supply ∧ ((s.clearEvents b).2).mgmt = s.mgmt ∧ ((s.clearEvents b).2).memory = s.memory ∧
    ((s.clearEvents b).2).frameLines = s.frameLines ∧ ((s.clearEvents b).2).pending = s.pending := by
  simp only [clearEvents]
  repeat' split
  all_goals simp

@[simp] theorem writeEventMask_frame (s : State) (m : BitVec 16) (v : Byte) :
    ((s.writeEventMask m v).2).lines = s.lines ∧ ((s.writeEventMask m v).2).classifier = s.classifier ∧
    ((s.writeEventMask m v).2).queue = s.queue ∧ ((s.writeEventMask m v).2).engine = s.engine ∧
    ((s.writeEventMask m v).2).nextPos = s.nextPos ∧ ((s.writeEventMask m v).2).journal = s.journal ∧
    ((s.writeEventMask m v).2).drain = s.drain ∧ ((s.writeEventMask m v).2).port = s.port ∧ ((s.writeEventMask
    m v).2).startup = s.startup ∧ ((s.writeEventMask m v).2).supply = s.supply ∧ ((s.writeEventMask m
    v).2).mgmt = s.mgmt ∧ ((s.writeEventMask m v).2).memory = s.memory ∧
    ((s.writeEventMask m v).2).frameLines = s.frameLines ∧ ((s.writeEventMask m v).2).pending = s.pending := by
  simp only [writeEventMask]
  repeat' split
  all_goals simp

@[simp] theorem writeRegion_frame (s : State) (i : Byte) (b l : BitVec 16) (a e : Byte) :
    ((s.writeRegion i b l a e).2).lines = s.lines ∧ ((s.writeRegion i b l a e).2).queue = s.queue ∧
    ((s.writeRegion i b l a e).2).engine = s.engine ∧ ((s.writeRegion i b l a e).2).nextPos = s.nextPos ∧
    ((s.writeRegion i b l a e).2).journal = s.journal ∧ ((s.writeRegion i b l a e).2).drain = s.drain ∧
    ((s.writeRegion i b l a e).2).port = s.port ∧ ((s.writeRegion i b l a e).2).startup = s.startup ∧
    ((s.writeRegion i b l a e).2).supply = s.supply ∧ ((s.writeRegion i b l a e).2).faults = s.faults ∧
    ((s.writeRegion i b l a e).2).mgmt = s.mgmt ∧ ((s.writeRegion i b l a e).2).memory = s.memory ∧
    ((s.writeRegion i b l a e).2).frameLines = s.frameLines ∧ ((s.writeRegion i b l a e).2).pending = s.pending := by
  simp only [writeRegion]
  repeat' split
  all_goals simp

@[simp] theorem writeParameters_frame (s : State) (c l d w : Byte) :
    ((s.writeParameters c l d w).2).lines = s.lines ∧ ((s.writeParameters c l d w).2).classifier =
    s.classifier ∧ ((s.writeParameters c l d w).2).queue = s.queue ∧ ((s.writeParameters c l d w).2).nextPos =
    s.nextPos ∧ ((s.writeParameters c l d w).2).journal = s.journal ∧ ((s.writeParameters c l d w).2).drain =
    s.drain ∧ ((s.writeParameters c l d w).2).startup = s.startup ∧ ((s.writeParameters c l d w).2).mgmt =
    s.mgmt ∧ ((s.writeParameters c l d w).2).memory = s.memory ∧
    ((s.writeParameters c l d w).2).frameLines = s.frameLines ∧
    ((s.writeParameters c l d w).2).pending = s.pending := by
  simp only [writeParameters]
  repeat' split
  all_goals simp

@[simp] theorem writePlacement_frame (s : State) (b z : Nat) :
    ((s.writePlacement b z).2).lines = s.lines ∧ ((s.writePlacement b z).2).classifier = s.classifier ∧
    ((s.writePlacement b z).2).queue = s.queue ∧ ((s.writePlacement b z).2).engine = s.engine ∧
    ((s.writePlacement b z).2).nextPos = s.nextPos ∧ ((s.writePlacement b z).2).drain = s.drain ∧
    ((s.writePlacement b z).2).port = s.port ∧ ((s.writePlacement b z).2).startup = s.startup ∧
    ((s.writePlacement b z).2).mgmt = s.mgmt ∧ ((s.writePlacement b z).2).memory = s.memory ∧
    ((s.writePlacement b z).2).frameLines = s.frameLines ∧ ((s.writePlacement b z).2).pending = s.pending := by
  simp only [writePlacement]
  repeat' split
  all_goals simp

@[simp] theorem openPort_frame (s : State) :
    (s.openPort.2).lines = s.lines ∧ (s.openPort.2).classifier = s.classifier ∧ (s.openPort.2).queue = s.queue
    ∧ (s.openPort.2).engine = s.engine ∧ (s.openPort.2).nextPos = s.nextPos ∧ (s.openPort.2).journal =
    s.journal ∧ (s.openPort.2).drain = s.drain ∧ (s.openPort.2).port = s.port ∧ (s.openPort.2).supply =
    s.supply ∧ (s.openPort.2).faults = s.faults ∧ (s.openPort.2).mgmt = s.mgmt ∧ (s.openPort.2).memory =
    s.memory ∧ (s.openPort.2).frameLines = s.frameLines ∧ (s.openPort.2).pending = s.pending := by
  simp only [openPort]
  repeat' split
  all_goals simp

@[simp] theorem closeEpoch_frame (s : State) :
    (s.closeEpoch.2).lines = s.lines ∧ (s.closeEpoch.2).classifier = s.classifier ∧ (s.closeEpoch.2).startup =
    s.startup ∧ (s.closeEpoch.2).memory = s.memory ∧ (s.closeEpoch.2).frameLines = s.frameLines ∧
    (s.closeEpoch.2).pending = s.pending := by
  simp only [closeEpoch]
  repeat' split
  all_goals simp

@[simp] theorem initJournal_frame (s : State) (e : BitVec 32) :
    ((s.initJournal e).2).lines = s.lines ∧ ((s.initJournal e).2).classifier = s.classifier ∧ ((s.initJournal
    e).2).nextPos = s.nextPos ∧ ((s.initJournal e).2).startup = s.startup ∧ ((s.initJournal e).2).memory =
    s.memory ∧ ((s.initJournal e).2).frameLines = s.frameLines ∧ ((s.initJournal e).2).pending = s.pending := by
  simp only [initJournal]
  repeat' split
  all_goals simp

@[simp] theorem rollback_frame (s : State) :
    (s.rollback.2).lines = s.lines ∧ (s.rollback.2).classifier = s.classifier ∧ (s.rollback.2).nextPos =
    s.nextPos ∧ (s.rollback.2).memory = s.memory ∧ (s.rollback.2).frameLines = s.frameLines ∧
    (s.rollback.2).pending = s.pending := by
  simp only [rollback]
  repeat' split
  all_goals simp

end Sys2Proof.Machine.State
end

