-- ==== Sys2Proof/Laws/FaultGrowth.lean ====
section
/-! SUPPORT. What every operation can do to the fault and event unit: codes only get more severe, counters only rise, pending
bits are only set, mask and visibility stay, and IRQ# follows. -/

namespace Sys2Proof.Machine

/-- R156, R158, R161, R162: what a cause can do to the fault and event unit. -/
def FaultUnit.Grows (f g : FaultUnit) : Prop :=
  (∀ i : Fin 9, g.codes[i].byte ≤ f.codes[i].byte) ∧
    (∀ k, (f.counters.get k).toNat ≤ (g.counters.get k).toNat) ∧ g.mask = f.mask ∧ g.visible = f.visible ∧
    f.events ||| g.events = g.events ∧
    (f.irqLow = irqCondition f.events f.mask → g.irqLow = irqCondition g.events g.mask)

theorem FaultUnit.Grows.refl (f : FaultUnit) : f.Grows f :=
  ⟨fun _ => le_refl _, fun _ => le_refl _, rfl, rfl, by simp, id⟩

theorem FaultUnit.Grows.trans {f g h : FaultUnit} (a : f.Grows g) (b : g.Grows h) : f.Grows h := by
  obtain ⟨a1, a2, a3, a4, a5, a6⟩ := a
  obtain ⟨b1, b2, b3, b4, b5, b6⟩ := b
  exact ⟨fun i => le_trans (b1 i) (a1 i), fun k => le_trans (a2 k) (b2 k), b3.trans a3, b4.trans a4,
    by rw [← b5, ← a5]; ext i; simp; tauto, fun x => b6 (a6 x)⟩

namespace State

@[simp] theorem raise_grows {f0 : FaultUnit} (s : State) (k : EventKind) (h : f0.Grows s.faults) :
    f0.Grows (s.raise k).faults := by
  refine h.trans ?_
  unfold raise
  split
  · exact ⟨fun _ => le_refl _, fun _ => le_refl _, rfl, rfl, by ext i; simp [setEvents], fun _ => rfl⟩
  · exact FaultUnit.Grows.refl _

@[simp] theorem count_grows {f0 : FaultUnit} (s : State) (k : CounterKind) (h : f0.Grows s.faults) :
    f0.Grows (s.count k).faults := by
  have step : (s.faults).Grows (s.setCounters (s.faults.counters.set k (s.faults.counters.get k + 1))).faults ∨
      s.faults.counters.get k = BitVec.allOnes 16 := by
    by_cases h0 : s.faults.counters.get k = BitVec.allOnes 16
    · exact .inr h0
    · refine .inl ⟨fun _ => le_refl _, fun j => ?_, rfl, rfl, by simp [setCounters], fun x => x⟩
      have hle : (s.faults.counters.get k).toNat ≤ (s.faults.counters.get k + 1).toNat := by
        have : (s.faults.counters.get k).toNat ≠ 65535 := fun e => h0 (by apply BitVec.eq_of_toNat_eq; simpa using e)
        have := (s.faults.counters.get k).isLt
        rw [BitVec.toNat_add]
        simp
        omega
      cases k <;> cases j <;> first | exact hle | exact le_refl _
  simp only [count]
  split
  · exact h
  · rcases step with hs | hs
    · split
      · exact raise_grows _ _ (h.trans hs)
      · exact h.trans hs
    · contradiction

@[simp] theorem report_grows {f0 : FaultUnit} (s : State) (r : Fin 9) (c : RegionCode) (h : f0.Grows s.faults) :
    f0.Grows (s.report r c).faults := by
  simp only [report]
  split
  · next hlt =>
    have hs : s.faults.Grows (s.setCodes (s.faults.codes.set r c)).faults := by
      refine ⟨fun i => ?_, fun _ => le_refl _, rfl, rfl, by simp [setCodes], fun x => x⟩
      show (s.faults.codes.set r c)[i].byte ≤ _
      by_cases hi : r = i
      · subst hi; simpa using Nat.le_of_lt hlt
      · have : (r : Nat) ≠ i := fun e => hi (Fin.ext e)
        simp [this]
    split
    · exact raise_grows _ _ (h.trans hs)
    · exact h.trans hs
  · exact h

@[simp] theorem setLatch_grows {f0 : FaultUnit} (s : State) (k : InhibitSource) (h : f0.Grows s.faults) :
    f0.Grows (s.setLatch k).faults := by
  simp only [setLatch]
  repeat' split
  all_goals simp (maxDischargeDepth := 20) [h]

@[simp] theorem setJournalState_grows {f0 : FaultUnit} (s : State) (x : JournalState) (h : f0.Grows s.faults) :
    f0.Grows (s.setJournalState x).faults := by
  simp only [setJournalState]
  repeat' split
  all_goals simp (maxDischargeDepth := 20) [h]

@[simp] theorem endLong_grows {f0 : FaultUnit} (s : State) (r : LongResult) (h : f0.Grows s.faults) :
    f0.Grows (s.endLong r).faults := by
  simp only [endLong]
  all_goals simp (maxDischargeDepth := 20) [h]

@[simp] theorem listFailure_grows {f0 : FaultUnit} (s : State) (op : Operation) (h : f0.Grows s.faults) :
    f0.Grows (s.listFailure op).faults := by
  simp only [listFailure]
  repeat' split
  all_goals simp (maxDischargeDepth := 20) [h]

@[simp] theorem adopt_grows {f0 : FaultUnit} (s : State) (i : Fin 8) (h : f0.Grows s.faults) :
    f0.Grows (s.adopt i).faults := by
  simp only [adopt]
  repeat' split
  all_goals simp (maxDischargeDepth := 20) [h]

@[simp] theorem releaseSlot_grows {f0 : FaultUnit} (s : State) (x : Option (Fin 8)) (h : f0.Grows s.faults) :
    f0.Grows (s.releaseSlot x).faults := by
  simp only [releaseSlot]
  repeat' split
  all_goals simp (maxDischargeDepth := 20) [h]

@[simp] theorem removeEntry_grows {f0 : FaultUnit} (s : State) (p : Fin 4) (e : DelayedEntry) (h : f0.Grows s.faults) :
    f0.Grows (s.removeEntry p e).faults := by
  simp only [removeEntry]
  all_goals simp (maxDischargeDepth := 20) [h]

@[simp] theorem demandSucceeded_grows {f0 : FaultUnit} (s : State) (d : Line) (b : Bool) (h : f0.Grows s.faults) :
    f0.Grows (s.demandSucceeded d b).faults := by
  simp only [demandSucceeded]
  repeat' split
  all_goals simp (maxDischargeDepth := 20) [h]

@[simp] theorem demandFailed_grows {f0 : FaultUnit} (s : State) (h : f0.Grows s.faults) :
    f0.Grows (s.demandFailed).faults := by
  simp only [demandFailed]
  repeat' split
  all_goals simp (maxDischargeDepth := 20) [h]

@[simp] theorem prefetchSucceeded_grows {f0 : FaultUnit} (s : State) (d : Line) (h : f0.Grows s.faults) :
    f0.Grows (s.prefetchSucceeded d).faults := by
  simp only [prefetchSucceeded]
  repeat' split
  all_goals simp (maxDischargeDepth := 20) [h]

@[simp] theorem leave_grows {f0 : FaultUnit} (s : State) (i : DrainItem) (c : RegionCode) (r : EntryResult) (h : f0.Grows s.faults) :
    f0.Grows (s.leave i c r).faults := by
  simp only [leave]
  repeat' split
  all_goals simp (maxDischargeDepth := 20) [h]

@[simp] theorem beginItem_grows {f0 : FaultUnit} (s : State) (i : DrainItem) (h : f0.Grows s.faults) :
    f0.Grows (s.beginItem i).faults := by
  simp only [beginItem]
  repeat' split
  all_goals simp (maxDischargeDepth := 20) [h]

@[simp] theorem beginDrains_grows {f0 : FaultUnit} (n : Nat) (s : State) (h : f0.Grows s.faults) :
    f0.Grows (State.beginDrains n s).faults := by
  induction n generalizing s with
  | zero => simpa [beginDrains] using h
  | succ n ih =>
    unfold beginDrains
    repeat' split
    all_goals simp (maxDischargeDepth := 20) [ih, h]

@[simp] theorem completeRecord_grows {f0 : FaultUnit} (s : State) (i : DrainItem) (b : Body) (h : f0.Grows s.faults) :
    f0.Grows (s.completeRecord i b).faults := by
  simp only [completeRecord]
  all_goals simp (maxDischargeDepth := 20) [h]

@[simp] theorem closeSucceeded_grows {f0 : FaultUnit} (s : State) (h : f0.Grows s.faults) :
    f0.Grows (s.closeSucceeded).faults := by
  simp only [closeSucceeded]
  all_goals simp (maxDischargeDepth := 20) [h]

@[simp] theorem closeFailed_grows {f0 : FaultUnit} (s : State) (h : f0.Grows s.faults) :
    f0.Grows (s.closeFailed).faults := by
  simp only [closeFailed]
  all_goals simp (maxDischargeDepth := 20) [h]

@[simp] theorem removedSucceeded_grows {f0 : FaultUnit} (s : State) (d : Drain) (b : Body) (h : f0.Grows s.faults) :
    f0.Grows (s.removedSucceeded d b).faults := by
  simp only [removedSucceeded]
  repeat' split
  all_goals simp (maxDischargeDepth := 20) [h]

@[simp] theorem removedFailed_grows {f0 : FaultUnit} (s : State) (d : Drain) (h : f0.Grows s.faults) :
    f0.Grows (s.removedFailed d).faults := by
  simp only [removedFailed]
  repeat' split
  all_goals simp (maxDischargeDepth := 20) [h]

@[simp] theorem stageSucceeded_grows {f0 : FaultUnit} (s : State) (d : Drain) (b : Body) (x : Line) (f : Bool) (h : f0.Grows s.faults) :
    f0.Grows (s.stageSucceeded d b x f).faults := by
  simp only [stageSucceeded]
  repeat' split
  all_goals simp (maxDischargeDepth := 20) [h]

@[simp] theorem stageFailed_grows {f0 : FaultUnit} (s : State) (d : Drain) (h : f0.Grows s.faults) :
    f0.Grows (s.stageFailed d).faults := by
  simp only [stageFailed]
  repeat' split
  all_goals simp (maxDischargeDepth := 20) [h]

@[simp] theorem headSucceeded_grows {f0 : FaultUnit} (s : State) (x : Line) (f : Bool) (h : f0.Grows s.faults) :
    f0.Grows (s.headSucceeded x f).faults := by
  simp only [headSucceeded]
  repeat' split
  all_goals simp (maxDischargeDepth := 20) [h]

@[simp] theorem headFailed_grows {f0 : FaultUnit} (s : State) (h : f0.Grows s.faults) :
    f0.Grows (s.headFailed).faults := by
  simp only [headFailed]
  repeat' split
  all_goals simp (maxDischargeDepth := 20) [h]

@[simp] theorem initEnded_grows {f0 : FaultUnit} (s : State) (ok : Bool) (h : f0.Grows s.faults) :
    f0.Grows (s.initEnded ok).faults := by
  simp only [initEnded]
  repeat' split
  all_goals simp (maxDischargeDepth := 20) [h]

@[simp] theorem endStartup_grows {f0 : FaultUnit} (s : State) (h : f0.Grows s.faults) :
    f0.Grows (s.endStartup).faults := by
  simp only [endStartup]
  repeat' split
  all_goals simp (maxDischargeDepth := 20) [h]

@[simp] theorem endSupplyWait_grows {f0 : FaultUnit} (s : State) (h : f0.Grows s.faults) :
    f0.Grows (s.endSupplyWait).faults := by
  simp only [endSupplyWait]
  repeat' split
  all_goals simp (maxDischargeDepth := 20) [h]

@[simp] theorem rollbackEnds_grows {f0 : FaultUnit} (s : State) (r : LongResult) (h : f0.Grows s.faults) :
    f0.Grows (s.rollbackEnds r).faults := by
  simp only [rollbackEnds]
  repeat' split
  all_goals simp (maxDischargeDepth := 20) [h]

@[simp] theorem rollHeaderSucceeded_grows {f0 : FaultUnit} (s : State) (h : f0.Grows s.faults) :
    f0.Grows (s.rollHeaderSucceeded).faults := by
  simp only [rollHeaderSucceeded]
  repeat' split
  all_goals simp (maxDischargeDepth := 20) [h]

@[simp] theorem rollSucceeded_grows {f0 : FaultUnit} (s : State) (d : Line) (h : f0.Grows s.faults) :
    f0.Grows (s.rollSucceeded d).faults := by
  simp only [rollSucceeded]
  repeat' split
  all_goals simp (maxDischargeDepth := 20) [h]

@[simp] theorem rollFailed_grows {f0 : FaultUnit} (s : State) (h : f0.Grows s.faults) :
    f0.Grows (s.rollFailed).faults := by
  simp only [rollFailed]
  repeat' split
  all_goals simp (maxDischargeDepth := 20) [h]

@[simp] theorem scanEnds_grows {f0 : FaultUnit} (s : State) (n : Nat) (h : f0.Grows s.faults) :
    f0.Grows (s.scanEnds n).faults := by
  simp only [scanEnds]
  repeat' split
  all_goals simp (maxDischargeDepth := 20) [h]

@[simp] theorem scanTo_grows {f0 : FaultUnit} (s : State) (k : Nat) (h : f0.Grows s.faults) :
    f0.Grows (s.scanTo k).faults := by
  simp only [scanTo]
  repeat' split
  all_goals simp (maxDischargeDepth := 20) [h]

@[simp] theorem scanSucceeded_grows {f0 : FaultUnit} (s : State) (d : Line) (h : f0.Grows s.faults) :
    f0.Grows (s.scanSucceeded d).faults := by
  simp only [scanSucceeded]
  repeat' split
  all_goals simp (maxDischargeDepth := 20) [h]

@[simp] theorem scanBroken_grows {f0 : FaultUnit} (s : State) (k : Nat) (h : f0.Grows s.faults) :
    f0.Grows (s.scanBroken k).faults := by
  simp only [scanBroken]
  all_goals simp (maxDischargeDepth := 20) [h]

@[simp] theorem scanFailed_grows {f0 : FaultUnit} (s : State) (h : f0.Grows s.faults) :
    f0.Grows (s.scanFailed).faults := by
  simp only [scanFailed]
  repeat' split
  all_goals simp (maxDischargeDepth := 20) [h]

@[simp] theorem settle_grows {f0 : FaultUnit} (s : State) (h : f0.Grows s.faults) :
    f0.Grows (s.settle).faults := by
  simp only [settle]
  all_goals simp (maxDischargeDepth := 20) [h]

@[simp] theorem ownerSucceeded_grows {f0 : FaultUnit} (s : State) (op : Operation) (d : Line) (h : f0.Grows s.faults) :
    f0.Grows (s.ownerSucceeded op d).faults := by
  cases h' : op.owner <;> simp [ownerSucceeded, h', h]

@[simp] theorem ownerFailed_grows {f0 : FaultUnit} (s : State) (op : Operation) (h : f0.Grows s.faults) :
    f0.Grows (s.ownerFailed op).faults := by
  cases h' : op.owner <;> simp [ownerFailed, h', h]

@[simp] theorem succeed_grows {f0 : FaultUnit} (s : State) (op : Operation) (d : Line) (h : f0.Grows s.faults) :
    f0.Grows (s.succeed op d).faults := by
  simp only [succeed]
  all_goals simp (maxDischargeDepth := 20) [h]

@[simp] theorem failOp_grows {f0 : FaultUnit} (s : State) (op : Operation) (h : f0.Grows s.faults) :
    f0.Grows (s.failOp op).faults := by
  simp only [failOp]
  repeat' split
  all_goals simp (maxDischargeDepth := 20) [h]

@[simp] theorem failAtLimit_grows {f0 : FaultUnit} (s : State) (op : Operation) (h : f0.Grows s.faults) :
    f0.Grows (s.failAtLimit op).faults := by
  simp (maxDischargeDepth := 20) [failAtLimit, h]

@[simp] theorem attemptFailed_grows {f0 : FaultUnit} (s : State) (op : Operation) (h : f0.Grows s.faults) :
    f0.Grows (s.attemptFailed op).faults := by
  simp only [attemptFailed]
  repeat' split
  all_goals simp (maxDischargeDepth := 20) [h]

@[simp] theorem attemptError_grows {f0 : FaultUnit} (s : State) (op : Operation) (h : f0.Grows s.faults) :
    f0.Grows (s.attemptError op).faults := by
  simp only [attemptError]
  repeat' split
  all_goals simp (maxDischargeDepth := 20) [h]

@[simp] theorem attemptOk_grows {f0 : FaultUnit} (s : State) (op : Operation) (d : Line) (h : f0.Grows s.faults) :
    f0.Grows (s.attemptOk op d).faults := by
  simp only [attemptOk]
  repeat' split
  all_goals simp (maxDischargeDepth := 20) [h]

@[simp] theorem verifyFailed_grows {f0 : FaultUnit} (s : State) (op : Operation) (h : f0.Grows s.faults) :
    f0.Grows (s.verifyFailed op).faults := by
  simp only [verifyFailed]
  repeat' split
  all_goals simp (maxDischargeDepth := 20) [h]

@[simp] theorem verifyOk_grows {f0 : FaultUnit} (s : State) (op : Operation) (d : Line) (h : f0.Grows s.faults) :
    f0.Grows (s.verifyOk op d).faults := by
  simp only [verifyOk]
  repeat' split
  all_goals simp (maxDischargeDepth := 20) [h]

@[simp] theorem answered_grows {f0 : FaultUnit} (s : State) (op : Operation) (a : MemAnswer) (h : f0.Grows s.faults) :
    f0.Grows (s.answered op a).faults := by
  simp only [answered]
  repeat' split
  all_goals simp (maxDischargeDepth := 20) [h]

@[simp] theorem reissue_grows {f0 : FaultUnit} (s : State) (op : Operation) (h : f0.Grows s.faults) :
    f0.Grows (s.reissue op).faults := by
  simp only [reissue]
  repeat' split
  all_goals simp (maxDischargeDepth := 20) [h]

@[simp] theorem endBackoff_grows {f0 : FaultUnit} (s : State) (op : Operation) (h : f0.Grows s.faults) :
    f0.Grows (s.endBackoff op).faults := by
  simp only [endBackoff]
  repeat' split
  all_goals simp (maxDischargeDepth := 20) [h]

@[simp] theorem releaseHeld_grows {f0 : FaultUnit} (s : State) (h : f0.Grows s.faults) :
    f0.Grows (s.releaseHeld).faults := by
  simp only [releaseHeld]
  repeat' split
  all_goals simp (maxDischargeDepth := 20) [h]

@[simp] theorem resume_grows {f0 : FaultUnit} (s : State) (h : f0.Grows s.faults) :
    f0.Grows (s.resume).faults := by
  simp only [resume]
  all_goals simp (maxDischargeDepth := 20) [h]

@[simp] theorem glitchIf_grows {f0 : FaultUnit} (s : State) (b : Bool) (h : f0.Grows s.faults) :
    f0.Grows (s.glitchIf b).faults := by
  simp only [glitchIf]
  repeat' split
  all_goals simp (maxDischargeDepth := 20) [h]

@[simp] theorem setBelowWarn_grows {f0 : FaultUnit} (s : State) (b : Bool) (h : f0.Grows s.faults) :
    f0.Grows (s.setBelowWarn b).faults := by
  simp only [setBelowWarn]
  repeat' split
  all_goals simp (maxDischargeDepth := 20) [h]

@[simp] theorem setBelowFail_grows {f0 : FaultUnit} (s : State) (b : Bool) (h : f0.Grows s.faults) :
    f0.Grows (s.setBelowFail b).faults := by
  simp only [setBelowFail]
  repeat' split
  all_goals simp (maxDischargeDepth := 20) [h]

@[simp] theorem recompare_grows {f0 : FaultUnit} (s : State) (h : f0.Grows s.faults) :
    f0.Grows (s.recompare).faults := by
  simp only [recompare]
  repeat' split
  all_goals simp (maxDischargeDepth := 20) [h]

@[simp] theorem enterSupply_grows {f0 : FaultUnit} (s : State) (x : SupplyState) (h : f0.Grows s.faults) :
    f0.Grows (s.enterSupply x).faults := by
  simp only [enterSupply]
  repeat' split
  all_goals simp (maxDischargeDepth := 20) [h]

@[simp] theorem endWaitIfNormal_grows {f0 : FaultUnit} (s : State) (h : f0.Grows s.faults) :
    f0.Grows (s.endWaitIfNormal).faults := by
  simp only [endWaitIfNormal]
  repeat' split
  all_goals simp (maxDischargeDepth := 20) [h]

@[simp] theorem moveSupply_grows {f0 : FaultUnit} (s : State) (x : SupplyState) (h : f0.Grows s.faults) :
    f0.Grows (s.moveSupply x).faults := by
  simp only [moveSupply]
  repeat' split
  all_goals simp (maxDischargeDepth := 20) [h]

@[simp] theorem setWarnLevel_grows {f0 : FaultUnit} (s : State) (w : Byte) (h : f0.Grows s.faults) :
    f0.Grows (s.setWarnLevel w).faults := by
  simp only [setWarnLevel]
  all_goals simp (maxDischargeDepth := 20) [h]

@[simp] theorem placeJournal_grows {f0 : FaultUnit} (s : State) (b z : Nat) (h : f0.Grows s.faults) :
    f0.Grows (s.placeJournal b z).faults := by
  simp only [placeJournal]
  repeat' split
  all_goals simp (maxDischargeDepth := 20) [h]

@[simp] theorem setSoftware_grows {f0 : FaultUnit} (s : State) (h : f0.Grows s.faults) :
    f0.Grows (s.setSoftware).faults := by
  simp only [setSoftware]
  all_goals simp (maxDischargeDepth := 20) [h]

@[simp] theorem resetUpstream_grows {f0 : FaultUnit} (s : State) (h : f0.Grows s.faults) :
    f0.Grows (s.resetUpstream).faults := by
  simp only [resetUpstream]
  all_goals simp (maxDischargeDepth := 20) [h]

@[simp] theorem takeClose_grows {f0 : FaultUnit} (s : State) (h : f0.Grows s.faults) :
    f0.Grows (s.takeClose).faults := by
  simp only [takeClose]
  all_goals simp (maxDischargeDepth := 20) [h]

@[simp] theorem takeInit_grows {f0 : FaultUnit} (s : State) (e : BitVec 32) (h : f0.Grows s.faults) :
    f0.Grows (s.takeInit e).faults := by
  simp only [takeInit]
  all_goals simp (maxDischargeDepth := 20) [h]

@[simp] theorem takeRollback_grows {f0 : FaultUnit} (s : State) (h : f0.Grows s.faults) :
    f0.Grows (s.takeRollback).faults := by
  simp only [takeRollback]
  all_goals simp (maxDischargeDepth := 20) [h]

@[simp] theorem abortTo_grows {f0 : FaultUnit} (s : State) (r : Request) (i : Fin 9) (c : RegionCode) (h : f0.Grows s.faults) :
    f0.Grows (s.abortTo r i c).faults := by
  simp only [abortTo]
  all_goals simp (maxDischargeDepth := 20) [h]

@[simp] theorem noRoomTo_grows {f0 : FaultUnit} (s : State) (r : Request) (h : f0.Grows s.faults) :
    f0.Grows (s.noRoomTo r).faults := by
  simp only [noRoomTo]
  all_goals simp (maxDischargeDepth := 20) [h]

@[simp] theorem answerFromEntry_grows {f0 : FaultUnit} (s : State) (r : Request) (p : Fin 4) (e : DelayedEntry) (h : f0.Grows s.faults) :
    f0.Grows (s.answerFromEntry r p e).faults := by
  simp only [answerFromEntry]
  repeat' split
  all_goals simp (maxDischargeDepth := 20) [h]

@[simp] theorem acceptPosted_grows {f0 : FaultUnit} (s : State) (r : Request) (c : Classification) (h : f0.Grows s.faults) :
    f0.Grows (s.acceptPosted r c).faults := by
  simp only [acceptPosted]
  all_goals simp (maxDischargeDepth := 20) [h]

@[simp] theorem acceptDurable_grows {f0 : FaultUnit} (s : State) (r : Request) (c : Classification) (p : Fin 4) (h : f0.Grows s.faults) :
    f0.Grows (s.acceptDurable r c p).faults := by
  simp only [acceptDurable]
  all_goals simp (maxDischargeDepth := 20) [h]

@[simp] theorem roomDurable_grows {f0 : FaultUnit} (s : State) (r : Request) (c : Classification) (h : f0.Grows s.faults) :
    f0.Grows (s.roomDurable r c).faults := by
  simp only [roomDurable]
  repeat' split
  all_goals simp (maxDischargeDepth := 20) [h]

@[simp] theorem roomWrite_grows {f0 : FaultUnit} (s : State) (r : Request) (c : Classification) (h : f0.Grows s.faults) :
    f0.Grows (s.roomWrite r c).faults := by
  simp only [roomWrite]
  repeat' split
  all_goals simp (maxDischargeDepth := 20) [h]

@[simp] theorem guardWrite_grows {f0 : FaultUnit} (s : State) (r : Request) (h : f0.Grows s.faults) :
    f0.Grows (s.guardWrite r).faults := by
  simp only [guardWrite]
  repeat' split
  all_goals simp (maxDischargeDepth := 20) [h]

@[simp] theorem classifyWrite_grows {f0 : FaultUnit} (s : State) (r : Request) (h : f0.Grows s.faults) :
    f0.Grows (s.classifyWrite r).faults := by
  simp only [classifyWrite]
  repeat' split
  all_goals simp (maxDischargeDepth := 20) [h]

@[simp] theorem decideWrite_grows {f0 : FaultUnit} (s : State) (r : Request) (h : f0.Grows s.faults) :
    f0.Grows (s.decideWrite r).faults := by
  simp only [decideWrite]
  repeat' split
  all_goals simp (maxDischargeDepth := 20) [h]

@[simp] theorem createRead_grows {f0 : FaultUnit} (s : State) (r : Request) (p : Fin 4) (h : f0.Grows s.faults) :
    f0.Grows (s.createRead r p).faults := by
  simp only [createRead]
  all_goals simp (maxDischargeDepth := 20) [h]

@[simp] theorem bufferRead_grows {f0 : FaultUnit} (s : State) (r : Request) (h : f0.Grows s.faults) :
    f0.Grows (s.bufferRead r).faults := by
  simp only [bufferRead]
  repeat' split
  all_goals simp (maxDischargeDepth := 20) [h]

@[simp] theorem classifyRead_grows {f0 : FaultUnit} (s : State) (r : Request) (h : f0.Grows s.faults) :
    f0.Grows (s.classifyRead r).faults := by
  simp only [classifyRead]
  repeat' split
  all_goals simp (maxDischargeDepth := 20) [h]

@[simp] theorem matchRead_grows {f0 : FaultUnit} (s : State) (r : Request) (h : f0.Grows s.faults) :
    f0.Grows (s.matchRead r).faults := by
  simp only [matchRead]
  repeat' split
  all_goals simp (maxDischargeDepth := 20) [h]

@[simp] theorem decideRead_grows {f0 : FaultUnit} (s : State) (r : Request) (h : f0.Grows s.faults) :
    f0.Grows (s.decideRead r).faults := by
  simp only [decideRead]
  repeat' split
  all_goals simp (maxDischargeDepth := 20) [h]

@[simp] theorem expireFilter_grows {f0 : FaultUnit} (s : State) (f : SupplyFilter) (h : f0.Grows s.faults) :
    f0.Grows (s.expireFilter f).faults := by
  simp only [expireFilter]
  repeat' split
  all_goals simp (maxDischargeDepth := 20) [h]

@[simp] theorem followWlock_grows {f0 : FaultUnit} (s : State) (h : f0.Grows s.faults) :
    f0.Grows (s.followWlock).faults := by
  simp only [followWlock]
  repeat' split
  all_goals simp (maxDischargeDepth := 20) [h]

@[simp] theorem expireClaim_grows {f0 : FaultUnit} (s : State) (p : Fin 4) (e : DelayedEntry) (h : f0.Grows s.faults) :
    f0.Grows (s.expireClaim p e).faults := by
  simp only [expireClaim]
  all_goals simp (maxDischargeDepth := 20) [h]

@[simp] theorem frameFault_grows {f0 : FaultUnit} (s : State) (h : f0.Grows s.faults) :
    f0.Grows (s.frameFault).faults := by
  simp only [frameFault]
  all_goals simp (maxDischargeDepth := 20) [h]

@[simp] theorem frameErrorAt_grows {f0 : FaultUnit} (s : State) (b : List Byte) (r : Bool) (h : f0.Grows s.faults) :
    f0.Grows (s.frameErrorAt b r).faults := by
  simp only [frameErrorAt]
  repeat' split
  all_goals simp (maxDischargeDepth := 20) [h]

@[simp] theorem writeParameters_grows {f0 : FaultUnit} (s : State) (c l d w : Byte) (h : f0.Grows s.faults) :
    f0.Grows (s.writeParameters c l d w).2.faults := by
  simp only [writeParameters]
  repeat' split
  all_goals simp (maxDischargeDepth := 20) [h]

@[simp] theorem writePlacement_grows {f0 : FaultUnit} (s : State) (b z : Nat) (h : f0.Grows s.faults) :
    f0.Grows (s.writePlacement b z).2.faults := by
  simp only [writePlacement]
  repeat' split
  all_goals simp (maxDischargeDepth := 20) [h]

@[simp] theorem closeEpoch_grows {f0 : FaultUnit} (s : State) (h : f0.Grows s.faults) :
    f0.Grows (s.closeEpoch).2.faults := by
  simp only [closeEpoch]
  repeat' split
  all_goals simp (maxDischargeDepth := 20) [h]

@[simp] theorem initJournal_grows {f0 : FaultUnit} (s : State) (e : BitVec 32) (h : f0.Grows s.faults) :
    f0.Grows (s.initJournal e).2.faults := by
  simp only [initJournal]
  repeat' split
  all_goals simp (maxDischargeDepth := 20) [h]

@[simp] theorem rollback_grows {f0 : FaultUnit} (s : State) (h : f0.Grows s.faults) :
    f0.Grows (s.rollback).2.faults := by
  simp only [rollback]
  repeat' split
  all_goals simp (maxDischargeDepth := 20) [h]

end State

end Sys2Proof.Machine
end

