-- ==== Sys2Proof/Laws/FieldFrames.lean ====
section
/-! SUPPORT. Inside the blocks that an operation touches, the fields that it leaves unchanged, one lemma for each operation:
settings, the failed-line list, the fields of the supply unit besides the latches, the frame of the management port. -/

namespace Sys2Proof.Machine.State

@[simp] theorem raise_keeps (s : State) (k : EventKind) :
    (s.raise k).faults.codes = s.faults.codes ∧ (s.raise k).faults.counters = s.faults.counters ∧ (s.raise
    k).faults.mask = s.faults.mask ∧ (s.raise k).faults.visible = s.faults.visible := by
  simp only [raise]
  repeat' split
  all_goals simp

@[simp] theorem count_keeps (s : State) (k : CounterKind) :
    (s.count k).faults.codes = s.faults.codes := by
  simp only [count]
  repeat' split
  all_goals simp

@[simp] theorem report_keeps (s : State) (r : Fin 9) (c : RegionCode) :
    (s.report r c).faults.counters = s.faults.counters := by
  simp only [report]
  repeat' split
  all_goals simp

@[simp] theorem setLatch_keeps (s : State) (k : InhibitSource) :
    (s.setLatch k).supply.level = s.supply.level ∧ (s.setLatch k).supply.state = s.supply.state ∧ (s.setLatch
    k).supply.belowWarn = s.supply.belowWarn ∧ (s.setLatch k).supply.belowFail = s.supply.belowFail ∧ (s.setLatch
    k).supply.timers = s.supply.timers ∧ (s.setLatch k).supply.warnWatch = s.supply.warnWatch ∧ (s.setLatch
    k).supply.failWatch = s.supply.failWatch ∧ (s.setLatch k).supply.warnLevel = s.supply.warnLevel ∧ (s.setLatch
    k).supply.nwarnLow = s.supply.nwarnLow ∧ (s.setLatch k).supply.wlockPin = s.supply.wlockPin ∧ (s.setLatch
    k).supply.wlock = s.supply.wlock ∧ (s.setLatch k).supply.wlockTimer = s.supply.wlockTimer ∧ (s.setLatch
    k).supply.software = s.supply.software ∧ (s.setLatch k).faults.codes = s.faults.codes ∧ (s.setLatch
    k).faults.counters = s.faults.counters := by
  simp only [setLatch]
  repeat' split
  all_goals simp

@[simp] theorem setJournalState_keeps (s : State) (x : JournalState) :
    (s.setJournalState x).journal.basePage = s.journal.basePage ∧ (s.setJournalState x).journal.sizePages =
    s.journal.sizePages ∧ (s.setJournalState x).journal.epoch = s.journal.epoch ∧ (s.setJournalState
    x).journal.written = s.journal.written ∧ (s.setJournalState x).journal.lineSet = s.journal.lineSet ∧
    (s.setJournalState x).supply.level = s.supply.level ∧ (s.setJournalState x).supply.state = s.supply.state ∧
    (s.setJournalState x).supply.belowWarn = s.supply.belowWarn ∧ (s.setJournalState x).supply.belowFail =
    s.supply.belowFail ∧ (s.setJournalState x).supply.timers = s.supply.timers ∧ (s.setJournalState
    x).supply.warnWatch = s.supply.warnWatch ∧ (s.setJournalState x).supply.failWatch = s.supply.failWatch ∧
    (s.setJournalState x).supply.warnLevel = s.supply.warnLevel ∧ (s.setJournalState x).supply.nwarnLow =
    s.supply.nwarnLow ∧ (s.setJournalState x).supply.wlockPin = s.supply.wlockPin ∧ (s.setJournalState
    x).supply.wlock = s.supply.wlock ∧ (s.setJournalState x).supply.wlockTimer = s.supply.wlockTimer ∧
    (s.setJournalState x).supply.software = s.supply.software ∧ (s.setJournalState x).faults.codes = s.faults.codes
    ∧ (s.setJournalState x).faults.counters = s.faults.counters := by
  simp only [setJournalState]
  repeat' split
  all_goals simp

@[simp] theorem endLong_keeps (s : State) (r : LongResult) :
    (s.endLong r).mgmt.frame = s.mgmt.frame ∧ (s.endLong r).mgmt.bits = s.mgmt.bits ∧
    (s.endLong r).mgmt.mdoLine = s.mgmt.mdoLine ∧
    (s.endLong r).mgmt.received = s.mgmt.received ∧ (s.endLong
    r).mgmt.response = s.mgmt.response ∧ (s.endLong r).mgmt.sent = s.mgmt.sent ∧ (s.endLong r).mgmt.lastError =
    s.mgmt.lastError ∧ (s.endLong r).faults.codes = s.faults.codes ∧ (s.endLong r).faults.counters =
    s.faults.counters := by
  simp only [endLong]
  all_goals simp

@[simp] theorem listFailure_keeps (s : State) (op : Operation) :
    (s.listFailure op).port.attemptLimit = s.port.attemptLimit := by
  simp only [listFailure]
  repeat' split
  all_goals simp

@[simp] theorem takeReservation_keeps (s : State) (k : ReservationKind) (l : Nat) :
    (s.takeReservation k l).journal.basePage = s.journal.basePage ∧ (s.takeReservation k l).journal.sizePages =
    s.journal.sizePages ∧ (s.takeReservation k l).journal.state = s.journal.state ∧ (s.takeReservation k
    l).journal.epoch = s.journal.epoch ∧ (s.takeReservation k l).journal.written = s.journal.written := by
  cases k <;> simp [takeReservation]

@[simp] theorem completeEntry_keeps (s : State) (p : Fin 4) (e : DelayedEntry) (r : EntryResult) (x : Option (Fin 8)) :
    (s.completeEntry p e r x).engine.claimTimeout = s.engine.claimTimeout ∧ (s.completeEntry p e r
    x).engine.prefetchDepth = s.engine.prefetchDepth := by
  simp only [completeEntry]
  all_goals simp

@[simp] theorem adopt_keeps (s : State) (i : Fin 8) :
    (s.adopt i).engine.claimTimeout = s.engine.claimTimeout ∧ (s.adopt i).engine.prefetchDepth =
    s.engine.prefetchDepth := by
  simp only [adopt]
  repeat' split
  all_goals simp

@[simp] theorem releaseSlot_keeps (s : State) (x : Option (Fin 8)) :
    (s.releaseSlot x).engine.claimTimeout = s.engine.claimTimeout ∧ (s.releaseSlot x).engine.prefetchDepth =
    s.engine.prefetchDepth := by
  simp only [releaseSlot]
  repeat' split
  all_goals simp

@[simp] theorem removeEntry_keeps (s : State) (p : Fin 4) (e : DelayedEntry) :
    (s.removeEntry p e).engine.claimTimeout = s.engine.claimTimeout ∧ (s.removeEntry p e).engine.prefetchDepth =
    s.engine.prefetchDepth := by
  simp only [removeEntry]
  all_goals simp

@[simp] theorem freshen_keeps (s : State) (l : Nat) :
    (s.freshen l).engine.claimTimeout = s.engine.claimTimeout ∧ (s.freshen l).engine.prefetchDepth =
    s.engine.prefetchDepth := by
  simp only [freshen]
  repeat' split
  all_goals simp

@[simp] theorem grantDemand_keeps (s : State) (p : Fin 4) :
    (s.grantDemand p).engine.claimTimeout = s.engine.claimTimeout ∧ (s.grantDemand p).engine.prefetchDepth =
    s.engine.prefetchDepth ∧ (s.grantDemand p).port.attemptLimit = s.port.attemptLimit ∧ (s.grantDemand
    p).port.failed = s.port.failed ∧ (s.grantDemand p).port.overflow = s.port.overflow := by
  simp only [grantDemand]
  repeat' split
  all_goals simp

@[simp] theorem grantPrefetch_keeps (s : State) (l : Nat) (rest : List Nat) :
    (s.grantPrefetch l rest).engine.claimTimeout = s.engine.claimTimeout ∧ (s.grantPrefetch l
    rest).engine.prefetchDepth = s.engine.prefetchDepth ∧ (s.grantPrefetch l rest).port.attemptLimit =
    s.port.attemptLimit ∧ (s.grantPrefetch l rest).port.failed = s.port.failed ∧ (s.grantPrefetch l
    rest).port.overflow = s.port.overflow := by
  simp only [grantPrefetch]
  repeat' split
  all_goals simp

@[simp] theorem returnReader_keeps (s : State) (o : Option (Fin 4)) :
    (s.returnReader o).engine.claimTimeout = s.engine.claimTimeout ∧ (s.returnReader o).engine.prefetchDepth =
    s.engine.prefetchDepth := by
  simp only [returnReader]
  repeat' split
  all_goals simp

@[simp] theorem fillSlot_keeps (s : State) (i : Fin 8) (l : Nat) (d : Line) (o : Option (Fin 4)) :
    (s.fillSlot i l d o).engine.claimTimeout = s.engine.claimTimeout ∧ (s.fillSlot i l d o).engine.prefetchDepth =
    s.engine.prefetchDepth := by
  simp only [fillSlot]
  all_goals simp

@[simp] theorem demandSucceeded_keeps (s : State) (d : Line) (b : Bool) :
    (s.demandSucceeded d b).engine.claimTimeout = s.engine.claimTimeout ∧ (s.demandSucceeded d
    b).engine.prefetchDepth = s.engine.prefetchDepth := by
  simp only [demandSucceeded]
  repeat' split
  all_goals simp

@[simp] theorem demandFailed_keeps (s : State) :
    (s.demandFailed).engine.claimTimeout = s.engine.claimTimeout ∧ (s.demandFailed).engine.prefetchDepth =
    s.engine.prefetchDepth := by
  simp only [demandFailed]
  repeat' split
  all_goals simp

@[simp] theorem prefetchSucceeded_keeps (s : State) (d : Line) :
    (s.prefetchSucceeded d).engine.claimTimeout = s.engine.claimTimeout ∧ (s.prefetchSucceeded
    d).engine.prefetchDepth = s.engine.prefetchDepth := by
  simp only [prefetchSucceeded]
  repeat' split
  all_goals simp

@[simp] theorem prefetchFailed_keeps (s : State) :
    (s.prefetchFailed).engine.claimTimeout = s.engine.claimTimeout ∧ (s.prefetchFailed).engine.prefetchDepth =
    s.engine.prefetchDepth := by
  simp only [prefetchFailed]
  repeat' split
  all_goals simp

@[simp] theorem leave_keeps (s : State) (i : DrainItem) (c : RegionCode) (r : EntryResult) :
    (s.leave i c r).engine.claimTimeout = s.engine.claimTimeout ∧ (s.leave i c r).engine.prefetchDepth =
    s.engine.prefetchDepth := by
  simp only [leave]
  repeat' split
  all_goals simp

@[simp] theorem issueEntry_keeps (s : State) (i : DrainItem) :
    (s.issueEntry i).engine.claimTimeout = s.engine.claimTimeout ∧ (s.issueEntry i).engine.prefetchDepth =
    s.engine.prefetchDepth := by
  simp only [issueEntry]
  repeat' split
  all_goals simp

@[simp] theorem beginItem_keeps (s : State) (i : DrainItem) :
    (s.beginItem i).engine.claimTimeout = s.engine.claimTimeout ∧ (s.beginItem i).engine.prefetchDepth =
    s.engine.prefetchDepth := by
  simp only [beginItem]
  repeat' split
  all_goals simp

@[simp] theorem beginDrains_keeps (n : Nat) (s : State) :
    (State.beginDrains n s).engine.claimTimeout = s.engine.claimTimeout ∧
    (State.beginDrains n s).engine.prefetchDepth = s.engine.prefetchDepth := by
  induction n generalizing s with
  | zero => simp [beginDrains]
  | succ n ih =>
    unfold beginDrains
    repeat' split
    all_goals simp [ih]

@[simp] theorem setItemBody_keeps (s : State) (i : DrainItem) (b : Body) :
    (s.setItemBody i b).engine.claimTimeout = s.engine.claimTimeout ∧ (s.setItemBody i b).engine.prefetchDepth =
    s.engine.prefetchDepth := by
  simp only [setItemBody]
  repeat' split
  all_goals simp

@[simp] theorem completeRecord_keeps (s : State) (i : DrainItem) (b : Body) :
    (s.completeRecord i b).engine.claimTimeout = s.engine.claimTimeout ∧ (s.completeRecord i
    b).engine.prefetchDepth = s.engine.prefetchDepth ∧ (s.completeRecord i b).journal.basePage = s.journal.basePage
    ∧ (s.completeRecord i b).journal.sizePages = s.journal.sizePages ∧ (s.completeRecord i b).journal.state =
    s.journal.state ∧ (s.completeRecord i b).journal.epoch = s.journal.epoch := by
  simp only [completeRecord]
  all_goals simp

@[simp] theorem closeSucceeded_keeps (s : State) :
    (s.closeSucceeded).journal.basePage = s.journal.basePage ∧ (s.closeSucceeded).journal.sizePages =
    s.journal.sizePages ∧ (s.closeSucceeded).supply.level = s.supply.level ∧ (s.closeSucceeded).supply.state =
    s.supply.state ∧ (s.closeSucceeded).supply.belowWarn = s.supply.belowWarn ∧ (s.closeSucceeded).supply.belowFail
    = s.supply.belowFail ∧ (s.closeSucceeded).supply.timers = s.supply.timers ∧ (s.closeSucceeded).supply.warnWatch
    = s.supply.warnWatch ∧ (s.closeSucceeded).supply.failWatch = s.supply.failWatch ∧
    (s.closeSucceeded).supply.warnLevel = s.supply.warnLevel ∧ (s.closeSucceeded).supply.nwarnLow =
    s.supply.nwarnLow ∧ (s.closeSucceeded).supply.wlockPin = s.supply.wlockPin ∧ (s.closeSucceeded).supply.wlock =
    s.supply.wlock ∧ (s.closeSucceeded).supply.wlockTimer = s.supply.wlockTimer ∧
    (s.closeSucceeded).supply.software = s.supply.software ∧ (s.closeSucceeded).mgmt.frame = s.mgmt.frame ∧
    (s.closeSucceeded).mgmt.bits = s.mgmt.bits ∧
    (s.closeSucceeded).mgmt.mdoLine = s.mgmt.mdoLine ∧ (s.closeSucceeded).mgmt.received = s.mgmt.received ∧
    (s.closeSucceeded).mgmt.response = s.mgmt.response ∧
    (s.closeSucceeded).mgmt.sent = s.mgmt.sent ∧ (s.closeSucceeded).mgmt.lastError = s.mgmt.lastError := by
  simp only [closeSucceeded]
  all_goals simp

@[simp] theorem closeFailed_keeps (s : State) :
    (s.closeFailed).journal.basePage = s.journal.basePage ∧ (s.closeFailed).journal.sizePages = s.journal.sizePages
    ∧ (s.closeFailed).journal.epoch = s.journal.epoch ∧ (s.closeFailed).journal.written = s.journal.written ∧
    (s.closeFailed).journal.lineSet = s.journal.lineSet ∧ (s.closeFailed).supply.level = s.supply.level ∧
    (s.closeFailed).supply.state = s.supply.state ∧ (s.closeFailed).supply.belowWarn = s.supply.belowWarn ∧
    (s.closeFailed).supply.belowFail = s.supply.belowFail ∧ (s.closeFailed).supply.timers = s.supply.timers ∧
    (s.closeFailed).supply.warnWatch = s.supply.warnWatch ∧ (s.closeFailed).supply.failWatch = s.supply.failWatch ∧
    (s.closeFailed).supply.warnLevel = s.supply.warnLevel ∧ (s.closeFailed).supply.nwarnLow = s.supply.nwarnLow ∧
    (s.closeFailed).supply.wlockPin = s.supply.wlockPin ∧ (s.closeFailed).supply.wlock = s.supply.wlock ∧
    (s.closeFailed).supply.wlockTimer = s.supply.wlockTimer ∧ (s.closeFailed).supply.software = s.supply.software ∧
    (s.closeFailed).mgmt.frame = s.mgmt.frame ∧ (s.closeFailed).mgmt.bits = s.mgmt.bits ∧
    (s.closeFailed).mgmt.mdoLine = s.mgmt.mdoLine ∧
    (s.closeFailed).mgmt.received = s.mgmt.received ∧
    (s.closeFailed).mgmt.response = s.mgmt.response ∧ (s.closeFailed).mgmt.sent = s.mgmt.sent ∧
    (s.closeFailed).mgmt.lastError = s.mgmt.lastError := by
  simp only [closeFailed]
  all_goals simp

@[simp] theorem removedSucceeded_keeps (s : State) (d : Drain) (b : Body) :
    (s.removedSucceeded d b).engine.claimTimeout = s.engine.claimTimeout ∧ (s.removedSucceeded d
    b).engine.prefetchDepth = s.engine.prefetchDepth ∧ (s.removedSucceeded d b).journal.basePage =
    s.journal.basePage ∧ (s.removedSucceeded d b).journal.sizePages = s.journal.sizePages := by
  simp only [removedSucceeded]
  repeat' split
  all_goals simp

@[simp] theorem removedFailed_keeps (s : State) (d : Drain) :
    (s.removedFailed d).journal.basePage = s.journal.basePage ∧ (s.removedFailed d).journal.sizePages =
    s.journal.sizePages ∧ (s.removedFailed d).journal.epoch = s.journal.epoch ∧ (s.removedFailed d).journal.written
    = s.journal.written ∧ (s.removedFailed d).journal.lineSet = s.journal.lineSet ∧ (s.removedFailed
    d).supply.level = s.supply.level ∧ (s.removedFailed d).supply.state = s.supply.state ∧ (s.removedFailed
    d).supply.belowWarn = s.supply.belowWarn ∧ (s.removedFailed d).supply.belowFail = s.supply.belowFail ∧
    (s.removedFailed d).supply.timers = s.supply.timers ∧ (s.removedFailed d).supply.warnWatch = s.supply.warnWatch
    ∧ (s.removedFailed d).supply.failWatch = s.supply.failWatch ∧ (s.removedFailed d).supply.warnLevel =
    s.supply.warnLevel ∧ (s.removedFailed d).supply.nwarnLow = s.supply.nwarnLow ∧ (s.removedFailed
    d).supply.wlockPin = s.supply.wlockPin ∧ (s.removedFailed d).supply.wlock = s.supply.wlock ∧ (s.removedFailed
    d).supply.wlockTimer = s.supply.wlockTimer ∧ (s.removedFailed d).supply.software = s.supply.software := by
  simp only [removedFailed]
  repeat' split
  all_goals simp

@[simp] theorem stageSucceeded_keeps (s : State) (d : Drain) (b : Body) (x : Line) (f : Bool) :
    (s.stageSucceeded d b x f).engine.claimTimeout = s.engine.claimTimeout ∧ (s.stageSucceeded d b x
    f).engine.prefetchDepth = s.engine.prefetchDepth ∧ (s.stageSucceeded d b x f).journal.basePage =
    s.journal.basePage ∧ (s.stageSucceeded d b x f).journal.sizePages = s.journal.sizePages := by
  simp only [stageSucceeded]
  repeat' split
  all_goals simp

@[simp] theorem stageFailed_keeps (s : State) (d : Drain) :
    (s.stageFailed d).engine.claimTimeout = s.engine.claimTimeout ∧ (s.stageFailed d).engine.prefetchDepth =
    s.engine.prefetchDepth ∧ (s.stageFailed d).journal.basePage = s.journal.basePage ∧ (s.stageFailed
    d).journal.sizePages = s.journal.sizePages ∧ (s.stageFailed d).journal.epoch = s.journal.epoch ∧ (s.stageFailed
    d).journal.written = s.journal.written ∧ (s.stageFailed d).journal.lineSet = s.journal.lineSet ∧ (s.stageFailed
    d).supply.level = s.supply.level ∧ (s.stageFailed d).supply.state = s.supply.state ∧ (s.stageFailed
    d).supply.belowWarn = s.supply.belowWarn ∧ (s.stageFailed d).supply.belowFail = s.supply.belowFail ∧
    (s.stageFailed d).supply.timers = s.supply.timers ∧ (s.stageFailed d).supply.warnWatch = s.supply.warnWatch ∧
    (s.stageFailed d).supply.failWatch = s.supply.failWatch ∧ (s.stageFailed d).supply.warnLevel =
    s.supply.warnLevel ∧ (s.stageFailed d).supply.nwarnLow = s.supply.nwarnLow ∧ (s.stageFailed d).supply.wlockPin
    = s.supply.wlockPin ∧ (s.stageFailed d).supply.wlock = s.supply.wlock ∧ (s.stageFailed d).supply.wlockTimer =
    s.supply.wlockTimer ∧ (s.stageFailed d).supply.software = s.supply.software := by
  simp only [stageFailed]
  repeat' split
  all_goals simp

@[simp] theorem headSucceeded_keeps (s : State) (x : Line) (f : Bool) :
    (s.headSucceeded x f).engine.claimTimeout = s.engine.claimTimeout ∧ (s.headSucceeded x f).engine.prefetchDepth
    = s.engine.prefetchDepth ∧ (s.headSucceeded x f).journal.basePage = s.journal.basePage ∧ (s.headSucceeded x
    f).journal.sizePages = s.journal.sizePages ∧ (s.headSucceeded x f).supply.level = s.supply.level ∧
    (s.headSucceeded x f).supply.state = s.supply.state ∧ (s.headSucceeded x f).supply.belowWarn =
    s.supply.belowWarn ∧ (s.headSucceeded x f).supply.belowFail = s.supply.belowFail ∧ (s.headSucceeded x
    f).supply.timers = s.supply.timers ∧ (s.headSucceeded x f).supply.warnWatch = s.supply.warnWatch ∧
    (s.headSucceeded x f).supply.failWatch = s.supply.failWatch ∧ (s.headSucceeded x f).supply.warnLevel =
    s.supply.warnLevel ∧ (s.headSucceeded x f).supply.nwarnLow = s.supply.nwarnLow ∧ (s.headSucceeded x
    f).supply.wlockPin = s.supply.wlockPin ∧ (s.headSucceeded x f).supply.wlock = s.supply.wlock ∧ (s.headSucceeded
    x f).supply.wlockTimer = s.supply.wlockTimer ∧ (s.headSucceeded x f).supply.software = s.supply.software ∧
    (s.headSucceeded x f).mgmt.frame = s.mgmt.frame ∧ (s.headSucceeded x f).mgmt.bits = s.mgmt.bits ∧
    (s.headSucceeded x f).mgmt.mdoLine = s.mgmt.mdoLine ∧
    (s.headSucceeded x f).mgmt.received = s.mgmt.received ∧
    (s.headSucceeded x f).mgmt.response = s.mgmt.response ∧ (s.headSucceeded x f).mgmt.sent = s.mgmt.sent ∧
    (s.headSucceeded x f).mgmt.lastError = s.mgmt.lastError := by
  simp only [headSucceeded]
  repeat' split
  all_goals simp

@[simp] theorem headFailed_keeps (s : State) :
    (s.headFailed).engine.claimTimeout = s.engine.claimTimeout ∧ (s.headFailed).engine.prefetchDepth =
    s.engine.prefetchDepth ∧ (s.headFailed).journal.basePage = s.journal.basePage ∧
    (s.headFailed).journal.sizePages = s.journal.sizePages ∧ (s.headFailed).journal.epoch = s.journal.epoch ∧
    (s.headFailed).journal.written = s.journal.written ∧ (s.headFailed).journal.lineSet = s.journal.lineSet ∧
    (s.headFailed).supply.level = s.supply.level ∧ (s.headFailed).supply.state = s.supply.state ∧
    (s.headFailed).supply.belowWarn = s.supply.belowWarn ∧ (s.headFailed).supply.belowFail = s.supply.belowFail ∧
    (s.headFailed).supply.timers = s.supply.timers ∧ (s.headFailed).supply.warnWatch = s.supply.warnWatch ∧
    (s.headFailed).supply.failWatch = s.supply.failWatch ∧ (s.headFailed).supply.warnLevel = s.supply.warnLevel ∧
    (s.headFailed).supply.nwarnLow = s.supply.nwarnLow ∧ (s.headFailed).supply.wlockPin = s.supply.wlockPin ∧
    (s.headFailed).supply.wlock = s.supply.wlock ∧ (s.headFailed).supply.wlockTimer = s.supply.wlockTimer ∧
    (s.headFailed).supply.software = s.supply.software ∧ (s.headFailed).mgmt.frame = s.mgmt.frame ∧
    (s.headFailed).mgmt.bits = s.mgmt.bits ∧
    (s.headFailed).mgmt.mdoLine = s.mgmt.mdoLine ∧ (s.headFailed).mgmt.received = s.mgmt.received ∧
    (s.headFailed).mgmt.response = s.mgmt.response ∧
    (s.headFailed).mgmt.sent = s.mgmt.sent ∧ (s.headFailed).mgmt.lastError = s.mgmt.lastError := by
  simp only [headFailed]
  repeat' split
  all_goals simp

@[simp] theorem initEnded_keeps (s : State) (ok : Bool) :
    (s.initEnded ok).journal.basePage = s.journal.basePage ∧ (s.initEnded ok).journal.sizePages =
    s.journal.sizePages ∧ (s.initEnded ok).journal.epoch = s.journal.epoch ∧ (s.initEnded ok).journal.written =
    s.journal.written ∧ (s.initEnded ok).journal.lineSet = s.journal.lineSet ∧ (s.initEnded ok).supply.level =
    s.supply.level ∧ (s.initEnded ok).supply.state = s.supply.state ∧ (s.initEnded ok).supply.belowWarn =
    s.supply.belowWarn ∧ (s.initEnded ok).supply.belowFail = s.supply.belowFail ∧ (s.initEnded ok).supply.timers =
    s.supply.timers ∧ (s.initEnded ok).supply.warnWatch = s.supply.warnWatch ∧ (s.initEnded ok).supply.failWatch =
    s.supply.failWatch ∧ (s.initEnded ok).supply.warnLevel = s.supply.warnLevel ∧ (s.initEnded ok).supply.nwarnLow
    = s.supply.nwarnLow ∧ (s.initEnded ok).supply.wlockPin = s.supply.wlockPin ∧ (s.initEnded ok).supply.wlock =
    s.supply.wlock ∧ (s.initEnded ok).supply.wlockTimer = s.supply.wlockTimer ∧ (s.initEnded ok).supply.software =
    s.supply.software ∧ (s.initEnded ok).mgmt.frame = s.mgmt.frame ∧ (s.initEnded ok).mgmt.bits = s.mgmt.bits ∧
    (s.initEnded ok).mgmt.mdoLine = s.mgmt.mdoLine ∧
    (s.initEnded ok).mgmt.received = s.mgmt.received ∧ (s.initEnded ok).mgmt.response = s.mgmt.response ∧
    (s.initEnded ok).mgmt.sent = s.mgmt.sent ∧
    (s.initEnded ok).mgmt.lastError = s.mgmt.lastError := by
  simp only [initEnded]
  repeat' split
  all_goals simp

@[simp] theorem endStartup_keeps (s : State) :
    (s.endStartup).startup.inReset = s.startup.inReset ∧ (s.endStartup).startup.nrstLow = s.startup.nrstLow ∧
    (s.endStartup).startup.cause = s.startup.cause ∧ (s.endStartup).startup.mode = s.startup.mode ∧
    (s.endStartup).startup.loadResult = s.startup.loadResult ∧ (s.endStartup).startup.shadow = s.startup.shadow ∧
    (s.endStartup).faults.codes = s.faults.codes ∧ (s.endStartup).faults.counters = s.faults.counters := by
  simp only [endStartup]
  repeat' split
  all_goals simp

@[simp] theorem endSupplyWait_keeps (s : State) :
    (s.endSupplyWait).startup.inReset = s.startup.inReset ∧ (s.endSupplyWait).startup.nrstLow = s.startup.nrstLow ∧
    (s.endSupplyWait).startup.cause = s.startup.cause ∧ (s.endSupplyWait).startup.mode = s.startup.mode ∧
    (s.endSupplyWait).startup.loadResult = s.startup.loadResult ∧ (s.endSupplyWait).startup.shadow =
    s.startup.shadow ∧ (s.endSupplyWait).faults.codes = s.faults.codes ∧ (s.endSupplyWait).faults.counters =
    s.faults.counters := by
  simp only [endSupplyWait]
  repeat' split
  all_goals simp

@[simp] theorem beginRollback_keeps (s : State) :
    (s.beginRollback).startup.inReset = s.startup.inReset ∧ (s.beginRollback).startup.nrstLow = s.startup.nrstLow ∧
    (s.beginRollback).startup.cause = s.startup.cause ∧ (s.beginRollback).startup.mode = s.startup.mode ∧
    (s.beginRollback).startup.loadResult = s.startup.loadResult ∧ (s.beginRollback).startup.shadow =
    s.startup.shadow := by
  simp only [beginRollback]
  all_goals simp

@[simp] theorem skipRecord_keeps (s : State) (k : Nat) :
    (s.skipRecord k).startup.inReset = s.startup.inReset ∧ (s.skipRecord k).startup.nrstLow = s.startup.nrstLow ∧
    (s.skipRecord k).startup.cause = s.startup.cause ∧ (s.skipRecord k).startup.mode = s.startup.mode ∧
    (s.skipRecord k).startup.loadResult = s.startup.loadResult ∧
    (s.skipRecord k).startup.shadow = s.startup.shadow := by
  simp only [skipRecord]
  all_goals simp

@[simp] theorem rollbackEnds_keeps (s : State) (r : LongResult) :
    (s.rollbackEnds r).startup.inReset = s.startup.inReset ∧ (s.rollbackEnds r).startup.nrstLow = s.startup.nrstLow
    ∧ (s.rollbackEnds r).startup.cause = s.startup.cause ∧ (s.rollbackEnds r).startup.mode = s.startup.mode ∧
    (s.rollbackEnds r).startup.loadResult = s.startup.loadResult ∧ (s.rollbackEnds r).startup.shadow =
    s.startup.shadow ∧ (s.rollbackEnds r).mgmt.frame = s.mgmt.frame ∧ (s.rollbackEnds r).mgmt.bits = s.mgmt.bits ∧
    (s.rollbackEnds r).mgmt.mdoLine = s.mgmt.mdoLine ∧
    (s.rollbackEnds r).mgmt.received = s.mgmt.received ∧ (s.rollbackEnds r).mgmt.response = s.mgmt.response ∧
    (s.rollbackEnds r).mgmt.sent =
    s.mgmt.sent ∧ (s.rollbackEnds r).mgmt.lastError = s.mgmt.lastError ∧ (s.rollbackEnds r).faults.codes =
    s.faults.codes ∧ (s.rollbackEnds r).faults.counters = s.faults.counters := by
  simp only [rollbackEnds]
  repeat' split
  all_goals simp

@[simp] theorem rollHeaderSucceeded_keeps (s : State) :
    (s.rollHeaderSucceeded).journal.basePage = s.journal.basePage ∧ (s.rollHeaderSucceeded).journal.sizePages =
    s.journal.sizePages ∧ (s.rollHeaderSucceeded).startup.inReset = s.startup.inReset ∧
    (s.rollHeaderSucceeded).startup.nrstLow = s.startup.nrstLow ∧ (s.rollHeaderSucceeded).startup.cause =
    s.startup.cause ∧ (s.rollHeaderSucceeded).startup.mode = s.startup.mode ∧
    (s.rollHeaderSucceeded).startup.loadResult = s.startup.loadResult ∧ (s.rollHeaderSucceeded).startup.shadow =
    s.startup.shadow ∧ (s.rollHeaderSucceeded).supply.level = s.supply.level ∧ (s.rollHeaderSucceeded).supply.state
    = s.supply.state ∧ (s.rollHeaderSucceeded).supply.belowWarn = s.supply.belowWarn ∧
    (s.rollHeaderSucceeded).supply.belowFail = s.supply.belowFail ∧ (s.rollHeaderSucceeded).supply.timers =
    s.supply.timers ∧ (s.rollHeaderSucceeded).supply.warnWatch = s.supply.warnWatch ∧
    (s.rollHeaderSucceeded).supply.failWatch = s.supply.failWatch ∧ (s.rollHeaderSucceeded).supply.warnLevel =
    s.supply.warnLevel ∧ (s.rollHeaderSucceeded).supply.nwarnLow = s.supply.nwarnLow ∧
    (s.rollHeaderSucceeded).supply.wlockPin = s.supply.wlockPin ∧ (s.rollHeaderSucceeded).supply.wlock =
    s.supply.wlock ∧ (s.rollHeaderSucceeded).supply.wlockTimer = s.supply.wlockTimer ∧
    (s.rollHeaderSucceeded).supply.software = s.supply.software ∧ (s.rollHeaderSucceeded).mgmt.frame = s.mgmt.frame
    ∧ (s.rollHeaderSucceeded).mgmt.bits = s.mgmt.bits ∧
    (s.rollHeaderSucceeded).mgmt.mdoLine = s.mgmt.mdoLine ∧ (s.rollHeaderSucceeded).mgmt.received = s.mgmt.received ∧
    (s.rollHeaderSucceeded).mgmt.response =
    s.mgmt.response ∧ (s.rollHeaderSucceeded).mgmt.sent = s.mgmt.sent ∧ (s.rollHeaderSucceeded).mgmt.lastError =
    s.mgmt.lastError := by
  simp only [rollHeaderSucceeded]
  repeat' split
  all_goals simp

@[simp] theorem rollSucceeded_keeps (s : State) (d : Line) :
    (s.rollSucceeded d).journal.basePage = s.journal.basePage ∧ (s.rollSucceeded d).journal.sizePages =
    s.journal.sizePages ∧ (s.rollSucceeded d).startup.inReset = s.startup.inReset ∧ (s.rollSucceeded
    d).startup.nrstLow = s.startup.nrstLow ∧ (s.rollSucceeded d).startup.cause = s.startup.cause ∧ (s.rollSucceeded
    d).startup.mode = s.startup.mode ∧ (s.rollSucceeded d).startup.loadResult = s.startup.loadResult ∧
    (s.rollSucceeded d).startup.shadow = s.startup.shadow ∧ (s.rollSucceeded d).supply.level = s.supply.level ∧
    (s.rollSucceeded d).supply.state = s.supply.state ∧ (s.rollSucceeded d).supply.belowWarn = s.supply.belowWarn ∧
    (s.rollSucceeded d).supply.belowFail = s.supply.belowFail ∧ (s.rollSucceeded d).supply.timers = s.supply.timers
    ∧ (s.rollSucceeded d).supply.warnWatch = s.supply.warnWatch ∧ (s.rollSucceeded d).supply.failWatch =
    s.supply.failWatch ∧ (s.rollSucceeded d).supply.warnLevel = s.supply.warnLevel ∧ (s.rollSucceeded
    d).supply.nwarnLow = s.supply.nwarnLow ∧ (s.rollSucceeded d).supply.wlockPin = s.supply.wlockPin ∧
    (s.rollSucceeded d).supply.wlock = s.supply.wlock ∧ (s.rollSucceeded d).supply.wlockTimer = s.supply.wlockTimer
    ∧ (s.rollSucceeded d).supply.software = s.supply.software ∧ (s.rollSucceeded d).mgmt.frame = s.mgmt.frame ∧
    (s.rollSucceeded d).mgmt.bits = s.mgmt.bits ∧
    (s.rollSucceeded d).mgmt.mdoLine = s.mgmt.mdoLine ∧ (s.rollSucceeded d).mgmt.received = s.mgmt.received ∧
    (s.rollSucceeded d).mgmt.response = s.mgmt.response ∧
    (s.rollSucceeded d).mgmt.sent = s.mgmt.sent ∧ (s.rollSucceeded d).mgmt.lastError = s.mgmt.lastError := by
  simp only [rollSucceeded]
  repeat' split
  all_goals simp

@[simp] theorem rollFailed_keeps (s : State) :
    (s.rollFailed).journal.basePage = s.journal.basePage ∧ (s.rollFailed).journal.sizePages = s.journal.sizePages ∧
    (s.rollFailed).journal.epoch = s.journal.epoch ∧ (s.rollFailed).journal.written = s.journal.written ∧
    (s.rollFailed).journal.lineSet = s.journal.lineSet ∧ (s.rollFailed).startup.inReset = s.startup.inReset ∧
    (s.rollFailed).startup.nrstLow = s.startup.nrstLow ∧ (s.rollFailed).startup.cause = s.startup.cause ∧
    (s.rollFailed).startup.mode = s.startup.mode ∧ (s.rollFailed).startup.loadResult = s.startup.loadResult ∧
    (s.rollFailed).startup.shadow = s.startup.shadow ∧ (s.rollFailed).supply.level = s.supply.level ∧
    (s.rollFailed).supply.state = s.supply.state ∧ (s.rollFailed).supply.belowWarn = s.supply.belowWarn ∧
    (s.rollFailed).supply.belowFail = s.supply.belowFail ∧ (s.rollFailed).supply.timers = s.supply.timers ∧
    (s.rollFailed).supply.warnWatch = s.supply.warnWatch ∧ (s.rollFailed).supply.failWatch = s.supply.failWatch ∧
    (s.rollFailed).supply.warnLevel = s.supply.warnLevel ∧ (s.rollFailed).supply.nwarnLow = s.supply.nwarnLow ∧
    (s.rollFailed).supply.wlockPin = s.supply.wlockPin ∧ (s.rollFailed).supply.wlock = s.supply.wlock ∧
    (s.rollFailed).supply.wlockTimer = s.supply.wlockTimer ∧ (s.rollFailed).supply.software = s.supply.software ∧
    (s.rollFailed).mgmt.frame = s.mgmt.frame ∧ (s.rollFailed).mgmt.bits = s.mgmt.bits ∧
    (s.rollFailed).mgmt.mdoLine = s.mgmt.mdoLine ∧
    (s.rollFailed).mgmt.received = s.mgmt.received ∧
    (s.rollFailed).mgmt.response = s.mgmt.response ∧ (s.rollFailed).mgmt.sent = s.mgmt.sent ∧
    (s.rollFailed).mgmt.lastError = s.mgmt.lastError := by
  simp only [rollFailed]
  repeat' split
  all_goals simp

@[simp] theorem scanEnds_keeps (s : State) (n : Nat) :
    (s.scanEnds n).journal.basePage = s.journal.basePage ∧ (s.scanEnds n).journal.sizePages = s.journal.sizePages ∧
    (s.scanEnds n).startup.inReset = s.startup.inReset ∧ (s.scanEnds n).startup.nrstLow = s.startup.nrstLow ∧
    (s.scanEnds n).startup.cause = s.startup.cause ∧ (s.scanEnds n).startup.mode = s.startup.mode ∧ (s.scanEnds
    n).startup.loadResult = s.startup.loadResult ∧ (s.scanEnds n).startup.shadow = s.startup.shadow ∧ (s.scanEnds
    n).supply.level = s.supply.level ∧ (s.scanEnds n).supply.state = s.supply.state ∧ (s.scanEnds
    n).supply.belowWarn = s.supply.belowWarn ∧ (s.scanEnds n).supply.belowFail = s.supply.belowFail ∧ (s.scanEnds
    n).supply.timers = s.supply.timers ∧ (s.scanEnds n).supply.warnWatch = s.supply.warnWatch ∧ (s.scanEnds
    n).supply.failWatch = s.supply.failWatch ∧ (s.scanEnds n).supply.warnLevel = s.supply.warnLevel ∧ (s.scanEnds
    n).supply.nwarnLow = s.supply.nwarnLow ∧ (s.scanEnds n).supply.wlockPin = s.supply.wlockPin ∧ (s.scanEnds
    n).supply.wlock = s.supply.wlock ∧ (s.scanEnds n).supply.wlockTimer = s.supply.wlockTimer ∧ (s.scanEnds
    n).supply.software = s.supply.software := by
  simp only [scanEnds]
  repeat' split
  all_goals simp

@[simp] theorem scanTo_keeps (s : State) (k : Nat) :
    (s.scanTo k).journal.basePage = s.journal.basePage ∧ (s.scanTo k).journal.sizePages = s.journal.sizePages ∧
    (s.scanTo k).startup.inReset = s.startup.inReset ∧ (s.scanTo k).startup.nrstLow = s.startup.nrstLow ∧ (s.scanTo
    k).startup.cause = s.startup.cause ∧ (s.scanTo k).startup.mode = s.startup.mode ∧ (s.scanTo
    k).startup.loadResult = s.startup.loadResult ∧ (s.scanTo k).startup.shadow = s.startup.shadow ∧ (s.scanTo
    k).supply.level = s.supply.level ∧ (s.scanTo k).supply.state = s.supply.state ∧ (s.scanTo k).supply.belowWarn =
    s.supply.belowWarn ∧ (s.scanTo k).supply.belowFail = s.supply.belowFail ∧ (s.scanTo k).supply.timers =
    s.supply.timers ∧ (s.scanTo k).supply.warnWatch = s.supply.warnWatch ∧ (s.scanTo k).supply.failWatch =
    s.supply.failWatch ∧ (s.scanTo k).supply.warnLevel = s.supply.warnLevel ∧ (s.scanTo k).supply.nwarnLow =
    s.supply.nwarnLow ∧ (s.scanTo k).supply.wlockPin = s.supply.wlockPin ∧ (s.scanTo k).supply.wlock =
    s.supply.wlock ∧ (s.scanTo k).supply.wlockTimer = s.supply.wlockTimer ∧ (s.scanTo k).supply.software =
    s.supply.software := by
  simp only [scanTo]
  repeat' split
  all_goals simp

@[simp] theorem scanSucceeded_keeps (s : State) (d : Line) :
    (s.scanSucceeded d).journal.basePage = s.journal.basePage ∧ (s.scanSucceeded d).journal.sizePages =
    s.journal.sizePages ∧ (s.scanSucceeded d).startup.inReset = s.startup.inReset ∧ (s.scanSucceeded
    d).startup.nrstLow = s.startup.nrstLow ∧ (s.scanSucceeded d).startup.cause = s.startup.cause ∧ (s.scanSucceeded
    d).startup.mode = s.startup.mode ∧ (s.scanSucceeded d).startup.loadResult = s.startup.loadResult ∧
    (s.scanSucceeded d).startup.shadow = s.startup.shadow ∧ (s.scanSucceeded d).supply.level = s.supply.level ∧
    (s.scanSucceeded d).supply.state = s.supply.state ∧ (s.scanSucceeded d).supply.belowWarn = s.supply.belowWarn ∧
    (s.scanSucceeded d).supply.belowFail = s.supply.belowFail ∧ (s.scanSucceeded d).supply.timers = s.supply.timers
    ∧ (s.scanSucceeded d).supply.warnWatch = s.supply.warnWatch ∧ (s.scanSucceeded d).supply.failWatch =
    s.supply.failWatch ∧ (s.scanSucceeded d).supply.warnLevel = s.supply.warnLevel ∧ (s.scanSucceeded
    d).supply.nwarnLow = s.supply.nwarnLow ∧ (s.scanSucceeded d).supply.wlockPin = s.supply.wlockPin ∧
    (s.scanSucceeded d).supply.wlock = s.supply.wlock ∧ (s.scanSucceeded d).supply.wlockTimer = s.supply.wlockTimer
    ∧ (s.scanSucceeded d).supply.software = s.supply.software := by
  simp only [scanSucceeded]
  repeat' split
  all_goals simp

@[simp] theorem scanBroken_keeps (s : State) (k : Nat) :
    (s.scanBroken k).journal.basePage = s.journal.basePage ∧ (s.scanBroken k).journal.sizePages =
    s.journal.sizePages ∧ (s.scanBroken k).startup.inReset = s.startup.inReset ∧ (s.scanBroken k).startup.nrstLow =
    s.startup.nrstLow ∧ (s.scanBroken k).startup.cause = s.startup.cause ∧ (s.scanBroken k).startup.mode =
    s.startup.mode ∧ (s.scanBroken k).startup.loadResult = s.startup.loadResult ∧ (s.scanBroken k).startup.shadow =
    s.startup.shadow ∧ (s.scanBroken k).supply.level = s.supply.level ∧ (s.scanBroken k).supply.state =
    s.supply.state ∧ (s.scanBroken k).supply.belowWarn = s.supply.belowWarn ∧ (s.scanBroken k).supply.belowFail =
    s.supply.belowFail ∧ (s.scanBroken k).supply.timers = s.supply.timers ∧ (s.scanBroken k).supply.warnWatch =
    s.supply.warnWatch ∧ (s.scanBroken k).supply.failWatch = s.supply.failWatch ∧ (s.scanBroken k).supply.warnLevel
    = s.supply.warnLevel ∧ (s.scanBroken k).supply.nwarnLow = s.supply.nwarnLow ∧ (s.scanBroken k).supply.wlockPin
    = s.supply.wlockPin ∧ (s.scanBroken k).supply.wlock = s.supply.wlock ∧ (s.scanBroken k).supply.wlockTimer =
    s.supply.wlockTimer ∧ (s.scanBroken k).supply.software = s.supply.software := by
  simp only [scanBroken]
  all_goals simp

@[simp] theorem scanFailed_keeps (s : State) :
    (s.scanFailed).journal.basePage = s.journal.basePage ∧ (s.scanFailed).journal.sizePages = s.journal.sizePages ∧
    (s.scanFailed).startup.inReset = s.startup.inReset ∧ (s.scanFailed).startup.nrstLow = s.startup.nrstLow ∧
    (s.scanFailed).startup.cause = s.startup.cause ∧ (s.scanFailed).startup.mode = s.startup.mode ∧
    (s.scanFailed).startup.loadResult = s.startup.loadResult ∧ (s.scanFailed).startup.shadow = s.startup.shadow ∧
    (s.scanFailed).supply.level = s.supply.level ∧ (s.scanFailed).supply.state = s.supply.state ∧
    (s.scanFailed).supply.belowWarn = s.supply.belowWarn ∧ (s.scanFailed).supply.belowFail = s.supply.belowFail ∧
    (s.scanFailed).supply.timers = s.supply.timers ∧ (s.scanFailed).supply.warnWatch = s.supply.warnWatch ∧
    (s.scanFailed).supply.failWatch = s.supply.failWatch ∧ (s.scanFailed).supply.warnLevel = s.supply.warnLevel ∧
    (s.scanFailed).supply.nwarnLow = s.supply.nwarnLow ∧ (s.scanFailed).supply.wlockPin = s.supply.wlockPin ∧
    (s.scanFailed).supply.wlock = s.supply.wlock ∧ (s.scanFailed).supply.wlockTimer = s.supply.wlockTimer ∧
    (s.scanFailed).supply.software = s.supply.software := by
  simp only [scanFailed]
  repeat' split
  all_goals simp

@[simp] theorem grantWrite_keeps (s : State) (op : Operation) :
    (s.grantWrite op).port.attemptLimit = s.port.attemptLimit ∧ (s.grantWrite op).port.failed = s.port.failed ∧
    (s.grantWrite op).port.overflow = s.port.overflow := by
  simp only [grantWrite]
  all_goals simp

@[simp] theorem grantOffer_keeps (s : State) (o : Option Operation) :
    (s.grantOffer o).port.attemptLimit = s.port.attemptLimit ∧ (s.grantOffer o).port.failed = s.port.failed ∧
    (s.grantOffer o).port.overflow = s.port.overflow := by
  simp only [grantOffer]
  repeat' split
  all_goals simp

@[simp] theorem takePrefetch_keeps (s : State) (o : Option Operation) :
    (s.takePrefetch o).engine.claimTimeout = s.engine.claimTimeout ∧ (s.takePrefetch o).engine.prefetchDepth =
    s.engine.prefetchDepth ∧ (s.takePrefetch o).port.attemptLimit = s.port.attemptLimit ∧ (s.takePrefetch
    o).port.failed = s.port.failed ∧ (s.takePrefetch o).port.overflow = s.port.overflow := by
  simp only [takePrefetch]
  repeat' split
  all_goals simp

@[simp] theorem takeRead_keeps (s : State) (o : Option Operation) :
    (s.takeRead o).engine.claimTimeout = s.engine.claimTimeout ∧ (s.takeRead o).engine.prefetchDepth =
    s.engine.prefetchDepth ∧ (s.takeRead o).port.attemptLimit = s.port.attemptLimit ∧ (s.takeRead o).port.failed =
    s.port.failed ∧ (s.takeRead o).port.overflow = s.port.overflow := by
  simp only [takeRead]
  repeat' split
  all_goals simp

@[simp] theorem arbitrate_keeps (s : State) :
    (s.arbitrate).engine.claimTimeout = s.engine.claimTimeout ∧ (s.arbitrate).engine.prefetchDepth =
    s.engine.prefetchDepth ∧ (s.arbitrate).port.attemptLimit = s.port.attemptLimit ∧ (s.arbitrate).port.failed =
    s.port.failed ∧ (s.arbitrate).port.overflow = s.port.overflow := by
  simp only [arbitrate]
  repeat' split
  all_goals simp

@[simp] theorem settle_keeps (s : State) :
    (s.settle).engine.claimTimeout = s.engine.claimTimeout ∧ (s.settle).engine.prefetchDepth =
    s.engine.prefetchDepth ∧ (s.settle).port.attemptLimit = s.port.attemptLimit ∧ (s.settle).port.failed =
    s.port.failed ∧ (s.settle).port.overflow = s.port.overflow := by
  simp only [settle]
  all_goals simp

@[simp] theorem ownerSucceeded_keeps (s : State) (op : Operation) (d : Line) :
    (s.ownerSucceeded op d).engine.claimTimeout = s.engine.claimTimeout ∧ (s.ownerSucceeded op
    d).engine.prefetchDepth = s.engine.prefetchDepth ∧ (s.ownerSucceeded op d).journal.basePage =
    s.journal.basePage ∧ (s.ownerSucceeded op d).journal.sizePages = s.journal.sizePages ∧ (s.ownerSucceeded op
    d).startup.inReset = s.startup.inReset ∧ (s.ownerSucceeded op d).startup.nrstLow = s.startup.nrstLow ∧
    (s.ownerSucceeded op d).startup.cause = s.startup.cause ∧ (s.ownerSucceeded op d).startup.mode = s.startup.mode
    ∧ (s.ownerSucceeded op d).startup.loadResult = s.startup.loadResult ∧ (s.ownerSucceeded op d).startup.shadow =
    s.startup.shadow ∧ (s.ownerSucceeded op d).supply.level = s.supply.level ∧ (s.ownerSucceeded op d).supply.state
    = s.supply.state ∧ (s.ownerSucceeded op d).supply.belowWarn = s.supply.belowWarn ∧ (s.ownerSucceeded op
    d).supply.belowFail = s.supply.belowFail ∧ (s.ownerSucceeded op d).supply.timers = s.supply.timers ∧
    (s.ownerSucceeded op d).supply.warnWatch = s.supply.warnWatch ∧ (s.ownerSucceeded op d).supply.failWatch =
    s.supply.failWatch ∧ (s.ownerSucceeded op d).supply.warnLevel = s.supply.warnLevel ∧ (s.ownerSucceeded op
    d).supply.nwarnLow = s.supply.nwarnLow ∧ (s.ownerSucceeded op d).supply.wlockPin = s.supply.wlockPin ∧
    (s.ownerSucceeded op d).supply.wlock = s.supply.wlock ∧ (s.ownerSucceeded op d).supply.wlockTimer =
    s.supply.wlockTimer ∧ (s.ownerSucceeded op d).supply.software = s.supply.software ∧ (s.ownerSucceeded op
    d).mgmt.frame = s.mgmt.frame ∧ (s.ownerSucceeded op d).mgmt.bits = s.mgmt.bits ∧
    (s.ownerSucceeded op d).mgmt.mdoLine = s.mgmt.mdoLine ∧
    (s.ownerSucceeded op d).mgmt.received = s.mgmt.received ∧ (s.ownerSucceeded op
    d).mgmt.response = s.mgmt.response ∧ (s.ownerSucceeded op d).mgmt.sent = s.mgmt.sent ∧ (s.ownerSucceeded op
    d).mgmt.lastError = s.mgmt.lastError := by
  cases h : op.owner <;> simp [ownerSucceeded, h]

@[simp] theorem ownerFailed_keeps (s : State) (op : Operation) :
    (s.ownerFailed op).engine.claimTimeout = s.engine.claimTimeout ∧ (s.ownerFailed op).engine.prefetchDepth =
    s.engine.prefetchDepth ∧ (s.ownerFailed op).journal.basePage = s.journal.basePage ∧ (s.ownerFailed
    op).journal.sizePages = s.journal.sizePages ∧ (s.ownerFailed op).startup.inReset = s.startup.inReset ∧
    (s.ownerFailed op).startup.nrstLow = s.startup.nrstLow ∧ (s.ownerFailed op).startup.cause = s.startup.cause ∧
    (s.ownerFailed op).startup.mode = s.startup.mode ∧ (s.ownerFailed op).startup.loadResult = s.startup.loadResult
    ∧ (s.ownerFailed op).startup.shadow = s.startup.shadow ∧ (s.ownerFailed op).supply.level = s.supply.level ∧
    (s.ownerFailed op).supply.state = s.supply.state ∧ (s.ownerFailed op).supply.belowWarn = s.supply.belowWarn ∧
    (s.ownerFailed op).supply.belowFail = s.supply.belowFail ∧ (s.ownerFailed op).supply.timers = s.supply.timers ∧
    (s.ownerFailed op).supply.warnWatch = s.supply.warnWatch ∧ (s.ownerFailed op).supply.failWatch =
    s.supply.failWatch ∧ (s.ownerFailed op).supply.warnLevel = s.supply.warnLevel ∧ (s.ownerFailed
    op).supply.nwarnLow = s.supply.nwarnLow ∧ (s.ownerFailed op).supply.wlockPin = s.supply.wlockPin ∧
    (s.ownerFailed op).supply.wlock = s.supply.wlock ∧ (s.ownerFailed op).supply.wlockTimer = s.supply.wlockTimer ∧
    (s.ownerFailed op).supply.software = s.supply.software ∧ (s.ownerFailed op).mgmt.frame = s.mgmt.frame ∧
    (s.ownerFailed op).mgmt.bits = s.mgmt.bits ∧
    (s.ownerFailed op).mgmt.mdoLine = s.mgmt.mdoLine ∧ (s.ownerFailed op).mgmt.received = s.mgmt.received ∧
    (s.ownerFailed op).mgmt.response = s.mgmt.response ∧
    (s.ownerFailed op).mgmt.sent = s.mgmt.sent ∧ (s.ownerFailed op).mgmt.lastError = s.mgmt.lastError := by
  cases h : op.owner <;> simp [ownerFailed, h]

@[simp] theorem succeed_keeps (s : State) (op : Operation) (d : Line) :
    (s.succeed op d).engine.claimTimeout = s.engine.claimTimeout ∧ (s.succeed op d).engine.prefetchDepth =
    s.engine.prefetchDepth ∧ (s.succeed op d).port.attemptLimit = s.port.attemptLimit ∧ (s.succeed op
    d).port.failed = s.port.failed ∧ (s.succeed op d).port.overflow = s.port.overflow ∧ (s.succeed op
    d).journal.basePage = s.journal.basePage ∧ (s.succeed op d).journal.sizePages = s.journal.sizePages ∧
    (s.succeed op d).startup.inReset = s.startup.inReset ∧ (s.succeed op d).startup.nrstLow = s.startup.nrstLow ∧
    (s.succeed op d).startup.cause = s.startup.cause ∧ (s.succeed op d).startup.mode = s.startup.mode ∧ (s.succeed
    op d).startup.loadResult = s.startup.loadResult ∧ (s.succeed op d).startup.shadow = s.startup.shadow ∧
    (s.succeed op d).supply.level = s.supply.level ∧ (s.succeed op d).supply.state = s.supply.state ∧ (s.succeed op
    d).supply.belowWarn = s.supply.belowWarn ∧ (s.succeed op d).supply.belowFail = s.supply.belowFail ∧ (s.succeed
    op d).supply.timers = s.supply.timers ∧ (s.succeed op d).supply.warnWatch = s.supply.warnWatch ∧ (s.succeed op
    d).supply.failWatch = s.supply.failWatch ∧ (s.succeed op d).supply.warnLevel = s.supply.warnLevel ∧ (s.succeed
    op d).supply.nwarnLow = s.supply.nwarnLow ∧ (s.succeed op d).supply.wlockPin = s.supply.wlockPin ∧ (s.succeed
    op d).supply.wlock = s.supply.wlock ∧ (s.succeed op d).supply.wlockTimer = s.supply.wlockTimer ∧ (s.succeed op
    d).supply.software = s.supply.software ∧ (s.succeed op d).mgmt.frame = s.mgmt.frame ∧ (s.succeed op d).mgmt.bits = s.mgmt.bits ∧
    (s.succeed op d).mgmt.mdoLine = s.mgmt.mdoLine ∧ (s.succeed op
    d).mgmt.received = s.mgmt.received ∧ (s.succeed op d).mgmt.response = s.mgmt.response ∧ (s.succeed op
    d).mgmt.sent = s.mgmt.sent ∧ (s.succeed op d).mgmt.lastError = s.mgmt.lastError := by
  simp only [succeed]
  all_goals simp

@[simp] theorem failOp_keeps (s : State) (op : Operation) :
    (s.failOp op).engine.claimTimeout = s.engine.claimTimeout ∧ (s.failOp op).engine.prefetchDepth =
    s.engine.prefetchDepth ∧ (s.failOp op).port.attemptLimit = s.port.attemptLimit ∧ (s.failOp op).journal.basePage
    = s.journal.basePage ∧ (s.failOp op).journal.sizePages = s.journal.sizePages ∧ (s.failOp op).startup.inReset =
    s.startup.inReset ∧ (s.failOp op).startup.nrstLow = s.startup.nrstLow ∧ (s.failOp op).startup.cause =
    s.startup.cause ∧ (s.failOp op).startup.mode = s.startup.mode ∧ (s.failOp op).startup.loadResult =
    s.startup.loadResult ∧ (s.failOp op).startup.shadow = s.startup.shadow ∧ (s.failOp op).supply.level =
    s.supply.level ∧ (s.failOp op).supply.state = s.supply.state ∧ (s.failOp op).supply.belowWarn =
    s.supply.belowWarn ∧ (s.failOp op).supply.belowFail = s.supply.belowFail ∧ (s.failOp op).supply.timers =
    s.supply.timers ∧ (s.failOp op).supply.warnWatch = s.supply.warnWatch ∧ (s.failOp op).supply.failWatch =
    s.supply.failWatch ∧ (s.failOp op).supply.warnLevel = s.supply.warnLevel ∧ (s.failOp op).supply.nwarnLow =
    s.supply.nwarnLow ∧ (s.failOp op).supply.wlockPin = s.supply.wlockPin ∧ (s.failOp op).supply.wlock =
    s.supply.wlock ∧ (s.failOp op).supply.wlockTimer = s.supply.wlockTimer ∧ (s.failOp op).supply.software =
    s.supply.software ∧ (s.failOp op).mgmt.frame = s.mgmt.frame ∧ (s.failOp op).mgmt.bits = s.mgmt.bits ∧
    (s.failOp op).mgmt.mdoLine = s.mgmt.mdoLine ∧
    (s.failOp op).mgmt.received = s.mgmt.received ∧
    (s.failOp op).mgmt.response = s.mgmt.response ∧ (s.failOp op).mgmt.sent = s.mgmt.sent ∧ (s.failOp
    op).mgmt.lastError = s.mgmt.lastError := by
  simp only [failOp]
  repeat' split
  all_goals simp

@[simp] theorem failAtLimit_keeps (s : State) (op : Operation) :
    (s.failAtLimit op).engine.claimTimeout = s.engine.claimTimeout ∧ (s.failAtLimit op).engine.prefetchDepth =
    s.engine.prefetchDepth ∧ (s.failAtLimit op).port.attemptLimit = s.port.attemptLimit ∧
    (s.failAtLimit op).journal.basePage
    = s.journal.basePage ∧ (s.failAtLimit op).journal.sizePages = s.journal.sizePages ∧
    (s.failAtLimit op).startup.inReset =
    s.startup.inReset ∧ (s.failAtLimit op).startup.nrstLow = s.startup.nrstLow ∧ (s.failAtLimit op).startup.cause =
    s.startup.cause ∧ (s.failAtLimit op).startup.mode = s.startup.mode ∧ (s.failAtLimit op).startup.loadResult =
    s.startup.loadResult ∧ (s.failAtLimit op).startup.shadow = s.startup.shadow ∧ (s.failAtLimit op).supply.level =
    s.supply.level ∧ (s.failAtLimit op).supply.state = s.supply.state ∧ (s.failAtLimit op).supply.belowWarn =
    s.supply.belowWarn ∧ (s.failAtLimit op).supply.belowFail = s.supply.belowFail ∧ (s.failAtLimit op).supply.timers =
    s.supply.timers ∧ (s.failAtLimit op).supply.warnWatch = s.supply.warnWatch ∧ (s.failAtLimit op).supply.failWatch =
    s.supply.failWatch ∧ (s.failAtLimit op).supply.warnLevel = s.supply.warnLevel ∧ (s.failAtLimit op).supply.nwarnLow =
    s.supply.nwarnLow ∧ (s.failAtLimit op).supply.wlockPin = s.supply.wlockPin ∧ (s.failAtLimit op).supply.wlock =
    s.supply.wlock ∧ (s.failAtLimit op).supply.wlockTimer = s.supply.wlockTimer ∧ (s.failAtLimit op).supply.software =
    s.supply.software ∧ (s.failAtLimit op).mgmt.frame = s.mgmt.frame ∧ (s.failAtLimit op).mgmt.bits = s.mgmt.bits ∧
    (s.failAtLimit op).mgmt.mdoLine = s.mgmt.mdoLine ∧
    (s.failAtLimit op).mgmt.received = s.mgmt.received ∧
    (s.failAtLimit op).mgmt.response = s.mgmt.response ∧ (s.failAtLimit op).mgmt.sent = s.mgmt.sent ∧ (s.failAtLimit
    op).mgmt.lastError = s.mgmt.lastError := by
  simp only [failAtLimit]
  simp

@[simp] theorem backOff_keeps (s : State) (op : Operation) (n : NextIssue) :
    (s.backOff op n).port.attemptLimit = s.port.attemptLimit ∧ (s.backOff op n).port.failed = s.port.failed ∧
    (s.backOff op n).port.overflow = s.port.overflow := by
  simp only [backOff]
  all_goals simp

@[simp] theorem startVerify_keeps (s : State) (op : Operation) :
    (s.startVerify op).port.attemptLimit = s.port.attemptLimit ∧ (s.startVerify op).port.failed = s.port.failed ∧
    (s.startVerify op).port.overflow = s.port.overflow := by
  simp only [startVerify]
  repeat' split
  all_goals simp

@[simp] theorem attemptFailed_keeps (s : State) (op : Operation) :
    (s.attemptFailed op).engine.claimTimeout = s.engine.claimTimeout ∧ (s.attemptFailed op).engine.prefetchDepth =
    s.engine.prefetchDepth ∧ (s.attemptFailed op).port.attemptLimit = s.port.attemptLimit ∧ (s.attemptFailed
    op).journal.basePage = s.journal.basePage ∧ (s.attemptFailed op).journal.sizePages = s.journal.sizePages ∧
    (s.attemptFailed op).startup.inReset = s.startup.inReset ∧ (s.attemptFailed op).startup.nrstLow =
    s.startup.nrstLow ∧ (s.attemptFailed op).startup.cause = s.startup.cause ∧ (s.attemptFailed op).startup.mode =
    s.startup.mode ∧ (s.attemptFailed op).startup.loadResult = s.startup.loadResult ∧ (s.attemptFailed
    op).startup.shadow = s.startup.shadow ∧ (s.attemptFailed op).supply.level = s.supply.level ∧ (s.attemptFailed
    op).supply.state = s.supply.state ∧ (s.attemptFailed op).supply.belowWarn = s.supply.belowWarn ∧
    (s.attemptFailed op).supply.belowFail = s.supply.belowFail ∧ (s.attemptFailed op).supply.timers =
    s.supply.timers ∧ (s.attemptFailed op).supply.warnWatch = s.supply.warnWatch ∧ (s.attemptFailed
    op).supply.failWatch = s.supply.failWatch ∧ (s.attemptFailed op).supply.warnLevel = s.supply.warnLevel ∧
    (s.attemptFailed op).supply.nwarnLow = s.supply.nwarnLow ∧ (s.attemptFailed op).supply.wlockPin =
    s.supply.wlockPin ∧ (s.attemptFailed op).supply.wlock = s.supply.wlock ∧ (s.attemptFailed op).supply.wlockTimer
    = s.supply.wlockTimer ∧ (s.attemptFailed op).supply.software = s.supply.software ∧ (s.attemptFailed
    op).mgmt.frame = s.mgmt.frame ∧ (s.attemptFailed op).mgmt.bits = s.mgmt.bits ∧
    (s.attemptFailed op).mgmt.mdoLine = s.mgmt.mdoLine ∧
    (s.attemptFailed op).mgmt.received = s.mgmt.received ∧ (s.attemptFailed
    op).mgmt.response = s.mgmt.response ∧ (s.attemptFailed op).mgmt.sent = s.mgmt.sent ∧ (s.attemptFailed
    op).mgmt.lastError = s.mgmt.lastError := by
  simp only [attemptFailed]
  repeat' split
  all_goals simp

@[simp] theorem attemptError_keeps (s : State) (op : Operation) :
    (s.attemptError op).engine.claimTimeout = s.engine.claimTimeout ∧ (s.attemptError op).engine.prefetchDepth =
    s.engine.prefetchDepth ∧ (s.attemptError op).port.attemptLimit = s.port.attemptLimit ∧ (s.attemptError
    op).journal.basePage = s.journal.basePage ∧ (s.attemptError op).journal.sizePages = s.journal.sizePages ∧
    (s.attemptError op).startup.inReset = s.startup.inReset ∧ (s.attemptError op).startup.nrstLow =
    s.startup.nrstLow ∧ (s.attemptError op).startup.cause = s.startup.cause ∧ (s.attemptError op).startup.mode =
    s.startup.mode ∧ (s.attemptError op).startup.loadResult = s.startup.loadResult ∧ (s.attemptError
    op).startup.shadow = s.startup.shadow ∧ (s.attemptError op).supply.level = s.supply.level ∧ (s.attemptError
    op).supply.state = s.supply.state ∧ (s.attemptError op).supply.belowWarn = s.supply.belowWarn ∧ (s.attemptError
    op).supply.belowFail = s.supply.belowFail ∧ (s.attemptError op).supply.timers = s.supply.timers ∧
    (s.attemptError op).supply.warnWatch = s.supply.warnWatch ∧ (s.attemptError op).supply.failWatch =
    s.supply.failWatch ∧ (s.attemptError op).supply.warnLevel = s.supply.warnLevel ∧ (s.attemptError
    op).supply.nwarnLow = s.supply.nwarnLow ∧ (s.attemptError op).supply.wlockPin = s.supply.wlockPin ∧
    (s.attemptError op).supply.wlock = s.supply.wlock ∧ (s.attemptError op).supply.wlockTimer = s.supply.wlockTimer
    ∧ (s.attemptError op).supply.software = s.supply.software ∧ (s.attemptError op).mgmt.frame = s.mgmt.frame ∧
    (s.attemptError op).mgmt.bits = s.mgmt.bits ∧
    (s.attemptError op).mgmt.mdoLine = s.mgmt.mdoLine ∧ (s.attemptError op).mgmt.received = s.mgmt.received ∧
    (s.attemptError op).mgmt.response = s.mgmt.response ∧
    (s.attemptError op).mgmt.sent = s.mgmt.sent ∧ (s.attemptError op).mgmt.lastError = s.mgmt.lastError := by
  simp only [attemptError]
  repeat' split
  all_goals simp

@[simp] theorem attemptOk_keeps (s : State) (op : Operation) (d : Line) :
    (s.attemptOk op d).engine.claimTimeout = s.engine.claimTimeout ∧ (s.attemptOk op d).engine.prefetchDepth =
    s.engine.prefetchDepth ∧ (s.attemptOk op d).port.attemptLimit = s.port.attemptLimit ∧ (s.attemptOk op
    d).port.failed = s.port.failed ∧ (s.attemptOk op d).port.overflow = s.port.overflow ∧ (s.attemptOk op
    d).journal.basePage = s.journal.basePage ∧ (s.attemptOk op d).journal.sizePages = s.journal.sizePages ∧
    (s.attemptOk op d).startup.inReset = s.startup.inReset ∧ (s.attemptOk op d).startup.nrstLow = s.startup.nrstLow
    ∧ (s.attemptOk op d).startup.cause = s.startup.cause ∧ (s.attemptOk op d).startup.mode = s.startup.mode ∧
    (s.attemptOk op d).startup.loadResult = s.startup.loadResult ∧ (s.attemptOk op d).startup.shadow =
    s.startup.shadow ∧ (s.attemptOk op d).supply.level = s.supply.level ∧ (s.attemptOk op d).supply.state =
    s.supply.state ∧ (s.attemptOk op d).supply.belowWarn = s.supply.belowWarn ∧ (s.attemptOk op d).supply.belowFail
    = s.supply.belowFail ∧ (s.attemptOk op d).supply.timers = s.supply.timers ∧ (s.attemptOk op d).supply.warnWatch
    = s.supply.warnWatch ∧ (s.attemptOk op d).supply.failWatch = s.supply.failWatch ∧ (s.attemptOk op
    d).supply.warnLevel = s.supply.warnLevel ∧ (s.attemptOk op d).supply.nwarnLow = s.supply.nwarnLow ∧
    (s.attemptOk op d).supply.wlockPin = s.supply.wlockPin ∧ (s.attemptOk op d).supply.wlock = s.supply.wlock ∧
    (s.attemptOk op d).supply.wlockTimer = s.supply.wlockTimer ∧ (s.attemptOk op d).supply.software =
    s.supply.software ∧ (s.attemptOk op d).mgmt.frame = s.mgmt.frame ∧ (s.attemptOk op d).mgmt.bits = s.mgmt.bits ∧
    (s.attemptOk op d).mgmt.mdoLine = s.mgmt.mdoLine ∧
    (s.attemptOk op d).mgmt.received = s.mgmt.received ∧ (s.attemptOk op d).mgmt.response = s.mgmt.response ∧
    (s.attemptOk op d).mgmt.sent =
    s.mgmt.sent ∧ (s.attemptOk op d).mgmt.lastError = s.mgmt.lastError := by
  simp only [attemptOk]
  repeat' split
  all_goals simp

@[simp] theorem verifyFailed_keeps (s : State) (op : Operation) :
    (s.verifyFailed op).engine.claimTimeout = s.engine.claimTimeout ∧ (s.verifyFailed op).engine.prefetchDepth =
    s.engine.prefetchDepth ∧ (s.verifyFailed op).port.attemptLimit = s.port.attemptLimit ∧ (s.verifyFailed
    op).journal.basePage = s.journal.basePage ∧ (s.verifyFailed op).journal.sizePages = s.journal.sizePages ∧
    (s.verifyFailed op).startup.inReset = s.startup.inReset ∧ (s.verifyFailed op).startup.nrstLow =
    s.startup.nrstLow ∧ (s.verifyFailed op).startup.cause = s.startup.cause ∧ (s.verifyFailed op).startup.mode =
    s.startup.mode ∧ (s.verifyFailed op).startup.loadResult = s.startup.loadResult ∧ (s.verifyFailed
    op).startup.shadow = s.startup.shadow ∧ (s.verifyFailed op).supply.level = s.supply.level ∧ (s.verifyFailed
    op).supply.state = s.supply.state ∧ (s.verifyFailed op).supply.belowWarn = s.supply.belowWarn ∧ (s.verifyFailed
    op).supply.belowFail = s.supply.belowFail ∧ (s.verifyFailed op).supply.timers = s.supply.timers ∧
    (s.verifyFailed op).supply.warnWatch = s.supply.warnWatch ∧ (s.verifyFailed op).supply.failWatch =
    s.supply.failWatch ∧ (s.verifyFailed op).supply.warnLevel = s.supply.warnLevel ∧ (s.verifyFailed
    op).supply.nwarnLow = s.supply.nwarnLow ∧ (s.verifyFailed op).supply.wlockPin = s.supply.wlockPin ∧
    (s.verifyFailed op).supply.wlock = s.supply.wlock ∧ (s.verifyFailed op).supply.wlockTimer = s.supply.wlockTimer
    ∧ (s.verifyFailed op).supply.software = s.supply.software ∧ (s.verifyFailed op).mgmt.frame = s.mgmt.frame ∧
    (s.verifyFailed op).mgmt.bits = s.mgmt.bits ∧
    (s.verifyFailed op).mgmt.mdoLine = s.mgmt.mdoLine ∧ (s.verifyFailed op).mgmt.received = s.mgmt.received ∧
    (s.verifyFailed op).mgmt.response = s.mgmt.response ∧
    (s.verifyFailed op).mgmt.sent = s.mgmt.sent ∧ (s.verifyFailed op).mgmt.lastError = s.mgmt.lastError := by
  simp only [verifyFailed]
  repeat' split
  all_goals simp

@[simp] theorem verifyOk_keeps (s : State) (op : Operation) (d : Line) :
    (s.verifyOk op d).engine.claimTimeout = s.engine.claimTimeout ∧ (s.verifyOk op d).engine.prefetchDepth =
    s.engine.prefetchDepth ∧ (s.verifyOk op d).port.attemptLimit = s.port.attemptLimit ∧ (s.verifyOk op
    d).journal.basePage = s.journal.basePage ∧ (s.verifyOk op d).journal.sizePages = s.journal.sizePages ∧
    (s.verifyOk op d).startup.inReset = s.startup.inReset ∧ (s.verifyOk op d).startup.nrstLow = s.startup.nrstLow ∧
    (s.verifyOk op d).startup.cause = s.startup.cause ∧ (s.verifyOk op d).startup.mode = s.startup.mode ∧
    (s.verifyOk op d).startup.loadResult = s.startup.loadResult ∧ (s.verifyOk op d).startup.shadow =
    s.startup.shadow ∧ (s.verifyOk op d).supply.level = s.supply.level ∧ (s.verifyOk op d).supply.state =
    s.supply.state ∧ (s.verifyOk op d).supply.belowWarn = s.supply.belowWarn ∧ (s.verifyOk op d).supply.belowFail =
    s.supply.belowFail ∧ (s.verifyOk op d).supply.timers = s.supply.timers ∧ (s.verifyOk op d).supply.warnWatch =
    s.supply.warnWatch ∧ (s.verifyOk op d).supply.failWatch = s.supply.failWatch ∧ (s.verifyOk op
    d).supply.warnLevel = s.supply.warnLevel ∧ (s.verifyOk op d).supply.nwarnLow = s.supply.nwarnLow ∧ (s.verifyOk
    op d).supply.wlockPin = s.supply.wlockPin ∧ (s.verifyOk op d).supply.wlock = s.supply.wlock ∧ (s.verifyOk op
    d).supply.wlockTimer = s.supply.wlockTimer ∧ (s.verifyOk op d).supply.software = s.supply.software ∧
    (s.verifyOk op d).mgmt.frame = s.mgmt.frame ∧ (s.verifyOk op d).mgmt.bits = s.mgmt.bits ∧
    (s.verifyOk op d).mgmt.mdoLine = s.mgmt.mdoLine ∧
    (s.verifyOk op d).mgmt.received = s.mgmt.received ∧ (s.verifyOk
    op d).mgmt.response = s.mgmt.response ∧ (s.verifyOk op d).mgmt.sent = s.mgmt.sent ∧ (s.verifyOk op
    d).mgmt.lastError = s.mgmt.lastError := by
  simp only [verifyOk]
  repeat' split
  all_goals simp

@[simp] theorem answered_keeps (s : State) (op : Operation) (a : MemAnswer) :
    (s.answered op a).engine.claimTimeout = s.engine.claimTimeout ∧ (s.answered op a).engine.prefetchDepth =
    s.engine.prefetchDepth ∧ (s.answered op a).port.attemptLimit = s.port.attemptLimit ∧ (s.answered op
    a).journal.basePage = s.journal.basePage ∧ (s.answered op a).journal.sizePages = s.journal.sizePages ∧
    (s.answered op a).startup.inReset = s.startup.inReset ∧ (s.answered op a).startup.nrstLow = s.startup.nrstLow ∧
    (s.answered op a).startup.cause = s.startup.cause ∧ (s.answered op a).startup.mode = s.startup.mode ∧
    (s.answered op a).startup.loadResult = s.startup.loadResult ∧ (s.answered op a).startup.shadow =
    s.startup.shadow ∧ (s.answered op a).supply.level = s.supply.level ∧ (s.answered op a).supply.state =
    s.supply.state ∧ (s.answered op a).supply.belowWarn = s.supply.belowWarn ∧ (s.answered op a).supply.belowFail =
    s.supply.belowFail ∧ (s.answered op a).supply.timers = s.supply.timers ∧ (s.answered op a).supply.warnWatch =
    s.supply.warnWatch ∧ (s.answered op a).supply.failWatch = s.supply.failWatch ∧ (s.answered op
    a).supply.warnLevel = s.supply.warnLevel ∧ (s.answered op a).supply.nwarnLow = s.supply.nwarnLow ∧ (s.answered
    op a).supply.wlockPin = s.supply.wlockPin ∧ (s.answered op a).supply.wlock = s.supply.wlock ∧ (s.answered op
    a).supply.wlockTimer = s.supply.wlockTimer ∧ (s.answered op a).supply.software = s.supply.software ∧
    (s.answered op a).mgmt.frame = s.mgmt.frame ∧ (s.answered op a).mgmt.bits = s.mgmt.bits ∧
    (s.answered op a).mgmt.mdoLine = s.mgmt.mdoLine ∧
    (s.answered op a).mgmt.received = s.mgmt.received ∧ (s.answered
    op a).mgmt.response = s.mgmt.response ∧ (s.answered op a).mgmt.sent = s.mgmt.sent ∧ (s.answered op
    a).mgmt.lastError = s.mgmt.lastError := by
  simp only [answered]
  repeat' split
  all_goals simp

@[simp] theorem reissue_keeps (s : State) (op : Operation) :
    (s.reissue op).port.attemptLimit = s.port.attemptLimit ∧ (s.reissue op).port.failed = s.port.failed ∧
    (s.reissue op).port.overflow = s.port.overflow := by
  simp only [reissue]
  repeat' split
  all_goals simp

@[simp] theorem endBackoff_keeps (s : State) (op : Operation) :
    (s.endBackoff op).port.attemptLimit = s.port.attemptLimit ∧ (s.endBackoff op).port.failed = s.port.failed ∧
    (s.endBackoff op).port.overflow = s.port.overflow := by
  simp only [endBackoff]
  repeat' split
  all_goals simp

@[simp] theorem releaseHeld_keeps (s : State) :
    (s.releaseHeld).port.attemptLimit = s.port.attemptLimit ∧ (s.releaseHeld).port.failed = s.port.failed ∧
    (s.releaseHeld).port.overflow = s.port.overflow := by
  simp only [releaseHeld]
  repeat' split
  all_goals simp

@[simp] theorem resume_keeps (s : State) :
    (s.resume).engine.claimTimeout = s.engine.claimTimeout ∧ (s.resume).engine.prefetchDepth =
    s.engine.prefetchDepth ∧ (s.resume).port.attemptLimit = s.port.attemptLimit ∧ (s.resume).port.failed =
    s.port.failed ∧ (s.resume).port.overflow = s.port.overflow := by
  simp only [resume]
  all_goals simp

@[simp] theorem glitchIf_keeps (s : State) (b : Bool) :
    (s.glitchIf b).supply.level = s.supply.level ∧ (s.glitchIf b).supply.state = s.supply.state ∧ (s.glitchIf
    b).supply.belowWarn = s.supply.belowWarn ∧ (s.glitchIf b).supply.belowFail = s.supply.belowFail ∧ (s.glitchIf
    b).supply.timers = s.supply.timers ∧ (s.glitchIf b).supply.warnWatch = s.supply.warnWatch ∧ (s.glitchIf
    b).supply.failWatch = s.supply.failWatch ∧ (s.glitchIf b).supply.warnLevel = s.supply.warnLevel ∧ (s.glitchIf
    b).supply.nwarnLow = s.supply.nwarnLow ∧ (s.glitchIf b).supply.wlockPin = s.supply.wlockPin ∧ (s.glitchIf
    b).supply.wlock = s.supply.wlock ∧ (s.glitchIf b).supply.wlockTimer = s.supply.wlockTimer ∧ (s.glitchIf
    b).supply.software = s.supply.software := by
  simp only [glitchIf]
  repeat' split
  all_goals simp

@[simp] theorem endWaitIfNormal_keeps (s : State) :
    (s.endWaitIfNormal).startup.inReset = s.startup.inReset ∧ (s.endWaitIfNormal).startup.nrstLow =
    s.startup.nrstLow ∧ (s.endWaitIfNormal).startup.cause = s.startup.cause ∧ (s.endWaitIfNormal).startup.mode =
    s.startup.mode ∧ (s.endWaitIfNormal).startup.loadResult = s.startup.loadResult ∧
    (s.endWaitIfNormal).startup.shadow = s.startup.shadow := by
  simp only [endWaitIfNormal]
  repeat' split
  all_goals simp

@[simp] theorem moveSupply_keeps (s : State) (x : SupplyState) :
    (s.moveSupply x).engine.claimTimeout = s.engine.claimTimeout ∧ (s.moveSupply x).engine.prefetchDepth =
    s.engine.prefetchDepth ∧ (s.moveSupply x).port.attemptLimit = s.port.attemptLimit ∧ (s.moveSupply
    x).port.failed = s.port.failed ∧ (s.moveSupply x).port.overflow = s.port.overflow ∧ (s.moveSupply
    x).startup.inReset = s.startup.inReset ∧ (s.moveSupply x).startup.nrstLow = s.startup.nrstLow ∧ (s.moveSupply
    x).startup.cause = s.startup.cause ∧ (s.moveSupply x).startup.mode = s.startup.mode ∧ (s.moveSupply
    x).startup.loadResult = s.startup.loadResult ∧ (s.moveSupply x).startup.shadow = s.startup.shadow := by
  simp only [moveSupply]
  repeat' split
  all_goals simp

@[simp] theorem setLimits_keeps (s : State) (c l d : Byte) :
    (s.setLimits c l d).port.failed = s.port.failed ∧ (s.setLimits c l d).port.overflow = s.port.overflow := by
  simp only [setLimits]
  all_goals simp

@[simp] theorem placeJournal_keeps (s : State) (b z : Nat) :
    (s.placeJournal b z).supply.level = s.supply.level ∧ (s.placeJournal b z).supply.state = s.supply.state ∧
    (s.placeJournal b z).supply.belowWarn = s.supply.belowWarn ∧ (s.placeJournal b z).supply.belowFail =
    s.supply.belowFail ∧ (s.placeJournal b z).supply.timers = s.supply.timers ∧ (s.placeJournal b
    z).supply.warnWatch = s.supply.warnWatch ∧ (s.placeJournal b z).supply.failWatch = s.supply.failWatch ∧
    (s.placeJournal b z).supply.warnLevel = s.supply.warnLevel ∧ (s.placeJournal b z).supply.nwarnLow =
    s.supply.nwarnLow ∧ (s.placeJournal b z).supply.wlockPin = s.supply.wlockPin ∧ (s.placeJournal b
    z).supply.wlock = s.supply.wlock ∧ (s.placeJournal b z).supply.wlockTimer = s.supply.wlockTimer ∧
    (s.placeJournal b z).supply.software = s.supply.software := by
  simp only [placeJournal]
  repeat' split
  all_goals simp

@[simp] theorem resetUpstream_keeps (s : State) :
    (s.resetUpstream).engine.claimTimeout = s.engine.claimTimeout ∧ (s.resetUpstream).engine.prefetchDepth =
    s.engine.prefetchDepth ∧ (s.resetUpstream).port.attemptLimit = s.port.attemptLimit ∧
    (s.resetUpstream).port.failed = s.port.failed ∧ (s.resetUpstream).port.overflow = s.port.overflow := by
  simp only [resetUpstream]
  repeat' split
  all_goals simp

@[simp] theorem takeClose_keeps (s : State) :
    (s.takeClose).engine.claimTimeout = s.engine.claimTimeout ∧ (s.takeClose).engine.prefetchDepth =
    s.engine.prefetchDepth ∧ (s.takeClose).port.attemptLimit = s.port.attemptLimit ∧ (s.takeClose).port.failed =
    s.port.failed ∧ (s.takeClose).port.overflow = s.port.overflow ∧ (s.takeClose).journal.basePage =
    s.journal.basePage ∧ (s.takeClose).journal.sizePages = s.journal.sizePages ∧ (s.takeClose).journal.epoch =
    s.journal.epoch ∧ (s.takeClose).journal.written = s.journal.written ∧ (s.takeClose).journal.lineSet =
    s.journal.lineSet ∧ (s.takeClose).supply.level = s.supply.level ∧ (s.takeClose).supply.state = s.supply.state ∧
    (s.takeClose).supply.belowWarn = s.supply.belowWarn ∧ (s.takeClose).supply.belowFail = s.supply.belowFail ∧
    (s.takeClose).supply.timers = s.supply.timers ∧ (s.takeClose).supply.warnWatch = s.supply.warnWatch ∧
    (s.takeClose).supply.failWatch = s.supply.failWatch ∧ (s.takeClose).supply.warnLevel = s.supply.warnLevel ∧
    (s.takeClose).supply.nwarnLow = s.supply.nwarnLow ∧ (s.takeClose).supply.wlockPin = s.supply.wlockPin ∧
    (s.takeClose).supply.wlock = s.supply.wlock ∧ (s.takeClose).supply.wlockTimer = s.supply.wlockTimer ∧
    (s.takeClose).supply.software = s.supply.software ∧ (s.takeClose).mgmt.frame = s.mgmt.frame ∧
    (s.takeClose).mgmt.bits = s.mgmt.bits ∧
    (s.takeClose).mgmt.mdoLine = s.mgmt.mdoLine ∧ (s.takeClose).mgmt.received = s.mgmt.received ∧
    (s.takeClose).mgmt.response = s.mgmt.response ∧
    (s.takeClose).mgmt.sent = s.mgmt.sent ∧ (s.takeClose).mgmt.lastError = s.mgmt.lastError := by
  simp only [takeClose]
  all_goals simp

@[simp] theorem takeInit_keeps (s : State) (e : BitVec 32) :
    (s.takeInit e).engine.claimTimeout = s.engine.claimTimeout ∧ (s.takeInit e).engine.prefetchDepth =
    s.engine.prefetchDepth ∧ (s.takeInit e).port.attemptLimit = s.port.attemptLimit ∧ (s.takeInit e).port.failed =
    s.port.failed ∧ (s.takeInit e).port.overflow = s.port.overflow ∧ (s.takeInit e).journal.basePage =
    s.journal.basePage ∧ (s.takeInit e).journal.sizePages = s.journal.sizePages ∧ (s.takeInit e).supply.level =
    s.supply.level ∧ (s.takeInit e).supply.state = s.supply.state ∧ (s.takeInit e).supply.belowWarn =
    s.supply.belowWarn ∧ (s.takeInit e).supply.belowFail = s.supply.belowFail ∧ (s.takeInit e).supply.timers =
    s.supply.timers ∧ (s.takeInit e).supply.warnWatch = s.supply.warnWatch ∧ (s.takeInit e).supply.failWatch =
    s.supply.failWatch ∧ (s.takeInit e).supply.warnLevel = s.supply.warnLevel ∧ (s.takeInit e).supply.nwarnLow =
    s.supply.nwarnLow ∧ (s.takeInit e).supply.wlockPin = s.supply.wlockPin ∧ (s.takeInit e).supply.wlock =
    s.supply.wlock ∧ (s.takeInit e).supply.wlockTimer = s.supply.wlockTimer ∧ (s.takeInit e).supply.software =
    s.supply.software ∧ (s.takeInit e).mgmt.frame = s.mgmt.frame ∧ (s.takeInit e).mgmt.bits = s.mgmt.bits ∧
    (s.takeInit e).mgmt.mdoLine = s.mgmt.mdoLine ∧
    (s.takeInit e).mgmt.received = s.mgmt.received ∧
    (s.takeInit e).mgmt.response = s.mgmt.response ∧ (s.takeInit e).mgmt.sent = s.mgmt.sent ∧ (s.takeInit
    e).mgmt.lastError = s.mgmt.lastError := by
  simp only [takeInit]
  all_goals simp

@[simp] theorem takeRollback_keeps (s : State) :
    (s.takeRollback).engine.claimTimeout = s.engine.claimTimeout ∧ (s.takeRollback).engine.prefetchDepth =
    s.engine.prefetchDepth ∧ (s.takeRollback).port.attemptLimit = s.port.attemptLimit ∧
    (s.takeRollback).port.failed = s.port.failed ∧ (s.takeRollback).port.overflow = s.port.overflow ∧
    (s.takeRollback).journal.basePage = s.journal.basePage ∧ (s.takeRollback).journal.sizePages =
    s.journal.sizePages ∧ (s.takeRollback).journal.epoch = s.journal.epoch ∧ (s.takeRollback).journal.written =
    s.journal.written ∧ (s.takeRollback).journal.lineSet = s.journal.lineSet ∧ (s.takeRollback).startup.inReset =
    s.startup.inReset ∧ (s.takeRollback).startup.nrstLow = s.startup.nrstLow ∧ (s.takeRollback).startup.cause =
    s.startup.cause ∧ (s.takeRollback).startup.mode = s.startup.mode ∧ (s.takeRollback).startup.loadResult =
    s.startup.loadResult ∧ (s.takeRollback).startup.shadow = s.startup.shadow ∧ (s.takeRollback).supply.level =
    s.supply.level ∧ (s.takeRollback).supply.state = s.supply.state ∧ (s.takeRollback).supply.belowWarn =
    s.supply.belowWarn ∧ (s.takeRollback).supply.belowFail = s.supply.belowFail ∧ (s.takeRollback).supply.timers =
    s.supply.timers ∧ (s.takeRollback).supply.warnWatch = s.supply.warnWatch ∧ (s.takeRollback).supply.failWatch =
    s.supply.failWatch ∧ (s.takeRollback).supply.warnLevel = s.supply.warnLevel ∧ (s.takeRollback).supply.nwarnLow
    = s.supply.nwarnLow ∧ (s.takeRollback).supply.wlockPin = s.supply.wlockPin ∧ (s.takeRollback).supply.wlock =
    s.supply.wlock ∧ (s.takeRollback).supply.wlockTimer = s.supply.wlockTimer ∧ (s.takeRollback).supply.software =
    s.supply.software ∧ (s.takeRollback).mgmt.frame = s.mgmt.frame ∧ (s.takeRollback).mgmt.bits = s.mgmt.bits ∧
    (s.takeRollback).mgmt.mdoLine = s.mgmt.mdoLine ∧
    (s.takeRollback).mgmt.received = s.mgmt.received ∧ (s.takeRollback).mgmt.response = s.mgmt.response ∧
    (s.takeRollback).mgmt.sent = s.mgmt.sent ∧
    (s.takeRollback).mgmt.lastError = s.mgmt.lastError := by
  simp only [takeRollback]
  repeat' split
  all_goals simp

@[simp] theorem answerFromEntry_keeps (s : State) (r : Request) (p : Fin 4) (e : DelayedEntry) :
    (s.answerFromEntry r p e).engine.claimTimeout = s.engine.claimTimeout ∧ (s.answerFromEntry r p
    e).engine.prefetchDepth = s.engine.prefetchDepth := by
  simp only [answerFromEntry]
  repeat' split
  all_goals simp

@[simp] theorem acceptPosted_keeps (s : State) (r : Request) (c : Classification) :
    (s.acceptPosted r c).engine.claimTimeout = s.engine.claimTimeout ∧ (s.acceptPosted r c).engine.prefetchDepth =
    s.engine.prefetchDepth ∧ (s.acceptPosted r c).port.attemptLimit = s.port.attemptLimit ∧ (s.acceptPosted r
    c).port.failed = s.port.failed ∧ (s.acceptPosted r c).port.overflow = s.port.overflow ∧ (s.acceptPosted r
    c).journal.basePage = s.journal.basePage ∧ (s.acceptPosted r c).journal.sizePages = s.journal.sizePages := by
  simp only [acceptPosted]
  all_goals simp

@[simp] theorem acceptDurable_keeps (s : State) (r : Request) (c : Classification) (p : Fin 4) :
    (s.acceptDurable r c p).engine.claimTimeout = s.engine.claimTimeout ∧ (s.acceptDurable r c
    p).engine.prefetchDepth = s.engine.prefetchDepth ∧ (s.acceptDurable r c p).port.attemptLimit =
    s.port.attemptLimit ∧ (s.acceptDurable r c p).port.failed = s.port.failed ∧ (s.acceptDurable r c
    p).port.overflow = s.port.overflow ∧ (s.acceptDurable r c p).journal.basePage = s.journal.basePage ∧
    (s.acceptDurable r c p).journal.sizePages = s.journal.sizePages := by
  simp only [acceptDurable]
  all_goals simp

@[simp] theorem roomDurable_keeps (s : State) (r : Request) (c : Classification) :
    (s.roomDurable r c).engine.claimTimeout = s.engine.claimTimeout ∧ (s.roomDurable r c).engine.prefetchDepth =
    s.engine.prefetchDepth ∧ (s.roomDurable r c).port.attemptLimit = s.port.attemptLimit ∧ (s.roomDurable r
    c).port.failed = s.port.failed ∧ (s.roomDurable r c).port.overflow = s.port.overflow ∧ (s.roomDurable r
    c).journal.basePage = s.journal.basePage ∧ (s.roomDurable r c).journal.sizePages = s.journal.sizePages := by
  simp only [roomDurable]
  repeat' split
  all_goals simp

@[simp] theorem roomWrite_keeps (s : State) (r : Request) (c : Classification) :
    (s.roomWrite r c).engine.claimTimeout = s.engine.claimTimeout ∧ (s.roomWrite r c).engine.prefetchDepth =
    s.engine.prefetchDepth ∧ (s.roomWrite r c).port.attemptLimit = s.port.attemptLimit ∧ (s.roomWrite r
    c).port.failed = s.port.failed ∧ (s.roomWrite r c).port.overflow = s.port.overflow ∧ (s.roomWrite r
    c).journal.basePage = s.journal.basePage ∧ (s.roomWrite r c).journal.sizePages = s.journal.sizePages := by
  simp only [roomWrite]
  repeat' split
  all_goals simp

@[simp] theorem guardWrite_keeps (s : State) (r : Request) :
    (s.guardWrite r).engine.claimTimeout = s.engine.claimTimeout ∧ (s.guardWrite r).engine.prefetchDepth =
    s.engine.prefetchDepth ∧ (s.guardWrite r).port.attemptLimit = s.port.attemptLimit ∧ (s.guardWrite
    r).port.failed = s.port.failed ∧ (s.guardWrite r).port.overflow = s.port.overflow ∧ (s.guardWrite
    r).journal.basePage = s.journal.basePage ∧ (s.guardWrite r).journal.sizePages = s.journal.sizePages := by
  simp only [guardWrite]
  repeat' split
  all_goals simp

@[simp] theorem classifyWrite_keeps (s : State) (r : Request) :
    (s.classifyWrite r).engine.claimTimeout = s.engine.claimTimeout ∧ (s.classifyWrite r).engine.prefetchDepth =
    s.engine.prefetchDepth ∧ (s.classifyWrite r).port.attemptLimit = s.port.attemptLimit ∧ (s.classifyWrite
    r).port.failed = s.port.failed ∧ (s.classifyWrite r).port.overflow = s.port.overflow ∧ (s.classifyWrite
    r).journal.basePage = s.journal.basePage ∧ (s.classifyWrite r).journal.sizePages = s.journal.sizePages := by
  simp only [classifyWrite]
  repeat' split
  all_goals simp

@[simp] theorem decideWrite_keeps (s : State) (r : Request) :
    (s.decideWrite r).engine.claimTimeout = s.engine.claimTimeout ∧ (s.decideWrite r).engine.prefetchDepth =
    s.engine.prefetchDepth ∧ (s.decideWrite r).port.attemptLimit = s.port.attemptLimit ∧ (s.decideWrite
    r).port.failed = s.port.failed ∧ (s.decideWrite r).port.overflow = s.port.overflow ∧ (s.decideWrite
    r).journal.basePage = s.journal.basePage ∧ (s.decideWrite r).journal.sizePages = s.journal.sizePages := by
  simp only [decideWrite]
  repeat' split
  all_goals simp

@[simp] theorem createRead_keeps (s : State) (r : Request) (p : Fin 4) :
    (s.createRead r p).engine.claimTimeout = s.engine.claimTimeout ∧ (s.createRead r p).engine.prefetchDepth =
    s.engine.prefetchDepth ∧ (s.createRead r p).port.attemptLimit = s.port.attemptLimit ∧ (s.createRead r
    p).port.failed = s.port.failed ∧ (s.createRead r p).port.overflow = s.port.overflow := by
  simp only [createRead]
  all_goals simp

@[simp] theorem bufferRead_keeps (s : State) (r : Request) :
    (s.bufferRead r).engine.claimTimeout = s.engine.claimTimeout ∧ (s.bufferRead r).engine.prefetchDepth =
    s.engine.prefetchDepth ∧ (s.bufferRead r).port.attemptLimit = s.port.attemptLimit ∧ (s.bufferRead
    r).port.failed = s.port.failed ∧ (s.bufferRead r).port.overflow = s.port.overflow := by
  simp only [bufferRead]
  repeat' split
  all_goals simp

@[simp] theorem classifyRead_keeps (s : State) (r : Request) :
    (s.classifyRead r).engine.claimTimeout = s.engine.claimTimeout ∧ (s.classifyRead r).engine.prefetchDepth =
    s.engine.prefetchDepth ∧ (s.classifyRead r).port.attemptLimit = s.port.attemptLimit ∧ (s.classifyRead
    r).port.failed = s.port.failed ∧ (s.classifyRead r).port.overflow = s.port.overflow := by
  simp only [classifyRead]
  repeat' split
  all_goals simp

@[simp] theorem matchRead_keeps (s : State) (r : Request) :
    (s.matchRead r).engine.claimTimeout = s.engine.claimTimeout ∧ (s.matchRead r).engine.prefetchDepth =
    s.engine.prefetchDepth ∧ (s.matchRead r).port.attemptLimit = s.port.attemptLimit ∧ (s.matchRead r).port.failed
    = s.port.failed ∧ (s.matchRead r).port.overflow = s.port.overflow := by
  simp only [matchRead]
  repeat' split
  all_goals simp

@[simp] theorem decideRead_keeps (s : State) (r : Request) :
    (s.decideRead r).engine.claimTimeout = s.engine.claimTimeout ∧ (s.decideRead r).engine.prefetchDepth =
    s.engine.prefetchDepth ∧ (s.decideRead r).port.attemptLimit = s.port.attemptLimit ∧ (s.decideRead
    r).port.failed = s.port.failed ∧ (s.decideRead r).port.overflow = s.port.overflow := by
  simp only [decideRead]
  repeat' split
  all_goals simp

@[simp] theorem applySettings_keeps (s : State) (im : List Byte) :
    (s.applySettings im).port.failed = s.port.failed ∧ (s.applySettings im).port.overflow = s.port.overflow ∧
    (s.applySettings im).startup.inReset = s.startup.inReset ∧ (s.applySettings im).startup.nrstLow =
    s.startup.nrstLow ∧ (s.applySettings im).startup.cause = s.startup.cause := by
  simp only [applySettings]
  all_goals simp

@[simp] theorem applyImage_keeps (s : State) (im : List Byte) :
    (s.applyImage im).port.failed = s.port.failed ∧ (s.applyImage im).port.overflow = s.port.overflow ∧
    (s.applyImage im).startup.inReset = s.startup.inReset ∧ (s.applyImage im).startup.nrstLow = s.startup.nrstLow ∧
    (s.applyImage im).startup.cause = s.startup.cause := by
  simp only [applyImage]
  repeat' split
  all_goals simp

@[simp] theorem judgeShadow_keeps (s : State) :
    (s.judgeShadow).port.failed = s.port.failed ∧ (s.judgeShadow).port.overflow = s.port.overflow ∧
    (s.judgeShadow).startup.inReset = s.startup.inReset ∧ (s.judgeShadow).startup.nrstLow = s.startup.nrstLow ∧
    (s.judgeShadow).startup.cause = s.startup.cause := by
  simp only [judgeShadow]
  repeat' split
  all_goals simp

@[simp] theorem endLoading_keeps (s : State) (im : Image) :
    (s.endLoading im).port.failed = s.port.failed ∧ (s.endLoading im).port.overflow = s.port.overflow ∧
    (s.endLoading im).startup.inReset = s.startup.inReset ∧ (s.endLoading im).startup.nrstLow = s.startup.nrstLow ∧
    (s.endLoading im).startup.cause = s.startup.cause := by
  simp only [endLoading]
  all_goals simp

@[simp] theorem expireFilter_keeps (s : State) (f : SupplyFilter) :
    (s.expireFilter f).engine.claimTimeout = s.engine.claimTimeout ∧ (s.expireFilter f).engine.prefetchDepth =
    s.engine.prefetchDepth ∧ (s.expireFilter f).port.attemptLimit = s.port.attemptLimit ∧ (s.expireFilter
    f).port.failed = s.port.failed ∧ (s.expireFilter f).port.overflow = s.port.overflow ∧ (s.expireFilter
    f).startup.inReset = s.startup.inReset ∧ (s.expireFilter f).startup.nrstLow = s.startup.nrstLow ∧
    (s.expireFilter f).startup.cause = s.startup.cause ∧ (s.expireFilter f).startup.mode = s.startup.mode ∧
    (s.expireFilter f).startup.loadResult = s.startup.loadResult ∧ (s.expireFilter f).startup.shadow =
    s.startup.shadow := by
  simp only [expireFilter]
  repeat' split
  all_goals simp

@[simp] theorem expireClaim_keeps (s : State) (p : Fin 4) (e : DelayedEntry) :
    (s.expireClaim p e).engine.claimTimeout = s.engine.claimTimeout ∧ (s.expireClaim p e).engine.prefetchDepth =
    s.engine.prefetchDepth := by
  simp only [expireClaim]
  all_goals simp

@[simp] theorem writeParameters_keeps (s : State) (c l d w : Byte) :
    (s.writeParameters c l d w).2.port.failed = s.port.failed ∧ (s.writeParameters c l d w).2.port.overflow =
    s.port.overflow := by
  simp only [writeParameters]
  repeat' split
  all_goals simp

@[simp] theorem openPort_keeps (s : State) :
    (s.openPort).2.startup.inReset = s.startup.inReset ∧ (s.openPort).2.startup.nrstLow = s.startup.nrstLow ∧
    (s.openPort).2.startup.cause = s.startup.cause ∧ (s.openPort).2.startup.mode = s.startup.mode ∧
    (s.openPort).2.startup.loadResult = s.startup.loadResult ∧ (s.openPort).2.startup.shadow = s.startup.shadow := by
  simp only [openPort]
  repeat' split
  all_goals simp

@[simp] theorem closeEpoch_keeps (s : State) :
    (s.closeEpoch).2.engine.claimTimeout = s.engine.claimTimeout ∧ (s.closeEpoch).2.engine.prefetchDepth =
    s.engine.prefetchDepth ∧ (s.closeEpoch).2.port.attemptLimit = s.port.attemptLimit ∧
    (s.closeEpoch).2.port.failed = s.port.failed ∧ (s.closeEpoch).2.port.overflow = s.port.overflow ∧
    (s.closeEpoch).2.journal.basePage = s.journal.basePage ∧ (s.closeEpoch).2.journal.sizePages =
    s.journal.sizePages ∧ (s.closeEpoch).2.mgmt.frame = s.mgmt.frame ∧ (s.closeEpoch).2.mgmt.received =
    s.mgmt.received ∧ (s.closeEpoch).2.mgmt.response = s.mgmt.response ∧ (s.closeEpoch).2.mgmt.sent = s.mgmt.sent ∧
    (s.closeEpoch).2.mgmt.lastError = s.mgmt.lastError := by
  simp only [closeEpoch]
  repeat' split
  all_goals simp

@[simp] theorem initJournal_keeps (s : State) (e : BitVec 32) :
    (s.initJournal e).2.engine.claimTimeout = s.engine.claimTimeout ∧ (s.initJournal e).2.engine.prefetchDepth =
    s.engine.prefetchDepth ∧ (s.initJournal e).2.port.attemptLimit = s.port.attemptLimit ∧ (s.initJournal
    e).2.port.failed = s.port.failed ∧ (s.initJournal e).2.port.overflow = s.port.overflow ∧ (s.initJournal
    e).2.journal.basePage = s.journal.basePage ∧ (s.initJournal e).2.journal.sizePages = s.journal.sizePages ∧
    (s.initJournal e).2.mgmt.frame = s.mgmt.frame ∧ (s.initJournal e).2.mgmt.received = s.mgmt.received ∧
    (s.initJournal e).2.mgmt.response = s.mgmt.response ∧ (s.initJournal e).2.mgmt.sent = s.mgmt.sent ∧
    (s.initJournal e).2.mgmt.lastError = s.mgmt.lastError := by
  simp only [initJournal]
  repeat' split
  all_goals simp

@[simp] theorem rollback_keeps (s : State) :
    (s.rollback).2.engine.claimTimeout = s.engine.claimTimeout ∧ (s.rollback).2.engine.prefetchDepth =
    s.engine.prefetchDepth ∧ (s.rollback).2.port.attemptLimit = s.port.attemptLimit ∧ (s.rollback).2.port.failed =
    s.port.failed ∧ (s.rollback).2.port.overflow = s.port.overflow ∧ (s.rollback).2.journal.basePage =
    s.journal.basePage ∧ (s.rollback).2.journal.sizePages = s.journal.sizePages ∧ (s.rollback).2.startup.inReset =
    s.startup.inReset ∧ (s.rollback).2.startup.nrstLow = s.startup.nrstLow ∧ (s.rollback).2.startup.cause =
    s.startup.cause ∧ (s.rollback).2.startup.mode = s.startup.mode ∧ (s.rollback).2.startup.loadResult =
    s.startup.loadResult ∧ (s.rollback).2.startup.shadow = s.startup.shadow ∧ (s.rollback).2.mgmt.frame =
    s.mgmt.frame ∧ (s.rollback).2.mgmt.received = s.mgmt.received ∧ (s.rollback).2.mgmt.response = s.mgmt.response
    ∧ (s.rollback).2.mgmt.sent = s.mgmt.sent ∧ (s.rollback).2.mgmt.lastError = s.mgmt.lastError := by
  simp only [rollback]
  repeat' split
  all_goals simp

end Sys2Proof.Machine.State
end

