-- ==== Sys2Proof/Laws/Settle.lean ====
section
/-! SUPPORT. What follows an event at the memory port: when nothing begins, what the arbiter grants, and what stays. -/

namespace Sys2Proof.Machine.State

/-! ### Nothing begins -/

theorem mayBegin_eq_false_of_drain {s : State} {d : Drain} (h : s.drain = some d) : s.mayBegin = false := by
  simp [mayBegin, h]

theorem beginDrains_of_not_mayBegin (n : Nat) (s : State) (h : s.mayBegin = false) : State.beginDrains n s = s := by
  cases n <;> simp [beginDrains, h]

theorem arbitrate_of_busy {s : State} {op : Operation} (h : s.port.op = some op) : s.arbitrate = s := by
  simp [arbitrate, h]

theorem arbitrate_of_fail {s : State} (h : s.supply.state = .fail) : s.arbitrate = s := by
  simp [arbitrate, h]

/-- While the port carries an operation and a drain is in progress nothing begins. -/
theorem settle_of_busyPort {s : State} (h : s.busyPort) : s.settle = s := by
  obtain ⟨h1, h2⟩ := h
  obtain ⟨op, h1⟩ := Option.isSome_iff_exists.mp h1
  obtain ⟨d, h2⟩ := Option.isSome_iff_exists.mp h2
  rw [settle, beginDrains_of_not_mayBegin _ _ (mayBegin_eq_false_of_drain h2), arbitrate_of_busy h1]

/-- In FAIL nothing begins. -/
theorem settle_of_fail {s : State} (h : s.supply.state = .fail) : s.settle = s := by
  rw [settle, beginDrains_of_not_mayBegin _ _ (by simp [mayBegin, h]), arbitrate_of_fail h]

/-- An operation in flight stays. -/
theorem settle_port_of_busy {s : State} {op : Operation} (h : s.port.op = some op) : s.settle.port = s.port := by
  rw [settle, arbitrate_of_busy (op := op) (by simpa using h)]; simp

/-- A drain in progress stays. -/
theorem settle_drain_of_some {s : State} {d : Drain} (h : s.drain = some d) : s.settle.drain = some d := by
  rw [settle, beginDrains_of_not_mayBegin _ _ (mayBegin_eq_false_of_drain h)]; simpa using h

/-! ### What a beginning drain leaves -/

theorem beginItem_of_not_failed {s : State} (item : DrainItem) (h : s.journal.state ≠ .failed) :
    (s.beginItem item).queue = s.queue ∧ (s.beginItem item).faults = s.faults := by
  simp only [beginItem]
  split
  · split <;> simp
  · rw [if_neg (by simp [h])]
    cases item <;> simp only [issueEntry]
    all_goals first | (split <;> simp) | simp

theorem beginDrains_of_not_failed (n : Nat) (s : State) (h : s.journal.state ≠ .failed) :
    (State.beginDrains n s).queue = s.queue ∧ (State.beginDrains n s).faults = s.faults := by
  induction n generalizing s with
  | zero => simp [beginDrains]
  | succ n ih =>
    unfold beginDrains
    split
    · split
      · simp
      · rename_i item _
        have hj : (s.beginItem item).journal.state ≠ .failed := by simpa using h
        rw [(ih _ hj).1, (ih _ hj).2]
        exact beginItem_of_not_failed item h
    · simp

/-- Outside FAILED no entry is dropped: queue, region codes, counters and events stay. -/
theorem settle_of_not_failed {s : State} (h : s.journal.state ≠ .failed) :
    s.settle.queue = s.queue ∧ s.settle.faults = s.faults := by
  simpa [settle] using beginDrains_of_not_failed longestOrder s h

/-- A drain begins only at the head, so the queue loses entries at its front alone. -/
theorem beginItem_queue_suffix (s : State) (item : DrainItem) : (s.beginItem item).queue <:+ s.queue := by
  simp only [beginItem]
  split
  · split <;> simp
  · split
    · cases item <;> simp only [leave]
      · split <;> simp [List.tail_suffix]
      · simp
      · split <;> simp
      · simp
    · cases item <;> simp only [issueEntry]
      all_goals first | (split <;> simp) | simp

theorem beginDrains_queue_suffix (n : Nat) (s : State) : (State.beginDrains n s).queue <:+ s.queue := by
  induction n generalizing s with
  | zero => simp [beginDrains]
  | succ n ih =>
    unfold beginDrains
    split
    · split
      · simp
      · exact (ih _).trans (beginItem_queue_suffix _ _)
    · simp

theorem settle_queue_suffix (s : State) : s.settle.queue <:+ s.queue := by
  simpa [settle] using beginDrains_queue_suffix longestOrder s

/-- An empty write order begins nothing. -/
theorem beginDrains_of_no_head (n : Nat) (s : State) (h : s.headItem = none) : State.beginDrains n s = s := by
  cases n with
  | zero => rfl
  | succ n => unfold beginDrains; simp [h]

/-! ### What the arbiter grants -/

/-- R119: the scan or the rollback goes first. -/
theorem settle_of_procedure {s : State} {op : Operation} (hop : s.port.op = none) (hs : s.supply.state ≠ .fail)
    (h : s.procedureOp = some op) : s.settle.port.op = some op := by
  have h' : (State.beginDrains longestOrder s).procedureOp = some op := by
    rw [← h]; simp [procedureOp, areaRead, targetOp, headerOp]
  simp [settle, arbitrate, hop, hs, h', issue]

end Sys2Proof.Machine.State
end

