-- ==== Sys2Proof/Laws/Grants.lean ====
section
/-! SUPPORT. What the beginning of drains and the arbiter leave of the delayed request table and the read buffer: a COMPLETE entry
and an owned slot stay, and so does every entry's request; and what the arbiter's grant to the head carries. -/

namespace Sys2Proof.Machine

theorem oldest_mem {α : Type} {l : List (α × Nat)} {x : α × Nat} (h : oldest l = some x) : x ∈ l := by
  induction l generalizing x with
  | nil => simp [oldest] at h
  | cons a l ih =>
    simp only [oldest] at h
    split at h
    · simp at h; simp [h]
    · rename_i y hy
      split at h
      · simp at h; subst h; exact List.mem_cons_of_mem _ (ih hy)
      · simp at h; simp [h]

theorem Engine.mem_entries {g : Engine} {p : Fin 4} {e : DelayedEntry} :
    (p, e) ∈ g.entries ↔ g.table[p] = some e := by
  simp only [Engine.entries, List.mem_filterMap, Option.map_eq_some_iff, Prod.mk.injEq]
  constructor
  · rintro ⟨q, _, x, hx, rfl, rfl⟩; exact hx
  · intro h; exact ⟨p, List.mem_finRange p, e, h, rfl, rfl⟩

namespace State

theorem oldestDelayedWrite_pending {s : State} {p : Fin 4} {n : Nat} (h : s.oldestDelayedWrite = some (p, n)) :
    ∃ e, s.engine.table[p] = some e ∧ e.isPendingWrite = true ∧ e.body.pos = n := by
  have := oldest_mem h
  simp only [List.mem_map, List.mem_filter, Prod.mk.injEq] at this
  obtain ⟨⟨q, e⟩, ⟨hm, hp⟩, rfl, rfl⟩ := this
  exact ⟨e, Engine.mem_entries.mp hm, hp, rfl⟩

theorem headItem_delayedWrite {s : State} {p : Fin 4} (h : s.headItem = some (.delayedWrite p)) :
    ∃ e, s.engine.table[p] = some e ∧ e.isPendingWrite = true := by
  have : ∃ n, s.oldestDelayedWrite = some (p, n) := by
    simp only [headItem] at h
    split at h
    · simp at h
    · rename_i q n _ hq
      cases h
      exact ⟨n, hq⟩
    · simp at h
    · simp at h
    · rename_i q n _ hq
      rw [Option.some.injEq] at h
      split at h
      · cases h; exact ⟨n, hq⟩
      · simp at h
    · rename_i q n _ hq
      rw [Option.some.injEq] at h
      split at h
      · cases h; exact ⟨n, hq⟩
      · simp at h
  obtain ⟨n, hn⟩ := this
  obtain ⟨e, h1, h2, _⟩ := oldestDelayedWrite_pending hn
  exact ⟨e, h1, h2⟩

theorem oldestReadyRead_waiting {s : State} {f : Nat → Bool} {p : Fin 4} (h : s.oldestReadyRead f = some p) :
    ∃ e, s.engine.table[p] = some e ∧ e.kind = .read ∧ e.state = .waiting ∧ f e.body.line = true ∧
      s.isReady e.body = true := by
  simp only [oldestReadyRead, Option.map_eq_some_iff] at h
  obtain ⟨⟨q, n⟩, hq, rfl⟩ := h
  have := oldest_mem hq
  simp only [List.mem_filterMap] at this
  obtain ⟨⟨q', e⟩, hm, he⟩ := this
  split at he
  · rename_i hc
    simp only [Option.some.injEq, Prod.mk.injEq] at he
    obtain ⟨rfl, _⟩ := he
    exact ⟨e, Engine.mem_entries.mp hm, hc.1, hc.2.1, hc.2.2.1, hc.2.2.2⟩
  · exact absurd he (by simp)

/-! ### Entries -/

/-- An entry that the beginning of drains may change: it was a pending write. -/
theorem beginItem_table {s : State} {item : DrainItem} (hi : s.headItem = some item) {q : Fin 4} {e : DelayedEntry}
    (hq : s.engine.table[q] = some e) (he : e.isPendingWrite = false) : (s.beginItem item).engine.table[q] = some e := by
  have ne : ∀ p, item = .delayedWrite p → p ≠ q := by
    rintro p rfl rfl
    obtain ⟨e', h1, h2⟩ := headItem_delayedWrite hi
    rw [hq] at h1
    cases h1
    simp [he] at h2
  have key : ∀ t : State, t.engine = s.engine ∨
      (∃ p x, item = .delayedWrite p ∧ t.engine = { s.engine with table := s.engine.table.set p x }) →
      t.engine.table[q] = some e := by
    rintro t (h | ⟨p, x, rfl, h⟩)
    · rw [h]; exact hq
    · rw [h]
      simpa [Vector.getElem_set_ne, Fin.val_ne_of_ne (ne p rfl)] using hq
  refine key _ ?_
  simp only [beginItem]
  split
  · split <;> exact .inl rfl
  · split
    · cases item <;> simp only [leave]
      · split <;> simp
      · simp
      · split
        · exact .inr ⟨_, _, rfl, by simp [completeEntry, setEntry]; rfl⟩
        · simp
      · simp
    · cases item <;> simp only [issueEntry]
      · simp
      · simp
      · split
        · exact .inr ⟨_, _, rfl, by simp [setEntry]; rfl⟩
        · simp
      · simp

theorem beginItem_slots (s : State) (item : DrainItem) :
    (s.beginItem item).engine.slots = s.engine.slots ∧ (s.beginItem item).engine.prefetch = s.engine.prefetch ∧
      (s.beginItem item).engine.nextAge = s.engine.nextAge := by
  simp only [beginItem]
  split
  · split <;> simp
  · split
    · cases item <;> simp only [leave]
      · split <;> simp
      · simp
      · split <;> simp [completeEntry, setEntry]
      · simp
    · cases item <;> simp only [issueEntry]
      all_goals first | (split <;> simp [setEntry]) | simp

theorem beginDrains_table (n : Nat) {s : State} {q : Fin 4} {e : DelayedEntry} (hq : s.engine.table[q] = some e)
    (he : e.isPendingWrite = false) : (State.beginDrains n s).engine.table[q] = some e := by
  induction n generalizing s with
  | zero => simpa [beginDrains] using hq
  | succ n ih =>
    have key : ∀ t : State, t = s ∨ (∃ item, s.headItem = some item ∧ t = State.beginDrains n (s.beginItem item)) →
        t.engine.table[q] = some e := by
      rintro t (rfl | ⟨item, hi, rfl⟩)
      · exact hq
      · exact ih (beginItem_table hi hq he)
    refine key _ ?_
    cases hb : s.mayBegin with
    | false => exact .inl (beginDrains_of_not_mayBegin _ _ hb)
    | true =>
      cases hi : s.headItem with
      | none => exact .inl (beginDrains_of_no_head _ _ hi)
      | some item => exact .inr ⟨item, rfl, by simp [beginDrains, hb, hi]⟩

theorem beginDrains_slots (n : Nat) (s : State) :
    (State.beginDrains n s).engine.slots = s.engine.slots ∧
      (State.beginDrains n s).engine.prefetch = s.engine.prefetch ∧
      (State.beginDrains n s).engine.nextAge = s.engine.nextAge := by
  induction n generalizing s with
  | zero => simp [beginDrains]
  | succ n ih =>
    unfold beginDrains
    split
    · split
      · simp
      · rename_i item _
        obtain ⟨h1, h2, h3⟩ := ih (s.beginItem item)
        obtain ⟨g1, g2, g3⟩ := beginItem_slots s item
        exact ⟨h1.trans g1, h2.trans g2, h3.trans g3⟩
    · simp

/-- The arbiter changes an entry only by taking its demand fill: a WAITING read entry becomes ISSUED. -/
theorem arbitrate_table {s : State} {q : Fin 4} {e : DelayedEntry} (hq : s.engine.table[q] = some e) :
    (¬ (e.kind = .read ∧ e.state = .waiting) → s.arbitrate.engine.table[q] = some e) ∧
      ∃ f, s.arbitrate.engine.table[q] = some f ∧ f.body = e.body ∧ f.kind = e.kind ∧ f.initiator = e.initiator ∧
        (f.state = e.state ∨ f.state = .issued) := by
  have self : (¬ (e.kind = .read ∧ e.state = .waiting) → s.engine.table[q] = some e) ∧
      ∃ f, s.engine.table[q] = some f ∧ f.body = e.body ∧ f.kind = e.kind ∧ f.initiator = e.initiator ∧
        (f.state = e.state ∨ f.state = .issued) := ⟨fun _ => hq, e, hq, rfl, rfl, rfl, .inl rfl⟩
  have key : ∀ t : State, t.engine.table = s.engine.table →
      (¬ (e.kind = .read ∧ e.state = .waiting) → t.engine.table[q] = some e) ∧
        ∃ f, t.engine.table[q] = some f ∧ f.body = e.body ∧ f.kind = e.kind ∧ f.initiator = e.initiator ∧
          (f.state = e.state ∨ f.state = .issued) := by
    intro t h
    rw [h]
    exact self
  have demand : ∀ p, s.oldestReadyRead (fun _ => true) = some p →
      (¬ (e.kind = .read ∧ e.state = .waiting) → (s.grantDemand p).engine.table[q] = some e) ∧
        ∃ f, (s.grantDemand p).engine.table[q] = some f ∧ f.body = e.body ∧ f.kind = e.kind ∧
          f.initiator = e.initiator ∧ (f.state = e.state ∨ f.state = .issued) := by
    intro p hp
    obtain ⟨e', h1, hk, hw, _, _⟩ := oldestReadyRead_waiting hp
    cases h2 : s.engine.slotToTake with
    | none =>
      refine key _ ?_
      simp [grantDemand, h1, h2]
    | some i =>
      have ht : (s.grantDemand p).engine.table = s.engine.table.set p (some { e' with state := .issued, slot := some i }) := by
        simp only [grantDemand, h1, h2]
        rfl
      rw [ht]
      by_cases hpq : p = q
      · subst hpq
        rw [hq] at h1
        cases h1
        exact ⟨fun h => absurd ⟨hk, hw⟩ h, { e with state := .issued, slot := some i }, by simp, rfl, rfl, rfl, .inr rfl⟩
      · have : (s.engine.table.set p (some { e' with state := .issued, slot := some i }))[q] = some e := by
          simpa [Vector.getElem_set_ne, Fin.val_ne_of_ne hpq] using hq
        exact ⟨fun _ => this, e, this, rfl, rfl, rfl, .inl rfl⟩
  cases h1 : (s.port.op.isSome || s.supply.state == .fail) with
  | true => exact key _ (by simp [arbitrate, h1])
  | false =>
    cases h2 : s.procedureOp with
    | some op => exact key _ (by simp [arbitrate, h1, h2])
    | none =>
      cases h3 : s.writeTurn with
      | true => exact key _ (by cases ho : s.writeOffer <;> simp [arbitrate, h1, h2, h3, grantOffer, ho, grantWrite, issue, grantedTo])
      | false =>
        cases h4 : s.oldestReadyRead (fun _ => true) with
        | some p =>
          have : s.arbitrate = s.grantDemand p := by simp [arbitrate, h1, h2, h3, takeRead, h4]
          rw [this]
          exact demand p h4
        | none =>
          refine key _ ?_
          simp only [arbitrate, h1, h2, h3, takeRead, h4, takePrefetch, Bool.false_eq_true, if_false]
          split
          · simp only [grantPrefetch]
            split
            · rfl
            · rfl
          · cases s.writeOffer <;> rfl

theorem settle_table {s : State} {q : Fin 4} {e : DelayedEntry} (hq : s.engine.table[q] = some e)
    (he : e.isPendingWrite = false) (hr : ¬ (e.kind = .read ∧ e.state = .waiting)) :
    s.settle.engine.table[q] = some e :=
  (arbitrate_table (beginDrains_table _ hq he)).1 hr

/-- A COMPLETE entry stays. -/
theorem settle_table_of_complete {s : State} {q : Fin 4} {e : DelayedEntry} {r : EntryResult}
    (hq : s.engine.table[q] = some e) (h : e.state = .complete r) : s.settle.engine.table[q] = some e :=
  settle_table hq (by simp [DelayedEntry.isPendingWrite, h]) (by simp [h])

/-- A read entry keeps its request, and WAITING may become ISSUED. -/
theorem settle_table_of_read {s : State} {q : Fin 4} {e : DelayedEntry} (hq : s.engine.table[q] = some e)
    (h : e.kind = .read) : ∃ f, s.settle.engine.table[q] = some f ∧ f.body = e.body ∧ f.kind = e.kind ∧
      f.initiator = e.initiator ∧ (f.state = e.state ∨ f.state = .issued) :=
  (arbitrate_table (beginDrains_table _ hq (by simp [DelayedEntry.isPendingWrite, h]))).2

/-! ### Slots -/

theorem slotToTake_unowned {g : Engine} {i : Fin 8} (h : g.slotToTake = some i) :
    g.slots[i] = .free ∨ ∃ l d a, g.slots[i] = .valid l d none a := by
  simp only [Engine.slotToTake] at h
  split at h
  · rename_i j hj
    cases h
    have := List.find?_some hj
    exact .inl (by simpa using this)
  · simp only [Option.map_eq_some_iff] at h
    obtain ⟨⟨j, a⟩, hj, rfl⟩ := h
    have := oldest_mem hj
    simp only [List.mem_filterMap] at this
    obtain ⟨k, _, hk⟩ := this
    split at hk <;> simp at hk
    rename_i l d age hs
    obtain ⟨rfl, rfl⟩ := hk
    exact .inr ⟨l, d, _, hs⟩

/-- The arbiter takes no owned slot and gives no age. -/
theorem arbitrate_slots {s : State} {j : Fin 8} {l : Nat} {d : Line} {p : Fin 4} {g : Nat}
    (h : s.engine.slots[j] = .valid l d (some p) g) : s.arbitrate.engine.slots[j] = .valid l d (some p) g := by
  have key : ∀ t : State, t.engine.slots = s.engine.slots ∨
      (∃ i x, s.engine.slotToTake = some i ∧ t.engine.slots = s.engine.slots.set i x) →
      t.engine.slots[j] = .valid l d (some p) g := by
    rintro t (h' | ⟨i, x, hi, h'⟩)
    · rw [h']; exact h
    · have hne : i ≠ j := by
        rintro rfl
        rcases slotToTake_unowned hi with hf | ⟨_, _, _, hf⟩ <;> rw [h] at hf <;> cases hf
      rw [h']
      simpa [Vector.getElem_set_ne, Fin.val_ne_of_ne hne] using h
  refine key _ ?_
  simp only [arbitrate]
  split
  · exact .inl rfl
  · split
    · exact .inl rfl
    · split
      · cases s.writeOffer <;> exact .inl rfl
      · simp only [takeRead]
        split
        · simp only [grantDemand]
          split
          · rename_i i _ hi
            exact .inr ⟨_, _, hi, rfl⟩
          · exact .inl rfl
          · exact .inl rfl
        · simp only [takePrefetch]
          split
          · simp only [grantPrefetch]
            split
            · rename_i i hi
              exact .inr ⟨i, _, hi, rfl⟩
            · exact .inl rfl
          · cases s.writeOffer <;> exact .inl rfl

/-- A slot with an owner stays. -/
theorem settle_slots_of_owned {s : State} {j : Fin 8} {l : Nat} {d : Line} {p : Fin 4} {g : Nat}
    (h : s.engine.slots[j] = .valid l d (some p) g) : s.settle.engine.slots[j] = .valid l d (some p) g := by
  refine arbitrate_slots ?_
  rw [(beginDrains_slots _ _).1]
  exact h

/-! ### The head's operation -/

theorem drainOp_carries {s : State} {d : Drain} {o : Operation} (hd : s.drain = some d) (h : s.drainOp d = some o) :
    s.carriesDrain o := by
  refine ⟨d, hd, ?_⟩
  obtain ⟨item, stage, image, ft⟩ := d
  cases stage <;> simp only [drainOp] at h ⊢
  case closeHeader =>
    obtain rfl := Option.some.inj h
    simp [headerOp, writeOp, Journal.areaLine, fullMask, noRegion]
  all_goals
    cases hb : s.itemBody item with
    | none => rw [hb] at h; cases h
    | some b =>
      rw [hb] at h
      obtain rfl := Option.some.inj h
      simp [beforeOp, imageOp, recordOp, dataOp, readOp, writeOp, Journal.areaLine, fullMask, placeBytes, Nat.add_assoc, noRegion]

theorem writeOffer_carries {s : State} {o : Operation} (h : s.writeOffer = some o) (ho : o.owner = .head) :
    s.carriesDrain o := by
  simp only [writeOffer] at h
  split at h
  · simp only [Option.some.injEq] at h
    subst h
    simp [headerOp, writeOp] at ho
  · split at h
    · rename_i d hd
      exact drainOp_carries hd h
    · cases h

/-- What the drain's operation is depends on the drain, the queue, the table's bodies, the journal and the attempt limit alone. -/
theorem carriesDrain_congr {s t : State} {o : Operation} (h : s.carriesDrain o) (hd : t.drain = s.drain)
    (hq : t.queue = s.queue) (ht : t.engine.table = s.engine.table) (hj : t.journal = s.journal)
    (hl : t.port.attemptLimit = s.port.attemptLimit) : t.carriesDrain o := by
  have hb : ∀ item, t.itemBody item = s.itemBody item := by
    intro item
    cases item <;> simp [itemBody, hq, ht]
  simpa [carriesDrain, hd, hb, hj, hl] using h

theorem procedureOp_owner {s : State} {o : Operation} (h : s.procedureOp = some o) :
    o.owner = .scan ∨ o.owner = .rollback := by
  simp only [procedureOp] at h
  split at h <;> simp only [Option.some.injEq, reduceCtorEq] at h <;> subst h <;>
    simp [areaRead, readOp, targetOp, writeOp, headerOp]

/-- An operation that the arbiter grants to the head is the one that the drain has reached. -/
theorem arbitrate_head {s : State} {o : Operation} (hn : s.port.op = none) (h : s.arbitrate.port.op = some o)
    (ho : o.owner = .head) : s.arbitrate.carriesDrain o := by
  have offered : ∀ t : State, t.port.op = none →
      (t.grantOffer s.writeOffer).port.op = some o → t.engine.table = s.engine.table → t.drain = s.drain →
      t.queue = s.queue → t.journal = s.journal → t.port.attemptLimit = s.port.attemptLimit →
      (t.grantOffer s.writeOffer).carriesDrain o := by
    intro t htn hg h1 h2 h3 h4 h5
    cases hw : s.writeOffer with
    | none => rw [hw] at hg; simp [grantOffer, htn] at hg
    | some o' =>
      rw [hw] at hg
      have : o' = o := by simpa [grantOffer, grantWrite, issue] using hg
      subst this
      exact carriesDrain_congr (writeOffer_carries hw ho) h2 h3 h1 h4 h5
  revert h
  simp only [arbitrate]
  split
  · intro h; rw [hn] at h; cases h
  · split
    · rename_i op hp
      intro h
      have : op = o := by simpa [issue] using h
      subst this
      rcases procedureOp_owner hp with h' | h' <;> rw [ho] at h' <;> cases h'
    · split
      · intro h
        exact offered s hn h rfl rfl rfl rfl rfl
      · simp only [takeRead]
        split
        · simp only [grantDemand]
          split
          · intro h
            obtain rfl := Option.some.inj h
            cases ho
          · intro h; rw [hn] at h; cases h
          · intro h; rw [hn] at h; cases h
        · simp only [takePrefetch]
          split
          · simp only [grantPrefetch]
            split
            · intro h
              obtain rfl := Option.some.inj h
              cases ho
            · intro h; simp [hn] at h
          · intro h
            exact offered _ hn h rfl rfl rfl rfl rfl

theorem settle_head {s : State} {o : Operation} (hn : s.port.op = none) (h : s.settle.port.op = some o)
    (ho : o.owner = .head) : s.settle.carriesDrain o := arbitrate_head (by simpa using hn) h ho

end State

end Sys2Proof.Machine
end

