-- ==== Sys2Proof/Laws/Outcomes.lean ====
section
/-! SUPPORT. How an operation ends: the commands that end it in success or in failure, and what the end does before the next
grant. -/

namespace Sys2Proof.Machine

open State

/-- R110: memory after the answer that ends an operation in success: a LINE WRITE without verify gives its enabled bytes the
data sent at that answer; a LINE READ and a verify read change nothing. -/
def Operation.ended (op : Operation) (m : List Host.Cell) : List Host.Cell :=
  if op.phase = .awaiting ∧ op.kind = .lineWrite then Memory.writeLine op.line op.mask op.data m else m

/-- The memory of a state as it stands is a value it can take. -/
theorem setMemory_self (s : State) : s.setMemory s.memory = s := rfl

/-- A command that ends the operation in success changes memory as R110 says, and the owner is told. -/
theorem exec_of_succeedsBy {c : Instr} {s : State} {op : Operation} {data : Line} (hop : s.port.op = some op)
    (h : op.succeedsBy data c) : exec c s = .next ((s.setMemory (op.ended s.memory)).succeed op data) := by
  unfold Operation.succeedsBy at h
  split at h
  · rcases h with ⟨hp, hk, rfl⟩ | ⟨hp, hk, hv, rfl⟩ | ⟨hp, ha, rfl⟩
    · simp [exec, execMemoryAnswer, hop, answered, hp, attemptOk, hk, Operation.ended, setMemory_self]
    · simp [exec, execMemoryAnswer, hop, answered, hp, attemptOk, hk, hv, Operation.ended]
    · simp [exec, execMemoryAnswer, hop, answered, hp, verifyOk, ha, Operation.ended, setMemory_self]
  · exact h.elim

/-- A command that ends the operation in failure leaves the line of a LINE WRITE undefined, and the failure is listed and
told. -/
theorem exec_of_failsBy {c : Instr} {s : State} {op : Operation} (hop : s.port.op = some op) (h : op.failsBy c) :
    exec c s = .next (s.failAtLimit op) := by
  unfold Operation.failsBy at h
  split at h
  · obtain ⟨hl, hp | hp⟩ := h <;>
      simp [exec, execMemoryAnswer, hop, answered, hp, attemptFailed, verifyFailed, Nat.not_lt.mpr hl]
  · obtain ⟨hl, hp | hp⟩ := h <;>
      simp [exec, execMemoryAnswer, hop, answered, hp, attemptError, verifyFailed, Nat.not_lt.mpr hl]
  · obtain ⟨hl, hp | hp⟩ := h <;>
      simp [exec, execAttemptTimeout, hop, answered, hp, attemptError, verifyFailed, Nat.not_lt.mpr hl]
  · obtain ⟨hl, hp, ha⟩ := h
    simp [exec, execMemoryAnswer, hop, answered, hp, verifyOk, ha, Nat.not_lt.mpr hl]
  · exact h.elim

namespace State

/-- What stands before the owner is told of a failure: the port is free, the failure listed, and for a prefetch counted. -/
def beforeFailure (s : State) (op : Operation) : State :=
  (if op.owner = .prefetch then s.freePort.count .memRetry else s.freePort).listFailure op

theorem failOp_eq (s : State) (op : Operation) : s.failOp op = ((s.beforeFailure op).ownerFailed op).settle := rfl

@[simp] theorem beforeFailure_frame (s : State) (op : Operation) :
    (s.beforeFailure op).lines = s.lines ∧ (s.beforeFailure op).classifier = s.classifier ∧
    (s.beforeFailure op).queue = s.queue ∧ (s.beforeFailure op).engine = s.engine ∧
    (s.beforeFailure op).nextPos = s.nextPos ∧ (s.beforeFailure op).journal = s.journal ∧
    (s.beforeFailure op).drain = s.drain ∧ (s.beforeFailure op).startup = s.startup ∧
    (s.beforeFailure op).supply = s.supply ∧ (s.beforeFailure op).mgmt = s.mgmt ∧
    (s.beforeFailure op).memory = s.memory ∧ (s.beforeFailure op).frameLines = s.frameLines ∧
    (s.beforeFailure op).pending = s.pending := by
  simp only [beforeFailure]
  split <;> simp

@[simp] theorem beforeFailure_port_op (s : State) (op : Operation) : (s.beforeFailure op).port.op = none := by
  simp only [beforeFailure, listFailure]
  split <;> (repeat' split) <;> simp_all [freePort]

@[simp] theorem freePort_op (s : State) : s.freePort.port.op = none := rfl

end State

end Sys2Proof.Machine
end

