-- ==== Sys2Proof/Laws/Faults.lean ====
section
/-! SUPPORT. What an event, a count, a report, a latch and a move of the journal state do, in full: each depends on the fault
unit alone, and says which codes, counters and events it leaves. -/

namespace Sys2Proof.Machine.State

/-! ### What each reads -/

theorem raise_faults_congr {s t : State} (h : t.faults = s.faults) (k : EventKind) :
    (t.raise k).faults = (s.raise k).faults := by
  simp only [raise, h, setEvents]
  split
  · simp [h]
  · exact h

theorem report_faults_congr {s t : State} (h : t.faults = s.faults) (r : Fin 9) (c : RegionCode) :
    (t.report r c).faults = (s.report r c).faults := by
  simp only [report, h]
  split
  · have : (t.setCodes (s.faults.codes.set r c)).faults = (s.setCodes (s.faults.codes.set r c)).faults := by
      simp [setCodes, h]
    split
    · exact raise_faults_congr this _
    · exact this
  · exact h

/-- An event changes the fault unit alone. -/
theorem raise_eq (s : State) (k : EventKind) : s.raise k = { s with faults := (s.raise k).faults } := by
  simp only [raise]
  split <;> rfl

/-- A report changes the fault unit alone. -/
theorem report_eq (s : State) (r : Fin 9) (c : RegionCode) : s.report r c = { s with faults := (s.report r c).faults } := by
  simp only [report, raise]
  split
  · split
    · split <;> rfl
    · rfl
  · rfl

/-- A count changes the fault unit alone. -/
theorem count_eq (s : State) (k : CounterKind) : s.count k = { s with faults := (s.count k).faults } := by
  simp only [count, raise]
  split
  · rfl
  · split
    · split <;> rfl
    · rfl

theorem count_faults_congr {s t : State} (h : t.faults = s.faults) (k : CounterKind) :
    (t.count k).faults = (s.count k).faults := by
  simp only [count, h]
  split
  · exact h
  · have : (t.setCounters (s.faults.counters.set k (s.faults.counters.get k + 1))).faults =
        (s.setCounters (s.faults.counters.set k (s.faults.counters.get k + 1))).faults := by simp [setCounters, h]
    split
    · exact raise_faults_congr this _
    · exact this

/-! ### Codes and counters -/

/-- A report gives its region the more severe of the two codes. -/
theorem report_code (s : State) (r : Fin 9) (c : RegionCode) : (s.report r c).faults.codes[r] =
    if c.byte < s.faults.codes[r].byte then c else s.faults.codes[r] := by
  have key : ∀ t : State, t.faults.codes = s.faults.codes.set r c → t.faults.codes[r] = c := by
    intro t h
    rw [h]
    simp
  by_cases hc : c.byte < s.faults.codes[r].byte
  · rw [if_pos hc]
    refine key _ ?_
    simp only [report, hc, if_true]
    split <;> simp [setCodes]
  · rw [if_neg hc]
    have : s.report r c = s := by simp only [report, hc, if_false]
    rw [this]

/-- A count raises its own counter by 1 below 65535 and leaves the others. -/
theorem count_counters (s : State) (k : CounterKind) : (s.count k).faults.counters =
    if s.faults.counters.get k = BitVec.allOnes 16 then s.faults.counters
    else s.faults.counters.set k (s.faults.counters.get k + 1) := by
  simp only [count]
  split
  · rfl
  · split <;> simp [setCounters]

@[simp] theorem listFailure_codes (s : State) (op : Operation) :
    (s.listFailure op).faults.codes = s.faults.codes ∧ (s.listFailure op).faults.counters = s.faults.counters := by
  simp only [listFailure]
  split
  · simp
  · split
    · simp
    · split <;> simp

/-! ### Counters below the port -/

@[simp] theorem leave_counters (s : State) (item : DrainItem) (c : RegionCode) (r : EntryResult) :
    (s.leave item c r).faults.counters = s.faults.counters := by
  cases item <;> simp only [leave]
  · split <;> simp
  · simp
  · split <;> simp
  · simp

@[simp] theorem beginItem_counters (s : State) (item : DrainItem) :
    (s.beginItem item).faults.counters = s.faults.counters := by
  simp only [beginItem]
  split
  · split <;> simp
  · split
    · simp
    · simp

@[simp] theorem beginDrains_counters (n : Nat) (s : State) :
    (State.beginDrains n s).faults.counters = s.faults.counters := by
  induction n generalizing s with
  | zero => simp [beginDrains]
  | succ n ih =>
    unfold beginDrains
    split
    · split
      · rfl
      · rw [ih]; simp
    · rfl

/-- What follows at the port counts nothing. -/
@[simp] theorem settle_counters (s : State) : s.settle.faults.counters = s.faults.counters := by simp [settle]

/-- Outside a prefetch a failure counts nothing before its owner is told. -/
theorem beforeFailure_codes (s : State) (op : Operation) :
    (s.beforeFailure op).faults.codes = s.faults.codes ∧
      (op.owner ≠ .prefetch → (s.beforeFailure op).faults.counters = s.faults.counters) := by
  simp only [beforeFailure]
  split
  · simp_all
  · simp

/-! ### Codes below the port -/

/-- A report changes the code of its own region alone. -/
theorem report_code_other (s : State) (r : Fin 9) (c : RegionCode) (i : Fin 9) (h : i ≠ r) :
    (s.report r c).faults.codes[i] = s.faults.codes[i] := by
  have key : ∀ t : State, t.faults.codes = s.faults.codes ∨ t.faults.codes = s.faults.codes.set r c →
      t.faults.codes[i] = s.faults.codes[i] := by
    rintro t (h' | h')
    · rw [h']
    · rw [h']
      simp [Vector.getElem_set_ne, Fin.val_ne_of_ne (Ne.symm h)]
  refine key _ ?_
  simp only [report]
  split
  · split <;> simp [setCodes]
  · exact .inl rfl

/-- A code as a beginning drain may leave it: as it was, or JOURNAL_FAIL where it was less severe. -/
theorem beginItem_code (s : State) (item : DrainItem) (i : Fin 9) :
    (s.beginItem item).faults.codes[i] = s.faults.codes[i] ∨
      ((s.beginItem item).faults.codes[i] = .journalFail ∧ 2 < s.faults.codes[i].byte) := by
  have key : ∀ t : State, t.faults = s.faults ∨ (∃ r, t.faults = (s.report r .journalFail).faults) →
      t.faults.codes[i] = s.faults.codes[i] ∨ (t.faults.codes[i] = .journalFail ∧ 2 < s.faults.codes[i].byte) := by
    rintro t (h | ⟨r, h⟩)
    · rw [h]; exact .inl rfl
    · rw [h]
      by_cases hr : i = r
      · subst hr
        rw [report_code]
        split
        · rename_i hc
          exact .inr ⟨rfl, by simpa [RegionCode.byte] using hc⟩
        · exact .inl rfl
      · rw [report_code_other _ _ _ _ hr]; exact .inl rfl
  refine key _ ?_
  simp only [beginItem]
  split
  · split <;> exact .inl rfl
  · split
    · cases item <;> simp only [leave]
      · split
        · exact .inr ⟨_, report_faults_congr (by simp) _ _⟩
        · exact .inl rfl
      · exact .inl rfl
      · split
        · exact .inr ⟨_, report_faults_congr (by simp) _ _⟩
        · exact .inl rfl
      · exact .inl rfl
    · simp

theorem beginDrains_code (n : Nat) (s : State) (i : Fin 9) :
    (State.beginDrains n s).faults.codes[i] = s.faults.codes[i] ∨
      ((State.beginDrains n s).faults.codes[i] = .journalFail ∧ 2 < s.faults.codes[i].byte) := by
  induction n generalizing s with
  | zero => exact .inl rfl
  | succ n ih =>
    cases hb : s.mayBegin with
    | false => rw [beginDrains_of_not_mayBegin _ _ hb]; exact .inl rfl
    | true =>
      cases hi : s.headItem with
      | none => rw [beginDrains_of_no_head _ _ hi]; exact .inl rfl
      | some item =>
        have : State.beginDrains (n + 1) s = State.beginDrains n (s.beginItem item) := by simp [beginDrains, hb, hi]
        rw [this]
        have h1 := ih (s.beginItem item)
        have h2 := beginItem_code s item i
        rcases h1 with h1 | ⟨h1, h1'⟩
        · rw [h1]; exact h2
        · rcases h2 with h2 | ⟨h2, h2'⟩
          · rw [h2] at h1'; exact .inr ⟨h1, h1'⟩
          · exact .inr ⟨h1, h2'⟩

/-- What follows at the port reports JOURNAL_FAIL alone. -/
theorem settle_code (s : State) (i : Fin 9) : s.settle.faults.codes[i] = s.faults.codes[i] ∨
    (s.settle.faults.codes[i] = .journalFail ∧ 2 < s.faults.codes[i].byte) := by
  have : s.settle.faults = (State.beginDrains longestOrder s).faults := by simp [settle]
  rw [this]
  exact beginDrains_code _ _ _

/-! ### The journal state -/

/-- A move of the journal state changes the state alone of the journal. -/
theorem setJournalState_journal (s : State) (x : JournalState) :
    (s.setJournalState x).journal = { s.journal with state := x } := by
  simp only [setJournalState]
  split
  · rename_i h
    rw [← h]
  · split <;> simp

end Sys2Proof.Machine.State
end

