-- ==== Sys2Proof/Laws/Drains.lean ====
section
/-! SUPPORT. What stands after an event at the memory port: which events are pending, which entries a run of drops takes from
the write order, and which drain is in progress. -/

namespace Sys2Proof.Machine

/-! ### Events -/

/-- R161: what a cause leaves of its event. -/
theorem State.raise_recorded (s : State) (k : EventKind) : (s.raise k).recorded k := by
  have hb : ∀ e : BitVec 9, (e ||| k.bit) &&& k.bit ≠ 0 := by
    intro e h
    have h2 : k.bit = 0 := (by simpa [BitVec.and_or_distrib_right] using h : _ ∧ _).2
    cases k <;> exact absurd h2 (by decide)
  intro h
  by_cases hc : s.faults.mask &&& k.bit = 0 ∨ s.faults.visible = true
  · simp only [raise, if_pos hc, setEvents] at h ⊢
    exact hb _
  · simp only [raise, if_neg hc] at h
    exact absurd h hc

/-- R161: a recorded event stays recorded while masks and visibility stand. -/
theorem State.recorded_of_grows {s t : State} {k : EventKind} (hg : s.faults.Grows t.faults) (h : s.recorded k) :
    t.recorded k := by
  obtain ⟨-, -, hm, hv, he, -⟩ := hg
  intro hc
  rw [hm, hv] at hc
  have := h hc
  intro h0
  apply this
  have h1 : s.faults.events &&& k.bit = s.faults.events &&& (t.faults.events &&& k.bit) := by
    rw [← he, ← BitVec.and_assoc]
    congr 1
    ext i
    simp
    tauto
  rw [h1, h0]; simp

/-! ### The head of the write order -/

theorem oldest_eq_none {α : Type} {l : List (α × Nat)} (h : oldest l = none) : l = [] := by
  cases l with
  | nil => rfl
  | cons x xs =>
    simp only [oldest] at h
    split at h
    · cases h
    · split at h <;> cases h

namespace State

theorem headItem_ne_removed (s : State) (b : Body) : s.headItem ≠ some (.removed b) := by
  simp only [headItem]
  split <;> simp <;> split <;> simp

theorem headItem_posted {s : State} (h : s.headItem = some .postedWrite) : ∃ b rest, s.queue = .write b :: rest := by
  simp only [headItem] at h
  split at h <;> simp_all
  split at h <;> simp at h

theorem headItem_marker {s : State} (h : s.headItem = some .closeMarker) : ∃ p rest, s.queue = .marker p :: rest := by
  simp only [headItem] at h
  split at h <;> simp_all
  split at h <;> simp at h

/-- No head stands only in an empty write order. -/
theorem headItem_none {s : State} (h : s.headItem = none) :
    s.queue = [] ∧ ∀ (p : Fin 4) (e : DelayedEntry), s.engine.table[p] = some e → e.isPendingWrite = false := by
  have h0 : s.queue = [] ∧ s.oldestDelayedWrite = none := by
    simp only [headItem] at h
    split at h <;> simp_all
  refine ⟨h0.1, fun p e he => ?_⟩
  have h1 := oldest_eq_none h0.2
  simp only [List.map_eq_nil_iff, List.filter_eq_nil_iff] at h1
  simpa using h1 (p, e) (Engine.mem_entries.mpr he)

/-! ### One beginning -/

/-- R39, R60: a head that is not dropped begins its drain; a delayed write becomes ISSUED, and nothing else changes. -/
theorem beginItem_begun {s : State} {item : DrainItem} (hi : s.headItem = some item)
    (h : s.journal.state = .failed → ∀ b, s.itemBody item = some b → b.cls.guarded = false) :
    (∃ st, (s.beginItem item).drain = some ⟨item, st, 0, true⟩ ∧ st ≠ .imageWrite ∧ st ≠ .recordHeader) ∧
      (s.beginItem item).queue = s.queue ∧
      ((∀ p, item ≠ .delayedWrite p) → (s.beginItem item).engine = s.engine) ∧
      ∀ p, item = .delayedWrite p → ∃ e, s.engine.table[p] = some e ∧
        (s.beginItem item).engine.table = s.engine.table.set p (some { e with state := .issued }) := by
  have stage : ∀ b : Body, s.firstStage b ≠ .imageWrite ∧ s.firstStage b ≠ .recordHeader := by
    intro b
    simp only [firstStage]
    split <;> simp
  cases item with
  | postedWrite =>
    obtain ⟨b, rest, hq⟩ := headItem_posted hi
    have hb : s.itemBody .postedWrite = some b := by simp [itemBody, hq, QueueEntry.body]
    have hg : ¬ (b.cls.guarded = true ∧ s.journal.state = .failed) := fun ⟨h1, h2⟩ => by simp [h h2 b hb] at h1
    simp only [beginItem, hb, if_neg hg, issueEntry]
    exact ⟨⟨_, rfl, stage b⟩, rfl, fun _ => rfl, nofun⟩
  | closeMarker => exact ⟨⟨.closeHeader, rfl, nofun, nofun⟩, rfl, fun _ => rfl, nofun⟩
  | delayedWrite p =>
    obtain ⟨e, he, -⟩ := headItem_delayedWrite hi
    have hb : s.itemBody (.delayedWrite p) = some e.body := by simp only [itemBody, he, Option.map_some]
    have hg : ¬ (e.body.cls.guarded = true ∧ s.journal.state = .failed) := fun ⟨h1, h2⟩ => by simp [h h2 _ hb] at h1
    simp only [beginItem, hb, if_neg hg, issueEntry, he]
    exact ⟨⟨_, rfl, stage _⟩, rfl, fun h => absurd rfl (h p), fun q hq => by cases hq; exact ⟨e, he, rfl⟩⟩
  | removed b => exact absurd hi (headItem_ne_removed s b)

/-- R44, R61: a guarded head is dropped in FAILED: a posted write leaves the queue, a delayed one is COMPLETE with result FAIL. -/
theorem beginItem_dropped {s : State} {item : DrainItem} {b : Body} (hi : s.headItem = some item)
    (hb : s.itemBody item = some b) (hg : b.cls.guarded = true) (hj : s.journal.state = .failed) :
    (s.beginItem item).drain = none ∧ (s.beginItem item).dropped b ∧
      ((item = .postedWrite ∧ s.queue = .write b :: (s.beginItem item).queue ∧ (s.beginItem item).engine = s.engine) ∨
        ∃ p e, item = .delayedWrite p ∧ s.engine.table[p] = some e ∧ e.body = b ∧ e.isPendingWrite = true ∧
          (s.beginItem item).queue = s.queue ∧ (s.beginItem item).engine.table = s.engine.table.set p (some { e with
            state := .complete .fail, slot := none, timer := some (s.engine.claimTimeout.toNat * 16) })) := by
  have code : ∀ u : State, (u.report b.cls.region .journalFail).faults.codes[b.cls.region].byte ≤ 2 := by
    intro u
    rw [report_code]
    split
    · decide
    · rename_i hc; simpa [RegionCode.byte] using hc
  have hd : s.beginItem item = s.leave item .journalFail .fail := by
    simp only [beginItem, hb, hg, hj, and_self, if_true]
  rw [hd]
  cases item with
  | postedWrite =>
    obtain ⟨b', rest, hq⟩ := headItem_posted hi
    obtain rfl : b' = b := by simpa [itemBody, hq, QueueEntry.body] using hb
    have hl : s.leave .postedWrite .journalFail .fail = (s.popQueue.setDrain none).report b'.cls.region .journalFail := by
      simp only [leave, hb]
    rw [hl]
    refine ⟨by simp, ⟨hg, by simpa using hj, code _⟩, .inl ⟨rfl, ?_, by simp⟩⟩
    simp [popQueue, setDrain, hq]
  | closeMarker => simp [itemBody] at hb
  | delayedWrite p =>
    obtain ⟨e, he, hp⟩ := headItem_delayedWrite hi
    obtain rfl : e.body = b := by simpa only [itemBody, he, Option.map_some, Option.some.injEq] using hb
    have hl : s.leave (.delayedWrite p) .journalFail .fail =
        ((s.completeEntry p e .fail none).setDrain none).report e.body.cls.region .journalFail := by
      simp only [leave, he]
    rw [hl]
    refine ⟨by simp, ⟨hg, by simpa using hj, code _⟩, .inr ⟨p, e, rfl, he, rfl, hp, by simp, ?_⟩⟩
    simp [completeEntry, setEntry, Engine.claimTime, Config.claimUnit]
  | removed b => exact absurd hi (headItem_ne_removed s b)

/-! ### A run of beginnings -/

/-- What was dropped stays so while the journal stands and the codes only get more severe. -/
theorem dropped_of_grows {s t : State} {b : Body} (h : s.dropped b) (hj : t.journal = s.journal)
    (hg : s.faults.Grows t.faults) : t.dropped b :=
  ⟨h.1, hj ▸ h.2.1, le_trans (hg.1 _) h.2.2⟩

theorem dropsFrom_refl (s : State) : s.dropsFrom s.queue := ⟨[], rfl, by simp⟩

/-- What a run of beginnings leaves: guarded entries alone have gone from the queue's front; the drain in progress, if any, has
just begun, of an entry that stands; every delayed write is as it was, ISSUED or dropped; and where a drain may begin and none is
in progress the write order is empty, if the run was long enough for it. -/
structure BegunFrom (n : Nat) (s t : State) : Prop where
  queue : t.dropsFrom s.queue
  drain : t.drainsAnew
  stands : ∀ d p, t.drain = some d → d.item = .delayedWrite p → ∃ e, t.engine.table[p] = some e
  writes : ∀ (p : Fin 4) (e : DelayedEntry), s.engine.table[p] = some e → e.kind = .write → t.writeGoesOn p e
  order : s.queue.length + (List.finRange 4).countP (fun p => (s.engine.table[p]).any (·.isPendingWrite)) ≤ n → t.writesGoOn

theorem begunFrom_self {n : Nat} {s : State} (hn : s.drain = none)
    (h : s.queue.length + (List.finRange 4).countP (fun p => (s.engine.table[p]).any (·.isPendingWrite)) ≤ n → s.writesGoOn) :
    BegunFrom n s s :=
  have no : ∀ d, s.drain ≠ some d := fun d hd => by rw [hn] at hd; cases hd
  ⟨dropsFrom_refl s, fun d hd => absurd hd (no d), fun d _ hd => absurd hd (no d), fun _ _ he _ => .inl he, h⟩

/-- A pending write fewer: the place of one takes a value that is none. -/
theorem countP_set_pending (v : Vector (Option DelayedEntry) 4) (p : Fin 4) (e f : DelayedEntry) (hp : v[p] = some e)
    (he : e.isPendingWrite = true) (hf : f.isPendingWrite = false) :
    (List.finRange 4).countP (fun q => ((v.set p (some f))[q]).any (·.isPendingWrite)) + 1 =
      (List.finRange 4).countP (fun q => (v[q]).any (·.isPendingWrite)) := by
  have h4 : List.finRange 4 = [0, 1, 2, 3] := by decide
  rw [h4]
  fin_cases p <;> simp_all [List.countP_cons] <;> omega

theorem beginDrains_begunFrom (n : Nat) (s : State) (hn : s.drain = none) : BegunFrom n s (State.beginDrains n s) := by
  induction n generalizing s with
  | zero =>
    refine begunFrom_self hn fun h _ _ _ => headItem_none ?_
    have hq : s.queue = [] := List.length_eq_zero_iff.mp (by omega)
    have hw : s.oldestDelayedWrite = none := by
      cases ho : s.oldestDelayedWrite with
      | none => rfl
      | some x =>
        obtain ⟨e, h1, h2, -⟩ := oldestDelayedWrite_pending (s := s) (p := x.1) (n := x.2) ho
        have : 0 < (List.finRange 4).countP (fun p => (s.engine.table[p]).any (·.isPendingWrite)) :=
          List.countP_pos_iff.mpr ⟨x.1, List.mem_finRange _, by rw [h1]; simpa using h2⟩
        omega
    simp [headItem, hq, hw]
  | succ n ih =>
    cases hb : s.mayBegin with
    | false =>
      rw [beginDrains_of_not_mayBegin _ _ hb]
      refine begunFrom_self hn fun _ _ h1 h2 => absurd hb ?_
      simp [mayBegin, hn, h1, initOutstanding, h2]
    | true =>
      cases hi : s.headItem with
      | none => rw [beginDrains_of_no_head _ _ hi]; exact begunFrom_self hn fun _ _ _ _ => headItem_none hi
      | some item =>
        have hstep : State.beginDrains (n + 1) s = State.beginDrains n (s.beginItem item) := by simp [beginDrains, hb, hi]
        rw [hstep]
        by_cases hdrop : s.journal.state = .failed ∧ ∃ b, s.itemBody item = some b ∧ b.cls.guarded = true
        · obtain ⟨hj, b, hbody, hg⟩ := hdrop
          obtain ⟨h1, h2, h3⟩ := beginItem_dropped hi hbody hg hj
          have hgr : (s.beginItem item).faults.Grows (State.beginDrains n (s.beginItem item)).faults :=
            beginDrains_grows _ _ (.refl _)
          have h2' : (State.beginDrains n (s.beginItem item)).dropped b := dropped_of_grows h2 (by simp) hgr
          obtain ⟨i1, i2, i3, i4, i5⟩ := ih _ h1
          refine ⟨?_, i2, i3, fun p f hf hk => ?_, fun hlen => i5 ?_⟩
          · rcases h3 with ⟨-, hq, -⟩ | ⟨p, e, -, -, -, -, hq, -⟩
            · obtain ⟨gone, hgq, hgone⟩ := i1
              refine ⟨.write b :: gone, by rw [hq, hgq, List.cons_append], fun x hx => ?_⟩
              rcases List.mem_cons.mp hx with rfl | hx
              · exact ⟨b, rfl, h2'⟩
              · exact hgone x hx
            · rwa [hq] at i1
          · rcases h3 with ⟨-, -, he⟩ | ⟨q, e, -, he, hbe, hp, -, ht⟩
            · exact i4 p f (by rw [he]; exact hf) hk
            · by_cases hpq : q = p
              · subst hpq
                rw [he] at hf
                cases hf
                have hset : (s.beginItem item).engine.table[q] = some { f with
                    state := .complete .fail, slot := none, timer := some (s.engine.claimTimeout.toNat * 16) } := by
                  rw [ht]; simp
                refine .inr (.inr ⟨?_, hp, by rw [hbe]; exact h2'⟩)
                rw [beginDrains_table n hset (by simp [DelayedEntry.isPendingWrite])]
                simp
              · refine i4 p f ?_ hk
                rw [ht]
                simpa [Vector.getElem_set_ne, Fin.val_ne_of_ne hpq] using hf
          · rcases h3 with ⟨-, hq, he⟩ | ⟨q, e, -, he, -, hp, hq, ht⟩
            · rw [he]
              rw [hq] at hlen
              simp only [List.length_cons] at hlen
              omega
            · rw [hq, ht]
              have := countP_set_pending s.engine.table q e { e with
                state := .complete .fail, slot := none, timer := some (s.engine.claimTimeout.toNat * 16) } he hp
                (by simp [DelayedEntry.isPendingWrite])
              omega
        · have hnd : s.journal.state = .failed → ∀ b, s.itemBody item = some b → b.cls.guarded = false := by
            intro hj b hbb
            cases hg : b.cls.guarded with
            | false => rfl
            | true => exact absurd ⟨hj, b, hbb, hg⟩ hdrop
          obtain ⟨⟨st, hd, hs1, hs2⟩, hq, heng, htab⟩ := beginItem_begun hi hnd
          rw [beginDrains_of_not_mayBegin _ _ (mayBegin_eq_false_of_drain hd)]
          have hnr : ∀ b, item ≠ .removed b := fun b hb => headItem_ne_removed s b (by rw [hi, hb])
          refine ⟨hq ▸ dropsFrom_refl _, fun d hd' => ?_, fun d p hd' hp => ?_, fun p f hf hk => ?_, fun _ h => ?_⟩
          · rw [hd] at hd'
            cases hd'
            refine ⟨rfl, rfl, hs1, hs2, hnr, fun hj b hb' => ?_⟩
            have hj' : s.journal.state = .failed := by simpa using hj
            cases item with
            | postedWrite => exact hnd hj' b (by simpa [itemBody, hq] using hb')
            | closeMarker => simp [itemBody] at hb'
            | delayedWrite p =>
              obtain ⟨e, he, ht⟩ := htab p rfl
              refine hnd hj' b ?_
              rw [itemBody, ht] at hb'
              simp only [itemBody, he, Option.map_some]
              simpa using hb'
            | removed b' => exact absurd rfl (hnr b')
          · rw [hd] at hd'
            cases hd'
            obtain ⟨e, -, ht⟩ := htab p hp
            exact ⟨{ e with state := .issued }, by rw [ht]; simp⟩
          · by_cases hp : item = .delayedWrite p
            · obtain ⟨e, he, ht⟩ := htab p hp
              rw [he] at hf
              cases hf
              exact .inr (.inl ⟨by rw [ht]; simp, _, hd, hp⟩)
            · refine .inl ?_
              cases item with
              | delayedWrite q =>
                obtain ⟨e, -, ht⟩ := htab q rfl
                have hqp : q ≠ p := fun h => hp (by rw [h])
                rw [ht]
                simpa [Vector.getElem_set_ne, Fin.val_ne_of_ne hqp] using hf
              | postedWrite => rw [heng (by simp)]; exact hf
              | closeMarker => rw [heng (by simp)]; exact hf
              | removed b => exact absurd rfl (hnr b)
          · rw [hd] at h; cases h

/-! ### What follows an event -/

/-- The arbiter changes one entry of the table at most, a WAITING read that becomes ISSUED. -/
theorem arbitrate_entry (s : State) (p : Fin 4) (f : DelayedEntry) (h : s.arbitrate.engine.table[p] = some f) :
    ∃ e, s.engine.table[p] = some e ∧ f.body = e.body ∧ f.kind = e.kind ∧ (f.kind = .write → f = e) := by
  cases he : s.engine.table[p] with
  | some e =>
    obtain ⟨h1, f', hf', hb, hk, -⟩ := arbitrate_table he
    rw [h] at hf'
    cases hf'
    refine ⟨e, rfl, hb, hk, fun hw => ?_⟩
    have := h1 (fun hr => by rw [hk, hr.1] at hw; cases hw)
    rw [h] at this
    cases this
    rfl
  | none =>
    have key : s.arbitrate.engine.table = s.engine.table → False := by
      intro ht
      rw [ht, he] at h
      cases h
    refine absurd key (fun hk => ?_)
    cases h1 : (s.port.op.isSome || s.supply.state == .fail) with
    | true => exact hk (by simp [arbitrate, h1])
    | false =>
      cases h2 : s.procedureOp with
      | some op => exact hk (by simp [arbitrate, h1, h2])
      | none =>
        cases h3 : s.writeTurn with
        | true => exact hk (by cases ho : s.writeOffer <;> simp [arbitrate, h1, h2, h3, grantOffer, ho, grantWrite, issue, grantedTo])
        | false =>
          cases h4 : s.oldestReadyRead (fun _ => true) with
          | some q =>
            obtain ⟨e, hq, -⟩ := oldestReadyRead_waiting h4
            have hg : s.arbitrate = s.grantDemand q := by simp [arbitrate, h1, h2, h3, takeRead, h4]
            have hne : q ≠ p := fun h => by rw [h, he] at hq; cases hq
            rw [hg] at h hk
            cases h5 : s.engine.slotToTake with
            | none => exact hk (by simp [grantDemand, hq, h5])
            | some i =>
              have ht : (s.grantDemand q).engine.table = s.engine.table.set q (some { e with state := .issued, slot := some i }) := by
                simp only [grantDemand, hq, h5]
                rfl
              rw [ht] at h
              have h0 : s.engine.table[p] = some f := by simpa [Vector.getElem_set_ne, Fin.val_ne_of_ne hne] using h
              rw [he] at h0
              cases h0
          | none =>
            refine hk ?_
            simp only [arbitrate, h1, h2, h3, takeRead, h4, takePrefetch, Bool.false_eq_true, if_false]
            split
            · simp only [grantPrefetch]
              split <;> rfl
            · cases s.writeOffer <;> rfl

theorem settle_begunFrom {s : State} (hn : s.drain = none) : BegunFrom longestOrder s s.settle := by
  obtain ⟨h1, h2, h3, h4, h5⟩ := beginDrains_begunFrom longestOrder s hn
  have hd : s.settle.drain = (State.beginDrains longestOrder s).drain := by simp [settle]
  have hf : s.settle.faults = (State.beginDrains longestOrder s).faults := by simp [settle]
  have hdrop : ∀ b, (State.beginDrains longestOrder s).dropped b → s.settle.dropped b := fun b hb =>
    dropped_of_grows hb (by simp) (hf ▸ .refl _)
  refine ⟨?_, fun d hd' => ?_, fun d p hd' hp => ?_, fun p e he hk => ?_, fun hlen hnone hs hl => ?_⟩
  · obtain ⟨gone, hq, hg⟩ := h1
    refine ⟨gone, by simpa [settle] using hq, fun x hx => ?_⟩
    obtain ⟨b, hb, hb'⟩ := hg x hx
    exact ⟨b, hb, hdrop b hb'⟩
  · obtain ⟨a1, a2, a3, a4, a5, a6⟩ := h2 d (hd ▸ hd')
    refine ⟨a1, a2, a3, a4, a5, fun hj b hb => a6 (by simpa using hj) b ?_⟩
    cases hi : d.item with
    | postedWrite => rw [hi] at hb; simpa [itemBody, settle] using hb
    | closeMarker => rw [hi] at hb; exact hb
    | delayedWrite p =>
      rw [hi] at hb
      simp only [itemBody, Option.map_eq_some_iff] at hb ⊢
      obtain ⟨f, hf', rfl⟩ := hb
      obtain ⟨e, he, hbe, -⟩ := arbitrate_entry _ p f hf'
      exact ⟨e, he, hbe.symm⟩
    | removed b' => exact absurd hi (a5 b')
  · obtain ⟨e, he⟩ := h3 d p (hd ▸ hd') hp
    obtain ⟨-, f, hf', -⟩ := arbitrate_table he
    exact ⟨f, hf'⟩
  · have keep : ∀ f : DelayedEntry, f.kind = .write → (State.beginDrains longestOrder s).engine.table[p] = some f →
        s.settle.engine.table[p] = some f := fun f hk hf => (arbitrate_table hf).1 (by simp [hk])
    rcases h4 p e he hk with h | ⟨h, d, hd', hp⟩ | ⟨h, hp, hb⟩
    · exact .inl (keep _ hk h)
    · exact .inr (.inl ⟨keep _ hk h, d, hd ▸ hd', hp⟩)
    · refine .inr (.inr ⟨?_, hp, hdrop _ hb⟩)
      simpa using keep _ (by exact hk) h
  · obtain ⟨g1, g2⟩ := h5 hlen (hd ▸ hnone) (by simpa using hs) (by simpa using hl)
    refine ⟨by simpa [settle] using g1, fun p f hf' => ?_⟩
    obtain ⟨e, he, -, hk, hw⟩ := arbitrate_entry _ p f hf'
    cases hfk : f.kind with
    | read => simp [DelayedEntry.isPendingWrite, hfk]
    | write => rw [hw hfk]; exact g2 p e he

/-- R39: where no drain is in progress, what follows an event begins one anew or none. -/
theorem settle_drainsAnew {s : State} (hn : s.drain = none) : s.settle.drainsAnew := (settle_begunFrom hn).drain

/-- R39, R44: where a drain may begin and none is in progress, nothing is left in the write order. -/
theorem settle_writesGoOn {s : State} (hn : s.drain = none) (hq : s.queue.length ≤ 16) : s.settle.writesGoOn := by
  refine (settle_begunFrom hn).order ?_
  have : (List.finRange 4).countP (fun p => (s.engine.table[p]).any (·.isPendingWrite)) ≤ 4 := by
    have h := List.countP_le_length (l := List.finRange 4) (p := fun p => (s.engine.table[p]).any (·.isPendingWrite))
    rwa [List.length_finRange] at h
  simp only [longestOrder]
  omega

/-- R60, R61: a delayed write after an event. -/
theorem settle_writeGoesOn {s : State} (hn : s.drain = none) {p : Fin 4} {e : DelayedEntry}
    (he : s.engine.table[p] = some e) (hk : e.kind = .write) : s.settle.writeGoesOn p e :=
  (settle_begunFrom hn).writes p e he hk

/-- R44, R47: what follows an event takes guarded entries alone from the queue's front, the journal being FAILED. -/
theorem settle_dropsFrom (s : State) : s.settle.dropsFrom s.queue := by
  cases hd : s.drain with
  | none => exact (settle_begunFrom hd).queue
  | some d =>
    have : s.settle.queue = s.queue := by
      simp [settle, beginDrains_of_not_mayBegin _ _ (mayBegin_eq_false_of_drain hd)]
    exact this ▸ dropsFrom_refl _

end State

end Sys2Proof.Machine
end

