-- ==== Sys2Proof/Laws/Requests.lean ====
section
/-! SUPPORT. The decision orders of the upstream port step by step: matching, room, reservations, the answer that handles a
request, the freshness actions. -/

namespace Sys2Proof.Machine

/-- R24: no entry matches. -/
theorem matching_eq_none {s : State} {r : Request} (h : s.matchesNone r) : s.matching r = none := by
  simp only [State.matching, List.find?_eq_none]
  rintro ⟨p, e⟩ hm
  have := h p e (Engine.mem_entries.mp hm)
  simp only [Request.sameAs] at this
  simp only [DelayedEntry.matches, Bool.and_eq_true, beq_iff_eq]
  tauto

/-- R24, R55: the one entry that has the request's key matches. -/
theorem matching_eq_some {s : State} {r : Request} {p : Fin 4} {e : DelayedEntry} (hl : s.tableLaw)
    (hp : s.engine.table[p] = some e) (h : r.sameAs e) : s.matching r = some (p, e) := by
  have hm : (s.matching r).isSome = true := by
    simp only [State.matching, List.find?_isSome]
    refine ⟨(p, e), Engine.mem_entries.mpr hp, ?_⟩
    simp only [DelayedEntry.matches, Bool.and_eq_true, beq_iff_eq]
    simp only [Request.sameAs] at h
    tauto
  obtain ⟨⟨q, f⟩, hq⟩ := Option.isSome_iff_exists.mp hm
  have hf := Engine.mem_entries.mp (List.mem_of_find?_eq_some hq)
  have hk := List.find?_some hq
  simp only [DelayedEntry.matches, Bool.and_eq_true, beq_iff_eq] at hk
  by_cases hpq : p = q
  · subst hpq
    rw [hp] at hf
    cases hf
    exact hq
  · simp only [Request.sameAs] at h
    refine absurd ?_ (hl.1 p q e f hp hf hpq)
    simp_all

/-- R55: the lowest free place is the one taken. -/
theorem freePlace_eq_some {g : Engine} {p : Fin 4} (h : g.table[p] = none)
    (hl : ∀ q : Fin 4, q < p → g.table[q].isSome = true) : g.freePlace = some p := by
  simp only [Engine.freePlace]
  rw [List.find?_eq_some_iff_append]
  refine ⟨by simp only [h]; rfl, (List.finRange 4).take p, (List.finRange 4).drop (p + 1), ?_, ?_⟩
  · fin_cases p <;> rfl
  · intro q hq
    have hlt : q < p := by
      fin_cases p <;> simp [List.finRange] at hq <;> fin_cases q <;> simp_all
    obtain ⟨e, he⟩ := Option.isSome_iff_exists.mp (hl q hlt)
    rw [he]
    rfl

theorem freePlace_eq_none {g : Engine} (h : ∀ p : Fin 4, g.table[p].isSome = true) : g.freePlace = none := by
  simp only [Engine.freePlace, List.find?_eq_none]
  intro q _
  obtain ⟨e, he⟩ := Option.isSome_iff_exists.mp (h q)
  rw [he]
  simp

theorem refusesWrite_of_writable {s : State} {l : Nat} (h : s.writable l) : s.refusesWrite l = false := by
  obtain ⟨h1, h2, h3⟩ := h
  simp [State.refusesWrite, h1, h2, h3]

theorem refusesWrite_of_not_writable {s : State} {l : Nat} (h : ¬ s.writable l) : s.refusesWrite l = true := by
  by_contra hc
  apply h
  simp only [State.refusesWrite, Bool.or_eq_true, beq_iff_eq, not_or, Bool.not_eq_true] at hc
  exact ⟨hc.1.1, hc.1.2, hc.2⟩

theorem inSet_eq (j : Journal) (l : Nat) : j.inSet l = decide (l ∈ j.lineSet.map (·.1)) := by
  rw [Bool.eq_iff_iff]
  simp [Journal.inSet]

/-- R27, R88: the reservation kind of an accepted guarded write. -/
theorem reservationFor_eq_some {s : State} {l : Nat} {k : ReservationKind} (h : s.reserves l k) :
    s.reservationFor l = some k := by
  simp only [State.reservationFor, inSet_eq]
  cases k <;> simp only [State.reserves] at h
  · simp only [h, decide_true, if_true]
  · rw [if_neg (by simp only [h.1]; simp), if_pos (by simp only [Journal.capacity]; exact h.2.1),
      if_pos (by simp only [Config.lineSetSize]; exact h.2.2)]
  · rw [if_neg (by simp only [h.1]; simp), if_pos (by simp only [Journal.capacity]; exact h.2.1),
      if_neg (by simp only [Config.lineSetSize]; omega)]

/-- R27: no reservation can be made. -/
theorem reservationFor_eq_none {s : State} {l : Nat} (h : ∀ k, ¬ s.reserves l k) : s.reservationFor l = none := by
  have h1 := h .none
  have h2 := h .listed
  have h3 := h .own
  simp only [State.reserves] at h1 h2 h3
  simp only [State.reservationFor, inSet_eq]
  rw [if_neg (by simp only [h1]; simp), if_neg]
  simp only [Journal.capacity]
  intro hc
  by_cases hl : s.journal.lineSet.length < 128
  · exact h2 ⟨h1, hc, hl⟩
  · exact h3 ⟨h1, hc, by omega⟩

/-- R22, R23: the answer that handles a request, from its bus fields. -/
theorem handled_eq (kind : RequestKind) (i : BitVec 2) (addr : BitVec 26) (ucount : BitVec 6) (data : Line) :
    (requestAt kind i addr ucount data).handled = handledAnswer addr ucount := by
  have : ∀ n : Nat, (if decide (64 < addr.toNat % 64 + n) = true then
      Answer.short (BitVec.ofNat 6 (if 64 < addr.toNat % 64 + n then 64 - addr.toNat % 64 else n)) else .done) =
      if addr.toNat % 64 + n ≤ 64 then .done else .short (BitVec.ofNat 6 (64 - addr.toNat % 64)) := by
    intro n
    by_cases h : 64 < addr.toNat % 64 + n
    · have h' : ¬ addr.toNat % 64 + n ≤ 64 := by omega
      simp only [h, h', decide_true, if_true, if_false]
    · have h' : addr.toNat % 64 + n ≤ 64 := by omega
      simp only [h, h', decide_false, Bool.false_eq_true, if_true, if_false]
  exact this _

namespace State

/-- R26: a presentation that reaches step 7. -/
theorem decideWrite_of_admits {s : State} {r : Request} {k : ReservationKind} (h : s.admits r k) :
    s.decideWrite r = s.roomWrite r { s.classify r.line with reservation := k } := by
  obtain ⟨⟨h1, h2, h3, h4, h5, h6⟩, h⟩ := h
  have step : s.decideWrite r = s.guardWrite r := by
    simp [decideWrite, h1, matching_eq_none h2, classifyWrite, refusesWrite_of_writable h3, h4, h5, h6]
  rw [step]
  rcases h with ⟨hg, rfl⟩ | ⟨hg, hj, hk⟩
  · have hg' : (s.classify r.line).guarded = false := hg
    have same : ({ s.classify r.line with reservation := .none } : Classification) = s.classify r.line := rfl
    rw [same]
    simp only [guardWrite, hg', Bool.not_false, if_true]
  · have hg' : (s.classify r.line).guarded = true := hg
    simp only [guardWrite, hg', hj, reservationFor_eq_some hk, Bool.not_true, Bool.false_eq_true, if_false]

/-- A stricter condition that a member fails counts fewer. -/
theorem countP_lt_of_mem {α : Type} {p q : α → Bool} {l : List α} {a : α} (h : ∀ x, p x = true → q x = true) (ha : a ∈ l)
    (hq : q a = true) (hp : p a = false) : l.countP p < l.countP q := by
  induction l with
  | nil => cases ha
  | cons x l ih =>
    have hle : l.countP p ≤ l.countP q := List.countP_mono_left fun y _ => h y
    simp only [List.countP_cons]
    rcases List.mem_cons.mp ha with rfl | ha
    · simp only [hq, hp, Bool.false_eq_true, if_true, if_false]; omega
    · have := ih ha
      have hx := h x
      by_cases h1 : p x = true
      · simp only [h1, hx h1, if_true]; omega
      · rw [if_neg h1]; split <;> omega

/-- R57: a read entry of the line stands behind those before it. -/
theorem readsBefore_lt {g : Engine} {line : Nat} {p : Fin 4} {e : DelayedEntry} (he : g.table[p] = some e)
    (hk : e.readsLine line = true) : g.readsBefore line e.body.pos < g.readsOf line :=
  countP_lt_of_mem (a := (p, e)) (by simp_all) (Engine.mem_entries.mpr he) hk (by simp)

/-- R57: the moved entries keep their order. -/
theorem readsBefore_lt_readsBefore {g : Engine} {line n : Nat} {p : Fin 4} {e : DelayedEntry} (he : g.table[p] = some e)
    (hk : e.readsLine line = true) (hn : e.body.pos < n) : g.readsBefore line e.body.pos < g.readsBefore line n :=
  countP_lt_of_mem (a := (p, e)) (fun x hx => by
      obtain ⟨h1, h2⟩ := Bool.and_eq_true_iff.mp hx
      have h2' := of_decide_eq_true h2
      exact Bool.and_eq_true_iff.mpr ⟨h1, decide_eq_true (Nat.lt_trans h2' hn)⟩) (Engine.mem_entries.mpr he)
    (by simp [hk, hn]) (by simp)

theorem refresh_table (g : Engine) (line first : Nat) {p : Fin 4} {e : DelayedEntry} (he : g.table[p] = some e) :
    (g.refresh line first).table[p] = some (g.refreshEntry line first e) := by
  have he' : g.table[p.val] = some e := he
  simp [Engine.refresh, he']

theorem refreshEntry_pos (g : Engine) {line first : Nat} {e : DelayedEntry} (hk : e.readsLine line = true) :
    (g.refreshEntry line first e).body.pos = first + g.readsBefore line e.body.pos := by
  simp only [Engine.refreshEntry, hk, if_true]

/-- R29, R57, R65: the freshness actions. -/
theorem refresh_freshened (s : State) (line first : Nat) (hf : s.nextPos < first) :
    s.freshened line (s.engine.refresh line first) (first + s.engine.readsOf line) := by
  refine ⟨?_, rfl, ?_, ?_, ?_, rfl, rfl, rfl⟩
  · intro i
    have : (s.engine.refresh line first).slots[i] = (s.engine.slots[i]).refresh line := by simp [Engine.refresh]
    rw [this]
    refine ⟨?_, ?_, ?_⟩
    · intro d o a h
      rw [h]
      simp [Slot.refresh]
    · intro st o h
      rw [h]
      simp [Slot.refresh]
    · intro h
      cases hs : s.engine.slots[i] <;> rw [hs] at h <;> simp_all [Slot.refresh, Slot.holds]
  · intro p e he
    rw [refresh_table _ _ _ he]
    by_cases hk : e.kind = .read ∧ e.body.line = line
    · have hk' : e.readsLine line = true := by simpa [DelayedEntry.readsLine] using hk
      rw [if_pos hk]
      refine ⟨first + s.engine.readsBefore line e.body.pos, Nat.lt_of_lt_of_le hf (Nat.le_add_right _ _),
        Nat.add_lt_add_left (readsBefore_lt he hk') _, ?_, ?_⟩
      · intro hn
        simp only [Engine.refreshEntry, hk', if_true, DelayedEntry.restart]
        cases hst : e.state <;> simp_all
      · intro r hr
        simp only [Engine.refreshEntry, hk', if_true, DelayedEntry.restart, hr]
    · have hk' : e.readsLine line = false := by
        rw [← Bool.not_eq_true]
        simpa [DelayedEntry.readsLine] using hk
      rw [if_neg hk]
      simp only [Engine.refreshEntry, hk', Bool.false_eq_true, if_false]
  · intro p hp
    have hp' : s.engine.table[p.val] = none := hp
    simp [Engine.refresh, hp']
  · intro p q e f e' f' he hf' hek hfk hel hfl hlt he' hf''
    have hk : e.readsLine line = true := by simp [DelayedEntry.readsLine, hek, hel]
    have hk' : f.readsLine line = true := by simp [DelayedEntry.readsLine, hfk, hfl]
    rw [refresh_table _ _ _ he, Option.some.injEq] at he'
    rw [refresh_table _ _ _ hf', Option.some.injEq] at hf''
    rw [← he', ← hf'', refreshEntry_pos _ hk, refreshEntry_pos _ hk']
    exact Nat.add_lt_add_left (readsBefore_lt_readsBefore he hk hlt) _

theorem busyPort_congr {s t : State} (h : s.busyPort) (h1 : t.port = s.port) (h2 : t.drain = s.drain) : t.busyPort := by
  simpa [busyPort, h1, h2] using h

end State

end Sys2Proof.Machine
end

