-- ==== Sys2Proof/Laws/Reservations.lean ====
section
/-! SUPPORT. The reservations R (R87): how they are counted, and what the acceptance of a write and the completion of a record
do to them. -/

namespace Sys2Proof.Machine

theorem Engine.countP_table (g : Engine) (f : DelayedEntry → Bool) :
    g.table.toList.countP (fun x => x.any f) = g.entries.countP (fun x => f x.2) := by
  have h : g.table.toList = (List.finRange 4).map (fun p => g.table[p]) := by
    apply List.ext_getElem
    · simp
    · intro i h1 h2; simp
  rw [h, Engine.entries, List.countP_map, List.countP_filterMap]
  congr 1
  funext p
  simp only [Function.comp]
  cases g.table[p] <;> rfl

/-- R57, R65: a count that does not look at positions and at a read entry's progress stays in the freshness actions. -/
theorem Engine.countP_refresh (g : Engine) (line first : Nat) (f : DelayedEntry → Bool)
    (hf : ∀ e, f (g.refreshEntry line first e) = f e) :
    (g.refresh line first).entries.countP (fun x => f x.2) = g.entries.countP (fun x => f x.2) := by
  have h : (g.refresh line first).table.toList = g.table.toList.map (fun x => x.map (g.refreshEntry line first)) := by
    apply List.ext_getElem
    · simp
    · intro i h1 h2; simp [Engine.refresh]
  rw [← countP_table, ← countP_table, h, List.countP_map]
  congr 1
  funext x
  cases x <;> simp [hf]

/-- R87: an entry whose reservation of kind OWN counts. -/
def DelayedEntry.holdsOwn (e : DelayedEntry) : Bool := e.isPendingWrite && e.body.holdsOwn

/-- R86, R92: the mark of a line becomes RECORDED: one RESERVED entry fewer where the line was RESERVED, and nothing else where it
was not in the set. -/
theorem countP_record (l : List (Nat × Mark)) (x : Nat) (hn : (l.map (·.1)).Nodup) :
    let l' := l.map fun e => if e.1 = x then (e.1, Mark.recorded) else e
    ((x, Mark.reserved) ∈ l → l'.countP (fun e => e.2 == .reserved) + 1 = l.countP (fun e => e.2 == .reserved)) ∧
      (x ∉ l.map (·.1) → l' = l) := by
  induction l with
  | nil => simp
  | cons a l ih =>
    simp only [List.map_cons, List.nodup_cons] at hn
    obtain ⟨h1, h2⟩ := ih hn.2
    constructor
    · intro hm
      rcases List.mem_cons.mp hm with rfl | hm
      · have := h2 hn.1
        simp [this]
      · have hne : a.1 ≠ x := by
          rintro rfl
          exact hn.1 (List.mem_map.mpr ⟨_, hm, rfl⟩)
        have := h1 hm
        simp only [List.map_cons, List.countP_cons, if_neg hne]
        omega
    · intro hm
      simp only [List.map_cons, List.mem_cons, not_or] at hm
      simp [Ne.symm hm.1, h2 hm.2]

/-- An entry replaced by one that counts as it did. -/
theorem countP_set_of_eq {f : DelayedEntry → Bool} (v : Vector (Option DelayedEntry) 4) (p : Fin 4) (a : Option DelayedEntry)
    (h : v[p].any f = a.any f) : (v.set p a).toList.countP (fun x => x.any f) = v.toList.countP (fun x => x.any f) := by
  have h' : Option.any f v.toList[p.val] = a.any f := by simpa using h
  rw [Vector.toList_set, List.countP_set (by simp), h']
  split
  · have : 0 < List.countP (fun x => Option.any f x) v.toList :=
      List.countP_pos_iff.mpr ⟨v.toList[p.val]'(by simp), List.getElem_mem _, by rw [h']; assumption⟩
    omega
  · omega

namespace State

/-- R87: R, part by part. -/
theorem reservations_eq (s : State) : s.reservations = s.journal.lineSet.countP (fun e => e.2 == .reserved) +
    s.queue.countP (fun x => x.body.any Body.holdsOwn) +
    s.engine.entries.countP (fun x => x.2.holdsOwn) + s.removedBody.toList.countP Body.holdsOwn := by
  simp only [reservations, writesInOrder, List.countP_append, List.countP_filterMap, List.countP_map, List.countP_filter,
    Nat.add_assoc]
  have h1 : (fun x : QueueEntry => x.body.any Body.holdsOwn) = fun x => (x.body.map Body.holdsOwn).getD false := by
    funext x; cases x.body <;> rfl
  have h2 : (fun x : Fin 4 × DelayedEntry => x.2.holdsOwn) = fun x => x.2.body.holdsOwn && x.2.isPendingWrite := by
    funext x; simp [DelayedEntry.holdsOwn, Bool.and_comm]
  rw [h1, h2]
  rfl

theorem refreshEntry_holdsOwn (g : Engine) (line first : Nat) (e : DelayedEntry) :
    (g.refreshEntry line first e).holdsOwn = e.holdsOwn := by
  simp only [Engine.refreshEntry]
  split
  · rename_i h
    have : e.kind = .read := by simp_all [DelayedEntry.readsLine]
    have hr : e.restart.kind = .read := by
      simp only [DelayedEntry.restart]
      split <;> exact this
    have hb : (RequestKind.read == RequestKind.write) = false := rfl
    simp [DelayedEntry.holdsOwn, DelayedEntry.isPendingWrite, this, hr, hb]
  · rfl

/-- R87, R88: the reservations after a write was accepted: `own` says how many of the two orders' entries of kind OWN are new. -/
theorem covers_of_parts {s t : State} {r : Request} {k : ReservationKind} (ha : s.admits r k)
    (hj : t.journal = { s.journal with
      lineSet := if k = .listed then s.journal.lineSet ++ [(r.line, .reserved)] else s.journal.lineSet })
    (hd : t.drain = s.drain)
    (hw : t.queue.countP (fun x => x.body.any Body.holdsOwn) + t.engine.entries.countP (fun x => x.2.holdsOwn) =
      s.queue.countP (fun x => x.body.any Body.holdsOwn) + s.engine.entries.countP (fun x => x.2.holdsOwn) +
        if k = .own then 1 else 0) : s.covers t k := by
  have hrm : t.removedBody = s.removedBody := by simp only [removedBody, hd]
  have hl : t.journal.lineSet.countP (fun e => e.2 == .reserved) =
      s.journal.lineSet.countP (fun e => e.2 == .reserved) + if k = .listed then 1 else 0 := by
    rw [hj]; cases k <;> simp
  have hc : k ≠ .none → s.journal.written + s.reservations < (64 * s.journal.sizePages - 1) / 2 := by
    intro hk
    rcases ha.2 with ⟨-, h⟩ | ⟨-, -, h⟩
    · exact absurd h hk
    · cases k
      · exact absurd rfl hk
      · exact h.2.1
      · exact h.2.1
  have e : t.journal.written + t.reservations = s.journal.written + s.reservations + (if k = .none then 0 else 1) := by
    rw [reservations_eq, reservations_eq, hrm, hl]
    have hw' : t.journal.written = s.journal.written := by rw [hj]
    cases k <;> simp at hw ⊢ <;> omega
  refine ⟨e, fun hk => ?_⟩
  have := hc hk
  have hs : t.journal.sizePages = s.journal.sizePages := by rw [hj]
  rw [e, if_neg hk, hs]
  omega

end State

end Sys2Proof.Machine
end

