-- ==== Sys2Proof/Laws/WriteOrder.lean ====
section
/-! SUPPORT. The write order (R38, R52): which writes stand in it, when a read entry is ready (R58), which item its head is, and
how many reservations its writes hold (R87). -/

namespace Sys2Proof.Machine

theorem isPendingWrite_iff {e : DelayedEntry} :
    e.isPendingWrite = true ↔ e.kind = .write ∧ (e.state = .waiting ∨ e.state = .issued) := by
  cases hk : e.kind <;> cases hs : e.state <;> simp [DelayedEntry.isPendingWrite, hk, hs]

/-- What `oldest` names is not later than any other. -/
theorem oldest_le {α : Type} {l : List (α × Nat)} {x y : α × Nat} (h : oldest l = some x) (hy : y ∈ l) : x.2 ≤ y.2 := by
  induction l generalizing x with
  | nil => cases hy
  | cons a l ih =>
    simp only [oldest] at h
    cases ho : oldest l with
    | none =>
      rw [ho] at h
      cases h
      rcases List.mem_cons.mp hy with rfl | hy
      · exact le_refl _
      · rw [oldest_eq_none ho] at hy; cases hy
    | some z =>
      rw [ho] at h
      simp only at h
      split at h <;> cases h <;> rcases List.mem_cons.mp hy with rfl | hy
      · omega
      · exact ih ho hy
      · exact le_refl _
      · have := ih ho hy; omega

namespace State

theorem delays_iff {s : State} {p : Fin 4} {e : DelayedEntry} :
    s.delays p e ↔ s.engine.table[p] = some e ∧ e.isPendingWrite = true := by
  rw [isPendingWrite_iff]; rfl

theorem removedBody_eq_some {s : State} {b : Body} : s.removedBody = some b ↔ ∃ d, s.drain = some d ∧ d.item = .removed b := by
  simp only [removedBody]
  split <;> simp_all

/-- R38, R52: the writes of the model's write order are those that stand in it. -/
theorem mem_writesInOrder {s : State} {b : Body} : b ∈ s.writesInOrder ↔ s.writeStands b := by
  simp only [writesInOrder, List.mem_append, or_assoc, writeStands]
  refine or_congr ?_ (or_congr ?_ ?_)
  · simp only [List.mem_filterMap]
    constructor
    · rintro ⟨x, hx, hb⟩
      cases x <;> simp only [QueueEntry.body, Option.some.injEq, reduceCtorEq] at hb
      subst hb; exact hx
    · exact fun h => ⟨_, h, rfl⟩
  · simp only [List.mem_map, List.mem_filter]
    constructor
    · rintro ⟨⟨p, e⟩, ⟨hm, hp⟩, rfl⟩
      exact ⟨p, e, delays_iff.mpr ⟨Engine.mem_entries.mp hm, hp⟩, rfl⟩
    · rintro ⟨p, e, h, rfl⟩
      obtain ⟨h1, h2⟩ := delays_iff.mp h
      exact ⟨(p, e), ⟨Engine.mem_entries.mpr h1, h2⟩, rfl⟩
  · rw [Option.mem_toList, removedBody_eq_some]

/-- R58: a read entry is ready where no write to its line stands before it. -/
theorem isReady_iff {s : State} {b : Body} : s.isReady b = true ↔ s.noWriteBefore b := by
  simp only [isReady, List.all_eq_true, mem_writesInOrder, noWriteBefore]
  refine forall_congr' fun w => forall_congr' fun _ => ?_
  by_cases h : w.line = b.line <;> simp [h]

/-! ### The head -/

/-- R38: the head of the write order stands at a position, and every other item at a greater one. -/
theorem headItem_oldest {s : State} {item : DrainItem} (ho : s.orderLaw) (h : s.headItem = some item) :
    ∃ n, s.standsAt n item ∧ n < s.nextPos ∧
      (∀ x ∈ s.queue, n < x.pos ∨ (x.pos = n ∧ (item = .postedWrite ∨ item = .closeMarker))) ∧
      ∀ p e, s.delays p e → n < e.body.pos ∨ item = .delayedWrite p := by
  obtain ⟨h1, h2, h3, h4⟩ := ho
  have none_delays : s.oldestDelayedWrite = none → ∀ p e, ¬ s.delays p e := by
    intro hn p e hd
    have h1 := oldest_eq_none hn
    simp only [List.map_eq_nil_iff, List.filter_eq_nil_iff] at h1
    obtain ⟨ht, hp⟩ := delays_iff.mp hd
    exact h1 (p, e) (Engine.mem_entries.mpr ht) hp
  have some_delays : ∀ p n, s.oldestDelayedWrite = some (p, n) → (∃ e, s.delays p e ∧ e.body.pos = n) ∧
      ∀ q f, s.delays q f → n < f.body.pos ∨ p = q := by
    intro p n hn
    obtain ⟨e, he, hp, rfl⟩ := oldestDelayedWrite_pending hn
    refine ⟨⟨e, delays_iff.mpr ⟨he, hp⟩, rfl⟩, fun q f hf => ?_⟩
    obtain ⟨hq, hqp⟩ := delays_iff.mp hf
    have : e.body.pos ≤ f.body.pos := oldest_le (y := (q, f.body.pos)) hn
      (List.mem_map.mpr ⟨(q, f), List.mem_filter.mpr ⟨Engine.mem_entries.mpr hq, hqp⟩, rfl⟩)
    by_cases hpq : p = q
    · exact .inr hpq
    · have := h4 p q e f he hq hpq
      omega
  have head_first : ∀ x rest, s.queue = x :: rest → ∀ y ∈ s.queue, x.pos < y.pos ∨ y.pos = x.pos := by
    intro x rest hq y hy
    rw [hq] at hy h1
    simp only [List.map_cons, List.pairwise_cons, List.mem_map, forall_exists_index, and_imp, forall_apply_eq_imp_iff₂] at h1
    rcases List.mem_cons.mp hy with rfl | hy
    · exact .inr rfl
    · exact .inl (h1.1 _ hy)
  have before : ∀ p n x rest, s.queue = x :: rest → s.oldestDelayedWrite = some (p, n) → n < x.pos →
      ∃ m, s.standsAt m (.delayedWrite p) ∧ m < s.nextPos ∧
      (∀ y ∈ s.queue, m < y.pos ∨ (y.pos = m ∧ (DrainItem.delayedWrite p = .postedWrite ∨ DrainItem.delayedWrite p = .closeMarker))) ∧
      ∀ q e, s.delays q e → m < e.body.pos ∨ DrainItem.delayedWrite p = .delayedWrite q := by
    intro p n x rest hq hn hlt
    obtain ⟨⟨e, he, rfl⟩, h6⟩ := some_delays p n hn
    refine ⟨_, ⟨e, he, rfl⟩, (h3 p e he.1).1, fun y hy => .inl ?_, fun q f hf => ?_⟩
    · have := head_first x rest hq y hy; omega
    · rcases h6 q f hf with h | rfl
      · exact .inl h
      · exact .inr rfl
  have after : ∀ p n x rest, s.queue = x :: rest → s.oldestDelayedWrite = some (p, n) → ¬ n < x.pos →
      ∀ q e, s.delays q e → x.pos < e.body.pos := by
    intro p n x rest hq hn hlt q f hf
    obtain ⟨-, h6⟩ := some_delays p n hn
    have hne := (h3 q f hf.1).2 x (by rw [hq]; simp)
    have : n ≤ f.body.pos := oldest_le (y := (q, f.body.pos)) hn
      (List.mem_map.mpr ⟨(q, f), List.mem_filter.mpr ⟨Engine.mem_entries.mpr hf.1, (delays_iff.mp hf).2⟩, rfl⟩)
    omega
  simp only [headItem] at h
  split at h
  · cases h
  · rename_i p n hq hn
    cases h
    obtain ⟨⟨e, he, rfl⟩, h6⟩ := some_delays p n hn
    refine ⟨_, ⟨e, he, rfl⟩, (h3 p e he.1).1, fun y hy => absurd hy (by rw [hq]; simp), fun q f hf => ?_⟩
    rcases h6 q f hf with h | rfl
    · exact .inl h
    · exact .inr rfl
  · rename_i b rest hq hn
    cases h
    exact ⟨b.pos, ⟨b, rest, hq, rfl⟩, h2 (.write b) (by rw [hq]; simp),
      fun y hy => (head_first _ rest hq y hy).imp id fun h => ⟨h, .inl rfl⟩, fun q f hf => absurd hf (none_delays hn q f)⟩
  · rename_i m rest hq hn
    cases h
    exact ⟨m, ⟨rest, hq⟩, h2 (.marker m) (by rw [hq]; simp),
      fun y hy => (head_first _ rest hq y hy).imp id fun h => ⟨h, .inr rfl⟩, fun q f hf => absurd hf (none_delays hn q f)⟩
  · rename_i b rest p n hq hn
    rw [Option.some.injEq] at h
    split at h
    · cases h; exact before p n _ rest hq hn (by assumption)
    · cases h
      exact ⟨b.pos, ⟨b, rest, hq, rfl⟩, h2 (.write b) (by rw [hq]; simp),
        fun y hy => (head_first _ rest hq y hy).imp id fun h => ⟨h, .inl rfl⟩,
        fun q f hf => .inl (after p n _ rest hq hn (by assumption) q f hf)⟩
  · rename_i m rest p n hq hn
    rw [Option.some.injEq] at h
    split at h
    · cases h; exact before p n _ rest hq hn (by assumption)
    · cases h
      exact ⟨m, ⟨rest, hq⟩, h2 (.marker m) (by rw [hq]; simp),
        fun y hy => (head_first _ rest hq y hy).imp id fun h => ⟨h, .inr rfl⟩,
        fun q f hf => .inl (after p n _ rest hq hn (by assumption) q f hf)⟩

/-! ### Reservations -/

theorem countsOwn_eq : Body.countsOwn = Body.holdsOwn := by
  funext b
  cases h : b.cls.reservation <;> cases hr : b.recorded <;> simp [Body.countsOwn, Body.holdsOwn, h, hr]

/-- R87: R, part by part. -/
theorem held_eq (s : State) : s.held = s.reservations := by
  rw [reservations_eq]
  simp only [held]
  refine congrArg₂ _ (congrArg₂ _ (congrArg₂ _ ?_ ?_) ?_) ?_
  · exact List.countP_congr fun x _ => by simp
  · exact List.countP_congr fun x _ => by cases x <;> simp [QueueEntry.body, QueueEntry.countsOwn, countsOwn_eq]
  · rw [Engine.entries, List.countP_filterMap]
    refine List.countP_congr fun p _ => ?_
    cases s.engine.table[p] with
    | none => simp
    | some e =>
      cases hk : e.kind <;> cases hs : e.state <;>
        simp [DelayedEntry.holdsOwn, DelayedEntry.countsOwn, DelayedEntry.isPendingWrite, hk, hs, countsOwn_eq]
  · simp only [removedBody]
    cases s.drain with
    | none => rfl
    | some d => obtain ⟨_ | _ | _ | b, _, _, _⟩ := d <;> simp [Drain.countsOwn, countsOwn_eq]

end State

end Sys2Proof.Machine
end

