-- ==== Sys2Proof/Laws/Acceptance.lean ====
section
/-! SUPPORT. What an event leaves of an entry or a slot that has just come to stand: the entry of an accepted request, a slot that
a prefetch has filled, and a slot that has been freed or is without an owner. -/

namespace Sys2Proof.Machine.State

/-! ### Entries -/

/-- R36: an entry at the queue's tail that FAILED does not drop stays there. -/
theorem settle_queue_last {s : State} {q : List QueueEntry} {b : Body} (h : s.queue = q ++ [.write b])
    (hb : b.cls.guarded = true → s.journal.state ≠ .failed) : ∃ q', s.settle.queue = q' ++ [.write b] := by
  obtain ⟨gone, hq, hg⟩ := s.settle_dropsFrom
  rw [h] at hq
  rcases List.eq_nil_or_concat s.settle.queue with hn | ⟨q', x, hx⟩
  · rw [hn, List.append_nil] at hq
    obtain ⟨b', hb', h1, h2, -⟩ := hg (.write b) (by rw [← hq]; simp)
    cases hb'
    exact absurd (by simpa using h2) (hb h1)
  · rw [hx, List.concat_eq_append] at hq ⊢
    rw [← List.append_assoc] at hq
    obtain ⟨-, hx'⟩ := List.append_inj' hq rfl
    cases hx'
    exact ⟨q', rfl⟩

/-- R28, R60: a WAITING write entry that FAILED does not drop stays WAITING, or its drain begins and it becomes ISSUED. -/
theorem settle_table_of_write {s : State} {p : Fin 4} {e : DelayedEntry} (he : s.engine.table[p] = some e)
    (hk : e.kind = .write) (hb : e.body.cls.guarded = true → s.journal.state ≠ .failed) :
    s.settle.engine.table[p] = some e ∨ (s.settle.engine.table[p] = some { e with state := .issued } ∧
      ∃ d, s.settle.drain = some d ∧ d.item = .delayedWrite p) := by
  cases hd : s.drain with
  | none =>
    rcases settle_writeGoesOn hd he hk with h | h | ⟨-, -, h1, h2, -⟩
    · exact .inl h
    · exact .inr h
    · exact absurd (by simpa using h2) (hb h1)
  | some d =>
    refine .inl ?_
    rw [settle, beginDrains_of_not_mayBegin _ _ (mayBegin_eq_false_of_drain hd)]
    exact (arbitrate_table he).1 (by simp [hk])

/-- R62: a WAITING read entry stays WAITING, or its demand fill is granted: ISSUED, with its slot FILLING. -/
theorem settle_table_of_waiting {s : State} {p : Fin 4} {e : DelayedEntry} (he : s.engine.table[p] = some e)
    (hk : e.kind = .read) :
    s.settle.engine.table[p] = some e ∨ ∃ j : Fin 8, s.settle.engine.table[p] = some { e with state := .issued, slot := some j } ∧
      s.settle.engine.slots[j] = .filling e.body.line false (some p) ∧
      s.settle.justIssued .lineRead e.body.line .demandFill (some (.read, e.body.cls.region.castSucc)) := by
  have he' := beginDrains_table longestOrder he (by simp [DelayedEntry.isPendingWrite, hk])
  rw [settle]
  generalize State.beginDrains longestOrder s = u at he'
  have same : ∀ t : State, t.engine.table = u.engine.table → t.engine.table[p] = some e := fun t h => by rw [h]; exact he'
  cases h1 : (u.port.op.isSome || u.supply.state == .fail) with
  | true => exact .inl (same _ (by simp [arbitrate, h1]))
  | false =>
    cases h2 : u.procedureOp with
    | some op => exact .inl (same _ (by simp [arbitrate, h1, h2]))
    | none =>
      cases h3 : u.writeTurn with
      | true =>
        exact .inl (same _ (by cases ho : u.writeOffer <;> simp [arbitrate, h1, h2, h3, grantOffer, ho, grantWrite, issue, grantedTo]))
      | false =>
        cases h4 : u.oldestReadyRead (fun _ => true) with
        | some q =>
          obtain ⟨f, hq, -⟩ := oldestReadyRead_waiting h4
          have hg : u.arbitrate = u.grantDemand q := by simp [arbitrate, h1, h2, h3, takeRead, h4]
          rw [hg]
          cases h5 : u.engine.slotToTake with
          | none => exact .inl (same _ (by simp [grantDemand, hq, h5]))
          | some i =>
            have ht : (u.grantDemand q).engine.table = u.engine.table.set q (some { f with state := .issued, slot := some i }) := by
              simp only [grantDemand, hq, h5]
              rfl
            have hs : (u.grantDemand q).engine.slots = u.engine.slots.set i (.filling f.body.line false (some q)) := by
              simp only [grantDemand, hq, h5]
              rfl
            by_cases hqp : q = p
            · subst hqp
              rw [he'] at hq
              cases hq
              refine .inr ⟨i, by rw [ht]; simp, by rw [hs]; simp, ?_⟩
              simp only [grantDemand, he', h5]
              exact ⟨_, rfl, rfl, rfl, rfl, rfl, rfl, rfl, rfl, rfl, fun _ hx => by cases hx; rfl⟩
            · refine .inl ?_
              rw [ht]
              simpa [Vector.getElem_set_ne, Fin.val_ne_of_ne hqp] using he'
        | none =>
          refine .inl (same _ ?_)
          simp only [arbitrate, h1, h2, h3, takeRead, h4, takePrefetch, Bool.false_eq_true, if_false]
          split
          · simp only [grantPrefetch]
            split <;> rfl
          · cases u.writeOffer <;> rfl

/-- R62: a read entry stays, or, being WAITING, becomes ISSUED with its slot FILLING. -/
theorem settle_table_of_reader {s : State} {p : Fin 4} {e : DelayedEntry} (he : s.engine.table[p] = some e)
    (hk : e.kind = .read) : s.settle.engine.table[p] = some e ∨ (e.state = .waiting ∧ ∃ j : Fin 8,
      s.settle.engine.table[p] = some { e with state := .issued, slot := some j } ∧
        s.settle.engine.slots[j] = .filling e.body.line false (some p)) := by
  by_cases hw : e.state = .waiting
  · rcases settle_table_of_waiting he hk with h | ⟨j, h1, h2, -⟩
    · exact .inl h
    · exact .inr ⟨hw, j, h1, h2⟩
  · exact .inl (settle_table he (by simp [DelayedEntry.isPendingWrite, hk]) (by simp [hw]))

/-- R60, R61: a delayed write goes on as the write order does, whether a drain is in progress or not. -/
theorem settle_table_of_writer {s : State} {p : Fin 4} {e : DelayedEntry} (he : s.engine.table[p] = some e)
    (hk : e.kind = .write) : s.settle.writeGoesOn p e := by
  cases hd : s.drain with
  | none => exact settle_writeGoesOn hd he hk
  | some d =>
    refine .inl ?_
    rw [settle, beginDrains_of_not_mayBegin _ _ (mayBegin_eq_false_of_drain hd)]
    exact (arbitrate_table he).1 (by simp [hk])

/-! ### Slots -/

/-- The arbiter takes at most the slot that `slotToTake` names, for a fill that it issues. -/
theorem arbitrate_slots_cases (s : State) : s.arbitrate.engine.slots = s.engine.slots ∨
    ∃ i l o, s.engine.slotToTake = some i ∧ s.arbitrate.engine.slots = s.engine.slots.set i (.filling l false o) ∧
      s.arbitrate.fillIssued l o := by
  cases h1 : (s.port.op.isSome || s.supply.state == .fail) with
  | true => exact .inl (by simp [arbitrate, h1])
  | false =>
    cases h2 : s.procedureOp with
    | some op => exact .inl (by simp [arbitrate, h1, h2])
    | none =>
      cases h3 : s.writeTurn with
      | true =>
        exact .inl (by cases ho : s.writeOffer <;> simp [arbitrate, h1, h2, h3, grantOffer, ho, grantWrite, issue, grantedTo])
      | false =>
        cases h4 : s.oldestReadyRead (fun _ => true) with
        | some q =>
          obtain ⟨f, hq, -⟩ := oldestReadyRead_waiting h4
          have hg : s.arbitrate = s.grantDemand q := by simp [arbitrate, h1, h2, h3, takeRead, h4]
          rw [hg]
          cases h5 : s.engine.slotToTake with
          | none => exact .inl (by simp [grantDemand, hq, h5])
          | some i =>
            refine .inr ⟨i, f.body.line, some q, rfl, ?_⟩
            have ht : (s.grantDemand q).engine.table[q] = some { f with state := .issued, slot := some i } := by
              simp [grantDemand, hq, h5]
            refine ⟨by simp only [grantDemand, hq, h5]; rfl, _, ht, rfl, ?_⟩
            simp only [grantDemand, hq, h5]
            exact ⟨_, rfl, rfl, rfl, rfl, rfl, rfl, rfl, rfl, rfl, fun _ hx => by cases hx; rfl⟩
        | none =>
          simp only [arbitrate, h1, h2, h3, takeRead, h4, takePrefetch, Bool.false_eq_true, if_false]
          cases s.engine.prefetchLeft with
          | nil => exact .inl (by cases s.writeOffer <;> rfl)
          | cons l rest =>
            simp only [grantPrefetch]
            cases h5 : s.engine.slotToTake with
            | none =>
              refine .inl ?_
              have : (s.setEngine { s.engine with prefetch := rest }).engine.slotToTake = none := h5
              simp only [this]
              rfl
            | some i =>
              refine .inr ⟨i, l, none, rfl, ?_⟩
              have : (s.setEngine { s.engine with prefetch := rest }).engine.slotToTake = some i := h5
              simp only [this]
              exact ⟨rfl, _, rfl, rfl, rfl, rfl, rfl, rfl, rfl, rfl, rfl, fun _ hx => by cases hx⟩

/-- R62, R72: what follows an event gives a slot the next fill, or leaves it. -/
theorem settle_slot_cases (s : State) (i : Fin 8) : s.settle.engine.slots[i] = s.engine.slots[i] ∨
    ∃ l o, s.settle.engine.slots[i] = .filling l false o ∧ s.settle.fillIssued l o := by
  have hb := (beginDrains_slots longestOrder s).1
  rw [settle]
  rcases arbitrate_slots_cases (State.beginDrains longestOrder s) with hs | ⟨k, l, o, -, hs, hw⟩
  · exact .inl (by rw [hs, hb])
  · by_cases hik : k = i
    · subst hik
      exact .inr ⟨l, o, by rw [hs]; simp, hw⟩
    · exact .inl (by rw [hs]; simp [Vector.getElem_set_ne, Fin.val_ne_of_ne hik, hb])

/-- R63: no age is given but by a fill's end. -/
@[simp] theorem settle_nextAge (s : State) : s.settle.engine.nextAge = s.engine.nextAge := by
  rw [← (beginDrains_slots longestOrder s).2.2, settle]
  generalize State.beginDrains longestOrder s = u
  simp only [arbitrate]
  split
  · rfl
  · split
    · rfl
    · split
      · cases u.writeOffer <;> rfl
      · simp only [takeRead]
        split
        · simp only [grantDemand]
          split <;> rfl
        · simp only [takePrefetch]
          split
          · simp only [grantPrefetch]
            split <;> rfl
          · cases u.writeOffer <;> rfl

/-- R66, R72: a free slot stays free, or a fill is issued into it. -/
theorem settle_slot_of_free {s : State} {j : Fin 8} (h : s.engine.slots[j] = .free) :
    s.settle.engine.slots[j] = .free ∨
      ∃ l o, s.settle.engine.slots[j] = .filling l false o ∧ s.settle.fillIssued l o := h ▸ s.settle_slot_cases j

/-- R69: no fill takes a VALID slot while another slot is free, or unowned and older. -/
theorem slotToTake_ne {g : Engine} {j : Fin 8} {l : Nat} {d : Line} {o : Option (Fin 4)} {age : Nat}
    (hj : g.slots[j] = .valid l d o age)
    (hroom : ∃ i : Fin 8, g.slots[i] = .free ∨ ∃ l' d' a, g.slots[i] = .valid l' d' none a ∧ a < age) :
    g.slotToTake ≠ some j := by
  intro h
  simp only [Engine.slotToTake] at h
  obtain ⟨i, hi⟩ := hroom
  cases hf : (List.finRange 8).find? fun i => g.slots[i] == .free with
  | some k =>
    rw [hf] at h
    cases h
    have := List.find?_some hf
    simp only [beq_iff_eq] at this
    rw [hj] at this
    cases this
  | none =>
    rw [hf] at h
    have hfree : ∀ k : Fin 8, g.slots[k] ≠ .free := fun k hk => by
      have := List.find?_eq_none.mp hf k (List.mem_finRange k)
      simp only [beq_iff_eq] at this
      exact this hk
    rcases hi with hi | ⟨l', d', a, hi, ha⟩
    · exact hfree i hi
    · simp only [Option.map_eq_some_iff] at h
      obtain ⟨⟨k, b⟩, hk, rfl⟩ := h
      have hle := oldest_le hk (y := (i, a)) (by
        simp only [List.mem_filterMap]
        exact ⟨i, List.mem_finRange i, by rw [hi]⟩)
      have hm := oldest_mem hk
      simp only [List.mem_filterMap] at hm
      obtain ⟨k', -, hk'⟩ := hm
      split at hk' <;> simp at hk'
      rename_i hs
      obtain ⟨rfl, rfl⟩ := hk'
      rw [hj] at hs
      cases hs
      simp only at hle
      omega

/-- R69: a VALID slot stays while another slot is free, or unowned and older. -/
theorem settle_slot_of_valid {s : State} {j : Fin 8} {l : Nat} {d : Line} {o : Option (Fin 4)} {age : Nat}
    (hj : s.engine.slots[j] = .valid l d o age)
    (hroom : ∃ i : Fin 8, s.engine.slots[i] = .free ∨ ∃ l' d' a, s.engine.slots[i] = .valid l' d' none a ∧ a < age) :
    s.settle.engine.slots[j] = .valid l d o age := by
  have hb := (beginDrains_slots longestOrder s).1
  rw [settle]
  rcases arbitrate_slots_cases (State.beginDrains longestOrder s) with hs | ⟨i, l', o', hi, hs, -⟩
  · rw [hs, hb]; exact hj
  · have hne : i ≠ j := by
      rintro rfl
      exact slotToTake_ne (by rw [hb]; exact hj) (by rw [hb]; exact hroom) hi
    rw [hs]
    simpa [Vector.getElem_set_ne, Fin.val_ne_of_ne hne, hb] using hj

/-! ### Adoption -/

/-- R64: the adopter of a slot of the line is the entry that `oldestReadyRead` names. -/
theorem oldestReadyRead_of_adopter {s : State} {line : Nat} {q : Fin 4} {f : DelayedEntry} (h : s.adopter line q f) :
    s.oldestReadyRead (fun l => l == line) = some q := by
  obtain ⟨⟨hf, hk, hw, hl, hr⟩, hmin⟩ := h
  simp only [oldestReadyRead]
  generalize hL : (s.engine.entries.filterMap fun e =>
    if e.2.kind = .read ∧ e.2.state = .waiting ∧ (e.2.body.line == line) = true ∧ s.isReady e.2.body = true then
      some (e.1, e.2.body.pos) else none) = L
  have hm : (q, f.body.pos) ∈ L := by
    rw [← hL, List.mem_filterMap]
    exact ⟨(q, f), Engine.mem_entries.mpr hf, by simp [hk, hw, hl, isReady_iff.mpr hr]⟩
  cases ho : oldest L with
  | none => rw [oldest_eq_none ho] at hm; cases hm
  | some x =>
    obtain ⟨k, n⟩ := x
    have hle := oldest_le ho hm
    have hx := oldest_mem ho
    rw [← hL, List.mem_filterMap] at hx
    obtain ⟨⟨k', f'⟩, hmem, hk'⟩ := hx
    split at hk'
    · rename_i hc
      simp only [Option.some.injEq, Prod.mk.injEq] at hk'
      obtain ⟨rfl, rfl⟩ := hk'
      by_cases hkq : k' = q
      · rw [hkq]; rfl
      · have := hmin k' f' hkq ⟨Engine.mem_entries.mp hmem, hc.1, hc.2.1, by simpa using hc.2.2.1, isReady_iff.mp hc.2.2.2⟩
        simp only at hle
        omega
    · cases hk'

/-- R64: with no ready WAITING read entry of the line there is none to adopt. -/
theorem oldestReadyRead_eq_none {s : State} {line : Nat} (h : ∀ q f, ¬ s.readyRead line q f) :
    s.oldestReadyRead (fun l => l == line) = none := by
  cases ho : s.oldestReadyRead (fun l => l == line) with
  | none => rfl
  | some q =>
    obtain ⟨f, h1, h2, h3, h4, h5⟩ := oldestReadyRead_waiting ho
    exact absurd ⟨h1, h2, h3, by simpa using h4, isReady_iff.mp h5⟩ (h q f)

/-- R64: a VALID slot without an owner: nothing happens, or its adopter takes it. -/
theorem adopt_of_unowned {s : State} {i : Fin 8} {line : Nat} {d : Line} {age : Nat}
    (hi : s.engine.slots[i] = .valid line d none age) :
    ((∀ q f, ¬ s.readyRead line q f) → s.adopt i = s) ∧
      ∀ q f, s.adopter line q f → s.adopt i = { s with
        engine := { s.engine with
          table := s.engine.table.set q (some { f with
            state := .complete .ok, slot := some i, timer := some (s.engine.claimTimeout.toNat * 16) })
          slots := s.engine.slots.set i (.valid line d (some q) age) }
        faults := (s.report f.body.cls.region .clean).faults } := by
  refine ⟨fun h => by simp only [adopt, hi, oldestReadyRead_eq_none h], fun q f h => ?_⟩
  have hq : s.engine.table[q] = some f := h.1.1
  simp only [adopt, hi, oldestReadyRead_of_adopter h, hq]
  rw [report_eq, report_faults_congr (s := s) (by simp [completeEntry])]
  rfl

/-- R38, R58: whether a request is ready does not depend on an entry that is no pending write. -/
theorem isReady_of_removed {s t : State} {p : Fin 4} {e : DelayedEntry} (he : s.engine.table[p] = some e)
    (hp : e.isPendingWrite = false) (ht : t.engine.table = s.engine.table.set p none) (hq : t.queue = s.queue)
    (hd : t.drain = s.drain) (b : Body) : t.isReady b = s.isReady b := by
  have hw : (t.engine.entries.filter fun x => x.2.isPendingWrite) = s.engine.entries.filter fun x => x.2.isPendingWrite := by
    simp only [Engine.entries, List.filter_filterMap]
    refine List.filterMap_congr fun q _ => ?_
    by_cases hqp : p = q
    · subst hqp
      have : t.engine.table[p] = none := by rw [ht]; simp
      simp [he, this, hp, Option.filter]
    · have : t.engine.table[q] = s.engine.table[q] := by
        rw [ht]; simp [Vector.getElem_set_ne, Fin.val_ne_of_ne hqp]
      rw [this]
  simp [isReady, writesInOrder, removedBody, hw, hq, hd]

/-- R31, R64, R74: a COMPLETE read entry is removed: its slot becomes unowned, or its adopter takes it. -/
theorem removeEntry_of_read {s : State} {p : Fin 4} {e : DelayedEntry} {j : Fin 8} {line : Nat} {d : Line} {age : Nat}
    (he : s.engine.table[p] = some e) (hk : e.kind = .read) (hc : e.state = .complete .ok) (hs : e.slot = some j)
    (hj : s.engine.slots[j] = .valid line d (some p) age) :
    ((∀ q f, ¬ s.readyRead line q f) → s.removeEntry p e = { s with
      engine := { s.engine with
        table := s.engine.table.set p none, slots := s.engine.slots.set j (.valid line d none age) } }) ∧
      ∀ q f, s.adopter line q f → s.removeEntry p e = { s with
        engine := { s.engine with
          table := (s.engine.table.set p none).set q (some { f with
            state := .complete .ok, slot := some j, timer := some (s.engine.claimTimeout.toNat * 16) })
          slots := s.engine.slots.set j (.valid line d (some q) age) }
        faults := (s.report f.body.cls.region .clean).faults } := by
  set u : State := { s with engine := { s.engine with
    table := s.engine.table.set p none, slots := s.engine.slots.set j (.valid line d none age) } } with hu
  have hr : s.removeEntry p e = u.adopt j := by
    have hj' : (s.setEntry p none).engine.slots[j] = .valid line d (some p) age := hj
    simp only [removeEntry, releaseSlot, hs, hj']
    rfl
  have hn : ∀ q f, u.readyRead line q f ↔ s.readyRead line q f := by
    intro q f
    have hb := isReady_of_removed (t := u) he (by simp [DelayedEntry.isPendingWrite, hk]) rfl rfl rfl
    simp only [readyRead, ← isReady_iff, hb]
    by_cases hqp : p = q
    · subst hqp
      simp only [he, hu]
      constructor
      · rintro ⟨h, -⟩; simp at h
      · rintro ⟨h, -, hw, -⟩; cases h; rw [hc] at hw; cases hw
    · have : u.engine.table[q] = s.engine.table[q] := by
        rw [hu]; simp [Vector.getElem_set_ne, Fin.val_ne_of_ne hqp]
      rw [this]
  have ha := adopt_of_unowned (s := u) (i := j) (line := line) (d := d) (age := age) (by rw [hu]; simp)
  refine ⟨fun h => by rw [hr, ha.1 fun q f hf => h q f ((hn q f).mp hf)], fun q f h => ?_⟩
  rw [hr, ha.2 q f ⟨(hn q f).mpr h.1, fun q' f' hne hf' => h.2 q' f' hne ((hn q' f').mp hf')⟩]
  rw [report_faults_congr (s := s) (t := u) rfl]
  simp only [hu, Vector.set_set]

end Sys2Proof.Machine.State
end

