-- ==== Sys2Proof/Laws/Memory.lean ====
section
/-! SUPPORT. The memory operations: every one keeps the canonical form, and what each byte reads as after it. -/

namespace Sys2Proof.Machine.Memory

/-! ### The canonical form -/

theorem wf_iff (m : List Host.Cell) :
    wf m = true ↔ m.Pairwise (fun a b => a.1 < b.1) ∧ ∀ c ∈ m, c.1 < Config.bytes := by
  simp [wf]

theorem mem_lineCells {line : Nat} {f : Nat → Option Byte} {c : Host.Cell} (h : c ∈ lineCells line f) :
    64 * line ≤ c.1 ∧ c.1 < 64 * line + 64 := by
  simp only [lineCells, List.mem_filterMap, List.mem_range, Option.map_eq_some_iff] at h
  obtain ⟨i, hi, b, _, rfl⟩ := h
  simp; omega

theorem lineCells_sorted (line : Nat) (f : Nat → Option Byte) :
    (lineCells line f).Pairwise fun a b => a.1 < b.1 := by
  rw [lineCells, List.pairwise_filterMap]
  refine List.Pairwise.imp ?_ (List.pairwise_lt_range (n := 64))
  intro i j hij a ha b hb
  simp only [Option.map_eq_some_iff] at ha hb
  obtain ⟨_, _, rfl⟩ := ha
  obtain ⟨_, _, rfl⟩ := hb
  simp; omega

/-- Replacing a line keeps the form. -/
theorem wf_setLine {line : Nat} {f : Nat → Option Byte} {m : List Host.Cell} (h : wf m = true) :
    wf (setLine line f m) = true := by
  rw [wf_iff] at *
  unfold setLine
  split
  · rename_i hl
    refine ⟨?_, ?_⟩
    · rw [List.pairwise_append, List.pairwise_append]
      refine ⟨⟨h.1.filter _, lineCells_sorted _ _, ?_⟩, h.1.filter _, ?_⟩
      · intro a ha b hb
        have := mem_lineCells hb
        simp only [List.mem_filter, decide_eq_true_eq] at ha
        omega
      · intro a ha b hb
        simp only [List.mem_append, List.mem_filter, decide_eq_true_eq] at ha hb
        rcases ha with ha | ha
        · omega
        · have := mem_lineCells ha; omega
    · intro c hc
      simp only [List.mem_append, List.mem_filter] at hc
      rcases hc with (hc | hc) | hc
      · exact h.2 c hc.1
      · have := mem_lineCells hc
        simp only [Config.bytes, Config.lines] at *
        omega
      · exact h.2 c hc.1
  · exact h

theorem wf_writeLine {line : Nat} {mask : BitVec 64} {data : Line} {m : List Host.Cell} (h : wf m = true) :
    wf (writeLine line mask data m) = true := wf_setLine h

theorem wf_forgetLine {line : Nat} {m : List Host.Cell} (h : wf m = true) : wf (forgetLine line m) = true := wf_setLine h

/-! ### Reading a byte -/

theorem find_filter_of_keeps {α : Type} (p q : α → Bool) (l : List α) (h : ∀ x, q x = true → p x = true) :
    (l.filter p).find? q = l.find? q := by
  induction l with
  | nil => rfl
  | cons x l ih =>
    by_cases hp : p x = true
    · simp [List.filter_cons, hp, List.find?_cons, ih]
    · have hq : q x = false := by
        cases hx : q x
        · rfl
        · exact absurd (h x hx) hp
      simp [List.filter_cons, hp, List.find?_cons, hq, ih]

theorem find_eq_none_of_lt {α : Type} (q : α → Bool) (l : List α) (h : ∀ x ∈ l, q x = false) : l.find? q = none := by
  simpa [List.find?_eq_none] using h

theorem find_lineCells (line : Nat) (f : Nat → Option Byte) (i : Nat) (hi : i < 64) :
    ((lineCells line f).find? fun c => c.1 == 64 * line + i).map (·.2) = f i := by
  have key : ∀ n ≤ 64, (((List.range n).filterMap fun j => (f j).map fun b => ((64 * line + j, b) : Host.Cell)).find?
      fun c => c.1 == 64 * line + i).map (·.2) = if i < n then f i else none := by
    intro n
    induction n with
    | zero => simp
    | succ n ih =>
      intro hn
      rw [List.range_succ, List.filterMap_append, List.find?_append]
      by_cases h1 : i < n
      · have := ih (by omega)
        rw [if_pos h1] at this
        rw [if_pos (by omega)]
        cases hf : f i with
        | some b =>
          rw [hf] at this
          obtain ⟨c, hc, hb⟩ := Option.map_eq_some_iff.mp this
          simp [hc, hb]
        | none =>
          rw [hf] at this
          have hnone := Option.map_eq_none_iff.mp this
          rw [hnone]
          cases hn' : f n with
          | none => simp [hn']
          | some b =>
            have : ¬ n = i := by omega
            simp [hn', this]
      · have := ih (by omega)
        rw [if_neg h1] at this
        rw [Option.map_eq_none_iff.mp this]
        by_cases h2 : i = n
        · subst h2
          cases hf : f i <;> simp [hf]
        · rw [if_neg (by omega)]
          cases hn' : f n with
          | none => simp [hn']
          | some b =>
            have : ¬ n = i := by omega
            simp [hn', this]
  have := key 64 le_rfl
  rwa [if_pos hi] at this

/-- A byte of the line replaced. -/
theorem read_setLine_same {line : Nat} (f : Nat → Option Byte) (m : List Host.Cell) {a : Nat} (hl : line < Config.lines)
    (ha : a / 64 = line) : read (setLine line f m) a = f (a % 64) := by
  have e : a = 64 * line + a % 64 := by omega
  rw [read, setLine, if_pos hl, List.find?_append, List.find?_append]
  rw [find_eq_none_of_lt _ (m.filter _) (by intro c hc; simp at hc ⊢; omega)]
  rw [find_eq_none_of_lt _ (m.filter _) (by intro c hc; simp at hc ⊢; omega)]
  have := find_lineCells line f (a % 64) (Nat.mod_lt _ (by decide))
  rw [← e] at this
  simpa using this

/-- A byte of another line. -/
theorem read_setLine_other {line : Nat} (f : Nat → Option Byte) (m : List Host.Cell) {a : Nat} (ha : a / 64 ≠ line) :
    read (setLine line f m) a = read m a := by
  rw [read, read, setLine]
  split
  · rw [List.find?_append, List.find?_append]
    rw [find_eq_none_of_lt _ (lineCells line f) (by intro c hc; have := mem_lineCells hc; simp; omega)]
    by_cases h : a < 64 * line
    · rw [find_filter_of_keeps _ _ m (by intro c hc; simp at hc ⊢; omega)]
      rw [find_eq_none_of_lt _ (m.filter _) (by intro c hc; simp at hc ⊢; omega)]
      simp
    · rw [find_eq_none_of_lt _ (m.filter _) (by intro c hc; simp at hc ⊢; omega)]
      rw [find_filter_of_keeps _ _ m (by intro c hc; simp at hc ⊢; omega)]
      simp
  · rfl

theorem read_writeLine_same {line : Nat} (mask : BitVec 64) (data : Line) (m : List Host.Cell) {a : Nat}
    (hl : line < Config.lines) (ha : a / 64 = line) : read (writeLine line mask data m) a =
      if mask.getLsbD (a % 64) then some (lineByte data (a % 64)) else read m a := by
  rw [writeLine, read_setLine_same _ m hl ha]
  have e : 64 * line + a % 64 = a := by omega
  rw [e]

theorem read_forgetLine_same {line : Nat} (m : List Host.Cell) {a : Nat} (hl : line < Config.lines) (ha : a / 64 = line) :
    read (forgetLine line m) a = none := read_setLine_same _ m hl ha

theorem read_writeLine_other {line : Nat} (mask : BitVec 64) (data : Line) (m : List Host.Cell) {a : Nat}
    (ha : a / 64 ≠ line) : read (writeLine line mask data m) a = read m a := read_setLine_other _ m ha

theorem read_forgetLine_other {line : Nat} (m : List Host.Cell) {a : Nat} (ha : a / 64 ≠ line) :
    read (forgetLine line m) a = read m a := read_setLine_other _ m ha

end Sys2Proof.Machine.Memory
end

