-- ==== Sys2Proof/Laws/Answers.lean ====
section
/-! SUPPORT. What an answer of the devices does to memory, phase by phase. -/

namespace Sys2Proof.Machine.State

@[simp] theorem succeed_memory (s : State) (op : Operation) (d : Line) : (s.succeed op d).memory = s.memory := by
  simp [succeed]

@[simp] theorem failOp_memory (s : State) (op : Operation) : (s.failOp op).memory = s.memory := by simp [failOp_eq]

@[simp] theorem failAtLimit_memory (s : State) (op : Operation) : (s.failAtLimit op).memory = op.spoils s.memory := by
  simp [failAtLimit]

/-- An answer in AWAITING: OK gives the enabled bytes of a LINE WRITE the data sent; ERROR, and a failure at the attempt limit,
leave its line undefined. A LINE READ changes nothing. -/
theorem answered_memory_awaiting {s : State} {op : Operation} (hp : op.phase = .awaiting) :
    (∀ d, (s.answered op (.ok d)).memory =
      if op.kind = .lineWrite then Memory.writeLine op.line op.mask op.data s.memory else s.memory) ∧
    (s.answered op .busy).memory = (if op.attempts < op.limit then s.memory else op.spoils s.memory) ∧
    (s.answered op .error).memory = op.spoils s.memory := by
  refine ⟨fun d => ?_, ?_, ?_⟩
  · cases hk : op.kind <;> simp only [answered, hp, attemptOk, hk]
    · simp
    · simp only [if_true]
      split
      · rfl
      · simp
  · simp only [answered, hp, attemptFailed]
    split
    · rfl
    · simp
  · simp only [answered, hp, attemptError]
    split
    · rfl
    · simp

/-- An answer to a verify read changes memory only where it ends the write in failure: its line is then undefined. -/
theorem answered_memory_verify {s : State} {op : Operation} (hp : op.phase = .verifying) :
    (∀ d, (s.answered op (.ok d)).memory =
      if agreeOn op.mask op.data d = true ∨ op.attempts < op.limit then s.memory else op.spoils s.memory) ∧
    ∀ a, a = .busy ∨ a = .error → (s.answered op a).memory =
      if op.attempts < op.limit then s.memory else op.spoils s.memory := by
  refine ⟨fun d => ?_, fun a h => ?_⟩
  · simp only [answered, hp, verifyOk]
    split
    · rename_i h; simp [h]
    · rename_i h
      split
      · rename_i h'; rw [if_pos (Or.inr h')]; rfl
      · rename_i h'; rw [if_neg (by tauto)]; simp
  · rcases h with rfl | rfl <;> simp only [answered, hp, verifyFailed] <;> split
    all_goals first | rfl | simp

end Sys2Proof.Machine.State
end

