-- ==== Sys2Proof/Laws/AttemptCounts.lean ====
section
/-! SUPPORT. What every operation can do to the memory port keeps the attempt count of the operation in flight between 1 and its
limit (R111, R113). -/

namespace Sys2Proof.Machine

/-- R111, R113: the attempt count of an operation. -/
def Operation.Counted (op : Operation) : Prop :=
  1 ≤ op.attempts ∧ op.attempts ≤ op.limit ∧ op.limit ≤ 255 ∧
    (op.phase = .backoff ∨ op.phase = .held → op.next ≠ .firstVerify → op.attempts < op.limit)

/-- R111, R113, R114: the attempt limit is not 0, and the operation in flight is counted. -/
def MemoryPort.Counted (p : MemoryPort) : Prop := p.attemptLimit ≠ 0 ∧ ∀ op, p.op = some op → op.Counted

theorem attemptsLaw_iff (s : State) : s.attemptsLaw ↔ s.port.Counted := Iff.rfl

theorem MemoryPort.Counted.limit {p : MemoryPort} (h : p.Counted) :
    1 ≤ p.attemptLimit.toNat ∧ p.attemptLimit.toNat ≤ 255 := by
  have h1 := h.1
  have h2 := p.attemptLimit.isLt
  have : p.attemptLimit.toNat ≠ 0 := fun e => h1 (by apply BitVec.eq_of_toNat_eq; simpa using e)
  omega

theorem readOp_counted {o : Owner} {l n : Nat} {k : Option FailureKind} {r : Fin 10} (h : 1 ≤ n ∧ n ≤ 255) :
    (readOp o l n k r).Counted := by
  simp [readOp, Operation.Counted]; omega

theorem writeOp_counted {o : Owner} {l n : Nat} {d : Line} {m : BitVec 64} {v : Bool} {k : FailureKind} {r : Fin 10}
    (h : 1 ≤ n ∧ n ≤ 255) : (writeOp o l d m v n k r).Counted := by
  simp [writeOp, Operation.Counted]; omega

namespace State

@[simp] theorem issue_counted (s : State) (op : Operation) (h : s.port.Counted) (ho : op.Counted) :
    (s.issue op).port.Counted := by
  refine ⟨h.1, ?_⟩
  intro o e
  simp only [issue_port, Option.some.injEq] at e
  exact e ▸ ho

@[simp] theorem grantedTo_counted (s : State) (c : PortClass) (h : s.port.Counted) : (s.grantedTo c).port.Counted := h

@[simp] theorem freePort_counted (s : State) (h : s.port.Counted) : s.freePort.port.Counted := ⟨h.1, by simp⟩

@[simp] theorem headerOp_counted (s : State) (o : Owner) (e : BitVec 32) (h : s.port.Counted) :
    (s.headerOp o e).Counted := writeOp_counted h.limit

@[simp] theorem drainOp_counted (s : State) (d : Drain) (h : s.port.Counted) (op : Operation)
    (e : s.drainOp d = some op) : op.Counted := by
  simp only [drainOp] at e
  split at e <;> simp only [Option.some.injEq, reduceCtorEq] at e <;> subst e
  · exact writeOp_counted h.limit
  · exact readOp_counted h.limit
  · exact writeOp_counted h.limit
  · exact writeOp_counted h.limit
  · exact writeOp_counted h.limit

@[simp] theorem writeOffer_counted (s : State) (h : s.port.Counted) (op : Operation) (e : s.writeOffer = some op) :
    op.Counted := by
  simp only [writeOffer] at e
  split at e
  · simp only [Option.some.injEq] at e; exact e ▸ writeOp_counted h.limit
  · split at e
    · exact drainOp_counted s _ h op e
    · simp at e

@[simp] theorem procedureOp_counted (s : State) (h : s.port.Counted) (op : Operation) (e : s.procedureOp = some op) :
    op.Counted := by
  simp only [procedureOp] at e
  split at e <;> simp only [Option.some.injEq, reduceCtorEq] at e <;> subst e
  all_goals first | exact readOp_counted h.limit | exact writeOp_counted h.limit

@[simp] theorem listFailure_counted (s : State) (op : Operation) (h : s.port.Counted) :
    (s.listFailure op).port.Counted := by
  simp only [listFailure]
  repeat' split
  all_goals first | exact h | simpa [MemoryPort.Counted] using h

@[simp] theorem grantDemand_counted (s : State) (p : Fin 4) (h : s.port.Counted) :
    (s.grantDemand p).port.Counted := by
  simp only [grantDemand]
  split
  · refine issue_counted _ _ ?_ (readOp_counted h.limit)
    simpa [MemoryPort.Counted] using h
  · exact h
  · exact h

@[simp] theorem grantPrefetch_counted (s : State) (l : Nat) (rest : List Nat) (h : s.port.Counted) :
    (s.grantPrefetch l rest).port.Counted := by
  simp only [grantPrefetch]
  split
  · refine issue_counted _ _ ?_ (readOp_counted (by omega))
    simpa [MemoryPort.Counted] using h
  · exact h


@[simp] theorem grantWrite_counted (s : State) (op : Operation) (h : s.port.Counted) (ho : op.Counted) :
    (s.grantWrite op).port.Counted := issue_counted _ _ h ho

@[simp] theorem grantOffer_counted (s : State) (o : Option Operation) (h : s.port.Counted)
    (ho : ∀ op, o = some op → op.Counted) : (s.grantOffer o).port.Counted := by
  cases o with
  | none => exact h
  | some op => exact grantWrite_counted s op h (ho op rfl)

@[simp] theorem takePrefetch_counted (s : State) (o : Option Operation) (h : s.port.Counted)
    (ho : ∀ op, o = some op → op.Counted) : (s.takePrefetch o).port.Counted := by
  simp only [takePrefetch]
  split
  · exact grantPrefetch_counted _ _ _ h
  · exact grantOffer_counted _ _ h ho

@[simp] theorem takeRead_counted (s : State) (o : Option Operation) (h : s.port.Counted)
    (ho : ∀ op, o = some op → op.Counted) : (s.takeRead o).port.Counted := by
  simp only [takeRead]
  split
  · exact grantDemand_counted _ _ h
  · exact takePrefetch_counted _ _ h ho

@[simp] theorem arbitrate_counted (s : State) (h : s.port.Counted) : s.arbitrate.port.Counted := by
  simp only [arbitrate]
  split
  · exact h
  · split
    · next op e => exact issue_counted _ _ h (procedureOp_counted s h op e)
    · split
      · exact grantOffer_counted _ _ h (writeOffer_counted s h)
      · exact takeRead_counted _ _ h (writeOffer_counted s h)

@[simp] theorem settle_counted (s : State) (h : s.port.Counted) :
    (s.settle).port.Counted := by
  simp only [settle]
  all_goals simp (maxDischargeDepth := 20) [h]

@[simp] theorem succeed_counted (s : State) (op : Operation) (d : Line) (h : s.port.Counted) :
    (s.succeed op d).port.Counted := settle_counted _ (by simpa using freePort_counted _ h)

@[simp] theorem failOp_counted (s : State) (op : Operation) (h : s.port.Counted) :
    (s.failOp op).port.Counted := by
  have h1 : ({ s.port with op := none } : MemoryPort).Counted := freePort_counted _ h
  simp only [failOp]
  refine settle_counted _ ?_
  simp only [ownerFailed_frame]
  refine listFailure_counted _ _ ?_
  split <;> simpa using h1


theorem failAtLimit_counted (s : State) (op : Operation) (h : s.port.Counted) :
    (s.failAtLimit op).port.Counted := failOp_counted _ _ (by simpa using h)

theorem backOff_counted (s : State) (op : Operation) (n : NextIssue) (h : s.port.Counted) (ho : op.Counted)
    (hl : op.attempts < op.limit) : (s.backOff op n).port.Counted :=
  issue_counted _ _ h ⟨ho.1, ho.2.1, ho.2.2.1, fun _ _ => hl⟩

theorem startVerify_counted (s : State) (op : Operation) (h : s.port.Counted) (ho : op.Counted) :
    (s.startVerify op).port.Counted :=
  issue_counted _ _ h ⟨ho.1, ho.2.1, ho.2.2.1, fun _ hn => absurd rfl hn⟩

theorem attemptFailed_counted (s : State) (op : Operation) (h : s.port.Counted) (ho : op.Counted) :
    (s.attemptFailed op).port.Counted := by
  simp only [attemptFailed]
  split
  · exact backOff_counted _ _ _ h ho ‹_›
  · exact failAtLimit_counted _ _ h

theorem attemptError_counted (s : State) (op : Operation) (h : s.port.Counted) (ho : op.Counted) :
    (s.attemptError op).port.Counted := by
  simp only [attemptError]
  split
  · exact backOff_counted _ _ _ h ho ‹_›
  · exact failAtLimit_counted _ _ h

theorem attemptOk_counted (s : State) (op : Operation) (d : Line) (h : s.port.Counted) (ho : op.Counted) :
    (s.attemptOk op d).port.Counted := by
  simp only [attemptOk]
  split
  · exact succeed_counted _ _ _ h
  · split
    · exact startVerify_counted _ _ h ho
    · exact succeed_counted _ _ _ h

theorem verifyFailed_counted (s : State) (op : Operation) (h : s.port.Counted) (ho : op.Counted) :
    (s.verifyFailed op).port.Counted := by
  simp only [verifyFailed]
  split
  · exact backOff_counted _ _ _ h ho ‹_›
  · exact failAtLimit_counted _ _ h

theorem verifyOk_counted (s : State) (op : Operation) (d : Line) (h : s.port.Counted) (ho : op.Counted) :
    (s.verifyOk op d).port.Counted := by
  simp only [verifyOk]
  repeat' split
  · exact succeed_counted _ _ _ h
  · exact backOff_counted _ _ _ h ho ‹_›
  · exact failAtLimit_counted _ _ h

theorem answered_counted (s : State) (op : Operation) (a : MemAnswer) (h : s.port.Counted) (ho : op.Counted) :
    (s.answered op a).port.Counted := by
  simp only [answered]
  split
  · exact attemptOk_counted _ _ _ h ho
  · exact attemptFailed_counted _ _ h ho
  · exact attemptError_counted _ _ h ho
  · exact verifyOk_counted _ _ _ h ho
  · exact verifyFailed_counted _ _ h ho
  · exact verifyFailed_counted _ _ h ho
  · exact h
  · exact h

theorem reissue_counted (s : State) (op : Operation) (h : s.port.Counted) (ho : op.Counted)
    (hp : op.phase = .backoff ∨ op.phase = .held) : (s.reissue op).port.Counted := by
  have hc : op.next ≠ .firstVerify → op.attempts < op.limit := ho.2.2.2 hp
  obtain ⟨h1, h2, h3, _⟩ := ho
  simp only [reissue]
  split <;> (try simp only [count_frame]) <;> refine issue_counted _ _ h ?_ <;> simp_all [Operation.Counted] <;> omega

theorem endBackoff_counted (s : State) (op : Operation) (h : s.port.Counted) (ho : op.Counted)
    (hp : op.phase = .backoff) : (s.endBackoff op).port.Counted := by
  simp only [endBackoff]
  split
  · exact issue_counted _ _ h ⟨ho.1, ho.2.1, ho.2.2.1, fun _ hn => ho.2.2.2 (.inl hp) hn⟩
  · exact reissue_counted _ _ h ho (.inl hp)

@[simp] theorem releaseHeld_counted (s : State) (h : s.port.Counted) : s.releaseHeld.port.Counted := by
  simp only [releaseHeld]
  split
  · next op e =>
    split
    · exact reissue_counted _ _ h (h.2 op e) (.inr ‹_›)
    · exact h
  · exact h

@[simp] theorem resume_counted (s : State) (h : s.port.Counted) :
    (s.resume).port.Counted := by
  simp only [resume]
  all_goals simp (maxDischargeDepth := 20) [h]

@[simp] theorem moveSupply_counted (s : State) (x : SupplyState) (h : s.port.Counted) :
    (s.moveSupply x).port.Counted := by
  simp only [moveSupply]
  repeat' split
  all_goals simp (maxDischargeDepth := 20) [h]

@[simp] theorem resetUpstream_counted (s : State) (h : s.port.Counted) :
    (s.resetUpstream).port.Counted := by
  simp only [resetUpstream]
  all_goals simp (maxDischargeDepth := 20) [h]

@[simp] theorem takeClose_counted (s : State) (h : s.port.Counted) :
    (s.takeClose).port.Counted := by
  simp only [takeClose]
  all_goals simp (maxDischargeDepth := 20) [h]

@[simp] theorem takeInit_counted (s : State) (e : BitVec 32) (h : s.port.Counted) :
    (s.takeInit e).port.Counted := by
  simp only [takeInit]
  all_goals simp (maxDischargeDepth := 20) [h]

@[simp] theorem takeRollback_counted (s : State) (h : s.port.Counted) :
    (s.takeRollback).port.Counted := by
  simp only [takeRollback]
  all_goals simp (maxDischargeDepth := 20) [h]

@[simp] theorem acceptPosted_counted (s : State) (r : Request) (c : Classification) (h : s.port.Counted) :
    (s.acceptPosted r c).port.Counted := by
  simp only [acceptPosted]
  all_goals simp (maxDischargeDepth := 20) [h]

@[simp] theorem acceptDurable_counted (s : State) (r : Request) (c : Classification) (p : Fin 4) (h : s.port.Counted) :
    (s.acceptDurable r c p).port.Counted := by
  simp only [acceptDurable]
  all_goals simp (maxDischargeDepth := 20) [h]

@[simp] theorem roomDurable_counted (s : State) (r : Request) (c : Classification) (h : s.port.Counted) :
    (s.roomDurable r c).port.Counted := by
  simp only [roomDurable]
  repeat' split
  all_goals simp (maxDischargeDepth := 20) [h]

@[simp] theorem roomWrite_counted (s : State) (r : Request) (c : Classification) (h : s.port.Counted) :
    (s.roomWrite r c).port.Counted := by
  simp only [roomWrite]
  repeat' split
  all_goals simp (maxDischargeDepth := 20) [h]

@[simp] theorem guardWrite_counted (s : State) (r : Request) (h : s.port.Counted) :
    (s.guardWrite r).port.Counted := by
  simp only [guardWrite]
  repeat' split
  all_goals simp (maxDischargeDepth := 20) [h]

@[simp] theorem classifyWrite_counted (s : State) (r : Request) (h : s.port.Counted) :
    (s.classifyWrite r).port.Counted := by
  simp only [classifyWrite]
  repeat' split
  all_goals simp (maxDischargeDepth := 20) [h]

@[simp] theorem decideWrite_counted (s : State) (r : Request) (h : s.port.Counted) :
    (s.decideWrite r).port.Counted := by
  simp only [decideWrite]
  repeat' split
  all_goals simp (maxDischargeDepth := 20) [h]

@[simp] theorem createRead_counted (s : State) (r : Request) (p : Fin 4) (h : s.port.Counted) :
    (s.createRead r p).port.Counted := by
  simp only [createRead]
  all_goals simp (maxDischargeDepth := 20) [h]

@[simp] theorem bufferRead_counted (s : State) (r : Request) (h : s.port.Counted) :
    (s.bufferRead r).port.Counted := by
  simp only [bufferRead]
  repeat' split
  all_goals simp (maxDischargeDepth := 20) [h]

@[simp] theorem classifyRead_counted (s : State) (r : Request) (h : s.port.Counted) :
    (s.classifyRead r).port.Counted := by
  simp only [classifyRead]
  repeat' split
  all_goals simp (maxDischargeDepth := 20) [h]

@[simp] theorem matchRead_counted (s : State) (r : Request) (h : s.port.Counted) :
    (s.matchRead r).port.Counted := by
  simp only [matchRead]
  repeat' split
  all_goals simp (maxDischargeDepth := 20) [h]

@[simp] theorem decideRead_counted (s : State) (r : Request) (h : s.port.Counted) :
    (s.decideRead r).port.Counted := by
  simp only [decideRead]
  repeat' split
  all_goals simp (maxDischargeDepth := 20) [h]

@[simp] theorem expireFilter_counted (s : State) (f : SupplyFilter) (h : s.port.Counted) :
    (s.expireFilter f).port.Counted := by
  simp only [expireFilter]
  repeat' split
  all_goals simp (maxDischargeDepth := 20) [h]

@[simp] theorem startReset_counted (s : State) (c : ResetCause) (l : SupplyLevel) (n : Bool) (h : s.port.Counted) :
    (s.startReset c l n).port.Counted := by simp [startReset, MemoryPort.Counted, MemoryPort.reset, Config.resetAttemptLimit]

@[simp] theorem closeEpoch_counted (s : State) (h : s.port.Counted) :
    (s.closeEpoch).2.port.Counted := by
  simp only [closeEpoch]
  repeat' split
  all_goals simp (maxDischargeDepth := 20) [h]

@[simp] theorem initJournal_counted (s : State) (e : BitVec 32) (h : s.port.Counted) :
    (s.initJournal e).2.port.Counted := by
  simp only [initJournal]
  repeat' split
  all_goals simp (maxDischargeDepth := 20) [h]

@[simp] theorem rollback_counted (s : State) (h : s.port.Counted) :
    (s.rollback).2.port.Counted := by
  simp only [rollback]
  repeat' split
  all_goals simp (maxDischargeDepth := 20) [h]

end State

end Sys2Proof.Machine
end

