-- ==== Sys2Proof/Laws/FrameLines.lean ====
section
/-! SUPPORT. What the edges of a request do on the lines of the management port: eight rising ones complete a byte, and a byte
that does not end the request leaves it as it is but for the byte. -/

namespace Sys2Proof.Machine

/-- R166: the byte that its own eight bits make. -/
theorem byteOfBits_getMsbD : ∀ b : Byte, byteOfBits ((List.range 8).map fun i => b.getMsbD i) = b := by decide +kernel

/-- R166: the sixteen edges of a byte. -/
def byteEdges (b : Byte) : List FrameEdge := (List.range 8).flatMap fun i => [.mckRises (b.getMsbD i), .mckFalls]

theorem edgesOf_cons (b : Byte) (bs : List Byte) : edgesOf (b :: bs) = byteEdges b ++ edgesOf bs := rfl

/-- A step on an empty queue with edges to come takes the first. -/
theorem step_edge {s : State} {e : FrameEdge} {rest : List FrameEdge} (hp : s.pending = []) (hl : s.frameLines = e :: rest) :
    step s = (s.setFrameLines rest).frameEdge e := by
  simp [step, hp, hl]

theorem run_of_step (M : Host.Core) {s t : M.State} (n : Nat) (h : M.step s = .next t) : M.run (n + 1) s = M.run n t := by
  simp [Host.Core.run, h]

/-- A run whose first step is known. -/
theorem run_next {s t : State} (n : Nat) (h : step s = .next t) : core.run (n + 1) s = core.run n t := run_of_step core n h

/-- The part in a request, with the bytes and bits received so far. -/
def State.inRequest (s : State) (bytes : List Byte) (bits : List Bool) (rest : List FrameEdge) : State :=
  { s with frameLines := rest, mgmt := { s.mgmt with
      frame := .request, received := bytes, bits := bits, mdoLine := some true, response := [], sent := 0 } }

/-- R166: a bit that does not complete a byte. -/
theorem step_bit {s : State} (hp : s.pending = []) (bytes : List Byte) (bits : List Bool) (mdi : Bool)
    (rest : List FrameEdge) (hb : bits.length < 7) :
    step (s.inRequest bytes bits (.mckRises mdi :: rest)) = .next (s.inRequest bytes (bits ++ [mdi]) rest) := by
  rw [step_edge (s := s.inRequest bytes bits (.mckRises mdi :: rest)) (e := .mckRises mdi) (rest := rest) hp rfl]
  simp [State.frameEdge, State.riseMck, State.setFrameLines, State.inRequest, State.setMgmt, hb]

/-- R166: the bit that completes a byte. -/
theorem step_last {s : State} (hp : s.pending = []) (bytes : List Byte) (bits : List Bool) (mdi : Bool)
    (rest : List FrameEdge) (hb : bits.length = 7) :
    step (s.inRequest bytes bits (.mckRises mdi :: rest)) =
      (s.inRequest (bytes ++ [byteOfBits (bits ++ [mdi])]) [] rest).judgeReceived := by
  rw [step_edge (s := s.inRequest bytes bits (.mckRises mdi :: rest)) (e := .mckRises mdi) (rest := rest) hp rfl]
  simp [State.frameEdge, State.riseMck, State.setFrameLines, State.inRequest, State.setMgmt, hb, State.completeByte]

/-- R166: a falling edge in a request: MDO goes on giving FFh. -/
theorem step_fall {s : State} (hp : s.pending = []) (bytes : List Byte) (bits : List Bool) (rest : List FrameEdge)
    (hb : bits.length < 8) :
    step (s.inRequest bytes bits (.mckFalls :: rest)) = .next (s.inRequest bytes bits rest) := by
  rw [step_edge (s := s.inRequest bytes bits (.mckFalls :: rest)) (e := .mckFalls) (rest := rest) hp rfl]
  have h : ∀ i : Fin 8, (0xFF : Byte).getMsbD i = true := by decide
  have := h ⟨bits.length, hb⟩
  simp [State.frameEdge, State.fallMck, State.setFrameLines, State.inRequest, State.driveMdo, State.setMgmt, State.mdoBit,
    State.mdo] at this ⊢
  exact this

/-- R166: the edges of a byte up to its eighth rising edge, which completes it. -/
theorem run_rises {s t : State} (hp : s.pending = []) (bytes : List Byte) (b : Byte) (rest : List FrameEdge) (n : Nat)
    (hj : (s.inRequest (bytes ++ [b]) [] (.mckFalls :: rest)).judgeReceived = .next t) :
    core.run (15 + n) (s.inRequest bytes [] (byteEdges b ++ rest)) = core.run n t := by
  have e : 15 + n = n + 1 + 1 + 1 + 1 + 1 + 1 + 1 + 1 + 1 + 1 + 1 + 1 + 1 + 1 + 1 := by omega
  have h := byteOfBits_getMsbD b
  simp only [byteEdges, List.range, List.range.loop, List.flatMap_cons, List.flatMap_nil, List.map, List.cons_append,
    List.nil_append] at h ⊢
  rw [e]
  iterate 7 rw [run_next _ (step_bit hp _ _ _ _ (by simp)), run_next _ (step_fall hp _ _ _ (by simp))]
  refine run_next _ ?_
  rw [step_last hp _ _ _ _ (by simp)]
  simp only [List.cons_append, List.nil_append, h, hj]

/-- R166: the sixteen edges of a byte that leaves the request unfinished. -/
theorem run_byte {s : State} (hp : s.pending = []) (bytes : List Byte) (b : Byte) (rest : List FrameEdge) (n : Nat)
    (hj : judgeRequest (bytes ++ [b]) = .unfinished) :
    core.run (16 + n) (s.inRequest bytes [] (byteEdges b ++ rest)) = core.run n (s.inRequest (bytes ++ [b]) [] rest) := by
  have e : 16 + n = 15 + (n + 1) := by omega
  rw [e, run_rises hp bytes b rest (n + 1) (t := s.inRequest (bytes ++ [b]) [] (.mckFalls :: rest)) (by
    simp only [State.judgeReceived, State.inRequest] at hj ⊢
    simp [hj])]
  exact run_next _ (step_fall hp _ _ _ (by simp))

/-- R166, R167: the edges of bytes that leave the request unfinished. -/
theorem run_unfinished {s : State} (hp : s.pending = []) (rest : List FrameEdge) (n : Nat) :
    ∀ (bs bytes : List Byte), (∀ k < bs.length, judgeRequest (bytes ++ bs.take (k + 1)) = .unfinished) →
      core.run (16 * bs.length + n) (s.inRequest bytes [] (edgesOf bs ++ rest)) =
        core.run n (s.inRequest (bytes ++ bs) [] rest) := by
  intro bs
  induction bs with
  | nil => intro bytes _; simp [edgesOf]
  | cons b bs ih =>
    intro bytes h
    have e : 16 * (b :: bs).length + n = 16 + (16 * bs.length + n) := by simp only [List.length_cons]; omega
    have hj : judgeRequest (bytes ++ [b]) = .unfinished := by simpa using h 0 (by simp)
    rw [e, edgesOf_cons, List.append_assoc, run_byte hp _ _ _ _ hj, ih (bytes ++ [b]) (fun k hk => by
      have := h (k + 1) (by simpa using hk)
      simpa using this)]
    simp

/-- R166 to R169: MCS# falls with no frame, and the edges of bytes of which only the last ends the request, at its eighth
rising edge. -/
theorem run_request {s : State} (hp : s.pending = []) (ht : s.takesFrame = true) (bs : List Byte) (b : Byte)
    (rest : List FrameEdge) (h : ∀ k < bs.length, judgeRequest (bs.take (k + 1)) = .unfinished)
    (hl : s.frameLines = .mcsFalls :: (edgesOf (bs ++ [b]) ++ rest)) {t : State}
    (hj : (s.inRequest (bs ++ [b]) [] (.mckFalls :: rest)).judgeReceived = .next t) :
    core.run (16 * (bs ++ [b]).length) s = .next t := by
  have e : 16 * (bs ++ [b]).length = (16 * bs.length + (15 + 0)) + 1 := by simp; omega
  have h0 : step s = .next (s.inRequest [] [] (edgesOf (bs ++ [b]) ++ rest)) := by
    rw [step_edge hp hl]
    have : (s.setFrameLines (edgesOf (bs ++ [b]) ++ rest)).takesFrame = true := ht
    simp only [State.frameEdge, State.fallMcs, if_pos this]
    rfl
  have e2 : edgesOf (bs ++ [b]) ++ rest = edgesOf bs ++ (byteEdges b ++ rest) := by
    simp [edgesOf, byteEdges]
  rw [e, run_next _ h0, e2, run_unfinished hp _ (15 + 0) bs [] (by simpa using h), List.nil_append,
    run_rises hp _ _ _ 0 hj]
  rfl

/-! ### What one step can do -/

/-- Two states differ at most in the frame on the management port and in what waits outside; the long-command slot agrees. -/
def State.framedAs (u s : State) : Prop :=
  u = { s with mgmt := u.mgmt, pending := u.pending, frameLines := u.frameLines } ∧
    u.mgmt.longCmd = s.mgmt.longCmd ∧ u.mgmt.lastLong = s.mgmt.lastLong

theorem State.advanceFrame_framedAs (s : State) : s.advanceFrame.framedAs s := by
  unfold State.advanceFrame
  split <;> first | exact ⟨rfl, rfl, rfl⟩ | (split <;> exact ⟨rfl, rfl, rfl⟩)

theorem State.framedAs.trans {s t u : State} (h : u.framedAs t) (h' : t.framedAs s) : u.framedAs s := by
  obtain ⟨h1, h2, h3⟩ := h
  obtain ⟨h1', h2', h3'⟩ := h'
  refine ⟨?_, h2.trans h2', h3.trans h3'⟩
  rw [h1, h1']

theorem State.clockByte_framedAs (s : State) : s.clockByte.framedAs s := by
  unfold State.clockByte
  split <;> first | exact ⟨rfl, rfl, rfl⟩ | exact (State.advanceFrame_framedAs _).trans ⟨rfl, rfl, rfl⟩

theorem State.setMgmt_framedAs {s : State} {m : ManagementPort} (h1 : m.longCmd = s.mgmt.longCmd)
    (h2 : m.lastLong = s.mgmt.lastLong) : (s.setMgmt m).framedAs s := ⟨rfl, h1, h2⟩

/-- What an edge or a command leads to: the frame has moved, or a command is carried out, or a frame in error is taken; before
it only the frame and what waits outside may have changed. -/
def State.leadsTo (s t : State) : Prop :=
  ∃ u : State, u.framedAs s ∧ u.pending = s.pending ∧
    (t = u ∨ (∃ c, exec c u = .next t) ∨ ∃ bytes r flag, t = u.frameFault.respond bytes r flag)

theorem State.leadsTo_of_framedAs {s t u : State} (h : u.framedAs s) (hp : u.pending = s.pending) (h' : u.leadsTo t) :
    s.leadsTo t := by
  obtain ⟨v, h1, h2, h3⟩ := h'
  exact ⟨v, h1.trans h, h2.trans hp, h3⟩

theorem State.leadsTo_of_moved {s u : State} (h : u.framedAs s) (hp : u.pending = s.pending) : s.leadsTo u :=
  ⟨u, h, hp, .inl rfl⟩

theorem State.framedAs_refl (s : State) : s.framedAs s := ⟨rfl, rfl, rfl⟩

theorem judgeReceived_leadsTo {s t : State} (h : s.judgeReceived = .next t) : s.leadsTo t := by
  simp only [State.judgeReceived] at h
  split at h
  · cases h; exact State.leadsTo_of_moved s.framedAs_refl rfl
  · cases h; exact ⟨s, s.framedAs_refl, rfl, .inr (.inr ⟨_, _, _, rfl⟩)⟩
  · split at h
    · exact ⟨s.setMgmt { s.mgmt with frame := .idle, mdoLine := none }, State.setMgmt_framedAs rfl rfl, rfl, .inr (.inl ⟨_, h⟩)⟩
    · cases h; exact State.leadsTo_of_moved s.framedAs_refl rfl

theorem completeByte_leadsTo {s t : State} {b : Byte} (h : s.completeByte b = .next t) : s.leadsTo t := by
  have h1 : (s.setMgmt { s.mgmt with bits := [] }).framedAs s := State.setMgmt_framedAs rfl rfl
  have h2 := (State.advanceFrame_framedAs (s.setMgmt { s.mgmt with bits := [] })).trans h1
  have h3 : (s.setMgmt { s.mgmt with bits := [] }).advanceFrame.pending = s.pending := by simp [State.setMgmt]
  simp only [State.completeByte] at h
  split at h
  · refine State.leadsTo_of_framedAs ?_ ?_ (judgeReceived_leadsTo h)
    · exact State.framedAs.trans (State.setMgmt_framedAs rfl rfl) h1
    · rfl
  · cases h; exact State.leadsTo_of_moved h2 h3
  · cases h; exact State.leadsTo_of_moved h2 h3
  · cases h; exact State.leadsTo_of_moved h2 h3
  · cases h; exact State.leadsTo_of_moved h1 rfl

theorem frameEdge_leadsTo {s t : State} {e : FrameEdge} (h : s.frameEdge e = .next t) : s.leadsTo t := by
  cases e with
  | mcsRises => exact ⟨s, s.framedAs_refl, rfl, .inr (.inl ⟨.mcsRisingEdge, h⟩)⟩
  | mcsFalls =>
    simp only [State.frameEdge, State.fallMcs, Host.Outcome.next.injEq] at h
    split at h <;> subst h
    · exact State.leadsTo_of_moved (State.setMgmt_framedAs rfl rfl) rfl
    · exact State.leadsTo_of_moved s.framedAs_refl rfl
  | mckFalls =>
    simp only [State.frameEdge, State.fallMck, Host.Outcome.next.injEq] at h
    split at h <;> subst h
    · exact State.leadsTo_of_moved s.framedAs_refl rfl
    · exact State.leadsTo_of_moved (State.setMgmt_framedAs rfl rfl) rfl
  | mckRises mdi =>
    simp only [State.frameEdge, State.riseMck] at h
    split at h
    · cases h; exact State.leadsTo_of_moved s.framedAs_refl rfl
    · split at h
      · cases h; exact State.leadsTo_of_moved (State.setMgmt_framedAs rfl rfl) rfl
      · exact completeByte_leadsTo h

/-- Everything a step does: the frame on the management port moves, or a command is carried out, or a frame in error is taken;
before it only that frame and what waits outside may change. -/
theorem step_leadsTo {s t : State} (h : step s = .next t) :
    ∃ u : State, u.framedAs s ∧ u.pending = s.pending.tail ∧
      (t = u ∨ (∃ c, exec c u = .next t) ∨ ∃ bytes r flag, t = u.frameFault.respond bytes r flag) := by
  simp only [step] at h
  split at h
  · rename_i c rest hp
    exact ⟨s.setPending rest, ⟨rfl, rfl, rfl⟩, by simp [hp, State.setPending], .inr (.inl ⟨c, h⟩)⟩
  · rename_i hp
    split at h
    · rename_i e rest _
      obtain ⟨u, h1, h2, h3⟩ := frameEdge_leadsTo h
      refine ⟨u, h1.trans ⟨rfl, rfl, rfl⟩, ?_, h3⟩
      rw [h2, hp]; exact hp
    · cases h
      refine ⟨_, State.clockByte_framedAs s, ?_, .inl rfl⟩
      simp [hp]

end Sys2Proof.Machine
end

