-- ==== Sys2Proof/Laws/Supply.lean ====
section
/-! SUPPORT. What fresh comparisons of VDD leave: the two comparators' changes, one after the other, give what both
comparisons together give; and which moves of the supply state change the supply unit and the event INHIBIT alone. -/

namespace Sys2Proof.Machine

/-- R144: below VWARN by the voltage of the level. -/
theorem belowVwarn_eq (l : SupplyLevel) (w : BitVec 2) :
    belowVwarn l w = decide (SupplyLevel.volts l < 300 - 10 * w.toNat) := by
  revert w; cases l <;> decide

/-- R144: below VFAIL by the voltage of the level. -/
theorem belowVfail_eq (l : SupplyLevel) : belowVfail l = decide (SupplyLevel.volts l < 255) := by cases l <;> decide

/-- R144: a supply below VFAIL is below every VWARN. -/
theorem belowVwarn_of_belowVfail {l : SupplyLevel} (w : BitVec 2) (h : belowVfail l = true) : belowVwarn l w = true := by
  revert h w; cases l <;> decide

/-- The two comparators' changes, in the order in which they come. -/
def State.judged (s : State) (w b : Bool) : State :=
  if b then (s.setBelowWarn w).setBelowFail true else (s.setBelowFail false).setBelowWarn w

theorem recompare_eq_judged (s : State) :
    s.recompare = s.judged (belowVwarn s.supply.level s.supply.warnLevel) (belowVfail s.supply.level) := rfl

/-- R145, R147: the timers that the changes leave. -/
theorem judged_timersFollow (s : State) (w b : Bool) (h : b = true → w = true) :
    s.supply.timersFollow w b (s.judged w b).supply.timers := by
  cases b <;> cases w <;> first | exact absurd (h rfl) (by decide) | skip
  all_goals
    cases hw : s.supply.belowWarn <;> cases hf : s.supply.belowFail
  all_goals
    simp [State.judged, State.setBelowFail, State.setBelowWarn, State.setSupply, hw, hf, SupplyUnit.timersFollow,
      Timer.follows, SupplyTimers.follow, followTimer, Config.belowWarnTime, Config.belowFailTime, Config.risingTime]

/-- R144, R147: everything else that the changes leave. -/
theorem judged_eq (s : State) (w b : Bool) (h : b = true → w = true) :
    let u := s.supply
    let glitch := (w != u.belowWarn && u.warnWatch) || (b != u.belowFail && u.failWatch)
    s.judged w b = { s with
      supply := { u with
        belowWarn := w, belowFail := b, timers := (s.judged w b).supply.timers
        warnWatch := if w = u.belowWarn then u.warnWatch else if w then u.state == .normal else u.state != .normal
        failWatch := if b = u.belowFail then u.failWatch else if b then u.state != .fail else u.state == .fail
        latches := { u.latches with glitch := u.latches.glitch || glitch } }
      faults := if glitch && !u.latches.glitch then (s.raise .inhibit).faults else s.faults } := by
  rcases s with ⟨-, -, -, -, -, -, -, -, -, ⟨-, -, w', b', -, ww, fw, -, -, -, -, -, -, ⟨-, -, -, -, -, g⟩⟩,
    ⟨-, -, -, mask, visible, -⟩, -, -, -, -⟩
  by_cases hc : mask &&& EventKind.inhibit.bit = 0#9 ∨ visible = true <;>
    cases b <;> cases w <;> first | exact absurd (h rfl) (by decide) | skip
  all_goals cases w' <;> cases b' <;> cases ww <;> cases fw <;> cases g
  all_goals
    simp [State.judged, State.setBelowFail, State.setBelowWarn, State.glitchIf, State.setSupply, State.setLatch,
      State.setLatches, Latches.get, Latches.set, State.raise, State.setEvents, hc]

/-- R144, R145, R147: what fresh comparisons leave. -/
theorem recompare_compared (s : State) : ∃ t : SupplyTimers,
    s.recompare = s.compared s.supply.level s.supply.warnLevel t ∧
      s.supply.timersFollow (decide (SupplyLevel.volts s.supply.level < 300 - 10 * s.supply.warnLevel.toNat))
        (decide (SupplyLevel.volts s.supply.level < 255)) t := by
  have h := belowVwarn_of_belowVfail (l := s.supply.level) s.supply.warnLevel
  refine ⟨s.recompare.supply.timers, ?_, ?_⟩
  · have e := judged_eq s _ _ h
    rw [← recompare_eq_judged] at e
    simp only [State.compared, ← belowVwarn_eq, ← belowVfail_eq]
    exact e
  · rw [← belowVwarn_eq, ← belowVfail_eq]
    exact judged_timersFollow s _ _ h

/-! ### Moves of the supply state -/

namespace State

/-- R152: setting a latch changes the latches, and raises INHIBIT where it was clear. -/
theorem setLatch_eq (k : InhibitSource) (s : State) : s.setLatch k = { s with
    supply := (s.setLatch k).supply
    faults := if s.supply.latches.get k then s.faults else (s.raise .inhibit).faults } := by
  by_cases h : s.supply.latches.get k = true
  · simp only [setLatch, h, if_true]
  · have hr : (s.setLatches (s.supply.latches.set k true)).raise .inhibit = { s with
        supply := { s.supply with latches := s.supply.latches.set k true }, faults := (s.raise .inhibit).faults } := by
      rw [raise_eq, show ∀ l, ((s.setLatches l).raise .inhibit).faults = (s.raise .inhibit).faults from
        fun l => raise_faults_congr (s := s) (t := s.setLatches l) rfl _]
      rfl
    simp only [setLatch, if_neg h, hr]

/-- R148, R152: entering a supply state changes the supply unit, and raises INHIBIT where a latch of WARN or FAIL goes from clear
to set. -/
theorem enterSupply_eq (st : SupplyState) (s : State) : s.enterSupply st = { s with
    supply := (s.enterSupply st).supply
    faults := match st with
      | .normal => s.faults
      | .warn => if s.supply.latches.warn then s.faults else (s.raise .inhibit).faults
      | .fail => if s.supply.latches.fail then s.faults else (s.raise .inhibit).faults } := by
  have hr : ∀ u, ((s.setSupply u).raise .inhibit).faults = (s.raise .inhibit).faults := fun u =>
    raise_faults_congr (s := s) (t := s.setSupply u) rfl _
  cases st with
  | normal => rfl
  | warn =>
    simp only [enterSupply]
    rw [setLatch_eq, hr]
    rfl
  | fail =>
    simp only [enterSupply]
    rw [setLatch_eq, hr]
    rfl

@[simp] theorem enterSupply_supply_state (st : SupplyState) (s : State) : (s.enterSupply st).supply.state = st := by
  cases st <;> simp [enterSupply, setSupply]

/-- R120, R145: a move to FAIL lets nothing else happen. -/
theorem moveSupply_to_fail (s : State) : s.moveSupply .fail = s.enterSupply .fail := by
  have h : (s.enterSupply .fail).endWaitIfNormal = s.enterSupply .fail := if_neg (by simp)
  simp only [moveSupply, h]
  rw [if_neg (by simp)]
  exact settle_of_fail (by simp)

/-- R48, R145: a move between NORMAL and WARN that ends no SUPPLY_WAIT, while the port carries an operation and a drain is in
progress, lets nothing else happen. -/
theorem moveSupply_of_busyPort {s : State} {st : SupplyState} (h : s.busyPort) (hf : s.supply.state ≠ .fail)
    (hw : s.startup.phase = .supplyWait → st ≠ .normal) : s.moveSupply st = s.enterSupply st := by
  have h1 : (s.enterSupply st).startup = s.startup := by rw [enterSupply_eq]
  have h2 : (s.enterSupply st).endWaitIfNormal = s.enterSupply st :=
    if_neg (by rw [h1, enterSupply_supply_state]; exact fun ⟨a, b⟩ => hw a b)
  simp only [moveSupply, h2]
  rw [if_neg (fun a => hf a.1)]
  exact settle_of_busyPort (by rw [enterSupply_eq]; exact h)

end State

end Sys2Proof.Machine
end

