-- ==== Sys2Proof/Laws/Work.lean ====
section
/-! SUPPORT. The laws of the work that stands (`State.workLaw`): what they need of a state, which changes of it do not matter to
them, and how a smaller write order keeps them. -/

namespace Sys2Proof.Machine

/-- An element of a table or a buffer after one was set. -/
theorem get_set {α : Type} {n : Nat} (v : Vector α n) (p q : Fin n) (x : α) : (v.set p x)[q] = if p = q then x else v[q] := by
  rw [Fin.getElem_fin, Vector.getElem_set]
  by_cases h : p = q
  · rw [if_pos h, if_pos (by rw [h])]
  · rw [if_neg h, if_neg (fun h' => h (Fin.ext h'))]; rfl

namespace State

/-- The laws of the work with what they need of the order and the queue. -/
structure Lawful (s : State) : Prop where
  order : s.orderLaw
  one : s.queue.countP QueueEntry.isMarker ≤ 1
  marks : (∃ m, QueueEntry.marker m ∈ s.queue) ↔ s.mgmt.longCmd = some .closeEpoch
  init : ∀ op, s.port.op = some op → op.owner = .initHeader → s.mgmt.longCmd = some .initJournal
  work : s.workLaw

/-- What the laws of the work look at, but for the operation in flight. -/
abbrev parts (s : State) := (s.queue, s.engine.table, s.engine.slots, s.engine.prefetch, s.drain, s.nextPos, s.journal, s.startup, s.mgmt.longCmd)

/-- What they look at of the operation in flight. -/
abbrev inFlight (s : State) : Option (Owner × Nat) := s.port.op.map fun o => (o.owner, o.line)

/-- A change of nothing that the laws look at but the operation in flight. -/
theorem Lawful.of_parts {s t : State} (h : s.Lawful) (hp : t.parts = s.parts)
    (hi : ∀ op, t.port.op = some op → op.owner = .initHeader → s.mgmt.longCmd = some .initJournal)
    (hf : ∀ (i : Fin 8) (l : Nat) (st : Bool) (o : Option (Fin 4)), s.engine.slots[i] = .filling l st o →
      ∃ op, t.port.op = some op ∧ op.line = l ∧ op.owner = if o = none then .prefetch else .demandFill) : t.Lawful := by
  simp only [parts, Prod.mk.injEq] at hp
  obtain ⟨h1, h2, h3, h4, h5, h6, h7, h8, h9⟩ := hp
  have hw : ∀ b, t.writeStands b ↔ s.writeStands b := fun b => by simp only [writeStands, delays, h1, h2, h5]
  have hb : ∀ i, t.itemBody i = s.itemBody i := fun i => by cases i <;> simp only [itemBody, h1, h2]
  have hn : ∀ n i, t.standsAt n i ↔ s.standsAt n i := fun n i => by cases i <;> simp only [standsAt, delays, h1, h2]
  obtain ⟨o, e, f, p, c, k⟩ := h.work
  refine ⟨by simpa only [orderLaw, h1, h2, h6] using h.order, by simpa only [h1] using h.one,
    by simpa only [h1, h9] using h.marks, by simpa only [h9] using hi,
    ⟨by simpa only [drainsOldest, delays, hn, h1, h2, h5, h6] using o, ?_, ?_, ?_, ?_, ?_⟩⟩
  · obtain ⟨e1, e2, e3, e4, e5, -, e7⟩ := e
    refine ⟨?_, ?_, ?_, ?_, ?_, ?_, ?_⟩ <;> simp only [h2, h3, h5] <;> assumption
  · obtain ⟨f1, f2, f3, f4⟩ := f
    refine ⟨?_, ?_, ?_, ?_⟩ <;> simp only [hw, h2, h3, h4] <;> assumption
  · obtain ⟨p1, p2, p3, p4, p5, p6, p7, p8⟩ := p
    refine ⟨?_, ?_, ?_, ?_, ?_, ?_, ?_, ?_⟩ <;> simp only [hw, h1, h5, h7, h8, h9] <;> assumption
  · obtain ⟨c1, c2, c3, c4, c5, c6, c7, c8, c9⟩ := c
    refine ⟨?_, ?_, ?_, ?_, ?_, ?_, ?_, ?_, ?_⟩ <;> simp only [hw, hb, h1, h5, h7] <;> assumption
  · simpa only [capacityLaw, held, h1, h2, h5, h7] using k

/-- A change of nothing that the laws look at. -/
theorem Lawful.congr {s t : State} (h : s.Lawful) (hp : t.parts = s.parts) (ho : t.inFlight = s.inFlight) : t.Lawful := by
  simp only [inFlight] at ho
  refine h.of_parts hp (fun op hop hi => ?_) fun i l st o hs => ?_
  · rw [hop] at ho
    cases hs : s.port.op with
    | none => rw [hs] at ho; cases ho
    | some op' =>
      simp only [hs, Option.map_some, Option.some.injEq, Prod.mk.injEq] at ho
      exact h.init op' hs (ho.1 ▸ hi)
  · obtain ⟨op', hs', h1, h2⟩ := h.work.entry.fills i l st o hs
    rw [hs'] at ho
    cases ht : t.port.op with
    | none => rw [ht] at ho; cases ho
    | some op =>
      simp only [ht, Option.map_some, Option.some.injEq, Prod.mk.injEq] at ho
      exact ⟨op, rfl, ho.2.trans h1, ho.1.trans h2⟩

/-! ### Pieces -/

theorem writeStands_congr {s t : State} (hq : t.queue = s.queue) (ht : t.engine.table = s.engine.table)
    (hd : t.drain = s.drain) (b : Body) : t.writeStands b ↔ s.writeStands b := by
  simp only [writeStands, delays, hq, ht, hd]

theorem itemBody_congr {s t : State} (hq : t.queue = s.queue) (ht : t.engine.table = s.engine.table) (i : DrainItem) :
    t.itemBody i = s.itemBody i := by
  cases i <;> simp only [itemBody, hq, ht]

theorem held_congr {s t : State} (hq : t.queue = s.queue) (ht : t.engine.table = s.engine.table) (hd : t.drain = s.drain)
    (hj : t.journal.lineSet = s.journal.lineSet) : t.held = s.held := by
  simp only [held, hq, ht, hd, hj]

/-- The write work and the engine stay, and what the journal, start-up and the long command become is lawful. -/
theorem Lawful.of_same_work {s t : State} (h : s.Lawful)
    (hw : (t.queue, t.engine.table, t.engine.slots, t.engine.prefetch, t.drain, t.nextPos) =
      (s.queue, s.engine.table, s.engine.slots, s.engine.prefetch, s.drain, s.nextPos))
    (hm : (∃ m, QueueEntry.marker m ∈ s.queue) ↔ t.mgmt.longCmd = some .closeEpoch)
    (hi : ∀ op, t.port.op = some op → op.owner = .initHeader → t.mgmt.longCmd = some .initJournal)
    (ho : t.inFlight = s.inFlight) (phase : t.phaseLaw) (cover : t.coverLaw) (cap : t.capacityLaw) : t.Lawful := by
  simp only [Prod.mk.injEq] at hw
  obtain ⟨h1, h2, h3, h4, h5, h6⟩ := hw
  have hs := writeStands_congr h1 h2 h5
  have hn : ∀ n i, t.standsAt n i ↔ s.standsAt n i := fun n i => by cases i <;> simp only [standsAt, delays, h1, h2]
  obtain ⟨o, e, f, -, -, -⟩ := h.work
  refine ⟨by simpa only [orderLaw, h1, h2, h6] using h.order, by simpa only [h1] using h.one, by simpa only [h1] using hm, hi,
    ⟨by simpa only [drainsOldest, delays, hn, h1, h2, h5, h6] using o, ?_, ?_, phase, cover, cap⟩⟩
  · obtain ⟨e1, e2, e3, e4, e5, e6, e7⟩ := e
    refine ⟨?_, ?_, ?_, ?_, ?_, ?_, ?_⟩ <;> simp only [h2, h3, h5] <;> try assumption
    intro i l st o' hs'
    obtain ⟨op', hop, h7, h8⟩ := e6 i l st o' hs'
    simp only [inFlight, hop] at ho
    cases ht : t.port.op with
    | none => rw [ht] at ho; cases ho
    | some op =>
      simp only [ht, Option.map_some, Option.some.injEq, Prod.mk.injEq] at ho
      exact ⟨op, rfl, ho.2.trans h7, ho.1.trans h8⟩
  · obtain ⟨f1, f2, f3, f4⟩ := f
    refine ⟨?_, ?_, ?_, ?_⟩ <;> simp only [hs, h2, h3, h4] <;> assumption

/-- R38: the item is the head: it stands at position n, every other item at a greater one, and no other item drains. -/
structure Heads (s : State) (n : Nat) (item : DrainItem) : Prop where
  stands : s.standsAt n item
  given : n < s.nextPos
  queue : ∀ x ∈ s.queue, n < x.pos ∨ (x.pos = n ∧ (item = .postedWrite ∨ item = .closeMarker))
  table : ∀ p e, s.delays p e → n < e.body.pos ∨ item = .delayedWrite p
  drain : ∀ d, s.drain = some d → d.item = item

theorem Lawful.heads_of_drain {s : State} (h : s.Lawful) {d : Drain} (hd : s.drain = some d) : ∃ n, s.Heads n d.item := by
  obtain ⟨n, h1, h2, h3, h4⟩ := h.work.oldest d hd
  exact ⟨n, h1, h2, h3, h4, fun d' hd' => by rw [hd] at hd'; cases hd'; rfl⟩

theorem Lawful.heads_of_headItem {s : State} (h : s.Lawful) (hd : s.drain = none) {item : DrainItem}
    (hi : s.headItem = some item) : ∃ n, s.Heads n item := by
  obtain ⟨n, h1, h2, h3, h4⟩ := headItem_oldest h.order hi
  exact ⟨n, h1, h2, h3, h4, fun d' hd' => by rw [hd] at hd'; cases hd'⟩

/-- A write that stands is the head's, or stands behind it. -/
theorem Heads.cases {s : State} {n : Nat} {item : DrainItem} (hh : s.Heads n item) (ho : s.orderLaw) {b : Body}
    (hb : s.writeStands b) : s.itemBody item = some b ∨ n < b.pos := by
  obtain ⟨h1, h2, h3, h4, h5⟩ := hh
  have first : ∀ x rest, s.queue = x :: rest → ∀ y ∈ rest, x.pos < y.pos := by
    intro x rest hq y hy
    have := ho.1
    rw [hq] at this
    simp only [List.map_cons, List.pairwise_cons, List.mem_map, forall_exists_index, and_imp, forall_apply_eq_imp_iff₂] at this
    exact this.1 y hy
  rcases hb with hb | ⟨p, e, he, rfl⟩ | ⟨d, hd, hr⟩
  · rcases h3 _ hb with h | ⟨h, rfl | rfl⟩
    · exact .inr h
    · obtain ⟨b', rest, hq, rfl⟩ := h1
      rw [hq] at hb
      rcases List.mem_cons.mp hb with hb | hb
      · cases hb; exact .inl (by simp [itemBody, hq, QueueEntry.body])
      · exact .inr (first _ _ hq _ hb)
    · obtain ⟨rest, hq⟩ := h1
      rw [hq] at hb
      rcases List.mem_cons.mp hb with hb | hb
      · cases hb
      · exact .inr (first _ _ hq _ hb)
  · rcases h4 p e he with h | rfl
    · exact .inr h
    · exact .inl (by simp only [itemBody, he.1, Option.map_some])
  · rw [← h5 d hd, hr]
    exact .inl rfl

theorem Lawful.pos_lt {s : State} (h : s.Lawful) {b : Body} (hb : s.writeStands b) : b.pos < s.nextPos := by
  rcases hb with hb | ⟨p, e, he, rfl⟩ | ⟨d, hd, hr⟩
  · exact h.order.2.1 _ hb
  · exact (h.order.2.2.1 p e he.1).1
  · obtain ⟨n, h1, h2, -⟩ := h.work.oldest d hd
    rw [hr] at h1
    exact h1 ▸ h2

/-- The writes that stand are fewer, and what is left of the reads and the buffer is as it was. -/
theorem freshLaw_of_fewer {s t : State} (f : s.freshLaw) (hs : ∀ b, t.writeStands b → s.writeStands b)
    (hr : ∀ (p : Fin 4) (e : DelayedEntry), t.engine.table[p] = some e → e.kind = .read → s.engine.table[p] = some e)
    (hl : t.engine.slots = s.engine.slots) (hp : t.engine.prefetch = s.engine.prefetch) : t.freshLaw := by
  obtain ⟨f1, f2, f3, f4⟩ := f
  refine ⟨?_, ?_, ?_, ?_⟩ <;> try simp only [hl, hp]
  · exact fun b p e hb he hk => f1 b p e (hs b hb) (hr p e he hk) hk
  · exact fun b i hb => f2 b i (hs b hb)
  · exact fun b hb => f3 b (hs b hb)
  · exact fun b p e hb he hk => f4 b p e (hs b hb) (hr p e he hk) hk

/-- The head leaves the write order, and no drain is in progress. -/
theorem Lawful.of_fewer {s t : State} (h : s.Lawful)
    (hq : t.queue = s.queue ∨ ∃ x, s.queue = x :: t.queue)
    (ht : ∀ (p : Fin 4) (e : DelayedEntry), t.engine.table[p] = some e →
      ∃ e', s.engine.table[p] = some e' ∧ e.body = e'.body ∧ (e.kind = .read → e = e'))
    (hw : (t.engine.slots, t.engine.prefetch, t.nextPos, t.journal, t.startup) =
      (s.engine.slots, s.engine.prefetch, s.nextPos, s.journal, s.startup))
    (hl : t.mgmt.longCmd = s.mgmt.longCmd ∨ (t.mgmt.longCmd = none ∧ s.mgmt.longCmd = some .closeEpoch))
    (hm : (∃ m, QueueEntry.marker m ∈ t.queue) ↔ t.mgmt.longCmd = some .closeEpoch)
    (ho : t.port.op = s.port.op) (hd : t.drain = none) (he : t.entryLaw)
    (hs : ∀ b, t.writeStands b → s.writeStands b ∧ b.recorded = false) (hh : t.held ≤ s.held) : t.Lawful := by
  simp only [Prod.mk.injEq] at hw
  obtain ⟨h1, h2, h3, h4, h5⟩ := hw
  obtain ⟨o, -, f, p, c, k⟩ := h.work
  have sub : t.queue.Sublist s.queue := by
    rcases hq with hq | ⟨x, hq⟩
    · rw [hq]
    · rw [hq]; exact List.sublist_cons_self _ _
  have mem : ∀ x ∈ t.queue, x ∈ s.queue := fun x hx => sub.subset hx
  obtain ⟨o1, o2, o3, o4⟩ := h.order
  refine ⟨⟨o1.sublist (sub.map _), fun x hx => h3 ▸ o2 x (mem x hx), fun p e he' => ?_, fun p q e e' hp hq' hpq => ?_⟩,
    (sub.countP_le).trans h.one, hm, fun op hop hi => ?_, ⟨fun d hd' => ?_, he, ?_, ?_, ?_, ?_⟩⟩
  · obtain ⟨e', he1, he2, -⟩ := ht p e he'
    rw [h3, he2]
    exact ⟨(o3 p e' he1).1, fun x hx => (o3 p e' he1).2 x (mem x hx)⟩
  · obtain ⟨f1, hf1, hf2, -⟩ := ht p e hp
    obtain ⟨f2, hf3, hf4, -⟩ := ht q e' hq'
    rw [hf2, hf4]
    exact o4 p q f1 f2 hf1 hf3 hpq
  · have := h.init op (ho ▸ hop) hi
    rcases hl with hl | ⟨-, hl⟩
    · rw [hl, this]
    · rw [this] at hl; cases hl
  · rw [hd] at hd'; cases hd'
  · refine freshLaw_of_fewer f (fun b hb => (hs b hb).1) (fun p e he' hk => ?_) h1 h2
    obtain ⟨e', h6, -, h7⟩ := ht p e he'
    rw [h7 hk, h6]
  · obtain ⟨p1, p2, p3, p4, p5, p6, p7, p8⟩ := p
    refine ⟨?_, ?_, ?_, ?_, ?_, ?_, ?_, ?_⟩ <;> (try simp only [h4, h5]) <;> try assumption
    · intro hc
      obtain ⟨q1, -, q2⟩ := p1 hc
      refine ⟨?_, hd, fun b hb => q2 b (hs b hb).1⟩
      rw [q1] at sub
      exact List.sublist_nil.mp sub
    · intro hc
      rcases hl with hl | ⟨hl, -⟩
      · exact ⟨(p8 (hl ▸ hc)).1, hd⟩
      · rw [hl] at hc; cases hc
  · obtain ⟨c1, c2, c3, c4, c5, c6, c7, c8, c9⟩ := c
    refine ⟨?_, ?_, ?_, ?_, ?_, ?_, ?_, ?_, ?_⟩ <;> try simp only [h4]
    · exact fun m hm => ⟨(c1 m (mem _ hm)).1, fun b hb => (c1 m (mem _ hm)).2 b (hs b hb).1⟩
    · exact fun b hb => c2 b (hs b hb).1
    · exact c3
    · exact c4
    · exact fun b hb => c5 b (hs b hb).1
    · exact fun b hb => c6 b (hs b hb).1
    · intro b hb hr
      rw [(hs b hb).2] at hr; cases hr
    · intro d hd'; rw [hd] at hd'; cases hd'
    · intro d hd'; rw [hd] at hd'; cases hd'
  · simp only [capacityLaw, h4] at k ⊢
    omega

/-- Write entries change; reads, slots and the operation in flight stay. -/
theorem entryLaw_of_writes {s t : State} (h : s.entryLaw) (hl : t.engine.slots = s.engine.slots) (ho : t.port.op = s.port.op)
    (ht : ∀ (p : Fin 4) (e : DelayedEntry), t.engine.table[p] = some e → s.engine.table[p] = some e ∨
      (e.kind = .write ∧ e.slot = none ∧ (e.timer.isSome = true ↔ ∃ r, e.state = .complete r)))
    (hr : ∀ (p : Fin 4) (e : DelayedEntry), s.engine.table[p] = some e → e.kind = .read → t.engine.table[p] = some e)
    (hd : ∀ (p : Fin 4) (e : DelayedEntry), t.engine.table[p] = some e → e.kind = .write →
      (e.state = .issued ↔ ∃ d, t.drain = some d ∧ d.item = .delayedWrite p)) : t.entryLaw := by
  obtain ⟨e1, e2, e3, e4, e5, e6, e7⟩ := h
  refine ⟨?_, hd, ?_, ?_, ?_, by rw [hl, ho]; exact e6, by rw [hl]; exact e7⟩
  · intro p e he
    rcases ht p e he with h | ⟨-, -, h⟩
    · exact e1 p e h
    · exact h
  · intro p e i he hs
    rw [hl]
    rcases ht p e he with h | ⟨-, h, -⟩
    · exact e3 p e i h hs
    · rw [h] at hs; cases hs
  · intro p e he hk hs
    rcases ht p e he with h | ⟨h, -⟩
    · exact e4 p e h hk hs
    · rw [hk] at h; cases h
  · intro i p h
    rw [hl] at h
    obtain ⟨e, he, hs⟩ := e5 i p h
    exact ⟨e, hr p e he (e3 p e i he hs).1, hs⟩

theorem countP_le_of_imp {α : Type} {p q : α → Bool} {l : List α} (h : ∀ x ∈ l, p x = true → q x = true) :
    l.countP p ≤ l.countP q := List.countP_mono_left h

/-- R87: what a fewer or less own write order holds. -/
theorem held_le {s t : State} (hq : t.queue.Sublist s.queue)
    (ht : ∀ p e, t.delays p e → e.body.countsOwn = true → ∃ e', s.delays p e' ∧ e'.body.countsOwn = true)
    (hd : ∀ d b, t.drain = some d → d.item = .removed b → ∃ d', s.drain = some d' ∧ d'.item = .removed b)
    (hj : t.journal.lineSet = s.journal.lineSet) : t.held ≤ s.held := by
  simp only [held, hj]
  refine Nat.add_le_add (Nat.add_le_add (Nat.add_le_add le_rfl (hq.countP_le)) ?_) ?_
  · refine countP_le_of_imp fun p _ hp => ?_
    cases he : t.engine.table[p] with
    | none => rw [he] at hp; cases hp
    | some e =>
      simp only [he, Option.any_some, DelayedEntry.countsOwn, Bool.and_eq_true, decide_eq_true_eq] at hp
      obtain ⟨e', ⟨h1, h2⟩, h3⟩ := ht p e ⟨he, hp.1⟩ hp.2
      simp only [h1, h2, h3, Option.any_some, DelayedEntry.countsOwn, and_self, decide_true, Bool.and_true]
  · by_cases hc : t.drain.any Drain.countsOwn = true
    · obtain ⟨d, hdt, hc'⟩ : ∃ d, t.drain = some d ∧ d.countsOwn = true := by
        cases hd' : t.drain with
        | none => rw [hd'] at hc; cases hc
        | some d => rw [hd'] at hc; exact ⟨d, rfl, hc⟩
      cases hi : d.item with
      | removed b =>
        obtain ⟨d', h1, h2⟩ := hd d b hdt hi
        simp only [Drain.countsOwn, hi] at hc'
        have : s.drain.any Drain.countsOwn = true := by simp only [h1, Option.any_some, Drain.countsOwn, h2, hc']
        rw [if_pos this]
        split <;> omega
      | postedWrite => simp [Drain.countsOwn, hi] at hc'
      | closeMarker => simp [Drain.countsOwn, hi] at hc'
      | delayedWrite p => simp [Drain.countsOwn, hi] at hc'
    · rw [if_neg hc]; exact Nat.zero_le _

/-- R60: an ISSUED write is the one in its drain. -/
theorem Lawful.not_issued {s : State} (h : s.Lawful) {p : Fin 4} {e : DelayedEntry} (he : s.engine.table[p] = some e)
    (hk : e.kind = .write) (hd : ∀ d, s.drain = some d → d.item ≠ .delayedWrite p) : e.state ≠ .issued := by
  intro hs
  obtain ⟨d, h1, h2⟩ := (h.work.entry.drains p e he hk).mp hs
  exact hd d h1 h2

/-- R87: no record of a write but the head's has completed. -/
theorem Lawful.not_recorded {s : State} (h : s.Lawful) {n : Nat} {item : DrainItem} (hh : s.Heads n item) {b : Body}
    (hb : s.writeStands b) (hne : n < b.pos) : b.recorded = false := by
  cases hr : b.recorded with
  | false => rfl
  | true =>
    obtain ⟨d, h1, -, h2⟩ := h.work.cover.recorded b hb hr
    rw [hh.drain d h1] at h2
    have hp := hh.stands
    cases item with
    | postedWrite =>
      obtain ⟨b', rest, hq, hpos⟩ := hp
      simp only [itemBody, hq, List.head?_cons, Option.bind_some, QueueEntry.body, Option.some.injEq] at h2
      rw [h2] at hpos; omega
    | closeMarker => cases h2
    | delayedWrite p =>
      obtain ⟨e, he, hpos⟩ := hp
      simp only [itemBody, he.1, Option.map_some, Option.some.injEq] at h2
      rw [h2] at hpos; omega
    | removed b' =>
      simp only [itemBody, Option.some.injEq] at h2
      simp only [standsAt, h2] at hp; omega

/-- R42 to R46, R61: the head leaves the write order. -/
theorem Lawful.leave {s : State} (h : s.Lawful) {n : Nat} {item : DrainItem} (hh : s.Heads n item) (hi : item ≠ .closeMarker)
    (code : RegionCode) (r : EntryResult) : (s.leave item code r).Lawful := by
  have hp := hh.stands
  cases item with
  | closeMarker => exact absurd rfl hi
  | postedWrite =>
    obtain ⟨b, rest, hq, rfl⟩ := hp
    have hb : s.itemBody .postedWrite = some b := by simp [itemBody, hq, QueueEntry.body]
    have he : s.leave .postedWrite code r = (s.popQueue.setDrain none).report b.cls.region code := by
      simp only [State.leave, hb]
    have hq' : (s.leave .postedWrite code r).queue = rest := by rw [he]; simp [popQueue, setDrain, hq]
    have hpw : ∀ x ∈ rest, b.pos < x.pos := by
      have := h.order.1
      rw [hq] at this
      simp only [List.map_cons, List.pairwise_cons, List.mem_map, forall_exists_index, and_imp, forall_apply_eq_imp_iff₂] at this
      exact this.1
    have hst : ∀ b', (s.leave .postedWrite code r).writeStands b' → s.writeStands b' ∧ b.pos < b'.pos := by
      intro b' hb'
      rcases hb' with hb' | ⟨p, e, hd, rfl⟩ | ⟨d, hd, -⟩
      · rw [hq'] at hb'
        exact ⟨.inl (by rw [hq]; exact List.mem_cons_of_mem _ hb'), hpw _ hb'⟩
      · have hd' : s.delays p e := by rw [he] at hd; simpa [delays] using hd
        exact ⟨.inr (.inl ⟨p, e, hd', rfl⟩), (hh.table p e hd').resolve_right (by simp)⟩
      · rw [he] at hd; simp at hd
    refine h.of_fewer (.inr ⟨_, by rw [hq', hq]⟩) (fun p e hp => ⟨e, by rw [he] at hp; simpa using hp, rfl, fun _ => rfl⟩)
      (by rw [he]; simp) (.inl (by rw [he]; simp)) ?_ (by rw [he]; simp) (by rw [he]; simp) ?_
      (fun b' hb' => ⟨(hst b' hb').1, h.not_recorded hh (hst b' hb').1 (hst b' hb').2⟩) ?_
    · have := h.marks
      rw [hq] at this
      rw [hq', he]
      simpa using this
    · refine entryLaw_of_writes h.work.entry (by rw [he]; simp) (by rw [he]; simp) (fun p e hp => .inl ?_) (fun p e hp _ => ?_)
        fun p e hp hk => ?_
      · rw [he] at hp; simpa using hp
      · rw [he]; simpa using hp
      · have hp' : s.engine.table[p] = some e := by rw [he] at hp; simpa using hp
        have := h.not_issued hp' hk (fun d hd => by rw [hh.drain d hd]; simp)
        rw [he]; simp [this]
    · refine held_le (by rw [hq', hq]; exact List.sublist_cons_self _ _) (fun p e hd hc => ⟨e, ?_, hc⟩) (fun d b' hd => ?_)
        (by rw [he]; simp)
      · rw [he] at hd; simpa [delays] using hd
      · rw [he] at hd; simp at hd
  | delayedWrite p =>
    obtain ⟨e, hd, rfl⟩ := hp
    have he : s.leave (.delayedWrite p) code r = ((s.completeEntry p e r none).setDrain none).report e.body.cls.region code := by
      simp only [State.leave, hd.1]
    set f : DelayedEntry := { e with state := .complete r, slot := none, timer := some s.engine.claimTime } with hf
    have ht : (s.leave (.delayedWrite p) code r).engine.table = s.engine.table.set p (some f) := by
      rw [he]; simp [completeEntry, setEntry, hf]
    have hget : ∀ (q : Fin 4) (g : DelayedEntry), (s.leave (.delayedWrite p) code r).engine.table[q] = some g →
        (p ≠ q ∧ s.engine.table[q] = some g) ∨ (p = q ∧ g = f) := by
      intro q g hg
      rw [ht, get_set] at hg
      split at hg
      · exact .inr ⟨by assumption, (Option.some.inj hg).symm⟩
      · exact .inl ⟨by assumption, hg⟩
    have hdel : ∀ q g, (s.leave (.delayedWrite p) code r).delays q g → s.delays q g ∧ p ≠ q := by
      rintro q g ⟨h1, h2, h3⟩
      rcases hget q g h1 with ⟨h4, h5⟩ | ⟨-, rfl⟩
      · exact ⟨⟨h5, h2, h3⟩, h4⟩
      · simp [hf] at h3
    have hst : ∀ b', (s.leave (.delayedWrite p) code r).writeStands b' → s.writeStands b' ∧ e.body.pos < b'.pos := by
      intro b' hb'
      rcases hb' with hb' | ⟨q, g, hd', rfl⟩ | ⟨d, hd', -⟩
      · have hb'' : .write b' ∈ s.queue := by rw [he] at hb'; simpa using hb'
        exact ⟨.inl hb'', (hh.queue _ hb'').resolve_right (by simp)⟩
      · obtain ⟨h1, h2⟩ := hdel q g hd'
        exact ⟨.inr (.inl ⟨q, g, h1, rfl⟩), (hh.table q g h1).resolve_right (by simpa using h2)⟩
      · rw [he] at hd'; simp at hd'
    refine h.of_fewer (.inl (by rw [he]; simp)) (fun q g hg => ?_)
      (by rw [he]; simp [completeEntry, setEntry]) (.inl (by rw [he]; simp)) ?_ (by rw [he]; simp) (by rw [he]; simp) ?_
      (fun b' hb' => ⟨(hst b' hb').1, h.not_recorded hh (hst b' hb').1 (hst b' hb').2⟩) ?_
    · rcases hget q g hg with ⟨-, h5⟩ | ⟨rfl, rfl⟩
      · exact ⟨g, h5, rfl, fun _ => rfl⟩
      · exact ⟨e, hd.1, rfl, fun hk => by rw [hf] at hk; rw [hd.2.1] at hk; cases hk⟩
    · rw [he]; simpa using h.marks
    · refine entryLaw_of_writes h.work.entry (by rw [he]; simp [completeEntry, setEntry]) (by rw [he]; simp) (fun q g hg => ?_) (fun q g hg hk => ?_)
        fun q g hg hk => ?_
      · rcases hget q g hg with ⟨-, h5⟩ | ⟨-, rfl⟩
        · exact .inl h5
        · exact .inr ⟨hd.2.1, rfl, by simp [hf]⟩
      · rw [ht, get_set]
        by_cases hpq : p = q
        · subst hpq
          rw [hd.1] at hg
          cases hg
          rw [hd.2.1] at hk; cases hk
        · rw [if_neg hpq]; exact hg
      · have hn : (s.leave (.delayedWrite p) code r).drain = none := by rw [he]; simp
        rw [hn]
        refine ⟨fun hs => ?_, fun ⟨d, hd, _⟩ => by cases hd⟩
        rcases hget q g hg with ⟨h4, h5⟩ | ⟨-, rfl⟩
        · exact absurd hs (h.not_issued h5 hk (fun d hd => by rw [hh.drain d hd]; simpa using h4))
        · simp [hf] at hs
    · refine held_le (by rw [he]; simp) (fun q g hg hc => ⟨g, (hdel q g hg).1, hc⟩) (fun d b' hd => ?_) (by rw [he]; simp)
      rw [he] at hd; simp at hd
  | removed b =>
    have he : s.leave (.removed b) code r = s.setDrain none := rfl
    rw [he]
    have hst : ∀ b', (s.setDrain none).writeStands b' → s.writeStands b' ∧ n < b'.pos := by
      intro b' hb'
      rcases hb' with hb' | ⟨q, g, hd', rfl⟩ | ⟨d, hd', -⟩
      · exact ⟨.inl hb', (hh.queue _ hb').resolve_right (by simp)⟩
      · exact ⟨.inr (.inl ⟨q, g, hd', rfl⟩), (hh.table q g hd').resolve_right (by simp)⟩
      · cases hd'
    refine h.of_fewer (.inl rfl) (fun q g hg => ⟨g, hg, rfl, fun _ => rfl⟩) rfl (.inl rfl) h.marks rfl rfl ?_
      (fun b' hb' => ⟨(hst b' hb').1, h.not_recorded hh (hst b' hb').1 (hst b' hb').2⟩) ?_
    · refine entryLaw_of_writes h.work.entry rfl rfl (fun q g hg => .inl hg) (fun q g hg hk => hg) fun q g hg hk => ?_
      exact ⟨fun hs => absurd hs (h.not_issued hg hk (fun d hd => by rw [hh.drain d hd]; simp)), fun ⟨d, hd, _⟩ => by cases hd⟩
    · exact held_le (List.Sublist.refl _) (fun q g hg hc => ⟨g, hg, hc⟩) (fun d b' hd => by cases hd) rfl

end State

end Sys2Proof.Machine
end

