-- ==== Sys2Proof/Laws/WorkDrains.lean ====
section
/-! SUPPORT. The laws of the work that stands, over a drain: its beginning, its operations, its end, and what the journal becomes
with it. -/

namespace Sys2Proof.Machine.State

/-! ### The journal state -/

/-- A move of the journal state among ACTIVE, CLOSING and FAILED leaves start-up lawful. -/
theorem phaseLaw_of_state {s t : State} (p : s.phaseLaw)
    (hs : s.startup.portState = .starting → s.journal.state = .active ∨ s.journal.state = .closing ∨ s.journal.state = .failed)
    (hr : s.journal.state ≠ .rolling) (hst : t.startup = s.startup)
    (ht : t.journal.state = .active ∨ t.journal.state = .closing ∨ t.journal.state = .failed)
    (hq : s.startup.portState = .starting → t.queue = [] ∧ t.drain = none ∧ ∀ b, ¬ t.writeStands b)
    (hi : t.mgmt.longCmd = some .initJournal → t.journal.state = .closing ∧ t.drain = none) : t.phaseLaw := by
  obtain ⟨p1, p2, p3, p4, p5, p6, p7, p8⟩ := p
  have no : ∀ x, s.startup.portState = .starting → s.journal.state = x → x = .off ∨ x = .unknown → False := by
    rintro x h1 rfl h2
    rcases hs h1 with h | h | h <;> rw [h] at h2 <;> simp at h2
  have ns : ¬ s.startup.procedure.scans := fun h => no _ (p4 h).1 (p4 h).2 (.inr rfl)
  refine ⟨?_, ?_, ?_, ?_, ?_, ?_, ?_, hi⟩ <;> simp only [hst]
  · rintro (h | h)
    · exact hq h
    · rcases ht with h' | h' | h' <;> rw [h'] at h <;> cases h
  · exact fun h => absurd trivial (fun _ => no _ (p2 h).1 (p2 h).2.1 (.inl rfl))
  · refine fun h => absurd trivial (fun _ => no _ (p3 h).1 (p3 h).2 ?_)
    split
    · exact .inr rfl
    · exact .inl rfl
  · exact fun h => absurd h ns
  · rintro k (h | ⟨l, h⟩) <;> rw [h] at ns <;> exact absurd trivial ns
  · exact fun h => absurd (p6 h) hr
  · intro h
    rcases ht with h' | h' | h' <;> rw [h'] at h <;> cases h

/-- The journal state moves to ACTIVE, CLOSING or FAILED, and the write work stays. -/
theorem Lawful.of_state {s t : State} (h : s.Lawful) {st : JournalState}
    (hw : (t.queue, t.engine.table, t.engine.slots, t.engine.prefetch, t.drain, t.nextPos) =
      (s.queue, s.engine.table, s.engine.slots, s.engine.prefetch, s.drain, s.nextPos))
    (hj : t.journal = { s.journal with state := st }) (hst : st = .active ∨ st = .closing ∨ st = .failed)
    (ho : t.inFlight = s.inFlight) (hm : (∃ m, QueueEntry.marker m ∈ s.queue) ↔ t.mgmt.longCmd = some .closeEpoch)
    (hi : ∀ op, t.port.op = some op → op.owner = .initHeader → t.mgmt.longCmd = some .initJournal)
    (ha : st = .active → ∀ m, QueueEntry.marker m ∉ s.queue) (phase : t.phaseLaw) : t.Lawful := by
  have hw' := hw
  simp only [Prod.mk.injEq] at hw'
  obtain ⟨h1, h2, h3, h4, h5, h6⟩ := hw'
  have hs := writeStands_congr h1 h2 h5
  have hb := itemBody_congr h1 h2
  obtain ⟨c1, c2, c3, c4, c5, c6, c7, c8, c9⟩ := h.work.cover
  refine h.of_same_work hw hm hi ho phase ?_ ?_
  · refine ⟨?_, ?_, ?_, ?_, ?_, ?_, ?_, ?_, ?_⟩ <;> (try simp only [hs, hb, h1, h5, hj]) <;> try assumption
    · refine fun m hmm => ⟨?_, (c1 m hmm).2⟩
      rcases hst with rfl | h | h
      · exact absurd hmm (ha rfl m)
      · exact .inl h
      · exact .inr h
    · exact fun _ _ _ => hst
    · rintro (h | h | h) <;> rw [h] at hst <;> simp at hst
    · rintro (h | h) <;> rw [h] at hst <;> simp at hst
  · have hk := h.work.capacity
    have hh : t.held = s.held := held_congr h1 h2 h5 (by rw [hj])
    rw [capacityLaw, hh, hj]
    exact hk

/-- A write that stands keeps start-up from STARTING and the journal from ROLLING. -/
theorem Lawful.not_quiet {s : State} (h : s.Lawful) (hw : s.queue ≠ [] ∨ s.drain ≠ none ∨ ∃ b, s.writeStands b) :
    s.startup.portState ≠ .starting ∧ s.journal.state ≠ .rolling := by
  refine ⟨fun hc => ?_, fun hc => ?_⟩
  · obtain ⟨h1, h2, h3⟩ := h.work.phase.quiet (.inl hc)
    rcases hw with h' | h' | ⟨b, h'⟩
    · exact h' h1
    · exact h' h2
    · exact h3 b h'
  · obtain ⟨h1, h2, h3⟩ := h.work.phase.quiet (.inr hc)
    rcases hw with h' | h' | ⟨b, h'⟩
    · exact h' h1
    · exact h' h2
    · exact h3 b h'

/-- R94, R99: the journal becomes FAILED while a drain is in progress. -/
theorem Lawful.failed {s : State} (h : s.Lawful) (hd : s.drain ≠ none) : (s.setJournalState .failed).Lawful := by
  obtain ⟨h1, h2⟩ := h.not_quiet (.inr (.inl hd))
  refine h.of_state (st := .failed) (by simp) (setJournalState_journal _ _) (.inr (.inr rfl)) (by simp [inFlight])
    (by simpa using h.marks) (by simpa using h.init) (by simp)
    (phaseLaw_of_state h.work.phase (fun hc => absurd hc h1) h2 (by simp) (by simp [setJournalState_journal])
      (fun hc => absurd hc h1) fun hc => ?_)
  exact absurd (h.work.phase.init (by simpa using hc)).2 hd

/-! ### A beginning -/

/-- The item of a drain that has just begun. -/
theorem Heads.writeStands {s : State} {n : Nat} {item : DrainItem} (hh : s.Heads n item) (hd : ∀ b, item = .removed b → s.drain ≠ none)
    {b : Body} (hb : s.itemBody item = some b) : s.writeStands b := by
  have hp := hh.stands
  cases item with
  | postedWrite =>
    obtain ⟨b', rest, hq, -⟩ := hp
    simp only [itemBody, hq, List.head?_cons, Option.bind_some, QueueEntry.body, Option.some.injEq] at hb
    exact .inl (by rw [hq, hb]; exact List.mem_cons_self)
  | closeMarker => cases hb
  | delayedWrite p =>
    obtain ⟨e, he, -⟩ := hp
    simp only [itemBody, he.1, Option.map_some, Option.some.injEq] at hb
    exact .inr (.inl ⟨p, e, he, hb⟩)
  | removed b' =>
    obtain ⟨d, hd'⟩ := Option.ne_none_iff_exists'.mp (hd b' rfl)
    cases hb
    exact .inr (.inr ⟨d, hd', hh.drain d hd'⟩)

/-- R39, R60: the head begins its drain. -/
theorem Lawful.begun {s t : State} (h : s.Lawful) (hn : s.drain = none) {n : Nat} {d : Drain} (hh : s.Heads n d.item)
    (hl : s.mgmt.longCmd ≠ some .initJournal) (hr : ∀ b, d.item ≠ .removed b)
    (hw : (t.queue, t.engine.slots, t.engine.prefetch, t.nextPos, t.journal, t.startup, t.mgmt.longCmd, t.port) =
      (s.queue, s.engine.slots, s.engine.prefetch, s.nextPos, s.journal, s.startup, s.mgmt.longCmd, s.port))
    (hd : t.drain = some d)
    (ht : ∀ q : Fin 4, (t.engine.table[q] = s.engine.table[q] ∧ d.item ≠ .delayedWrite q) ∨
      (d.item = .delayedWrite q ∧ ∃ e, s.delays q e ∧ t.engine.table[q] = some { e with state := .issued }))
    (hc : d.stage = .closeHeader ↔ d.item = .closeMarker)
    (hs : d.stage = .beforeImage ∨ d.stage = .imageWrite ∨ d.stage = .recordHeader →
      ∃ b, s.itemBody d.item = some b ∧ b.cls.guarded = true ∧
        ((b.line, Mark.reserved) ∈ s.journal.lineSet ∨ (b.cls.reservation = .own ∧ b.recorded = false))) : t.Lawful := by
  simp only [Prod.mk.injEq] at hw
  obtain ⟨h1, h2, h3, h4, h5, h6, h7, h8⟩ := hw
  have entry : ∀ (q : Fin 4) (f : DelayedEntry), t.engine.table[q] = some f →
      ∃ e, s.engine.table[q] = some e ∧ f.body = e.body ∧ f.kind = e.kind ∧ (f = e ∧ d.item ≠ .delayedWrite q ∨
        (d.item = .delayedWrite q ∧ s.delays q e ∧ f = { e with state := .issued })) := by
    intro q f hf
    rcases ht q with ⟨h, hne⟩ | ⟨hi, e, he, h⟩
    · exact ⟨f, by rw [← h, hf], rfl, rfl, .inl ⟨rfl, hne⟩⟩
    · rw [h] at hf
      cases hf
      exact ⟨e, he.1, rfl, rfl, .inr ⟨hi, he, rfl⟩⟩
  have delays_of : ∀ q f, t.delays q f → ∃ e, s.delays q e ∧ f.body = e.body := by
    rintro q f ⟨hf, hk, hst⟩
    obtain ⟨e, he, hb, hk', h | ⟨-, h, -⟩⟩ := entry q f hf
    · obtain ⟨rfl, -⟩ := h
      exact ⟨f, ⟨he, hk, hst⟩, rfl⟩
    · exact ⟨e, h, hb⟩
  have delays_to : ∀ q e, s.delays q e → ∃ f, t.delays q f ∧ f.body = e.body := by
    rintro q e ⟨he, hk, hst⟩
    rcases ht q with ⟨h, -⟩ | ⟨-, e', he', h⟩
    · exact ⟨e, ⟨by rw [h, he], hk, hst⟩, rfl⟩
    · obtain ⟨h9, -, -⟩ := he'
      rw [he] at h9
      cases h9
      exact ⟨_, ⟨h, hk, .inr rfl⟩, rfl⟩
  have stands : ∀ b, t.writeStands b → s.writeStands b := by
    rintro b (hb | ⟨q, f, hf, rfl⟩ | ⟨d', hd', hi⟩)
    · exact .inl (h1 ▸ hb)
    · obtain ⟨e, he, hb⟩ := delays_of q f hf
      exact .inr (.inl ⟨q, e, he, hb.symm⟩)
    · rw [hd] at hd'
      cases hd'
      exact absurd hi (hr b)
  have body : t.itemBody d.item = s.itemBody d.item := by
    cases hi : d.item with
    | postedWrite => simp only [itemBody, h1]
    | closeMarker => rfl
    | removed b => rfl
    | delayedWrite p =>
      rcases ht p with ⟨h, -⟩ | ⟨-, e, he, h⟩
      · simp only [itemBody, h]
      · simp only [itemBody, h, he.1, Option.map_some]
  obtain ⟨nq1, nq2⟩ : s.startup.portState ≠ .starting ∧ s.journal.state ≠ .rolling := by
    refine h.not_quiet ?_
    have hp := hh.stands
    cases hi : d.item with
    | postedWrite => rw [hi] at hp; obtain ⟨b, rest, hq, -⟩ := hp; exact .inl (by rw [hq]; simp)
    | closeMarker => rw [hi] at hp; obtain ⟨rest, hq⟩ := hp; exact .inl (by rw [hq]; simp)
    | delayedWrite p => rw [hi] at hp; obtain ⟨e, he, -⟩ := hp; exact .inr (.inr ⟨_, .inr (.inl ⟨p, e, he, rfl⟩)⟩)
    | removed b => exact absurd hi (hr b)
  obtain ⟨o1, o2, o3, o4⟩ := h.order
  refine ⟨⟨by rwa [h1], by rwa [h1, h4], fun p f hf => ?_, fun p q f g hf hg hpq => ?_⟩, by rw [h1]; exact h.one,
    by rw [h1, h7]; exact h.marks, by rw [h7, h8]; exact h.init, ⟨fun d' hd' => ?_, ?_, ?_, ?_, ?_, ?_⟩⟩
  · obtain ⟨e, he, hb, -⟩ := entry p f hf
    rw [h1, h4, hb]
    exact o3 p e he
  · obtain ⟨e, he, hb, -⟩ := entry p f hf
    obtain ⟨e', he', hb', -⟩ := entry q g hg
    rw [hb, hb']
    exact o4 p q e e' he he' hpq
  · rw [hd] at hd'
    cases hd'
    refine ⟨n, ?_, h4 ▸ hh.given, by rw [h1]; exact hh.queue, fun p f hf => ?_⟩
    · have hp := hh.stands
      cases hi : d.item with
      | postedWrite => rw [hi] at hp; simpa only [standsAt, h1] using hp
      | closeMarker => rw [hi] at hp; simpa only [standsAt, h1] using hp
      | delayedWrite p =>
        rw [hi] at hp
        obtain ⟨e, he, hpos⟩ := hp
        obtain ⟨f, hf, hb⟩ := delays_to p e he
        exact ⟨f, hf, by rw [hb, hpos]⟩
      | removed b => exact absurd hi (hr b)
    · obtain ⟨e, he, hb⟩ := delays_of p f hf
      rw [hb]
      exact hh.table p e he
  · have timer : ∀ q e, s.delays q e → e.timer.isSome = false := by
      rintro q e ⟨he, -, hst⟩
      have := h.work.entry.timers q e he
      cases ht : e.timer.isSome with
      | false => rfl
      | true => obtain ⟨r, hr⟩ := this.mp ht; rw [hr] at hst; simp at hst
    have slot : ∀ q e, s.delays q e → e.slot = none := by
      rintro q e ⟨he, hk, -⟩
      cases hs : e.slot with
      | none => rfl
      | some i => have := (h.work.entry.slots q e i he hs).1; rw [hk] at this; cases this
    refine entryLaw_of_writes h.work.entry h2 (by rw [h8]) (fun q f hf => ?_) (fun q e he hk => ?_) fun q f hf hk => ?_
    · obtain ⟨e, he, -, -, ⟨rfl, -⟩ | ⟨-, h9, rfl⟩⟩ := entry q f hf
      · exact .inl he
      · refine .inr ⟨h9.2.1, slot q e h9, ?_⟩
        have h10 := timer q e h9
        constructor
        · intro hx
          rw [h10] at hx
          cases hx
        · rintro ⟨r, hr⟩
          cases hr
    · rcases ht q with ⟨h, -⟩ | ⟨-, e', he', -⟩
      · rw [h, he]
      · obtain ⟨h9, h10, -⟩ := he'
        rw [h9] at he
        cases he
        rw [h10] at hk; cases hk
    · rw [hd]
      obtain ⟨e, he, -, hk', ⟨rfl, hne⟩ | ⟨hi, h9, rfl⟩⟩ := entry q f hf
      · refine ⟨fun hst => absurd hst (h.not_issued he hk fun d' hd' => absurd hd' (by simp [hn])), fun ⟨d', hd', hi⟩ => ?_⟩
        cases hd'
        exact absurd hi hne
      · exact ⟨fun _ => ⟨d, rfl, hi⟩, fun _ => rfl⟩
  · refine freshLaw_of_fewer h.work.fresh stands (fun q f hf hk => ?_) h2 h3
    obtain ⟨e, he, -, hk', ⟨rfl, -⟩ | ⟨-, h9, -⟩⟩ := entry q f hf
    · exact he
    · rw [hk', h9.2.1] at hk; cases hk
  · obtain ⟨p1, p2, p3, p4, p5, p6, p7, p8⟩ := h.work.phase
    refine ⟨?_, ?_, ?_, ?_, ?_, ?_, ?_, ?_⟩ <;> (try simp only [h5, h6, h7]) <;> try assumption
    · rintro (hc | hc)
      · exact absurd hc nq1
      · exact absurd hc nq2
    · exact fun hc => absurd hc hl
  · obtain ⟨c1, c2, c3, c4, c5, c6, c7, c8, c9⟩ := h.work.cover
    refine ⟨?_, ?_, ?_, ?_, ?_, ?_, ?_, ?_, ?_⟩ <;> (try simp only [h1, h5]) <;> try assumption
    · exact fun m hm => ⟨(c1 m hm).1, fun b hb => (c1 m hm).2 b (stands b hb)⟩
    · exact fun b hb => c2 b (stands b hb)
    · exact fun b hb => c5 b (stands b hb)
    · exact fun b hb => c6 b (stands b hb)
    · intro b hb hr
      obtain ⟨d', hd', -⟩ := c7 b (stands b hb) hr
      rw [hn] at hd'; cases hd'
    · intro d' hd'
      rw [hd] at hd'; cases hd'; exact hc
    · intro d' hd'
      rw [hd] at hd'; cases hd'; rw [body]; exact hs
  · have hk := h.work.capacity
    have : t.held ≤ s.held := by
      refine held_le (by rw [h1]) (fun q f hf hc => ?_) (fun d' b hd' hi => ?_) (by rw [h5])
      · obtain ⟨e, he, hb⟩ := delays_of q f hf
        exact ⟨e, he, hb ▸ hc⟩
      · rw [hd] at hd'; cases hd'; exact absurd hi (hr b)
    simp only [capacityLaw, h5] at hk ⊢
    omega

/-- R39, R44, R60: the head begins its drain, or is dropped. -/
theorem Lawful.beginItem {s : State} (h : s.Lawful) (hm : s.mayBegin = true) {item : DrainItem} (hi : s.headItem = some item) :
    (s.beginItem item).Lawful := by
  simp only [mayBegin, Bool.and_eq_true, Option.isNone_iff_eq_none, Bool.not_eq_true', initOutstanding, beq_eq_false_iff_ne] at hm
  obtain ⟨⟨hn, -⟩, hl⟩ := hm
  obtain ⟨n, hh⟩ := h.heads_of_headItem hn hi
  have hr : ∀ b, item ≠ .removed b := fun b hb => headItem_ne_removed s b (by rw [hi, hb])
  have same : ∀ q : Fin 4, (∀ p, item ≠ .delayedWrite p) →
      (s.engine.table[q] = s.engine.table[q] ∧ item ≠ .delayedWrite q) ∨
        (item = .delayedWrite q ∧ ∃ e, s.delays q e ∧ s.engine.table[q] = some { e with state := .issued }) :=
    fun q hq => .inl ⟨rfl, hq q⟩
  simp only [State.beginItem]
  cases hb : s.itemBody item with
  | none =>
    by_cases hc : item = .closeMarker
    · subst hc
      simp only [if_true]
      exact h.begun hn (d := ⟨.closeMarker, .closeHeader, 0, true⟩) hh hl (by simp) rfl rfl (fun q => same q (by simp)) (by simp)
        (by simp)
    · simp only [if_neg hc]
      exact h
  | some b =>
    by_cases hg : b.cls.guarded = true ∧ s.journal.state = .failed
    · simp only [if_pos hg]
      exact h.leave hh (fun hc => by rw [hc] at hb; cases hb) _ _
    · simp only [if_neg hg]
      have hc : item ≠ .closeMarker := fun hc => by rw [hc] at hb; cases hb
      have hst : s.writeStands b := hh.writeStands (fun b' hb' => absurd hb' (hr b')) hb
      refine h.begun hn (d := ⟨item, s.firstStage b, 0, true⟩) hh hl hr ?_ rfl ?_ ?_ ?_
      · cases item <;> simp only [issueEntry, setDrain]
        split <;> simp
      · intro q
        cases item with
        | delayedWrite p =>
          obtain ⟨e, he, -⟩ := hh.stands
          have : (s.issueEntry (.delayedWrite p)).engine.table = s.engine.table.set p (some { e with state := .issued }) := by
            simp only [issueEntry, he.1]; rfl
          simp only [setDrain, this, get_set]
          by_cases hpq : p = q
          · subst hpq
            exact .inr ⟨rfl, e, he, by simp⟩
          · exact .inl ⟨by rw [if_neg hpq], by simpa using hpq⟩
        | postedWrite => exact .inl ⟨rfl, by simp⟩
        | closeMarker => exact .inl ⟨rfl, by simp⟩
        | removed b' => exact .inl ⟨rfl, by simp⟩
      · simp only [hc, iff_false, firstStage]
        split <;> simp
      · intro hs
        refine ⟨b, hb, ?_⟩
        simp only [firstStage] at hs
        split at hs
        · rename_i hg'
          simp only [Bool.and_eq_true, Bool.not_eq_true', Journal.isRecorded, List.any_eq_false] at hg'
          refine ⟨hg'.1, ?_⟩
          rcases h.work.cover.covered b hst hg'.1 with ho | hm
          · refine .inr ⟨ho, ?_⟩
            cases hrec : b.recorded with
            | false => rfl
            | true =>
              obtain ⟨d, hd, -⟩ := h.work.cover.recorded b hst hrec
              rw [hn] at hd; cases hd
          · obtain ⟨⟨l, m⟩, hx, rfl⟩ := List.mem_map.mp hm
            cases m with
            | reserved => exact .inl hx
            | recorded => exact absurd (hg'.2 _ hx) (by simp)
        · simp at hs

/-- R39, R44: a run of beginnings. -/
theorem Lawful.beginDrains {s : State} (h : s.Lawful) (n : Nat) : (State.beginDrains n s).Lawful := by
  induction n generalizing s with
  | zero => exact h
  | succ n ih =>
    simp only [State.beginDrains]
    split
    · split
      · exact h
      · exact ih (h.beginItem (by assumption) (by assumption))
    · exact h

/-! ### The operations -/

/-- R41, R91: the drain comes to its image write or its record header write. -/
theorem Lawful.nextStage {s : State} (h : s.Lawful) {d d' : Drain} (hd : s.drain = some d) (hi : d'.item = d.item)
    (hs : d.stage = .beforeImage ∨ d.stage = .imageWrite) (hs' : d'.stage = .imageWrite ∨ d'.stage = .recordHeader) :
    (s.setDrain (some d')).Lawful := by
  have stands : ∀ b, (s.setDrain (some d')).writeStands b ↔ s.writeStands b := by
    intro b
    refine or_congr Iff.rfl (or_congr Iff.rfl ?_)
    simp only [setDrain, hd, Option.some.injEq, exists_eq_left', hi]
  obtain ⟨b, hb, hg, hres⟩ := h.work.cover.stage d hd (hs.imp id .inl)
  have hc : d.item ≠ .closeMarker := fun hc => by rw [hc] at hb; cases hb
  refine ⟨h.order, h.one, h.marks, h.init, ⟨fun d'' hd'' => ?_, ?_, ?_, ?_, ?_, ?_⟩⟩
  · cases hd''
    obtain ⟨n, h1, h2, h3, h4⟩ := h.work.oldest d hd
    refine ⟨n, ?_, h2, by rw [hi]; exact h3, by rw [hi]; exact h4⟩
    rw [hi]
    revert h1
    cases d.item <;> exact id
  · refine entryLaw_of_writes h.work.entry rfl rfl (fun p e he => .inl he) (fun p e he _ => he) fun p e he hk => ?_
    have := h.work.entry.drains p e he hk
    simpa only [setDrain, hd, Option.some.injEq, exists_eq_left', hi] using this
  · exact freshLaw_of_fewer h.work.fresh (fun b => (stands b).mp) (fun p e he _ => he) rfl rfl
  · obtain ⟨p1, p2, p3, p4, p5, p6, p7, p8⟩ := h.work.phase
    refine ⟨fun hq => ?_, p2, p3, p4, p5, p6, p7, fun hl => ?_⟩
    · have := (p1 hq).2.1
      rw [hd] at this; cases this
    · have := (p8 hl).2
      rw [hd] at this; cases this
  · obtain ⟨c1, c2, c3, c4, c5, c6, c7, c8, c9⟩ := h.work.cover
    refine ⟨?_, ?_, c3, c4, ?_, ?_, ?_, ?_, ?_⟩ <;> try simp only [stands]
    · exact c1
    · exact c2
    · exact c5
    · exact c6
    · intro b' hb' hr
      obtain ⟨d'', hd'', h1, -⟩ := c7 b' hb' hr
      rw [hd] at hd''
      cases hd''
      rw [h1] at hs; simp at hs
    · intro d'' hd''
      cases hd''
      rw [hi]
      refine ⟨fun h1 => ?_, fun h1 => absurd h1 hc⟩
      rw [h1] at hs'; simp at hs'
    · intro d'' hd'' _
      cases hd''
      rw [hi]
      exact ⟨b, hb, hg, hres⟩
  · have hk := h.work.capacity
    have : (s.setDrain (some d')).held ≤ s.held := by
      refine held_le (List.Sublist.refl _) (fun q f hf hc => ⟨f, hf, hc⟩) (fun d'' b hd'' hi' => ?_) rfl
      cases hd''
      exact ⟨d, hd, hi ▸ hi'⟩
    have hj : (s.setDrain (some d')).journal = s.journal := rfl
    simp only [capacityLaw, hj] at hk ⊢
    omega

/-- R86, R92: marking a line RECORDED leaves the lines of the set, and a RESERVED entry fewer where the line was RESERVED. -/
theorem record_lines (j : Journal) (x : Nat) :
    (j.record x).lineSet.map (·.1) = j.lineSet.map (·.1) ∧
      (j.record x).lineSet.countP (fun e => decide (e.2 = .reserved)) ≤ j.lineSet.countP (fun e => decide (e.2 = .reserved)) ∧
      ((x, Mark.reserved) ∈ j.lineSet →
        (j.record x).lineSet.countP (fun e => decide (e.2 = .reserved)) < j.lineSet.countP (fun e => decide (e.2 = .reserved))) := by
  have hc : (j.record x).lineSet.countP (fun e => decide (e.2 = .reserved)) =
      j.lineSet.countP (fun e => decide (e.1 ≠ x ∧ e.2 = .reserved)) := by
    simp only [Journal.record, List.countP_map]
    refine List.countP_congr fun e _ => ?_
    simp only [Function.comp]
    by_cases he : e.1 = x <;> simp [he]
  refine ⟨?_, ?_, fun hm => ?_⟩
  · simp only [Journal.record, List.map_map]
    refine List.map_congr_left fun e _ => ?_
    simp only [Function.comp]
    split <;> rfl
  · rw [hc]
    exact countP_le_of_imp fun e _ he => by simp only [decide_eq_true_eq] at he ⊢; exact he.2
  · rw [hc]
    exact countP_lt_of_mem (fun e he => by simp only [decide_eq_true_eq] at he ⊢; exact he.2) hm (by simp) (by simp)

/-- R92: the record of the head completes, and it comes to its data write. -/
theorem Lawful.recorded {s t : State} (h : s.Lawful) {d d' : Drain} (hd : s.drain = some d) (hs : d.stage = .recordHeader)
    {b b' : Body} (hb : s.itemBody d.item = some b) (hb' : b' = { b with recorded := true })
    (hw : (t.engine.slots, t.engine.prefetch, t.nextPos, t.startup, t.mgmt.longCmd, t.port) =
      (s.engine.slots, s.engine.prefetch, s.nextPos, s.startup, s.mgmt.longCmd, s.port))
    (hj : t.journal = { s.journal.record b.line with written := s.journal.written + 1 })
    (hr : ∀ b, d.item ≠ .removed b)
    (hq : (d.item = .postedWrite ∧ ∃ rest, s.queue = .write b :: rest ∧ t.queue = .write b' :: rest) ∨
      (d.item ≠ .postedWrite ∧ t.queue = s.queue))
    (ht : ∀ q : Fin 4, (t.engine.table[q] = s.engine.table[q] ∧ d.item ≠ .delayedWrite q) ∨
      (d.item = .delayedWrite q ∧ ∃ e, s.delays q e ∧ e.body = b ∧ t.engine.table[q] = some { e with body := b' }))
    (hd' : t.drain = some d') (hi : d'.item = d.item) (hs' : d'.stage = .dataWrite) : t.Lawful := by
  simp only [Prod.mk.injEq] at hw
  obtain ⟨h1, h2, h3, h4, h5, h6⟩ := hw
  obtain ⟨n, hh⟩ := h.heads_of_drain hd
  obtain ⟨b0, hb0, hg, hres⟩ := h.work.cover.stage d hd (.inr (.inr hs))
  rw [hb] at hb0
  cases hb0
  have hst : s.writeStands b := hh.writeStands (fun _ _ => by rw [hd]; simp) hb
  have hc : d.item ≠ .closeMarker := fun hc => by rw [hc] at hb; cases hb
  have entry : ∀ (q : Fin 4) (f : DelayedEntry), t.engine.table[q] = some f →
      ∃ e, s.engine.table[q] = some e ∧ f.kind = e.kind ∧ f.state = e.state ∧ f.slot = e.slot ∧ f.timer = e.timer ∧
        f.body.line = e.body.line ∧ f.body.pos = e.body.pos ∧ ((f = e ∧ d.item ≠ .delayedWrite q) ∨
          (d.item = .delayedWrite q ∧ s.delays q e ∧ e.body = b ∧ f.body = b')) := by
    intro q f hf
    rcases ht q with ⟨h, hne⟩ | ⟨hi, e, he, heb, h⟩
    · exact ⟨f, by rw [← h, hf], rfl, rfl, rfl, rfl, rfl, rfl, .inl ⟨rfl, hne⟩⟩
    · rw [h] at hf
      cases hf
      exact ⟨e, he.1, rfl, rfl, rfl, rfl, by rw [hb', heb], by rw [hb', heb], .inr ⟨hi, he, heb, rfl⟩⟩
  have body : t.itemBody d.item = some b' := by
    cases hit : d.item with
    | postedWrite =>
      rcases hq with ⟨-, rest, -, hq⟩ | ⟨hne, -⟩
      · simp [itemBody, hq, QueueEntry.body]
      · exact absurd hit hne
    | closeMarker => exact absurd hit hc
    | removed b => exact absurd hit (hr b)
    | delayedWrite p =>
      rcases ht p with ⟨-, hne⟩ | ⟨-, e, -, -, h⟩
      · exact absurd hit hne
      · simp only [itemBody, h, Option.map_some]
  have queue_pos : t.queue.map QueueEntry.pos = s.queue.map QueueEntry.pos := by
    rcases hq with ⟨-, rest, hq1, hq2⟩ | ⟨-, hq⟩
    · rw [hq1, hq2, hb']; rfl
    · rw [hq]
  have queue_mem : ∀ x ∈ t.queue, x ∈ s.queue ∨ x = .write b' := by
    intro x hx
    rcases hq with ⟨-, rest, hq1, hq2⟩ | ⟨-, hq⟩
    · rw [hq2] at hx
      rcases List.mem_cons.mp hx with rfl | hx
      · exact .inr rfl
      · exact .inl (by rw [hq1]; exact List.mem_cons_of_mem _ hx)
    · exact .inl (hq ▸ hx)
  have queue_pos_mem : ∀ x ∈ t.queue, ∃ y ∈ s.queue, y.pos = x.pos := by
    intro x hx
    have : x.pos ∈ t.queue.map QueueEntry.pos := List.mem_map_of_mem hx
    rw [queue_pos] at this
    obtain ⟨y, hy, hp⟩ := List.mem_map.mp this
    exact ⟨y, hy, hp⟩
  have marker_mem : ∀ m, QueueEntry.marker m ∈ t.queue ↔ QueueEntry.marker m ∈ s.queue := by
    intro m
    rcases hq with ⟨-, rest, hq1, hq2⟩ | ⟨-, hq⟩
    · rw [hq1, hq2]; simp
    · rw [hq]
  have first : ∀ rest, s.queue = .write b :: rest → ∀ y ∈ rest, b.pos < y.pos := by
    intro rest hq y hy
    have := h.order.1
    rw [hq] at this
    simp only [List.map_cons, List.pairwise_cons, List.mem_map, forall_exists_index, and_imp, forall_apply_eq_imp_iff₂] at this
    exact this.1 y hy
  have stands : ∀ x, t.writeStands x → x = b' ∨ (s.writeStands x ∧ n < x.pos) := by
    rintro x (hx | ⟨q, f, ⟨hf, hk, hfs⟩, rfl⟩ | ⟨d'', hd'', hi'⟩)
    · rcases hq with ⟨hit, rest, hq1, hq2⟩ | ⟨hne, hq⟩
      · rw [hq2] at hx
        rcases List.mem_cons.mp hx with hx | hx
        · cases hx; exact .inl rfl
        · have hp := hh.stands
          rw [hit] at hp
          obtain ⟨b1, r1, hq3, hp⟩ := hp
          rw [hq1] at hq3
          cases hq3
          exact .inr ⟨.inl (by rw [hq1]; exact List.mem_cons_of_mem _ hx), hp ▸ first rest hq1 _ hx⟩
      · rw [hq] at hx
        exact .inr ⟨.inl hx, (hh.queue _ hx).resolve_right (fun hc' => hc'.2.elim hne hc)⟩
    · obtain ⟨e, he, hk', hs1, -, -, -, -, ⟨rfl, hne⟩ | ⟨-, -, -, hfb⟩⟩ := entry q f hf
      · have hde : s.delays q f := ⟨he, hk, hfs⟩
        exact .inr ⟨.inr (.inl ⟨q, f, hde, rfl⟩), (hh.table q f hde).resolve_right hne⟩
      · exact .inl hfb
    · rw [hd'] at hd''
      cases hd''
      rw [hi] at hi'
      exact absurd hi' (hr x)
  have alike : ∀ x, t.writeStands x → ∃ y, s.writeStands y ∧ y.line = x.line ∧ y.pos = x.pos ∧ y.cls = x.cls := by
    intro x hx
    rcases stands x hx with rfl | ⟨hx, -⟩
    · exact ⟨b, hst, by rw [hb'], by rw [hb'], by rw [hb']⟩
    · exact ⟨x, hx, rfl, rfl, rfl⟩
  obtain ⟨r1, r2, r3⟩ := record_lines s.journal b.line
  have held : t.held + 1 ≤ s.held := by
    have hn' : ∀ x : Body, d.item ≠ .removed x := hr
    have queue_le : t.queue.countP QueueEntry.countsOwn + (if d.item = .postedWrite ∧ b.countsOwn = true then 1 else 0) ≤
        s.queue.countP QueueEntry.countsOwn := by
      have hc' : b'.countsOwn = false := by rw [hb']; simp [Body.countsOwn]
      rcases hq with ⟨hit, rest, hq1, hq2⟩ | ⟨hne, hq⟩
      · rw [hq1, hq2]
        simp only [List.countP_cons, QueueEntry.countsOwn, hc', hit, true_and]
        by_cases hbo : b.countsOwn = true <;> simp [hbo]
      · rw [hq, if_neg (by simp [hne])]
        exact le_rfl
    have table_le : ((List.finRange 4).countP fun p => (t.engine.table[p]).any DelayedEntry.countsOwn) + (if (∃ p, d.item = .delayedWrite p) ∧ b.countsOwn = true then 1 else 0) ≤
        ((List.finRange 4).countP fun p => (s.engine.table[p]).any DelayedEntry.countsOwn) := by
      have hc' : b'.countsOwn = false := by rw [hb']; simp [Body.countsOwn]
      have imp : ∀ p : Fin 4, (t.engine.table[p]).any DelayedEntry.countsOwn = true → (s.engine.table[p]).any DelayedEntry.countsOwn = true := by
        intro p hp
        rcases ht p with ⟨h, -⟩ | ⟨-, e, -, -, h⟩
        · rw [h] at hp; exact hp
        · rw [h] at hp; simp [DelayedEntry.countsOwn, hc'] at hp
      by_cases hx : (∃ p, d.item = .delayedWrite p) ∧ b.countsOwn = true
      · rw [if_pos hx]
        obtain ⟨⟨p, hp⟩, hb1⟩ := hx
        rcases ht p with ⟨-, hne⟩ | ⟨-, e, he, heb, h⟩
        · exact absurd hp hne
        · refine countP_lt_of_mem imp (List.mem_finRange p) ?_ ?_
          · simp [he.1, he.2, heb, hb1, DelayedEntry.countsOwn]
          · simp [h, hc', DelayedEntry.countsOwn]
      · rw [if_neg hx]
        exact countP_le_of_imp fun p _ => imp p
    have removed_eq : ∀ (u : State) (x : Drain), u.drain = some x → x.item = d.item → u.drain.any Drain.countsOwn = false := by
      intro u x hx hxi
      rw [hx, Option.any_some, Drain.countsOwn, hxi]
      cases hit : d.item with
      | removed b => exact absurd hit (hr b)
      | postedWrite => rfl
      | closeMarker => rfl
      | delayedWrite p => rfl
    simp only [State.held, removed_eq t d' hd' hi, removed_eq s d hd rfl, hj]
    have item : d.item = .postedWrite ∨ ∃ p, d.item = .delayedWrite p := by
      cases hit : d.item with
      | postedWrite => exact .inl rfl
      | closeMarker => exact absurd hit hc
      | delayedWrite p => exact .inr ⟨p, rfl⟩
      | removed b => exact absurd hit (hr b)
    rcases hres with hres | hres
    · have := r3 hres
      omega
    · have ho : b.countsOwn = true := by simp [Body.countsOwn, hres]
      simp only [ho, and_true] at queue_le table_le
      rcases item with hit | hit
      · rw [if_pos hit] at queue_le
        omega
      · rw [if_pos hit] at table_le
        omega
  obtain ⟨o1, o2, o3, o4⟩ := h.order
  refine ⟨⟨by rwa [queue_pos], fun x hx => ?_, fun p f hf => ?_, fun p q f g hf hg hpq => ?_⟩, ?_, ?_,
    by rw [h5, h6]; exact h.init, ⟨fun d'' hd'' => ?_, ?_, ?_, ?_, ?_, ?_⟩⟩
  · obtain ⟨y, hy, hp⟩ := queue_pos_mem x hx
    rw [← hp, h3]
    exact o2 y hy
  · obtain ⟨e, he, -, -, -, -, -, hp, -⟩ := entry p f hf
    rw [h3, hp]
    refine ⟨(o3 p e he).1, fun x hx => ?_⟩
    obtain ⟨y, hy, hpx⟩ := queue_pos_mem x hx
    rw [← hpx]
    exact (o3 p e he).2 y hy
  · obtain ⟨e, he, -, -, -, -, -, hp, -⟩ := entry p f hf
    obtain ⟨e', he', -, -, -, -, -, hp', -⟩ := entry q g hg
    rw [hp, hp']
    exact o4 p q e e' he he' hpq
  · have := h.one
    rcases hq with ⟨-, _, hq1, hq2⟩ | ⟨-, hq⟩
    · rw [hq1] at this
      rw [hq2]
      simpa [List.countP_cons, QueueEntry.isMarker] using this
    · rw [hq]; exact this
  · rw [h5]
    simp only [marker_mem]
    exact h.marks
  · rw [hd'] at hd''
    cases hd''
    rw [hi]
    refine ⟨n, ?_, h3 ▸ hh.given, fun x hx => ?_, fun p f hf => ?_⟩
    · have hp := hh.stands
      cases hit : d.item with
      | postedWrite =>
        rw [hit] at hp
        obtain ⟨b1, r1, hq3, hp⟩ := hp
        rcases hq with ⟨-, rest, hq1, hq2⟩ | ⟨hne, -⟩
        · exact ⟨b', rest, hq2, by rw [hq1] at hq3; cases hq3; rw [hb']; exact hp⟩
        · exact absurd hit hne
      | closeMarker => exact absurd hit hc
      | removed b => exact absurd hit (hr b)
      | delayedWrite p =>
        rw [hit] at hp
        obtain ⟨e, he, hp⟩ := hp
        rcases ht p with ⟨-, hne⟩ | ⟨-, e', he', heb, h⟩
        · exact absurd hit hne
        · obtain ⟨h9, h10⟩ := he'
          rw [he.1] at h9
          cases h9
          exact ⟨_, ⟨h, h10⟩, by rw [hb', ← heb]; exact hp⟩
    · rcases queue_mem x hx with hx' | rfl
      · exact hh.queue x hx'
      · rcases hq with ⟨hit, rest, hq1, hq2⟩ | ⟨hne, hq⟩
        · have hp := hh.stands
          rw [hit] at hp
          obtain ⟨b1, r1, hq3, hp⟩ := hp
          rw [hq1] at hq3
          cases hq3
          exact .inr ⟨by rw [hb']; exact hp, .inl hit⟩
        · rw [hq] at hx
          exact hh.queue _ hx
    · obtain ⟨hf1, hf2, hf3⟩ := hf
      obtain ⟨e, he, hk', hs1, -, -, -, hp, -⟩ := entry p f hf1
      rw [hp]
      exact hh.table p e ⟨he, hk' ▸ hf2, hs1 ▸ hf3⟩
  · refine entryLaw_of_writes h.work.entry h1 (by rw [h6]) (fun q f hf => ?_) (fun q e he hk => ?_) fun q f hf hk => ?_
    · obtain ⟨e, he, hk', hs1, hsl, hti, -, -, ⟨rfl, -⟩ | ⟨-, h9, -⟩⟩ := entry q f hf
      · exact .inl he
      · refine .inr ⟨hk'.trans h9.2.1, ?_, ?_⟩
        · rw [hsl]
          cases hs : e.slot with
          | none => rfl
          | some i => have := (h.work.entry.slots q e i he hs).1; rw [h9.2.1] at this; cases this
        · rw [hti, hs1]
          exact h.work.entry.timers q e he
    · rcases ht q with ⟨h, -⟩ | ⟨-, e', ⟨he', hk', -⟩, -⟩
      · rw [h, he]
      · rw [he'] at he
        cases he
        rw [hk'] at hk; cases hk
    · obtain ⟨e, he, hk', hs1, -⟩ := entry q f hf
      rw [hs1, h.work.entry.drains q e he (hk'.symm.trans hk), hd, hd']
      simp [hi]
  · obtain ⟨f1, f2, f3, f4⟩ := h.work.fresh
    have reads : ∀ (p : Fin 4) (f : DelayedEntry), t.engine.table[p] = some f → f.kind = .read → s.engine.table[p] = some f := by
      intro p f hf hk
      obtain ⟨e, he, hk', -, -, -, -, -, ⟨rfl, -⟩ | ⟨-, h9, -⟩⟩ := entry p f hf
      · exact he
      · rw [hk', h9.2.1] at hk; cases hk
    refine ⟨?_, ?_, ?_, ?_⟩ <;> try simp only [h1, h2]
    · intro x p f hx hf hk hl
      obtain ⟨y, hy, hy1, hy2, -⟩ := alike x hx
      rw [← hy2]
      exact f1 y p f hy (reads p f hf hk) hk (hl.trans hy1.symm)
    · intro x i hx
      obtain ⟨y, hy, hy1, -⟩ := alike x hx
      rw [← hy1]
      exact f2 y i hy
    · intro x hx
      obtain ⟨y, hy, hy1, -⟩ := alike x hx
      rw [← hy1]
      exact f3 y hy
    · intro x p f hx hf hk hl
      obtain ⟨y, hy, hy1, -⟩ := alike x hx
      rw [← hy1]
      exact f4 y p f hy (reads p f hf hk) hk (hl.trans hy1.symm)
  · obtain ⟨nq1, nq2⟩ := h.not_quiet (.inr (.inl (by rw [hd]; simp)))
    have hjs : t.journal.state = s.journal.state := by rw [hj]; rfl
    have hjz : t.journal.holdsAtMost = s.journal.holdsAtMost := by rw [hj]; rfl
    have hjp : t.journal.sizePages = s.journal.sizePages := by rw [hj]; rfl
    obtain ⟨p1, p2, p3, p4, p5, p6, p7, p8⟩ := h.work.phase
    refine ⟨?_, ?_, ?_, ?_, ?_, ?_, ?_, ?_⟩ <;> (try simp only [hjs, hjz, hjp, h4, h5]) <;> try assumption
    · rintro (hc | hc)
      · exact absurd hc nq1
      · exact absurd hc nq2
    · intro hl
      have := (p8 hl).2
      rw [hd] at this; cases this
  · have hjs : t.journal.state = s.journal.state := by rw [hj]; rfl
    have hjl : t.journal.lineSet.map (·.1) = s.journal.lineSet.map (·.1) := by rw [hj]; exact r1
    obtain ⟨c1, c2, c3, c4, c5, c6, c7, c8, c9⟩ := h.work.cover
    have act := c2 b hst hg
    refine ⟨?_, ?_, ?_, ?_, ?_, ?_, ?_, ?_, ?_⟩ <;> try simp only [hjs, hjl, marker_mem]
    · intro m hm
      refine ⟨(c1 m hm).1, fun x hx hxg => ?_⟩
      obtain ⟨y, hy, -, hy2, hy3⟩ := alike x hx
      rw [← hy2]
      exact (c1 m hm).2 y hy (hy3 ▸ hxg)
    · exact fun _ _ _ => act
    · rintro (hc | hc | hc) <;> rw [hc] at act <;> simp at act
    · rintro (hc | hc) <;> rw [hc] at act <;> simp at act
    · intro x hx hxg
      obtain ⟨y, hy, hy1, -, hy3⟩ := alike x hx
      rw [← hy1, ← hy3]
      exact c5 y hy (hy3 ▸ hxg)
    · intro x hx hxo
      obtain ⟨y, hy, -, -, hy3⟩ := alike x hx
      rw [← hy3] at hxo ⊢
      exact c6 y hy hxo
    · intro x hx hxr
      rcases stands x hx with rfl | ⟨hx', hlt⟩
      · exact ⟨d', hd', hs', by rw [hi]; exact body⟩
      · rw [h.not_recorded hh hx' hlt] at hxr; cases hxr
    · intro d'' hd''
      rw [hd'] at hd''
      cases hd''
      rw [hs', hi]
      simp [hc]
    · intro d'' hd'' hst''
      rw [hd'] at hd''
      cases hd''
      rw [hs'] at hst''; simp at hst''
  · have hk := h.work.capacity
    have hz : t.journal.holdsAtMost = s.journal.holdsAtMost := by rw [hj]; rfl
    have hwr : t.journal.written = s.journal.written + 1 := by rw [hj]
    simp only [capacityLaw, hz, hwr] at hk ⊢
    omega

/-- R76, R92: the record of a removed write completes, and its drain is over. -/
theorem Lawful.removedRecorded {s t : State} (h : s.Lawful) {d : Drain} {b : Body} (hd : s.drain = some d)
    (hi : d.item = .removed b) (hs : d.stage = .recordHeader)
    (hw : (t.queue, t.engine.table, t.engine.slots, t.engine.prefetch, t.drain, t.nextPos) =
      (s.queue, s.engine.table, s.engine.slots, s.engine.prefetch, none, s.nextPos))
    (hr : (t.startup, t.mgmt.longCmd, t.port) = (s.startup, s.mgmt.longCmd, s.port))
    (hj : t.journal = { s.journal.record b.line with written := s.journal.written + 1 }) : t.Lawful := by
  obtain ⟨n, hh⟩ := h.heads_of_drain hd
  have hu : (s.setDrain none).Lawful := by
    have := h.leave hh (by rw [hi]; simp) .clean .ok
    rwa [hi] at this
  simp only [Prod.mk.injEq] at hr
  obtain ⟨h4, h5, h6⟩ := hr
  have hw' := hw
  simp only [Prod.mk.injEq] at hw'
  obtain ⟨h1, h2, -, -, h3, -⟩ := hw'
  obtain ⟨r1, r2, r3⟩ := record_lines s.journal b.line
  have hjs : t.journal.state = s.journal.state := by rw [hj]; rfl
  have hjz : t.journal.holdsAtMost = s.journal.holdsAtMost := by rw [hj]; rfl
  have hjp : t.journal.sizePages = s.journal.sizePages := by rw [hj]; rfl
  have hjl : t.journal.lineSet.map (·.1) = s.journal.lineSet.map (·.1) := by rw [hj]; exact r1
  have hst := writeStands_congr (s := s.setDrain none) (t := t) h1 h2 h3
  obtain ⟨b0, hb0, hg, hres⟩ := h.work.cover.stage d hd (.inr (.inr hs))
  rw [hi] at hb0
  cases hb0
  have act := h.work.cover.pending b (.inr (.inr ⟨d, hd, hi⟩)) hg
  refine hu.of_same_work hw (by rw [h5]; exact h.marks) (by rw [h5, h6]; exact h.init) (by rw [inFlight, h6]; rfl) ?_ ?_ ?_
  · obtain ⟨p1, p2, p3, p4, p5, p6, p7, p8⟩ := hu.work.phase
    refine ⟨?_, ?_, ?_, ?_, ?_, ?_, ?_, ?_⟩ <;> (try simp only [hjs, hjz, hjp, h4, h5, h1, h3, hst]) <;> try assumption
    · exact fun hc => ⟨(p1 hc).1, trivial, (p1 hc).2.2⟩
    · exact fun hc => ⟨(p8 hc).1, trivial⟩
  · obtain ⟨c1, c2, c3, c4, c5, c6, c7, c8, c9⟩ := hu.work.cover
    refine ⟨?_, ?_, ?_, ?_, ?_, ?_, ?_, ?_, ?_⟩ <;> (try simp only [hjs, hjl, h1, hst]) <;> try assumption
    · rintro (hc | hc | hc) <;> rw [hc] at act <;> simp at act
    · rintro (hc | hc) <;> rw [hc] at act <;> simp at act
    · intro x hx hxr
      obtain ⟨d', hd', -⟩ := c7 x hx hxr
      cases hd'
    · intro d' hd'; rw [h3] at hd'; cases hd'
    · intro d' hd'; rw [h3] at hd'; cases hd'
  · have hk := h.work.capacity
    have hwr : t.journal.written = s.journal.written + 1 := by rw [hj]
    have : t.held + 1 ≤ s.held := by
      simp only [held, h1, h2, h3, hj, hd, Option.any_none, Option.any_some, Drain.countsOwn, hi, Bool.false_eq_true, if_false]
      rcases hres with hres | hres
      · have := r3 hres
        omega
      · have ho : b.countsOwn = true := by simp [Body.countsOwn, hres]
        rw [if_pos ho]
        omega
    simp only [capacityLaw, hjz, hwr] at hk ⊢
    omega

/-- R87: no guarded write and no entry of the set: no reservation. -/
theorem held_of_unguarded {s : State} (hl : s.journal.lineSet = []) (hg : ∀ b, s.writeStands b → b.cls.guarded = false)
    (ho : ∀ b, s.writeStands b → b.cls.reservation = .own → b.cls.guarded = true) : s.held = 0 := by
  have no : ∀ b, s.writeStands b → b.countsOwn = false := by
    intro b hb
    cases hc : b.countsOwn with
    | false => rfl
    | true =>
      simp only [Body.countsOwn, decide_eq_true_eq] at hc
      have := ho b hb hc.1
      rw [hg b hb] at this; cases this
  have h1 : s.queue.countP QueueEntry.countsOwn = 0 := by
    refine List.countP_eq_zero.mpr fun x hx => ?_
    cases x with
    | marker m => simp [QueueEntry.countsOwn]
    | write b => simp [QueueEntry.countsOwn, no b (.inl hx)]
  have h2 : (List.finRange 4).countP (fun p => (s.engine.table[p]).any DelayedEntry.countsOwn) = 0 := by
    refine List.countP_eq_zero.mpr fun p _ hp => ?_
    cases he : s.engine.table[p] with
    | none => rw [he] at hp; cases hp
    | some e =>
      simp only [he, Option.any_some, DelayedEntry.countsOwn, Bool.and_eq_true, decide_eq_true_eq] at hp
      have := no e.body (.inr (.inl ⟨p, e, ⟨he, hp.1⟩, rfl⟩))
      rw [hp.2] at this; cases this
  have h3 : ¬ s.drain.any Drain.countsOwn = true := by
    intro hp
    cases hd : s.drain with
    | none => rw [hd] at hp; cases hp
    | some d =>
      rw [hd] at hp
      cases hi : d.item with
      | removed b =>
        simp only [Option.any_some, Drain.countsOwn, hi] at hp
        have := no b (.inr (.inr ⟨d, hd, hi⟩))
        rw [hp] at this; cases this
      | postedWrite => simp [Drain.countsOwn, hi] at hp
      | closeMarker => simp [Drain.countsOwn, hi] at hp
      | delayedWrite p => simp [Drain.countsOwn, hi] at hp
  simp only [held, hl, h1, h2, if_neg h3, List.countP_nil]

/-- The body of an item in its drain stands in the write order. -/
theorem Lawful.body_stands {s : State} (h : s.Lawful) {d : Drain} {b : Body} (hd : s.drain = some d)
    (hb : s.itemBody d.item = some b) : s.writeStands b := by
  obtain ⟨n, hh⟩ := h.heads_of_drain hd
  exact hh.writeStands (fun _ _ => by rw [hd]; simp) hb

/-- A journal with an empty set, while no guarded write stands and no close marker. -/
theorem Lawful.of_epoch {s t : State} (h : s.Lawful)
    (hw : (t.queue, t.engine.table, t.engine.slots, t.engine.prefetch, t.drain, t.nextPos) =
      (s.queue, s.engine.table, s.engine.slots, s.engine.prefetch, s.drain, s.nextPos))
    (hg : ∀ b, s.writeStands b → b.cls.guarded = false) (hm : ∀ m, QueueEntry.marker m ∉ s.queue)
    (hl : t.journal.lineSet = []) (hk : t.journal.written ≤ t.journal.holdsAtMost)
    (hz : t.journal.state = .off ∨ t.journal.state = .unknown → t.journal.written = 0)
    (hc : t.mgmt.longCmd ≠ some .closeEpoch) (ho : t.inFlight = s.inFlight)
    (hi : ∀ op, t.port.op = some op → op.owner = .initHeader → t.mgmt.longCmd = some .initJournal)
    (phase : t.phaseLaw) : t.Lawful := by
  have hw' := hw
  simp only [Prod.mk.injEq] at hw'
  obtain ⟨h1, h2, -, -, h3, -⟩ := hw'
  have hs := writeStands_congr h1 h2 h3
  have hb := itemBody_congr h1 h2
  obtain ⟨c1, c2, c3, c4, c5, c6, c7, c8, c9⟩ := h.work.cover
  have no : ∀ {b : Body} {P : Prop}, s.writeStands b → b.cls.guarded = true → P := fun hb hg' => by
    rw [hg _ hb] at hg'; cases hg'
  refine h.of_same_work hw ⟨fun ⟨m, hm'⟩ => absurd hm' (hm m), fun hc' => absurd hc' hc⟩ hi ho phase ?_ ?_
  · refine ⟨?_, ?_, fun _ => hl, hz, ?_, ?_, ?_, ?_, ?_⟩ <;> (try simp only [hs, hb, h1, h3]) <;> try assumption
    · exact fun m hm' => absurd hm' (hm m)
    · exact fun b hb hg' => no hb hg'
    · exact fun b hb hg' => no hb hg'
    · intro d hd hst
      obtain ⟨b, hb', hg', -⟩ := c9 d hd hst
      exact no (h.body_stands hd hb') hg'
  · have : t.held = 0 := held_of_unguarded hl (fun b hb => hg b ((hs b).mp hb)) (fun b hb => c6 b ((hs b).mp hb))
    simp only [capacityLaw, this]
    omega

/-- R99: the close marker leaves the queue, and with it the long command ends. -/
theorem Lawful.popMarker {s t : State} (h : s.Lawful) {d : Drain} (hd : s.drain = some d) (hi : d.item = .closeMarker)
    (hq : t.queue = s.queue.tail)
    (hw : (t.engine.table, t.engine.slots, t.engine.prefetch, t.nextPos, t.journal, t.startup, t.port) =
      (s.engine.table, s.engine.slots, s.engine.prefetch, s.nextPos, s.journal, s.startup, s.port))
    (ht : t.drain = none) (hl : t.mgmt.longCmd = none) :
    t.Lawful ∧ (∀ m, QueueEntry.marker m ∉ t.queue) ∧ ∀ b, t.writeStands b → b.cls.guarded = false := by
  obtain ⟨n, hh⟩ := h.heads_of_drain hd
  have hp := hh.stands
  rw [hi] at hp
  obtain ⟨rest, hq'⟩ := hp
  have hrest : t.queue = rest := by rw [hq, hq']; rfl
  simp only [Prod.mk.injEq] at hw
  obtain ⟨h1, h2, h3, h4, h5, h6, h7⟩ := hw
  have nomark : ∀ m, QueueEntry.marker m ∉ t.queue := by
    intro m hm
    have := h.one
    rw [hq', List.countP_cons] at this
    have hpos : 0 < rest.countP QueueEntry.isMarker := List.countP_pos_iff.mpr ⟨_, hrest ▸ hm, rfl⟩
    simp only [QueueEntry.isMarker, if_true] at this
    omega
  have stands : ∀ b, t.writeStands b → s.writeStands b ∧ n < b.pos := by
    intro b hb
    have hb' : s.writeStands b := by
      rcases hb with hb | ⟨p, e, hd', rfl⟩ | ⟨d', hd', -⟩
      · exact .inl (by rw [hq', ← hrest]; exact List.mem_cons_of_mem _ hb)
      · exact .inr (.inl ⟨p, e, by simpa only [delays, h1] using hd', rfl⟩)
      · rw [ht] at hd'; cases hd'
    exact ⟨hb', (hh.cases h.order hb').resolve_left (by rw [hi]; simp [itemBody])⟩
  have hc : s.mgmt.longCmd = some .closeEpoch := h.marks.mp ⟨n, by rw [hq']; exact List.mem_cons_self⟩
  refine ⟨h.of_fewer (.inr ⟨_, by rw [hrest, hq']⟩) (fun p e he => ⟨e, by rwa [h1] at he, rfl, fun _ => rfl⟩)
    (by rw [h2, h3, h4, h5, h6]) (.inr ⟨hl, hc⟩) ⟨fun ⟨m, hm⟩ => absurd hm (nomark m), fun hc' => by rw [hl] at hc'; cases hc'⟩
    (by rw [h7]) ht ?_ (fun b hb => ⟨(stands b hb).1, h.not_recorded hh (stands b hb).1 (stands b hb).2⟩) ?_, nomark,
    fun b hb => ?_⟩
  · refine entryLaw_of_writes h.work.entry h2 (by rw [h7]) (fun p e he => .inl (by rwa [h1] at he))
      (fun p e he _ => by rwa [h1]) fun p e he hk => ?_
    rw [h1] at he
    rw [ht]
    exact ⟨fun hs => absurd hs (h.not_issued he hk fun d' hd' => by rw [hh.drain d' hd', hi]; simp), fun ⟨_, hd', _⟩ => by cases hd'⟩
  · refine held_le (by rw [hrest, hq']; exact List.sublist_cons_self _ _)
      (fun p e he hc => ⟨e, by simpa only [delays, h1] using he, hc⟩) (fun d' b hd' => by rw [ht] at hd'; cases hd') (by rw [h5])
  · cases hg : b.cls.guarded with
    | false => rfl
    | true =>
      have := (h.work.cover.marker n (by rw [hq']; exact List.mem_cons_self)).2 b (stands b hb).1 hg
      have := (stands b hb).2
      omega

/-! ### The ends of the head's operation -/

theorem setJournalState_parts (s : State) (x : JournalState) : (s.setJournalState x).parts =
    (s.queue, s.engine.table, s.engine.slots, s.engine.prefetch, s.drain, s.nextPos, { s.journal with state := x }, s.startup,
      s.mgmt.longCmd) := by
  simp [parts, setJournalState_journal]

/-- R99: the close header write fails. -/
theorem Lawful.closeFailed {s : State} (h : s.Lawful) {d : Drain} (hd : s.drain = some d) (hi : d.item = .closeMarker) :
    s.closeFailed.Lawful := by
  have hu := h.failed (by rw [hd]; simp)
  refine (hu.popMarker (t := s.closeFailed) (d := d) (by simpa using hd) hi ?_ ?_ ?_ ?_).1 <;>
    simp [State.closeFailed, popQueue, setDrain, setJournalState_journal, endLong]

/-- R99: the close header write succeeds. -/
theorem Lawful.closeSucceeded {s : State} (h : s.Lawful) {d : Drain} (hd : s.drain = some d) (hi : d.item = .closeMarker) :
    s.closeSucceeded.Lawful := by
  set u : State := (s.popQueue.setDrain none).endLong .ok with hu
  obtain ⟨h1, h2, h3⟩ := h.popMarker (t := u) hd hi (by simp [hu, popQueue, endLong, setDrain])
    (by simp [hu, popQueue, endLong, setDrain]) (by simp [hu, endLong, setDrain]) (by simp [hu, endLong])
  obtain ⟨nq1, nq2⟩ := h.not_quiet (.inr (.inl (by rw [hd]; simp)))
  have hj : s.closeSucceeded.journal = { s.journal.clear (nextEpoch s.journal.epoch) with state := .active } := by
    simp [State.closeSucceeded, setJournal, setJournalState_journal, endLong]
  refine h1.of_epoch ?_ h3 h2 (by rw [hj]; rfl) (by rw [hj]; exact Nat.zero_le _) (by rw [hj]; simp) ?_ ?_ ?_ ?_
  · simp [hu, State.closeSucceeded, setJournal, popQueue, setDrain, endLong]
  · simp [State.closeSucceeded, endLong]
  · simp [inFlight, hu, State.closeSucceeded, setJournal, popQueue, setDrain, endLong]
  · intro op hop hoi
    have : s.port.op = some op := by simpa [State.closeSucceeded, setJournal, popQueue, setDrain, endLong] using hop
    have := h.init op this hoi
    obtain ⟨n, hh⟩ := h.heads_of_drain hd
    have hp := hh.stands
    rw [hi] at hp
    obtain ⟨rest, hq'⟩ := hp
    have hc : s.mgmt.longCmd = some .closeEpoch := h.marks.mp ⟨n, by rw [hq']; exact List.mem_cons_self⟩
    rw [hc] at this; cases this
  · refine phaseLaw_of_state h.work.phase (fun hc => absurd hc nq1) nq2 ?_ (by rw [hj]; simp) (fun hc => absurd hc nq1) ?_
    · simp [State.closeSucceeded, setJournal, popQueue, setDrain, endLong]
    · simp [State.closeSucceeded, endLong]

/-- R42, R76, R92, R99: the head's operation ends in success. -/
theorem Lawful.headSucceeded {s : State} (h : s.Lawful) (data : Line) (first : Bool) : (s.headSucceeded data first).Lawful := by
  simp only [State.headSucceeded]
  cases hd : s.drain with
  | none => exact h
  | some d =>
    obtain ⟨n, hh⟩ := h.heads_of_drain hd
    have close := h.work.cover.close d hd
    have stage : ∀ b, s.itemBody d.item = some b → (∀ b, d.item ≠ .removed b) → d.item ≠ .closeMarker →
        (s.stageSucceeded d b data first).Lawful := by
      intro b hb hr hc
      have hst := h.body_stands hd hb
      simp only [stageSucceeded]
      cases hs : d.stage with
      | beforeImage => exact h.nextStage hd rfl (.inl hs) (.inl rfl)
      | imageWrite => exact h.nextStage hd rfl (.inr hs) (.inr rfl)
      | dataWrite => exact h.leave hh hc _ _
      | closeHeader => exact absurd (close.mp hs) hc
      | recordHeader =>
        refine h.recorded (d' := ⟨d.item, .dataWrite, d.image, d.firstTry && first⟩) hd hs hb (b' := { b with recorded := true })
          rfl ?_ ?_ hr ?_ ?_ rfl rfl rfl
        · simp only [completeRecord, setItemBody, setJournal]
          cases d.item <;> simp [setDrain]
          split <;> simp [setEntry]
        · simp only [completeRecord, setItemBody, setJournal]
          cases d.item <;> simp [setDrain]
          split <;> simp [setEntry]
        · cases hi : d.item with
          | postedWrite =>
            have hp := hh.stands
            rw [hi] at hp hb
            obtain ⟨b1, rest, hq, -⟩ := hp
            simp only [itemBody, hq, List.head?_cons, Option.bind_some, QueueEntry.body, Option.some.injEq] at hb
            subst hb
            exact .inl ⟨rfl, rest, hq, by simp [completeRecord, setItemBody, setJournal, setDrain, hq]⟩
          | closeMarker => exact absurd hi hc
          | removed b => exact absurd hi (hr b)
          | delayedWrite p =>
            refine .inr ⟨by simp, ?_⟩
            simp only [completeRecord, setItemBody, setJournal]
            split <;> simp [setDrain, setEntry]
        · intro q
          cases hi : d.item with
          | postedWrite => exact .inl ⟨by simp [completeRecord, setItemBody, setJournal, setDrain], by simp⟩
          | closeMarker => exact absurd hi hc
          | removed b => exact absurd hi (hr b)
          | delayedWrite p =>
            have hp := hh.stands
            rw [hi] at hp hb
            obtain ⟨e, he, -⟩ := hp
            simp only [itemBody, he.1, Option.map_some, Option.some.injEq] at hb
            have : ((s.completeRecord (.delayedWrite p) b).setDrain
                (some ⟨.delayedWrite p, .dataWrite, d.image, d.firstTry && first⟩)).engine.table =
                s.engine.table.set p (some { e with body := { b with recorded := true } }) := by
              simp [completeRecord, setItemBody, setJournal, setDrain, setEntry, he.1]
            rw [this, get_set]
            by_cases hpq : p = q
            · subst hpq
              exact .inr ⟨rfl, e, he, hb, by rw [if_pos rfl]⟩
            · exact .inl ⟨by rw [if_neg hpq], by simpa using hpq⟩
    simp only
    cases hi : d.item with
    | closeMarker => exact h.closeSucceeded hd hi
    | removed b =>
      have hnone : (s.setDrain none).Lawful := by
        have := h.leave hh (by rw [hi]; simp) .clean .ok
        rwa [hi] at this
      simp only [removedSucceeded]
      cases hs : d.stage with
      | beforeImage => exact hnone
      | imageWrite => exact hnone
      | dataWrite => exact hnone
      | closeHeader => exact hnone
      | recordHeader =>
        refine h.removedRecorded hd hi hs ?_ ?_ ?_ <;> simp [completeRecord, setItemBody, setJournal, setDrain, hi]
    | postedWrite =>
      cases hb : s.itemBody .postedWrite with
      | some b => exact stage b (by rw [hi]; exact hb) (by rw [hi]; simp) (by rw [hi]; simp)
      | none =>
        have hp := hh.stands
        rw [hi] at hp
        obtain ⟨b1, rest, hq, -⟩ := hp
        simp [itemBody, hq, QueueEntry.body] at hb
    | delayedWrite p =>
      cases hb : s.itemBody (.delayedWrite p) with
      | some b =>
        simp only [hb]
        exact stage b (by rw [hi]; exact hb) (by rw [hi]; simp) (by rw [hi]; simp)
      | none =>
        have hp := hh.stands
        rw [hi] at hp
        obtain ⟨e, he, -⟩ := hp
        simp [itemBody, he.1] at hb

/-- R43, R45, R46, R61, R76, R94, R99: the head's operation ends in failure. -/
theorem Lawful.headFailed {s : State} (h : s.Lawful) : s.headFailed.Lawful := by
  simp only [State.headFailed]
  cases hd : s.drain with
  | none => exact h
  | some d =>
    obtain ⟨n, hh⟩ := h.heads_of_drain hd
    have hf := h.failed (by rw [hd]; simp)
    have hdf : (s.setJournalState .failed).drain = some d := by simpa using hd
    obtain ⟨nf, hhf⟩ := hf.heads_of_drain hdf
    have stage : d.item ≠ .closeMarker → (s.stageFailed d).Lawful := by
      intro hc
      simp only [stageFailed]
      cases hs : d.stage with
      | beforeImage => exact h.leave hh hc _ _
      | dataWrite => exact h.leave hh hc _ _
      | imageWrite => exact hf.leave hhf hc _ _
      | recordHeader => exact hf.leave hhf hc _ _
      | closeHeader => exact absurd ((h.work.cover.close d hd).mp hs) hc
    simp only
    cases hi : d.item with
    | closeMarker => exact h.closeFailed hd hi
    | postedWrite => exact stage (by rw [hi]; simp)
    | delayedWrite p => exact stage (by rw [hi]; simp)
    | removed b =>
      have hnone : (s.setDrain none).Lawful := by
        have := h.leave hh (by rw [hi]; simp) .clean .ok
        rwa [hi] at this
      have hnonef : ((s.setJournalState .failed).setDrain none).Lawful := by
        have := hf.leave hhf (by rw [hi]; simp) .clean .ok
        rwa [hi] at this
      have hfail : ((s.setDrain none).setJournalState .failed).Lawful := by
        refine hnonef.congr ?_ (by simp [inFlight])
        simp [parts, setJournalState_journal, setDrain]
      simp only [removedFailed]
      cases hs : d.stage with
      | beforeImage => exact hnone
      | imageWrite => exact hfail
      | dataWrite => exact hnone
      | closeHeader => exact hnone
      | recordHeader => exact hfail

/-- R102: the header write of INIT JOURNAL ends. -/
theorem Lawful.initEnded {s : State} (h : s.Lawful) (hl : s.mgmt.longCmd = some .initJournal) (hop : s.port.op = none)
    (ok : Bool) : (s.initEnded ok).Lawful := by
  obtain ⟨hj, hd⟩ := h.work.phase.init hl
  have hm : ∀ m, QueueEntry.marker m ∉ s.queue := fun m hm => by
    have := h.marks.mp ⟨m, hm⟩
    rw [hl] at this; cases this
  have key : ∀ (st : JournalState) (r : LongResult), st = .active ∨ st = .failed →
      ((s.setJournalState st).endLong r).Lawful := by
    intro st r hst
    have hst' : st = .active ∨ st = .closing ∨ st = .failed := hst.imp id .inr
    have hjt : ((s.setJournalState st).endLong r).journal = { s.journal with state := st } := by
      simp [endLong, setJournalState_journal]
    refine h.of_state (st := st) (by simp [endLong]) hjt hst' (by simp [inFlight, endLong]) ?_ ?_ (fun _ => hm) ?_
    · simpa [endLong] using hm
    · intro op hop'
      have : s.port.op = some op := by simpa [endLong] using hop'
      rw [hop] at this; cases this
    · refine phaseLaw_of_state h.work.phase (fun _ => .inr (.inl hj)) (by rw [hj]; simp) (by simp [endLong])
        (by rw [hjt]; exact hst') (fun hc => ?_) (by simp [endLong])
      obtain ⟨q1, q2, q3⟩ := h.work.phase.quiet (.inl hc)
      refine ⟨by simpa [endLong] using q1, by simpa [endLong] using q2, fun b hb => q3 b ?_⟩
      exact (writeStands_congr (s := s) (by simp [endLong]) (by simp [endLong]) (by simp [endLong]) b).mp hb
  simp only [State.initEnded]
  cases ok
  · exact key _ _ (.inr rfl)
  · exact key _ _ (.inl rfl)

end Sys2Proof.Machine.State
end

