-- ==== Sys2Proof/Laws/WorkReads.lean ====
section
/-! SUPPORT. The laws of the work that stands, over the delayed request engine: its entries, its slots, the fills and the
arbiter. -/

namespace Sys2Proof.Machine.State

/-! ### Lines without a write -/

/-- No write to the line is in the write order. -/
def lineClear (s : State) (l : Nat) : Prop := ∀ b, s.writeStands b → b.line ≠ l

/-- R65: no write stands to the line of a VALID slot. -/
theorem Lawful.clear_of_valid {s : State} (h : s.Lawful) {i : Fin 8} {l : Nat} {d : Line} {o : Option (Fin 4)} {a : Nat}
    (hs : s.engine.slots[i] = .valid l d o a) : s.lineClear l :=
  fun b hb hl => (h.work.fresh.slots b i hb).1 d o a (by rw [hs, hl])

/-- R65: no write stands to the line of a FILLING slot that is not stale. -/
theorem Lawful.clear_of_filling {s : State} (h : s.Lawful) {i : Fin 8} {l : Nat} {o : Option (Fin 4)}
    (hs : s.engine.slots[i] = .filling l false o) : s.lineClear l :=
  fun b hb hl => (h.work.fresh.slots b i hb).2 o (by rw [hs, hl])

/-- R57, R58: no write stands to the line of a ready read entry. -/
theorem Lawful.clear_of_ready {s : State} (h : s.Lawful) {p : Fin 4} {e : DelayedEntry} (he : s.engine.table[p] = some e)
    (hk : e.kind = .read) (hr : s.noWriteBefore e.body) : s.lineClear e.body.line :=
  fun b hb hl => hr b hb hl (h.work.fresh.behind b p e hb he hk hl.symm)

/-! ### Changes of the engine -/

/-- R62, R68, R72: the fill of a FILLING slot is carried by the port, and one slot at most is FILLING. -/
def fillsCarried (s : State) : Prop :=
  (∀ (i : Fin 8) (l : Nat) (st : Bool) (o : Option (Fin 4)), s.engine.slots[i] = .filling l st o →
    ∃ op, s.port.op = some op ∧ op.line = l ∧ op.owner = if o = none then .prefetch else .demandFill) ∧
  ∀ (i j : Fin 8) (l l' : Nat) (st st' : Bool) (o o' : Option (Fin 4)), s.engine.slots[i] = .filling l st o →
    s.engine.slots[j] = .filling l' st' o' → i = j

theorem Lawful.fillsCarried {s : State} (h : s.Lawful) : s.fillsCarried := ⟨h.work.entry.fills, h.work.entry.oneFill⟩

/-- No slot is FILLING. -/
theorem fillsCarried_of_none {s : State} (h : ∀ (i : Fin 8) l st o, s.engine.slots[i] ≠ .filling l st o) : s.fillsCarried :=
  ⟨fun i l st o hs => absurd hs (h i l st o), fun i _ l _ st _ o _ hs => absurd hs (h i l st o)⟩

/-- A slot takes a value that is not FILLING. -/
theorem fillsCarried_set {s t : State} (h : s.fillsCarried) {i : Fin 8} {x : Slot}
    (hs : t.engine.slots = s.engine.slots.set i x) (hx : ∀ l st o, x ≠ .filling l st o) (hp : t.port.op = s.port.op) :
    t.fillsCarried := by
  have slot : ∀ (j : Fin 8) l st o, t.engine.slots[j] = .filling l st o → s.engine.slots[j] = .filling l st o := by
    intro j l st o hj
    rw [hs, get_set] at hj
    split at hj
    · exact absurd hj (hx l st o)
    · exact hj
  exact ⟨fun j l st o hj => by rw [hp]; exact h.1 j l st o (slot j l st o hj),
    fun j k l l' st st' o o' hj hk => h.2 j k l l' st st' o o' (slot j l st o hj) (slot k l' st' o' hk)⟩

/-- The one FILLING slot takes a value that is not FILLING. -/
theorem no_fill_of_set {s t : State} (h : s.fillsCarried) {i : Fin 8} {x : Slot} {l : Nat} {st : Bool} {o : Option (Fin 4)}
    (hi : s.engine.slots[i] = .filling l st o) (hs : t.engine.slots = s.engine.slots.set i x)
    (hx : ∀ l st o, x ≠ .filling l st o) : ∀ (j : Fin 8) l st o, t.engine.slots[j] ≠ .filling l st o := by
  intro j l' st' o' hj
  rw [hs, get_set] at hj
  split at hj
  · exact hx _ _ _ hj
  · rename_i hne
    exact hne (h.2 i j l l' st st' o o' hi hj)

/-- With no slot FILLING, one becomes so, and its fill is issued. -/
theorem fillsCarried_issued {s t : State} (h : ∀ (i : Fin 8) l st o, s.engine.slots[i] ≠ .filling l st o) {i : Fin 8} {l : Nat}
    {st : Bool} {o : Option (Fin 4)} {op : Operation} (hs : t.engine.slots = s.engine.slots.set i (.filling l st o))
    (hp : t.port.op = some op) (hl : op.line = l) (ho : op.owner = if o = none then .prefetch else .demandFill) :
    t.fillsCarried := by
  have slot : ∀ (j : Fin 8) l' st' o', t.engine.slots[j] = .filling l' st' o' → i = j ∧ l' = l ∧ o' = o := by
    intro j l' st' o' hj
    rw [hs, get_set] at hj
    split at hj
    · cases hj; exact ⟨by assumption, rfl, rfl⟩
    · exact absurd hj (h _ _ _ _)
  refine ⟨fun j l' st' o' hj => ?_, fun j k l' l'' st' st'' o' o'' hj hk => (slot j _ _ _ hj).1.symm.trans (slot k _ _ _ hk).1⟩
  obtain ⟨-, rfl, rfl⟩ := slot j l' st' o' hj
  exact ⟨op, hp, hl, ho⟩

/-- With the port free no slot is FILLING. -/
theorem Lawful.no_fill {s : State} (h : s.Lawful) (hp : s.port.op = none) (i : Fin 8) (l : Nat) (st : Bool)
    (o : Option (Fin 4)) : s.engine.slots[i] ≠ .filling l st o := by
  intro hs
  obtain ⟨op, hop, -⟩ := h.work.entry.fills i l st o hs
  rw [hp] at hop; cases hop

/-- The engine changes, and the delayed writes and every entry's request stay. -/
theorem Lawful.of_engine {s t : State} (h : s.Lawful)
    (hw : (t.queue, t.drain, t.nextPos, t.journal, t.startup, t.mgmt.longCmd) =
      (s.queue, s.drain, s.nextPos, s.journal, s.startup, s.mgmt.longCmd))
    (hdel : ∀ p e, t.delays p e ↔ s.delays p e)
    (hbody : ∀ (p : Fin 4) (e : DelayedEntry), t.engine.table[p] = some e → ∃ e', s.engine.table[p] = some e' ∧ e.body = e'.body)
    (hi : ∀ op, t.port.op = some op → op.owner = .initHeader → s.mgmt.longCmd = some .initJournal)
    (entry : t.entryLaw) (fresh : t.freshLaw) : t.Lawful := by
  simp only [Prod.mk.injEq] at hw
  obtain ⟨h1, h2, h3, h4, h5, h6⟩ := hw
  have hs : ∀ b, t.writeStands b ↔ s.writeStands b := fun b => by simp only [writeStands, h1, h2, hdel]
  have hn : ∀ n i, t.standsAt n i ↔ s.standsAt n i := fun n i => by cases i <;> simp only [standsAt, h1, hdel]
  have body : ∀ d, s.drain = some d → t.itemBody d.item = s.itemBody d.item := by
    intro d hd
    obtain ⟨n, hh⟩ := h.heads_of_drain hd
    have hp := hh.stands
    cases hi : d.item with
    | postedWrite => simp only [itemBody, h1]
    | closeMarker => rfl
    | removed b => rfl
    | delayedWrite p =>
      rw [hi] at hp
      obtain ⟨e, he, -⟩ := hp
      simp only [itemBody, he.1, ((hdel p e).mpr he).1]
  obtain ⟨o1, o2, o3, o4⟩ := h.order
  refine ⟨⟨by rwa [h1], by rwa [h1, h3], fun p e he => ?_, fun p q e f he hf hpq => ?_⟩, by rw [h1]; exact h.one,
    by rw [h1, h6]; exact h.marks, by rw [h6]; exact hi, ⟨?_, entry, fresh, ?_, ?_, ?_⟩⟩
  · obtain ⟨e', he', hb⟩ := hbody p e he
    rw [h1, h3, hb]
    exact o3 p e' he'
  · obtain ⟨e', he', hb⟩ := hbody p e he
    obtain ⟨f', hf', hb'⟩ := hbody q f hf
    rw [hb, hb']
    exact o4 p q e' f' he' hf' hpq
  · simpa only [drainsOldest, h1, h2, h3, hn, hdel] using h.work.oldest
  · obtain ⟨p1, p2, p3, p4, p5, p6, p7, p8⟩ := h.work.phase
    refine ⟨?_, ?_, ?_, ?_, ?_, ?_, ?_, ?_⟩ <;> (try simp only [hs, h1, h2, h4, h5, h6]) <;> assumption
  · obtain ⟨c1, c2, c3, c4, c5, c6, c7, c8, c9⟩ := h.work.cover
    refine ⟨?_, ?_, ?_, ?_, ?_, ?_, ?_, ?_, ?_⟩ <;> (try simp only [hs, h1, h2, h4]) <;> try assumption
    · intro b hb hr
      obtain ⟨d, hd, hst, hib⟩ := c7 b hb hr
      exact ⟨d, hd, hst, by rw [body d hd, hib]⟩
    · intro d hd hst
      rw [body d hd]
      exact c9 d hd hst
  · have : t.held ≤ s.held := held_le (by rw [h1]) (fun p e he hc => ⟨e, (hdel p e).mp he, hc⟩)
      (fun d b hd hi => ⟨d, by rw [← h2, hd], hi⟩) (by rw [h4])
    have hk := h.work.capacity
    simp only [capacityLaw, h4] at hk ⊢
    omega

/-- A read entry and a slot change together. -/
theorem Lawful.of_read {s t : State} (h : s.Lawful) {p : Fin 4} {e e' : DelayedEntry} {i : Fin 8} {x : Slot}
    (he : s.engine.table[p] = some e) (hk : e.kind = .read) (hb : e'.body = e.body) (hk' : e'.kind = .read)
    (ht : t.engine.table = s.engine.table.set p (some e')) (hs : t.engine.slots = s.engine.slots.set i x)
    (hp : ∀ l ∈ t.engine.prefetch, l ∈ s.engine.prefetch ∨ s.lineClear l)
    (hw : (t.queue, t.drain, t.nextPos, t.journal, t.startup, t.mgmt.longCmd) =
      (s.queue, s.drain, s.nextPos, s.journal, s.startup, s.mgmt.longCmd))
    (hi : ∀ op, t.port.op = some op → op.owner = .initHeader → s.mgmt.longCmd = some .initJournal)
    (hf : t.fillsCarried)
    (ho : ∀ q : Fin 4, (∃ l st, s.engine.slots[i] = .filling l st (some q)) ∨
      (∃ l d a, s.engine.slots[i] = .valid l d (some q) a) → q = p)
    (hes : e.slot = none ∨ e.slot = some i) (htm : e'.timer.isSome = true ↔ ∃ r, e'.state = .complete r)
    (hx : (s.lineClear e.body.line ∧ e'.slot = some i ∧ ((e'.state = .issued ∧ x = .filling e.body.line false (some p)) ∨
        (e'.state = .complete .ok ∧ ∃ d a, x = .valid e.body.line d (some p) a))) ∨
      (e'.slot = none ∧ (e'.state = .waiting ∨ (e'.state = .complete .fail ∧ s.lineClear e.body.line)) ∧ x = .free)) :
    t.Lawful := by
  have get : ∀ q : Fin 4, t.engine.table[q] = if p = q then some e' else s.engine.table[q] := fun q => by rw [ht, get_set]
  have slot : ∀ j : Fin 8, t.engine.slots[j] = if i = j then x else s.engine.slots[j] := fun j => by rw [hs, get_set]
  have entry : ∀ (q : Fin 4) (f : DelayedEntry), t.engine.table[q] = some f →
      (p = q ∧ f = e') ∨ (p ≠ q ∧ s.engine.table[q] = some f) := by
    intro q f hf
    rw [get] at hf
    split at hf
    · exact .inl ⟨by assumption, (Option.some.inj hf).symm⟩
    · exact .inr ⟨by assumption, hf⟩
  have hdel : ∀ q f, t.delays q f ↔ s.delays q f := by
    intro q f
    simp only [delays, get]
    split
    · rename_i hpq
      subst hpq
      constructor
      · rintro ⟨h1, h2, -⟩
        cases h1
        rw [hk'] at h2; cases h2
      · rintro ⟨h1, h2, -⟩
        rw [he] at h1
        cases h1
        rw [hk] at h2; cases h2
    · rfl
  have hst : ∀ b, t.writeStands b ↔ s.writeStands b := by
    simp only [Prod.mk.injEq] at hw
    exact fun b => by simp only [writeStands, hw.1, hw.2.1, hdel]
  have other : ∀ (q : Fin 4) (f : DelayedEntry) (j : Fin 8), p ≠ q → s.engine.table[q] = some f → f.slot = some j → i ≠ j := by
    rintro q f j hpq hq hj rfl
    obtain ⟨-, hx'⟩ := h.work.entry.slots q f i hq hj
    refine hpq (ho q ?_).symm
    rcases hx' with ⟨-, st, h1⟩ | ⟨-, d, a, h1⟩
    · exact .inl ⟨_, _, h1⟩
    · exact .inr ⟨_, _, _, h1⟩
  have xowner : ∀ q : Fin 4, (∃ l st, x = .filling l st (some q)) ∨ (∃ l d a, x = .valid l d (some q) a) →
      q = p ∧ e'.slot = some i := by
    intro q hq
    rcases hx with ⟨-, h1, ⟨-, rfl⟩ | ⟨-, d, a, rfl⟩⟩ | ⟨-, -, rfl⟩
    · rcases hq with ⟨l, st, h2⟩ | ⟨l, d, a, h2⟩
      · cases h2; exact ⟨rfl, h1⟩
      · cases h2
    · rcases hq with ⟨l, st, h2⟩ | ⟨l, d', a', h2⟩
      · cases h2
      · cases h2; exact ⟨rfl, h1⟩
    · rcases hq with ⟨l, st, h2⟩ | ⟨l, d, a, h2⟩ <;> cases h2
  refine h.of_engine hw hdel (fun q f hf => ?_) hi ?_ ?_
  · rcases entry q f hf with ⟨rfl, rfl⟩ | ⟨-, h1⟩
    · exact ⟨e, he, hb⟩
    · exact ⟨f, h1, rfl⟩
  · refine ⟨?_, ?_, ?_, ?_, ?_, hf.1, hf.2⟩
    · intro q f hf
      rcases entry q f hf with ⟨rfl, rfl⟩ | ⟨-, h1⟩
      · exact htm
      · exact h.work.entry.timers q f h1
    · intro q f hf hkf
      rcases entry q f hf with ⟨rfl, rfl⟩ | ⟨-, h1⟩
      · rw [hk'] at hkf; cases hkf
      · simp only [Prod.mk.injEq] at hw
        rw [hw.2.1]
        exact h.work.entry.drains q f h1 hkf
    · intro q f j hf hj
      rcases entry q f hf with ⟨rfl, rfl⟩ | ⟨hpq, h1⟩
      · refine ⟨hk', ?_⟩
        rcases hx with ⟨-, h1, h2⟩ | ⟨h1, -⟩
        · rw [h1] at hj
          cases hj
          rw [slot, if_pos rfl, hb]
          rcases h2 with ⟨h2, rfl⟩ | ⟨h2, d, a, rfl⟩
          · exact .inl ⟨h2, _, rfl⟩
          · exact .inr ⟨h2, _, _, rfl⟩
        · rw [h1] at hj; cases hj
      · rw [slot, if_neg (other q f j hpq h1 hj)]
        exact h.work.entry.slots q f j h1 hj
    · intro q f hf hkf hst'
      rcases entry q f hf with ⟨rfl, rfl⟩ | ⟨-, h1⟩
      · rcases hx with ⟨-, h1, -⟩ | ⟨-, h1, -⟩
        · rw [h1]; rfl
        · rcases h1 with h1 | ⟨h1, -⟩ <;> rw [h1] at hst' <;> simp at hst'
      · exact h.work.entry.reads q f h1 hkf hst'
    · intro j q hj
      rw [slot] at hj
      by_cases hij : i = j
      · subst hij
        rw [if_pos rfl] at hj
        obtain ⟨rfl, h1⟩ := xowner q hj
        exact ⟨e', by rw [get, if_pos rfl], h1⟩
      · rw [if_neg hij] at hj
        obtain ⟨f, hf', hj'⟩ := h.work.entry.owners j q hj
        have hpq : p ≠ q := by
          rintro rfl
          rw [he] at hf'
          cases hf'
          rcases hes with h1 | h1 <;> rw [h1] at hj' <;> cases hj'
          exact hij rfl
        exact ⟨f, by rw [get, if_neg hpq, hf'], hj'⟩
  · obtain ⟨f1, f2, f3, f4⟩ := h.work.fresh
    have clearx : ∀ b, s.writeStands b → (∀ d o a, x ≠ .valid b.line d o a) ∧ ∀ o, x ≠ .filling b.line false o := by
      intro b hb'
      rcases hx with ⟨hc, -, ⟨-, rfl⟩ | ⟨-, d, a, rfl⟩⟩ | ⟨-, -, rfl⟩
      · refine ⟨fun d o a h1 => (by cases h1), fun o h1 => ?_⟩
        injection h1 with h1 h2
        exact hc b hb' h1.symm
      · refine ⟨fun d o a h1 => ?_, fun o h1 => (by cases h1)⟩
        injection h1 with h1 h2
        exact hc b hb' h1.symm
      · exact ⟨fun d o a h1 => (by cases h1), fun o h1 => (by cases h1)⟩
    refine ⟨?_, ?_, ?_, ?_⟩ <;> simp only [hst]
    · intro b q f hb' hf' hkf hl
      rcases entry q f hf' with ⟨rfl, rfl⟩ | ⟨-, h1⟩
      · rw [hb]
        exact f1 b p e hb' he hk (by rw [← hb, hl])
      · exact f1 b q f hb' h1 hkf hl
    · intro b j hb'
      rw [slot]
      split
      · exact clearx b hb'
      · exact f2 b j hb'
    · intro b hb' hm
      rcases hp _ hm with h1 | h1
      · exact f3 b hb' h1
      · exact h1 b hb' rfl
    · intro b q f hb' hf' hkf hl
      rcases entry q f hf' with ⟨rfl, rfl⟩ | ⟨hpq, h1⟩
      · rcases hx with ⟨hc, -⟩ | ⟨-, h1 | ⟨-, hc⟩, -⟩
        · exact absurd (by rw [← hb, hl]) (hc b hb')
        · exact .inl h1
        · exact absurd (by rw [← hb, hl]) (hc b hb')
      · rcases f4 b q f hb' h1 hkf hl with h2 | ⟨h2, j, h3, h4⟩
        · exact .inl h2
        · exact .inr ⟨h2, j, h3, by rw [slot, if_neg (other q f j hpq h1 h3)]; exact h4⟩

/-- A slot without an owner takes another value without an owner. -/
theorem Lawful.of_slot {s t : State} (h : s.Lawful) {i : Fin 8} {x : Slot}
    (ht : t.engine.table = s.engine.table) (hs : t.engine.slots = s.engine.slots.set i x)
    (hp : ∀ l ∈ t.engine.prefetch, l ∈ s.engine.prefetch)
    (hw : (t.queue, t.drain, t.nextPos, t.journal, t.startup, t.mgmt.longCmd) =
      (s.queue, s.drain, s.nextPos, s.journal, s.startup, s.mgmt.longCmd))
    (hi : ∀ op, t.port.op = some op → op.owner = .initHeader → s.mgmt.longCmd = some .initJournal)
    (hf : t.fillsCarried)
    (ho : ∀ q : Fin 4, ¬ ((∃ l st, s.engine.slots[i] = .filling l st (some q)) ∨
      (∃ l d a, s.engine.slots[i] = .valid l d (some q) a)))
    (hx : x = .free ∨ (∃ l, s.lineClear l ∧ (x = .filling l false none ∨ ∃ d a, x = .valid l d none a))) : t.Lawful := by
  have slot : ∀ j : Fin 8, t.engine.slots[j] = if i = j then x else s.engine.slots[j] := fun j => by rw [hs, get_set]
  have hdel : ∀ q f, t.delays q f ↔ s.delays q f := fun q f => by simp only [delays, ht]
  have hst : ∀ b, t.writeStands b ↔ s.writeStands b := by
    simp only [Prod.mk.injEq] at hw
    exact fun b => by simp only [writeStands, hw.1, hw.2.1, hdel]
  have other : ∀ (q : Fin 4) (f : DelayedEntry) (j : Fin 8), s.engine.table[q] = some f → f.slot = some j → i ≠ j := by
    rintro q f j hq hj rfl
    obtain ⟨-, hx'⟩ := h.work.entry.slots q f i hq hj
    refine ho q ?_
    rcases hx' with ⟨-, st, h1⟩ | ⟨-, d, a, h1⟩
    · exact .inl ⟨_, _, h1⟩
    · exact .inr ⟨_, _, _, h1⟩
  refine h.of_engine hw hdel (fun q f hf => ⟨f, by rwa [ht] at hf, rfl⟩) hi ?_ ?_
  · obtain ⟨e1, e2, e3, e4, e5, e6, e7⟩ := h.work.entry
    refine ⟨by rw [ht]; exact e1, ?_, ?_, by rw [ht]; exact e4, ?_, hf.1, hf.2⟩
    · simp only [Prod.mk.injEq] at hw
      rw [ht, hw.2.1]; exact e2
    · intro q f j hq hj
      rw [ht] at hq
      rw [slot, if_neg (other q f j hq hj)]
      exact e3 q f j hq hj
    · intro j q hj
      rw [slot] at hj
      rw [ht]
      split at hj
      · rcases hx with rfl | ⟨l, -, rfl | ⟨d, a, rfl⟩⟩ <;> rcases hj with ⟨_, _, h1⟩ | ⟨_, _, _, h1⟩ <;> cases h1
      · exact e5 j q hj
  · obtain ⟨f1, f2, f3, f4⟩ := h.work.fresh
    refine ⟨?_, ?_, ?_, ?_⟩ <;> (try simp only [hst, ht]) <;> try assumption
    · intro b j hb'
      rw [slot]
      split
      · rcases hx with rfl | ⟨l, hc, rfl | ⟨d, a, rfl⟩⟩
        · exact ⟨fun d o a h1 => (by cases h1), fun o h1 => (by cases h1)⟩
        · refine ⟨fun d o a h1 => (by cases h1), fun o h1 => ?_⟩
          injection h1 with h1 h2
          exact hc b hb' h1.symm
        · refine ⟨fun d o a h1 => ?_, fun o h1 => (by cases h1)⟩
          injection h1 with h1 h2
          exact hc b hb' h1.symm
      · exact f2 b j hb'
    · exact fun b hb' hm => f3 b hb' (hp _ hm)
    · intro b q f hb' hf' hkf hl
      rcases f4 b q f hb' hf' hkf hl with h2 | ⟨h2, j, h3, h4⟩
      · exact .inl h2
      · exact .inr ⟨h2, j, h3, by rw [slot, if_neg (other q f j hf' h3)]; exact h4⟩

/-! ### Adoption and release -/

theorem report_parts (s : State) (r : Fin 9) (c : RegionCode) : (s.report r c).parts = s.parts := by simp [parts]

/-- R64: an unowned VALID slot is adopted, or stays. -/
theorem Lawful.adopt {s : State} (h : s.Lawful) (i : Fin 8) : (s.adopt i).Lawful := by
  simp only [State.adopt]
  cases hs : s.engine.slots[i] with
  | free => exact h
  | filling l st o => exact h
  | valid l d o a =>
    cases o with
    | some p => exact h
    | none =>
      simp only
      cases ho : s.oldestReadyRead (fun x => x == l) with
      | none => exact h
      | some p =>
        obtain ⟨e, he, hk, hw, hl, hr⟩ := oldestReadyRead_waiting ho
        have hl' : e.body.line = l := by simpa using hl
        simp only [he]
        have hsl : e.slot = none := by
          cases hsl : e.slot with
          | none => rfl
          | some j =>
            obtain ⟨-, h1⟩ := h.work.entry.slots p e j he hsl
            rcases h1 with ⟨h1, -⟩ | ⟨h1, -⟩ <;> rw [hw] at h1 <;> cases h1
        refine (Lawful.of_read (t := (s.setSlot i (.valid l d (some p) a)).completeEntry p e .ok (some i)) h (p := p) (e := e)
          (e' := { e with state := .complete .ok, slot := some i, timer := some (s.setSlot i (.valid l d (some p) a)).engine.claimTime })
          (i := i) (x := .valid l d (some p) a) he hk rfl hk rfl rfl (fun l hm => .inl hm) rfl h.init
          (fillsCarried_set h.fillsCarried (i := i) (x := .valid l d (some p) a) rfl (fun _ _ _ hx => by cases hx) rfl) ?_ (.inl hsl)
          ?_ (.inl ⟨h.clear_of_ready he hk (isReady_iff.mp hr), rfl, .inr ⟨rfl, d, a, by rw [hl']⟩⟩)).congr ?_ ?_
        · intro q hq
          rcases hq with ⟨_, _, h1⟩ | ⟨_, _, _, h1⟩ <;> rw [hs] at h1 <;> cases h1
        · exact ⟨fun _ => ⟨_, rfl⟩, fun _ => rfl⟩
        · exact report_parts _ _ _
        · simp [inFlight]

/-- R31, R74: a COMPLETE entry is removed. -/
theorem Lawful.removeEntry {s : State} (h : s.Lawful) {p : Fin 4} {e : DelayedEntry} {r : EntryResult}
    (he : s.engine.table[p] = some e) (hc : e.state = .complete r) : (s.removeEntry p e).Lawful := by
  have get : ∀ q : Fin 4, (s.setEntry p none).engine.table[q] = if p = q then none else s.engine.table[q] := fun q => by
    simp only [setEntry, setEngine, get_set]
  have nd : ∀ f, ¬ s.delays p f := by
    rintro f ⟨h1, -, h2⟩
    rw [he] at h1
    cases h1
    rw [hc] at h2; simp at h2
  have main : ∀ t : State, (t.queue, t.drain, t.nextPos, t.journal, t.startup, t.mgmt.longCmd, t.port, t.engine.prefetch) =
        (s.queue, s.drain, s.nextPos, s.journal, s.startup, s.mgmt.longCmd, s.port, s.engine.prefetch) →
      t.engine.table = s.engine.table.set p none →
      (e.slot = none ∧ t.engine.slots = s.engine.slots ∨ ∃ i l d a, e.slot = some i ∧ s.engine.slots[i] = .valid l d (some p) a ∧
        t.engine.slots = s.engine.slots.set i (.valid l d none a)) → t.Lawful := by
    intro t hw ht hs
    simp only [Prod.mk.injEq] at hw
    obtain ⟨h1, h2, h3, h4, h5, h6, h7, h8⟩ := hw
    have get : ∀ q : Fin 4, t.engine.table[q] = if p = q then none else s.engine.table[q] := fun q => by rw [ht, get_set]
    have entry : ∀ (q : Fin 4) (f : DelayedEntry), t.engine.table[q] = some f → p ≠ q ∧ s.engine.table[q] = some f := by
      intro q f hf
      rw [get] at hf
      split at hf
      · cases hf
      · exact ⟨by assumption, hf⟩
    have hdel : ∀ q f, t.delays q f ↔ s.delays q f := by
      intro q f
      simp only [delays, get]
      by_cases hpq : p = q
      · subst hpq
        rw [if_pos rfl]
        exact ⟨fun ⟨h1, _⟩ => (by cases h1), fun h1 => absurd h1 (nd f)⟩
      · rw [if_neg hpq]
    have hst : ∀ b, t.writeStands b ↔ s.writeStands b := fun b => by simp only [writeStands, h1, h2, hdel]
    have same : ∀ (q : Fin 4) (f : DelayedEntry) (j : Fin 8), p ≠ q → s.engine.table[q] = some f → f.slot = some j →
        t.engine.slots[j] = s.engine.slots[j] := by
      intro q f j hpq hq hj
      rcases hs with ⟨-, hs⟩ | ⟨i, l, d, a, -, h9, hs⟩
      · rw [hs]
      · rw [hs, get_set, if_neg]
        rintro rfl
        obtain ⟨-, hx⟩ := h.work.entry.slots q f i hq hj
        rcases hx with ⟨-, _, hx⟩ | ⟨-, _, _, hx⟩ <;> rw [h9] at hx <;> cases hx
        exact hpq rfl
    have hf : t.fillsCarried := by
      rcases hs with ⟨-, hs⟩ | ⟨i, l, d, a, -, -, hs⟩
      · have := h.fillsCarried
        simpa only [State.fillsCarried, hs, h7] using this
      · exact fillsCarried_set h.fillsCarried hs (fun _ _ _ hx => by cases hx) (by rw [h7])
    refine h.of_engine (by rw [h1, h2, h3, h4, h5, h6]) hdel (fun q f hq => ⟨f, (entry q f hq).2, rfl⟩)
      (by rw [h7]; exact h.init) ?_ ?_
    · obtain ⟨e1, e2, e3, e4, e5, e6, e7⟩ := h.work.entry
      refine ⟨fun q f hq => e1 q f (entry q f hq).2, fun q f hq => by rw [h2]; exact e2 q f (entry q f hq).2, ?_,
        fun q f hq => e4 q f (entry q f hq).2, ?_, hf.1, hf.2⟩
      · intro q f j hq hj
        obtain ⟨hpq, hq'⟩ := entry q f hq
        rw [same q f j hpq hq' hj]
        exact e3 q f j hq' hj
      · intro j q hj
        have back : (∃ l st, s.engine.slots[j] = .filling l st (some q)) ∨ (∃ l d a, s.engine.slots[j] = .valid l d (some q) a) := by
          rcases hs with ⟨-, hs⟩ | ⟨i, l, d, a, -, h9, hs⟩
          · rwa [hs] at hj
          · rw [hs, get_set] at hj
            split at hj
            · rcases hj with ⟨_, _, hj⟩ | ⟨_, _, _, hj⟩ <;> cases hj
            · exact hj
        obtain ⟨f, hq, hfj⟩ := e5 j q back
        refine ⟨f, ?_, hfj⟩
        rw [get, if_neg, hq]
        rintro rfl
        rw [he] at hq
        cases hq
        rcases hs with ⟨h9, -⟩ | ⟨i, l, d, a, h9, h10, hs⟩
        · rw [h9] at hfj; cases hfj
        · rw [h9] at hfj
          cases hfj
          rw [hs, get_set, if_pos rfl] at hj
          rcases hj with ⟨_, _, hj⟩ | ⟨_, _, _, hj⟩ <;> cases hj
    · obtain ⟨f1, f2, f3, f4⟩ := h.work.fresh
      refine ⟨?_, ?_, ?_, ?_⟩ <;> (try simp only [hst, h8]) <;> try assumption
      · exact fun b q f hb hq => f1 b q f hb (entry q f hq).2
      · intro b j hb
        rcases hs with ⟨-, hs⟩ | ⟨i, l, d, a, -, h9, hs⟩
        · rw [hs]; exact f2 b j hb
        · rw [hs, get_set]
          split
          · refine ⟨fun d' o' a' h10 => ?_, fun o h10 => by cases h10⟩
            injection h10 with h10
            exact (f2 b i hb).1 d (some p) a (by rw [h9, h10])
          · exact f2 b j hb
      · intro b q f hb hq hk hl
        obtain ⟨hpq, hq'⟩ := entry q f hq
        rcases f4 b q f hb hq' hk hl with h9 | ⟨h9, j, h10, h11⟩
        · exact .inl h9
        · exact .inr ⟨h9, j, h10, by rw [same q f j hpq hq' h10, h11]⟩
  simp only [State.removeEntry, releaseSlot]
  cases hsl : e.slot with
  | none => exact main _ rfl rfl (.inl ⟨hsl, rfl⟩)
  | some i =>
    obtain ⟨-, h1⟩ := h.work.entry.slots p e i he hsl
    rcases h1 with ⟨h1, -⟩ | ⟨-, d, a, h1⟩
    · rw [hc] at h1; cases h1
    · have hi : (s.setEntry p none).engine.slots[i] = .valid e.body.line d (some p) a := h1
      simp only [hi]
      exact (main ((s.setEntry p none).setSlot i (.valid e.body.line d none a)) rfl rfl
        (.inr ⟨i, _, d, a, hsl, h1, rfl⟩)).adopt i

/-! ### Fills -/

/-- What `fillingSlot` names. -/
theorem fillingSlot_eq_some {g : Engine} {i : Fin 8} {l : Nat} {st : Bool} {o : Option (Fin 4)}
    (h : g.fillingSlot = some (i, l, st, o)) : g.slots[i] = .filling l st o := by
  simp only [Engine.fillingSlot, List.findSome?_eq_some_iff] at h
  obtain ⟨_, j, _, -, hj, -⟩ := h
  split at hj
  · rename_i hs
    cases hj
    exact hs
  · cases hj
  · cases hj

theorem fillingSlot_eq_none {g : Engine} (h : g.fillingSlot = none) (i : Fin 8) (l : Nat) (st : Bool) (o : Option (Fin 4)) :
    g.slots[i] ≠ .filling l st o := by
  intro hs
  simp only [Engine.fillingSlot, List.findSome?_eq_none_iff] at h
  have := h i (List.mem_finRange i)
  rw [hs] at this
  cases this

/-- R63, R66: the slot of a demand fill and its entry, when it ends. -/
theorem Lawful.owner_of_filling {s : State} (h : s.Lawful) {i : Fin 8} {l : Nat} {st : Bool} {p : Fin 4}
    (hs : s.engine.slots[i] = .filling l st (some p)) :
    ∃ e, s.engine.table[p] = some e ∧ e.kind = .read ∧ e.slot = some i ∧ e.state = .issued ∧ e.body.line = l := by
  obtain ⟨e, he, hsl⟩ := h.work.entry.owners i p (.inl ⟨l, st, hs⟩)
  obtain ⟨hk, h1⟩ := h.work.entry.slots p e i he hsl
  rcases h1 with ⟨h1, st', h2⟩ | ⟨-, _, _, h2⟩ <;> rw [hs] at h2 <;> cases h2
  exact ⟨e, he, hk, hsl, h1, rfl⟩

/-- A FILLING slot is freed, and its entry returns to WAITING or fails. -/
theorem Lawful.fill_freed {s t : State} (h : s.Lawful) {i : Fin 8} {l : Nat} {st : Bool} {o : Option (Fin 4)}
    (hs : s.engine.slots[i] = .filling l st o) (hsl : t.engine.slots = s.engine.slots.set i .free)
    (ht : (o = none ∧ t.engine.table = s.engine.table) ∨ ∃ p e e', o = some p ∧ s.engine.table[p] = some e ∧
      t.engine.table = s.engine.table.set p (some e') ∧ e'.body = e.body ∧ e'.kind = e.kind ∧ e'.slot = none ∧
      ((e'.state = .waiting ∧ e'.timer = e.timer) ∨ (e'.state = .complete .fail ∧ e'.timer.isSome = true ∧ st = false)))
    (hw : (t.queue, t.drain, t.nextPos, t.journal, t.startup, t.mgmt.longCmd) =
      (s.queue, s.drain, s.nextPos, s.journal, s.startup, s.mgmt.longCmd)) (hp : t.engine.prefetch = s.engine.prefetch)
    (hi : ∀ op, t.port.op = some op → op.owner = .initHeader → s.mgmt.longCmd = some .initJournal) :
    t.Lawful ∧ ∀ (j : Fin 8) l st o, t.engine.slots[j] ≠ .filling l st o := by
  have no := no_fill_of_set h.fillsCarried (t := t) hs hsl (by simp)
  refine ⟨?_, no⟩
  rcases ht with ⟨rfl, ht⟩ | ⟨p, e, e', rfl, he, ht, hb, hk', hn, hst⟩
  · refine h.of_slot ht hsl (by rw [hp]; exact fun _ => id) hw hi (fillsCarried_of_none no) ?_ (.inl rfl)
    rintro q (⟨_, _, h1⟩ | ⟨_, _, _, h1⟩) <;> rw [hs] at h1 <;> cases h1
  · obtain ⟨e0, he0, hk, hsl0, hiss, hl⟩ := h.owner_of_filling hs
    rw [he] at he0
    cases he0
    refine h.of_read he hk hb (hk'.trans hk) ht hsl (by rw [hp]; exact fun _ hm => .inl hm) hw hi (fillsCarried_of_none no) ?_
      (.inr hsl0) ?_ (.inr ⟨hn, ?_, rfl⟩)
    · rintro q (⟨_, _, h1⟩ | ⟨_, _, _, h1⟩) <;> rw [hs] at h1 <;> cases h1
      rfl
    · have := h.work.entry.timers p e he
      rcases hst with ⟨h1, h2⟩ | ⟨h1, h2, -⟩
      · rw [h2, this, h1, hiss]; simp
      · exact ⟨fun _ => ⟨_, h1⟩, fun _ => h2⟩
    · rcases hst with ⟨h1, -⟩ | ⟨h1, -, rfl⟩
      · exact .inl h1
      · exact .inr ⟨h1, hl ▸ h.clear_of_filling hs⟩

/-- R63: a FILLING slot that is not stale becomes VALID, and its entry COMPLETE with result OK. -/
theorem Lawful.fill_valid {s t : State} (h : s.Lawful) {i : Fin 8} {l : Nat} {o : Option (Fin 4)} {d : Line} {a : Nat}
    (hs : s.engine.slots[i] = .filling l false o) (hsl : t.engine.slots = s.engine.slots.set i (.valid l d o a))
    (ht : (o = none ∧ t.engine.table = s.engine.table) ∨ ∃ p e e', o = some p ∧ s.engine.table[p] = some e ∧
      t.engine.table = s.engine.table.set p (some e') ∧ e'.body = e.body ∧ e'.kind = e.kind ∧ e'.slot = some i ∧
      e'.state = .complete .ok ∧ e'.timer.isSome = true)
    (hw : (t.queue, t.drain, t.nextPos, t.journal, t.startup, t.mgmt.longCmd) =
      (s.queue, s.drain, s.nextPos, s.journal, s.startup, s.mgmt.longCmd)) (hp : t.engine.prefetch = s.engine.prefetch)
    (hi : ∀ op, t.port.op = some op → op.owner = .initHeader → s.mgmt.longCmd = some .initJournal) :
    t.Lawful ∧ ∀ (j : Fin 8) l st o, t.engine.slots[j] ≠ .filling l st o := by
  have no := no_fill_of_set h.fillsCarried (t := t) hs hsl (by simp)
  refine ⟨?_, no⟩
  rcases ht with ⟨rfl, ht⟩ | ⟨p, e, e', rfl, he, ht, hb, hk', hn, hst, htm⟩
  · refine h.of_slot ht hsl (by rw [hp]; exact fun _ => id) hw hi (fillsCarried_of_none no) ?_
      (.inr ⟨l, h.clear_of_filling hs, .inr ⟨d, a, rfl⟩⟩)
    rintro q (⟨_, _, h1⟩ | ⟨_, _, _, h1⟩) <;> rw [hs] at h1 <;> cases h1
  · obtain ⟨e0, he0, hk, hsl0, hiss, hl⟩ := h.owner_of_filling hs
    rw [he] at he0
    cases he0
    refine h.of_read he hk hb (hk'.trans hk) ht hsl (by rw [hp]; exact fun _ hm => .inl hm) hw hi (fillsCarried_of_none no) ?_
      (.inr hsl0) ⟨fun _ => ⟨_, hst⟩, fun _ => htm⟩ (.inl ⟨hl ▸ h.clear_of_filling hs, hn, .inr ⟨hst, d, a, by rw [hl]⟩⟩)
    rintro q (⟨_, _, h1⟩ | ⟨_, _, _, h1⟩) <;> rw [hs] at h1 <;> cases h1
    rfl

/-- The port is free, where no slot is FILLING. -/
theorem Lawful.freePort_of_no_fill {s : State} (h : s.Lawful) (hn : ∀ (j : Fin 8) l st o, s.engine.slots[j] ≠ .filling l st o) :
    s.freePort.Lawful :=
  h.of_parts rfl (fun op hop => by cases hop) fun j l st o hs => absurd hs (hn j l st o)

/-- R117: the port is free after an operation that is no fill. -/
theorem Lawful.freePort {s : State} (h : s.Lawful) {op : Operation} (hop : s.port.op = some op)
    (h1 : op.owner ≠ .demandFill) (h2 : op.owner ≠ .prefetch) : s.freePort.Lawful := by
  refine h.freePort_of_no_fill fun j l st o hs => ?_
  obtain ⟨op', hop', -, ho⟩ := h.work.entry.fills j l st o hs
  rw [hop] at hop'
  cases hop'
  split at ho
  · exact h2 ho
  · exact h1 ho

/-- R63, R66: a demand fill ends in success, whatever else the port now carries. -/
theorem Lawful.demandSucceeded {s u : State} (h : s.Lawful) (hu : u.parts = s.parts) (hp : u.port.op = none) (data : Line)
    (first : Bool) : (u.demandSucceeded data first).Lawful := by
  simp only [parts, Prod.mk.injEq] at hu
  obtain ⟨h1, h2, h3, h4, h5, h6, h7, h8, h9⟩ := hu
  have hi : ∀ v : State, v.port.op = none → ∀ op, v.port.op = some op → op.owner = .initHeader →
      s.mgmt.longCmd = some .initJournal := fun v hv op hop => by rw [hv] at hop; cases hop
  simp only [State.demandSucceeded]
  cases hf : u.engine.fillingSlot with
  | none =>
    exact h.of_parts (by simp only [parts, h1, h2, h3, h4, h5, h6, h7, h8, h9]) (hi _ hp)
      fun j l st o hs => absurd (by rw [h3]; exact hs) (fillingSlot_eq_none hf j l st o)
  | some x =>
    obtain ⟨i, l, st, o⟩ := x
    have hs := fillingSlot_eq_some hf
    rw [h3] at hs
    cases st with
    | true =>
      simp only
      cases o with
      | none =>
        exact (h.fill_freed hs (by simp [returnReader, setSlot, h3]) (.inl ⟨rfl, by simp [returnReader, h2]⟩)
          (by simp [returnReader, h1, h5, h6, h7, h8, h9]) (by simp [returnReader, setSlot, h4])
          (hi _ (by simpa [returnReader] using hp))).1
      | some p =>
        obtain ⟨e, he, -⟩ := h.owner_of_filling hs
        have he' : (u.setSlot i .free).engine.table[p] = some e := by simpa [setSlot, h2] using he
        simp only [returnReader, he']
        exact (h.fill_freed hs (by simp [setSlot, setEntry, h3])
          (.inr ⟨p, e, { e with state := .waiting, slot := none }, rfl, he, by simp [setSlot, setEntry, h2], rfl, rfl, rfl,
            .inl ⟨rfl, rfl⟩⟩)
          (by simp [h1, h5, h6, h7, h8, h9]) (by simp [setSlot, setEntry, h4]) (hi _ (by simpa using hp))).1
    | false =>
      simp only
      cases o with
      | none =>
        exact (h.fill_valid (d := data) (a := u.engine.nextAge) hs (by simp [fillSlot, setSlot, h3]) (.inl ⟨rfl, by simp [fillSlot, setSlot, h2]⟩)
          (by simp [h1, h5, h6, h7, h8, h9]) (by simp [fillSlot, setSlot, h4]) (hi _ (by simpa using hp))).1
      | some p =>
        obtain ⟨e, he, -⟩ := h.owner_of_filling hs
        have he' : (u.fillSlot i l data (some p)).engine.table[p] = some e := by simpa [fillSlot, setSlot, h2] using he
        simp only [he']
        refine (h.fill_valid (d := data) (a := u.engine.nextAge) hs
          (t := ((u.fillSlot i l data (some p)).completeEntry p e .ok (some i)).report e.body.cls.region (if first then .clean else .recovered))
          ?_ (.inr ⟨p, e,
            { e with state := .complete .ok, slot := some i, timer := some (u.fillSlot i l data (some p)).engine.claimTime },
            rfl, he, ?_, rfl, rfl, rfl, rfl, rfl⟩)
          ?_ ?_ (hi _ ?_)).1
        · simp [completeEntry, setEntry, fillSlot, setSlot, h3]
        · simp [completeEntry, setEntry, fillSlot, setSlot, h2]
        · simp [h1, h5, h6, h7, h8, h9]
        · simp [completeEntry, setEntry, fillSlot, setSlot, h4]
        · simpa using hp

/-- R63, R66: a demand fill ends in failure. -/
theorem Lawful.demandFailed {s u : State} (h : s.Lawful) (hu : u.parts = s.parts) (hp : u.port.op = none) :
    u.demandFailed.Lawful := by
  simp only [parts, Prod.mk.injEq] at hu
  obtain ⟨h1, h2, h3, h4, h5, h6, h7, h8, h9⟩ := hu
  have hi : ∀ v : State, v.port.op = none → ∀ op, v.port.op = some op → op.owner = .initHeader →
      s.mgmt.longCmd = some .initJournal := fun v hv op hop => by rw [hv] at hop; cases hop
  simp only [State.demandFailed]
  cases hf : u.engine.fillingSlot with
  | none =>
    exact h.of_parts (by simp only [parts, h1, h2, h3, h4, h5, h6, h7, h8, h9]) (hi _ hp)
      fun j l st o hs => absurd (by rw [h3]; exact hs) (fillingSlot_eq_none hf j l st o)
  | some x =>
    obtain ⟨i, l, st, o⟩ := x
    have hs := fillingSlot_eq_some hf
    rw [h3] at hs
    cases st with
    | true =>
      simp only
      cases o with
      | none =>
        exact (h.fill_freed hs (by simp [returnReader, setSlot, h3]) (.inl ⟨rfl, by simp [returnReader, h2]⟩)
          (by simp [returnReader, h1, h5, h6, h7, h8, h9]) (by simp [returnReader, setSlot, h4])
          (hi _ (by simpa [returnReader] using hp))).1
      | some p =>
        obtain ⟨e, he, -⟩ := h.owner_of_filling hs
        have he' : (u.setSlot i .free).engine.table[p] = some e := by simpa [setSlot, h2] using he
        simp only [returnReader, he']
        exact (h.fill_freed hs (by simp [setSlot, setEntry, h3])
          (.inr ⟨p, e, { e with state := .waiting, slot := none }, rfl, he, by simp [setSlot, setEntry, h2], rfl, rfl, rfl,
            .inl ⟨rfl, rfl⟩⟩)
          (by simp [h1, h5, h6, h7, h8, h9]) (by simp [setSlot, setEntry, h4]) (hi _ (by simpa using hp))).1
    | false =>
      simp only
      cases o with
      | none =>
        exact (h.fill_freed hs (by simp [setSlot, h3]) (.inl ⟨rfl, by simp [setSlot, h2]⟩)
          (by simp [h1, h5, h6, h7, h8, h9]) (by simp [setSlot, h4]) (hi _ (by simpa using hp))).1
      | some p =>
        obtain ⟨e, he, -⟩ := h.owner_of_filling hs
        have he' : (u.setSlot i .free).engine.table[p] = some e := by simpa [setSlot, h2] using he
        simp only [he']
        refine (h.fill_freed hs
          (t := ((u.setSlot i .free).completeEntry p e .fail none).report e.body.cls.region .memoryFail)
          ?_ (.inr ⟨p, e,
            { e with state := .complete .fail, slot := none, timer := some (u.setSlot i .free).engine.claimTime },
            rfl, he, ?_, rfl, rfl, rfl, .inr ⟨rfl, rfl, rfl⟩⟩)
          ?_ ?_ (hi _ ?_)).1
        · simp [completeEntry, setEntry, setSlot, h3]
        · simp [completeEntry, setEntry, setSlot, h2]
        · simp [h1, h5, h6, h7, h8, h9]
        · simp [completeEntry, setEntry, setSlot, h4]
        · simpa using hp

/-- R66, R72: a prefetch ends in success. The operation was a prefetch, so the FILLING slot has no owner. -/
theorem Lawful.prefetchSucceeded {s u : State} (h : s.Lawful) (hu : u.parts = s.parts) (hp : u.port.op = none)
    {op : Operation} (hop : s.port.op = some op) (ho : op.owner = .prefetch) (data : Line) :
    (u.prefetchSucceeded data).Lawful := by
  simp only [parts, Prod.mk.injEq] at hu
  obtain ⟨h1, h2, h3, h4, h5, h6, h7, h8, h9⟩ := hu
  have hi : ∀ v : State, v.port.op = none → ∀ op, v.port.op = some op → op.owner = .initHeader →
      s.mgmt.longCmd = some .initJournal := fun v hv op hop => by rw [hv] at hop; cases hop
  simp only [State.prefetchSucceeded]
  cases hf : u.engine.fillingSlot with
  | none =>
    exact h.of_parts (by simp only [parts, h1, h2, h3, h4, h5, h6, h7, h8, h9]) (hi _ hp)
      fun j l st o hs => absurd (by rw [h3]; exact hs) (fillingSlot_eq_none hf j l st o)
  | some x =>
    obtain ⟨i, l, st, o⟩ := x
    have hs := fillingSlot_eq_some hf
    rw [h3] at hs
    obtain rfl : o = none := by
      obtain ⟨op', hop', -, ho'⟩ := h.work.entry.fills i l st o hs
      rw [hop] at hop'
      cases hop'
      rw [ho] at ho'
      split at ho'
      · assumption
      · cases ho'
    cases st with
    | true =>
      exact (h.fill_freed hs (by simp [setSlot, h3]) (.inl ⟨rfl, by simp [setSlot, h2]⟩)
        (by simp [h1, h5, h6, h7, h8, h9]) (by simp [setSlot, h4]) (hi _ (by simpa using hp))).1
    | false =>
      exact (h.fill_valid (d := data) (a := u.engine.nextAge) hs (by simp [fillSlot, setSlot, h3]) (.inl ⟨rfl, by simp [fillSlot, setSlot, h2]⟩)
        (by simp [h1, h5, h6, h7, h8, h9]) (by simp [fillSlot, setSlot, h4]) (hi _ (by simpa using hp))).1.adopt i

/-- R72: a prefetch ends in failure. -/
theorem Lawful.prefetchFailed {s u : State} (h : s.Lawful) (hu : u.parts = s.parts) (hp : u.port.op = none)
    {op : Operation} (hop : s.port.op = some op) (ho : op.owner = .prefetch) : u.prefetchFailed.Lawful := by
  simp only [parts, Prod.mk.injEq] at hu
  obtain ⟨h1, h2, h3, h4, h5, h6, h7, h8, h9⟩ := hu
  have hi : ∀ v : State, v.port.op = none → ∀ op, v.port.op = some op → op.owner = .initHeader →
      s.mgmt.longCmd = some .initJournal := fun v hv op hop => by rw [hv] at hop; cases hop
  simp only [State.prefetchFailed]
  cases hf : u.engine.fillingSlot with
  | none =>
    exact h.of_parts (by simp only [parts, h1, h2, h3, h4, h5, h6, h7, h8, h9]) (hi _ hp)
      fun j l st o hs => absurd (by rw [h3]; exact hs) (fillingSlot_eq_none hf j l st o)
  | some x =>
    obtain ⟨i, l, st, o⟩ := x
    have hs := fillingSlot_eq_some hf
    rw [h3] at hs
    obtain rfl : o = none := by
      obtain ⟨op', hop', -, ho'⟩ := h.work.entry.fills i l st o hs
      rw [hop] at hop'
      cases hop'
      rw [ho] at ho'
      split at ho'
      · assumption
      · cases ho'
    exact (h.fill_freed hs (by simp [setSlot, h3]) (.inl ⟨rfl, by simp [setSlot, h2]⟩)
      (by simp [h1, h5, h6, h7, h8, h9]) (by simp [setSlot, h4]) (hi _ (by simpa using hp))).1

/-! ### The arbiter -/

/-- The prefetch list loses lines. -/
theorem Lawful.of_prefetch {s t : State} (h : s.Lawful)
    (hw : (t.queue, t.engine.table, t.engine.slots, t.drain, t.nextPos, t.journal, t.startup, t.mgmt.longCmd, t.port) =
      (s.queue, s.engine.table, s.engine.slots, s.drain, s.nextPos, s.journal, s.startup, s.mgmt.longCmd, s.port))
    (hp : ∀ l ∈ t.engine.prefetch, l ∈ s.engine.prefetch) : t.Lawful := by
  simp only [Prod.mk.injEq] at hw
  obtain ⟨h1, h2, h3, h4, h5, h6, h7, h8, h9⟩ := hw
  have hst := writeStands_congr h1 h2 h4
  refine h.of_engine (by rw [h1, h4, h5, h6, h7, h8]) (fun q f => by simp only [delays, h2])
    (fun q f hf => ⟨f, by rwa [h2] at hf, rfl⟩) (by rw [h9]; exact h.init) ?_ ?_
  · obtain ⟨e1, e2, e3, e4, e5, e6, e7⟩ := h.work.entry
    refine ⟨?_, ?_, ?_, ?_, ?_, ?_, ?_⟩ <;> (try simp only [h2, h3, h4, h9]) <;> assumption
  · obtain ⟨f1, f2, f3, f4⟩ := h.work.fresh
    refine ⟨?_, ?_, fun b hb hm => f3 b ((hst b).mp hb) (hp _ hm), ?_⟩ <;> (try simp only [hst, h2, h3]) <;> assumption

/-- R71: no write stands to a line that is queued for prefetch. -/
theorem clear_of_prefetchRun {s : State} {region : Fin 9} {first : Nat} {i n l : Nat}
    (h : l ∈ s.prefetchRun region first i n) : s.lineClear l := by
  induction n generalizing i with
  | zero => simp [prefetchRun] at h
  | succ n ih =>
    simp only [prefetchRun] at h
    split at h
    · rename_i hm
      rcases List.mem_cons.mp h with rfl | h
      · simp only [mayPrefetch, Bool.and_eq_true, List.all_eq_true, mem_writesInOrder, bne_iff_ne] at hm
        exact hm.2
      · exact ih h
    · cases h

theorem clear_of_prefetchFor {s : State} {b : Body} {l : Nat} (h : l ∈ s.prefetchFor b) : s.lineClear l := by
  simp only [prefetchFor] at h
  split at h
  · cases h
  · exact clear_of_prefetchRun h

/-- R62: the demand fill of a ready WAITING read entry is granted. -/
theorem Lawful.grantDemand {s : State} (h : s.Lawful) (hp : s.port.op = none) {p : Fin 4} {c : Nat → Bool}
    (ho : s.oldestReadyRead c = some p) : (s.grantDemand p).Lawful := by
  obtain ⟨e, he, hk, hw, -, hr⟩ := oldestReadyRead_waiting ho
  simp only [State.grantDemand, he]
  cases hi : s.engine.slotToTake with
  | none => exact h
  | some i =>
    simp only
    have hsl : e.slot = none := by
      cases hsl : e.slot with
      | none => rfl
      | some j =>
        obtain ⟨-, h1⟩ := h.work.entry.slots p e j he hsl
        rcases h1 with ⟨h1, -⟩ | ⟨h1, -⟩ <;> rw [hw] at h1 <;> cases h1
    refine Lawful.of_read h (p := p) (e := e) (e' := { e with state := .issued, slot := some i }) (i := i)
      (x := .filling e.body.line false (some p)) he hk rfl hk rfl rfl (fun l hl => .inr fun b hb => clear_of_prefetchFor hl b ?_)
      rfl (fun op hop hoi => ?_) (fillsCarried_issued (h.no_fill hp) (i := i) rfl rfl rfl rfl) ?_ (.inl hsl) ?_
      (.inl ⟨h.clear_of_ready he hk (isReady_iff.mp hr), rfl, .inl ⟨rfl, rfl⟩⟩)
    · rcases hb with hb | ⟨q, f, hf, rfl⟩ | hb
      · exact .inl hb
      · refine .inr (.inl ⟨q, f, ⟨?_, hf.2⟩, rfl⟩)
        have : p ≠ q := by
          rintro rfl
          have h9 := hf.1
          rw [he] at h9
          cases h9
          have := hf.2.1
          rw [hk] at this; cases this
        have hg : ∀ x, (s.engine.table.set p x)[q] = some f := fun x => by rw [get_set, if_neg this]; exact hf.1
        exact hg _
      · exact .inr (.inr hb)
    · cases hop; cases hoi
    · intro q hq
      rcases slotToTake_unowned hi with h1 | ⟨l, d, a, h1⟩ <;> rcases hq with ⟨_, _, h2⟩ | ⟨_, _, _, h2⟩ <;> rw [h1] at h2 <;> cases h2
    · have := h.work.entry.timers p e he
      rw [hw] at this
      constructor
      · intro hx
        obtain ⟨r, hr⟩ := this.mp hx
        cases hr
      · rintro ⟨r, hr⟩
        cases hr

/-- R72: a line of the prefetch list is granted. -/
theorem Lawful.grantPrefetch {s : State} (h : s.Lawful) (hp : s.port.op = none) {line : Nat} {rest : List Nat}
    (hl : line ∈ s.engine.prefetch) (hr : ∀ l ∈ rest, l ∈ s.engine.prefetch) : (s.grantPrefetch line rest).Lawful := by
  simp only [State.grantPrefetch]
  split
  · rename_i i hi
    have hi' : s.engine.slotToTake = some i := hi
    refine h.of_slot (i := i) (x := .filling line false none) rfl rfl hr rfl (fun op hop hoi => ?_)
      (fillsCarried_issued (h.no_fill hp) (i := i) rfl rfl rfl rfl) ?_ (.inr ⟨line, ?_, .inl rfl⟩)
    · cases hop; cases hoi
    · intro q hq
      rcases slotToTake_unowned hi' with h1 | ⟨l, d, a, h1⟩ <;> rcases hq with ⟨_, _, h2⟩ | ⟨_, _, _, h2⟩ <;> rw [h1] at h2 <;> cases h2
    · exact fun b hb hbl => h.work.fresh.prefetch b hb (hbl ▸ hl)
  · exact h.of_prefetch rfl hr

/-- An operation that is no fill is issued on a free port. -/
theorem Lawful.issued {s t : State} (h : s.Lawful) (hp : s.port.op = none) (ht : t.parts = s.parts) {op : Operation}
    (hop : t.port.op = some op) (ho : op.owner = .initHeader → s.mgmt.longCmd = some .initJournal) : t.Lawful :=
  h.of_parts ht (fun op' hop' hi => by rw [hop] at hop'; cases hop'; exact ho hi) fun i l st o hs => absurd hs (h.no_fill hp i l st o)

theorem drainOp_owner {s : State} {d : Drain} {op : Operation} (h : s.drainOp d = some op) : op.owner = .head := by
  simp only [drainOp] at h
  split at h <;> cases h <;> rfl

theorem Lawful.grantOffer {s t : State} (h : t.Lawful) (hp : t.port.op = none) (hl : t.mgmt.longCmd = s.mgmt.longCmd) :
    (t.grantOffer s.writeOffer).Lawful := by
  cases ho : s.writeOffer with
  | none => exact h
  | some op =>
    refine h.issued hp (op := op) rfl rfl fun hi => ?_
    simp only [writeOffer] at ho
    split at ho
    · rename_i hc
      rw [hl]
      simpa [initOutstanding] using hc
    · split at ho
      · rw [drainOp_owner ho] at hi; cases hi
      · cases ho

/-- R118, R119, R120: the arbiter grants. -/
theorem Lawful.arbitrate {s : State} (h : s.Lawful) : s.arbitrate.Lawful := by
  simp only [State.arbitrate]
  split
  · exact h
  · rename_i hc
    have hp : s.port.op = none := by
      simp only [Bool.or_eq_true, not_or, Bool.not_eq_true, Option.isSome_eq_false_iff, Option.isNone_iff_eq_none] at hc
      exact hc.1
    split
    · rename_i op hop
      refine h.issued hp (op := op) rfl rfl fun hi => ?_
      rcases procedureOp_owner hop with h1 | h1 <;> rw [h1] at hi <;> cases hi
    · split
      · exact h.grantOffer hp rfl
      · simp only [takeRead]
        split
        · rename_i p ho
          exact h.grantDemand hp ho
        · simp only [takePrefetch]
          split
          · rename_i line rest hl
            have hsub : ∀ l ∈ line :: rest, l ∈ s.engine.prefetch := fun l hm =>
              (List.dropWhile_sublist _).subset (by rw [← hl] at hm; exact hm)
            exact h.grantPrefetch hp (hsub line List.mem_cons_self) fun l hm => hsub l (List.mem_cons_of_mem _ hm)
          · exact (h.of_prefetch (t := s.setEngine { s.engine with prefetch := [] }) rfl (by simp)).grantOffer hp rfl

/-- R39, R117, R118: what follows an event. -/
theorem Lawful.settle {s : State} (h : s.Lawful) : s.settle.Lawful := (h.beginDrains _).arbitrate

end Sys2Proof.Machine.State
end

