-- ==== Sys2Proof/Laws/WorkAcceptance.lean ====
section
/-! SUPPORT. The laws of the work that stands, over an acceptance: the freshness actions, a write that joins the write order, a
read entry that joins the table. -/

namespace Sys2Proof.Machine.State

/-! ### Freshness actions -/

theorem restart_cases (e : DelayedEntry) : e.restart.kind = e.kind ∧ e.restart.body = e.body ∧ ((e.restart = e ∧ ∀ r, e.state ≠ .complete r) ∨
    (e.restart.state = .waiting ∧ e.restart.slot = none ∧ e.restart.timer = none ∧ ∃ r, e.state = .complete r)) := by
  cases h : e.state <;> simp [DelayedEntry.restart, h]

theorem readsLine_iff {e : DelayedEntry} {l : Nat} : e.readsLine l = true ↔ e.kind = .read ∧ e.body.line = l := by
  simp [DelayedEntry.readsLine]

/-- R57, R65: what the freshness actions make of an entry: a read entry of the line gets a position of its own behind the write,
and returns from COMPLETE; any other stays. -/
theorem refreshEntry_cases (g : Engine) (line first : Nat) (e : DelayedEntry) :
    (g.refreshEntry line first e = e ∧ ¬ (e.kind = .read ∧ e.body.line = line)) ∨
      (e.kind = .read ∧ e.body.line = line ∧ (g.refreshEntry line first e).kind = .read ∧
        (g.refreshEntry line first e).body.line = line ∧
        (g.refreshEntry line first e).body.pos = first + g.readsBefore line e.body.pos ∧
        (((g.refreshEntry line first e).state = e.state ∧ (g.refreshEntry line first e).slot = e.slot ∧
            (g.refreshEntry line first e).timer = e.timer ∧ ∀ r, e.state ≠ .complete r) ∨
          ((g.refreshEntry line first e).state = .waiting ∧ (g.refreshEntry line first e).slot = none ∧
            (g.refreshEntry line first e).timer = none))) := by
  cases hk : e.readsLine line with
  | false =>
    refine .inl ⟨by simp [Engine.refreshEntry, hk], fun hc => ?_⟩
    rw [readsLine_iff.mpr hc] at hk; cases hk
  | true =>
    obtain ⟨h1, h2⟩ := readsLine_iff.mp hk
    obtain ⟨h3, h4, h5⟩ := restart_cases e
    refine .inr ⟨h1, h2, ?_, ?_, ?_, ?_⟩ <;> simp only [Engine.refreshEntry, hk, if_true]
    · rw [h3, h1]
    · exact h2
    · rcases h5 with ⟨h5, h6⟩ | ⟨h5, h6, h7, -⟩
      · rw [h5]; exact .inl ⟨rfl, rfl, rfl, h6⟩
      · exact .inr ⟨h5, h6, h7⟩

/-- R57, R65: the freshness actions of a write to a line keep the laws, and leave the line as a write must find it. -/
theorem Lawful.freshen {s : State} (h : s.Lawful) (line : Nat) :
    (s.freshen line).Lawful ∧
      (∀ (i : Fin 8), (∀ d o a, (s.freshen line).engine.slots[i] ≠ .valid line d o a) ∧
        ∀ o, (s.freshen line).engine.slots[i] ≠ .filling line false o) ∧
      line ∉ (s.freshen line).engine.prefetch ∧
      (∀ (p : Fin 4) (e : DelayedEntry), (s.freshen line).engine.table[p] = some e → e.kind = .read → e.body.line = line →
        s.nextPos < e.body.pos ∧ (e.state = .waiting ∨
          (e.state = .issued ∧ ∃ i, e.slot = some i ∧ (s.freshen line).engine.slots[i] = .filling line true (some p)))) ∧
      (∀ (p : Fin 4) (e : DelayedEntry), (s.freshen line).engine.table[p] = some e → e.body.pos ≠ s.nextPos) ∧
      (∀ b, (s.freshen line).writeStands b ↔ s.writeStands b) ∧ (s.freshen line).held ≤ s.held := by
  set t := s.freshen line with ht
  have get : ∀ p : Fin 4, t.engine.table[p] = (s.engine.table[p]).map (s.engine.refreshEntry line (s.nextPos + 1)) := by
    intro p; simp [ht, State.freshen, Engine.refresh]
  have slot : ∀ i : Fin 8, t.engine.slots[i] = (s.engine.slots[i]).refresh line := by
    intro i; simp [ht, State.freshen, Engine.refresh]
  have entry : ∀ (p : Fin 4) (f : DelayedEntry), t.engine.table[p] = some f →
      ∃ e, s.engine.table[p] = some e ∧ f = s.engine.refreshEntry line (s.nextPos + 1) e := by
    intro p f hf
    rw [get, Option.map_eq_some_iff] at hf
    obtain ⟨e, he, rfl⟩ := hf
    exact ⟨e, he, rfl⟩
  have np : t.nextPos = s.nextPos + 1 + s.engine.readsOf line := rfl
  have sf : ∀ (i : Fin 8) l st o, t.engine.slots[i] = .filling l st o →
      ∃ st', s.engine.slots[i] = .filling l st' o ∧ (l = line → st = true) ∧ (l ≠ line → st' = st) := by
    intro i l st o hi
    rw [slot] at hi
    cases hs : s.engine.slots[i] with
    | free => rw [hs] at hi; cases hi
    | valid l' d o' a =>
      rw [hs] at hi
      simp only [Slot.refresh] at hi
      split at hi <;> cases hi
    | filling l' st' o' =>
      rw [hs] at hi
      simp only [Slot.refresh] at hi
      split at hi <;> cases hi
      · exact ⟨_, rfl, fun _ => rfl, fun hne => absurd (by assumption) hne⟩
      · exact ⟨_, rfl, fun he => absurd he (by assumption), fun _ => rfl⟩
  have sv : ∀ (i : Fin 8) l d o a, t.engine.slots[i] = .valid l d o a → s.engine.slots[i] = .valid l d o a ∧ l ≠ line := by
    intro i l d o a hi
    rw [slot] at hi
    cases hs : s.engine.slots[i] with
    | free => rw [hs] at hi; cases hi
    | filling l' st' o' =>
      rw [hs] at hi
      simp only [Slot.refresh] at hi
      split at hi <;> cases hi
    | valid l' d o' a =>
      rw [hs] at hi
      simp only [Slot.refresh] at hi
      split at hi <;> cases hi
      exact ⟨rfl, by assumption⟩
  have pos : ∀ (p : Fin 4) (e : DelayedEntry), s.engine.table[p] = some e → e.kind = .read → e.body.line = line →
      s.nextPos < (s.engine.refreshEntry line (s.nextPos + 1) e).body.pos ∧
        (s.engine.refreshEntry line (s.nextPos + 1) e).body.pos < t.nextPos := by
    intro p e he hk hl
    have hr := readsLine_iff.mpr ⟨hk, hl⟩
    rw [refreshEntry_pos _ hr, np]
    have := readsBefore_lt he hr
    omega
  have hdel : ∀ p e, t.delays p e ↔ s.delays p e := by
    intro p e
    constructor
    · rintro ⟨h1, h2, h3⟩
      obtain ⟨e', he', rfl⟩ := entry p e h1
      rcases refreshEntry_cases s.engine line (s.nextPos + 1) e' with ⟨h4, -⟩ | ⟨-, -, h4, -⟩
      · rw [h4] at h2 h3 ⊢; exact ⟨he', h2, h3⟩
      · rw [h4] at h2; cases h2
    · rintro ⟨h1, h2, h3⟩
      refine ⟨?_, h2, h3⟩
      rw [get, h1, Option.map_some]
      rcases refreshEntry_cases s.engine line (s.nextPos + 1) e with ⟨h4, -⟩ | ⟨h4, -⟩
      · rw [h4]
      · rw [h2] at h4; cases h4
  have hst : ∀ b, t.writeStands b ↔ s.writeStands b := fun b => by
    simp only [writeStands, hdel]
    rfl
  have hn : ∀ n i, t.standsAt n i ↔ s.standsAt n i := fun n i => by cases i <;> simp only [standsAt, hdel] <;> rfl
  have body : ∀ d, s.drain = some d → t.itemBody d.item = s.itemBody d.item := by
    intro d hd
    obtain ⟨n, hh⟩ := h.heads_of_drain hd
    have hp := hh.stands
    cases hi : d.item with
    | postedWrite => rfl
    | closeMarker => rfl
    | removed b => rfl
    | delayedWrite p =>
      rw [hi] at hp
      obtain ⟨e, he, -⟩ := hp
      simp only [itemBody, he.1, ((hdel p e).mpr he).1]
  have hheld : t.held ≤ s.held := held_le (List.Sublist.refl _) (fun p e he hc => ⟨e, (hdel p e).mp he, hc⟩)
    (fun d b hd hi => ⟨d, hd, hi⟩) rfl
  obtain ⟨o1, o2, o3, o4⟩ := h.order
  refine ⟨⟨⟨o1, fun x hx => ?_, fun p f hf => ?_, fun p q f g hf hg hpq => ?_⟩, h.one, h.marks, h.init,
    ⟨?_, ?_, ?_, ?_, ?_, ?_⟩⟩, fun i => ⟨?_, ?_⟩, ?_, fun p f hf hk hl => ?_, fun p f hf => ?_, hst, hheld⟩
  · have := o2 x hx
    omega
  · obtain ⟨e, he, rfl⟩ := entry p f hf
    have h1 := o3 p e he
    rcases refreshEntry_cases s.engine line (s.nextPos + 1) e with ⟨h4, -⟩ | ⟨hk, hl, -⟩
    · rw [h4]; exact ⟨by omega, h1.2⟩
    · have := pos p e he hk hl
      exact ⟨this.2, fun x hx => by have := o2 x hx; omega⟩
  · obtain ⟨e, he, rfl⟩ := entry p f hf
    obtain ⟨e', he', rfl⟩ := entry q g hg
    have h1 := o4 p q e e' he he' hpq
    have h2 := (o3 p e he).1
    have h3 := (o3 q e' he').1
    rcases refreshEntry_cases s.engine line (s.nextPos + 1) e with ⟨h4, -⟩ | ⟨hk, hl, -⟩ <;>
      rcases refreshEntry_cases s.engine line (s.nextPos + 1) e' with ⟨h5, -⟩ | ⟨hk', hl', -⟩
    · rw [h4, h5]; exact h1
    · have := (pos q e' he' hk' hl').1
      rw [h4]; omega
    · have := (pos p e he hk hl).1
      rw [h5]; omega
    · have r1 := readsLine_iff.mpr ⟨hk, hl⟩
      have r2 := readsLine_iff.mpr ⟨hk', hl'⟩
      rw [refreshEntry_pos _ r1, refreshEntry_pos _ r2]
      rcases Nat.lt_or_gt_of_ne h1 with h9 | h9
      · have := readsBefore_lt_readsBefore he r1 h9
        omega
      · have := readsBefore_lt_readsBefore he' r2 h9
        omega
  · intro d hd
    obtain ⟨n, h1, h2, h3, h4⟩ := h.work.oldest d hd
    exact ⟨n, (hn n _).mpr h1, by omega, h3, fun p e he => h4 p e ((hdel p e).mp he)⟩
  · obtain ⟨e1, e2, e3, e4, e5, e6, e7⟩ := h.work.entry
    refine ⟨fun p f hf => ?_, fun p f hf hk => ?_, fun p f i hf hi => ?_, fun p f hf hk hs => ?_, fun i p hi => ?_,
      fun i l st o hi => ?_, fun i j l l' st st' o o' hi hj => ?_⟩
    · obtain ⟨e, he, rfl⟩ := entry p f hf
      rcases refreshEntry_cases s.engine line (s.nextPos + 1) e with ⟨h4, -⟩ | ⟨-, -, -, -, -, ⟨h5, -, h6, -⟩ | ⟨h5, -, h6⟩⟩
      · rw [h4]; exact e1 p e he
      · rw [h5, h6]; exact e1 p e he
      · rw [h5, h6]; simp
    · obtain ⟨e, he, rfl⟩ := entry p f hf
      rcases refreshEntry_cases s.engine line (s.nextPos + 1) e with ⟨h4, -⟩ | ⟨-, -, h4, -⟩
      · rw [h4] at hk ⊢; exact e2 p e he hk
      · rw [h4] at hk; cases hk
    · obtain ⟨e, he, rfl⟩ := entry p f hf
      rcases refreshEntry_cases s.engine line (s.nextPos + 1) e with ⟨h4, h5⟩ | ⟨hk, hl, h4, h5, -, ⟨h6, h7, -, h8⟩ | ⟨-, h7, -⟩⟩
      · rw [h4] at hi ⊢
        obtain ⟨h9, h10⟩ := e3 p e i he hi
        have hne : e.body.line ≠ line := fun hc => h5 ⟨h9, hc⟩
        refine ⟨h9, h10.imp (fun ⟨h11, st, h12⟩ => ⟨h11, st, ?_⟩) fun ⟨h11, d, a, h12⟩ => ⟨h11, d, a, ?_⟩⟩
        · rw [slot, h12]; simp [Slot.refresh, hne]
        · rw [slot, h12]; simp [Slot.refresh, hne]
      · rw [h7] at hi
        obtain ⟨-, ⟨h11, st, h12⟩ | ⟨h11, -⟩⟩ := e3 p e i he hi
        · refine ⟨h4, .inl ⟨by rw [h6, h11], true, ?_⟩⟩
          rw [slot, h12, h5]; simp [Slot.refresh, hl]
        · exact absurd h11 (h8 _)
      · rw [h7] at hi; cases hi
    · obtain ⟨e, he, rfl⟩ := entry p f hf
      rcases refreshEntry_cases s.engine line (s.nextPos + 1) e with ⟨h4, -⟩ | ⟨hk', -, -, -, -, ⟨h6, h7, -⟩ | ⟨h6, -⟩⟩
      · rw [h4] at hk hs ⊢; exact e4 p e he hk hs
      · rw [h6] at hs
        rw [h7]; exact e4 p e he hk' hs
      · rw [h6] at hs; simp at hs
    · have back : ∃ e, s.engine.table[p] = some e ∧ e.slot = some i ∧ (e.body.line = line → e.state = .issued) := by
        rcases hi with ⟨l, st, hi⟩ | ⟨l, d, a, hi⟩
        · obtain ⟨st', h1, -⟩ := sf i l st _ hi
          obtain ⟨e, he, -, h2, h3, -⟩ := h.owner_of_filling h1
          exact ⟨e, he, h2, fun _ => h3⟩
        · obtain ⟨h1, h2⟩ := sv i l d _ a hi
          obtain ⟨e, he, h3⟩ := e5 i p (.inr ⟨l, d, a, h1⟩)
          refine ⟨e, he, h3, fun hc => ?_⟩
          obtain ⟨-, ⟨h4, -⟩ | ⟨-, d', a', h4⟩⟩ := e3 p e i he h3
          · exact h4
          · rw [h1] at h4; cases h4; exact absurd hc h2
      obtain ⟨e, he, h1, h2⟩ := back
      refine ⟨s.engine.refreshEntry line (s.nextPos + 1) e, by rw [get, he]; rfl, ?_⟩
      by_cases hkl : e.kind = .read ∧ e.body.line = line
      · have := h2 hkl.2
        simp only [Engine.refreshEntry, readsLine_iff.mpr hkl, if_true, DelayedEntry.restart, this]
        exact h1
      · rcases refreshEntry_cases s.engine line (s.nextPos + 1) e with ⟨h4, -⟩ | ⟨h4, h5, -⟩
        · rw [h4]; exact h1
        · exact absurd ⟨h4, h5⟩ hkl
    · obtain ⟨st', h1, -⟩ := sf i l st o hi
      exact e6 i l st' o h1
    · obtain ⟨st1, h1, -⟩ := sf i l st o hi
      obtain ⟨st2, h2, -⟩ := sf j l' st' o' hj
      exact e7 i j l l' st1 st2 o o' h1 h2
  · obtain ⟨f1, f2, f3, f4⟩ := h.work.fresh
    refine ⟨?_, ?_, ?_, ?_⟩ <;> simp only [hst]
    · intro b p f hb hf hk hl
      obtain ⟨e, he, rfl⟩ := entry p f hf
      rcases refreshEntry_cases s.engine line (s.nextPos + 1) e with ⟨h4, -⟩ | ⟨hk', hl', -, h5, -⟩
      · rw [h4] at hk hl ⊢; exact f1 b p e hb he hk hl
      · have h6 := (pos p e he hk' hl').1
        have h7 := h.pos_lt hb
        omega
    · intro b i hb
      refine ⟨fun d o a hi => ?_, fun o hi => ?_⟩
      · exact (f2 b i hb).1 d o a (sv i _ d o a hi).1
      · obtain ⟨st', h1, h2, h3⟩ := sf i _ _ o hi
        by_cases hc : b.line = line
        · cases h2 hc
        · rw [h3 hc] at h1; exact (f2 b i hb).2 o h1
    · exact fun b hb hm => f3 b hb (List.mem_of_mem_filter hm)
    · intro b p f hb hf hk hl
      obtain ⟨e, he, rfl⟩ := entry p f hf
      have keep : ∀ (i : Fin 8), s.engine.slots[i] = .filling b.line true (some p) →
          t.engine.slots[i] = .filling b.line true (some p) := by
        intro i hi
        rw [slot, hi]; simp [Slot.refresh]
      rcases refreshEntry_cases s.engine line (s.nextPos + 1) e with ⟨h4, -⟩ | ⟨hk', hl', -, h5, -, ⟨h6, h7, -⟩ | ⟨h6, -⟩⟩
      · rw [h4] at hk hl ⊢
        exact (f4 b p e hb he hk hl).imp id fun ⟨h8, i, h9, h10⟩ => ⟨h8, i, h9, keep i h10⟩
      · rw [h6, h7]
        rw [h5] at hl
        exact (f4 b p e hb he hk' (hl'.trans hl)).imp id fun ⟨h8, i, h9, h10⟩ => ⟨h8, i, h9, keep i h10⟩
      · exact .inl h6
  · obtain ⟨p1, p2, p3, p4, p5, p6, p7, p8⟩ := h.work.phase
    refine ⟨?_, p2, p3, p4, p5, p6, p7, p8⟩
    simp only [hst]
    exact p1
  · obtain ⟨c1, c2, c3, c4, c5, c6, c7, c8, c9⟩ := h.work.cover
    refine ⟨?_, ?_, c3, c4, ?_, ?_, ?_, c8, ?_⟩ <;> try simp only [hst]
    · exact c1
    · exact c2
    · exact c5
    · exact c6
    · intro b hb hr
      obtain ⟨d, hd, h1, h2⟩ := c7 b hb hr
      exact ⟨d, hd, h1, by rw [body d hd, h2]⟩
    · intro d hd hs
      rw [body d hd]
      exact c9 d hd hs
  · have hk := h.work.capacity
    have hj : t.journal = s.journal := rfl
    simp only [capacityLaw, hj] at hk ⊢
    omega
  · exact fun d o a hi => (sv i _ d o a hi).2 rfl
  · intro o hi
    obtain ⟨_, -, h2, -⟩ := sf i _ _ o hi
    cases h2 rfl
  · intro hm
    have : t.engine.prefetch = s.engine.prefetch.filter fun l => l != line := rfl
    rw [this, List.mem_filter] at hm
    simp at hm
  · obtain ⟨e, he, rfl⟩ := entry p f hf
    rcases refreshEntry_cases s.engine line (s.nextPos + 1) e with ⟨h4, h5⟩ | ⟨hk', hl', -, h5, -, ⟨h6, h7, -, h8⟩ | ⟨h6, -⟩⟩
    · rw [h4] at hk hl; exact absurd ⟨hk, hl⟩ h5
    · refine ⟨(pos p e he hk' hl').1, ?_⟩
      cases hs : e.state with
      | waiting => exact .inl (by rw [h6, hs])
      | complete r => exact absurd hs (h8 r)
      | issued =>
        obtain ⟨i, hi⟩ := Option.isSome_iff_exists.mp (h.work.entry.reads p e he hk' (.inl hs))
        obtain ⟨-, ⟨-, st, h11⟩ | ⟨h11, -⟩⟩ := h.work.entry.slots p e i he hi
        · refine .inr ⟨by rw [h6, hs], i, by rw [h7, hi], ?_⟩
          rw [slot, h11]; simp [Slot.refresh, hl']
        · rw [hs] at h11; cases h11
    · exact ⟨(pos p e he hk' hl').1, .inl h6⟩
  · obtain ⟨e, he, rfl⟩ := entry p f hf
    rcases refreshEntry_cases s.engine line (s.nextPos + 1) e with ⟨h4, -⟩ | ⟨hk', hl', -⟩
    · rw [h4]
      have := (o3 p e he).1
      omega
    · have := (pos p e he hk' hl').1
      omega

/-! ### A write joins -/

/-- R27, R86, R88: what the reservation of a write that is accepted does to the journal. -/
def reservesFor (s : State) (b : Body) (j : Journal) : Prop :=
  (b.cls.guarded = false ∧ b.cls.reservation = .none ∧ j = s.journal) ∨
    (b.cls.guarded = true ∧ s.journal.state = .active ∧
      ((b.cls.reservation = .none ∧ b.line ∈ s.journal.lineSet.map (·.1) ∧ j = s.journal) ∨
        (b.cls.reservation = .listed ∧ s.journal.written + s.held < s.journal.holdsAtMost ∧
          j = { s.journal with lineSet := s.journal.lineSet ++ [(b.line, .reserved)] }) ∨
        (b.cls.reservation = .own ∧ s.journal.written + s.held < s.journal.holdsAtMost ∧ j = s.journal)))

/-- An entry comes to stand in a free place. -/
theorem countP_set_none (f : DelayedEntry → Bool) (v : Vector (Option DelayedEntry) 4) (p : Fin 4) (e : DelayedEntry)
    (hp : v[p] = none) : (List.finRange 4).countP (fun q => ((v.set p (some e))[q]).any f) =
      (List.finRange 4).countP (fun q => (v[q]).any f) + if f e = true then 1 else 0 := by
  have h4 : List.finRange 4 = [0, 1, 2, 3] := by decide
  have hg : ∀ q, (v.set p (some e))[q] = if p = q then some e else v[q] := fun q => get_set v p q (some e)
  simp only [hg, h4, List.countP_cons, List.countP_nil]
  fin_cases p <;> simp at hp ⊢ <;> simp [hp] <;> omega

/-- R29, R38: a write joins the write order behind every other, at a position that nothing holds, and its line is as the
freshness actions leave it. -/
theorem Lawful.joined {s t : State} (h : s.Lawful) {b : Body} (hn : s.startup.portState ≠ .starting)
    (hr : s.journal.state ≠ .rolling) (hb : b.recorded = false) (hpos : b.pos < s.nextPos)
    (hlast : (∀ x ∈ s.queue, x.pos < b.pos) ∧ (∀ w, s.writeStands w → w.pos < b.pos) ∧
      ∀ (p : Fin 4) (e : DelayedEntry), s.engine.table[p] = some e → e.body.pos ≠ b.pos)
    (hv : ∀ (i : Fin 8), (∀ d o a, s.engine.slots[i] ≠ .valid b.line d o a) ∧ ∀ o, s.engine.slots[i] ≠ .filling b.line false o)
    (hpre : b.line ∉ s.engine.prefetch)
    (hread : ∀ (p : Fin 4) (e : DelayedEntry), s.engine.table[p] = some e → e.kind = .read → e.body.line = b.line →
      b.pos < e.body.pos ∧ (e.state = .waiting ∨
        (e.state = .issued ∧ ∃ i, e.slot = some i ∧ s.engine.slots[i] = .filling b.line true (some p))))
    (hj : s.reservesFor b t.journal)
    (hw : (t.engine.slots, t.engine.prefetch, t.drain, t.nextPos, t.startup, t.mgmt.longCmd, t.port) =
      (s.engine.slots, s.engine.prefetch, s.drain, s.nextPos, s.startup, s.mgmt.longCmd, s.port))
    (hq : (t.queue = s.queue ++ [.write b] ∧ t.engine.table = s.engine.table) ∨
      (t.queue = s.queue ∧ ∃ (p : Fin 4) (e : DelayedEntry), s.engine.table[p] = none ∧ t.engine.table = s.engine.table.set p (some e) ∧ e.kind = .write ∧
        e.body = b ∧ e.state = .waiting ∧ e.slot = none ∧ e.timer = none)) : t.Lawful := by
  simp only [Prod.mk.injEq] at hw
  obtain ⟨h1, h2, h3, h4, h5, h6, h7⟩ := hw
  have hjs : t.journal.state = s.journal.state ∧ t.journal.sizePages = s.journal.sizePages ∧
      t.journal.written = s.journal.written ∧ (∀ x ∈ s.journal.lineSet, x ∈ t.journal.lineSet) := by
    rcases hj with ⟨-, -, hj⟩ | ⟨-, -, ⟨-, -, hj⟩ | ⟨-, -, hj⟩ | ⟨-, -, hj⟩⟩ <;> rw [hj] <;> simp +contextual
  obtain ⟨j1, j2, j3, j4⟩ := hjs
  have entry : ∀ (q : Fin 4) (f : DelayedEntry), t.engine.table[q] = some f → s.engine.table[q] = some f ∨
      (f.kind = .write ∧ f.body = b ∧ f.state = .waiting ∧ f.slot = none ∧ f.timer = none ∧ t.queue = s.queue ∧
        s.engine.table[q] = none ∧ ∀ (q' : Fin 4) g, q' ≠ q → t.engine.table[q'] = some g → s.engine.table[q'] = some g) := by
    intro q f hf
    rcases hq with ⟨-, ht⟩ | ⟨htq, p, e, hp, ht, e1, e2, e3, e4, e5⟩
    · rw [ht] at hf; exact .inl hf
    · rw [ht, get_set] at hf
      split at hf
      · rename_i hpq
        subst hpq
        cases hf
        refine .inr ⟨e1, e2, e3, e4, e5, htq, hp, fun q' g hne hg => ?_⟩
        rwa [ht, get_set, if_neg (Ne.symm hne)] at hg
      · exact .inl hf
  have kept : ∀ (q : Fin 4) (f : DelayedEntry), s.engine.table[q] = some f → t.engine.table[q] = some f := by
    intro q f hf
    rcases hq with ⟨-, ht⟩ | ⟨-, p, e, hp, ht, -⟩
    · rw [ht]; exact hf
    · rw [ht, get_set, if_neg]
      · exact hf
      · rintro rfl
        rw [hp] at hf; cases hf
  have hdel : ∀ q f, t.delays q f → s.delays q f ∨ f.body = b := by
    rintro q f ⟨hf, hk⟩
    rcases entry q f hf with h9 | ⟨-, h9, -⟩
    · exact .inl ⟨h9, hk⟩
    · exact .inr h9
  have hdel' : ∀ q f, s.delays q f → t.delays q f := fun q f hf => ⟨kept q f hf.1, hf.2⟩
  have qmem : ∀ x ∈ t.queue, x ∈ s.queue ∨ x = .write b := by
    intro x hx
    rcases hq with ⟨hq, -⟩ | ⟨hq, -⟩ <;> rw [hq] at hx
    · simpa using hx
    · exact .inl hx
  have qmem' : ∀ x ∈ s.queue, x ∈ t.queue := by
    intro x hx
    rcases hq with ⟨hq, -⟩ | ⟨hq, -⟩ <;> rw [hq]
    · exact List.mem_append_left _ hx
    · exact hx
  have stands : ∀ w, t.writeStands w → s.writeStands w ∨ w = b := by
    rintro w (hw | ⟨q, f, hf, rfl⟩ | ⟨d, hd, hi⟩)
    · rcases qmem _ hw with h9 | h9
      · exact .inl (.inl h9)
      · cases h9; exact .inr rfl
    · exact (hdel q f hf).imp (fun h9 => .inr (.inl ⟨q, f, h9, rfl⟩)) id
    · exact .inl (.inr (.inr ⟨d, by rw [← h3, hd], hi⟩))
  have qmark : ∀ m, QueueEntry.marker m ∈ t.queue ↔ QueueEntry.marker m ∈ s.queue := fun m =>
    ⟨fun hm => (qmem _ hm).resolve_right (by simp), fun hm => qmem' _ hm⟩
  have body : ∀ d, s.drain = some d → t.itemBody d.item = s.itemBody d.item := by
    intro d hd
    obtain ⟨n, hh⟩ := h.heads_of_drain hd
    have hp := hh.stands
    cases hi : d.item with
    | postedWrite =>
      rw [hi] at hp
      obtain ⟨b', rest, hq', -⟩ := hp
      rcases hq with ⟨hq, -⟩ | ⟨hq, -⟩
      · simp [itemBody, hq, hq']
      · simp [itemBody, hq]
    | closeMarker => rfl
    | removed b => rfl
    | delayedWrite p =>
      rw [hi] at hp
      obtain ⟨e, he, -⟩ := hp
      simp only [itemBody, he.1, kept p e he.1]
  have hdn : ∀ d, s.drain = some d → ∀ n, s.standsAt n d.item → n < b.pos := by
    intro d hd n hn'
    cases hi : d.item with
    | postedWrite =>
      rw [hi] at hn'
      obtain ⟨b', rest, hq', rfl⟩ := hn'
      exact hlast.1 _ (by rw [hq']; exact List.mem_cons_self)
    | closeMarker =>
      rw [hi] at hn'
      obtain ⟨rest, hq'⟩ := hn'
      exact hlast.1 (.marker n) (by rw [hq']; exact List.mem_cons_self)
    | delayedWrite p =>
      rw [hi] at hn'
      obtain ⟨e, he, rfl⟩ := hn'
      exact hlast.2.1 _ (.inr (.inl ⟨p, e, he, rfl⟩))
    | removed b' =>
      rw [hi] at hn'
      exact hn' ▸ hlast.2.1 _ (.inr (.inr ⟨d, hd, hi⟩))
  obtain ⟨o1, o2, o3, o4⟩ := h.order
  refine ⟨⟨?_, fun x hx => ?_, fun p f hf => ?_, fun p q f g hf hg hpq => ?_⟩, ?_, by simp only [qmark, h6]; exact h.marks,
    by rw [h6, h7]; exact h.init, ⟨fun d hd => ?_, ?_, ?_, ?_, ?_, ?_⟩⟩
  · rcases hq with ⟨hq, -⟩ | ⟨hq, -⟩ <;> rw [hq]
    · rw [List.map_append, List.pairwise_append]
      refine ⟨o1, by simp, fun x hx y hy => ?_⟩
      obtain ⟨x', hx', rfl⟩ := List.mem_map.mp hx
      simp only [List.map_cons, List.map_nil, List.mem_singleton] at hy
      rw [hy]
      exact hlast.1 x' hx'
    · exact o1
  · rw [h4]
    rcases qmem x hx with h9 | rfl
    · exact o2 x h9
    · exact hpos
  · rw [h4]
    rcases entry p f hf with h9 | ⟨-, h9, -, -, -, h10, -⟩
    · refine ⟨(o3 p f h9).1, fun x hx => ?_⟩
      rcases qmem x hx with h11 | rfl
      · exact (o3 p f h9).2 x h11
      · exact Ne.symm (hlast.2.2 p f h9)
    · rw [h9, h10]
      exact ⟨hpos, fun x hx => Nat.ne_of_lt (hlast.1 x hx)⟩
  · rcases entry p f hf with h9 | ⟨-, h9, -, -, -, -, h10, h11⟩
    · rcases entry q g hg with h12 | ⟨-, h12, -⟩
      · exact o4 p q f g h9 h12 hpq
      · rw [h12]; exact hlast.2.2 p f h9
    · rw [h9]
      exact Ne.symm (hlast.2.2 q g (h11 q g (Ne.symm hpq) hg))
  · rcases hq with ⟨hq, -⟩ | ⟨hq, -⟩ <;> rw [hq]
    · simpa [List.countP_append, QueueEntry.isMarker] using h.one
    · exact h.one
  · rw [h3] at hd
    obtain ⟨n, g1, g2, g3, g4⟩ := h.work.oldest d hd
    have hnb := hdn d hd n g1
    refine ⟨n, ?_, h4 ▸ g2, fun x hx => ?_, fun p f hf => ?_⟩
    · cases hi : d.item with
      | postedWrite =>
        rw [hi] at g1
        obtain ⟨b', rest, hq', hp'⟩ := g1
        rcases hq with ⟨hq, -⟩ | ⟨hq, -⟩
        · exact ⟨b', rest ++ [.write b], by rw [hq, hq']; rfl, hp'⟩
        · exact ⟨b', rest, by rw [hq, hq'], hp'⟩
      | closeMarker =>
        rw [hi] at g1
        obtain ⟨rest, hq'⟩ := g1
        rcases hq with ⟨hq, -⟩ | ⟨hq, -⟩
        · exact ⟨rest ++ [.write b], by rw [hq, hq']; rfl⟩
        · exact ⟨rest, by rw [hq, hq']⟩
      | delayedWrite p =>
        rw [hi] at g1
        obtain ⟨e, he, hp'⟩ := g1
        exact ⟨e, hdel' p e he, hp'⟩
      | removed b' => rw [hi] at g1; exact g1
    · rcases qmem x hx with h9 | rfl
      · exact g3 x h9
      · exact .inl hnb
    · rcases hdel p f hf with h9 | h9
      · exact g4 p f h9
      · rw [h9]; exact .inl hnb
  · refine entryLaw_of_writes h.work.entry h1 (by rw [h7]) (fun p f hf => ?_) (fun p f hf _ => kept p f hf) fun p f hf hk => ?_
    · rcases entry p f hf with h9 | ⟨h9, -, h10, h11, h12, -⟩
      · exact .inl h9
      · exact .inr ⟨h9, h11, by rw [h12, h10]; simp⟩
    · rw [h3]
      rcases entry p f hf with h9 | ⟨-, -, h10, -, -, -, h11, -⟩
      · exact h.work.entry.drains p f h9 hk
      · rw [h10]
        refine ⟨fun hc => (by cases hc), fun ⟨d, hd, hi⟩ => ?_⟩
        obtain ⟨n, g1, -⟩ := h.work.oldest d hd
        rw [hi] at g1
        obtain ⟨e, he, -⟩ := g1
        have := he.1
        rw [h11] at this; cases this
  · obtain ⟨f1, f2, f3, f4⟩ := h.work.fresh
    have reads : ∀ (p : Fin 4) (f : DelayedEntry), t.engine.table[p] = some f → f.kind = .read → s.engine.table[p] = some f := by
      intro p f hf hk
      rcases entry p f hf with h9 | ⟨h9, -⟩
      · exact h9
      · rw [hk] at h9; cases h9
    refine ⟨fun w p f hw hf hk hl => ?_, fun w i hw => ?_, fun w hw => ?_, fun w p f hw hf hk hl => ?_⟩
    · rcases stands w hw with hw | rfl
      · exact f1 w p f hw (reads p f hf hk) hk hl
      · exact (hread p f (reads p f hf hk) hk hl).1
    · rw [h1]
      rcases stands w hw with hw | rfl
      · exact f2 w i hw
      · exact hv i
    · rw [h2]
      rcases stands w hw with hw | rfl
      · exact f3 w hw
      · exact hpre
    · rw [h1]
      rcases stands w hw with hw | rfl
      · exact f4 w p f hw (reads p f hf hk) hk hl
      · exact (hread p f (reads p f hf hk) hk hl).2
  · obtain ⟨p1, p2, p3, p4, p5, p6, p7, p8⟩ := h.work.phase
    refine ⟨?_, ?_, ?_, ?_, ?_, ?_, ?_, ?_⟩ <;> (try simp only [j1, j2, h3, h5, h6]) <;> try assumption
    · rintro (hc | hc)
      · exact absurd hc hn
      · exact absurd hc hr
    · simpa only [Journal.holdsAtMost, j2] using p5
  · obtain ⟨c1, c2, c3, c4, c5, c6, c7, c8, c9⟩ := h.work.cover
    have act : b.cls.guarded = true → s.journal.state = .active := by
      intro hg
      rcases hj with ⟨hg', -⟩ | ⟨-, ha, -⟩
      · rw [hg'] at hg; cases hg
      · exact ha
    refine ⟨?_, ?_, ?_, ?_, ?_, ?_, ?_, ?_, ?_⟩ <;> (try simp only [qmark, j1, j3, h3]) <;> try assumption
    · intro m hm
      refine ⟨(c1 m hm).1, fun w hw hg => ?_⟩
      rcases stands w hw with hw | rfl
      · exact (c1 m hm).2 w hw hg
      · have := (c1 m hm).1
        rw [act hg] at this; simp at this
    · intro w hw hg
      rcases stands w hw with hw | rfl
      · exact c2 w hw hg
      · exact .inl (act hg)
    · intro hs
      have hl : s.journal.lineSet = [] := c3 hs
      rcases hj with ⟨-, -, hj⟩ | ⟨-, ha, -⟩
      · rw [hj]; exact hl
      · rw [ha] at hs; simp at hs
    · intro w hw hg
      rcases stands w hw with hw | rfl
      · refine (c5 w hw hg).imp id fun hm => ?_
        obtain ⟨x, hx, hx'⟩ := List.mem_map.mp hm
        exact List.mem_map.mpr ⟨x, j4 x hx, hx'⟩
      · rcases hj with ⟨hg', -⟩ | ⟨-, -, ⟨-, h9, hj⟩ | ⟨-, -, hj⟩ | ⟨h9, -, -⟩⟩
        · rw [hg'] at hg; cases hg
        · rw [hj]; exact .inr h9
        · rw [hj]; exact .inr (by simp)
        · exact .inl h9
    · intro w hw ho
      rcases stands w hw with hw | rfl
      · exact c6 w hw ho
      · rcases hj with ⟨-, h9, -⟩ | ⟨h9, -⟩
        · rw [h9] at ho; cases ho
        · exact h9
    · intro w hw hrec
      rcases stands w hw with hw | rfl
      · obtain ⟨d, hd, h9, h10⟩ := c7 w hw hrec
        exact ⟨d, hd, h9, by rw [body d hd, h10]⟩
      · rw [hb] at hrec; cases hrec
    · intro d hd hs
      obtain ⟨w, h9, h10, h11⟩ := c9 d hd hs
      exact ⟨w, by rw [body d hd, h9], h10, h11.imp (j4 _) id⟩
  · have hk := h.work.capacity
    have hz : t.journal.holdsAtMost = s.journal.holdsAtMost := by simp only [Journal.holdsAtMost, j2]
    have own : t.queue.countP QueueEntry.countsOwn +
        (List.finRange 4).countP (fun p => (t.engine.table[p]).any DelayedEntry.countsOwn) =
        s.queue.countP QueueEntry.countsOwn +
        (List.finRange 4).countP (fun p => (s.engine.table[p]).any DelayedEntry.countsOwn) + if b.countsOwn = true then 1 else 0 := by
      rcases hq with ⟨hq, ht⟩ | ⟨hq, p, e, hp, ht, e1, e2, e3, -⟩
      · rw [hq, ht, List.countP_append]
        simp only [List.countP_cons, List.countP_nil, QueueEntry.countsOwn]
        by_cases hbo : b.countsOwn = true <;> simp only [hbo, if_true, if_false, Bool.false_eq_true] <;> omega
      · have hc : e.countsOwn = b.countsOwn := by simp [DelayedEntry.countsOwn, e1, e2, e3]
        rw [hq, ht]
        rw [countP_set_none DelayedEntry.countsOwn _ p e hp, hc]
        omega
    have own_eq : b.countsOwn = true ↔ b.cls.reservation = .own := by simp [Body.countsOwn, hb]
    simp only [capacityLaw, held, hz, j3, h3] at hk ⊢
    rcases hj with ⟨-, h9, hj⟩ | ⟨-, -, ⟨h9, -, hj⟩ | ⟨h9, h10, hj⟩ | ⟨h9, h10, hj⟩⟩
    · rw [if_neg (fun hc => by rw [own_eq, h9] at hc; cases hc)] at own
      rw [hj]; omega
    · rw [if_neg (fun hc => by rw [own_eq, h9] at hc; cases hc)] at own
      rw [hj]; omega
    · rw [if_neg (fun hc => by rw [own_eq, h9] at hc; cases hc)] at own
      have : t.journal.lineSet.countP (fun x => decide (x.2 = .reserved)) =
          s.journal.lineSet.countP (fun x => decide (x.2 = .reserved)) + 1 := by rw [hj]; simp
      simp only [held] at h10
      omega
    · rw [if_pos (own_eq.mpr h9)] at own
      simp only [held] at h10
      rw [hj]; omega

/-! ### Acceptances -/

/-- R57, R65: a write entry that joins the table is no read of the line. -/
theorem refresh_set_write (g : Engine) (line first : Nat) {p : Fin 4} {e : DelayedEntry} (hp : g.table[p] = none)
    (hk : e.kind = .write) :
    ({ g with table := g.table.set p (some e) } : Engine).refresh line first =
        { g.refresh line first with table := (g.refresh line first).table.set p (some e) } ∧
      ({ g with table := g.table.set p (some e) } : Engine).readsOf line = g.readsOf line := by
  have hr : e.readsLine line = false := by
    cases h : e.readsLine line with
    | false => rfl
    | true => have := (readsLine_iff.mp h).1; rw [hk] at this; cases this
  have count : ∀ f : DelayedEntry → Bool, f e = false →
      ({ g with table := g.table.set p (some e) } : Engine).entries.countP (fun x => f x.2) = g.entries.countP (fun x => f x.2) := by
    intro f hf
    rw [← Engine.countP_table, ← Engine.countP_table]
    refine countP_set_of_eq _ _ _ ?_
    simp [hp, hf]
  have before : ∀ pos, ({ g with table := g.table.set p (some e) } : Engine).readsBefore line pos = g.readsBefore line pos := fun pos =>
    count (fun x => x.readsLine line && decide (x.body.pos < pos)) (by simp [hr])
  refine ⟨?_, count (fun x => x.readsLine line) hr⟩
  have entry : ∀ x, ({ g with table := g.table.set p (some e) } : Engine).refreshEntry line first x = g.refreshEntry line first x := by
    intro x
    simp only [Engine.refreshEntry, before]
  simp only [Engine.refresh, Engine.mk.injEq, and_true]
  ext q hq x
  have h9 := get_set g.table p ⟨q, hq⟩ (some e)
  have h10 := get_set (Vector.ofFn fun p => (g.table[p]).map (g.refreshEntry line first)) p ⟨q, hq⟩ (some e)
  simp only [Fin.getElem_fin] at h9 h10
  simp only [Vector.getElem_ofFn, Fin.getElem_fin, h9, h10]
  split
  · simp only [Option.map_some, entry]
    simp only [Engine.refreshEntry, hr, Bool.false_eq_true, if_false]
  · cases g.table[q] <;> simp [entry]

/-- R26, R27: the reservation of a write that reaches step 7; u holds no more than s. -/
theorem reservesFor_of {s u : State} (hu : u.journal = s.journal) (hh : u.held ≤ s.held) {b : Body}
    (hg : (b.cls.guarded = false ∧ b.cls.reservation = .none) ∨
      (b.cls.guarded = true ∧ s.journal.state = .active ∧ s.reservationFor b.line = some b.cls.reservation)) :
    u.reservesFor b (s.takeReservation b.cls.reservation b.line).journal := by
  simp only [reservesFor, hu]
  rcases hg with ⟨h1, h2⟩ | ⟨h1, h2, h3⟩
  · exact .inl ⟨h1, h2, by rw [h2]; rfl⟩
  · refine .inr ⟨h1, h2, ?_⟩
    simp only [reservationFor, inSet_eq, ← held_eq] at h3
    split at h3
    · rename_i hm
      have h4 : b.cls.reservation = .none := (Option.some.inj h3).symm
      exact .inl ⟨h4, by simpa using hm, by rw [h4]; rfl⟩
    · split at h3
      · rename_i hc
        have hc' : s.journal.written + u.held < s.journal.holdsAtMost := Nat.lt_of_le_of_lt (Nat.add_le_add_left hh _) hc
        split at h3
        · have h4 : b.cls.reservation = .listed := (Option.some.inj h3).symm
          exact .inr (.inl ⟨h4, hc', by rw [h4]; rfl⟩)
        · have h4 : b.cls.reservation = .own := (Option.some.inj h3).symm
          exact .inr (.inr ⟨h4, hc', by rw [h4]; rfl⟩)
      · cases h3

/-- What an acceptance needs of the freshness actions. -/
theorem Lawful.fresh_for_write {s t : State} (h : s.Lawful) {r : Request} {c : Classification} {b : Body}
    (hb : b = bodyOf r c s.nextPos) (hn : s.startup.portState = .opened)
    (hg : (c.guarded = false ∧ c.reservation = .none) ∨
      (c.guarded = true ∧ s.journal.state = .active ∧ s.reservationFor r.line = some c.reservation))
    (hj : t.journal = (s.takeReservation c.reservation r.line).journal)
    (hw : (t.engine.slots, t.engine.prefetch, t.drain, t.nextPos, t.startup, t.mgmt.longCmd, t.port) =
      ((s.freshen r.line).engine.slots, (s.freshen r.line).engine.prefetch, s.drain, (s.freshen r.line).nextPos, s.startup,
        s.mgmt.longCmd, s.port))
    (hq : (t.queue = s.queue ++ [.write b] ∧ t.engine.table = (s.freshen r.line).engine.table) ∨
      (t.queue = s.queue ∧ ∃ (p : Fin 4) (e : DelayedEntry), (s.freshen r.line).engine.table[p] = none ∧
        t.engine.table = (s.freshen r.line).engine.table.set p (some e) ∧ e.kind = .write ∧
        e.body = b ∧ e.state = .waiting ∧ e.slot = none ∧ e.timer = none)) : t.Lawful := by
  obtain ⟨h1, h2, h3, h4, h5, h6, h7⟩ := h.freshen r.line
  have hr : s.journal.state ≠ .rolling := fun hc => by
    rcases h.work.phase.rolling hc with h9 | h9 <;> rw [hn] at h9 <;> cases h9
  subst hb
  refine h1.joined (b := bodyOf r c s.nextPos) (by show s.startup.portState ≠ _; rw [hn]; simp) hr rfl
    (by show s.nextPos < s.nextPos + 1 + _; omega) ⟨fun x hx => h.order.2.1 x hx, fun w hw => h.pos_lt ((h6 w).mp hw), h5⟩ h2 h3 h4
    ?_ hw hq
  rw [hj]
  exact reservesFor_of (s := s) (u := s.freshen r.line) (b := bodyOf r c s.nextPos) rfl h7 hg

theorem takeReservation_rest (k : ReservationKind) (l : Nat) (s : State) :
    s.takeReservation k l = { s with journal := (s.takeReservation k l).journal } := by
  cases k <;> rfl

/-- R29, R37: a posted write is accepted. -/
theorem Lawful.acceptPosted {s : State} (h : s.Lawful) {r : Request} {c : Classification}
    (hn : s.startup.portState = .opened) (hg : (c.guarded = false ∧ c.reservation = .none) ∨
      (c.guarded = true ∧ s.journal.state = .active ∧ s.reservationFor r.line = some c.reservation)) :
    (s.acceptPosted r c).Lawful := by
  have key : (({ s.takeReservation c.reservation r.line with
      queue := (s.takeReservation c.reservation r.line).queue ++ [.write (bodyOf r c s.nextPos)] } : State).freshen r.line).Lawful := by
    rw [takeReservation_rest]
    exact h.fresh_for_write rfl hn hg rfl rfl (.inl ⟨rfl, rfl⟩)
  exact key.settle.congr rfl rfl

/-- R28, R29: a durable write is accepted. -/
theorem Lawful.acceptDurable {s : State} (h : s.Lawful) {r : Request} {c : Classification} {p : Fin 4}
    (hk : r.kind = .write) (hp : s.engine.table[p] = none)
    (hn : s.startup.portState = .opened) (hg : (c.guarded = false ∧ c.reservation = .none) ∨
      (c.guarded = true ∧ s.journal.state = .active ∧ s.reservationFor r.line = some c.reservation)) :
    (s.acceptDurable r c p).Lawful := by
  obtain ⟨r1, r2⟩ := refresh_set_write s.engine r.line (s.nextPos + 1) (e := newEntry r c s.nextPos) hp hk
  have key : (((s.takeReservation c.reservation r.line).setEntry p (some (newEntry r c s.nextPos))).freshen r.line).Lawful := by
    rw [takeReservation_rest]
    refine h.fresh_for_write rfl hn hg rfl ?_ (.inr ⟨rfl, p, newEntry r c s.nextPos, ?_, ?_, hk, rfl, rfl, rfl, rfl⟩)
    · simp only [State.freshen, setEntry, setEngine, r1, r2]
    · simpa [State.freshen, Engine.refresh] using hp
    · simp only [State.freshen, setEntry, setEngine, r1]
  exact key.settle.congr rfl rfl

/-! ### A read joins -/

/-- R30 step 7: a read entry joins the table. -/
theorem Lawful.createRead {s : State} (h : s.Lawful) {r : Request} {p : Fin 4} (hk : r.kind = .read)
    (hp : s.engine.table[p] = none) : (s.createRead r p).Lawful := by
  set e := newEntry r (s.classify r.line) s.nextPos with he
  set t : State := { s.setEntry p (some e) with nextPos := s.nextPos + 1 } with ht
  have get : ∀ q : Fin 4, t.engine.table[q] = if p = q then some e else s.engine.table[q] := fun q => get_set _ _ _ _
  have entry : ∀ (q : Fin 4) (f : DelayedEntry), t.engine.table[q] = some f → (p = q ∧ f = e) ∨ s.engine.table[q] = some f := by
    intro q f hf
    rw [get] at hf
    split at hf
    · exact .inl ⟨by assumption, (Option.some.inj hf).symm⟩
    · exact .inr hf
  have kept : ∀ (q : Fin 4) (f : DelayedEntry), s.engine.table[q] = some f → t.engine.table[q] = some f := by
    intro q f hf
    rw [get, if_neg]
    · exact hf
    · rintro rfl
      rw [hp] at hf; cases hf
  have hdel : ∀ q f, t.delays q f ↔ s.delays q f := by
    intro q f
    constructor
    · rintro ⟨h1, h2, h3⟩
      rcases entry q f h1 with ⟨-, rfl⟩ | h4
      · rw [he] at h2
        have : r.kind = .write := h2
        rw [hk] at this; cases this
      · exact ⟨h4, h2, h3⟩
    · exact fun ⟨h1, h2⟩ => ⟨kept q f h1, h2⟩
  have hst : ∀ b, t.writeStands b ↔ s.writeStands b := fun b => by
    simp only [writeStands, hdel]; rfl
  have hn : ∀ n i, t.standsAt n i ↔ s.standsAt n i := fun n i => by cases i <;> simp only [standsAt, hdel] <;> rfl
  have body : ∀ d, s.drain = some d → t.itemBody d.item = s.itemBody d.item := by
    intro d hd
    obtain ⟨n, hh⟩ := h.heads_of_drain hd
    have hp := hh.stands
    cases hi : d.item with
    | postedWrite => rfl
    | closeMarker => rfl
    | removed b => rfl
    | delayedWrite p =>
      rw [hi] at hp
      obtain ⟨e, he, -⟩ := hp
      simp only [itemBody, he.1, kept p e he.1]
  obtain ⟨o1, o2, o3, o4⟩ := h.order
  have key : t.Lawful := by
    refine ⟨⟨o1, fun x hx => Nat.lt_succ_of_lt (o2 x hx), fun q f hf => ?_, fun q q' f g hf hg hne => ?_⟩, h.one, h.marks, h.init,
      ⟨?_, ?_, ?_, ?_, ?_, ?_⟩⟩
    · rcases entry q f hf with ⟨-, rfl⟩ | h4
      · exact ⟨Nat.lt_succ_self _, fun x hx => Nat.ne_of_lt (o2 x hx)⟩
      · exact ⟨Nat.lt_succ_of_lt (o3 q f h4).1, (o3 q f h4).2⟩
    · rcases entry q f hf with ⟨h5, rfl⟩ | h4 <;> rcases entry q' g hg with ⟨h7, rfl⟩ | h6
      · exact absurd (h5.symm.trans h7) hne
      · exact Ne.symm (Nat.ne_of_lt (o3 q' g h6).1)
      · exact Nat.ne_of_lt (o3 q f h4).1
      · exact o4 q q' f g h4 h6 hne
    · intro d hd
      obtain ⟨n, h1, h2, h3, h4⟩ := h.work.oldest d hd
      exact ⟨n, (hn n _).mpr h1, Nat.lt_succ_of_lt h2, h3, fun q f hf => h4 q f ((hdel q f).mp hf)⟩
    · obtain ⟨e1, e2, e3, e4, e5, e6, e7⟩ := h.work.entry
      refine ⟨fun q f hf => ?_, fun q f hf hkf => ?_, fun q f i hf hi => ?_, fun q f hf hkf hs => ?_, fun i q hi => ?_, e6, e7⟩
      · rcases entry q f hf with ⟨-, rfl⟩ | h4
        · simp [he, newEntry]
        · exact e1 q f h4
      · rcases entry q f hf with ⟨-, rfl⟩ | h4
        · have : r.kind = .write := hkf
          rw [hk] at this; cases this
        · exact e2 q f h4 hkf
      · rcases entry q f hf with ⟨-, rfl⟩ | h4
        · cases hi
        · exact e3 q f i h4 hi
      · rcases entry q f hf with ⟨-, rfl⟩ | h4
        · simp [he, newEntry] at hs
        · exact e4 q f h4 hkf hs
      · obtain ⟨f, hf, hi'⟩ := e5 i q hi
        exact ⟨f, kept q f hf, hi'⟩
    · obtain ⟨f1, f2, f3, f4⟩ := h.work.fresh
      refine ⟨?_, ?_, ?_, ?_⟩ <;> simp only [hst]
      · intro b q f hb hf hkf hl
        rcases entry q f hf with ⟨-, rfl⟩ | h4
        · exact h.pos_lt hb
        · exact f1 b q f hb h4 hkf hl
      · exact f2
      · exact f3
      · intro b q f hb hf hkf hl
        rcases entry q f hf with ⟨-, rfl⟩ | h4
        · exact .inl rfl
        · exact f4 b q f hb h4 hkf hl
    · obtain ⟨p1, p2, p3, p4, p5, p6, p7, p8⟩ := h.work.phase
      refine ⟨?_, p2, p3, p4, p5, p6, p7, p8⟩
      simp only [hst]
      exact p1
    · obtain ⟨c1, c2, c3, c4, c5, c6, c7, c8, c9⟩ := h.work.cover
      refine ⟨?_, ?_, c3, c4, ?_, ?_, ?_, c8, ?_⟩ <;> try simp only [hst]
      · exact c1
      · exact c2
      · exact c5
      · exact c6
      · intro b hb hr
        obtain ⟨d, hd, h1, h2⟩ := c7 b hb hr
        exact ⟨d, hd, h1, by rw [body d hd, h2]⟩
      · intro d hd hs
        rw [body d hd]
        exact c9 d hd hs
    · have hk := h.work.capacity
      have : t.held ≤ s.held := held_le (List.Sublist.refl _) (fun q f hf hc => ⟨f, (hdel q f).mp hf, hc⟩)
        (fun d b hd hi => ⟨d, hd, hi⟩) rfl
      have hj : t.journal = s.journal := rfl
      simp only [capacityLaw, hj] at hk ⊢
      omega
  exact key.settle.congr rfl rfl

end Sys2Proof.Machine.State
end

