-- ==== Sys2Proof/Laws/WorkCommands.lean ====
section
/-! SUPPORT. The laws of the work that stands, over start-up, the scan, the rollback, the journal commands, RESET UPSTREAM, the
supply and the ends of an operation. -/

namespace Sys2Proof.Machine.State

/-! ### Start-up -/

theorem coverLaw_congr {s t : State} (h : s.coverLaw) (hq : t.queue = s.queue) (ht : t.engine.table = s.engine.table)
    (hd : t.drain = s.drain) (hj : t.journal = s.journal) : t.coverLaw := by
  have hs := writeStands_congr hq ht hd
  have hb := itemBody_congr hq ht
  obtain ⟨c1, c2, c3, c4, c5, c6, c7, c8, c9⟩ := h
  refine ⟨?_, ?_, ?_, ?_, ?_, ?_, ?_, ?_, ?_⟩ <;> (try simp only [hs, hb, hq, hd, hj]) <;> assumption

/-- Start-up changes, and the long command, and what they become is lawful. -/
theorem Lawful.of_startup {s t : State} (h : s.Lawful)
    (hw : (t.queue, t.engine.table, t.engine.slots, t.engine.prefetch, t.drain, t.nextPos) =
      (s.queue, s.engine.table, s.engine.slots, s.engine.prefetch, s.drain, s.nextPos))
    (hj : t.journal = s.journal) (ho : t.inFlight = s.inFlight)
    (hm : (∃ m, QueueEntry.marker m ∈ s.queue) ↔ t.mgmt.longCmd = some .closeEpoch)
    (hi : ∀ op, t.port.op = some op → op.owner = .initHeader → t.mgmt.longCmd = some .initJournal)
    (phase : t.phaseLaw) : t.Lawful := by
  have hw' := hw
  simp only [Prod.mk.injEq] at hw'
  obtain ⟨h1, h2, -, -, h3, -⟩ := hw'
  refine h.of_same_work hw hm hi ho phase (coverLaw_congr h.work.cover h1 h2 h3 hj) ?_
  have hk := h.work.capacity
  have : t.held = s.held := held_congr h1 h2 h3 (by rw [hj])
  rw [capacityLaw, this, hj]
  exact hk

/-- No scan and no rollback: start-up is past SUPPLY_WAIT. -/
theorem phaseLaw_of_idle {t : State} (hph : t.startup.phase ≠ .loading ∧ t.startup.phase ≠ .supplyWait)
    (hp : t.startup.procedure = .idle) (hr : t.journal.state ≠ .rolling)
    (hq : t.startup.portState = .starting → t.queue = [] ∧ t.drain = none ∧ ∀ b, ¬ t.writeStands b)
    (hi : t.mgmt.longCmd = some .initJournal → t.journal.state = .closing ∧ t.drain = none) : t.phaseLaw := by
  refine ⟨fun h => ?_, fun h => absurd h hph.1, fun h => absurd h hph.2, ?_, ?_, ?_, fun h => absurd h hr, hi⟩
  · exact h.elim hq fun h => absurd h hr
  · rw [hp]; exact False.elim
  · rw [hp]; rintro k (h | ⟨l, h⟩) <;> cases h
  · rw [hp]; exact False.elim

/-- Where a scan or a rollback is in progress, or start-up has not ended, nothing stands. -/
theorem Lawful.nothing {s : State} (h : s.Lawful) (hq : s.startup.portState = .starting ∨ s.journal.state = .rolling) :
    s.queue = [] ∧ s.drain = none ∧ (∀ b, ¬ s.writeStands b) ∧ (∀ m, QueueEntry.marker m ∉ s.queue) ∧
      s.mgmt.longCmd ≠ some .closeEpoch := by
  obtain ⟨h1, h2, h3⟩ := h.work.phase.quiet hq
  have hm : ∀ m, QueueEntry.marker m ∉ s.queue := fun m => by rw [h1]; simp
  exact ⟨h1, h2, h3, hm, fun hc => by obtain ⟨m, hm'⟩ := h.marks.mpr hc; exact hm m hm'⟩

theorem endStartup_parts (s : State) : (s.endStartup).parts = (s.queue, s.engine.table, s.engine.slots, s.engine.prefetch,
    s.drain, s.nextPos, s.journal,
    { s.startup with phase := .done, procedure := .idle, portState := if s.opensAtEnd then .opened else .hold },
    s.mgmt.longCmd) ∧ (s.endStartup).port = s.port := by
  simp only [endStartup]
  split <;> simp [parts, *]

/-- Start-up has ended: nothing of it is left. -/
theorem phaseLaw_of_endStartup {s : State} (hr : s.journal.state ≠ .rolling)
    (hi : s.mgmt.longCmd = some .initJournal → s.journal.state = .closing ∧ s.drain = none) : s.endStartup.phaseLaw := by
  obtain ⟨hp, -⟩ := endStartup_parts s
  simp only [parts, Prod.mk.injEq] at hp
  obtain ⟨-, -, -, -, h5, -, h7, h8, h9⟩ := hp
  refine phaseLaw_of_idle ?_ ?_ ?_ ?_ ?_ <;> simp only [h5, h7, h8, h9]
  · simp
  · exact hr
  · split <;> simp
  · exact hi

/-- R129, R130: start-up ends. -/
theorem Lawful.endStartup {s : State} (h : s.Lawful) (hr : s.journal.state ≠ .rolling) : s.endStartup.Lawful := by
  obtain ⟨hp, ho⟩ := endStartup_parts s
  have hp' := hp
  simp only [parts, Prod.mk.injEq] at hp'
  obtain ⟨h1, h2, h3, h4, h5, h6, h7, -, h9⟩ := hp'
  exact h.of_startup (by rw [h1, h2, h3, h4, h5, h6]) h7 (by rw [inFlight, ho]) (by rw [h9]; exact h.marks)
    (by rw [h9, ho]; exact h.init) (phaseLaw_of_endStartup hr h.work.phase.init)

/-- R135, R136: SUPPLY_WAIT ends. -/
theorem Lawful.endSupplyWait {s : State} (h : s.Lawful) (hw : s.startup.phase = .supplyWait) : s.endSupplyWait.Lawful := by
  obtain ⟨h1, h2⟩ := h.work.phase.wait hw
  simp only [State.endSupplyWait]
  split
  · rename_i hsz
    rw [if_pos hsz] at h2
    refine h.of_startup rfl rfl rfl h.marks h.init ⟨h.work.phase.quiet, fun hc => ?_, fun hc => ?_, fun _ => ⟨h1, h2⟩, ?_,
      fun hc => False.elim hc, fun hc => ?_, h.work.phase.init⟩
    · cases hc
    · cases hc
    · rintro k (hc | ⟨l, hc⟩) <;> cases hc
    · have : s.journal.state = .rolling := hc
      rw [h2] at this; cases this
  · rename_i hsz
    rw [if_neg hsz] at h2
    exact h.endStartup (by rw [h2]; simp)

theorem Lawful.endWaitIfNormal {s : State} (h : s.Lawful) : s.endWaitIfNormal.Lawful := by
  simp only [State.endWaitIfNormal]
  split
  · rename_i hc
    exact h.endSupplyWait hc.1
  · exact h

/-! ### The rollback -/

theorem rolls_rollFrom (k : Nat) : (rollFrom k).rolls ∧ ¬ (rollFrom k).scans := by
  cases k <;> exact ⟨trivial, id⟩

/-- The procedure moves on within the rollback. -/
theorem Lawful.rollsOn {s t : State} (h : s.Lawful) (hr : s.startup.procedure.rolls)
    (hw : (t.queue, t.engine.table, t.engine.slots, t.engine.prefetch, t.drain, t.nextPos) =
      (s.queue, s.engine.table, s.engine.slots, s.engine.prefetch, s.drain, s.nextPos))
    (hj : t.journal = s.journal) (ho : t.port = s.port) (hl : t.mgmt.longCmd = s.mgmt.longCmd)
    (hp : t.startup.procedure.rolls) (hs : t.startup.portState = s.startup.portState) (hph : t.startup.phase = s.startup.phase) :
    t.Lawful := by
  have hro := h.work.phase.roll hr
  have hw' := hw
  simp only [Prod.mk.injEq] at hw'
  obtain ⟨h1, h2, -, -, h3, -⟩ := hw'
  have hst := writeStands_congr h1 h2 h3
  obtain ⟨p1, p2, p3, p4, p5, p6, p7, p8⟩ := h.work.phase
  have ns : ¬ t.startup.procedure.scans := by
    intro hc
    cases hpr : t.startup.procedure <;> rw [hpr] at hc hp <;> first | exact hc | exact hp
  refine h.of_startup hw hj (by rw [inFlight, ho]) (by rw [hl]; exact h.marks) (by rw [hl, ho]; exact h.init)
    ⟨?_, ?_, ?_, fun hc => absurd hc ns, ?_, fun _ => by rw [hj, hro], ?_, ?_⟩
  · simp only [hst, h1, h3, hj, hs]; exact p1
  · simp only [hph, hs, hj]; exact p2
  · simp only [hph, hs, hj]; exact p3
  · rintro k (hc | ⟨l, hc⟩) <;> rw [hc] at ns <;> exact absurd trivial ns
  · simp only [hs, hj]; exact p7
  · simp only [hl, hj, h3]; exact p8

theorem rollbackEnds_parts (r : LongResult) (s : State) :
    (s.rollbackEnds r).queue = s.queue ∧ (s.rollbackEnds r).engine = s.engine ∧ (s.rollbackEnds r).drain = s.drain ∧
      (s.rollbackEnds r).nextPos = s.nextPos ∧ (s.rollbackEnds r).journal = s.journal ∧ (s.rollbackEnds r).port = s.port ∧
      ((s.rollbackEnds r).mgmt.longCmd = none ∨ (s.rollbackEnds r).mgmt.longCmd = s.mgmt.longCmd) ∧
      (s.rollbackEnds r).startup.procedure = .idle ∧
      ((s.rollbackEnds r).startup.phase = .done ∨ (s.rollbackEnds r).startup.phase = s.startup.phase) := by
  simp only [rollbackEnds]
  split <;> (try simp only [endLong, endStartup]) <;> (try split) <;> simp

/-- R141: the procedure ends, and the journal is no longer ROLLING. -/
theorem phaseLaw_of_rollbackEnds {s u : State} (h : s.Lawful) (hro : s.journal.state = .rolling) (r : LongResult)
    (hu : u.queue = s.queue ∧ u.engine.table = s.engine.table ∧ u.drain = s.drain ∧ u.mgmt.longCmd = s.mgmt.longCmd ∧
      u.startup.phase = s.startup.phase) (hj : u.journal.state ≠ .rolling) : (u.rollbackEnds r).phaseLaw := by
  obtain ⟨u1, u2, u3, u4, u5⟩ := hu
  obtain ⟨e1, e2, e3, e4, e5, e6, e7, e8, e9⟩ := rollbackEnds_parts r u
  obtain ⟨n1, n2, n3, -, -⟩ := h.nothing (.inr hro)
  have hst := writeStands_congr (s := s) (t := u.rollbackEnds r) (by rw [e1, u1]) (by rw [e2, u2]) (by rw [e3, u3])
  refine phaseLaw_of_idle ⟨fun hc => ?_, fun hc => ?_⟩ e8 (by rw [e5]; exact hj) (fun _ => ⟨by rw [e1, u1, n1], by rw [e3, u3, n2],
    fun b hb => n3 b ((hst b).mp hb)⟩) fun hc => ?_
  · rcases e9 with e9 | e9 <;> rw [e9] at hc
    · cases hc
    · have := (h.work.phase.loading (u5 ▸ hc)).2.1
      rw [hro] at this; cases this
  · rcases e9 with e9 | e9 <;> rw [e9] at hc
    · cases hc
    · have := (h.work.phase.wait (u5 ▸ hc)).2
      rw [hro] at this
      split at this <;> cases this
  · rcases e7 with e7 | e7 <;> rw [e7] at hc
    · cases hc
    · have := (h.work.phase.init (u4 ▸ hc)).1
      rw [hro] at this; cases this

/-- R141: the rollback header write succeeds. -/
theorem Lawful.rollHeaderSucceeded {s : State} (h : s.Lawful) (hop : s.port.op = none) (hro : s.journal.state = .rolling) :
    s.rollHeaderSucceeded.Lawful := by
  obtain ⟨n1, n2, n3, n4, n5⟩ := h.nothing (.inr hro)
  simp only [State.rollHeaderSucceeded]
  set u := (s.setJournal (s.journal.clear (nextEpoch s.journal.epoch))).setJournalState .active with hu
  generalize (if s.startup.rollPartial then LongResult.partly else LongResult.ok) = r
  obtain ⟨e1, e2, e3, e4, e5, e6, e7, e8, e9⟩ := rollbackEnds_parts r u
  have hj : u.journal = { s.journal.clear (nextEpoch s.journal.epoch) with state := .active } := by
    rw [hu, setJournalState_journal]; rfl
  refine h.of_epoch ?_ (fun b hb => absurd hb (n3 b)) n4 (by rw [e5, hj]; rfl) (by rw [e5, hj]; exact Nat.zero_le _)
    (by rw [e5, hj]; simp) ?_ ?_ ?_ (phaseLaw_of_rollbackEnds h hro r ?_ (by rw [hj]; simp))
  · rw [e1, e2, e3, e4]; simp [hu, setJournal]
  · have hul : u.mgmt.longCmd = s.mgmt.longCmd := by simp [hu, setJournal]
    rcases e7 with e7 | e7 <;> rw [e7]
    · simp
    · rw [hul]; exact n5
  · simp [inFlight, hu, setJournal]
  · intro op hop'
    have : s.port.op = some op := by rw [e6] at hop'; simpa [hu, setJournal] using hop'
    rw [hop] at this; cases this
  · simp [hu, setJournal]

/-- R141: the rollback header write fails. -/
theorem Lawful.rollHeaderFailed {s : State} (h : s.Lawful) (hop : s.port.op = none) (hro : s.journal.state = .rolling) :
    ((s.setJournalState .failed).rollbackEnds .failed).Lawful := by
  obtain ⟨n1, n2, n3, n4, n5⟩ := h.nothing (.inr hro)
  set u := s.setJournalState .failed with hu
  obtain ⟨e1, e2, e3, e4, e5, e6, e7, e8, e9⟩ := rollbackEnds_parts .failed u
  have hj : u.journal = { s.journal with state := .failed } := setJournalState_journal _ _
  refine h.of_state (st := .failed) ?_ (by rw [e5, hj]) (.inr (.inr rfl)) (by simp [inFlight, hu])
    ⟨fun ⟨m, hm⟩ => absurd hm (n4 m), fun hc => ?_⟩ ?_ (by simp)
    (phaseLaw_of_rollbackEnds h hro _ (by simp [hu]) (by rw [hj]; simp))
  · rw [e1, e2, e3, e4]; simp [hu]
  · have hul : u.mgmt.longCmd = s.mgmt.longCmd := by simp [hu]
    rcases e7 with e7 | e7 <;> rw [e7] at hc
    · cases hc
    · rw [hul] at hc; exact absurd hc n5
  · intro op hop'
    have : s.port.op = some op := by rw [e6] at hop'; simpa [hu] using hop'
    rw [hop] at this; cases this

/-- R141: an operation of the rollback ends in success. -/
theorem Lawful.rollSucceeded {s : State} (h : s.Lawful) (hop : s.port.op = none) (data : Line) : (s.rollSucceeded data).Lawful := by
  have skip : ∀ k, s.startup.procedure.rolls → (s.skipRecord k).Lawful := fun k hr =>
    h.rollsOn hr rfl rfl rfl rfl (rolls_rollFrom k).1 rfl rfl
  have move : ∀ p : Procedure, s.startup.procedure.rolls → p.rolls → (s.setProcedure p).Lawful := fun p hr hp =>
    h.rollsOn hr rfl rfl rfl rfl hp rfl rfl
  simp only [State.rollSucceeded]
  cases hp : s.startup.procedure with
  | rollRecord k =>
    simp only
    split
    · exact move _ (by rw [hp]; trivial) trivial
    · exact skip k (by rw [hp]; trivial)
  | rollImage k hdr =>
    simp only
    split
    · exact move _ (by rw [hp]; trivial) trivial
    · exact skip k (by rw [hp]; trivial)
  | rollTarget k _ _ => exact move _ (by rw [hp]; trivial) (rolls_rollFrom k).1
  | rollHeader => exact h.rollHeaderSucceeded hop (h.work.phase.roll (by rw [hp]; trivial))
  | idle => exact h
  | scanHeader => exact h
  | scanRecord k => exact h
  | scanImage k l => exact h

/-- R141: an operation of the rollback fails. -/
theorem Lawful.rollFailed {s : State} (h : s.Lawful) (hop : s.port.op = none) : s.rollFailed.Lawful := by
  have skip : ∀ k, s.startup.procedure.rolls → (s.skipRecord k).Lawful := fun k hr =>
    h.rollsOn hr rfl rfl rfl rfl (rolls_rollFrom k).1 rfl rfl
  simp only [State.rollFailed]
  cases hp : s.startup.procedure with
  | rollRecord k => exact skip k (by rw [hp]; trivial)
  | rollImage k hdr => exact skip k (by rw [hp]; trivial)
  | rollTarget k _ _ => exact h.rollsOn (by rw [hp]; trivial) rfl rfl rfl rfl (rolls_rollFrom k).1 rfl rfl
  | rollHeader => exact h.rollHeaderFailed hop (h.work.phase.roll (by rw [hp]; trivial))
  | idle => exact h
  | scanHeader => exact h
  | scanRecord k => exact h
  | scanImage k l => exact h

/-! ### The scan -/

/-- R137, R138: the scan ends with n records. -/
theorem Lawful.scanEnds {s u : State} (h : s.Lawful) (hop : s.port.op = none) (hs : s.startup.procedure.scans)
    (hu : (u.queue, u.engine.table, u.engine.slots, u.engine.prefetch, u.drain, u.nextPos, u.startup, u.mgmt.longCmd, u.port) =
      (s.queue, s.engine.table, s.engine.slots, s.engine.prefetch, s.drain, s.nextPos, s.startup, s.mgmt.longCmd, s.port))
    (hj : u.journal.lineSet = s.journal.lineSet ∧ u.journal.sizePages = s.journal.sizePages ∧ u.journal.state = s.journal.state)
    {n : Nat} (hn : n ≤ s.journal.holdsAtMost) : (u.scanEnds n).Lawful := by
  obtain ⟨s1, s2⟩ := h.work.phase.scan hs
  obtain ⟨n1, n2, n3, n4, n5⟩ := h.nothing (.inl s1)
  have hl : s.journal.lineSet = [] := h.work.cover.empty (.inr (.inl s2))
  have nl : s.mgmt.longCmd ≠ some .initJournal := fun hc => by
    have := (h.work.phase.init hc).1
    rw [s2] at this; cases this
  simp only [Prod.mk.injEq] at hu
  obtain ⟨u1, u2, u3, u4, u5, u6, u7, u8, u9⟩ := hu
  obtain ⟨j1, j2, j3⟩ := hj
  have key : ∀ t : State, (t.queue, t.engine.table, t.engine.slots, t.engine.prefetch, t.drain, t.nextPos, t.mgmt.longCmd, t.port.op) =
      (u.queue, u.engine.table, u.engine.slots, u.engine.prefetch, u.drain, u.nextPos, u.mgmt.longCmd, u.port.op) →
      t.journal.lineSet = u.journal.lineSet → t.journal.sizePages = u.journal.sizePages → t.journal.written = n →
      (t.journal.state ≠ .off ∧ t.journal.state ≠ .unknown) → t.phaseLaw → t.Lawful := by
    intro t ht h1 h2 h3 h4 phase
    simp only [Prod.mk.injEq] at ht
    obtain ⟨t1, t2, t3, t4, t5, t6, t7, t8⟩ := ht
    refine h.of_epoch (by rw [t1, t2, t3, t4, t5, t6, u1, u2, u3, u4, u5, u6]) (fun b hb => absurd hb (n3 b)) n4
      (by rw [h1, j1, hl]) ?_ (fun hc => by rcases hc with hc | hc; exact absurd hc h4.1; exact absurd hc h4.2)
      (by rw [t7, u8]; exact n5) (by rw [inFlight, t8, u9]) (fun op hop' => ?_) phase
    · simp only [Journal.holdsAtMost, h2, h3, j2]
      exact hn
    · rw [t8, u9, hop] at hop'; cases hop'
  have done : ∀ st : JournalState, st ≠ .off ∧ st ≠ .unknown ∧ st ≠ .rolling →
      (((u.setJournal { u.journal with written := n }).setJournalState st).endStartup).Lawful := by
    intro st hst
    set v := (u.setJournal { u.journal with written := n }).setJournalState st with hv
    have hvj : v.journal = { u.journal with written := n, state := st } := by rw [hv, setJournalState_journal]; rfl
    obtain ⟨hp, ho⟩ := endStartup_parts v
    simp only [parts, Prod.mk.injEq] at hp
    obtain ⟨q1, q2, q3, q4, q5, q6, q7, -, q9⟩ := hp
    refine key _ ?_ (by rw [q7, hvj]) (by rw [q7, hvj]) (by rw [q7, hvj]) (by rw [q7, hvj]; exact ⟨hst.1, hst.2.1⟩)
      (phaseLaw_of_endStartup (by rw [hvj]; exact hst.2.2) fun hc => ?_)
    · rw [q1, q2, q3, q4, q5, q6, q9, ho]; simp [hv, setJournal]
    · have : s.mgmt.longCmd = some .initJournal := by rw [← u8]; simpa [hv, setJournal] using hc
      exact absurd this nl
  simp only [State.scanEnds]
  split
  · rename_i h0
    subst h0
    exact done .active (by simp)
  · split
    · refine key _ ?_ ?_ ?_ ?_ ?_ ⟨fun _ => ?_, fun hc => ?_, fun hc => ?_, fun hc => ?_, ?_, fun _ => ?_, fun _ => ?_, fun hc => ?_⟩
      · simp [beginRollback, setJournal]
      · simp [beginRollback, setJournal, setJournalState_journal]
      · simp [beginRollback, setJournal, setJournalState_journal]
      · simp [beginRollback, setJournal, setJournalState_journal]
      · simp [beginRollback, setJournal, setJournalState_journal]
      · have hst := writeStands_congr (s := s) (t := (((u.setJournal { u.journal with written := n }).setJournalState .pending).setStartup
            { ((u.setJournal { u.journal with written := n }).setJournalState .pending).startup with phase := .rolling } |>.setJournalState
            .rolling).beginRollback) (by simp [beginRollback, setJournal, u1]) (by simp [beginRollback, setJournal, u2])
            (by simp [beginRollback, setJournal, u5])
        refine ⟨by simp [beginRollback, setJournal, u1, n1], by simp [beginRollback, setJournal, u5, n2], fun b hb => n3 b ((hst b).mp hb)⟩
      · simp [beginRollback, setJournal, setStartup] at hc
      · simp [beginRollback, setJournal, setStartup] at hc
      · simp only [beginRollback, setStartup] at hc
        exact absurd hc (rolls_rollFrom _).2
      · rintro k hc
        exfalso
        simp only [beginRollback, setStartup] at hc
        rcases hc with hc | ⟨l, hc⟩ <;> exact (rolls_rollFrom _).2 (by rw [hc]; trivial)
      · simp [beginRollback, setJournalState_journal]
      · left
        simp [beginRollback, setJournal, setStartup, u7, s1]
      · have : s.mgmt.longCmd = some .initJournal := by rw [← u8]; simpa [beginRollback, setJournal] using hc
        exact absurd this nl
    · exact done .pending (by simp)

/-- R137: the scan comes to a record, or ends. -/
theorem Lawful.scanTo {s u : State} (h : s.Lawful) (hop : s.port.op = none) (hs : s.startup.procedure.scans)
    (hu : (u.queue, u.engine.table, u.engine.slots, u.engine.prefetch, u.drain, u.nextPos, u.startup, u.mgmt.longCmd, u.port) =
      (s.queue, s.engine.table, s.engine.slots, s.engine.prefetch, s.drain, s.nextPos, s.startup, s.mgmt.longCmd, s.port))
    (hj : u.journal.lineSet = s.journal.lineSet ∧ u.journal.sizePages = s.journal.sizePages ∧ u.journal.state = s.journal.state)
    (hw : u.journal.written = s.journal.written) {k : Nat} (hk : k ≤ s.journal.holdsAtMost) : (u.scanTo k).Lawful := by
  have hcap : u.journal.capacity = s.journal.holdsAtMost := by simp only [Journal.capacity, Journal.holdsAtMost, hj.2.1]
  simp only [State.scanTo, hcap]
  split
  · rename_i hc
    exact h.scanEnds hop hs hu hj hk
  · rename_i hc
    obtain ⟨s1, s2⟩ := h.work.phase.scan hs
    obtain ⟨n1, n2, n3, n4, n5⟩ := h.nothing (.inl s1)
    have hl : s.journal.lineSet = [] := h.work.cover.empty (.inr (.inl s2))
    have hz := h.work.cover.zero (.inr s2)
    simp only [Prod.mk.injEq] at hu
    obtain ⟨u1, u2, u3, u4, u5, u6, u7, u8, u9⟩ := hu
    obtain ⟨j1, j2, j3⟩ := hj
    have hst := writeStands_congr (s := s) (t := u.setProcedure (.scanRecord k)) u1 u2 u5
    refine h.of_epoch (t := u.setProcedure (.scanRecord k)) ?_ (fun b hb => absurd hb (n3 b)) n4 (j1.trans hl) ?_
      (fun _ => hw.trans hz) (by show u.mgmt.longCmd ≠ _; rw [u8]; exact n5) (by show u.inFlight = _; rw [inFlight, u9]) (fun op hop' => ?_)
      ⟨fun _ => ⟨u1.trans n1, u5.trans n2, fun b hb => n3 b ((hst b).mp hb)⟩, fun hc => ?_, fun hc => ?_, fun _ => ?_, ?_,
        fun hc => False.elim hc, fun hc => ?_, fun hc => ?_⟩
    · show (u.queue, u.engine.table, u.engine.slots, u.engine.prefetch, u.drain, u.nextPos) = _
      rw [u1, u2, u3, u4, u5, u6]
    · show u.journal.written ≤ _
      rw [hw, hz]
      exact Nat.zero_le _
    · have : u.port.op = some op := hop'
      rw [u9, hop] at this; cases this
    · have : u.startup.phase = .loading := hc
      rw [u7] at this
      have := (h.work.phase.loading this).2.1
      rw [s2] at this; cases this
    · have : u.startup.phase = .supplyWait := hc
      rw [u7] at this
      have := h.work.phase.wait this
      show u.startup.portState = _ ∧ u.journal.state = if 0 < u.journal.sizePages then _ else _
      rw [u7, j3, j2]
      exact this
    · show u.startup.portState = _ ∧ u.journal.state = _
      rw [u7, j3]
      exact ⟨s1, s2⟩
    · show ∀ k', Procedure.scanRecord k = .scanRecord k' ∨ (∃ l, Procedure.scanRecord k = .scanImage k' l) → k' < u.journal.holdsAtMost
      rintro k' (hc' | ⟨l, hc'⟩) <;> cases hc'
      simp only [Journal.holdsAtMost, j2] at hk hc ⊢
      omega
    · have : u.journal.state = .rolling := hc
      rw [j3, s2] at this; cases this
    · have : u.mgmt.longCmd = some .initJournal := hc
      rw [u8] at this
      have := (h.work.phase.init this).1
      rw [s2] at this; cases this

theorem Lawful.scanEndStartup {s : State} (h : s.Lawful) (hs : s.startup.procedure.scans) : s.endStartup.Lawful :=
  h.endStartup (by rw [(h.work.phase.scan hs).2]; simp)

/-- R136, R137: a scan read ends in success. -/
theorem Lawful.scanSucceeded {s : State} (h : s.Lawful) (hop : s.port.op = none) (data : Line) : (s.scanSucceeded data).Lawful := by
  simp only [State.scanSucceeded]
  cases hp : s.startup.procedure with
  | idle => exact h
  | rollRecord k => exact h
  | rollImage k l => exact h
  | rollTarget k t l => exact h
  | rollHeader => exact h
  | scanHeader =>
    have hs : s.startup.procedure.scans := by rw [hp]; trivial
    simp only
    split
    · exact h.scanTo (u := s.setJournal { s.journal with epoch := headerEpoch data }) hop hs rfl ⟨rfl, rfl, rfl⟩ rfl
        (Nat.zero_le _)
    · exact h.scanEndStartup hs
  | scanRecord k =>
    have hs : s.startup.procedure.scans := by rw [hp]; trivial
    have hk := h.work.phase.scanned k (.inl hp)
    simp only
    split
    · obtain ⟨p1, p2, p3, p4, p5, p6, p7, p8⟩ := h.work.phase
      refine h.of_startup rfl rfl rfl h.marks h.init ⟨p1, p2, p3, fun _ => p4 hs, ?_, fun hc => False.elim hc, p7, p8⟩
      rintro k' (hc | ⟨l, hc⟩) <;> cases hc
      exact hk
    · exact h.scanEnds hop hs rfl ⟨rfl, rfl, rfl⟩ (Nat.le_of_lt hk)
  | scanImage k hdr =>
    have hs : s.startup.procedure.scans := by rw [hp]; trivial
    have hk := h.work.phase.scanned k (.inr ⟨hdr, hp⟩)
    simp only
    split
    · exact h.scanTo hop hs rfl ⟨rfl, rfl, rfl⟩ rfl hk
    · exact h.scanEnds hop hs rfl ⟨rfl, rfl, rfl⟩ (Nat.le_of_lt hk)

/-- R137: a record read of the scan fails. -/
theorem Lawful.scanBroken {s : State} (h : s.Lawful) (hop : s.port.op = none) (hs : s.startup.procedure.scans) {k : Nat}
    (hk : k < s.journal.holdsAtMost) : (s.scanBroken k).Lawful := by
  obtain ⟨s1, s2⟩ := h.work.phase.scan hs
  obtain ⟨n1, n2, n3, n4, n5⟩ := h.nothing (.inl s1)
  have hl : s.journal.lineSet = [] := h.work.cover.empty (.inr (.inl s2))
  have nl : s.mgmt.longCmd ≠ some .initJournal := fun hc => by
    have := (h.work.phase.init hc).1
    rw [s2] at this; cases this
  simp only [State.scanBroken]
  set v := (s.setJournal { s.journal with written := k }).setJournalState .failed with hv
  have hvj : v.journal = { s.journal with written := k, state := .failed } := by rw [hv, setJournalState_journal]; rfl
  obtain ⟨hp, ho⟩ := endStartup_parts v
  simp only [parts, Prod.mk.injEq] at hp
  obtain ⟨q1, q2, q3, q4, q5, q6, q7, -, q9⟩ := hp
  have hvl : v.mgmt.longCmd = s.mgmt.longCmd := by simp [hv, setJournal]
  have hvo : v.port.op = s.port.op := by simp [hv, setJournal]
  refine h.of_epoch ?_ (fun b hb => absurd hb (n3 b)) n4 (by rw [q7, hvj]; exact hl) (by rw [q7, hvj]; exact Nat.le_of_lt hk)
    (by rw [q7, hvj]; simp) (by rw [q9, hvl]; exact n5) (by rw [inFlight, ho, hvo]) (fun op hop' => ?_)
    (phaseLaw_of_endStartup (by rw [hvj]; simp) fun hc => absurd (hvl ▸ hc) nl)
  · rw [q1, q2, q3, q4, q5, q6]; simp [hv, setJournal]
  · rw [ho, hvo, hop] at hop'; cases hop'

/-- R136, R137: a scan read fails. -/
theorem Lawful.scanFailed {s : State} (h : s.Lawful) (hop : s.port.op = none) : s.scanFailed.Lawful := by
  simp only [State.scanFailed]
  cases hp : s.startup.procedure with
  | idle => exact h
  | rollRecord k => exact h
  | rollImage k l => exact h
  | rollTarget k t l => exact h
  | rollHeader => exact h
  | scanHeader => exact h.scanEndStartup (by rw [hp]; trivial)
  | scanRecord k => exact h.scanBroken hop (by rw [hp]; trivial) (h.work.phase.scanned k (.inl hp))
  | scanImage k hdr => exact h.scanBroken hop (by rw [hp]; trivial) (h.work.phase.scanned k (.inr ⟨hdr, hp⟩))

end Sys2Proof.Machine.State
end

