-- ==== Sys2Proof/Laws/WorkSteps.lean ====
section
/-! SUPPORT. The laws of the work that stands, over the journal commands, RESET UPSTREAM, resets, the configuration load, the
supply and the ends of an operation. -/

namespace Sys2Proof.Machine.State

/-! ### Journal commands -/

/-- R52, R101, R103, R105: where no work stands, nothing is in the write order and the table is empty. -/
theorem Lawful.nothing_of_hasWork {s : State} (h : s.Lawful) (hw : s.hasWork = false) :
    s.queue = [] ∧ (∀ p : Fin 4, s.engine.table[p] = none) ∧ s.drain = none ∧ (∀ b, ¬ s.writeStands b) ∧
      s.mgmt.longCmd ≠ some .closeEpoch := by
  simp only [hasWork, Bool.or_eq_false_iff, Bool.not_eq_false', List.isEmpty_iff, decide_eq_false_iff_not, Nat.not_lt,
    Nat.le_zero_eq] at hw
  obtain ⟨⟨hq, ho⟩, hr⟩ := hw
  have ht : ∀ p : Fin 4, s.engine.table[p] = none := by
    intro p
    have := List.countP_eq_zero.mp ho s.engine.table[p] (by rw [Fin.getElem_fin]; simp)
    simpa using this
  have hd : s.drain = none := by
    cases hd : s.drain with
    | none => rfl
    | some d =>
      obtain ⟨n, h1, -⟩ := h.work.oldest d hd
      cases hi : d.item with
      | postedWrite => rw [hi] at h1; obtain ⟨b, rest, h1, -⟩ := h1; rw [hq] at h1; cases h1
      | closeMarker => rw [hi] at h1; obtain ⟨rest, h1⟩ := h1; rw [hq] at h1; cases h1
      | delayedWrite p => rw [hi] at h1; obtain ⟨e, ⟨h1, -⟩, -⟩ := h1; rw [ht] at h1; cases h1
      | removed b =>
        obtain ⟨i, st, im, ft⟩ := d
        simp only at hi
        subst hi
        simp [removedBody, hd] at hr
  refine ⟨hq, ht, hd, ?_, fun hc => ?_⟩
  · rintro b (hb | ⟨p, e, ⟨hb, -⟩, -⟩ | ⟨d, hb, -⟩)
    · rw [hq] at hb; cases hb
    · rw [ht] at hb; cases hb
    · rw [hd] at hb; cases hb
  · obtain ⟨m, hm⟩ := h.marks.mpr hc
    rw [hq] at hm; cases hm

theorem Lawful.idle_procedure {s : State} (h : s.Lawful) (hp : s.startup.portState ≠ .starting) (hr : s.journal.state ≠ .rolling) :
    ¬ s.startup.procedure.scans ∧ ¬ s.startup.procedure.rolls ∧ s.startup.phase ≠ .loading ∧ s.startup.phase ≠ .supplyWait :=
  ⟨fun hc => hp (h.work.phase.scan hc).1, fun hc => hr (h.work.phase.roll hc), fun hc => hp (h.work.phase.loading hc).1,
    fun hc => hp (h.work.phase.wait hc).1⟩

/-- With start-up over and no scan, no rollback and no INIT JOURNAL, nothing is asked of the phases. -/
theorem phaseLaw_of_over {t : State} (h : ¬ t.startup.procedure.scans ∧ ¬ t.startup.procedure.rolls ∧ t.startup.phase ≠ .loading ∧
    t.startup.phase ≠ .supplyWait) (hp : t.startup.portState ≠ .starting) (hr : t.journal.state ≠ .rolling)
    (hi : t.mgmt.longCmd = some .initJournal → t.journal.state = .closing ∧ t.drain = none) : t.phaseLaw := by
  obtain ⟨h1, h2, h3, h4⟩ := h
  refine ⟨fun hc => hc.elim (absurd · hp) (absurd · hr), (absurd · h3), (absurd · h4), (absurd · h1), ?_, (absurd · h2),
    (absurd · hr), hi⟩
  rintro k (hc | ⟨l, hc⟩) <;> exact absurd (by rw [hc]; trivial) h1

/-- With nothing in the write order, the journal covers nothing. -/
theorem coverLaw_of_nothing {t : State} (hq : t.queue = []) (hs : ∀ b, ¬ t.writeStands b) (hd : t.drain = none)
    (he : t.journal.state = .off ∨ t.journal.state = .unknown ∨ t.journal.state = .pending → t.journal.lineSet = [])
    (hz : t.journal.state = .off ∨ t.journal.state = .unknown → t.journal.written = 0) : t.coverLaw :=
  ⟨fun m hm => by (rw [hq] at hm; cases hm), fun b hb => absurd hb (hs b), he, hz, fun b hb => absurd hb (hs b),
    fun b hb => absurd hb (hs b), fun b hb => absurd hb (hs b), fun d h => by (rw [hd] at h; cases h),
    fun d h => by (rw [hd] at h; cases h)⟩

/-- R105: WRITE JOURNAL PLACEMENT is taken. -/
theorem Lawful.placeJournal {s : State} (h : s.Lawful) (base size : Nat) (hp : s.startup.portState ≠ .starting)
    (hr : s.journal.state ≠ .rolling) (hc : s.journal.state ≠ .closing) (hw : s.hasWork = false) :
    (s.placeJournal base size).Lawful := by
  obtain ⟨n1, n2, n3, n4, n5⟩ := h.nothing_of_hasWork hw
  have hi : s.mgmt.longCmd ≠ some .initJournal := fun hl => hc (h.work.phase.init hl).1
  set u := s.setJournal { s.journal with basePage := base, sizePages := size, written := 0, lineSet := [] } with hu
  set x : JournalState := if size = 0 then .off else .unknown with hx
  have hx' : x ≠ .rolling := by rw [hx]; split <;> simp
  have hj : (u.setJournalState x).journal = { u.journal with state := x } := setJournalState_journal _ _
  show (u.setJournalState x).Lawful
  refine h.of_epoch (by simp [hu, setJournal]) (fun b hb => absurd hb (n4 b)) (fun m => by rw [n1]; simp) (by rw [hj]; rfl)
    (by rw [hj]; exact Nat.zero_le _) (fun _ => by rw [hj]; rfl) (by simpa [hu, setJournal] using n5)
    (by simp [inFlight, hu, setJournal]) (fun op hop ho => ?_)
    (phaseLaw_of_over (by simpa [hu, setJournal] using h.idle_procedure hp hr) (by simpa [hu, setJournal] using hp)
      (by rw [hj]; exact hx') fun hl => absurd (by simpa [hu, setJournal] using hl) hi)
  have := h.init op (by simpa [hu, setJournal] using hop) ho
  exact absurd this hi

/-- R101: INIT JOURNAL is taken. -/
theorem Lawful.takeInit {s : State} (h : s.Lawful) (epoch : BitVec 32)
    (hb : s.initStateBad = false) : (s.takeInit epoch).Lawful := by
  simp only [initStateBad, Bool.or_eq_false_iff, beq_eq_false_iff_ne, ne_eq] at hb
  obtain ⟨⟨⟨⟨hp, -⟩, -⟩, hr⟩, hw⟩ := hb
  obtain ⟨n1, n2, n3, n4, n5⟩ := h.nothing_of_hasWork hw
  simp only [State.takeInit]
  set u := (s.setJournal (s.journal.clear epoch)).setJournalState .closing with hu
  have hj : u.journal = { s.journal.clear epoch with state := .closing } := by rw [hu, setJournalState_journal]; rfl
  refine Lawful.settle ?_
  refine h.of_epoch (t := u.takeLong .initJournal) (by simp [hu, setJournal, takeLong]) (fun b hb => absurd hb (n4 b))
    (fun m => by rw [n1]; simp) (by show u.journal.lineSet = []; rw [hj]; rfl)
    (by show u.journal.written ≤ _; rw [hj]; exact Nat.zero_le _) (fun hc => ?_) (by simp [takeLong])
    (by simp [inFlight, hu, setJournal, takeLong]) (fun _ _ _ => rfl)
    (phaseLaw_of_over (by simpa [hu, setJournal, takeLong] using h.idle_procedure hp hr)
      (by simpa [hu, setJournal, takeLong] using hp) (by show u.journal.state ≠ _; rw [hj]; simp) fun _ => ⟨?_, ?_⟩)
  · have : u.journal.state = .off ∨ u.journal.state = .unknown := hc
    rw [hj] at this
    simp at this
  · show u.journal.state = _; rw [hj]
  · show u.drain = none; simpa [hu, setJournal] using n3

/-- R50, R98: a close marker joins the write order. -/
theorem Lawful.marked {s : State} (h : s.Lawful) (hl : s.mgmt.longCmd = none) (hp : s.startup.portState ≠ .starting)
    (hj : s.journal.state = .active ∨ s.journal.state = .failed) :
    ((s.appendMarker.setJournalState .closing).takeLong .closeEpoch).Lawful := by
  set t := (s.appendMarker.setJournalState .closing).takeLong .closeEpoch with ht
  have tj : t.journal = { s.journal with state := .closing } := by
    have : (s.appendMarker.setJournalState .closing).journal = _ := setJournalState_journal _ _
    rw [ht]; exact this
  have tq : t.queue = s.queue ++ [.marker s.nextPos] := by simp [ht, takeLong, appendMarker]
  have te : t.engine = s.engine := by simp [ht, takeLong, appendMarker]
  have td : t.drain = s.drain := by simp [ht, takeLong, appendMarker]
  have tn : t.nextPos = s.nextPos + 1 := by simp [ht, takeLong, appendMarker]
  have ts : t.startup = s.startup := by simp [ht, takeLong, appendMarker]
  have tp : t.port = s.port := by simp [ht, takeLong, appendMarker]
  have tl : t.mgmt.longCmd = some .closeEpoch := rfl
  have nm : ∀ m, QueueEntry.marker m ∉ s.queue := fun m hm => by have := h.marks.mp ⟨m, hm⟩; rw [hl] at this; cases this
  have hst : ∀ b, t.writeStands b ↔ s.writeStands b := fun b => by simp [writeStands, delays, tq, te, td]
  have hbd : ∀ i, t.itemBody i = s.itemBody i := by
    intro i
    cases i <;> simp only [itemBody, tq, te]
    cases s.queue <;> rfl
  obtain ⟨o, e, f, p, c, k⟩ := h.work
  obtain ⟨o1, o2, o3, o4⟩ := h.order
  have hr : s.journal.state ≠ .rolling := by rcases hj with hj | hj <;> rw [hj] <;> simp
  refine ⟨⟨?_, ?_, ?_, by rw [te]; exact o4⟩, ?_, ?_, ?_, ⟨?_, ?_, ?_, ?_, ?_, ?_⟩⟩
  · rw [tq, List.map_append, List.pairwise_append]
    refine ⟨o1, by simp, fun a ha b hb => ?_⟩
    simp only [List.map_cons, List.map_nil, List.mem_singleton, QueueEntry.pos] at hb
    obtain ⟨x, hx, rfl⟩ := List.mem_map.mp ha
    rw [hb]; exact o2 x hx
  · intro x hx
    rw [tq, List.mem_append, List.mem_singleton] at hx
    rw [tn]
    rcases hx with hx | rfl
    · exact Nat.lt_succ_of_lt (o2 x hx)
    · exact Nat.lt_succ_self _
  · intro q e' he
    rw [te] at he
    refine ⟨by rw [tn]; exact Nat.lt_succ_of_lt (o3 q e' he).1, fun x hx => ?_⟩
    rw [tq, List.mem_append, List.mem_singleton] at hx
    rcases hx with hx | rfl
    · exact (o3 q e' he).2 x hx
    · exact (Nat.ne_of_lt (o3 q e' he).1).symm
  · rw [tq, List.countP_append]
    have : s.queue.countP QueueEntry.isMarker = 0 := List.countP_eq_zero.mpr fun x hx => by
      cases x with
      | write b => simp [QueueEntry.isMarker]
      | marker m => exact absurd hx (nm m)
    rw [this]; simp [QueueEntry.isMarker]
  · rw [tl, tq]; simp
  · intro op hop ho
    rw [tp] at hop
    have := h.init op hop ho
    rw [hl] at this; cases this
  · intro d hd
    rw [td] at hd
    obtain ⟨n, h1, h2, h3, h4⟩ := o d hd
    refine ⟨n, ?_, by rw [tn]; exact Nat.lt_succ_of_lt h2, fun x hx => ?_, fun q e' he => h4 q e' (by simpa only [delays, te] using he)⟩
    · cases hi : d.item with
      | postedWrite =>
        rw [hi] at h1
        obtain ⟨b, rest, h1, h5⟩ := h1
        exact ⟨b, rest ++ [.marker s.nextPos], by rw [tq, h1]; rfl, h5⟩
      | closeMarker =>
        rw [hi] at h1
        obtain ⟨rest, h1⟩ := h1
        exact ⟨rest ++ [.marker s.nextPos], by rw [tq, h1]; rfl⟩
      | delayedWrite q =>
        rw [hi] at h1
        simpa only [standsAt, delays, te] using h1
      | removed b => rw [hi] at h1; exact h1
    · rw [tq, List.mem_append, List.mem_singleton] at hx
      rcases hx with hx | rfl
      · exact h3 x hx
      · exact .inl h2
  · obtain ⟨e1, e2, e3, e4, e5, e6, e7⟩ := e
    refine ⟨?_, ?_, ?_, ?_, ?_, ?_, ?_⟩ <;> simp only [te, td, tp] <;> assumption
  · obtain ⟨f1, f2, f3, f4⟩ := f
    refine ⟨?_, ?_, ?_, ?_⟩ <;> simp only [hst, te] <;> assumption
  · refine phaseLaw_of_over (by rw [ts]; exact h.idle_procedure hp hr) (by rw [ts]; exact hp) (by rw [tj]; simp) fun hc => ?_
    rw [tl] at hc; cases hc
  · obtain ⟨c1, c2, c3, c4, c5, c6, c7, c8, c9⟩ := c
    have hs : s.journal.state ≠ .off ∧ s.journal.state ≠ .unknown := by rcases hj with hj | hj <;> rw [hj] <;> simp
    refine ⟨?_, ?_, ?_, ?_, ?_, ?_, ?_, ?_, ?_⟩ <;> (try simp only [hst, hbd, td, tj]) <;> try assumption
    · intro m hm
      rw [tq, List.mem_append, List.mem_singleton] at hm
      rcases hm with hm | hm
      · exact absurd hm (nm m)
      · cases hm
        exact ⟨.inl trivial, fun b hb _ => h.pos_lt hb⟩
    · exact fun _ _ _ => .inr (.inl trivial)
    · simp
    · simp
  · have hh : t.held = s.held := by
      simp only [held, tq, te, td, tj, List.countP_append]
      simp [QueueEntry.countsOwn]
    simp only [capacityLaw, hh, tj]
    exact k

/-- R98: CLOSE EPOCH is taken. -/
theorem Lawful.takeClose {s : State} (h : s.Lawful) (hl : s.mgmt.longCmd = none) (hp : s.startup.portState ≠ .starting)
    (hj : s.journal.state = .active ∨ s.journal.state = .failed) : s.takeClose.Lawful := (h.marked hl hp hj).settle

/-- R103: the read buffer and the prefetch list are emptied, with nothing in the table. -/
theorem Lawful.freeBuffer {s : State} (h : s.Lawful) (ht : ∀ p : Fin 4, s.engine.table[p] = none) :
    (s.setEngine s.engine.freeBuffer).Lawful := by
  have hg : ∀ i : Fin 8, s.engine.freeBuffer.slots[i] = (s.engine.slots[i]).discard := fun i => by
    simp [Engine.freeBuffer]
  have filled : ∀ (i : Fin 8) l st o, s.engine.freeBuffer.slots[i] = .filling l st o →
      st = true ∧ ∃ st', s.engine.slots[i] = .filling l st' o := by
    intro i l st o hi
    rw [hg] at hi
    cases hs : s.engine.slots[i] with
    | free => rw [hs] at hi; cases hi
    | filling l' st' o' => rw [hs] at hi; cases hi; exact ⟨rfl, st', rfl⟩
    | valid l' d o' a => rw [hs] at hi; cases hi
  have valid : ∀ (i : Fin 8) l d o a, s.engine.freeBuffer.slots[i] ≠ .valid l d o a := by
    intro i l d o a hi
    rw [hg] at hi
    cases hs : s.engine.slots[i] <;> rw [hs] at hi <;> cases hi
  obtain ⟨e1, e2, e3, e4, e5, e6, e7⟩ := h.work.entry
  refine h.of_engine rfl (fun p e => Iff.rfl) (fun p e he => ⟨e, he, rfl⟩) h.init ⟨e1, e2, ?_, e4, ?_, ?_, ?_⟩ ⟨?_, ?_, ?_, ?_⟩
  · intro p e i he
    have : s.engine.table[p] = some e := he
    rw [ht] at this; cases this
  · rintro i p (⟨l, st, hi⟩ | ⟨l, d, a, hi⟩)
    · obtain ⟨-, st', hs⟩ := filled i l st _ hi
      exact e5 i p (.inl ⟨l, st', hs⟩)
    · exact absurd hi (valid i l d _ a)
  · intro i l st o hi
    obtain ⟨-, st', hs⟩ := filled i l st o hi
    exact e6 i l st' o hs
  · intro i j l l' st st' o o' hi hj
    obtain ⟨-, x, hs⟩ := filled i l st o hi
    obtain ⟨-, y, hs'⟩ := filled j l' st' o' hj
    exact e7 i j l l' x y o o' hs hs'
  · exact h.work.fresh.behind
  · exact fun b i _ => ⟨fun d o a => valid i _ d o a, fun o hc => by have := (filled i _ _ o hc).1; cases this⟩
  · exact fun _ _ => List.not_mem_nil
  · intro b p e _ he
    have : s.engine.table[p] = some e := he
    rw [ht] at this; cases this

/-- R103: ROLLBACK is taken. -/
theorem Lawful.takeRollback {s : State} (h : s.Lawful) (hl : s.mgmt.longCmd = none) (hb : s.rollbackStateBad = false) :
    s.takeRollback.Lawful := by
  simp only [rollbackStateBad, Bool.or_eq_false_iff, Bool.and_eq_false_iff, bne_eq_false_iff_eq] at hb
  obtain ⟨⟨hp, hj⟩, hw⟩ := hb
  obtain ⟨n1, n2, n3, n4, n5⟩ := h.nothing_of_hasWork hw
  have np : s.startup.portState ≠ .starting := by rcases hp with hp | hp <;> rw [hp] <;> simp
  have nr : s.journal.state ≠ .rolling := by rcases hj with (hj | hj) | hj <;> rw [hj] <;> simp
  have no : s.journal.state ≠ .off ∧ s.journal.state ≠ .unknown := by rcases hj with (hj | hj) | hj <;> rw [hj] <;> simp
  have g := h.freeBuffer n2
  simp only [State.takeRollback]
  refine Lawful.settle ?_
  set u := (s.takeLong (.rollback s.startup.portState)).setJournalState .rolling with hu
  set v := (u.setStartup { u.startup with portState := .rolling }) with hv
  set t := (v.setEngine v.engine.freeBuffer).beginRollback with ht
  have uj : u.journal = { s.journal with state := .rolling } := by rw [hu, setJournalState_journal]; rfl
  have tj : t.journal = { s.journal with state := .rolling } := uj
  have ue : u.engine = s.engine := by simp [hu, takeLong]
  have te : t.engine = s.engine.freeBuffer := by show u.engine.freeBuffer = _; rw [ue]
  have tq : t.queue = s.queue := by show u.queue = _; simp [hu, takeLong]
  have td : t.drain = s.drain := by show u.drain = _; simp [hu, takeLong]
  have tn : t.nextPos = s.nextPos := by show u.nextPos = _; simp [hu, takeLong]
  have tp : t.port = s.port := by show u.port = _; simp [hu, takeLong]
  have tl : t.mgmt.longCmd = some (.rollback s.startup.portState) := by show u.mgmt.longCmd = _; simp [hu, takeLong]
  have tst : t.startup.procedure = rollFrom u.journal.written := rfl
  have us : u.startup = s.startup := by simp [hu, takeLong]
  have tph : t.startup.phase = s.startup.phase := by show u.startup.phase = _; rw [us]
  have tps : t.startup.portState = .rolling := rfl
  have hst := writeStands_congr (s := s) (t := t) tq (by rw [te]; rfl) td
  have idle := h.idle_procedure np nr
  refine g.of_same_work (by rw [tq, te, td, tn]; rfl) ⟨fun ⟨m, hm⟩ => ?_, fun hc => ?_⟩ (fun op hop ho => ?_)
    (by show t.inFlight = s.inFlight; rw [inFlight, tp]) ?_ (coverLaw_of_nothing ?_ ?_ ?_ ?_ ?_) ?_
  · have : QueueEntry.marker m ∈ s.queue := hm
    rw [n1] at this; cases this
  · rw [tl] at hc; cases hc
  · rw [tp] at hop
    have := h.init op hop ho
    rw [hl] at this; cases this
  · refine ⟨fun _ => ⟨tq.trans n1, td.trans n3, fun b hb => n4 b ((hst b).mp hb)⟩, fun hc => ?_, fun hc => ?_, fun hc => ?_, ?_,
      fun _ => by rw [tj], fun _ => .inr tps, fun hc => ?_⟩
    · rw [tph] at hc; exact absurd hc idle.2.2.1
    · rw [tph] at hc; exact absurd hc idle.2.2.2
    · rw [tst] at hc; exact absurd hc (rolls_rollFrom _).2
    · rintro k (hc | ⟨l, hc⟩) <;> exact absurd (by rw [← tst, hc]; trivial) (rolls_rollFrom u.journal.written).2
    · rw [tl] at hc; cases hc
  · rw [tq, n1]
  · exact fun b hb => n4 b ((hst b).mp hb)
  · rw [td, n3]
  · rw [tj]; simp
  · rw [tj]; simp
  · have hh : t.held = s.held := held_congr tq (by rw [te]; rfl) td (by rw [tj])
    simp only [capacityLaw, hh, tj]
    exact h.work.capacity

/-! ### RESET UPSTREAM -/

/-- R52, R76: what RESET UPSTREAM leaves of the drain in progress. -/
theorem orphanDrain_cases (s : State) : ∃ d', s.orphanDrain = s.setDrain d' ∧
    ((d' = s.drain ∧ ∀ d p, s.drain = some d → d.item ≠ .delayedWrite p) ∨
      ∃ d p, s.drain = some d ∧ d.item = .delayedWrite p ∧ (d' = none ∨
        ∃ e, s.engine.table[p] = some e ∧ d' = some { d with item := .removed e.body })) := by
  simp only [orphanDrain]
  split
  · rename_i p stage image ft hd
    split
    · split
      · rename_i e _ he _
        exact ⟨_, rfl, .inr ⟨_, p, hd, rfl, .inr ⟨e, he, rfl⟩⟩⟩
      · exact ⟨_, rfl, .inr ⟨_, p, hd, rfl, .inl rfl⟩⟩
    · exact ⟨_, rfl, .inr ⟨_, p, hd, rfl, .inl rfl⟩⟩
    · exact ⟨_, rfl, .inr ⟨_, p, hd, rfl, .inl rfl⟩⟩
  all_goals
    rename_i hd
    refine ⟨s.drain, rfl, .inl ⟨rfl, fun d p hd' hi => ?_⟩⟩
    rw [hd] at hd'
    cases hd'
  all_goals cases hi

/-- R75, R76: RESET UPSTREAM empties the engine, and a delayed write in its drain leaves or stays the head. -/
theorem Lawful.emptied {s : State} (h : s.Lawful) : (s.orphanDrain.setEngine s.engine.empty).Lawful := by
  obtain ⟨d', ho, hc⟩ := orphanDrain_cases s
  rw [ho]
  set t := (s.setDrain d').setEngine s.engine.empty with ht
  have tt : ∀ p : Fin 4, t.engine.table[p] = none := fun p => by simp [ht, setEngine, Engine.empty]
  have ts : ∀ i : Fin 8, t.engine.slots[i] = .free := fun i => by simp [ht, setEngine, Engine.empty]
  have td : t.drain = d' := rfl
  obtain ⟨o, e, f, p, c, k⟩ := h.work
  obtain ⟨o1, o2, o3, o4⟩ := h.order
  -- a write that stands stood
  have own : ∀ b d, d' = some d → d.item = .removed b → s.writeStands b ∧ s.drain ≠ none ∧
      ((∃ q, s.drain = some { d with item := .delayedWrite q } ∧ ∃ e, s.engine.table[q] = some e ∧ e.body = b) ∨
        s.drain = some d) := by
    intro b d hd hi
    rcases hc with ⟨h1, h2⟩ | ⟨d0, q, h1, h2, h3⟩
    · rw [h1] at hd
      exact ⟨.inr (.inr ⟨d, hd, hi⟩), by rw [hd]; simp, .inr hd⟩
    · rcases h3 with h3 | ⟨e0, h3, h4⟩
      · rw [h3] at hd; cases hd
      · rw [h4] at hd
        cases hd
        cases hi
        obtain ⟨n, h5, -⟩ := o d0 h1
        rw [h2] at h5
        obtain ⟨e1, h5, -⟩ := h5
        have h6 := h5.1
        rw [h3] at h6
        cases h6
        have h0 : d0 = { d0 with item := DrainItem.delayedWrite q } := by rw [← h2]
        exact ⟨.inr (.inl ⟨q, e0, h5, rfl⟩), by rw [h1]; simp, .inl ⟨q, by rw [h1, ← h0], e0, h3, rfl⟩⟩
  have sub : ∀ b, t.writeStands b → s.writeStands b := by
    rintro b (hb | ⟨q, g, ⟨hb, -⟩, -⟩ | ⟨d, hb, hi⟩)
    · exact .inl hb
    · rw [tt] at hb; cases hb
    · exact (own b d hb hi).1
  have some_of : ∀ d, d' = some d → ∃ d0, s.drain = some d0 ∧ d0.stage = d.stage ∧ d0.image = d.image ∧
      (d0 = d ∧ (∀ q, d.item ≠ .delayedWrite q) ∨ ∃ q e, d0.item = .delayedWrite q ∧ s.delays q e ∧ d.item = .removed e.body) := by
    intro d hd
    rcases hc with ⟨h1, h2⟩ | ⟨d0, q, h1, h2, h3⟩
    · rw [h1] at hd
      exact ⟨d, hd, rfl, rfl, .inl ⟨rfl, fun q => h2 d q hd⟩⟩
    · rcases h3 with h3 | ⟨e0, h3, h4⟩
      · rw [h3] at hd; cases hd
      · rw [h4] at hd
        cases hd
        obtain ⟨n, h5, -⟩ := o d0 h1
        rw [h2] at h5
        obtain ⟨e1, h5, -⟩ := h5
        have h6 := h5.1
        rw [h3] at h6
        cases h6
        exact ⟨d0, h1, rfl, rfl, .inr ⟨q, e0, h2, h5, rfl⟩⟩
  have none_of : s.drain = none → d' = none := by
    intro hn
    cases hd : d' with
    | none => rfl
    | some d => obtain ⟨d0, h0, -⟩ := some_of d hd; rw [hn] at h0; cases h0
  have body_of : ∀ d d0, d' = some d → s.drain = some d0 → t.itemBody d.item = s.itemBody d0.item := by
    intro d d0 hd h0
    obtain ⟨d1, h1, -, -, h2⟩ := some_of d hd
    rw [h0] at h1
    cases h1
    rcases h2 with ⟨rfl, h2⟩ | ⟨q, e0, h2, h3, h4⟩
    · cases hi : d0.item with
      | delayedWrite q => exact absurd hi (h2 q)
      | postedWrite => rfl
      | closeMarker => rfl
      | removed b => rfl
    · rw [h4, h2]
      simp only [itemBody, h3.1, Option.map_some]
  refine ⟨⟨o1, o2, fun q g hq => ?_, fun q q' g g' hq => ?_⟩, h.one, h.marks, h.init, ⟨?_, ⟨?_, ?_, ?_, ?_, ?_, ?_, ?_⟩,
    ⟨?_, ?_, ?_, ?_⟩, ?_, ?_, ?_⟩⟩
  · rw [tt] at hq; cases hq
  · rw [tt] at hq; cases hq
  · intro d hd
    obtain ⟨d0, h0, -, -, h1⟩ := some_of d hd
    obtain ⟨n, n1, n2, n3, n4⟩ := o d0 h0
    refine ⟨n, ?_, n2, fun x hx => ?_, fun q g hg => ?_⟩
    · rcases h1 with ⟨rfl, h1⟩ | ⟨q, e0, h2, h3, h4⟩
      · cases hi : d0.item with
        | delayedWrite q => exact absurd hi (h1 q)
        | postedWrite => rw [hi] at n1; exact n1
        | closeMarker => rw [hi] at n1; exact n1
        | removed b => rw [hi] at n1; exact n1
      · rw [h2] at n1
        obtain ⟨e1, n1, rfl⟩ := n1
        have := n1.1
        rw [h3.1] at this
        cases this
        rw [h4]; rfl
    · rcases h1 with ⟨rfl, h1⟩ | ⟨q, e0, h2, h3, h4⟩
      · exact n3 x hx
      · rcases n3 x hx with h5 | ⟨-, h5⟩
        · exact .inl h5
        · rw [h2] at h5; simp at h5
    · have := hg.1
      rw [tt] at this; cases this
  · intro q g hq; rw [tt] at hq; cases hq
  · intro q g hq; rw [tt] at hq; cases hq
  · intro q g i hq; rw [tt] at hq; cases hq
  · intro q g hq; rw [tt] at hq; cases hq
  · rintro i q (⟨l, st, hi⟩ | ⟨l, d, a, hi⟩) <;> rw [ts] at hi <;> cases hi
  · intro i l st o' hi; rw [ts] at hi; cases hi
  · intro i j l l' st st' o' o'' hi; rw [ts] at hi; cases hi
  · intro b q g _ hq; rw [tt] at hq; cases hq
  · exact fun b i _ => ⟨fun d o' a hi => by (rw [ts] at hi; cases hi), fun o' hi => by (rw [ts] at hi; cases hi)⟩
  · exact fun _ _ => List.not_mem_nil
  · intro b q g _ hq; rw [tt] at hq; cases hq
  · obtain ⟨p1, p2, p3, p4, p5, p6, p7, p8⟩ := p
    exact ⟨fun hq => ⟨(p1 hq).1, none_of (p1 hq).2.1, fun b hb => (p1 hq).2.2 b (sub b hb)⟩, p2, p3, p4, p5, p6, p7,
      fun hl => ⟨(p8 hl).1, none_of (p8 hl).2⟩⟩
  · obtain ⟨c1, c2, c3, c4, c5, c6, c7, c8, c9⟩ := c
    refine ⟨fun m hm => ⟨(c1 m hm).1, fun b hb => (c1 m hm).2 b (sub b hb)⟩, fun b hb => c2 b (sub b hb), c3, c4,
      fun b hb => c5 b (sub b hb), fun b hb => c6 b (sub b hb), fun b hb hr => ?_, fun d hd => ?_, fun d hd hs => ?_⟩
    · obtain ⟨d0, h0, h1, h2⟩ := c7 b (sub b hb) hr
      cases hd : d' with
      | some d =>
        obtain ⟨d1, h3, h4, -⟩ := some_of d hd
        rw [h0] at h3
        cases h3
        exact ⟨d, hd, by rw [← h4, h1], by rw [body_of d d0 hd h0, h2]⟩
      | none =>
        exfalso
        obtain ⟨n, hh⟩ := h.heads_of_drain h0
        rcases hc with ⟨h3, -⟩ | ⟨d1, q, h3, h4, -⟩
        · rw [hd, h0] at h3; cases h3
        · rw [h0] at h3
          cases h3
          have hq : ∀ x ∈ s.queue, n < x.pos := fun x hx => (hh.queue x hx).resolve_right (by rw [h4]; simp)
          rcases hb with hb | ⟨q', g, ⟨hb, -⟩, -⟩ | ⟨d2, hb, -⟩
          · have := h.not_recorded hh (.inl hb) (hq _ hb)
            rw [this] at hr; cases hr
          · rw [tt] at hb; cases hb
          · rw [td, hd] at hb; cases hb
    · obtain ⟨d0, h0, h1, -, h2⟩ := some_of d hd
      have := c8 d0 h0
      rw [h1] at this
      rcases h2 with ⟨rfl, -⟩ | ⟨q, e0, h2, -, h4⟩
      · exact this
      · rw [this, h2, h4]; simp
    · obtain ⟨d0, h0, h1, -⟩ := some_of d hd
      rw [body_of d d0 hd h0]
      exact c9 d0 h0 (by rw [h1]; exact hs)
  · have hle : t.held ≤ s.held := by
      have h1 : (List.finRange 4).countP (fun p => (t.engine.table[p]).any DelayedEntry.countsOwn) = 0 :=
        List.countP_eq_zero.mpr fun q _ => by rw [tt]; simp
      have h2 : t.journal = s.journal := rfl
      have h3 : t.queue = s.queue := rfl
      simp only [held, h1, h2, h3, td]
      by_cases hx : d'.any Drain.countsOwn = true
      · rw [if_pos hx]
        obtain ⟨d, hd, hx'⟩ : ∃ d, d' = some d ∧ d.countsOwn = true := by
          cases hd : d' with
          | none => rw [hd] at hx; cases hx
          | some d => rw [hd] at hx; exact ⟨d, rfl, hx⟩
        obtain ⟨d0, h0, -, -, h4⟩ := some_of d hd
        rcases h4 with ⟨rfl, -⟩ | ⟨q, e0, -, h5, h6⟩
        · rw [h0, Option.any_some, if_pos hx']
          omega
        · have : 0 < (List.finRange 4).countP (fun p => (s.engine.table[p]).any DelayedEntry.countsOwn) := by
            refine List.countP_pos_iff.mpr ⟨q, List.mem_finRange q, ?_⟩
            rw [h5.1, Option.any_some, DelayedEntry.countsOwn, Bool.and_eq_true, decide_eq_true_eq]
            refine ⟨h5.2, ?_⟩
            rw [Drain.countsOwn, h6] at hx'
            exact hx'
          split <;> omega
      · rw [if_neg hx]
        omega
    have h2 : t.journal = s.journal := rfl
    simp only [capacityLaw, h2] at k ⊢
    omega

/-- R75: RESET UPSTREAM. -/
theorem Lawful.resetUpstream {s : State} (h : s.Lawful) : s.resetUpstream.Lawful := h.emptied.settle

end Sys2Proof.Machine.State
end

