-- ==== Sys2Proof/Laws/WorkEvents.lean ====
section
/-! SUPPORT. The laws of the work that stands, over resets, the configuration load, the supply, the ends of an operation, the
upstream port and the frame of a management command. -/

namespace Sys2Proof.Machine.State

/-! ### Resets -/

/-- R127: a reset leaves nothing that the laws speak of. -/
theorem lawful_of_reset {t : State} (hq : t.queue = []) (ht : ∀ p : Fin 4, t.engine.table[p] = none)
    (hs : ∀ i : Fin 8, t.engine.slots[i] = .free) (hd : t.drain = none) (ho : t.port.op = none)
    (hl : t.mgmt.longCmd = none) (hj : t.journal = Journal.reset)
    (hst : t.startup.portState = .starting ∧ t.startup.phase = .loading ∧ t.startup.procedure = .idle) : t.Lawful := by
  have nw : ∀ b, ¬ t.writeStands b := by
    rintro b (hb | ⟨p, e, ⟨hb, -⟩, -⟩ | ⟨d, hb, -⟩)
    · rw [hq] at hb; cases hb
    · rw [ht] at hb; cases hb
    · rw [hd] at hb; cases hb
  refine ⟨⟨by rw [hq]; exact List.Pairwise.nil, by rw [hq]; simp, fun p e he => ?_, fun p q e f he => ?_⟩, by rw [hq]; simp,
    by rw [hq, hl]; simp, fun op hop => ?_, ⟨fun d h => ?_, ⟨?_, ?_, ?_, ?_, ?_, ?_, ?_⟩, ⟨?_, ?_, ?_, ?_⟩,
    ⟨fun _ => ⟨hq, hd, nw⟩, fun _ => ⟨hst.1, by rw [hj]; rfl, by rw [hj]; rfl⟩, fun hc => ?_, fun hc => ?_, ?_, fun hc => ?_, fun hc => ?_, fun hc => ?_⟩,
    coverLaw_of_nothing hq nw hd (by rw [hj]; exact fun _ => rfl) (by rw [hj]; exact fun _ => rfl), ?_⟩⟩
  · rw [ht] at he; cases he
  · rw [ht] at he; cases he
  · rw [ho] at hop; cases hop
  · rw [hd] at h; cases h
  · intro p e he; rw [ht] at he; cases he
  · intro p e he; rw [ht] at he; cases he
  · intro p e i he; rw [ht] at he; cases he
  · intro p e he; rw [ht] at he; cases he
  · rintro i p (⟨l, st, hi⟩ | ⟨l, d, a, hi⟩) <;> rw [hs] at hi <;> cases hi
  · intro i l st o hi; rw [hs] at hi; cases hi
  · intro i j l l' st st' o o' hi; rw [hs] at hi; cases hi
  · exact fun b p e hb => absurd hb (nw b)
  · exact fun b i hb => absurd hb (nw b)
  · exact fun b hb => absurd hb (nw b)
  · exact fun b p e hb => absurd hb (nw b)
  · rw [hst.2.1] at hc; cases hc
  · rw [hst.2.2] at hc; cases hc
  · rw [hst.2.2]; rintro k (hc | ⟨l, hc⟩) <;> cases hc
  · rw [hst.2.2] at hc; cases hc
  · rw [hj] at hc; cases hc
  · rw [hl] at hc; cases hc
  · have : t.held = 0 := held_of_unguarded (by rw [hj]; rfl) (fun b hb => absurd hb (nw b)) fun b hb => absurd hb (nw b)
    rw [capacityLaw, this, hj]
    exact Nat.zero_le _

theorem lawful_startReset (cause : ResetCause) (level : SupplyLevel) (nrstLow : Bool) (s : State) :
    (s.startReset cause level nrstLow).Lawful :=
  lawful_of_reset rfl (fun p => by simp [startReset, Engine.reset]) (fun i => by simp [startReset, Engine.reset]) rfl rfl rfl
    rfl ⟨rfl, rfl, rfl⟩

/-- Start-up changes in nothing that the laws look at. -/
theorem Lawful.of_startup_congr {s t : State} (h : s.Lawful)
    (hw : (t.queue, t.engine, t.drain, t.nextPos, t.journal, t.port, t.mgmt) =
      (s.queue, s.engine, s.drain, s.nextPos, s.journal, s.port, s.mgmt))
    (hs : (t.startup.portState, t.startup.phase, t.startup.procedure) =
      (s.startup.portState, s.startup.phase, s.startup.procedure)) : t.Lawful := by
  simp only [Prod.mk.injEq] at hw hs
  obtain ⟨h1, h2, h3, h4, h5, h6, h7⟩ := hw
  obtain ⟨s1, s2, s3⟩ := hs
  have hst := writeStands_congr (s := s) (t := t) h1 (by rw [h2]) h3
  refine h.of_startup (by rw [h1, h2, h3, h4]) h5 (by rw [inFlight, h6]) (by rw [h7]; exact h.marks)
    (by rw [h6, h7]; exact h.init) ?_
  obtain ⟨p1, p2, p3, p4, p5, p6, p7, p8⟩ := h.work.phase
  refine ⟨?_, ?_, ?_, ?_, ?_, ?_, ?_, ?_⟩ <;> simp only [hst, h1, h3, h5, h7, s1, s2, s3] <;> assumption

/-- R126: RESET_END. -/
theorem Lawful.endReset {s : State} (h : s.Lawful) : s.endReset.Lawful := h.of_startup_congr rfl rfl

/-! ### The configuration load -/

/-- R131, R133: LOADING ends. -/
theorem Lawful.judgeShadow {s : State} (h : s.Lawful) (hl : s.startup.phase = .loading) : s.judgeShadow.Lawful := by
  obtain ⟨l1, l2, l3⟩ := h.work.phase.loading hl
  obtain ⟨n1, n2, n3, n4, n5⟩ := h.nothing (.inl l1)
  have empty := h.work.cover.empty (.inl l2)
  have zero := h.work.cover.zero (.inl l2)
  have ns : ¬ s.startup.procedure.scans := fun hc => by have := (h.work.phase.scan hc).2; rw [l2] at this; cases this
  have nr : ¬ s.startup.procedure.rolls := fun hc => by have := h.work.phase.roll hc; rw [l2] at this; cases this
  have ni : s.mgmt.longCmd ≠ some .initJournal := fun hc => by have := (h.work.phase.init hc).1; rw [l2] at this; cases this
  have key : ∀ t : State, (t.queue, t.engine.table, t.engine.slots, t.engine.prefetch, t.drain, t.nextPos, t.mgmt.longCmd, t.port.op,
      t.startup.portState, t.startup.phase, t.startup.procedure, t.journal.lineSet, t.journal.written) =
      (s.queue, s.engine.table, s.engine.slots, s.engine.prefetch, s.drain, s.nextPos, s.mgmt.longCmd, s.port.op,
      s.startup.portState, .supplyWait, s.startup.procedure, s.journal.lineSet, s.journal.written) →
      (t.journal.state = if 0 < t.journal.sizePages then .unknown else .off) → t.Lawful := by
    intro t ht hj
    simp only [Prod.mk.injEq] at ht
    obtain ⟨t1, t2, t3, t4, t5, t6, t7, t8, t9, t10, t11, t12, t13⟩ := ht
    have hst := writeStands_congr (s := s) (t := t) t1 t2 t5
    have hnr : t.journal.state ≠ .rolling := by rw [hj]; split <;> simp
    refine h.of_epoch (by rw [t1, t2, t3, t4, t5, t6]) (fun b hb => absurd hb (n3 b)) n4 (t12.trans empty)
      (by rw [t13, zero]; exact Nat.zero_le _) (fun _ => t13.trans zero) (by rw [t7]; exact n5) (by rw [inFlight, t8])
      (by rw [t8, t7]; exact h.init)
      ⟨fun _ => ⟨t1.trans n1, t5.trans n2, fun b hb => n3 b ((hst b).mp hb)⟩, fun hc => ?_, fun _ => ⟨t9.trans l1, hj⟩,
        fun hc => ?_, ?_, fun hc => ?_, fun hc => absurd hc hnr, fun hc => ?_⟩
    · rw [t10] at hc; cases hc
    · rw [t11] at hc; exact absurd hc ns
    · rintro k (hc | ⟨l, hc⟩) <;> exact absurd (by rw [← t11, hc]; trivial) ns
    · rw [t11] at hc; exact absurd hc nr
    · rw [t7] at hc; exact absurd hc ni
  simp only [State.judgeShadow]
  split
  · simp only [applyImage]
    split
    · rename_i hsz
      refine key _ ?_ ?_
      · simp [setJournalState_journal, setWarnLevel, applySettings, setLimits, setEngine, setPort, setJournal, setStartup, setEvents,
          setClassifier]
      · rw [setJournalState_journal]
        simp only [setWarnLevel_frame]
        exact (if_pos hsz).symm
    · rename_i hsz
      refine key _ ?_ ?_
      · simp [setWarnLevel, applySettings, setLimits, setEngine, setPort, setJournal, setStartup, setEvents, setClassifier]
      · simp only [setWarnLevel_frame]
        show s.journal.state = _
        rw [l2]
        exact (if_neg hsz).symm
  · refine key _ rfl ?_
    show s.journal.state = if 0 < s.journal.sizePages then _ else _
    rw [l2, l3]; rfl

/-- R131, R133, R135: CONFIGURATION_LOAD. -/
theorem Lawful.endLoading {s : State} (h : s.Lawful) (hl : s.startup.phase = .loading) (im : Image) : (s.endLoading im).Lawful := by
  have h1 : (s.setStartup { s.startup with shadow := readImage im }).Lawful := h.of_startup_congr rfl rfl
  exact ((h1.judgeShadow hl).endWaitIfNormal).settle

/-! ### The supply -/

theorem enterSupply_parts (s : State) (st : SupplyState) : (s.enterSupply st).parts = s.parts ∧ (s.enterSupply st).port = s.port := by
  cases st <;> simp [parts, State.enterSupply, setSupply]

/-- R120: a reissue. -/
theorem Lawful.reissue {s : State} (h : s.Lawful) {op : Operation} (hop : s.port.op = some op) : (s.reissue op).Lawful := by
  cases hn : op.next <;> simp only [State.reissue, hn] <;>
    refine h.congr (by simp [parts, State.issue]) (by simp [inFlight, State.issue, hop])

theorem Lawful.releaseHeld {s : State} (h : s.Lawful) : s.releaseHeld.Lawful := by
  simp only [State.releaseHeld]
  split
  · rename_i op hop
    split
    · exact h.reissue hop
    · exact h
  · exact h

/-- R120, R135, R145: the supply state moves. -/
theorem Lawful.moveSupply {s : State} (h : s.Lawful) (st : SupplyState) : (s.moveSupply st).Lawful := by
  obtain ⟨h1, h2⟩ := enterSupply_parts s st
  have h3 : ((s.enterSupply st).endWaitIfNormal).Lawful :=
    Lawful.endWaitIfNormal (h.congr h1 (by rw [inFlight, h2]))
  simp only [State.moveSupply]
  split
  · exact h3.releaseHeld.settle
  · exact h3.settle

/-! ### The ends of an operation -/

theorem beforeFailure_parts (s : State) (op : Operation) : (s.beforeFailure op).parts = s.parts := by simp [parts]

/-- R117: an operation ends in success. -/
theorem Lawful.succeed {s : State} (h : s.Lawful) {op : Operation} (hop : s.port.op = some op) (data : Line) :
    (s.succeed op data).Lawful := by
  refine Lawful.settle ?_
  cases ho : op.owner <;> simp only [ownerSucceeded, ho]
  · exact (h.freePort hop (by simp [ho]) (by simp [ho])).headSucceeded _ _
  · exact (h.freePort hop (by simp [ho]) (by simp [ho])).initEnded (h.init op hop ho) rfl true
  · exact h.demandSucceeded (u := s.freePort) rfl rfl _ _
  · exact h.prefetchSucceeded (u := s.freePort) rfl rfl hop ho _
  · exact (h.freePort hop (by simp [ho]) (by simp [ho])).scanSucceeded rfl _
  · exact (h.freePort hop (by simp [ho]) (by simp [ho])).rollSucceeded rfl _

/-- R117: an operation ends in failure. -/
theorem Lawful.failOp {s : State} (h : s.Lawful) {op : Operation} (hop : s.port.op = some op) : (s.failOp op).Lawful := by
  rw [failOp_eq]
  refine Lawful.settle ?_
  have hp := beforeFailure_parts s op
  have hn : (s.beforeFailure op).port.op = none := beforeFailure_port_op s op
  have free : op.owner ≠ .demandFill → op.owner ≠ .prefetch → (s.beforeFailure op).Lawful := fun h1 h2 =>
    (h.freePort hop h1 h2).congr hp (by simp only [inFlight, hn]; rfl)
  cases ho : op.owner <;> simp only [ownerFailed, ho]
  · exact (free (by simp [ho]) (by simp [ho])).headFailed
  · refine (free (by simp [ho]) (by simp [ho])).initEnded ?_ hn false
    rw [(beforeFailure_frame s op).2.2.2.2.2.2.2.2.2.1]
    exact h.init op hop ho
  · exact h.demandFailed hp hn
  · exact h.prefetchFailed hp hn hop ho
  · exact (free (by simp [ho]) (by simp [ho])).scanFailed hn
  · exact (free (by simp [ho]) (by simp [ho])).rollFailed hn

theorem Lawful.setMemory {s : State} (h : s.Lawful) (m : List Host.Cell) : (s.setMemory m).Lawful := h.congr rfl rfl

/-- The operation in flight waits, or is sent again: its owner and its line stay. -/
theorem Lawful.held_in_flight {s : State} (h : s.Lawful) {op op' : Operation} (hop : s.port.op = some op)
    (ho : op'.owner = op.owner) (hl : op'.line = op.line) : (s.issue op').Lawful :=
  h.congr rfl (by simp [inFlight, hop, State.issue, ho, hl])

theorem Lawful.failAtLimit {s : State} (h : s.Lawful) {op : Operation} (hop : s.port.op = some op) : (s.failAtLimit op).Lawful :=
  (h.setMemory _).failOp hop

/-- R110, R113, R115, R116: an answer to the operation in flight. -/
theorem Lawful.answered {s : State} (h : s.Lawful) {op : Operation} (hop : s.port.op = some op) (a : MemAnswer) :
    (s.answered op a).Lawful := by
  have again : ∀ (m : List Host.Cell) (n : NextIssue), ((s.setMemory m).backOff op n).Lawful := fun m n =>
    (h.setMemory m).held_in_flight hop rfl rfl
  have waits : ∀ n : NextIssue, (s.backOff op n).Lawful := fun n => h.held_in_flight hop rfl rfl
  cases hp : op.phase <;> cases a <;>
    simp only [State.answered, hp, attemptOk, attemptFailed, attemptError, verifyOk, verifyFailed]
  all_goals first
    | exact h
    | skip
  · split
    · exact h.succeed hop _
    · split
      · exact (h.setMemory _).held_in_flight hop rfl rfl
      · exact (h.setMemory (Memory.writeLine op.line op.mask op.data s.memory)).succeed hop _
  · split
    · exact waits _
    · exact h.failAtLimit hop
  · split
    · exact again _ _
    · exact h.failAtLimit hop
  · split
    · exact h.succeed hop _
    · split
      · exact waits _
      · exact h.failAtLimit hop
  · split
    · exact waits _
    · exact h.failAtLimit hop
  · split
    · exact waits _
    · exact h.failAtLimit hop

/-! ### The upstream port -/

theorem Lawful.answerTo {s : State} (h : s.Lawful) (r : Request) (a : Answer) (d : Line) : (s.answerTo r a d).Lawful :=
  h.congr rfl rfl

theorem Lawful.abortTo {s : State} (h : s.Lawful) (r : Request) (i : Fin 9) (c : RegionCode) : (s.abortTo r i c).Lawful :=
  h.congr (by simp [parts, State.abortTo, State.answerTo]) (by simp [inFlight, State.abortTo, State.answerTo])

theorem Lawful.noRoomTo {s : State} (h : s.Lawful) (r : Request) : (s.noRoomTo r).Lawful :=
  h.congr (by simp [parts, State.noRoomTo, retryTo, State.answerTo]) (by simp [inFlight, State.noRoomTo, retryTo, State.answerTo])

/-- R31: an answer from an entry. -/
theorem Lawful.answerFromEntry {s : State} (h : s.Lawful) (r : Request) {p : Fin 4} {e : DelayedEntry}
    (he : s.engine.table[p] = some e) : (s.answerFromEntry r p e).Lawful := by
  simp only [State.answerFromEntry]
  split
  · exact h.answerTo _ _ _
  · exact h.answerTo _ _ _
  · exact (h.removeEntry he (by assumption)).answerTo _ _ _
  · exact (h.removeEntry he (by assumption)).answerTo _ _ _

theorem matching_table {s : State} {r : Request} {x : Fin 4 × DelayedEntry} (h : s.matching r = some x) :
    s.engine.table[x.1] = some x.2 := by
  have := List.mem_of_find?_eq_some h
  obtain ⟨p, -, hp⟩ := List.mem_filterMap.mp this
  cases he : s.engine.table[p] with
  | none => rw [he] at hp; cases hp
  | some e => rw [he] at hp; cases hp; exact he

theorem freePlace_table {s : State} {p : Fin 4} (h : s.engine.freePlace = some p) : s.engine.table[p] = none := by
  have := List.find?_some h
  simpa using this

/-- R26 step 7: a WRITE that reaches step 7. -/
theorem Lawful.roomWrite {s : State} (h : s.Lawful) {r : Request} {c : Classification} (hk : r.kind = .write)
    (hn : s.startup.portState = .opened) (hg : (c.guarded = false ∧ c.reservation = .none) ∨
      (c.guarded = true ∧ s.journal.state = .active ∧ s.reservationFor r.line = some c.reservation)) :
    (s.roomWrite r c).Lawful := by
  simp only [State.roomWrite]
  split
  · split
    · exact h.noRoomTo r
    · exact h.acceptPosted hn hg
  · simp only [roomDurable]
    split
    · exact h.noRoomTo r
    · split
      · exact h.acceptDurable hk (freePlace_table (by assumption)) hn hg
      · exact h.noRoomTo r
  · exact h.abortTo _ _ _
  · exact h.abortTo _ _ _

/-- R25, R26: a WRITE presentation. -/
theorem Lawful.decideWrite {s : State} (h : s.Lawful) {r : Request} (hk : r.kind = .write) : (s.decideWrite r).Lawful := by
  simp only [State.decideWrite]
  split
  · exact h.answerTo _ _ _
  · exact h.answerTo _ _ _
  · exact h.abortTo _ _ _
  · rename_i hn
    split
    · exact h.answerFromEntry r (matching_table (by assumption))
    · simp only [classifyWrite]
      repeat' split
      all_goals first
        | exact h.abortTo _ _ _
        | exact h.answerTo _ _ _
        | skip
      simp only [guardWrite]
      split
      · rename_i hg
        exact h.roomWrite hk hn (.inl ⟨by simpa using hg, rfl⟩)
      · rename_i hg
        split
        · rename_i hj
          split
          · rename_i k hr
            exact h.roomWrite hk hn (.inr ⟨by simpa using hg, hj, hr⟩)
          · exact h.abortTo _ _ _
        all_goals first
          | exact h.abortTo _ _ _
          | exact h.answerTo _ _ _

/-- R25, R30: a READ presentation. -/
theorem Lawful.decideRead {s : State} (h : s.Lawful) {r : Request} (hk : r.kind = .read) : (s.decideRead r).Lawful := by
  have hm : (s.matchRead r).Lawful := by
    simp only [matchRead]
    split
    · exact h.answerFromEntry r (matching_table (by assumption))
    · simp only [classifyRead]
      split
      · exact h.abortTo _ _ _
      · split
        · exact h.answerTo _ _ _
        · simp only [bufferRead]
          split
          · exact (h.congr (report_parts _ _ _) (by simp [inFlight])).answerTo _ _ _
          · split
            · exact h.createRead hk (freePlace_table (by assumption))
            · exact h.noRoomTo r
  simp only [State.decideRead]
  split <;> first | exact hm | exact h.answerTo _ _ _

/-- R74: a claim timer expires. -/
theorem Lawful.expireClaim {s : State} (h : s.Lawful) {p : Fin 4} {e : DelayedEntry} (he : s.engine.table[p] = some e)
    (ht : e.timer.isSome = true) : (s.expireClaim p e).Lawful := by
  obtain ⟨r, hr⟩ := (h.work.entry.timers p e he).mp ht
  have h1 : ((s.report e.body.cls.region .claimLost).count .claimLost).Lawful :=
    h.congr (by simp [parts]) (by simp [inFlight])
  exact h1.removeEntry (by simpa using he) hr

/-! ### Frames -/

/-- R168, R169, R170: a management command, by what it does. -/
theorem Lawful.manage {s : State} (h : s.Lawful) {c : Instr} {act : State → Reply × State}
    (ha : ∀ t : State, t.Lawful → (act t).2.Lawful) : (Machine.manage c act s).Lawful := by
  simp only [Machine.manage]
  split
  · have he : (s.endRequest (requestOf c)).Lawful := h.congr rfl rfl
    exact (ha _ he).congr rfl rfl
  · exact h

/-- R105: WRITE JOURNAL PLACEMENT. -/
theorem Lawful.writePlacement {s : State} (h : s.Lawful) (base size : Nat) : (s.writePlacement base size).2.Lawful := by
  simp only [State.writePlacement]
  split
  · exact h
  · split
    · exact h
    · rename_i hc
      simp only [not_or, Bool.not_eq_true] at hc
      exact h.placeJournal _ _ hc.1 hc.2.2.1 hc.2.1 hc.2.2.2

/-- R98: CLOSE EPOCH. -/
theorem Lawful.closeEpoch {s : State} (h : s.Lawful) : s.closeEpoch.2.Lawful := by
  simp only [State.closeEpoch]
  split
  · exact h
  · split
    · exact h
    · split
      · exact h
      · rename_i hl hc _
        have hj := fun hn => hc (.inr hn)
        refine h.takeClose (by simpa using hl) (fun hp => hc (.inl hp)) ?_
        by_cases ha : s.journal.state = .active
        · exact .inl ha
        · exact .inr (by by_contra hf; exact hj ⟨ha, hf⟩)

/-- R101: INIT JOURNAL. -/
theorem Lawful.initJournal {s : State} (h : s.Lawful) (epoch : BitVec 32) : (s.initJournal epoch).2.Lawful := by
  simp only [State.initJournal]
  repeat' split
  all_goals first
    | exact h
    | exact h.takeInit epoch (by simpa using ‹¬ s.initStateBad = true›)

/-- R103: ROLLBACK. -/
theorem Lawful.rollback {s : State} (h : s.Lawful) : s.rollback.2.Lawful := by
  simp only [State.rollback]
  split
  · exact h
  · split
    · exact h
    · exact h.takeRollback (by simpa using ‹¬ s.mgmt.longCmd.isSome = true›) (by simpa using ‹¬ s.rollbackStateBad = true›)

/-- R140: OPEN PORT. -/
theorem Lawful.openPort {s : State} (h : s.Lawful) : s.openPort.2.Lawful := by
  simp only [State.openPort]
  split
  · rename_i hc
    refine h.of_startup rfl rfl rfl h.marks h.init ?_
    have np : s.startup.portState ≠ .starting := by rw [hc.1]; simp
    have nr : s.journal.state ≠ .rolling := by rcases hc.2 with h1 | h1 <;> rw [h1] <;> simp
    exact phaseLaw_of_over (h.idle_procedure np nr) (by simp [setStartup]) nr h.work.phase.init
  · split <;> exact h

/-- R169: a frame error. -/
theorem Lawful.frameFault {s : State} (h : s.Lawful) : s.frameFault.Lawful :=
  h.congr (by simp [parts, State.frameFault, flagError, setMgmt]) (by simp [inFlight])

theorem Lawful.respond {s : State} (h : s.Lawful) (q : List Byte) (r : Reply) (f : Bool) : (s.respond q r f).Lawful :=
  h.congr rfl rfl

/-- The frame moves, and what waits outside. -/
theorem Lawful.of_framedAs {s u : State} (h : s.Lawful) (hf : u.framedAs s) : u.Lawful := by
  obtain ⟨h1, h2, -⟩ := hf
  rw [h1]
  exact h.congr (by simp [parts, h2]) rfl

/-- The laws of the order, the queue and the work are those that are kept together. -/
theorem lawful_of_laws {s : State} (h1 : s.orderLaw) (h2 : s.queueLaw) (h3 : s.workLaw) : s.Lawful := by
  obtain ⟨q1, q2, q3, q4, q5⟩ := h2
  refine ⟨h1, q2, ?_, q5, h3⟩
  rw [← q3]
  simp only [List.any_eq_true]
  constructor
  · rintro ⟨m, hm⟩
    exact ⟨_, hm, rfl⟩
  · rintro ⟨x, hx, hi⟩
    cases x with
    | marker m => exact ⟨m, hx⟩
    | write b => cases hi

/-! ### Every command -/

/-- What a command makes of a lawful state is lawful. -/
theorem Lawful.exec {s : State} (h : s.Lawful) {c : Instr} {t : State} (he : Machine.exec c s = .next t) : t.Lawful := by
  cases c <;> simp only [Machine.exec] at he
  case write i a u d => cases he; exact h.decideWrite rfl
  case read i a u => cases he; exact h.decideRead rfl
  case status => cases he; exact h.manage fun t ht => ht
  case readInhibits => cases he; exact h.manage fun t ht => ht.congr (by simp [parts]) (by simp [inFlight])
  case readRegionCodes => cases he; exact h.manage fun t ht => ht.congr rfl rfl
  case readCounters b => cases he; exact h.manage fun t ht => ht.congr (by simp [parts]) (by simp [inFlight])
  case readFailedLines => cases he; exact h.manage fun t ht => ht.congr rfl rfl
  case readEvents => cases he; exact h.manage fun t ht => ht
  case clearEvents b => cases he; exact h.manage fun t ht => ht.congr (by simp [parts]) (by simp [inFlight])
  case writeEventMask m v => cases he; exact h.manage fun t ht => ht.congr (by simp [parts]) (by simp [inFlight])
  case writeRegion i b l a e => cases he; exact h.manage fun t ht => ht.congr (by simp [parts]) (by simp [inFlight])
  case readRegion i => cases he; exact h.manage fun t ht => ht.congr (by simp [parts]) (by simp [inFlight])
  case writeGuardFilter f => cases he; exact h.manage fun t ht => ht.congr rfl rfl
  case readGuardFilter => cases he; exact h.manage fun t ht => ht
  case writeParameters a b c d =>
    cases he; refine h.manage fun t ht => ?_
    simp only [writeParameters]
    split
    · exact ht.congr (by simp [parts, setLimits, setEngine]) (by simp [inFlight, setLimits, setEngine, setPort])
    · exact ht
  case readParameters => cases he; exact h.manage fun t ht => ht
  case writeJournalPlacement b z => cases he; exact h.manage fun t ht => ht.writePlacement _ _
  case closeEpoch => cases he; exact h.manage fun t ht => ht.closeEpoch
  case rollback => cases he; exact h.manage fun t ht => ht.rollback
  case initJournal e => cases he; exact h.manage fun t ht => ht.initJournal e
  case setInhibit => cases he; exact h.manage fun t ht => ht.congr (by simp [parts]) (by simp [inFlight])
  case clearInhibit => cases he; exact h.manage fun t ht => ht.congr rfl rfl
  case resetUpstream => cases he; exact h.manage fun t ht => ht.resetUpstream
  case openPort => cases he; exact h.manage fun t ht => ht.openPort
  case frameError b m =>
    cases he
    split
    · simp only [frameErrorAt]
      repeat' split
      all_goals first | exact h.frameFault | exact h | exact h.frameFault.respond _ _ _
    · exact h
  case powerOnReset => cases he; exact lawful_startReset _ _ _ _
  case pinReset => cases he; exact lawful_startReset _ _ _ _
  case resetEnd => cases he; split; exact h.endReset; exact h
  case configurationLoad im =>
    cases he; split
    · rename_i hc
      simp only [Bool.and_eq_true, beq_iff_eq] at hc
      exact h.endLoading hc.2 im
    · exact h
  case comparatorChange l =>
    cases he; split
    · exact lawful_startReset _ _ _ _
    · exact h.congr (by simp [parts, setSupply]) (by simp [inFlight, setSupply])
  case supplyFilterExpiry f =>
    cases he; split
    · simp only [expireFilter]
      have h1 : (s.setSupply (s.supply.expire f)).Lawful := h.congr rfl rfl
      split
      · exact h1.moveSupply _
      · exact h1
    · exact h
  case wlockPinChange b => cases he; split; exact h; exact h.congr rfl rfl
  case wlockFilterExpiry => cases he; split; exact h.congr (by simp [parts]) (by simp [inFlight]); exact h
  case claimTimerExpiry p =>
    cases he
    split
    · split
      · exact h.expireClaim (by assumption) (by assumption)
      · exact h
    · exact h
  case memoryAnswer a l =>
    cases he; split
    · split; exact h; exact h.answered (by assumption) _
    · exact h
  case attemptTimeout => cases he; split; exact h.answered (by assumption) _; exact h
  case backoffEnd =>
    cases he; split
    · split
      · rename_i op hop hp
        simp only [endBackoff]
        split
        · exact h.held_in_flight hop rfl rfl
        · exact h.reissue hop
      · exact h
    · exact h
  case mcsRisingEdge =>
    cases he; split
    · exact h.frameFault.congr rfl rfl
    · exact h.congr rfl rfl

end Sys2Proof.Machine.State
end

