-- ==== Sys2Proof/Laws/FreshFills.lean ====
section
/-! SUPPORT. What the port carries after a command: what it carried before, a fill whose slot is FILLING and not stale, a fill
that is reissued or waits, or no fill. -/

namespace Sys2Proof.Machine.State

/-- A fill that the port carries has a FILLING slot that is not stale. -/
def fillsFresh (t : State) : Prop :=
  ∀ op, t.port.op = some op → op.owner = .demandFill ∨ op.owner = .prefetch →
    ∃ (i : Fin 8) (o : Option (Fin 4)), t.engine.slots[i] = .filling op.line false o

/-- The port carries what it carried, a fresh fill or no fill, or an operation that is not at its first attempt. -/
def portFollows (s t : State) : Prop :=
  t.port.op = s.port.op ∨ t.fillsFresh ∨
    ∃ op, t.port.op = some op ∧ (op.phase ≠ .awaiting ∨ 2 ≤ op.attempts ∨ op.kind = .lineWrite)

theorem fillsFresh_of_none {t : State} (h : t.port.op = none) : t.fillsFresh := fun op hop => by rw [h] at hop; cases hop

theorem fillsFresh_of_owner {t : State} {op : Operation} (h : t.port.op = some op) (h1 : op.owner ≠ .demandFill)
    (h2 : op.owner ≠ .prefetch) : t.fillsFresh := fun op' hop ho => by
  rw [h] at hop
  cases hop
  exact (ho.elim h1 h2).elim

theorem fillsFresh_congr {s t : State} (h : s.fillsFresh) (hp : t.port.op = s.port.op) (hs : t.engine.slots = s.engine.slots) :
    t.fillsFresh := fun op hop ho => by
  rw [hp] at hop
  rw [hs]
  exact h op hop ho

theorem grantOffer_fillsFresh {s t : State} (h : t.port.op = none) : (t.grantOffer s.writeOffer).fillsFresh := by
  cases ho : s.writeOffer with
  | none => exact fillsFresh_of_none h
  | some op =>
    refine fillsFresh_of_owner (op := op) rfl ?_ ?_ <;> intro hc
    all_goals
      simp only [writeOffer] at ho
      split at ho
      · cases ho; cases hc
      · split at ho
        · have := drainOp_owner ho
          rw [this] at hc; cases hc
        · cases ho

theorem grantPrefetch_fillsFresh {s : State} (h : s.port.op = none) (line : Nat) (rest : List Nat) :
    (s.grantPrefetch line rest).fillsFresh := by
  simp only [grantPrefetch]
  split
  · rename_i i _
    intro op hop _
    cases hop
    exact ⟨i, none, by simp [State.issue, grantedTo, setPort, setSlot, setEngine, readOp]⟩
  · exact fillsFresh_of_none h

theorem grantDemand_fillsFresh {s : State} (h : s.port.op = none) (p : Fin 4) : (s.grantDemand p).fillsFresh := by
  simp only [grantDemand]
  split
  · rename_i e i _ _
    intro op hop _
    cases hop
    exact ⟨i, some p, by simp [State.issue, grantedTo, setPort, setSlot, setEngine, setEntry, readOp]⟩
  · exact fillsFresh_of_none h
  · exact fillsFresh_of_none h

/-- R62, R72, R118: what the arbiter grants. -/
theorem arbitrate_fillsFresh {s : State} (h : s.port.op = none) : s.arbitrate.fillsFresh := by
  simp only [State.arbitrate]
  split
  · exact fillsFresh_of_none h
  · split
    · rename_i op hop
      have := procedureOp_owner hop
      exact fillsFresh_of_owner (op := op) rfl (by rcases this with h | h <;> rw [h] <;> simp)
        (by rcases this with h | h <;> rw [h] <;> simp)
    · split
      · exact grantOffer_fillsFresh h
      · simp only [takeRead]
        split
        · exact grantDemand_fillsFresh h _
        · simp only [takePrefetch]
          split
          · exact grantPrefetch_fillsFresh h _ _
          · exact grantOffer_fillsFresh h

theorem settle_fillsFresh {s : State} (h : s.port.op = none) : s.settle.fillsFresh :=
  arbitrate_fillsFresh (by simpa using h)

/-- What follows at an event leaves the port as it is, or grants. -/
theorem settle_portFollows {s u : State} (h : s.portFollows u) : s.portFollows u.settle := by
  cases hop : u.port.op with
  | none => exact .inr (.inl (settle_fillsFresh hop))
  | some op =>
    have hp := settle_port_of_busy hop
    rcases h with h | h | ⟨op', h1, h2⟩
    · exact .inl (by rw [hp, h])
    · have he : u.settle = State.beginDrains longestOrder u := arbitrate_of_busy (op := op) (by simpa using hop)
      exact .inr (.inl (fillsFresh_congr h (by rw [he]; simp) (by rw [he]; exact (beginDrains_slots _ _).1)))
    · exact .inr (.inr ⟨op', by rw [hp, h1], h2⟩)

theorem portFollows_of_eq {s t : State} (h : t.port.op = s.port.op) : s.portFollows t := .inl h

theorem portFollows_congr {s t u : State} (h : s.portFollows u) (hp : t.port.op = u.port.op)
    (hs : t.engine.slots = u.engine.slots) : s.portFollows t := by
  rcases h with h | h | ⟨op, h1, h2⟩
  · exact .inl (hp.trans h)
  · exact .inr (.inl (fillsFresh_congr h hp hs))
  · exact .inr (.inr ⟨op, hp.trans h1, h2⟩)

/-- R113, R120: a reissue. -/
theorem reissue_portFollows {s u : State} {op : Operation} (h : 1 ≤ op.attempts) : s.portFollows (u.reissue op) := by
  refine .inr (.inr ?_)
  cases hn : op.next <;> simp only [State.reissue, hn]
  · exact ⟨{ op with phase := .awaiting, attempts := op.attempts + 1 }, by simp [State.issue, hn], .inr (.inl (by simpa using h))⟩
  · exact ⟨{ op with phase := .awaiting, attempts := op.attempts + 1 }, by simp [State.issue, hn], .inr (.inl (by simpa using h))⟩
  · exact ⟨{ op with phase := .verifying, attempts := op.attempts + 1 }, by simp [State.issue, hn], .inl (by simp)⟩
  · exact ⟨{ op with phase := .verifying }, by simp [State.issue, hn], .inl (by simp)⟩

theorem waiting_portFollows {s u : State} {op : Operation} (h : u.port.op = some op) (hp : op.phase ≠ .awaiting) :
    s.portFollows u := .inr (.inr ⟨op, h, .inl hp⟩)

theorem succeed_portFollows {s u : State} (op : Operation) (d : Line) : s.portFollows (u.succeed op d) :=
  .inr (.inl (settle_fillsFresh (by simp)))

theorem failOp_portFollows {s u : State} (op : Operation) : s.portFollows (u.failOp op) :=
  .inr (.inl (by rw [failOp_eq]; exact settle_fillsFresh (by simp)))

theorem answered_portFollows (s : State) (op : Operation) (a : MemAnswer) :
    s.portFollows (s.answered op a) := by
  have fails : s.portFollows (s.failAtLimit op) := failOp_portFollows op
  have waits : ∀ (m : List Host.Cell) (n : NextIssue), s.portFollows ((s.setMemory m).backOff op n) := fun m n =>
    waiting_portFollows (op := { op with phase := .backoff, next := n }) rfl (by simp)
  have waits' : ∀ n : NextIssue, s.portFollows (s.backOff op n) := fun n =>
    waiting_portFollows (op := { op with phase := .backoff, next := n }) rfl (by simp)
  cases hp : op.phase <;> cases a <;>
    simp only [State.answered, hp, attemptOk, attemptFailed, attemptError, verifyOk, verifyFailed]
  all_goals repeat' split
  all_goals first
    | exact portFollows_of_eq rfl
    | exact fails
    | exact waits _ _
    | exact waits' _
    | exact succeed_portFollows _ _
    | skip
  exact waiting_portFollows (op := { op with phase := if s.supply.state = .fail then .held else .verifying, next := .firstVerify })
    rfl (by simp only; split <;> simp)

/-- R120, R145: the supply state moves. -/
theorem moveSupply_portFollows {s u : State} (h : u.attemptsLaw) (hu : u.port.op = s.port.op) (st : SupplyState) :
    s.portFollows (u.moveSupply st) := by
  have he : ((u.enterSupply st).endWaitIfNormal).port.op = s.port.op := by simpa using hu
  simp only [State.moveSupply]
  split
  · refine settle_portFollows ?_
    simp only [State.releaseHeld]
    split
    · rename_i op hop
      split
      · refine reissue_portFollows (h.2 op ?_).1
        simpa using hop
      · exact portFollows_of_eq he
    · exact portFollows_of_eq he
  · exact settle_portFollows (portFollows_of_eq he)

theorem answerFromEntry_portFollows (s : State) (r : Request) (p : Fin 4) (e : DelayedEntry) :
    s.portFollows (s.answerFromEntry r p e) := portFollows_of_eq (by simp)

theorem roomWrite_portFollows (s : State) (r : Request) (c : Classification) : s.portFollows (s.roomWrite r c) := by
  simp only [State.roomWrite, roomDurable]
  repeat' split
  all_goals first
    | exact portFollows_of_eq (by simp)
    | (refine portFollows_congr (u := State.settle _) (settle_portFollows (portFollows_of_eq ?_)) rfl rfl
       simp)

/-- R26: a WRITE presentation. -/
theorem decideWrite_portFollows (s : State) (r : Request) : s.portFollows (s.decideWrite r) := by
  simp only [State.decideWrite, classifyWrite, guardWrite]
  repeat' split
  all_goals first
    | exact roomWrite_portFollows _ _ _
    | exact answerFromEntry_portFollows _ _ _ _
    | exact portFollows_of_eq (by simp)

/-- R30: a READ presentation. -/
theorem decideRead_portFollows (s : State) (r : Request) : s.portFollows (s.decideRead r) := by
  simp only [State.decideRead, matchRead, classifyRead, bufferRead]
  repeat' split
  all_goals first
    | exact answerFromEntry_portFollows _ _ _ _
    | exact portFollows_of_eq (by simp)
    | exact portFollows_of_eq (by simp [State.answerTo])
    | (refine portFollows_congr (u := State.settle _) (settle_portFollows (portFollows_of_eq ?_)) rfl rfl
       simp)

theorem manage_portFollows {s : State} {c : Instr} {act : State → Reply × State}
    (h : ∀ t : State, t.port = s.port → s.portFollows (act t).2) : s.portFollows (Machine.manage c act s) := by
  simp only [Machine.manage]
  split
  · exact portFollows_congr (h (s.endRequest (requestOf c)) rfl) rfl rfl
  · exact portFollows_of_eq rfl

/-- R62, R72, R112: what a command makes of the port. -/
theorem exec_portFollows {s t : State} (h : s.attemptsLaw) {c : Instr} (he : Machine.exec c s = .next t) : s.portFollows t := by
  have quiet : ∀ act : State → Reply × State, (∀ t : State, (act t).2.port.op = t.port.op) → ∀ c,
      s.portFollows (Machine.manage c act s) := fun act ha c =>
    manage_portFollows fun t ht => portFollows_of_eq (by rw [ha, ht])
  cases c <;> simp only [Machine.exec] at he
  case write i a u d => cases he; exact decideWrite_portFollows s _
  case read i a u => cases he; exact decideRead_portFollows s _
  case status => cases he; exact quiet _ (fun t => rfl) _
  case readInhibits => cases he; exact quiet _ (fun t => by simp) _
  case readRegionCodes => cases he; exact quiet _ (fun t => rfl) _
  case readCounters b => cases he; exact quiet _ (fun t => by simp) _
  case readFailedLines => cases he; exact quiet _ (fun t => rfl) _
  case readEvents => cases he; exact quiet _ (fun t => rfl) _
  case clearEvents b => cases he; exact quiet _ (fun t => by simp) _
  case writeEventMask m v => cases he; exact quiet _ (fun t => by simp) _
  case writeRegion i b l a e => cases he; exact quiet _ (fun t => by simp) _
  case readRegion i => cases he; exact quiet _ (fun t => by simp) _
  case writeGuardFilter f => cases he; exact quiet _ (fun t => rfl) _
  case readGuardFilter => cases he; exact quiet _ (fun t => rfl) _
  case writeParameters a b c d =>
    cases he
    refine quiet _ (fun t => ?_) _
    simp only [writeParameters]
    split
    · simp [setLimits, setPort]
    · rfl
  case readParameters => cases he; exact quiet _ (fun t => rfl) _
  case writeJournalPlacement b z => cases he; exact quiet _ (fun t => by simp) _
  case closeEpoch =>
    cases he
    refine manage_portFollows fun t ht => ?_
    simp only [State.closeEpoch]
    repeat' split
    all_goals first
      | exact portFollows_of_eq (by rw [ht])
      | exact settle_portFollows (portFollows_of_eq (by simp [takeLong, ht]))
  case rollback =>
    cases he
    refine manage_portFollows fun t ht => ?_
    simp only [State.rollback]
    repeat' split
    all_goals first
      | exact portFollows_of_eq (by rw [ht])
      | exact settle_portFollows (portFollows_of_eq (by simp [takeLong, ht, setStartup]))
  case initJournal e =>
    cases he
    refine manage_portFollows fun t ht => ?_
    simp only [State.initJournal]
    repeat' split
    all_goals first
      | exact portFollows_of_eq (by rw [ht])
      | exact settle_portFollows (portFollows_of_eq (by simp [takeLong, ht, setJournal]))
  case setInhibit => cases he; exact quiet _ (fun t => by simp) _
  case clearInhibit => cases he; exact quiet _ (fun t => rfl) _
  case resetUpstream =>
    cases he
    exact manage_portFollows fun t ht => settle_portFollows (portFollows_of_eq (by simp [ht]))
  case openPort => cases he; exact quiet _ (fun t => by simp) _
  case frameError b m => cases he; split <;> exact portFollows_of_eq (by simp)
  case powerOnReset => cases he; exact .inr (.inl (fillsFresh_of_none rfl))
  case pinReset => cases he; exact .inr (.inl (fillsFresh_of_none rfl))
  case resetEnd => cases he; split <;> exact portFollows_of_eq rfl
  case configurationLoad im =>
    cases he; split
    · refine settle_portFollows (portFollows_of_eq ?_)
      simp only [State.judgeShadow, applyImage]
      repeat' split
      all_goals simp [applySettings, setLimits, setPort]
    · exact portFollows_of_eq rfl
  case comparatorChange l =>
    cases he; split
    · exact .inr (.inl (fillsFresh_of_none rfl))
    · exact portFollows_of_eq (by simp [setSupply])
  case supplyFilterExpiry f =>
    cases he; split
    · simp only [expireFilter]
      split
      · exact moveSupply_portFollows (u := s.setSupply (s.supply.expire f)) h rfl _
      · exact portFollows_of_eq rfl
    · exact portFollows_of_eq rfl
  case wlockPinChange b => cases he; split <;> exact portFollows_of_eq rfl
  case wlockFilterExpiry => cases he; split <;> exact portFollows_of_eq (by simp)
  case claimTimerExpiry p =>
    cases he; split
    · split
      · exact portFollows_of_eq (by simp)
      · exact portFollows_of_eq rfl
    · exact portFollows_of_eq rfl
  case memoryAnswer a l =>
    cases he; split
    · split
      · exact portFollows_of_eq rfl
      · exact answered_portFollows _ _ _
    · exact portFollows_of_eq rfl
  case attemptTimeout =>
    cases he; split
    · exact answered_portFollows _ _ _
    · exact portFollows_of_eq rfl
  case backoffEnd =>
    cases he; split
    · rename_i op hop
      split
      · simp only [endBackoff]
        split
        · exact waiting_portFollows (op := { op with phase := .held }) rfl (by simp)
        · exact reissue_portFollows (h.2 op hop).1
      · exact portFollows_of_eq rfl
    · exact portFollows_of_eq rfl
  case mcsRisingEdge =>
    cases he; split
    · exact portFollows_of_eq (by simp)
    · exact portFollows_of_eq rfl

/-- R58, R65, R67: a fresh fill is of no line with a write in the write order. -/
theorem Lawful.clear_of_fillsFresh {t : State} (h : t.Lawful) (hf : t.fillsFresh) {op : Operation} (hop : t.port.op = some op)
    (ho : op.owner = .demandFill ∨ op.owner = .prefetch) : t.lineClear op.line := by
  obtain ⟨i, o, hs⟩ := hf op hop ho
  exact h.clear_of_filling hs

end Sys2Proof.Machine.State
end

