-- ==== Sys2Proof/Laws/LatchCover.lean ====
section
/-! SUPPORT. The inhibit latches cover their states (R152): what every operation can do to the supply unit and the journal
state keeps that. -/

namespace Sys2Proof.Machine

/-- R152: the latches of a unit cover the states it has with a journal state. -/
def Covers (u : SupplyUnit) (st : JournalState) : Prop :=
  (u.wlock = true → u.latches.wlock = true) ∧ (u.software = true → u.latches.software = true) ∧
    (u.state = .warn → u.latches.warn = true) ∧ (u.state = .fail → u.latches.fail = true) ∧
    (st.inhibits = true → u.latches.journal = true)

theorem latchesCover_iff (s : State) : s.latchesCover ↔ Covers s.supply s.journal.state := by
  constructor
  · intro h
    exact ⟨fun x => h .wlock x, fun x => h .software x, fun x => h .warn (by simp [State.inhibitHolds, x]),
      fun x => h .fail (by simp [State.inhibitHolds, x]), fun x => h .journal x⟩
  · rintro ⟨a, b, c, d, e⟩ k hk
    cases k
    · exact a hk
    · exact b hk
    · exact c (by simpa [State.inhibitHolds] using hk)
    · exact d (by simpa [State.inhibitHolds] using hk)
    · exact e hk
    · simp [State.inhibitHolds] at hk

namespace State

@[simp] theorem setLatch_latches (s : State) (k : InhibitSource) (h : Covers s.supply s.journal.state) :
    Covers (s.setLatch k).supply s.journal.state := by
  simp only [setLatch]
  split
  · exact h
  · simp only [raise_frame, setLatches_supply, setLatches_journal]
    cases k <;> simp_all [Covers, Latches.set]

@[simp] theorem setJournalState_latches (s : State) (x : JournalState) (h : Covers s.supply s.journal.state) :
    Covers (s.setJournalState x).supply (s.setJournalState x).journal.state := by
  simp only [setJournalState]
  split
  · exact h
  · split
    · next hi =>
      simp only [setLatch_frame, raise_frame, setJournal_journal]
      simp only [setLatch]
      split
      · next hl => simp_all [Covers, Latches.get]
      · simp_all [Covers, Latches.set]
    · next hi => simp_all [Covers]

@[simp] theorem takeReservation_latches (s : State) (k : ReservationKind) (l : Nat) (h : Covers s.supply s.journal.state) :
    Covers s.supply (s.takeReservation k l).journal.state := by
  simp only [takeReservation]
  repeat' split
  all_goals simp (maxDischargeDepth := 20) [h]

@[simp] theorem completeRecord_latches (s : State) (i : DrainItem) (b : Body) (h : Covers s.supply s.journal.state) :
    Covers s.supply (s.completeRecord i b).journal.state := by
  simp only [completeRecord]
  repeat' split
  all_goals simp (maxDischargeDepth := 20) [h]

@[simp] theorem closeSucceeded_latches (s : State) (h : Covers s.supply s.journal.state) :
    Covers (s.closeSucceeded).supply (s.closeSucceeded).journal.state := by
  simp only [closeSucceeded]
  repeat' split
  all_goals simp (maxDischargeDepth := 20) [h]

@[simp] theorem closeFailed_latches (s : State) (h : Covers s.supply s.journal.state) :
    Covers (s.closeFailed).supply (s.closeFailed).journal.state := by
  simp only [closeFailed]
  repeat' split
  all_goals simp (maxDischargeDepth := 20) [h]

@[simp] theorem removedSucceeded_latches (s : State) (d : Drain) (b : Body) (h : Covers s.supply s.journal.state) :
    Covers s.supply (s.removedSucceeded d b).journal.state := by
  simp only [removedSucceeded]
  repeat' split
  all_goals simp (maxDischargeDepth := 20) [h]

@[simp] theorem removedFailed_latches (s : State) (d : Drain) (h : Covers s.supply s.journal.state) :
    Covers (s.removedFailed d).supply (s.removedFailed d).journal.state := by
  simp only [removedFailed]
  repeat' split
  all_goals simp (maxDischargeDepth := 20) [h]

@[simp] theorem stageSucceeded_latches (s : State) (d : Drain) (b : Body) (x : Line) (f : Bool) (h : Covers s.supply s.journal.state) :
    Covers s.supply (s.stageSucceeded d b x f).journal.state := by
  simp only [stageSucceeded]
  repeat' split
  all_goals simp (maxDischargeDepth := 20) [h]

@[simp] theorem stageFailed_latches (s : State) (d : Drain) (h : Covers s.supply s.journal.state) :
    Covers (s.stageFailed d).supply (s.stageFailed d).journal.state := by
  simp only [stageFailed]
  repeat' split
  all_goals simp (maxDischargeDepth := 20) [h]

@[simp] theorem headSucceeded_latches (s : State) (x : Line) (f : Bool) (h : Covers s.supply s.journal.state) :
    Covers (s.headSucceeded x f).supply (s.headSucceeded x f).journal.state := by
  simp only [headSucceeded]
  repeat' split
  all_goals simp (maxDischargeDepth := 20) [h]

@[simp] theorem headFailed_latches (s : State) (h : Covers s.supply s.journal.state) :
    Covers (s.headFailed).supply (s.headFailed).journal.state := by
  simp only [headFailed]
  repeat' split
  all_goals simp (maxDischargeDepth := 20) [h]

@[simp] theorem initEnded_latches (s : State) (ok : Bool) (h : Covers s.supply s.journal.state) :
    Covers (s.initEnded ok).supply (s.initEnded ok).journal.state := by
  simp only [initEnded]
  repeat' split
  all_goals simp (maxDischargeDepth := 20) [h]

@[simp] theorem rollHeaderSucceeded_latches (s : State) (h : Covers s.supply s.journal.state) :
    Covers (s.rollHeaderSucceeded).supply (s.rollHeaderSucceeded).journal.state := by
  simp only [rollHeaderSucceeded]
  repeat' split
  all_goals simp (maxDischargeDepth := 20) [h]

@[simp] theorem rollSucceeded_latches (s : State) (d : Line) (h : Covers s.supply s.journal.state) :
    Covers (s.rollSucceeded d).supply (s.rollSucceeded d).journal.state := by
  simp only [rollSucceeded]
  repeat' split
  all_goals simp (maxDischargeDepth := 20) [h]

@[simp] theorem rollFailed_latches (s : State) (h : Covers s.supply s.journal.state) :
    Covers (s.rollFailed).supply (s.rollFailed).journal.state := by
  simp only [rollFailed]
  repeat' split
  all_goals simp (maxDischargeDepth := 20) [h]

@[simp] theorem scanEnds_latches (s : State) (n : Nat) (h : Covers s.supply s.journal.state) :
    Covers (s.scanEnds n).supply (s.scanEnds n).journal.state := by
  simp only [scanEnds]
  repeat' split
  all_goals simp (maxDischargeDepth := 20) [h]

@[simp] theorem scanTo_latches (s : State) (k : Nat) (h : Covers s.supply s.journal.state) :
    Covers (s.scanTo k).supply (s.scanTo k).journal.state := by
  simp only [scanTo]
  repeat' split
  all_goals simp (maxDischargeDepth := 20) [h]

@[simp] theorem scanSucceeded_latches (s : State) (d : Line) (h : Covers s.supply s.journal.state) :
    Covers (s.scanSucceeded d).supply (s.scanSucceeded d).journal.state := by
  simp only [scanSucceeded]
  repeat' split
  all_goals simp (maxDischargeDepth := 20) [h]

@[simp] theorem scanBroken_latches (s : State) (k : Nat) (h : Covers s.supply s.journal.state) :
    Covers (s.scanBroken k).supply (s.scanBroken k).journal.state := by
  simp only [scanBroken]
  repeat' split
  all_goals simp (maxDischargeDepth := 20) [h]

@[simp] theorem scanFailed_latches (s : State) (h : Covers s.supply s.journal.state) :
    Covers (s.scanFailed).supply (s.scanFailed).journal.state := by
  simp only [scanFailed]
  repeat' split
  all_goals simp (maxDischargeDepth := 20) [h]

@[simp] theorem ownerSucceeded_latches (s : State) (op : Operation) (d : Line) (h : Covers s.supply s.journal.state) :
    Covers (s.ownerSucceeded op d).supply (s.ownerSucceeded op d).journal.state := by
  cases h' : op.owner <;> simp [ownerSucceeded, h', h]

@[simp] theorem ownerFailed_latches (s : State) (op : Operation) (h : Covers s.supply s.journal.state) :
    Covers (s.ownerFailed op).supply (s.ownerFailed op).journal.state := by
  cases h' : op.owner <;> simp [ownerFailed, h', h]

@[simp] theorem succeed_latches (s : State) (op : Operation) (d : Line) (h : Covers s.supply s.journal.state) :
    Covers (s.succeed op d).supply (s.succeed op d).journal.state := by
  simp only [succeed]
  repeat' split
  all_goals simp (maxDischargeDepth := 20) [h]

@[simp] theorem failOp_latches (s : State) (op : Operation) (h : Covers s.supply s.journal.state) :
    Covers (s.failOp op).supply (s.failOp op).journal.state := by
  simp only [failOp]
  repeat' split
  all_goals simp (maxDischargeDepth := 20) [h]

@[simp] theorem failAtLimit_latches (s : State) (op : Operation) (h : Covers s.supply s.journal.state) :
    Covers (s.failAtLimit op).supply (s.failAtLimit op).journal.state := by
  simp (maxDischargeDepth := 20) [failAtLimit, h]

@[simp] theorem attemptFailed_latches (s : State) (op : Operation) (h : Covers s.supply s.journal.state) :
    Covers (s.attemptFailed op).supply (s.attemptFailed op).journal.state := by
  simp only [attemptFailed]
  repeat' split
  all_goals simp (maxDischargeDepth := 20) [h]

@[simp] theorem attemptError_latches (s : State) (op : Operation) (h : Covers s.supply s.journal.state) :
    Covers (s.attemptError op).supply (s.attemptError op).journal.state := by
  simp only [attemptError]
  repeat' split
  all_goals simp (maxDischargeDepth := 20) [h]

@[simp] theorem attemptOk_latches (s : State) (op : Operation) (d : Line) (h : Covers s.supply s.journal.state) :
    Covers (s.attemptOk op d).supply (s.attemptOk op d).journal.state := by
  simp only [attemptOk]
  repeat' split
  all_goals simp (maxDischargeDepth := 20) [h]

@[simp] theorem verifyFailed_latches (s : State) (op : Operation) (h : Covers s.supply s.journal.state) :
    Covers (s.verifyFailed op).supply (s.verifyFailed op).journal.state := by
  simp only [verifyFailed]
  repeat' split
  all_goals simp (maxDischargeDepth := 20) [h]

@[simp] theorem verifyOk_latches (s : State) (op : Operation) (d : Line) (h : Covers s.supply s.journal.state) :
    Covers (s.verifyOk op d).supply (s.verifyOk op d).journal.state := by
  simp only [verifyOk]
  repeat' split
  all_goals simp (maxDischargeDepth := 20) [h]

@[simp] theorem answered_latches (s : State) (op : Operation) (a : MemAnswer) (h : Covers s.supply s.journal.state) :
    Covers (s.answered op a).supply (s.answered op a).journal.state := by
  simp only [answered]
  repeat' split
  all_goals simp (maxDischargeDepth := 20) [h]

@[simp] theorem glitchIf_latches (s : State) (b : Bool) (h : Covers s.supply s.journal.state) :
    Covers (s.glitchIf b).supply s.journal.state := by
  simp only [glitchIf]
  repeat' split
  all_goals simp (maxDischargeDepth := 20) [h]

@[simp] theorem setBelowWarn_latches (s : State) (b : Bool) (h : Covers s.supply s.journal.state) :
    Covers (s.setBelowWarn b).supply s.journal.state := by
  simp only [setBelowWarn, glitchIf]
  repeat' split
  all_goals simp_all [Covers, setLatch, Latches.set, Latches.get]
  all_goals split <;> simp_all [Covers, setLatch, Latches.set, Latches.get]

@[simp] theorem setBelowFail_latches (s : State) (b : Bool) (h : Covers s.supply s.journal.state) :
    Covers (s.setBelowFail b).supply s.journal.state := by
  simp only [setBelowFail, glitchIf]
  repeat' split
  all_goals first | exact h | exact setLatch_latches _ _ (by simpa [Covers] using h) | simpa [Covers] using h

@[simp] theorem recompare_latches (s : State) (h : Covers s.supply s.journal.state) :
    Covers (s.recompare).supply s.journal.state := by
  have hw := setBelowWarn_latches s (belowVwarn s.supply.level s.supply.warnLevel) h
  have hf := setBelowFail_latches s false h
  simp only [recompare]
  split
  · have := setBelowFail_latches (s.setBelowWarn (belowVwarn s.supply.level s.supply.warnLevel)) true (by simpa using hw)
    simpa using this
  · have := setBelowWarn_latches (s.setBelowFail false) (belowVwarn s.supply.level s.supply.warnLevel) (by simpa using hf)
    simpa using this

@[simp] theorem enterSupply_latches (s : State) (x : SupplyState) (h : Covers s.supply s.journal.state) :
    Covers (s.enterSupply x).supply s.journal.state := by
  simp only [enterSupply]
  cases x <;> simp only [setLatch] <;> repeat' split
  all_goals simp_all [Covers, Latches.get, Latches.set]

@[simp] theorem moveSupply_latches (s : State) (x : SupplyState) (h : Covers s.supply s.journal.state) :
    Covers (s.moveSupply x).supply s.journal.state := by
  simp only [moveSupply]
  repeat' split
  all_goals simp (maxDischargeDepth := 20) [h]

@[simp] theorem clearLatches_latches (s : State) (h : Covers s.supply s.journal.state) :
    Covers (s.clearLatches).supply s.journal.state := by
  simp_all [clearLatches, Covers, inhibitHolds]

@[simp] theorem setWarnLevel_latches (s : State) (w : Byte) (h : Covers s.supply s.journal.state) :
    Covers (s.setWarnLevel w).supply s.journal.state := by
  have := recompare_latches (s.setSupply { s.supply with warnLevel := w.setWidth 2 }) (by simpa [Covers] using h)
  simpa [setWarnLevel] using this

@[simp] theorem placeJournal_latches (s : State) (b z : Nat) (h : Covers s.supply s.journal.state) :
    Covers (s.placeJournal b z).supply (s.placeJournal b z).journal.state := by
  simp only [placeJournal]
  repeat' split
  all_goals simp (maxDischargeDepth := 20) [h]

@[simp] theorem setSoftware_latches (s : State) (h : Covers s.supply s.journal.state) :
    Covers (s.setSoftware).supply s.journal.state := by
  simp only [setSoftware, setLatch]
  repeat' split
  all_goals simp_all [Covers, Latches.get, Latches.set]

@[simp] theorem takeClose_latches (s : State) (h : Covers s.supply s.journal.state) :
    Covers (s.takeClose).supply (s.takeClose).journal.state := by
  simp only [takeClose]
  repeat' split
  all_goals simp (maxDischargeDepth := 20) [h]

@[simp] theorem takeInit_latches (s : State) (e : BitVec 32) (h : Covers s.supply s.journal.state) :
    Covers (s.takeInit e).supply (s.takeInit e).journal.state := by
  simp only [takeInit]
  repeat' split
  all_goals simp (maxDischargeDepth := 20) [h]

@[simp] theorem takeRollback_latches (s : State) (h : Covers s.supply s.journal.state) :
    Covers (s.takeRollback).supply (s.takeRollback).journal.state := by
  simp only [takeRollback]
  repeat' split
  all_goals simp (maxDischargeDepth := 20) [h]

@[simp] theorem acceptPosted_latches (s : State) (r : Request) (c : Classification) (h : Covers s.supply s.journal.state) :
    Covers s.supply (s.acceptPosted r c).journal.state := by
  simp only [acceptPosted]
  repeat' split
  all_goals simp (maxDischargeDepth := 20) [h]

@[simp] theorem acceptDurable_latches (s : State) (r : Request) (c : Classification) (p : Fin 4) (h : Covers s.supply s.journal.state) :
    Covers s.supply (s.acceptDurable r c p).journal.state := by
  simp only [acceptDurable]
  repeat' split
  all_goals simp (maxDischargeDepth := 20) [h]

@[simp] theorem roomDurable_latches (s : State) (r : Request) (c : Classification) (h : Covers s.supply s.journal.state) :
    Covers s.supply (s.roomDurable r c).journal.state := by
  simp only [roomDurable]
  repeat' split
  all_goals simp (maxDischargeDepth := 20) [h]

@[simp] theorem roomWrite_latches (s : State) (r : Request) (c : Classification) (h : Covers s.supply s.journal.state) :
    Covers s.supply (s.roomWrite r c).journal.state := by
  simp only [roomWrite]
  repeat' split
  all_goals simp (maxDischargeDepth := 20) [h]

@[simp] theorem guardWrite_latches (s : State) (r : Request) (h : Covers s.supply s.journal.state) :
    Covers s.supply (s.guardWrite r).journal.state := by
  simp only [guardWrite]
  repeat' split
  all_goals simp (maxDischargeDepth := 20) [h]

@[simp] theorem classifyWrite_latches (s : State) (r : Request) (h : Covers s.supply s.journal.state) :
    Covers s.supply (s.classifyWrite r).journal.state := by
  simp only [classifyWrite]
  repeat' split
  all_goals simp (maxDischargeDepth := 20) [h]

@[simp] theorem decideWrite_latches (s : State) (r : Request) (h : Covers s.supply s.journal.state) :
    Covers s.supply (s.decideWrite r).journal.state := by
  simp only [decideWrite]
  repeat' split
  all_goals simp (maxDischargeDepth := 20) [h]

@[simp] theorem applySettings_latches (s : State) (im : List Byte) (h : Covers s.supply s.journal.state) :
    Covers s.supply (s.applySettings im).journal.state := by
  simp only [applySettings]
  repeat' split
  all_goals simp (maxDischargeDepth := 20) [h]

@[simp] theorem applyImage_latches (s : State) (im : List Byte) (h : Covers s.supply s.journal.state) :
    Covers (s.applyImage im).supply (s.applyImage im).journal.state := by
  simp only [applyImage]
  repeat' split
  all_goals simp (maxDischargeDepth := 20) [h]

@[simp] theorem judgeShadow_latches (s : State) (h : Covers s.supply s.journal.state) :
    Covers (s.judgeShadow).supply (s.judgeShadow).journal.state := by
  simp only [judgeShadow]
  repeat' split
  all_goals simp (maxDischargeDepth := 20) [h]

@[simp] theorem endLoading_latches (s : State) (im : Image) (h : Covers s.supply s.journal.state) :
    Covers (s.endLoading im).supply (s.endLoading im).journal.state := by
  simp only [endLoading]
  repeat' split
  all_goals simp (maxDischargeDepth := 20) [h]

@[simp] theorem expireFilter_latches (s : State) (f : SupplyFilter) (h : Covers s.supply s.journal.state) :
    Covers (s.expireFilter f).supply s.journal.state := by
  have hx : Covers (s.supply.expire f) s.journal.state := by
    cases f <;> simpa [Covers, SupplyUnit.expire] using h
  simp only [expireFilter]
  split
  · have := moveSupply_latches (s.setSupply (s.supply.expire f)) ‹_› (by simpa using hx)
    simpa using this
  · simpa using hx

@[simp] theorem followWlock_latches (s : State) (h : Covers s.supply s.journal.state) :
    Covers (s.followWlock).supply s.journal.state := by
  simp only [followWlock, setLatch]
  repeat' split
  all_goals simp_all [Covers, Latches.get, Latches.set]

@[simp] theorem startReset_latches (s : State) (c : ResetCause) (l : SupplyLevel) (n : Bool) (h : Covers s.supply s.journal.state) :
    Covers (s.startReset c l n).supply (s.startReset c l n).journal.state := by simp [startReset, Covers, SupplyUnit.atReset, Latches.reset, Journal.reset, JournalState.inhibits]

@[simp] theorem endReset_latches (s : State) (h : Covers s.supply s.journal.state) :
    Covers (s.endReset).supply s.journal.state := by simpa [endReset, Covers] using h

@[simp] theorem writeParameters_latches (s : State) (c l d w : Byte) (h : Covers s.supply s.journal.state) :
    Covers (s.writeParameters c l d w).2.supply s.journal.state := by
  simp only [writeParameters]
  split
  · have := setWarnLevel_latches (s.setLimits c l d) w (by simpa using h)
    simpa using this
  · exact h

@[simp] theorem writePlacement_latches (s : State) (b z : Nat) (h : Covers s.supply s.journal.state) :
    Covers (s.writePlacement b z).2.supply (s.writePlacement b z).2.journal.state := by
  simp only [writePlacement]
  repeat' split
  all_goals simp (maxDischargeDepth := 20) [h]

@[simp] theorem closeEpoch_latches (s : State) (h : Covers s.supply s.journal.state) :
    Covers (s.closeEpoch).2.supply (s.closeEpoch).2.journal.state := by
  simp only [closeEpoch]
  repeat' split
  all_goals simp (maxDischargeDepth := 20) [h]

@[simp] theorem initJournal_latches (s : State) (e : BitVec 32) (h : Covers s.supply s.journal.state) :
    Covers (s.initJournal e).2.supply (s.initJournal e).2.journal.state := by
  simp only [initJournal]
  repeat' split
  all_goals simp (maxDischargeDepth := 20) [h]

@[simp] theorem rollback_latches (s : State) (h : Covers s.supply s.journal.state) :
    Covers (s.rollback).2.supply (s.rollback).2.journal.state := by
  simp only [rollback]
  repeat' split
  all_goals simp (maxDischargeDepth := 20) [h]

end State

end Sys2Proof.Machine
end

