-- ==== Sys2Proof/Laws/Management.lean ====
section
/-! SUPPORT. What a management command answers: its frame when one is taken, nothing when none is; and the bits of a byte of
flags. -/

namespace Sys2Proof.Machine

/-- A command whose action on the state at the end of its request is known leaves the frame of that action. -/
theorem manage_of_action {c : Instr} {act : State → Reply × State} {s u : State} {r : ResultCode} {reply : List Byte}
    (h : s.takesFrame = true) (hact : act (s.endRequest (requestOf c)) = (⟨r, reply⟩, u))
    (hu : u.mgmt.lastError = false) :
    (Host.Outcome.next (manage c act s) : Result) = .next (frameDone c r reply s u) := by
  simp only [manage, h, if_true, hact, State.respond, State.setMgmt, frameDone, responseBytes]
  rw [← hu]

/-- The same, where the action's state is `t` at the end of the request. -/
theorem manage_of_flagged {c : Instr} {act : State → Reply × State} {s t : State} {r : ResultCode} {reply : List Byte}
    (h : s.takesFrame = true)
    (hact : act (s.endRequest (requestOf c)) = (⟨r, reply⟩, t.endRequest (requestOf c))) :
    (Host.Outcome.next (manage c act s) : Result) = .next (frameDone c r reply s t) := by
  simp only [manage, h, if_true, hact]; rfl

/-- R126, R166: while no frame is taken nothing happens. -/
theorem manage_of_not_takesFrame {c : Instr} {act : State → Reply × State} {s : State} (h : s.takesFrame = false) :
    manage c act s = s := by simp [manage, h]

theorem takesFrame_eq_false {s : State} (h : s.startup.inReset = true ∨ s.mgmt.frame ≠ .idle) : s.takesFrame = false := by
  rcases h with h | h <;> simp [State.takesFrame, h]

/-- The eight bits of a byte of flags. -/
theorem flagByte_bits : ∀ b0 b1 b2 b3 b4 b5 b6 b7 : Bool,
    let b := flagByte b0 b1 b2 b3 b4 b5 b6 b7
    b.getLsbD 0 = b0 ∧ b.getLsbD 1 = b1 ∧ b.getLsbD 2 = b2 ∧ b.getLsbD 3 = b3 ∧ b.getLsbD 4 = b4 ∧ b.getLsbD 5 = b5 ∧
      b.getLsbD 6 = b6 ∧ b.getLsbD 7 = b7 := by decide

/-- A latch that was set is set. -/
theorem setLatch_get (s : State) (k : InhibitSource) : (s.setLatch k).supply.latches.get k = true := by
  simp only [State.setLatch]
  split
  · assumption
  · cases k <;> simp [State.setLatches, Latches.set, Latches.get]

/-- A move of the journal into a state that inhibits sets the JOURNAL latch. -/
theorem setJournalState_latch {s : State} {x : JournalState} (h : s.journal.state ≠ x) (hi : x.inhibits = true) :
    (s.setJournalState x).supply.latches.journal = true := by
  simp only [State.setJournalState, if_neg h, hi, if_true]
  exact setLatch_get _ .journal

end Sys2Proof.Machine
end

