-- ==== Sys2Proof/Laws/Resumed.lean ====
section
/-! SUPPORT. What a free port is granted: what the scan or the rollback has come to, what the write class offers, or the demand
fill of the oldest reader. -/

namespace Sys2Proof.Machine.State

/-! ### Beginnings take writes alone -/

/-- R44, R60: an entry after a beginning is the entry it was, but for the state of a write. -/
theorem beginItem_entry {s : State} {item : DrainItem} (hi : s.headItem = some item) {q : Fin 4} {f : DelayedEntry}
    (h : (s.beginItem item).engine.table[q] = some f) : ∃ e, s.engine.table[q] = some e ∧ f.body = e.body ∧ f.kind = e.kind ∧
      (f.isPendingWrite = true → e.isPendingWrite = true) ∧ (f.kind = .read → f = e) := by
  have self : s.engine.table[q] = some f → ∃ e, s.engine.table[q] = some e ∧ f.body = e.body ∧ f.kind = e.kind ∧
      (f.isPendingWrite = true → e.isPendingWrite = true) ∧ (f.kind = .read → f = e) := fun h => ⟨f, h, rfl, rfl, id, fun _ => rfl⟩
  have put : ∀ (p : Fin 4) (e e' : DelayedEntry), s.engine.table[p] = some e → item = .delayedWrite p → e'.body = e.body →
      e'.kind = e.kind → (s.engine.table.set p (some e'))[q] = some f → ∃ e, s.engine.table[q] = some e ∧ f.body = e.body ∧
        f.kind = e.kind ∧ (f.isPendingWrite = true → e.isPendingWrite = true) ∧ (f.kind = .read → f = e) := by
    intro p e e' he hp hb hk hf
    rw [get_set] at hf
    split at hf
    · rename_i hpq
      subst hpq
      cases hf
      obtain ⟨e0, h1, h2⟩ := headItem_delayedWrite (hp ▸ hi)
      rw [he] at h1
      cases h1
      refine ⟨e, he, hb, hk, fun _ => h2, fun hr => ?_⟩
      rw [isPendingWrite_iff] at h2
      rw [hk, h2.1] at hr; cases hr
    · exact self hf
  cases item with
  | postedWrite =>
    obtain ⟨b, rest, hq⟩ := headItem_posted hi
    have hb : s.itemBody .postedWrite = some b := by simp [itemBody, hq, QueueEntry.body]
    refine self ?_
    rw [← h]
    simp only [State.beginItem, hb]
    split
    · simp [State.leave, hb, popQueue, setDrain]
    · rfl
  | closeMarker => exact self h
  | removed b => exact absurd hi (headItem_ne_removed s b)
  | delayedWrite p =>
    obtain ⟨e0, h1, -⟩ := headItem_delayedWrite hi
    have hb : s.itemBody (.delayedWrite p) = some e0.body := by simp only [itemBody, h1, Option.map_some]
    simp only [State.beginItem, hb] at h
    split at h
    · refine put p e0 { e0 with state := .complete .fail, slot := none, timer := some s.engine.claimTime } h1 rfl rfl rfl ?_
      rw [← h]
      simp [State.leave, h1, completeEntry, setEntry]
    · refine put p e0 { e0 with state := .issued } h1 rfl rfl rfl ?_
      rw [← h]
      simp [issueEntry, h1, setEntry, setDrain]

theorem beginDrains_entry (n : Nat) {s : State} {q : Fin 4} {f : DelayedEntry}
    (h : (State.beginDrains n s).engine.table[q] = some f) : ∃ e, s.engine.table[q] = some e ∧ f.body = e.body ∧
      f.kind = e.kind ∧ (f.isPendingWrite = true → e.isPendingWrite = true) ∧ (f.kind = .read → f = e) := by
  induction n generalizing s with
  | zero => exact ⟨f, h, rfl, rfl, id, fun _ => rfl⟩
  | succ n ih =>
    cases hm : s.mayBegin with
    | false => rw [beginDrains_of_not_mayBegin _ _ hm] at h; exact ⟨f, h, rfl, rfl, id, fun _ => rfl⟩
    | true =>
      cases hi : s.headItem with
      | none => rw [beginDrains_of_no_head _ _ hi] at h; exact ⟨f, h, rfl, rfl, id, fun _ => rfl⟩
      | some item =>
        simp only [State.beginDrains, hm, hi, if_true] at h
        obtain ⟨g, h1, h2, h3, h4, h5⟩ := ih h
        obtain ⟨e, e1, e2, e3, e4, e5⟩ := beginItem_entry hi h1
        exact ⟨e, e1, h2.trans e2, h3.trans e3, e4 ∘ h4, fun hr => by rw [h5 hr, e5 (h3 ▸ hr)]⟩

/-- R38, R44: no write comes to stand at a beginning. -/
theorem beginDrains_writes {n : Nat} {s : State} {b : Body} (h : (State.beginDrains n s).writeStands b) : s.writeStands b := by
  cases hd : s.drain with
  | some d => rwa [beginDrains_of_not_mayBegin _ _ (mayBegin_eq_false_of_drain hd)] at h
  | none =>
    rcases h with h | ⟨p, f, h, rfl⟩ | ⟨d, h, hi⟩
    · exact .inl ((beginDrains_queue_suffix n s).subset h)
    · rw [delays_iff] at h
      obtain ⟨e, h1, h2, -, h3, -⟩ := beginDrains_entry n h.1
      exact .inr (.inl ⟨p, e, delays_iff.mpr ⟨h1, h3 h.2⟩, h2.symm⟩)
    · exact absurd hi (((beginDrains_begunFrom n s hd).drain d h).2.2.2.2.1 b)

theorem beginDrains_oldestReader (n : Nat) {s : State} {p : Fin 4} {e : DelayedEntry} (h : s.oldestReader p e) :
    (State.beginDrains n s).oldestReader p e := by
  obtain ⟨⟨h1, h2, h3, -, h4⟩, h5⟩ := h
  refine ⟨⟨beginDrains_table n h1 (by simp [DelayedEntry.isPendingWrite, h2]), h2, h3, rfl, fun w hw => h4 w (beginDrains_writes hw)⟩,
    fun q f hq hf hk hs => ?_⟩
  obtain ⟨g, h6, -, -, -, h7⟩ := beginDrains_entry n hf
  exact h5 q f hq (by rw [h6, h7 hk]) hk hs

/-! ### What the arbiter grants -/

/-- R62: the oldest ready WAITING read entry is the one the read class puts forward. -/
theorem oldestReadyRead_of_oldestReader {s : State} {p : Fin 4} {e : DelayedEntry} (h : s.oldestReader p e) :
    s.oldestReadyRead (fun _ => true) = some p := by
  obtain ⟨⟨h1, h2, h3, -, h4⟩, h5⟩ := h
  have hm : (p, e.body.pos) ∈ s.engine.entries.filterMap (fun x =>
      if x.2.kind = .read ∧ x.2.state = .waiting ∧ (fun _ => true) x.2.body.line = true ∧ s.isReady x.2.body = true then
        some (x.1, x.2.body.pos) else none) := by
    refine List.mem_filterMap.mpr ⟨(p, e), Engine.mem_entries.mpr h1, ?_⟩
    simp [h2, h3, isReady_iff.mpr h4]
  cases ho : oldest (s.engine.entries.filterMap fun x =>
      if x.2.kind = .read ∧ x.2.state = .waiting ∧ (fun _ => true) x.2.body.line = true ∧ s.isReady x.2.body = true then
        some (x.1, x.2.body.pos) else none) with
  | none => rw [oldest_eq_none ho] at hm; cases hm
  | some x =>
    have hle := oldest_le ho hm
    obtain ⟨⟨q, f⟩, hq, hf⟩ := List.mem_filterMap.mp (oldest_mem ho)
    have hq' := Engine.mem_entries.mp hq
    simp only [Option.ite_none_right_eq_some, Option.some.injEq] at hf
    obtain ⟨⟨f1, f2, -⟩, rfl⟩ := hf
    have : q = p := by
      by_contra hne
      have := h5 q f hne hq' f1 f2
      simp only at hle
      omega
    rw [oldestReadyRead, ho, ← this]; rfl

theorem procedureOp_of_idle {s : State} (h : s.startup.procedure = .idle) : s.procedureOp = none := by
  simp only [procedureOp, h]

/-- R118: the write class is granted what it offers, where its turn is or the read class offers nothing. -/
theorem arbitrate_of_offer {s : State} {op : Operation} (hop : s.port.op = none) (hf : s.supply.state ≠ .fail)
    (hi : s.startup.procedure = .idle) (ho : s.writeOffer = some op)
    (hr : s.port.lastClass = .read ∨ (s.engine.prefetch = [] ∧
      ∀ (p : Fin 4) (e : DelayedEntry), s.engine.table[p] = some e → e.kind = .read → e.state ≠ .waiting)) :
    s.arbitrate.port.op = some op ∧ s.arbitrate.port.lastClass = .write := by
  have h0 : (s.port.op.isSome || s.supply.state == .fail) = false := by simp [hop, hf]
  simp only [arbitrate, h0, procedureOp_of_idle hi, Bool.false_eq_true, if_false]
  by_cases hc : s.port.lastClass = .read
  · have : s.writeTurn = true := by simp [writeTurn, ho, hc]
    rw [if_pos this, ho]
    exact ⟨rfl, rfl⟩
  · have : ¬ s.writeTurn = true := by simp [writeTurn, hc]
    obtain ⟨h1, h2⟩ := hr.resolve_left hc
    have h3 : s.oldestReadyRead (fun _ => true) = none := by
      cases h4 : s.oldestReadyRead (fun _ => true) with
      | none => rfl
      | some p =>
        obtain ⟨e, h5, h6, h7, -⟩ := oldestReadyRead_waiting h4
        exact absurd h7 (h2 p e h5 h6)
    have h4 : s.engine.prefetchLeft = [] := by simp [Engine.prefetchLeft, h1]
    rw [if_neg this]
    simp only [takeRead, h3, takePrefetch, h4, ho]
    exact ⟨rfl, rfl⟩

/-- R62, R118: the read class is granted the demand fill of the oldest ready WAITING read entry, where its turn is or the write
class offers nothing. -/
theorem arbitrate_of_reader {s : State} {p : Fin 4} (hop : s.port.op = none) (hf : s.supply.state ≠ .fail)
    (hi : s.startup.procedure = .idle) (hr : s.oldestReadyRead (fun _ => true) = some p)
    (ht : s.port.lastClass = .write ∨ s.writeOffer = none) : s.arbitrate = s.grantDemand p := by
  have h0 : (s.port.op.isSome || s.supply.state == .fail) = false := by simp [hop, hf]
  have : ¬ s.writeTurn = true := by rcases ht with h | h <;> simp [writeTurn, h]
  simp only [arbitrate, h0, procedureOp_of_idle hi, Bool.false_eq_true, if_false, if_neg this, takeRead, hr]

/-- R69: where a slot is free one is taken. -/
theorem slotToTake_of_free {g : Engine} (h : ∃ j : Fin 8, g.slots[j] = .free) : ∃ i, g.slotToTake = some i := by
  obtain ⟨j, hj⟩ := h
  simp only [Engine.slotToTake]
  cases hf : (List.finRange 8).find? (fun i => g.slots[i] == .free) with
  | some i => exact ⟨i, rfl⟩
  | none =>
    have := List.find?_eq_none.mp hf j (List.mem_finRange j)
    simp [hj] at this

end Sys2Proof.Machine.State
end

