-- ==== Sys2Proof/WellFormed.lean ====
section
/-! DEFINITION. Which commands are well formed: the write data of a request has no byte past its count (R21), and the
bytes of a FRAME_ERROR really are a frame in error, or no frame at all (R167 to R169). Every other combination of
operands is a command of the spec (R21: "Every combination of field values is a valid request"). -/

namespace Sys2Proof

/-- R167, R168: the bytes and the edge of MCS# make a frame error, or, with no byte received, no frame. -/
def isFrameError (bytes : List Byte) (mcsRose : Bool) : Bool :=
  if mcsRose then Machine.judgeRequest bytes == .unfinished else Machine.judgeRequest bytes == .error

/-- The checks on a command; those not named carry none. -/
def Instr.wellFormed : Instr → Bool
  | .write _ _ ucount data => Machine.keepBytes (Machine.countOf ucount) data == data
  | .frameError bytes mcsRose => isFrameError bytes mcsRose
  | .read _ _ _ => true
  | .status => true
  | .readInhibits => true
  | .readRegionCodes => true
  | .readCounters _ => true
  | .readFailedLines => true
  | .readEvents => true
  | .clearEvents _ => true
  | .writeEventMask _ _ => true
  | .writeRegion _ _ _ _ _ => true
  | .readRegion _ => true
  | .writeGuardFilter _ => true
  | .readGuardFilter => true
  | .writeParameters _ _ _ _ => true
  | .readParameters => true
  | .writeJournalPlacement _ _ => true
  | .closeEpoch => true
  | .rollback => true
  | .initJournal _ => true
  | .setInhibit => true
  | .clearInhibit => true
  | .resetUpstream => true
  | .openPort => true
  | .powerOnReset => true
  | .pinReset => true
  | .resetEnd => true
  | .configurationLoad _ => true
  | .comparatorChange _ => true
  | .supplyFilterExpiry _ => true
  | .wlockPinChange _ => true
  | .wlockFilterExpiry => true
  | .claimTimerExpiry _ => true
  | .memoryAnswer _ _ => true
  | .attemptTimeout => true
  | .backoffEnd => true
  | .mcsRisingEdge => true

end Sys2Proof
end

