-- ==== Sys2Proof/Tests/Slice0.lean ====
section
/-! SUPPORT. Tests on fixed values: ill-formed terms that the checks refuse, the worked examples of the spec, one step of
the commands, and for every statement with hypotheses a state and operands that meet them. -/

open Sys2Proof Sys2Proof.Machine

namespace Sys2Proof.Tests

set_option Elab.async false

/-! ### States -/

/-- The state that a command leaves; every command answers a next state. -/
def after (c : Instr) (s : State) : State :=
  match exec c s with
  | .next t => t
  | .fault _ => s
  | .refused _ => s

/-- A part whose start-up has ended OPEN with no configuration, the supply NORMAL and no latch set. -/
def opened : State :=
  { State.reset with
    startup := { State.reset.startup with portState := .opened, phase := .done, loadResult := .absent }
    supply := { State.reset.supply with
      level := .from300, state := .normal, belowWarn := false, belowFail := false
      timers := ⟨none, none, none, none, none⟩, nwarnLow := false, latches := ⟨false, false, false, false, false, false⟩ } }

/-- The part with a start-up phase and a port state. -/
def phased (p : StartPhase) (q : PortState) (s : State) : State := { s with startup := { s.startup with phase := p, portState := q } }

/-- The part with a supply state. -/
def supplied (x : SupplyState) (s : State) : State := { s with supply := { s.supply with state := x } }

/-- The part with a journal of one page at page 0 in a state, and the background attributes guarding every other line. -/
def journaled (x : JournalState) (s : State) : State :=
  { s with
    journal := ⟨0, 1, x, 7, 0, []⟩
    classifier := { s.classifier with background := ⟨.posted, .prefetch, .all, false⟩ } }

/-- The part with the write mode of the background attributes. -/
def moded (m : WriteMode) (s : State) : State :=
  { s with classifier := { s.classifier with background := { s.classifier.background with writeMode := m } } }

/-- The body of an 8-byte write to line 100, guarded or not. -/
def body (guarded : Bool) : Body := ⟨100, 0, 8, 0, 0xFF, ⟨8, .prefetch, guarded, .none, false⟩, false, 0⟩

/-- An operation at its last attempt, or with two allowed. -/
def operation (kind : OpKind) (owner : Owner) (limit : Nat) : Operation :=
  ⟨kind, 100, 0, 0xFF, false, limit, 1, .awaiting, .attemptAgain, owner, some .dataWrite, 8⟩

/-- The part with an operation in flight. -/
def flying (o : Operation) (s : State) : State := { s with port := { s.port with op := some o } }

/-- The part with a posted write at the head and its drain at a stage. -/
def draining (stage : DrainStage) (s : State) : State :=
  { s with queue := [.write (body true)], nextPos := 1, drain := some ⟨.postedWrite, stage, 0, true⟩ }

/-- The part with an entry in place 0 of the delayed request table. -/
def holding (e : DelayedEntry) (s : State) : State := { s with engine := { s.engine with table := s.engine.table.set 0 (some e) } }

/-- The part with slot 0 of the read buffer holding a value. -/
def slotted (x : Slot) (s : State) : State := { s with engine := { s.engine with slots := s.engine.slots.set 0 x } }

/-- The part with 16 writes in its queue. -/
def filled (s : State) : State := { s with queue := List.replicate 16 (.write (body false)) }

/-- The part at a stage of the scan or the rollback. -/
def proceeding (p : Procedure) (s : State) : State := { s with startup := { s.startup with procedure := p } }

/-- The image of 11.3: marker, version and length, reset values, a start-up mode at byte 65, and the checksum 0263h. -/
def image (mode : Byte) : Image :=
  0xc301004b00000000000000000000000000000000000000000000000000000000000000000000000000000000000000000000000000000000000000000000000000004010010201ff000263 ||| (mode.setWidth 600 <<< 72)

/-- The part of the worked example 1.8 of 01_access_classification.md. -/
def example18 : State :=
  { opened with
    classifier := ⟨#v[⟨true, 256, 511, ⟨.posted, .prefetch, .hashed, false⟩⟩, ⟨true, 0, 1023, ⟨.durable, .single, .all, true⟩⟩,
      Region.reset, ⟨true, 12288, 16383, ⟨.readOnly, .prefetch, .off, false⟩⟩, Region.reset, Region.reset, Region.reset,
      Region.reset], Attributes.reset, 0x0000008000000000⟩
    journal := ⟨16128, 256, .active, 1, 0, []⟩ }

/-! ### Well-formed and ill-formed commands -/

theorem test_wellFormed_write : (Instr.write 0 0 1 (1 <<< 504)).wellFormed = true := by decide +kernel

/-- A byte past the count. -/
theorem test_illFormed_write : (Instr.write 0 0 1 1).wellFormed = false := by decide +kernel

theorem test_wellFormed_frameError : (Instr.frameError [0x15, 0x00, 0xC0] false).wellFormed = true := by decide +kernel

/-- A good frame is no frame error. -/
theorem test_illFormed_frameError_good : (Instr.frameError [0x15, 0x00, 0xC1] false).wellFormed = false := by decide +kernel

/-- A frame that has not ended is none while MCS# is low. -/
theorem test_illFormed_frameError_unfinished : (Instr.frameError [0x15, 0x00] false).wellFormed = false := by decide +kernel

/-- MCS# rising after the CRC byte is not early. -/
theorem test_illFormed_frameError_ended : (Instr.frameError [0x15, 0x00, 0xC0] true).wellFormed = false := by decide +kernel

/-! ### Formats: the worked values of chapters 1, 10 and 11 -/

theorem test_crc32_zero : crc32 [0] = 0xB1F7404B := by decide +kernel

theorem test_crc32_digits : crc32 [0x31, 0x32, 0x33, 0x34, 0x35, 0x36, 0x37, 0x38, 0x39] = 0xFC891918 := by decide +kernel

theorem test_crc8_request : crc8 [0x15] = 0x98 ∧ crc8 [0x15, 0x00] = 0xC1 := by decide +kernel

theorem test_guardIndex : guardIndex 291 = 39 ∧ guardIndex 292 = 32 ∧ guardIndex 480 = 39 := by decide

theorem test_attributeByte : attributesOf 0x10 = ⟨.posted, .prefetch, .hashed, false⟩ ∧
    attributesOf 0x2D = ⟨.durable, .single, .all, true⟩ ∧ attributesOf 0x00 = Attributes.reset ∧
    attributeByteOk 0x18 = false ∧ attributeByteOk 0x40 = false := by decide +kernel

theorem test_capacity : example18.journal.capacity = 8191 := by decide

theorem test_headerLine : headerValid 5 (headerLine 7 5) = true ∧ headerValid 6 (headerLine 7 5) = false ∧
    headerEpoch (headerLine 7 5) = 7 ∧ headerValid 5 (headerLine 0 5) = false := by decide +kernel

theorem test_image_loaded : judgeImage (readImage (image 1)) = .loaded := by decide +kernel

/-- Mode 02h fails R132, whatever the checksum says. -/
theorem test_image_bad : judgeImage (readImage (image 2)) = .bad := by decide +kernel

theorem test_image_absent : judgeImage (readImage (BitVec.allOnes 600)) = .absent ∧ judgeImage (readImage 0) = .bad := by
  decide +kernel

/-! ### The worked requests of 1.8, 2.12 and 10.9 -/

/-- Steps 1, 2 and 3: guarded and LISTED, unguarded, and guarded by a collision. -/
theorem test_18_posted :
    ((after (.write 0 0x123040 8 0) example18).journal.lineSet = [(18625, .reserved)] ∧
      (after (.write 0 0x123040 8 0) example18).lines.answer = some ⟨0, .write, .done, 0⟩) ∧
    (after (.write 0 0x124000 4 0) example18).journal.lineSet = [] ∧
    (after (.write 0 0x1E0010 2 0) example18).journal.lineSet = [(30720, .reserved)] := by decide +kernel

/-- Steps 4 and 5: a delayed write and a delayed read, whose fill has no prefetch. -/
theorem test_18_delayed :
    (after (.write 0 0x040100 16 0) example18).lines.answer = some ⟨0, .write, .retry, 0⟩ ∧
    (after (.write 0 0x040100 16 0) example18).journal.lineSet = [(4100, .reserved)] ∧
    (after (.read 0 0x040100 16) example18).lines.answer = some ⟨0, .read, .retry, 0⟩ ∧
    (after (.read 0 0x040100 16) example18).engine.prefetch = [] := by decide +kernel

/-- Steps 7 and 8: READ_ONLY and the journal area. -/
theorem test_18_refused :
    (after (.write 0 0x3000000 4 0) example18).lines.answer = some ⟨0, .write, .abort, 0⟩ ∧
    (after (.write 0 0x3000000 4 0) example18).faults.codes[3] = .refused ∧
    (after (.write 0 0x3F00040 4 0) example18).faults.codes[3] = .refused := by decide +kernel

/-- 2.12: 12 bytes at offset 60 are cut to 4. -/
theorem test_212_cut : (requestAt .write 1 0x04013C 12 0).count = 4 ∧ (requestAt .write 1 0x04013C 12 0).line = 4100 ∧
    (requestAt .write 1 0x04013C 12 0).handled = .short 4 ∧ (requestAt .write 1 0x040138 8 0).handled = .done := by
  decide +kernel

/-- 10.9, frames 1 and 2; the status byte of frame 3 is read in the state after frame 2. -/
theorem test_109_frames :
    ((after .readParameters opened).mgmt.response.take 7 = [0x01, 0x00, 0x04, 0x40, 0x10, 0x01, 0x02] ∧
      (after .readParameters opened).mgmt.received = [0x15, 0x00, 0xC1]) ∧
    (after (.frameError [0x15, 0x00, 0xC0] false) opened).mgmt.response.take 3 = [0x01, 0x06, 0x00] ∧
    (after (.frameError [0x15, 0x00, 0xC0] false) opened).faults.counters.frameErrors = 1 ∧
    (after .readParameters (after .mcsRisingEdge (after (.frameError [0x15, 0x00, 0xC0] false) opened))).mgmt.response =
      [0x81, 0x00, 0x04, 0x40, 0x10, 0x01, 0x02, 0xBC] := by decide +kernel

/-- R20, 1.8: the eight bytes of the filter with entry 39 alone. -/
theorem test_18_filterBytes :
    ((after .readGuardFilter example18).mgmt.response.drop 3).take 8 = [0, 0, 0, 0x80, 0, 0, 0, 0] := by decide +kernel

/-! ### States that meet the statements: resets and laws -/

/-- RESET_END in and out of a reset, and VDD risen before it comes. -/
theorem test_resetEnd : (after .resetEnd (after .powerOnReset opened)).startup.inReset = false ∧
    (after .resetEnd (after .powerOnReset opened)).supply.level = .from220 ∧
    (after (.comparatorChange .from300) (after .powerOnReset opened)).startup.inReset = true ∧
    (after .resetEnd opened).supply.level = .from300 := by decide +kernel

/-- VDD at 2.85 V with WARN level 0, and after a reset with level 2: VWARN has changed, no watch is open and GLITCH is clear. -/
theorem test_reset_warnLevel :
    let s := after (.comparatorChange .from280) (after (.writeParameters 64 16 1 0) opened)
    let t := after .pinReset s
    s.supply.belowWarn = true ∧ t.supply.warnLevel = 2 ∧ t.supply.belowWarn = false ∧ t.supply.warnWatch = false ∧
      t.supply.timers.notBelowWarn = some 100 ∧
      (after (.comparatorChange .from270) t).supply.latches.glitch = false := by decide +kernel

theorem test_meets_ResetsGiveTheResetValues : (after .powerOnReset opened).startup.inReset = true ∧
    opened.startup.inReset = false ∧
    (after .pinReset { flying (operation .lineWrite .head 1) opened with
      memory := [(6399, 1), (6400, 2), (6463, 3), (6464, 4)] }).memory = [(6399, 1), (6464, 4)] := by decide +kernel

/-- A posted write at the head with its data write in flight, whose answer waits. -/
def lawful : State :=
  { draining .dataWrite (flying (operation .lineWrite .head 2) opened) with
    pending := [.memoryAnswer .busy false], memory := [(6400, 2)] }

theorem noEntry (s : State) (h : s.engine.table = Vector.replicate 4 none) (p : Fin 4) (e : DelayedEntry) :
    s.engine.table[p] ≠ some e := by simp [h]

theorem test_meets_EveryStepKeepsThePins : lawful.pinsFollow ∧ ∃ t, step lawful = .next t := by
  refine ⟨⟨⟨nofun, ?_⟩, by decide, by decide⟩, _, rfl⟩
  rintro ⟨k, hk, -⟩
  cases k <;> exact absurd rfl hk

/-- MDO is driven in a frame, and undriven in front of it, after it and in a reset. -/
theorem test_mdoDriven : opened.mgmt.mdoLine = none ∧ (after .status opened).mgmt.mdoLine = some true ∧
    (after .mcsRisingEdge (after .status opened)).mgmt.mdoLine = none ∧
    (after .pinReset (after .status opened)).mgmt.mdoLine = none := by decide +kernel

theorem test_meets_EveryStepKeepsTheLatches : lawful.latchesCover ∧ ∃ t, step lawful = .next t :=
  ⟨fun k => by cases k <;> decide, _, rfl⟩

theorem test_meets_EveryStepKeepsTheQueueLaw : lawful.queueLaw ∧ ∃ t, step lawful = .next t := by
  refine ⟨⟨by decide, by decide, by decide, fun d hd => ?_, fun op ho hi => ?_⟩, _, rfl⟩
  · cases hd; exact ⟨fun _ => ⟨_, _, rfl⟩, nofun⟩
  · cases ho; cases hi

theorem test_meets_EveryStepKeepsTheTableLaw : lawful.tableLaw ∧ ∃ t, step lawful = .next t :=
  ⟨⟨fun p _ e _ h => absurd h (noEntry _ rfl p e), fun p e h => absurd h (noEntry _ rfl p e)⟩, _, rfl⟩

theorem test_meets_EveryStepKeepsTheOrderAndTheLists :
    lawful.orderLaw ∧ lawful.lineSetLaw ∧ lawful.failedListLaw ∧ ∃ t, step lawful = .next t :=
  ⟨⟨by decide, by decide, fun p e h => absurd h (noEntry _ rfl p e), fun p _ e _ h => absurd h (noEntry _ rfl p e)⟩,
    by unfold State.lineSetLaw; decide, by unfold State.failedListLaw; decide, _, rfl⟩

theorem test_meets_EveryStepKeepsTheSettingsLegal : lawful.settingsLegal ∧ ∃ t, step lawful = .next t :=
  ⟨by unfold State.settingsLegal; decide +kernel, _, rfl⟩

theorem test_meets_EveryStepKeepsTheAttemptCount : lawful.attemptsLaw ∧ ∃ t, step lawful = .next t :=
  ⟨⟨by decide, fun op h => by cases h; decide⟩, _, rfl⟩

theorem test_meets_EveryStepKeepsTheMemoryForm : Memory.wf lawful.memory = true ∧ ∃ t, step lawful = .next t :=
  ⟨by decide +kernel, _, rfl⟩

/-- A back-off that ends in FAIL: the operation goes to HELD. -/
theorem test_meets_NothingIsIssuedInFail :
    let s := { flying { operation .lineWrite .head 2 with phase := .backoff } (supplied .fail opened) with pending := [.backoffEnd] }
    ∃ t, step s = .next t ∧ t.supply.state = .fail ∧ t.port.op = some { operation .lineWrite .head 2 with phase := .held } :=
  ⟨_, rfl, rfl, rfl⟩

theorem test_meets_CodesAndCountersOnlyGrow : ∃ t, exec (.readCounters 1) opened = .next t ∧
    (Instr.readCounters 1).mayReset = false ∧ Instr.readCounters 1 ≠ .readRegionCodes ∧ Instr.status ≠ .readCounters 1 :=
  ⟨_, rfl, rfl, nofun, nofun⟩

/-! ### States that meet the statements: frames and read-outs -/

theorem test_meets_RequestsSpellTheirCommands :
    (Instr.initJournal 0x01020304).codeAndArgs = some (0x22, [1, 2, 3, 4]) ∧
    (Instr.writeRegion 1 0x0203 0x0405 6 7).codeAndArgs = some (0x10, [1, 2, 3, 4, 5, 6, 7]) := by decide +kernel

/-- In reset, in the filler, in the middle and at the last byte of the response, in TRAILING, in IDLE. -/
theorem test_meets_FramesAreTakenInTurn :
    (after .powerOnReset opened).startup.inReset = true ∧ (after .status opened).mgmt.frame ≠ .idle ∧
    Instr.status.isManagement = true ∧ (after .status opened).pending = [] ∧ (after .status opened).mgmt.frame = .filler ∧
    (after .openPort opened).mgmt.response.length = 4 ∧
    ({ opened.mgmt with frame := .response, response := [1, 2], sent := 0 } : ManagementPort).sent + 1 < 2 ∧
    ({ opened.mgmt with frame := .response, response := [1, 2], sent := 1 } : ManagementPort).response.length ≤ 2 ∧
    opened.mgmt.frame = .idle := by decide +kernel

/-- The outcome of a number of steps; every step answers a next state. -/
def ran (n : Nat) (s : State) : State :=
  match core.run n s with
  | .next t => t
  | .fault _ => s
  | .refused _ => s

/-- The part with edges to come on the management port's lines. -/
def lined (q : List FrameEdge) (s : State) : State := { s with frameLines := q }

/-- A request of READ PARAMETERS, edge by edge: after the fall, at the ninth rising edge of MCK, at its end and two bytes on. -/
theorem test_meets_FramesAreTakenInTurn_lines :
    let s := lined (.mcsFalls :: edgesOf (requestOf .readParameters ++ [0xFF, 0xFF])) opened
    s.takesFrame = true ∧ s.pending = [] ∧ (ran 1 s).mgmt.frame = .request ∧ (ran 1 s).mdo = some 0xFF ∧
      (ran 18 s).mgmt.received = [0x15] ∧ (ran 18 s).mgmt.bits = [false] ∧
      (ran 48 s).mgmt = (after .readParameters opened).mgmt ∧ (ran 64 s).mgmt.frame = .response ∧
      (ran 64 s).mdo = some 0x01 ∧ (ran 80 s).mgmt.sent = 1 ∧ opened.mdo = none := by decide +kernel

/-- The level of MDO: the filler's last bit up to the falling edge behind it, and then the bits of the response byte 01h. -/
theorem test_mdoLine :
    let s := lined (.mcsFalls :: edgesOf (requestOf .readParameters ++ [0xFF, 0xFF])) opened
    ((ran 64 s).mgmt.mdoLine, (ran 65 s).mgmt.mdoLine, (ran 77 s).mgmt.mdoLine, (ran 79 s).mgmt.mdoLine) =
      (some true, some false, some false, some true) := by decide +kernel

/-- The byte times of the filler, of the status byte 01h and of the result byte 00h. -/
theorem test_byteTimes :
    let s := after .openPort opened
    [0, 1, 2, 3].map (fun n => ((ran n s).mgmt.frame, (ran n s).mgmt.sent, (ran n s).mgmt.mdoLine)) =
      [(.filler, 0, some true), (.response, 0, some true), (.response, 1, some true), (.response, 2, some false)] := by
  decide +kernel

/-- A byte time with three bits of the byte clocked: the bits stay, and MDO has the last bit of the byte before (assumption log 7). -/
theorem test_byteTime_midByte :
    let m := { opened.mgmt with frame := .trailing, response := [0x80], sent := 1, bits := [true, false, true], mdoLine := some true }
    let s := { opened with mgmt := { m with frame := .response, sent := 0 } }
    (ran 1 s).mgmt = { m with mdoLine := some false } ∧
    (ran 1 { opened with mgmt := m }).mgmt = m := by decide +kernel

/-- A fall while a frame is not over, MCK with MCS# high, and MCS# rising in REQUEST with no byte and with one. -/
theorem test_frameLines :
    (ran 1 (lined [.mcsFalls] (after .status opened))).mgmt = (after .status opened).mgmt ∧
    (ran 2 (lined [.mckRises true, .mckFalls] opened)).mgmt = opened.mgmt ∧
    (ran 9 (lined (.mcsFalls :: (List.replicate 7 (.mckRises true) ++ [.mcsRises])) opened)).faults = opened.faults ∧
    (let t := ran 18 (lined (.mcsFalls :: (edgesOf [0x15] ++ [.mcsRises])) opened);
      t.faults.counters.frameErrors = 1 ∧ t.mgmt = { opened.mgmt with lastError := true }) := by decide +kernel

/-- A frame in error at its length byte, edge by edge, and the bits of MDO. -/
theorem test_frameLines_error :
    (ran 32 (lined (.mcsFalls :: edgesOf [0x15, 73]) opened)).mgmt = (after (.frameError [0x15, 73] false) opened).mgmt ∧
    (let m := { opened.mgmt with frame := .response, response := [0x81] };
      ({ opened with mgmt := m } : State).mdoBit = some true ∧
      ({ opened with mgmt := { m with bits := [true] } } : State).mdoBit = some false) := by decide +kernel

/-- A length of 73, a CRC byte and a code that are wrong, a length that the index does not give, and frames cut short. -/
theorem test_meets_FrameErrorsAreCountedAndFlagged : opened.takesFrame = true ∧
    judgeRequest [0x15, 73] = .error ∧ judgeRequest [0x15, 72] = .unfinished ∧ judgeRequest [0x15, 0, 0xC0] = .error ∧
    judgeRequest [0x16, 0, crc8 [0x16, 0]] = .error ∧ judgeRequest [0x15, 1, 0, crc8 [0x15, 1, 0]] = .error ∧
    judgeRequest [0x15] = .unfinished ∧ judgeRequest [0x15, 0, 0xC1] = .good 0x15 [] := by decide +kernel

theorem test_meets_StatusReportsThePart : opened.takesFrame = true ∧
    ((after .status opened).mgmt.response.drop 2).headD 0 = 23 := by decide +kernel

/-- The status byte of HOLD with a pending event, an inhibit, the journal PENDING, a long command and a BAD image. -/
theorem test_statusByte : opened.statusByte false = 0x01 ∧ State.reset.statusByte true = 0x8A ∧
    (let s := phased .done .hold (journaled .pending opened);
      ({ s with
          startup := { s.startup with loadResult := .bad }, faults := { s.faults with irqLow := true }
          mgmt := { s.mgmt with longCmd := some .closeEpoch } } : State).statusByte false = 0x7C) := by decide +kernel

/-- R counts a RESERVED line and an entry of kind OWN without a record. -/
theorem test_reservations :
    let own : Body := { body true with cls := { (body true).cls with reservation := .own } }
    let s := journaled .active opened
    ({ s with
        journal := { s.journal with lineSet := [(5, .reserved), (6, .recorded)] }
        queue := [.write own, .write { own with recorded := true }, .marker 1] } : State).reservations = 2 := by
  decide +kernel

theorem test_meets_ReadInhibitsReportsAndClears : State.reset.takesFrame = true ∧
    ((after .readInhibits State.reset).mgmt.response.drop 3).take 2 = [0x08, 0x08] := by decide +kernel

theorem test_meets_ReadRegionCodesReportsAndClears : opened.takesFrame = true ∧
    ((after .readRegionCodes opened).mgmt.response.drop 3).take 9 = List.replicate 9 8 := by decide +kernel

/-- The clear flags 00h, 01h and 02h. -/
theorem test_meets_ReadCountersReportsAndMayClear : opened.takesFrame = true ∧
    [0, 1, 2].map (fun c => (after (.readCounters c) (opened.count .noRoom)).faults.counters.noRoom) = [1, 0, 1] ∧
    [0, 1, 2].map (fun c => ((after (.readCounters c) opened).mgmt.response.drop 1).headD 9) = [0, 0, 5] := by decide +kernel

/-- The list holds one entry, of line 0F1234h. -/
theorem test_meets_ReadFailedLinesReportsAndEmpties :
    let s := { opened with port := { opened.port with failed := [⟨0xF1234, .journal, 9⟩], overflow := true } }
    s.takesFrame = true ∧ ((after .readFailedLines s).mgmt.response.drop 3).take 7 = [1, 1, 0x0F, 0x12, 0x34, 2, 9] ∧
      (after .readFailedLines s).port.failed = [] := by decide +kernel

/-! ### States that meet the statements: settings -/

/-- Bits 01FFh and 0200h. -/
theorem test_meets_EventsAreReadAndCleared : opened.takesFrame = true ∧
    (after (.clearEvents 0x1FE) { opened with faults := { opened.faults with events := 0x1FF } }).faults.events = 1 ∧
    ((after (.clearEvents 0x200) opened).mgmt.response.drop 1).headD 9 = 5 := by decide +kernel

/-- Masks 01FFh and 0200h, visibility 01h and 02h. -/
theorem test_meets_WriteEventMaskSetsMaskAndVisibility : opened.takesFrame = true ∧
    (after (.writeEventMask 0x1FE 1) { opened with faults := { opened.faults with events := 1 } }).faults.irqLow = true ∧
    ((after (.writeEventMask 0x200 1) opened).mgmt.response.drop 1).headD 9 = 5 ∧
    ((after (.writeEventMask 0x1FF 2) opened).mgmt.response.drop 1).headD 9 = 5 := by decide +kernel

/-- Indexes 7, 8 and 9, limit pages 16383 and 16384, the largest and two illegal attribute bytes, enable 02h. -/
theorem test_meets_WriteRegionThenReadRegion : opened.takesFrame = true ∧
    (after (.writeRegion 7 16383 16383 0x37 1) opened).classifier.regions[7] =
      ⟨true, 16383, 16383, ⟨.noAccess, .single, .hashed, true⟩⟩ ∧
    (after (.writeRegion 8 0 0 0x2D 0) opened).classifier.background = ⟨.durable, .single, .all, true⟩ ∧
    [after (.writeRegion 9 0 0 0 0) opened, after (.writeRegion 0 0 16384 0 0) opened, after (.writeRegion 0 1 0 0 0) opened,
      after (.writeRegion 0 0 0 0x18 0) opened, after (.writeRegion 0 0 0 0x40 0) opened,
      after (.writeRegion 0 0 0 0 2) opened, after (.readRegion 9) opened].map
        (fun t => (t.mgmt.response.drop 1).headD 9) = [5, 5, 5, 5, 5, 5, 5] := by decide +kernel

theorem test_meets_WriteGuardFilterThenReadGuardFilter : opened.takesFrame = true ∧
    (after (.writeGuardFilter 0x8000000000000001) opened).classifier.guardFilter = 0x8000000000000001 := by decide +kernel

/-- A WARN level under which the supply is no longer below VWARN restarts its filter. -/
theorem test_warnLevel :
    let s := after (.comparatorChange .from270) opened
    (after (.writeParameters 64 16 1 3) s).supply.timers = ⟨none, none, some 100, none, none⟩ ∧
    (after (.writeParameters 64 16 1 3) s).supply.latches.glitch = true ∧
    (after (.writeParameters 64 16 1 2) s).supply = s.supply := by decide +kernel

/-- The four ends of the legal ranges. -/
theorem test_meets_ParametersAreWrittenAndRead : opened.takesFrame = true ∧
    (after (.writeParameters 1 1 3 3) opened).port.attemptLimit = 1 ∧
    [after (.writeParameters 255 255 0 0) opened, after (.writeParameters 0 1 3 3) opened,
      after (.writeParameters 1 0 3 3) opened, after (.writeParameters 1 1 4 3) opened,
      after (.writeParameters 1 1 3 4) opened].map (fun t => (t.mgmt.response.drop 1).headD 9) = [0, 5, 5, 5, 5] := by
  decide +kernel

theorem test_meets_SetAndClearInhibit : opened.takesFrame = true ∧
    (after .setInhibit opened).supply.software = true ∧ (after .setInhibit opened).supply.latches.software = true ∧
    (after .clearInhibit (after .setInhibit opened)).supply.latches.software = true := by decide +kernel

/-- HOLD with OFF, ACTIVE and PENDING, OPEN, and STARTING. -/
theorem test_meets_OpenPortOpensAHeldPort : opened.takesFrame = true ∧
    [phased .done .hold opened, phased .done .hold (journaled .active opened), phased .done .hold (journaled .pending opened),
      opened, phased .loading .starting opened].map
      (fun s => ((after .openPort s).startup.portState, ((after .openPort s).mgmt.response.drop 1).headD 9)) =
      [(.opened, 0), (.opened, 0), (.hold, 3), (.opened, 0), (.starting, 3)] := by decide +kernel

/-- A drain of a posted write, and one of a delayed write with its operation in flight. -/
theorem test_meets_ResetUpstreamEmptiesTheEngine : opened.takesFrame = true ∧
    (after .resetUpstream lawful).drain = lawful.drain ∧
    (let s := holding ⟨.write, 0, body true, .issued, none, none⟩ { flying (operation .lineRead .head 2) opened with
        drain := some ⟨.delayedWrite 0, .beforeImage, 0, true⟩ };
      (after .resetUpstream s).drain = some ⟨.removed (body true), .beforeImage, 0, true⟩ ∧
      (after .resetUpstream s).engine.table = Vector.replicate 4 none) := by decide +kernel


/-! ### States that meet the statements: start-up, scan and rollback -/

/-- In FAIL a loaded, a bad and an absent image; in NORMAL a loaded and a bad one; outside LOADING and in reset. -/
theorem test_meets_ConfigurationLoadJudgesTheImage :
    State.reset.startup.inReset = false ∧ State.reset.startup.phase = .loading ∧
    (after (.configurationLoad (BitVec.allOnes 600)) State.reset).startup.loadResult = .absent ∧
    (after (.configurationLoad (BitVec.allOnes 600)) State.reset).startup.phase = .supplyWait ∧
    (after (.configurationLoad 0) (supplied .normal State.reset)).startup.portState = .hold ∧
    opened.startup.phase ≠ .loading ∧ (after .pinReset opened).startup.inReset = true := by decide +kernel

/-- The image of 11.3 with a journal size of one page; the scan begins. -/
theorem test_meets_ConfigurationLoadJudgesTheImage_sized :
    let t := after (.configurationLoad (image 1 + (1 <<< 80) + 1)) (supplied .normal State.reset)
    t.startup.phase = .scanning ∧ t.journal.sizePages = 1 ∧ t.startup.portState = .starting := by decide +kernel

/-- Events at the end of LOADING: a journal, HOLD under a mask that lets PORT_HOLD pass, and the inhibit latch. -/
theorem test_load_events :
    (let s := after (.configurationLoad (image 1 + (1 <<< 80) - (0x1FF <<< 24) - 255)) State.reset;
      s.startup.loadResult = .loaded ∧ s.faults.events = 0x018 ∧ s.supply.latches.journal = true) ∧
    (let s := supplied .normal State.reset;
      (after (.configurationLoad 0) { s with faults := { s.faults with mask := 0 } }).faults.events = 0x003) := by decide +kernel

theorem test_meets_ALoadedImageIsAppliedWhole : State.reset.startup.inReset = false ∧
    State.reset.startup.phase = .loading ∧ imageLegal (image 1) ∧ ¬ imageLegal (image 2) := by
  unfold imageLegal attributeByteLegal; decide +kernel

/-- The header line of record 0 of epoch 7 for line 99, over an image of zeros. -/
def record99 : Line := 0x4B4E4A52000000070000000000000063B41356F4 <<< 352

theorem crcPart1 : [0, 0, 0, 7, 0, 0, 0, 0, 0, 0, 0, 99].foldl crc32Byte 0xFFFFFFFF = 0x7FFBD833 := by decide +kernel

theorem crcPart2 : (List.replicate 16 0).foldl crc32Byte 0x7FFBD833 = 0x29AE1A99 := by decide +kernel

theorem crcPart3 : (List.replicate 16 0).foldl crc32Byte 0x29AE1A99 = 0x22E5593B := by decide +kernel

theorem crcPart4 : (List.replicate 16 0).foldl crc32Byte 0x22E5593B = 0x539B05C5 := by decide +kernel

theorem crcPart5 : (List.replicate 16 0).foldl crc32Byte 0x539B05C5 = 0x4BECA90B := by decide +kernel

theorem crcBytes : bytesOf 4 (7 : BitVec 32).toNat ++ bytesOf 4 (0 : BitVec 32).toNat ++ bytesOf 4 (99 : BitVec 32).toNat ++
    lineBytes 0 = [0, 0, 0, 7, 0, 0, 0, 0, 0, 0, 0, 99] ++ List.replicate 16 0 ++ List.replicate 16 0 ++
      List.replicate 16 0 ++ List.replicate 16 0 := by decide +kernel

/-- R177: the CRC-32 of that record, B41356F4h, computed outside the model. -/
theorem test_recordCrc : recordCrc 7 0 99 0 = 0xB41356F4 := by
  simp only [recordCrc, crc32, crcBytes, List.foldl_append, crcPart1, crcPart2, crcPart3, crcPart4, crcPart5]
  decide

theorem recordFields : lineField record99 16 4 = 0xB41356F4 ∧ lineField record99 4 4 = 7 ∧ lineField record99 8 4 = 0 ∧
    lineField record99 12 4 = 99 := by decide +kernel

theorem recordChecks_record99 : recordChecks record99 0 = true := by
  obtain ⟨h1, h2, h3, h4⟩ := recordFields
  have e : recordCrc (lineField record99 4 4) (lineField record99 8 4) (lineField record99 12 4) 0 = 0xB41356F4 := by
    rw [h2, h3, h4]; exact test_recordCrc
  rw [recordChecks, e, h1]; decide

/-- The part with a read of the scan in flight at a place of the scan, its journal of one page, so that C is 31. -/
def scanning (p : Procedure) : State :=
  flying (operation .lineRead .scan 1) (proceeding p (phased .scanning .starting (journaled .unknown opened)))

theorem test_meets_TheScanReadsTheJournal : (scanning .scanHeader).port.op = some (operation .lineRead .scan 1) ∧
    (operation .lineRead .scan 1).succeedsBy 0 (.memoryAnswer (.ok 0) false) ∧
    (operation .lineRead .scan 1).failsBy .attemptTimeout ∧
    headerValid (scanning .scanHeader).journal.sizePages (headerLine 7 1) = true ∧ headerValid 1 0 = false ∧
    recordNamed (scanning (.scanRecord 0)).journal.epoch 0 record99 = true ∧ recordNamed 7 1 record99 = false ∧
    recordChecks record99 0 = true ∧ (0 + 1 < (64 * (scanning (.scanImage 0 record99)).journal.sizePages - 1) / 2) ∧
    (30 + 1 = (64 * (scanning (.scanImage 30 record99)).journal.sizePages - 1) / 2) :=
  ⟨rfl, .inl ⟨rfl, rfl, rfl⟩, ⟨Nat.le_refl 1, .inl rfl⟩, by decide +kernel, by decide +kernel, by decide +kernel,
    by decide +kernel, recordChecks_record99, by decide, by decide⟩

/-- A record header that names its record, one that does not, and a failed record read. -/
theorem test_scan_steps :
    (after (.memoryAnswer (.ok (headerLine 7 1)) false) (scanning .scanHeader)).startup.procedure = .scanRecord 0 ∧
    (after (.memoryAnswer (.ok 0) false) (scanning (.scanRecord 3))).journal.written = 3 ∧
    (after .attemptTimeout (scanning (.scanRecord 3))).journal.state = .failed := by decide +kernel

/-- A scan that ends with one record, in HOLD and in AUTO, and with none. -/
theorem test_scan_ends :
    (let s := scanning (.scanRecord 1);
      (after (.memoryAnswer (.ok 0) false) s).journal.state = .pending ∧
      (after (.memoryAnswer (.ok 0) false) s).startup.portState = .hold ∧
      (let t := after (.memoryAnswer (.ok 0) false) { s with startup := { s.startup with mode := .auto } };
        t.journal.state = .rolling ∧ t.startup.procedure = .rollRecord 0 ∧ t.port.op.map (·.line) = some 1)) ∧
    (after (.memoryAnswer (.ok 0) false) (scanning (.scanRecord 0))).startup.portState = .opened := by decide +kernel

/-- The part with an operation of the rollback in flight, and a command rollback or a start-up one. -/
def rolling (kind : OpKind) (p : Procedure) (c : Option LongCommand) : State :=
  let s := flying (operation kind .rollback 1) (proceeding p (phased .rolling .rolling (journaled .rolling opened)))
  { s with mgmt := { s.mgmt with longCmd := c } }

theorem test_meets_TheRollbackRestoresTheRecords :
    (operation .lineRead .rollback 1).succeedsBy record99 (.memoryAnswer (.ok record99) false) ∧
    (operation .lineWrite .rollback 1).succeedsBy 0 (.memoryAnswer (.ok 0) false) ∧
    (operation .lineWrite .rollback 1).failsBy (.memoryAnswer .error false) ∧
    recordNamed (rolling .lineRead (.rollRecord 0) none).journal.epoch 0 record99 = true ∧ recordNamed 7 1 record99 = false ∧
    recordChecks record99 0 = true ∧
    (rolling .lineRead (.rollImage 0 record99) none).journal.inArea (recordTarget record99) = false ∧
    (journaled .rolling opened).journal.inArea 63 = true ∧
    (rolling .lineWrite .rollHeader (some (.rollback .hold))).mgmt.longCmd = some (.rollback .hold) :=
  ⟨.inl ⟨rfl, rfl, rfl⟩, .inr (.inl ⟨rfl, rfl, rfl, rfl⟩), ⟨Nat.le_refl 1, .inl rfl⟩, by decide +kernel, by decide +kernel,
    recordChecks_record99, by decide +kernel, by decide, rfl⟩

/-- A record that does not name itself is skipped, and a target write leads to the next record or to the header write. -/
theorem test_roll_steps :
    (after (.memoryAnswer (.ok 0) false) (rolling .lineRead (.rollRecord 2) none)).startup.skipped = 1 ∧
    (after (.memoryAnswer (.ok 0) false) (rolling .lineWrite (.rollTarget 2 99 0) none)).startup.procedure = .rollRecord 1 ∧
    (after .attemptTimeout (rolling .lineWrite (.rollTarget 0 99 0) none)).startup.procedure = .rollHeader ∧
    (after (.memoryAnswer (.ok 0) false) (rolling .lineWrite .rollHeader (some (.rollback .hold)))).journal.epoch = 8 ∧
    (after .attemptTimeout (rolling .lineWrite .rollHeader none)).startup.rollbackResult = .failed := by decide +kernel

/-- What the procedure writes: the image to its target, and the header of the next epoch. -/
theorem test_roll_writes :
    (after (.memoryAnswer (.ok 5) false) (rolling .lineRead (.rollRecord 0) none)).port.op.map (fun o => (o.line, o.mask)) =
      some (0, BitVec.allOnes 64) ∧
    (rolling .lineWrite (.rollTarget 0 99 5) none).procedureOp.map (fun o => (o.line, o.data, o.verify, o.failure)) =
      some (99, 5, true, some .rollback) ∧
    (rolling .lineWrite .rollHeader none).procedureOp.map (·.data) = some (headerLine 8 1) := by decide +kernel

/-- Lines that break one field condition each are not valid. -/
theorem test_headerRejected :
    [headerLine 7 5 ^^^ (1 <<< 480), headerLine 7 5 ^^^ (1 <<< 472), headerLine 7 5 ^^^ (1 <<< 400),
      headerLine 7 5 ^^^ (1 <<< 352), headerLine 0 5].map (headerValid 5) = [false, false, false, false, false] ∧
    recordNamed 7 0 (record99 ^^^ (1 <<< 480)) = false ∧ recordNamed 8 0 record99 = false ∧
    lineAt (headerLine 7 5) 12 2 = 5 := by decide +kernel

theorem test_meets_JournalLinesReadBack : (0xFFFFFFFF : BitVec 32) ≠ 0 ∧ 65535 < 65536 ∧ 4294967295 < 4294967296 ∧
    1048575 < 1048576 := by decide


/-! ### States that meet the statements: requests -/

/-- A page of two regions, a page of none, a page of the journal area, an ALL and two HASHED lines. -/
theorem test_meets_RequestsAreCutAndClassified :
    (example18.classify 18625).region = 0 ∧ (example18.classify 18625).guarded = true ∧
    (example18.classify 18688).guarded = false ∧ (example18.classify 4100).guarded = true ∧
    (example18.classify 524288).region = 8 ∧ (example18.classify 1032192).readMode = .single ∧
    (example18.classify 1032191).readMode = .prefetch ∧ (requestAt .write 0 0x3FFFFFF 0 0).count = 1 ∧
    (requestAt .write 0 0 0 0).count = 64 := by decide +kernel

theorem emptyMatches (s : State) (h : s.engine.table = Vector.replicate 4 none) (r : Request) : s.matchesNone r :=
  fun p e he => absurd he (noEntry s h p e)

/-- An 8-byte write of zeros and a read of 8 bytes, both of line 100. -/
def aWrite : Instr := .write 0 6400 8 0

/-- The read of `aWrite`'s bytes. -/
def aRead : Instr := .read 0 6400 8

/-- The write as a request. -/
def wRequest : Request := requestAt .write 0 6400 8 0

/-- The read as a request. -/
def rRequest : Request := requestAt .read 0 6400 8 0

/-- The answer, the code of region 8 and NO_ROOM after a command. -/
def answered (c : Instr) (s : State) : Option Answer × RegionCode × BitVec 16 :=
  ((after c s).lines.answer.map (·.answer), (after c s).faults.codes[8], (after c s).faults.counters.noRoom)

theorem unhindered_of (s : State) (h1 : s.startup.portState = .opened) (h2 : s.engine.table = Vector.replicate 4 none)
    (h3 : s.journal.inArea 100 = false ∧ s.writeModeAt 100 ≠ .readOnly ∧ s.writeModeAt 100 ≠ .noAccess)
    (h4 : s.supply.wlock = false ∧ s.supply.software = false ∧ s.supply.state = .normal) : s.unhindered wRequest :=
  ⟨h1, emptyMatches s h2 _, h3, h4.1, h4.2.1, h4.2.2⟩

/-- A journal whose records are all taken: W is C, 31. -/
def fullJournal : State :=
  let s := journaled .active opened
  { s with journal := { s.journal with written := 31 } }

theorem test_meets_WritesThatAreNotAccepted : opened.matchesNone wRequest ∧ opened.writable wRequest.line ∧
    ¬ (moded .readOnly opened).writable wRequest.line ∧ (journaled .closing opened).unhindered wRequest ∧
    (journaled .failed opened).unhindered wRequest ∧ fullJournal.unhindered wRequest ∧
    fullJournal.isGuarded wRequest.line = true ∧ ∀ k, ¬ fullJournal.reserves wRequest.line k := by
  refine ⟨emptyMatches _ rfl _, ?_, ?_, unhindered_of _ rfl rfl (by decide +kernel) (by decide),
    unhindered_of _ rfl rfl (by decide +kernel) (by decide), unhindered_of _ rfl rfl (by decide +kernel) (by decide),
    by decide +kernel, fun k => ?_⟩
  · unfold State.writable; decide +kernel
  · unfold State.writable; decide +kernel
  · cases k <;> simp only [State.reserves] <;> decide +kernel

/-- STARTING, ROLLING, HOLD, READ_ONLY, the software inhibit, WARN, FAIL, CLOSING, FAILED, and no record left. -/
theorem test_write_refusals :
    [phased .loading .starting opened, phased .done .rolling opened, phased .done .hold opened, moded .readOnly opened,
      { opened with supply := { opened.supply with software := true } }, supplied .warn opened, supplied .fail opened,
      journaled .closing opened, journaled .failed opened, fullJournal].map (answered aWrite) =
    [(some .retry, .noTraffic, 0), (some .retry, .noTraffic, 0), (some .abort, .refused, 0), (some .abort, .refused, 0),
      (some .abort, .refused, 0), (some .retry, .noTraffic, 0), (some .retry, .noTraffic, 0), (some .retry, .noTraffic, 0),
      (some .abort, .journalFail, 0), (some .abort, .journalFull, 0)] := by decide +kernel

/-- A part whose port carries an operation for a head in its drain. -/
def occupied (s : State) : State := flying (operation .lineWrite .head 2) { s with drain := some ⟨.postedWrite, .dataWrite, 0, true⟩ }

/-- 128 other lines in the epoch line set, all RECORDED. -/
def crowded : State :=
  let s := journaled .active opened
  { s with journal := { s.journal with lineSet := (List.range 128).map fun i => (1000 + i, .recorded) } }

theorem test_meets_PostedWritesAreAccepted :
    ((occupied opened).admits wRequest .none ∧ (occupied opened).writeModeAt wRequest.line = .posted ∧
      (occupied opened).queue.length < 16 ∧ (occupied opened).busyPort) ∧
    (occupied (journaled .active opened)).admits wRequest .listed ∧ crowded.admits wRequest .own ∧
    (filled opened).admits wRequest .none ∧ 16 ≤ (filled opened).queue.length := by
  refine ⟨⟨⟨unhindered_of _ rfl rfl (by decide +kernel) (by decide), .inl ⟨by decide +kernel, rfl⟩⟩, by decide +kernel,
    by decide, by decide, by decide⟩, ⟨unhindered_of _ rfl rfl (by decide +kernel) (by decide), .inr ⟨by decide +kernel, rfl, ?_⟩⟩,
    ⟨unhindered_of _ rfl rfl (by decide +kernel) (by decide), .inr ⟨by decide +kernel, rfl, ?_⟩⟩,
    ⟨unhindered_of _ rfl rfl (by decide +kernel) (by decide), .inl ⟨by decide +kernel, rfl⟩⟩, by decide⟩
  all_goals simp only [State.reserves]; decide +kernel

/-- With a guarded head that FAILED has let wait: it is dropped as an unguarded write is accepted, whose drain begins. -/
theorem test_posted_drops :
    let s := { journaled .failed opened with
      classifier := opened.classifier, queue := [.write { body true with pos := 3 }], nextPos := 4 }
    (after aWrite s).queue = [.write { body false with pos := 4 }] ∧ (after aWrite s).faults.codes[8] = .journalFail ∧
      (after aWrite s).drain = some ⟨.postedWrite, .dataWrite, 0, true⟩ := by decide +kernel

/-- The bytes of a cut write, its byte mask, the bytes of a read, and the codes of the answers. -/
theorem test_bytes : byteMask 60 4 = 0xF000000000000000 ∧ byteMask 0 64 = BitVec.allOnes 64 ∧
    lineByte (requestAt .write 1 0x04013C 12 (BitVec.allOnes 512)).data 3 = 0xFF ∧
    lineByte (requestAt .write 1 0x04013C 12 (BitVec.allOnes 512)).data 4 = 0 ∧
    takeBytes 1 2 ((0x010203 : Line) <<< 488) = (0x0203 : Line) <<< 496 ∧
    [Answer.done, .short 4, .retry, .abort].map (·.uans) = [0, 1, 2, 3] ∧ (Answer.short 4).ushort = some 4 := by
  decide +kernel

/-- DONE with a reservation, SHORT at a line's end, and RETRY with 16 entries. -/
theorem test_posted :
    (after aWrite (occupied (journaled .active opened))).journal.lineSet = [(100, .reserved)] ∧
    (after (.write 0 6463 8 0) opened).lines.answer = some ⟨0, .write, .short 1, 0⟩ ∧
    answered aWrite (filled opened) = (some .retry, .noTraffic, 1) := by decide +kernel

/-- An entry of `aWrite`, or of the read of its bytes. -/
def entry (kind : RequestKind) (st : EntryState) (slot : Option (Fin 8)) (timer : Timer) : DelayedEntry :=
  ⟨kind, 0, body false, st, slot, timer⟩

/-- The laws of the work hold after a reset, and with start-up over. -/
theorem opened_lawful : opened.Lawful := by
  have h : State.reset.Lawful := State.lawful_of_reset rfl (by decide) (by decide) rfl rfl rfl rfl ⟨rfl, rfl, rfl⟩
  have h' : ({ State.reset with startup := opened.startup } : State).Lawful :=
    h.of_startup rfl rfl rfl h.marks h.init (State.phaseLaw_of_over ⟨id, id, nofun, nofun⟩ nofun nofun nofun)
  exact h'.congr rfl rfl

/-- With a guarded write in its drain: it is the oldest, its line has no slot, and it holds a reservation. -/
def worked : State := (journaled .active opened).decideWrite wRequest

theorem test_meets_EveryStepKeepsTheOrderAndTheLists_work :
    worked.orderLaw ∧ worked.queueLaw ∧ worked.workLaw ∧ worked.drain.map (·.item) = some .postedWrite ∧ worked.held = 1 ∧
      worked.writeStands (((journaled .active opened).carried wRequest .listed)) := by
  have h : (journaled .active opened).Lawful :=
    opened_lawful.of_epoch rfl (fun b hb => absurd hb ((opened_lawful.nothing_of_hasWork rfl).2.2.2.1 b)) nofun rfl (by decide)
      (by decide) nofun rfl (fun op ho => by cases ho) (State.phaseLaw_of_over ⟨id, id, nofun, nofun⟩ nofun nofun nofun)
  have hw : worked.Lawful := h.decideWrite (r := wRequest) rfl
  have hq : worked.queue = [.write ((journaled .active opened).carried wRequest .listed)] := by decide +kernel
  refine ⟨hw.order, ⟨by decide +kernel, hw.one, by decide +kernel, fun d hd => ?_, hw.init⟩, hw.work, by decide +kernel,
    by decide +kernel, ?_⟩
  · have hd' : worked.drain = some ⟨.postedWrite, .beforeImage, 0, true⟩ := by decide +kernel
    rw [hd'] at hd
    cases hd
    exact ⟨fun _ => ⟨_, [], hq⟩, nofun⟩
  · exact .inl (by rw [hq]; exact List.mem_singleton_self _)

/-- A read of an idle part: the step issues its fill. -/
theorem test_meets_EveryStepKeepsTheOrderAndTheLists_fill :
    let s := { opened with pending := [aRead] }
    s.orderLaw ∧ s.queueLaw ∧ s.workLaw ∧ s.attemptsLaw ∧ ∃ t, step s = .next t ∧ s.port.op ≠ t.port.op ∧
      t.fillIssued 100 (some 0) := by
  have h : ({ opened with pending := [aRead] } : State).Lawful := opened_lawful.congr rfl rfl
  refine ⟨h.order, ⟨by decide, h.one, by decide, fun d hd => (by cases hd), h.init⟩, h.work,
    ⟨by decide, fun op ho => (by cases ho)⟩, opened.decideRead rRequest, rfl, by decide +kernel, ?_⟩
  exact ⟨entry .read .issued (some 0) none, by decide +kernel, rfl, _, rfl, rfl, rfl, rfl, rfl, rfl, rfl, rfl, rfl,
    fun x hx => by cases hx; rfl⟩

/-- The table full of reads of other initiators. -/
def fullTable (s : State) : State :=
  { s with engine := { s.engine with table := Vector.replicate 4 (some { entry .read .waiting none none with initiator := 3 }) } }

/-- An entry with the key of `aWrite` and other data. -/
def rival : DelayedEntry := { entry .write .waiting none none with body := { body false with data := 1 } }

theorem holding_get {e f : DelayedEntry} {s : State} {p : Fin 4} (h : s.engine.table = Vector.replicate 4 none)
    (hf : (holding e s).engine.table[p] = some f) : f = e := by
  have h0 : (holding e s).engine.table = (Vector.replicate 4 none).set 0 (some e) := by simp [holding, h]
  rw [h0] at hf
  fin_cases p <;> simp at hf
  exact hf.symm

theorem holding_matches {e : DelayedEntry} {s : State} (h : s.engine.table = Vector.replicate 4 none) {r : Request}
    (hr : ¬ r.sameAs e) : (holding e s).matchesNone r := fun _ _ hf => holding_get h hf ▸ hr

theorem test_meets_DurableWritesAreGivenAnEntry :
    ((occupied (moded .durable opened)).admits wRequest .none ∧
      (occupied (moded .durable opened)).writeModeAt wRequest.line = .durable ∧ (occupied (moded .durable opened)).busyPort ∧
      (occupied (moded .durable opened)).engine.table[(0 : Fin 4)] = none) ∧
    ((holding rival (moded .durable opened)).admits wRequest .none ∧
      (holding rival (moded .durable opened)).engine.table[(0 : Fin 4)] = some rival ∧ rival.kind = .write ∧
      rival.initiator = 0 ∧ rival.body.line = wRequest.line ∧ rival.body.offset = wRequest.offset ∧
      rival.body.count = wRequest.count) ∧
    (∀ p : Fin 4, (fullTable (moded .durable opened)).engine.table[p].isSome = true) ∧
    (fullTable (moded .durable opened)).admits wRequest .none := by
  refine ⟨⟨⟨unhindered_of _ rfl rfl (by decide +kernel) (by decide), .inl ⟨by decide +kernel, rfl⟩⟩, by decide +kernel,
    by unfold State.busyPort; decide, by decide +kernel⟩, ⟨⟨⟨rfl, holding_matches rfl ?_, ?_, rfl, rfl, rfl⟩,
    .inl ⟨by decide +kernel, rfl⟩⟩, by decide +kernel⟩, by decide +kernel, ⟨rfl, fun p e he => ?_, ?_, rfl, rfl, rfl⟩,
    .inl ⟨by decide +kernel, rfl⟩⟩
  · unfold Request.sameAs; decide +kernel
  · unfold State.writable; decide +kernel
  · have h : e = { entry .read .waiting none none with initiator := 3 } := by simpa [fullTable] using he.symm
    rw [h]; unfold Request.sameAs; decide +kernel
  · unfold State.writable; decide +kernel

/-- A demand fill of line 200 in flight and no drain: the accepted write joins the queue, the durable one is ISSUED, and the
read waits. -/
theorem test_accepted_beside_fill :
    let fill := { operation .lineRead .demandFill 2 with line := 200 }
    let e := entry .read .issued (some 0) none
    let s := fun m => flying fill (slotted (.filling 200 false (some 0))
      (holding { e with body := { e.body with line := 200 } } (moded m opened)))
    (after aWrite (s .posted)).queue = [.write (body false)] ∧
    (after aWrite (s .posted)).drain = some ⟨.postedWrite, .dataWrite, 0, true⟩ ∧
    (after aWrite (s .durable)).engine.table[1] = some (entry .write .issued none none) ∧
    (after aRead (s .posted)).engine.table[1].map (·.state) = some .waiting ∧
    (after aRead (s .posted)).port.op = some fill := by decide +kernel

/-- A slot of line 100. -/
def bufferedSlot (owner : Option (Fin 4)) : Slot := .valid 100 5 owner 0

theorem test_meets_ReadsAreAnsweredOrDelayed :
    (opened.matchesNone rRequest ∧ (moded .noAccess opened).writeModeAt rRequest.line = .noAccess ∧
      (phased .done .hold (journaled .active opened)).isGuarded rRequest.line = true) ∧
    (opened.admitsRead rRequest ∧ (phased .done .hold opened).admitsRead rRequest ∧ (occupied opened).busyPort) ∧
    ((slotted (bufferedSlot none) opened).engine.slots[(0 : Fin 8)] = .valid rRequest.line 5 none 0 ∧
      ∀ (j : Fin 8) d o g, (slotted (bufferedSlot none) opened).engine.slots[j] = .valid rRequest.line d o g → d = 5) ∧
    ∀ p : Fin 4, (fullTable opened).engine.table[p].isSome = true := by
  refine ⟨⟨emptyMatches _ rfl _, by decide +kernel, by decide +kernel⟩,
    ⟨⟨.inl rfl, emptyMatches _ rfl _, by decide +kernel, .inl rfl, nofun⟩,
      ⟨.inr rfl, emptyMatches _ rfl _, by decide +kernel, .inr (by decide +kernel), nofun⟩, by unfold State.busyPort; decide⟩,
    ⟨by decide +kernel, fun j d o g h => ?_⟩, by decide +kernel⟩
  have h0 : (slotted (bufferedSlot none) opened).engine.slots = (Vector.replicate 8 .free).set 0 (bufferedSlot none) := rfl
  rw [h0] at h
  fin_cases j <;> simp [bufferedSlot] at h
  exact h.2.1.symm

/-- Of two VALID slots of one line the lower serves (assumption log 23). -/
theorem test_validSlot_lowest :
    let s := slotted (bufferedSlot none) opened
    ({ s.engine with slots := s.engine.slots.set 1 (.valid 100 6 none 1) } : Engine).validSlot 100 = some 5 := by
  decide +kernel

/-- NO_ACCESS, a guarded line in HOLD, FAIL, STARTING, a buffered line, a new entry, and no free place. -/
theorem test_read_answers :
    [moded .noAccess opened, phased .done .hold (journaled .active opened), supplied .fail opened,
      phased .loading .starting opened, slotted (bufferedSlot none) opened, opened, fullTable opened].map (answered aRead) =
    [(some .abort, .refused, 0), (some .abort, .refused, 0), (some .retry, .noTraffic, 0), (some .retry, .noTraffic, 0),
      (some .done, .clean, 0), (some .retry, .noTraffic, 0), (some .retry, .noTraffic, 1)] := by decide +kernel


/-- A COMPLETE read whose slot 0 holds line 100. -/
def claimable : State := holding (entry .read (.complete .ok) (some 0) (some 1024)) (slotted (bufferedSlot (some 0)) opened)

theorem test_meets_CompleteEntriesAreClaimed :
    claimable.startup.portState = .opened ∧ claimable.tableLaw ∧
    claimable.engine.table[(0 : Fin 4)] = some (entry .read (.complete .ok) (some 0) (some 1024)) ∧
    rRequest.sameAs (entry .read (.complete .ok) (some 0) (some 1024)) ∧
    claimable.engine.slots[(0 : Fin 8)] = .valid 100 5 (some 0) 0 ∧
    wRequest.sameAs (entry .write .waiting none none) ∧ wRequest.sameAs (entry .write (.complete .ok) none (some 1024)) ∧
    wRequest.sameAs (entry .write (.complete .fail) none (some 1024)) := by
  refine ⟨rfl, ⟨fun p q e f he hf hpq => ?_, fun p e he _ => ?_⟩, by decide +kernel, ?_, by decide +kernel, ?_, ?_, ?_⟩
  · have h0 : claimable.engine.table =
        (Vector.replicate 4 none).set 0 (some (entry .read (.complete .ok) (some 0) (some 1024))) := rfl
    rw [h0] at he hf
    fin_cases p <;> fin_cases q <;> simp at he hf hpq
  · rw [holding_get (s := slotted (bufferedSlot (some 0)) opened) rfl he]; rfl
  all_goals unfold Request.sameAs; decide +kernel

/-- A claim of a read and of a failed write; a WAITING write; and an adoption of the slot by a second reader. -/
theorem test_claims :
    (after aRead claimable).lines.answer = some ⟨0, .read, .done, 0⟩ ∧
    (after aRead claimable).engine.slots[0] = .valid 100 5 none 0 ∧
    (after aWrite (holding (entry .write (.complete .fail) none (some 1024)) opened)).lines.answer = some ⟨0, .write, .abort, 0⟩ ∧
    (after aWrite (holding (entry .write .waiting none none) opened)).lines.answer = some ⟨0, .write, .retry, 0⟩ ∧
    (let s := { claimable with engine := { claimable.engine with
        table := claimable.engine.table.set 2 (some { entry .read .waiting none none with initiator := 3 }) } };
      s.isReady (body false) = true ∧ (after aRead s).engine.slots[0] = .valid 100 5 (some 2) 0) := by decide +kernel

/-- A ready WAITING read of line 100 by an initiator, at a position. -/
def reader (i : BitVec 2) (pos : Nat) : DelayedEntry :=
  { entry .read .waiting none none with initiator := i, body := { body false with pos := pos } }

/-- The part with two readers of line 100 that wait, the one in place 2 older. -/
def contended (s : State) : State :=
  { s with engine := { s.engine with table := (s.engine.table.set 1 (some (reader 3 9))).set 2 (some (reader 2 4)) } }

/-- Of the two the older adopts a slot of the line. -/
theorem contended_adopter {s : State} (h0 : ∀ e, s.engine.table[(0 : Fin 4)] = some e → e.state ≠ .waiting)
    (h3 : s.engine.table[(3 : Fin 4)] = none) (hr : (contended s).isReady (reader 2 4).body = true) :
    (contended s).adopter 100 2 (reader 2 4) := by
  refine ⟨⟨by simp [contended], rfl, rfl, rfl, State.isReady_iff.mp hr⟩, ?_⟩
  rintro q f hq ⟨hf, -, hw, -⟩
  fin_cases q
  · exact absurd hw (h0 f (by simpa [contended] using hf))
  · have : f = reader 3 9 := by simpa [contended] using hf.symm
    rw [this]
    decide
  · exact absurd rfl hq
  · have h : s.engine.table[(3 : Fin 4)] = some f := by simpa [contended] using hf
    rw [h3] at h
    cases h

theorem test_meets_CompleteEntriesAreClaimed_adopter : (contended claimable).adopter 100 2 (reader 2 4) :=
  contended_adopter (fun e he => by rw [holding_get (s := slotted (bufferedSlot (some 0)) opened) rfl he]; nofun) rfl
    (by decide +kernel)

/-- With no reader ready: the slot without an owner, after a claim and after an expiry; with two, the older one's. -/
theorem test_claims_adopter :
    let e := { reader 2 4 with state := .complete .ok, slot := some 0, timer := some 1024 }
    let expiry := Instr.claimTimerExpiry 0
    (after expiry claimable).engine.slots[0] = .valid 100 5 none 0 ∧
    [aRead, expiry].map (fun c => ((after c (contended claimable)).engine.slots[0],
      (after c (contended claimable)).engine.table.toList)) =
      List.replicate 2 (.valid 100 5 (some 2) 0, [none, some (reader 3 9), some e, none]) ∧
    (after aRead (contended claimable)).faults.codes[8] = .clean ∧
    (after expiry (contended claimable)).faults.codes[8] = .claimLost := by decide +kernel

theorem test_meets_ClaimTimersExpire :
    claimable.engine.table[(0 : Fin 4)] = some (entry .read (.complete .ok) (some 0) (some 1024)) ∧
    (entry .read (.complete .ok) (some 0) (some 1024)).timer.isSome = true ∧
    claimable.engine.table[(1 : Fin 4)] = none ∧ (entry .read .waiting none none).timer = none ∧
    (after (.claimTimerExpiry 0) claimable).faults.counters.claimLost = 1 ∧
    (after (.claimTimerExpiry 0) claimable).faults.codes[8] = .claimLost ∧
    (after (.claimTimerExpiry 0) (holding (entry .write (.complete .fail) none (some 16)) opened)).engine.table[0] = none := by
  decide +kernel

/-! ### States that meet the statements: the memory port -/

/-- An operation whose verify read is outstanding. -/
def verifying (limit : Nat) : Operation := { operation .lineWrite .head limit with phase := .verifying, verify := true }

/-- A write, a read and a verify read outstanding, with agreeing and differing bytes, below and at the limit. -/
theorem test_meets_MemoryFollowsTheAnswers :
    (flying (operation .lineWrite .head 1) opened).port.op = some (operation .lineWrite .head 1) ∧
    (6400 : Nat) / 64 = 100 ∧ 6463 / 64 = 100 ∧ 6399 / 64 ≠ 100 ∧ 6464 / 64 ≠ 100 ∧
    agreeOn (verifying 1).mask (verifying 1).data 0 = true ∧ agreeOn (verifying 1).mask (verifying 1).data (1 <<< 448) = false ∧
    (verifying 1).limit ≤ (verifying 1).attempts ∧ (verifying 2).attempts < (verifying 2).limit ∧
    (after (.memoryAnswer (.ok 5) false) (flying (operation .lineRead .head 1) opened)).memory = [] ∧
    (let s := { flying (operation .lineWrite .head 1) opened with memory := [(6400, 7)] };
      (after (.memoryAnswer .busy false) s).memory = [] ∧
      (after (.memoryAnswer .busy false) (flying (operation .lineWrite .head 2) s)).memory = [(6400, 7)]) ∧
    (let s := { flying (verifying 1) opened with memory := [(6400, 7)] };
      (after (.memoryAnswer (.ok 0) false) s).memory = [(6400, 7)] ∧
      (after (.memoryAnswer (.ok (1 <<< 448)) false) s).memory = [] ∧
      (after (.memoryAnswer (.ok (1 <<< 448)) false) (flying (verifying 2) s)).memory = [(6400, 7)] ∧
      (after .attemptTimeout s).memory = [] ∧ (after .attemptTimeout (flying (verifying 2) s)).memory = [(6400, 7)]) ∧
    Memory.read (after (.memoryAnswer (.ok 5) false) (flying (operation .lineWrite .head 1) opened)).memory 6408 = none ∧
    Memory.read (after (.memoryAnswer (.ok 5) false) (flying (operation .lineWrite .head 1) opened)).memory 6407 = some 0 := by
  decide +kernel

/-- AWAITING, VERIFYING with agreeing and differing bytes, BACKOFF and HELD. -/
theorem test_meets_AttemptsAreAnswered :
    (operation .lineWrite .head 2).attempts < (operation .lineWrite .head 2).limit ∧
    (operation .lineWrite .head 2).phase = .awaiting ∧
    (after (.memoryAnswer .busy false) (flying (operation .lineWrite .head 2) opened)).port.op =
      some { operation .lineWrite .head 2 with phase := .backoff } ∧
    (after (.memoryAnswer (.ok (1 <<< 448)) false) (flying (verifying 2) opened)).port.op =
      some { verifying 2 with phase := .backoff, next := .writeAfterMismatch } ∧
    (after (.memoryAnswer (.ok 0) false) (flying { operation .lineWrite .head 2 with verify := true } (supplied .fail opened))).port.op =
      some { operation .lineWrite .head 2 with verify := true, phase := .held, next := .firstVerify } ∧
    (after .attemptTimeout (flying { operation .lineWrite .head 2 with phase := .held } opened)).port.op =
      some { operation .lineWrite .head 2 with phase := .held } := by decide +kernel

/-- What a back-off ends with, in NORMAL and in FAIL. -/
theorem test_meets_TheBackoffEnds :
    let o := { operation .lineWrite .head 2 with phase := .backoff }
    (after .backoffEnd (flying o opened)).faults.counters.memRetry = 1 ∧
    (after .backoffEnd (flying { o with next := .writeAfterMismatch } opened)).faults.counters.verifyMismatch = 1 ∧
    (after .backoffEnd (flying { o with next := .verifyAgain } opened)).port.op =
      some { o with phase := .verifying, attempts := 2, next := .verifyAgain } ∧
    (after .backoffEnd (flying o (supplied .fail opened))).port.op = some { o with phase := .held } := by decide +kernel

/-- Two reads of the written line keep their order behind the write. -/
theorem test_freshen :
    let e := entry .read .waiting none none
    let s := { occupied opened with
      nextPos := 9
      engine := { opened.engine with
        table := #v[some { e with initiator := 1, body := { e.body with pos := 5 } }, none,
          some { e with initiator := 2, body := { e.body with pos := 3 } }, none] } }
    (after aWrite s).engine.table.map (fun x => x.map fun f => f.body.pos) = #v[some 11, none, some 10, none] ∧
    (after aWrite s).nextPos = 12 := by decide +kernel

/-- A free list, a full list, and a line that is listed. -/
theorem test_meets_FailuresListTheirLine :
    (operation .lineWrite .head 1).failsBy .attemptTimeout ∧
    (after .attemptTimeout (flying (operation .lineWrite .head 1) opened)).port.failed = [⟨100, .dataWrite, 8⟩] ∧
    (let s := flying (operation .lineWrite .head 1) opened;
      (after .attemptTimeout { s with port := { s.port with failed := (List.range 8).map fun i => ⟨i, .read, 0⟩ } }).port.overflow =
        true ∧
      (after .attemptTimeout { s with port := { s.port with failed := [⟨100, .read, 0⟩] } }).port.failed = [⟨100, .read, 0⟩]) :=
  ⟨⟨Nat.le_refl 1, .inl rfl⟩, by decide +kernel, by decide +kernel⟩

/-- A guarded write at the head at a stage, its operation in flight. -/
def headAt (stage : DrainStage) (kind : OpKind) (limit : Nat) : State :=
  draining stage (flying (operation kind .head limit) (journaled .active opened))

/-- A delayed write at the head, its data write in flight. -/
def delayedHead : State :=
  holding (entry .write .issued none none) (flying (operation .lineWrite .head 1)
    { opened with drain := some ⟨.delayedWrite 0, .dataWrite, 0, true⟩ })

theorem test_meets_TheHeadsOperationSucceeds :
    (headAt .beforeImage .lineRead 2).itemBody .postedWrite = some (body true) ∧
    (operation .lineRead .head 2).succeedsBy 5 (.memoryAnswer (.ok 5) false) ∧
    (operation .lineWrite .head 2).succeedsBy 0 (.memoryAnswer (.ok 5) false) ∧
    delayedHead.itemBody (.delayedWrite 0) = some (body false) ∧
    delayedHead.engine.table[(0 : Fin 4)] = some (entry .write .issued none none) :=
  ⟨rfl, .inl ⟨rfl, rfl, rfl⟩, .inr (.inl ⟨rfl, rfl, rfl, rfl⟩), by decide +kernel, by decide +kernel⟩

/-- The image write follows the before-image, the data write a record, and a posted and a delayed entry leave. -/
theorem test_head_succeeds :
    (after (.memoryAnswer (.ok 5) false) (headAt .beforeImage .lineRead 2)).drain = some ⟨.postedWrite, .imageWrite, 5, true⟩ ∧
    (after (.memoryAnswer (.ok 5) false) (headAt .recordHeader .lineWrite 2)).journal.written = 1 ∧
    (after (.memoryAnswer (.ok 5) false) (headAt .dataWrite .lineWrite 2)).queue = [] ∧
    (after (.memoryAnswer (.ok 5) false) (headAt .dataWrite .lineWrite 2)).faults.codes[8] = .clean ∧
    (after (.memoryAnswer (.ok 5) false) delayedHead).engine.table[0] = some (entry .write (.complete .ok) none (some 1024)) := by
  decide +kernel

/-- A delayed write that RESET UPSTREAM removed, its operation in flight. -/
def removedHead (stage : DrainStage) (limit : Nat) (s : State) : State :=
  flying (operation .lineWrite .head limit) { s with drain := some ⟨.removed (body true), stage, 0, true⟩ }

/-- Of a removed delayed write the record is added and no data write follows; the next head begins. -/
theorem test_meets_TheHeadsOperationSucceeds_removed :
    let s := removedHead .recordHeader 1 (journaled .active opened)
    let t := removedHead .dataWrite 1 (journaled .active opened)
    s.itemBody (.removed (body true)) = some (body true) ∧
    (after (.memoryAnswer (.ok 0) false) s).journal.written = 1 ∧ (after (.memoryAnswer (.ok 0) false) s).drain = none ∧
    (after (.memoryAnswer (.ok 0) false) s).port.op = none ∧ (after (.memoryAnswer (.ok 0) false) t).faults = t.faults ∧
    (after .attemptTimeout (removedHead .imageWrite 1 (journaled .active opened))).journal.state = .failed ∧
    (after .attemptTimeout (removedHead .imageWrite 1 (journaled .active opened))).faults.codes[8] = .noTraffic := by
  decide +kernel

/-- With the journal FAILED a guarded entry behind the head is dropped; W + R stays as a record is added. -/
theorem test_head_drops :
    (let s := headAt .dataWrite .lineWrite 2;
      let t := { s with queue := s.queue ++ [.write { body true with pos := 1 }], journal := { s.journal with state := .failed } };
      (after (.memoryAnswer (.ok 0) false) t).queue = [] ∧
      (after (.memoryAnswer (.ok 0) false) t).faults.codes[8] = .journalFail) ∧
    (let s := headAt .recordHeader .lineWrite 2;
      let t := { s with journal := { s.journal with lineSet := [(100, .reserved)] } };
      t.lineSetLaw ∧ (100, Mark.reserved) ∈ t.journal.lineSet ∧ (body true).holdsOwn = false ∧
      t.journal.written + t.reservations = 1 ∧
      (after (.memoryAnswer (.ok 0) false) t).journal.written + (after (.memoryAnswer (.ok 0) false) t).reservations = 1) := by
  unfold State.lineSetLaw; decide +kernel

/-- A guarded delayed head is dropped in FAILED too, an unguarded one begins, and nothing begins in FAIL. -/
theorem test_head_drops_delayed :
    let s := headAt .dataWrite .lineWrite 2
    let e := fun g => { entry .write .waiting none none with body := { body g with pos := 1 } }
    let t := fun g => holding (e g) { s with journal := { s.journal with state := .failed } }
    let u := fun g => after (.memoryAnswer (.ok 0) false) (t g)
    (u true).engine.table[0] = some { e true with state := .complete .fail, timer := some 1024 } ∧
    (u true).faults.codes[8] = .journalFail ∧ (u true).drain = none ∧
    (u false).engine.table[0] = some { e false with state := .issued } ∧
    (u false).drain = some ⟨.delayedWrite 0, .dataWrite, 0, true⟩ ∧
    (after (.memoryAnswer (.ok 0) false) (supplied .fail (t true))).engine.table[0] = some (e true) := by decide +kernel

/-- W + R stays as the record of an entry of kind OWN is added. -/
theorem test_head_own :
    let own : Body := { body true with cls := { (body true).cls with reservation := .own } }
    let s := { headAt .recordHeader .lineWrite 2 with queue := [.write own] }
    s.itemBody .postedWrite = some own ∧ own.holdsOwn = true ∧ 100 ∉ s.journal.lineSet.map (·.1) ∧
      s.journal.written + s.reservations = 1 ∧
      (after (.memoryAnswer (.ok 0) false) s).journal.written + (after (.memoryAnswer (.ok 0) false) s).reservations = 1 := by
  decide +kernel

theorem test_meets_TheHeadsOperationFails :
    (operation .lineWrite .head 1).failsBy (.memoryAnswer .error false) ∧
    (headAt .imageWrite .lineWrite 1).drain = some ⟨.postedWrite, .imageWrite, 0, true⟩ ∧
    (headAt .imageWrite .lineWrite 1).itemBody .postedWrite = some (body true) ∧
    DrainStage.imageWrite ≠ .closeHeader ∧
    (after (.memoryAnswer .error false) (headAt .imageWrite .lineWrite 1)).journal.state = .failed ∧
    (after (.memoryAnswer .error false) (headAt .dataWrite .lineWrite 1)).faults.codes[8] = .memoryFail ∧
    (after (.memoryAnswer .error false) delayedHead).engine.table[0] = some (entry .write (.complete .fail) none (some 1024)) :=
  ⟨⟨Nat.le_refl 1, .inl rfl⟩, rfl, rfl, nofun, by decide +kernel, by decide +kernel, by decide +kernel⟩

/-- A demand fill in flight, stale or not. -/
def fillingFor (stale : Bool) (limit : Nat) : State :=
  flying (operation .lineRead .demandFill limit) (slotted (.filling 100 stale (some 0)) (holding (entry .read .issued (some 0) none) opened))

theorem test_meets_DemandFillsEnd :
    (fillingFor false 1).engine.slots[(0 : Fin 8)] = .filling 100 false (some 0) ∧
    (fillingFor true 1).engine.slots[(0 : Fin 8)] = .filling 100 true (some 0) ∧
    (fillingFor false 1).engine.table[(0 : Fin 4)] = some (entry .read .issued (some 0) none) ∧
    (∀ i : Fin 8, ¬ i < 0) ∧ (operation .lineRead .demandFill 1).succeedsBy 5 (.memoryAnswer (.ok 5) false) ∧
    (operation .lineRead .demandFill 1).failsBy .attemptTimeout ∧
    (after (.memoryAnswer (.ok 5) false) (fillingFor false 1)).engine.slots[0] = .valid 100 5 (some 0) 0 ∧
    (after .attemptTimeout (fillingFor false 1)).engine.table[0] = some (entry .read (.complete .fail) none (some 1024)) ∧
    (after .attemptTimeout (fillingFor true 1)).engine.slots[0] = .filling 100 false (some 0) :=
  ⟨by decide +kernel, by decide +kernel, by decide +kernel, by decide, .inl ⟨rfl, rfl, rfl⟩, ⟨Nat.le_refl 1, .inl rfl⟩,
    by decide +kernel, by decide +kernel, by decide +kernel⟩

theorem test_meets_AnIdlePartStartsAtOnce : opened.idlePort ∧ opened.admits wRequest .none ∧
    opened.writeModeAt wRequest.line = .posted ∧ (journaled .active opened).idlePort ∧
    (journaled .active opened).admits wRequest .listed ∧ opened.admitsRead rRequest ∧
    ∀ j : Fin 8, opened.engine.slots[j] = .free := by
  refine ⟨⟨rfl, rfl, rfl, rfl, rfl, rfl, rfl, rfl⟩, ⟨unhindered_of _ rfl rfl (by decide +kernel) (by decide),
    .inl ⟨by decide +kernel, rfl⟩⟩, by decide +kernel, ⟨rfl, rfl, rfl, rfl, rfl, rfl, rfl, rfl⟩,
    ⟨unhindered_of _ rfl rfl (by decide +kernel) (by decide), .inr ⟨by decide +kernel, rfl, ?_⟩⟩,
    ⟨.inl rfl, emptyMatches _ rfl _, by decide +kernel, .inl rfl, nofun⟩, by decide +kernel⟩
  simp only [State.reserves]; decide +kernel

/-- A read of line 95, the last of its block, queues no prefetch, and one of line 94 queues line 95. -/
theorem test_prefetch :
    (after (.read 0 6080 8) opened).engine.prefetch = [] ∧ (after (.read 0 6016 8) opened).engine.prefetch = [95] ∧
    (after aWrite (journaled .active opened)).drain = some ⟨.postedWrite, .beforeImage, 0, true⟩ := by decide +kernel

/-- A durable write that becomes ready becomes ISSUED, and a depth of 3 queues three lines. -/
theorem test_meets_AnIdlePartStartsAtOnce_durable : (moded .durable opened).idlePort ∧
    (moded .durable opened).writeModeAt wRequest.line = .durable ∧
    (after aWrite (moded .durable opened)).engine.table[0].map (·.state) = some .issued ∧
    (after aWrite (moded .durable opened)).drain = some ⟨.delayedWrite 0, .dataWrite, 0, true⟩ ∧
    (after aRead { opened with engine := { opened.engine with prefetchDepth := 3 } }).engine.prefetch = [101, 102, 103] :=
  ⟨⟨rfl, rfl, rfl, rfl, rfl, rfl, rfl, rfl⟩, by decide +kernel, by decide +kernel, by decide +kernel, by decide +kernel⟩

/-- A prefetch in flight, with the read class the last granted. -/
def prefetching (s : State) : State :=
  let t := flying { operation .lineRead .prefetch 1 with failure := none } (slotted (.filling 100 false none) s)
  { t with port := { t.port with lastClass := .read } }

theorem test_meets_TheClassesAlternate :
    ({ operation .lineRead .prefetch 1 with failure := none } : Operation).failsBy .attemptTimeout ∧
    (prefetching opened).engine.slots[(0 : Fin 8)] = .filling 100 false none ∧
    (prefetching (draining .dataWrite opened)).drain = some ⟨.postedWrite, .dataWrite, 0, true⟩ ∧
    ((prefetching (draining .dataWrite opened)).itemBody .postedWrite).isSome = true ∧
    (after .attemptTimeout (prefetching (draining .dataWrite opened))).port.lastClass = .write ∧
    ((after .attemptTimeout (prefetching (holding (entry .read .waiting none none) opened))).port.op.map (·.owner)) =
      some .demandFill ∧
    (let s := prefetching opened;
      ((after .attemptTimeout { s with engine := { s.engine with prefetch := [101, 102] } }).port.op.map (·.line)) = some 101) ∧
    (after .attemptTimeout (prefetching opened)).port.op = none :=
  ⟨⟨Nat.le_refl 1, .inl rfl⟩, by decide +kernel, rfl, rfl, by decide +kernel, by decide +kernel, by decide +kernel,
    by decide +kernel⟩

/-- The end of a prefetch: VALID and unowned, adopted by a waiting read, stale, and in failure. -/
theorem test_prefetch_ends :
    let ok := Instr.memoryAnswer (.ok 5) false
    let waiting := holding (entry .read .waiting none none) opened
    (after ok (prefetching opened)).engine.slots[0] = .valid 100 5 none 0 ∧
    (prefetching opened).engine.slots[(1 : Fin 8)] = .free ∧
    (prefetching waiting).isReady (body false) = true ∧
    (after ok (prefetching waiting)).engine.slots[0] = .valid 100 5 (some 0) 0 ∧
    (after ok (prefetching waiting)).engine.table[0] = some (entry .read (.complete .ok) (some 0) (some 1024)) ∧
    (after ok (prefetching waiting)).faults.codes[8] = .clean ∧
    (after ok (slotted (.filling 100 true none) (prefetching opened))).engine.slots[0] = .free ∧
    (after .attemptTimeout (prefetching opened)).engine.slots[0] = .free ∧
    (after .attemptTimeout (prefetching opened)).faults.counters.memRetry = 1 := by decide +kernel

/-- A prefetch in flight and the commands that end it. -/
theorem test_meets_DemandFillsEnd_prefetch :
    let op := { operation .lineRead .prefetch 1 with failure := none }
    (prefetching opened).port.op = some op ∧ op.succeedsBy 5 (.memoryAnswer (.ok 5) false) ∧ op.failsBy .attemptTimeout ∧
      (prefetching opened).engine.slots[(0 : Fin 8)] = .filling 100 false none ∧ (prefetching opened).journal.state ≠ .failed :=
  ⟨rfl, .inl ⟨rfl, rfl, rfl⟩, ⟨Nat.le_refl 1, .inl rfl⟩, by decide +kernel, by decide⟩

/-- Two readers of the prefetch's line wait: the older adopts its slot. -/
theorem test_meets_DemandFillsEnd_adopter :
    (contended (prefetching opened)).adopter 100 2 (reader 2 4) ∧
    (after (.memoryAnswer (.ok 5) false) (contended (prefetching opened))).engine.slots[0] = .valid 100 5 (some 2) 0 :=
  ⟨contended_adopter (fun e he => by have h : (none : Option DelayedEntry) = some e := he; cases h) rfl (by decide +kernel),
    by decide +kernel⟩

/-- A demand fill or a prefetch whose slot RESET UPSTREAM freed, beside a read that came later. -/
def freed (o : Operation) : State := flying o (holding (entry .read .waiting none none) opened)

/-- The result reaches nothing, and the later read's own fill follows. -/
theorem test_meets_DemandFillsEnd_freed :
    let demand := { operation .lineRead .demandFill 1 with failure := some .read }
    let prefetch := { operation .lineRead .prefetch 1 with failure := none }
    let ok := Instr.memoryAnswer (.ok 5) false
    (∀ (i : Fin 8) l st o, (freed demand).engine.slots[i] ≠ .filling l st o) ∧ (freed demand).engine = (freed prefetch).engine ∧
    ∀ t ∈ [after ok (freed demand), after .attemptTimeout (freed demand), after ok (freed prefetch),
        after .attemptTimeout (freed prefetch)],
      t.engine.table[0] = some (entry .read .issued (some 0) none) ∧ t.engine.slots[0] = .filling 100 false (some 0) ∧
      t.faults.codes[8] = .noTraffic := by
  refine ⟨fun i l st o h => ?_, by decide +kernel, by decide +kernel⟩
  have h0 : opened.engine.slots[i] = .filling l st o := h
  fin_cases i <;> cases h0

/-- The failure of such a demand fill is listed and that of such a prefetch counted. -/
theorem test_freed_fails :
    (after .attemptTimeout (freed { operation .lineRead .demandFill 1 with failure := some .read })).port.failed = [⟨100, .read, 8⟩] ∧
    (let t := after .attemptTimeout (freed { operation .lineRead .prefetch 1 with failure := none });
      t.port.failed = [] ∧ t.faults.counters.memRetry = 1) := by decide +kernel

/-- Table R112: the verify flag, the attempt limit, the failure kind and the region index of what is granted to the head at its
five stages, to INIT JOURNAL, to a demand fill and to a prefetch. -/
theorem test_granted :
    let next := fun (c : Instr) (s : State) => (after c s).port.op.map fun o => (o.verify, o.limit, o.failure, o.region.val)
    let ok := Instr.memoryAnswer (.ok 5) false
    let verified := fun st => flying { verifying 2 with data := 5, mask := 0xFF } (headAt st .lineWrite 2)
    [next aWrite (journaled .active opened), next ok (headAt .beforeImage .lineRead 2), next ok (verified .imageWrite),
      next ok (verified .recordHeader), next (.initJournal 9) (journaled .pending opened), next aRead opened] =
      [some (false, 16, some .read, 8), some (true, 16, some .journal, 9), some (true, 16, some .journal, 9),
        some (false, 16, some .dataWrite, 8), some (true, 16, some .journal, 9), some (false, 16, some .read, 8)] ∧
    (let s := prefetching opened;
      next .attemptTimeout { s with engine := { s.engine with prefetch := [101] } } = some (false, 1, none, 9)) := by
  decide +kernel

/-- A before-image read in flight, the last grant of the write class, beside a ready WAITING read of another line. -/
def alternating : State :=
  let e := entry .read .waiting none none
  holding { e with body := { e.body with line := 200 } } (headAt .beforeImage .lineRead 2)

theorem test_meets_TheClassesAlternate_read :
    alternating.port.lastClass = .write ∧ alternating.startup.procedure = .idle ∧ alternating.supply.state ≠ .fail ∧
    alternating.noWriteBefore { body false with line := 200 } ∧ alternating.engine.slots[(0 : Fin 8)] = .free ∧
    alternating.itemBody .postedWrite = some (body true) ∧
    ((after (.memoryAnswer (.ok 5) false) alternating).port.op.map fun o => (o.owner, o.line)) = some (.demandFill, 200) ∧
    (after (.memoryAnswer (.ok 5) false) alternating).drain = some ⟨.postedWrite, .imageWrite, 5, true⟩ :=
  ⟨by decide +kernel, by decide +kernel, by decide +kernel, State.isReady_iff.mp (by decide +kernel), by decide +kernel,
    by decide +kernel, by decide +kernel, by decide +kernel⟩


/-! ### States that meet the statements: journal commands -/

/-- The result code of the response that a command fixes. -/
def resultOf (c : Instr) (s : State) : Byte := ((after c s).mgmt.response.drop 1).headD 9

/-- The part with a long command running. -/
def longing (c : LongCommand) (s : State) : State := { s with mgmt := { s.mgmt with longCmd := some c } }

/-- The close marker at the head, its header write in flight. -/
def closing : State :=
  longing .closeEpoch (flying (operation .lineWrite .head 1) { journaled .closing opened with
    queue := [.marker 0], nextPos := 1, drain := some ⟨.closeMarker, .closeHeader, 0, true⟩ })

/-- BUSY, STATE in STARTING and with the journal OFF, QFULL, and TAKEN; and both ends. -/
theorem test_meets_CloseEpochRunsToItsEnd :
    [longing .initJournal opened, phased .loading .starting (journaled .active opened), opened,
      filled (journaled .active opened), journaled .active opened, journaled .failed opened].map (resultOf .closeEpoch) =
      [2, 3, 3, 4, 1, 1] ∧
    closing.port.op = some (operation .lineWrite .head 1) ∧ closing.drain = some ⟨.closeMarker, .closeHeader, 0, true⟩ ∧
    (after (.memoryAnswer (.ok 0) false) closing).journal.epoch = 8 ∧
    (after (.memoryAnswer (.ok 0) false) closing).mgmt.lastLong = .ok ∧
    (after .attemptTimeout closing).journal.state = .failed ∧ nextEpoch 0xFFFFFFFF = 1 ∧ nextEpoch 7 = 8 := by decide +kernel

/-- The part with every event unmasked. -/
def unmasked (s : State) : State := { s with faults := { s.faults with mask := 0 } }

/-- JOURNAL and INHIBIT at the taking, JOURNAL and LONG_DONE at the end, of CLOSE EPOCH and INIT JOURNAL. -/
theorem test_journal_events :
    (after .closeEpoch (unmasked (journaled .active opened))).faults.events = 0x018 ∧
    (after (.memoryAnswer (.ok 0) false) (unmasked closing)).faults.events = 0x030 ∧
    (after (.initJournal 9) (unmasked (journaled .unknown opened))).faults.events = 0x018 ∧
    (after .rollback (unmasked (journaled .active opened))).faults.events = 0x018 ∧
    (after (.writeJournalPlacement 0 1) (unmasked opened)).faults.events = 0x018 ∧
    (after .attemptTimeout (unmasked (rolling .lineWrite .rollHeader none))).faults.events = 0x05B := by decide +kernel

/-- ARG for 0 and for E with W above 0, BUSY, STATE with work and with no journal, and TAKEN; and both ends. -/
theorem test_meets_InitJournalRunsToItsEnd :
    resultOf (.initJournal 0) opened = 5 ∧ resultOf (.initJournal 7) fullJournal = 5 ∧
    resultOf (.initJournal 1) (longing .initJournal opened) = 2 ∧ resultOf (.initJournal 1) opened = 3 ∧
    resultOf (.initJournal 1) (filled (journaled .active opened)) = 3 ∧
    resultOf (.initJournal 7) (journaled .active opened) = 1 ∧
    ((after (.initJournal 9) (journaled .unknown opened)).port.op.map (·.line)) = some 0 ∧
    (let s := longing .initJournal (flying (operation .lineWrite .initHeader 1) (journaled .closing opened));
      (after (.memoryAnswer (.ok 0) false) s).journal.state = .active ∧
      (after .attemptTimeout s).mgmt.lastLong = .failed) := by decide +kernel

/-- BUSY, STATE in STARTING, with the journal UNKNOWN and with work, and TAKEN with W 31 and 0. -/
theorem test_meets_RollbackIsTaken :
    [longing .initJournal opened, phased .loading .starting (journaled .active opened), journaled .unknown opened,
      filled (journaled .active opened), fullJournal, phased .done .hold (journaled .pending opened)].map (resultOf .rollback) =
      [2, 3, 3, 3, 1, 1] ∧
    (after .rollback fullJournal).startup.procedure = .rollRecord 30 ∧
    ((after .rollback fullJournal).port.op.map (·.line)) = some 61 ∧
    (after .rollback (journaled .active opened)).startup.procedure = .rollHeader := by decide +kernel

/-- Size 1024 at page 15360 and 15361, size 1025, page 16384, size 0, and STATE in STARTING. -/
theorem test_meets_WriteJournalPlacementMovesTheJournal : opened.takesFrame = true ∧
    [(15360, 1024), (15361, 1024), (0, 1025), (16384, 0), (16383, 1), (16383, 0)].map
      (fun x => resultOf (.writeJournalPlacement x.1 x.2) opened) = [0, 5, 5, 5, 0, 0] ∧
    resultOf (.writeJournalPlacement 0 0) (phased .loading .starting opened) = 3 ∧
    (after (.writeJournalPlacement 0 1) opened).journal.state = .unknown ∧
    (after (.writeJournalPlacement 0 0) fullJournal).journal = ⟨0, 0, .off, 7, 0, []⟩ := by decide +kernel

/-! ### States that meet the statements: supply and WLOCK -/

/-- The part with all filters running. -/
def filtering (s : State) : State := { s with supply := { s.supply with timers := ⟨some 8, some 2, some 100, some 100, some 100⟩ } }

/-- Where the five filters lead from the three states, and a filter that is not running. -/
theorem test_meets_SupplyFiltersMoveTheState :
    [SupplyState.normal, .warn, .fail].map (fun x => [SupplyFilter.belowWarn, .belowFail, .notBelowWarn, .between,
      .failRisen].map fun f => (after (.supplyFilterExpiry f) (filtering (supplied x opened))).supply.state) =
    [[.warn, .fail, .normal, .normal, .normal], [.warn, .fail, .normal, .warn, .warn], [.fail, .fail, .normal, .warn, .fail]] ∧
    opened.supply.timers.belowWarn = none := by decide +kernel

/-- A move to FAIL, and one from NORMAL to WARN under a busy port: beside the supply unit INHIBIT alone. -/
theorem test_supply_frames :
    let s := filtering (headAt .imageWrite .lineWrite 2)
    let toFail := after (.supplyFilterExpiry .belowFail) s
    let toWarn := after (.supplyFilterExpiry .belowWarn) s
    toFail = { s with supply := toFail.supply, faults := (s.raise .inhibit).faults } ∧ toFail.supply.state = .fail ∧
    toWarn = { s with supply := toWarn.supply, faults := (s.raise .inhibit).faults } ∧ toWarn.supply.state = .warn := by
  decide +kernel

/-- From WARN to NORMAL: SUPPLY_WAIT ends with a journal and without one, and otherwise the work goes on as it stands. -/
theorem test_meets_LeavingFailResumesTheWork_normal :
    let s := filtering (supplied .warn opened)
    let wait := fun x => after (.supplyFilterExpiry .notBelowWarn) (phased .supplyWait .starting x)
    let busy := filtering (supplied .warn (headAt .imageWrite .lineWrite 2))
    let went := after (.supplyFilterExpiry .notBelowWarn) busy
    s.supply.state = .warn ∧ s.supply.timers.notBelowWarn.isSome = true ∧
    (wait (journaled .unknown s)).startup.phase = .scanning ∧
    ((wait (journaled .unknown s)).port.op.map fun o => (o.owner, o.line, o.failure, o.region.val)) =
      some (.scan, 0, some .journal, 9) ∧
    (wait s).startup.portState = .opened ∧ went = { busy with supply := went.supply } ∧ went.supply.state = .normal := by
  decide +kernel

/-- An operation in HELD, and start-ups in SUPPLY_WAIT with a journal and without one. -/
theorem test_meets_LeavingFailResumesTheWork :
    let s := filtering (supplied .fail opened)
    s.supply.timers.notBelowWarn.isSome = true ∧
    (after (.supplyFilterExpiry .notBelowWarn) (flying { operation .lineWrite .head 2 with phase := .held } s)).port.op =
      some { operation .lineWrite .head 2 with attempts := 2 } ∧
    (after (.supplyFilterExpiry .notBelowWarn) (phased .supplyWait .starting (journaled .unknown s))).startup.phase = .scanning ∧
    (after (.supplyFilterExpiry .notBelowWarn) (phased .supplyWait .starting s)).startup.portState = .opened := by
  decide +kernel

/-- What a part that leaves FAIL for WARN is left with: the drain, the entries queued and the operation in flight. -/
def leaving (s : State) : Option (DrainItem × DrainStage) × Nat × Option (Owner × Nat) :=
  let t := after (.supplyFilterExpiry .between) s
  (t.drain.map fun d => (d.item, d.stage), t.queue.length, t.port.op.map fun o => (o.owner, o.line))

/-- The part in FAIL with its filters running. -/
def failing : State := filtering (supplied .fail opened)

/-- The part with a posted write that waits. -/
def queued (guarded : Bool) (s : State) : State := { s with queue := [.write (body guarded)], nextPos := 1 }

/-- In FAIL with no drain: a posted write begins, a guarded one is dropped in FAILED; a paused drain, a scan and INIT JOURNAL go
on. -/
theorem test_meets_LeavingFailResumesTheWork_work :
    [queued false failing, queued true (journaled .failed failing), draining .imageWrite (journaled .active failing),
      proceeding (.scanRecord 3) (journaled .unknown failing), longing .initJournal (journaled .closing failing)].map leaving =
      [(some (.postedWrite, .dataWrite), 1, some (.head, 100)), (none, 0, none),
        (some (.postedWrite, .imageWrite), 1, some (.head, 2)), (none, 0, some (.scan, 7)), (none, 0, some (.initHeader, 0))] ∧
    failing.port.lastClass = .write ∧ failing.engine.prefetch = [] := by decide +kernel

/-- In FAIL with a ready read and a posted write waiting: with the write class granted last the read goes first. -/
theorem test_meets_LeavingFailResumesTheWork_read :
    let e := { entry .read .waiting none none with body := { body false with line := 200 } }
    let s := holding e (queued false failing)
    s.oldestReader 0 e ∧ leaving s = (some (.postedWrite, .dataWrite), 1, some (.demandFill, 200)) := by
  refine ⟨⟨⟨by simp [holding], rfl, rfl, rfl, State.isReady_iff.mp (by decide +kernel)⟩, fun q f hq hf => ?_⟩, by decide +kernel⟩
  have h0 : (queued false failing).engine.table = Vector.replicate 4 none := rfl
  simp only [holding, h0] at hf
  fin_cases q <;> simp at hf hq

/-- To WARN: the HELD operation goes on with its count, and SUPPLY_WAIT lasts. -/
theorem test_meets_LeavingFailResumesTheWork_warn :
    let s := filtering (supplied .fail opened)
    let o := { operation .lineWrite .head 2 with phase := .held, next := .writeAfterMismatch }
    s.supply.timers.between.isSome = true ∧
    (after (.supplyFilterExpiry .between) (flying o s)).port.op = some { o with phase := .awaiting, attempts := 2 } ∧
    (after (.supplyFilterExpiry .between) (flying o s)).faults.counters.verifyMismatch = 1 ∧
    (after (.supplyFilterExpiry .between) (phased .supplyWait .starting s)).startup.phase = .supplyWait ∧
    (after (.supplyFilterExpiry .between) s).supply.state = .warn ∧
    (after (.supplyFilterExpiry .between) s).supply.latches.warn = true := by decide +kernel

/-- Falls to 2.80 V, just below it, below VFAIL and below 2.20 V, a bounce, and a rise in FAIL. -/
theorem test_meets_ComparatorChangesRunTheFilters :
    (after (.comparatorChange .from280) opened).supply.belowWarn = false ∧
    (after (.comparatorChange .from270) opened).supply.timers = ⟨some 8, none, none, some 100, none⟩ ∧
    (after (.comparatorChange .from220) opened).supply.timers = ⟨some 8, some 2, none, none, none⟩ ∧
    (after (.comparatorChange .below220) opened).startup.inReset = true ∧
    (after (.comparatorChange .from300) (after (.comparatorChange .from270) opened)).supply.latches.glitch = true ∧
    (after (.comparatorChange .from255) State.reset).supply.timers.failRisen = some 100 ∧
    (after (.comparatorChange .below220) (after .powerOnReset opened)).startup.inReset = true := by decide +kernel

/-- A watch opens at a fall in NORMAL, stays shut at a rise there, and opens at a rise in FAIL; GLITCH raises INHIBIT. -/
theorem test_watches :
    (after (.comparatorChange .from270) opened).supply.warnWatch = true ∧
    (after (.comparatorChange .from220) opened).supply.failWatch = true ∧
    (after (.comparatorChange .from300) (after (.comparatorChange .from270) opened)).supply.warnWatch = false ∧
    (after (.comparatorChange .from300) State.reset).supply.failWatch = true ∧
    (after (.comparatorChange .from300) (after (.comparatorChange .from270) (unmasked opened))).faults.events = 0x008 := by
  decide +kernel

/-- VWARN to below in FAIL with VFAIL not below: no watch and no GLITCH at the change back, though the 100 µs of the condition
run (assumption log 24). -/
theorem test_warn_in_fail :
    let s := after (.comparatorChange .from270) (supplied .fail opened)
    s.supply.warnWatch = false ∧ s.supply.timers.between = some 100 ∧
      (after (.comparatorChange .from300) s).supply.latches.glitch = false := by decide +kernel

theorem test_meets_WlockIsFiltered : opened.supply.wlockPin = false ∧ opened.supply.wlockTimer = some 1 ∧
    (after .wlockFilterExpiry opened).supply.wlockTimer = none ∧
    (after .wlockFilterExpiry (after (.wlockPinChange true) opened)).supply.latches.wlock = true := by decide +kernel

/-- A masked and an unmasked cause, a counter that saturates, a more and a less severe code. -/
theorem test_meets_FaultsAreRecorded :
    let u := { opened with faults := { opened.faults with mask := 0, counters := ⟨65534, 65535, 0, 0, 0, 0⟩ } }
    (opened.raise .journal).faults.events = 0 ∧ (u.raise .journal).faults.events = 0x010 ∧
    (u.count .memRetry).faults.events = 0x100 ∧ (u.count .memRetry).faults.counters.memRetry = 65535 ∧
    (u.count .verifyMismatch).faults.counters.verifyMismatch = 65535 ∧
    (u.report 8 .claimLost).faults.events = 0x004 ∧ (u.report 8 .refused).faults.events = 0 ∧
    ((u.report 8 .claimLost).report 8 .refused).faults.codes[8] = .claimLost := by decide +kernel

/-! ### A step takes the front of the queue -/

/-- The front command runs and the rest waits; an empty queue is one byte time. -/
theorem test_step : (match step { opened with pending := [.setInhibit, .status] } with
    | .next t => (t.pending, t.supply.software)
    | .fault _ => ([], false)
    | .refused _ => ([], false)) = ([.status], true) := by decide +kernel

end Sys2Proof.Tests
end

section
/-! O26 (R8, R19, R20): WRITE GUARD FILTER and READ GUARD FILTER, and the bits of a number sent as bytes. -/

namespace Sys2Proof.Machine

/-! ### The bytes of a number, most significant first -/

@[simp] theorem bytesOf_length (n v : Nat) : (bytesOf n v).length = n := by simp [bytesOf]

/-- Byte `k` of `n` bytes has `n - 1 - k` bytes below it. -/
theorem bytesOf_getD {n k : Nat} (v : Nat) (hk : k < n) :
    (bytesOf n v).getD k 0 = BitVec.ofNat 8 (v / 256 ^ (n - 1 - k)) := by
  rw [List.getD_eq_getElem _ _ (by simpa using hk)]
  simp [bytesOf]

/-- The byte with `j` bytes below it carries the bits from `8 * j` on. -/
theorem getLsbD_ofNat_div_pow (v j : Nat) {b : Nat} (hb : b < 8) :
    (BitVec.ofNat 8 (v / 256 ^ j)).getLsbD b = v.testBit (8 * j + b) := by
  have hpow : 256 ^ j = 2 ^ (8 * j) := by rw [Nat.pow_mul]
  rw [BitVec.getLsbD_ofNat, hpow, Nat.testBit_div_two_pow]
  simp [hb, Nat.add_comm]

/-- The layout of R8 for a number of any length: bit `i` is bit `i % 8` of byte `n - 1 - i / 8`. -/
theorem bytesOf_getLsbD {n i : Nat} (v : Nat) (hi : i < 8 * n) :
    ((bytesOf n v).getD (n - 1 - i / 8) 0).getLsbD (i % 8) = v.testBit i := by
  have hbelow : n - 1 - (n - 1 - i / 8) = i / 8 := by omega
  rw [bytesOf_getD v (by omega), hbelow, getLsbD_ofNat_div_pow v _ (Nat.mod_lt i (by decide)), Nat.div_add_mod]

/-! ### The two commands -/

/-- R19: WRITE GUARD FILTER leaves the frame of the state whose filter is the argument. -/
theorem execWriteGuardFilter_eq (filter : BitVec 64) {s : State} (h : s.takesFrame = true) :
    execWriteGuardFilter filter s = .next (frameDone (.writeGuardFilter filter) .ok [] s
      (s.setClassifier { s.classifier with guardFilter := filter })) :=
  manage_of_flagged h rfl

/-- R20: READ GUARD FILTER leaves the frame of the state as it was, with the filter's eight bytes. -/
theorem execReadGuardFilter_eq {s : State} (h : s.takesFrame = true) :
    execReadGuardFilter s =
      .next (frameDone .readGuardFilter .ok (bytesOf 8 s.classifier.guardFilter.toNat) s s) :=
  manage_of_flagged h rfl

/-- Settles O26: each command by what its frame leaves, the reply's bits by the layout of `bytesOf`. -/
theorem writeGuardFilterThenReadGuardFilter : Obligations.WriteGuardFilterThenReadGuardFilter := by
  intro filter s h
  refine ⟨execWriteGuardFilter_eq filter h, bytesOf 8 s.classifier.guardFilter.toNat,
    execReadGuardFilter_eq h, bytesOf_length _ _, fun i hi => ?_⟩
  exact bytesOf_getLsbD _ (by omega)

end Sys2Proof.Machine
end

section
/-! O22 (R122, R123): READ FAILED LINES, the number that sent bytes give, and where an entry stands in the reply. -/

namespace Sys2Proof.Machine

/-! ### The number that the bytes of a number give -/

theorem natOf_append_singleton (bs : List Byte) (b : Byte) : natOf (bs ++ [b]) = natOf bs * 256 + b.toNat := by
  simp [natOf]

/-- The last byte is the lowest, and those before it are the bytes of what stands above it. -/
theorem bytesOf_succ (n v : Nat) : bytesOf (n + 1) v = bytesOf n (v / 256) ++ [BitVec.ofNat 8 v] := by
  have habove : ∀ i ∈ List.range n,
      BitVec.ofNat 8 (v / 256 ^ (n + 1 - 1 - i)) = BitVec.ofNat 8 (v / 256 / 256 ^ (n - 1 - i)) := by
    intro i hi
    have hlt : i < n := List.mem_range.mp hi
    have hexp : n + 1 - 1 - i = (n - 1 - i) + 1 := by omega
    rw [hexp, Nat.pow_succ', Nat.div_div_eq_div_mul]
  simp only [bytesOf, List.range_succ, List.map_append, List.map_cons, List.map_nil, List.map_congr_left habove]
  simp

/-- A number comes back from its bytes, but for what `n` bytes cannot carry. -/
theorem natOf_bytesOf (n v : Nat) : natOf (bytesOf n v) = v % 256 ^ n := by
  induction n generalizing v with
  | zero => simp [natOf, bytesOf, Nat.mod_one]
  | succ n ih =>
    rw [bytesOf_succ, natOf_append_singleton, ih, BitVec.toNat_ofNat, Nat.pow_succ' (n := n), Nat.mod_mul]
    omega

/-! ### The bytes of an entry and of a flag -/

@[simp] theorem FailedLine.bytes_length (f : FailedLine) : f.bytes.length = 5 := by simp [FailedLine.bytes]

/-- The bytes of an entry begin with its line. -/
theorem FailedLine.natOf_take_bytes (f : FailedLine) : natOf (f.bytes.take 3) = f.line % 16777216 := by
  rw [FailedLine.bytes, List.take_left' (bytesOf_length 3 f.line)]
  exact natOf_bytesOf 3 f.line

/-- The fourth byte is the kind. -/
theorem FailedLine.bytes_kind (f : FailedLine) : f.bytes[3]? = some f.kind.code := by
  simp [FailedLine.bytes]

/-- The fifth byte is the region index. -/
theorem FailedLine.bytes_region (f : FailedLine) : f.bytes[4]? = some (BitVec.ofNat 8 f.region.val) := by
  simp [FailedLine.bytes]

/-- The codes of the failure kinds are their places in the order in which R123 names them. -/
theorem FailureKind.getElem?_code (k : FailureKind) :
    [FailureKind.dataWrite, .read, .journal, .rollback][k.code.toNat]? = some k := by cases k <;> rfl

/-- 00h is clear and 01h is set. -/
theorem getElem?_boolByte (b : Bool) : [false, true][(boolByte b).toNat]? = some b := by cases b <;> rfl

/-! ### The entries in the reply -/

/-- In blocks of one length `k` set end to end, the block of element `i` begins at `k * i`. -/
theorem drop_flatMap_of_length {α β : Type} {g : α → List β} {k : Nat} (hg : ∀ a, (g a).length = k) {l : List α}
    {i : Nat} {a : α} (ha : l[i]? = some a) : (l.flatMap g).drop (k * i) = g a ++ (l.drop (i + 1)).flatMap g := by
  induction l generalizing i with
  | nil => simp at ha
  | cons x xs ih =>
    cases i with
    | zero => simp_all
    | succ i =>
      have hskip : k * (i + 1) = (g x).length + k * i := by rw [hg x, Nat.mul_succ, Nat.add_comm]
      rw [List.flatMap_cons, hskip, List.drop_length_add_append, ih (by simpa using ha), List.drop_succ_cons]

theorem State.failedReply_length (s : State) : s.failedReply.length = 2 + 5 * s.port.failed.length := by
  have hentries : (s.port.failed.flatMap FailedLine.bytes).length = 5 * s.port.failed.length := by
    simp [List.length_flatMap, Nat.mul_comm]
  rw [State.failedReply, List.length_append, hentries]
  rfl

/-- R123: behind the count and the flag, the five bytes of entry `i` stand after those of the entries older than it. -/
theorem State.drop_failedReply {s : State} {i : Nat} {f : FailedLine} (hf : s.port.failed[i]? = some f) :
    s.failedReply.drop (2 + 5 * i) = f.bytes ++ (s.port.failed.drop (i + 1)).flatMap FailedLine.bytes := by
  rw [← drop_flatMap_of_length FailedLine.bytes_length hf, Nat.add_comm]
  rfl

/-- A byte of entry `i` as a byte of the reply. -/
theorem State.getElem?_failedReply {s : State} {i j n : Nat} {f : FailedLine} (hf : s.port.failed[i]? = some f)
    (hj : j < 5) (hn : n = 2 + 5 * i + j) : s.failedReply[n]? = f.bytes[j]? := by
  rw [hn, ← List.getElem?_drop, State.drop_failedReply hf, List.getElem?_append_left (by simpa using hj)]

/-! ### The command -/

/-- R123: READ FAILED LINES leaves the frame of the state whose list is empty and whose flag is clear. -/
theorem execReadFailedLines_eq {s : State} (h : s.takesFrame = true) :
    execReadFailedLines s = .next (frameDone .readFailedLines .ok s.failedReply s
      (s.setPort { s.port with failed := [], overflow := false })) :=
  manage_of_flagged h rfl

/-- Settles O22: the command by what its frame leaves, each entry by its place in the reply. -/
theorem readFailedLinesReportsAndEmpties : Obligations.ReadFailedLinesReportsAndEmpties := by
  intro s h
  refine ⟨s.failedReply, execReadFailedLines_eq h, s.failedReply_length, rfl, getElem?_boolByte s.port.overflow,
    fun i f hf => ⟨?line, ?kind, ?region⟩⟩
  case line =>
    rw [State.drop_failedReply hf, List.take_append_of_le_length (by simp), f.natOf_take_bytes]
  case kind =>
    rw [List.getD_eq_getElem?_getD, State.getElem?_failedReply hf (j := 3) (by decide) (by omega), f.bytes_kind]
    exact f.kind.getElem?_code
  case region =>
    rw [State.getElem?_failedReply hf (j := 4) (by decide) (by omega), f.bytes_region]

end Sys2Proof.Machine
end

section
/-! O29 (R140): OPEN PORT, an equation for each of its three cases, and the command's frame in each. -/

namespace Sys2Proof.Machine

/-! ### What OPEN PORT does -/

/-- R140: in HOLD with the journal OFF or ACTIVE the port becomes OPEN. -/
theorem State.openPort_of_held {s : State} (hhold : s.startup.portState = .hold)
    (hjournal : s.journal.state = .off ∨ s.journal.state = .active) :
    s.openPort = (bareReply .ok, s.setStartup { s.startup with portState := .opened }) :=
  if_pos ⟨hhold, hjournal⟩

/-- R140: in OPEN nothing changes, and the result is OK. -/
theorem State.openPort_of_opened {s : State} (hopen : s.startup.portState = .opened) :
    s.openPort = (bareReply .ok, s) := by
  simp [State.openPort, hopen]

/-- R140: everywhere else nothing changes, and the result is STATE. -/
theorem State.openPort_of_refused {s : State}
    (hheld : ¬ (s.startup.portState = .hold ∧ (s.journal.state = .off ∨ s.journal.state = .active)))
    (hopen : s.startup.portState ≠ .opened) : s.openPort = (bareReply .state, s) := by
  rw [State.openPort, if_neg hheld, if_neg hopen]

/-! ### The command

The end of the request touches the management port alone, so the case of the state before the frame is the case of the
state on which the command acts. -/

/-- Settles O29: in each case by what OPEN PORT does at the end of its request. -/
theorem openPortOpensAHeldPort : Obligations.OpenPortOpensAHeldPort := by
  intro s h
  refine ⟨fun hhold hjournal => ?held, fun hopen => ?opened, fun hheld hopen => ?refused⟩
  case held => exact manage_of_flagged h (State.openPort_of_held (s := s.endRequest _) hhold hjournal)
  case opened => exact manage_of_flagged h (State.openPort_of_opened (s := s.endRequest _) hopen)
  case refused => exact manage_of_flagged h (State.openPort_of_refused (s := s.endRequest _) hheld hopen)

end Sys2Proof.Machine
end

section
/-! O19 (R151, R152, R153): READ INHIBITS, the bits of its two reply bytes and the latches that it leaves. -/

namespace Sys2Proof.Machine

/-! ### The two reply bytes -/

/-- R153: the first reply byte, the source states. -/
def State.inhibitStatesByte (s : State) : Byte :=
  flagByte (s.inhibitHolds .wlock) (s.inhibitHolds .software) (s.inhibitHolds .warn) (s.inhibitHolds .fail)
    (s.inhibitHolds .journal) false false false

/-- R153: the second reply byte, six latches and two zero bits. -/
def Latches.byte (l : Latches) : Byte :=
  flagByte l.wlock l.software l.warn l.fail l.journal l.glitch false false

theorem State.inhibitReply_eq (s : State) : s.inhibitReply = [s.inhibitStatesByte, s.supply.latches.byte] := rfl

/-- R151: the journal inhibit holds in every journal state but two. -/
theorem JournalState.inhibits_eq (j : JournalState) : j.inhibits = !(j == .active || j == .off) := by
  cases j <;> rfl

/-! ### The latches that are left -/

/-- R153: the latches that a read-out leaves beside the states byte of its reply: those whose state holds, never GLITCH. -/
def Latches.keptBy (l : Latches) (states : Byte) : Latches :=
  ⟨l.wlock && states.getLsbD 0, l.software && states.getLsbD 1, l.warn && states.getLsbD 2, l.fail && states.getLsbD 3,
    l.journal && states.getLsbD 4, false⟩

/-- The latches are cleared by the same states that the reply shows. -/
theorem State.clearLatches_eq (s : State) :
    s.clearLatches = s.setLatches (s.supply.latches.keptBy s.inhibitStatesByte) := by
  obtain ⟨hwlock, hsoftware, hwarn, hfail, hjournal, -⟩ := flagByte_bits (s.inhibitHolds .wlock)
    (s.inhibitHolds .software) (s.inhibitHolds .warn) (s.inhibitHolds .fail) (s.inhibitHolds .journal) false false false
  rw [Latches.keptBy, State.inhibitStatesByte, hwlock, hsoftware, hwarn, hfail, hjournal, State.clearLatches]

/-! ### The command -/

/-- R153: READ INHIBITS leaves the frame of the state whose latches are those that the read-out keeps. -/
theorem execReadInhibits_eq {s : State} (h : s.takesFrame = true) :
    execReadInhibits s = .next (frameDone .readInhibits .ok [s.inhibitStatesByte, s.supply.latches.byte] s
      (s.setLatches (s.supply.latches.keptBy s.inhibitStatesByte))) := by
  rw [← State.clearLatches_eq, ← State.inhibitReply_eq]
  exact manage_of_flagged h rfl

/-- Settles O19: the command by what its frame leaves, each reply byte by its bits. -/
theorem readInhibitsReportsAndClears : Obligations.ReadInhibitsReportsAndClears := by
  intro s h
  refine ⟨s.inhibitStatesByte, s.supply.latches.byte, s.supply.latches.keptBy s.inhibitStatesByte,
    execReadInhibits_eq h, ?states, flagByte_bits .., rfl⟩
  case states =>
    rw [← JournalState.inhibits_eq]
    exact flagByte_bits ..

end Sys2Proof.Machine
end

section
/-! O20 (R155, R157): READ REGION CODES, the code byte of each region in the reply. -/

namespace Sys2Proof.Machine

/-! ### The reply -/

theorem State.codesReply_length (s : State) : s.codesReply.length = 9 := by simp [State.codesReply]

/-- R157: byte `i` of the reply is the code byte of region `i`. -/
theorem State.getElem?_codesReply (s : State) (i : Fin 9) :
    s.codesReply[i.val]? = some (BitVec.ofNat 8 s.faults.codes[i].byte) := by
  simp [State.codesReply]

/-! ### The command -/

/-- R157: READ REGION CODES leaves the frame of the state in which every code is NO_TRAFFIC. -/
theorem execReadRegionCodes_eq {s : State} (h : s.takesFrame = true) :
    execReadRegionCodes s = .next (frameDone .readRegionCodes .ok s.codesReply s
      (s.setCodes (Vector.replicate 9 .noTraffic))) :=
  manage_of_flagged h rfl

/-- Settles O20: the command by what its frame leaves, each reply byte by the code of its region. -/
theorem readRegionCodesReportsAndClears : Obligations.ReadRegionCodesReportsAndClears := by
  intro s h
  refine ⟨s.codesReply, execReadRegionCodes_eq h, s.codesReply_length, fun i => ?byte⟩
  case byte =>
    rw [s.getElem?_codesReply i]
    cases s.faults.codes[i] <;> rfl

end Sys2Proof.Machine
end

section
/-! O21 (R158, R159): READ COUNTERS, an equation for each clear flag, and where a counter stands in the reply. -/

namespace Sys2Proof.Machine

/-! ### The reply -/

/-- The bytes of a number that fits them give it back, whatever bytes follow. -/
theorem natOf_take_bytesOf_append {n v : Nat} (hv : v < 256 ^ n) (rest : List Byte) :
    natOf ((bytesOf n v ++ rest).take n) = v := by
  rw [List.take_left' (bytesOf_length n v), natOf_bytesOf, Nat.mod_eq_of_lt hv]

/-- R159: the counters in the order in which the reply carries them. -/
def CounterKind.replyOrder : List CounterKind :=
  [.memRetry, .verifyMismatch, .claimLost, .noRoom, .journalRecords, .frameErrors]

theorem Counters.reply_eq (c : Counters) :
    c.reply = CounterKind.replyOrder.flatMap fun k => bytesOf 2 (c.get k).toNat := by
  simp [Counters.reply, CounterKind.replyOrder, Counters.get]

theorem Counters.reply_length (c : Counters) : c.reply.length = 12 := by simp [Counters.reply]

/-- R159: the counter at place `i` of the order is the number in the two bytes from `2 * i` on. -/
theorem Counters.natOf_reply (c : Counters) {i : Nat} {k : CounterKind} (hk : CounterKind.replyOrder[i]? = some k) :
    natOf ((c.reply.drop (2 * i)).take 2) = (c.get k).toNat := by
  rw [c.reply_eq, drop_flatMap_of_length (fun _ => bytesOf_length 2 _) hk]
  exact natOf_take_bytesOf_append (c.get k).isLt _

/-! ### What the clear flag does -/

/-- R159: the counters that a read-out with a legal clear flag leaves. -/
def Counters.keptBy (c : Counters) (clear : Byte) : Counters := if clear = 1 then ⟨0, 0, 0, 0, 0, 0⟩ else c

/-- R159: with 00h or 01h the six counters are the reply, and 01h clears them. -/
theorem State.readCounters_of_legal {clear : Byte} (hclear : clear.toNat ≤ 1) (s : State) :
    s.readCounters clear = (okReply s.faults.counters.reply, s.setCounters (s.faults.counters.keptBy clear)) := by
  have hflag : clear = 0 ∨ clear = 1 := by bv_omega
  rcases hflag with rfl | rfl <;> rfl

/-- R159: with any other flag nothing changes, and the result is ARG. -/
theorem State.readCounters_of_illegal {clear : Byte} (hclear : 1 < clear.toNat) (s : State) :
    s.readCounters clear = (bareReply .arg, s) := by
  have hkeep : clear ≠ 0 := by bv_omega
  have hreset : clear ≠ 1 := by bv_omega
  rw [State.readCounters, if_neg hkeep, if_neg hreset]

/-! ### The command -/

/-- R159: READ COUNTERS with a legal flag leaves the frame of the state with the counters that the flag keeps. -/
theorem execReadCounters_of_legal {clear : Byte} (hclear : clear.toNat ≤ 1) {s : State} (h : s.takesFrame = true) :
    execReadCounters clear s = .next (frameDone (.readCounters clear) .ok s.faults.counters.reply s
      (s.setCounters (s.faults.counters.keptBy clear))) :=
  manage_of_flagged h (State.readCounters_of_legal hclear _)

/-- Settles O21: each flag by what its frame leaves, each counter by its place in the reply. -/
theorem readCountersReportsAndMayClear : Obligations.ReadCountersReportsAndMayClear := by
  intro clear s h
  refine ⟨fun hlegal => ?legal, fun hillegal => ?illegal⟩
  case legal =>
    have hat := @Counters.natOf_reply s.faults.counters
    exact ⟨s.faults.counters.reply, execReadCounters_of_legal hlegal h, s.faults.counters.reply_length,
      hat (i := 0) rfl, hat (i := 1) rfl, hat (i := 2) rfl, hat (i := 3) rfl, hat (i := 4) rfl, hat (i := 5) rfl⟩
  case illegal => exact manage_of_flagged h (State.readCounters_of_illegal hillegal _)

end Sys2Proof.Machine
end

section
/-! O23 (R162, R163, R164): READ EVENTS and its reply, CLEAR EVENTS for a legal and an illegal argument, and the condition of
IRQ# bit by bit. -/

namespace Sys2Proof.Machine

/-! ### IRQ# -/

/-- R162: IRQ# is low exactly when some event is pending and not masked. -/
theorem irqCondition_iff (events mask : BitVec 9) :
    irqCondition events mask = true ↔ ∃ i < 9, events.getLsbD i = true ∧ mask.getLsbD i = false := by
  have hbit : ∀ i < 9, ((events &&& ~~~ mask).getLsbD i = true ↔ events.getLsbD i = true ∧ mask.getLsbD i = false) :=
    fun i hi => by simp [hi]
  rw [irqCondition, bne_iff_ne]
  constructor
  · intro hne
    by_contra hnone
    refine hne (BitVec.eq_of_getLsbD_eq fun i hi => ?_)
    have hclear : (events &&& ~~~ mask).getLsbD i ≠ true := fun hset => hnone ⟨i, hi, (hbit i hi).mp hset⟩
    exact (Bool.eq_false_iff.mpr hclear).trans BitVec.getLsbD_zero.symm
  · rintro ⟨i, hi, hunmasked⟩ hzero
    have hset := (hbit i hi).mpr hunmasked
    simp [hzero] at hset

/-! ### READ EVENTS -/

theorem State.eventsReply_length (s : State) : s.eventsReply.length = 5 := by simp [State.eventsReply]

/-- R163: the first two bytes of the reply are the pending set. -/
theorem State.natOf_take_eventsReply (s : State) : natOf (s.eventsReply.take 2) = s.faults.events.toNat := by
  rw [State.eventsReply, List.append_assoc]
  exact natOf_take_bytesOf_append (s.faults.events.isLt.trans (by decide)) _

/-- R163: the two bytes behind them are the mask set. -/
theorem State.natOf_drop_eventsReply (s : State) :
    natOf ((s.eventsReply.drop 2).take 2) = s.faults.mask.toNat := by
  rw [State.eventsReply, List.append_assoc, List.drop_left' (bytesOf_length 2 _)]
  exact natOf_take_bytesOf_append (s.faults.mask.isLt.trans (by decide)) _

/-- R163: the last byte is the visibility flag. -/
theorem State.getD_eventsReply (s : State) : s.eventsReply.getD 4 0 = boolByte s.faults.visible := rfl

/-- R163: READ EVENTS leaves the frame of the state as it was. -/
theorem execReadEvents_eq {s : State} (h : s.takesFrame = true) :
    execReadEvents s = .next (frameDone .readEvents .ok s.eventsReply s s) :=
  manage_of_flagged h rfl

/-! ### CLEAR EVENTS -/

theorem eventBitsOk_iff (bits : BitVec 16) : eventBitsOk bits = true ↔ bits.toNat < 512 := decide_eq_true_iff

/-- R164: the named pending bits become 0, and the result is OK. -/
theorem State.clearEvents_of_legal {bits : BitVec 16} (hbits : bits.toNat < 512) (s : State) :
    s.clearEvents bits =
      (bareReply .ok, s.setEvents (s.faults.events &&& ~~~ bits.setWidth 9) s.faults.mask s.faults.visible) :=
  if_pos ((eventBitsOk_iff bits).mpr hbits)

/-- R164: with a bit that names no event nothing changes, and the result is ARG. -/
theorem State.clearEvents_of_illegal {bits : BitVec 16} (hbits : 512 ≤ bits.toNat) (s : State) :
    s.clearEvents bits = (bareReply .arg, s) :=
  if_neg fun hok => absurd ((eventBitsOk_iff bits).mp hok) (Nat.not_lt.mpr hbits)

/-- R164: a pending bit stays where the argument does not name it. -/
theorem getLsbD_clearedEvents (events : BitVec 9) (bits : BitVec 16) {i : Nat} (hi : i < 9) :
    (events &&& ~~~ bits.setWidth 9).getLsbD i = (events.getLsbD i && !bits.getLsbD i) := by
  simp [hi]

/-- R164: CLEAR EVENTS with a legal argument leaves the frame of the state without the named pending bits. -/
theorem execClearEvents_of_legal {bits : BitVec 16} (hbits : bits.toNat < 512) {s : State} (h : s.takesFrame = true) :
    execClearEvents bits s = .next (frameDone (.clearEvents bits) .ok [] s
      (s.setEvents (s.faults.events &&& ~~~ bits.setWidth 9) s.faults.mask s.faults.visible)) :=
  manage_of_flagged h (State.clearEvents_of_legal hbits _)

/-! ### The statement -/

/-- Settles O23: each command by what its frame leaves, the pending bits one by one, IRQ# by its condition. -/
theorem eventsAreReadAndCleared : Obligations.EventsAreReadAndCleared := by
  intro bits s h
  refine ⟨⟨s.eventsReply, execReadEvents_eq h, s.eventsReply_length, s.natOf_take_eventsReply,
    s.natOf_drop_eventsReply, ?visible⟩, fun hlegal => ?legal, fun hillegal => ?illegal⟩
  case visible =>
    rw [s.getD_eventsReply]
    exact getElem?_boolByte s.faults.visible
  case legal =>
    exact ⟨_, execClearEvents_of_legal hlegal h, fun i hi => getLsbD_clearedEvents _ bits hi,
      irqCondition_iff _ s.faults.mask, rfl, rfl, rfl, rfl⟩
  case illegal => exact manage_of_flagged h (State.clearEvents_of_illegal hillegal _)

end Sys2Proof.Machine
end

section
/-! What carrying out a command and taking a step come to, for a property of the state that the frame on the management port
does not enter: the action of a management command, the event of any other, and the frame in error. -/

namespace Sys2Proof.Machine

/-! ### The commands -/

/-- What a management command does to the part at the end of its request, with its reply; the other commands have none. -/
def action : Instr → State → Reply × State
  | .status => fun t => (okReply t.statusReply, t)
  | .readInhibits => fun t => (okReply t.inhibitReply, t.clearLatches)
  | .readRegionCodes => fun t => (okReply t.codesReply, t.setCodes (Vector.replicate 9 .noTraffic))
  | .readCounters clear => fun t => t.readCounters clear
  | .readFailedLines => fun t => (okReply t.failedReply, t.setPort { t.port with failed := [], overflow := false })
  | .readEvents => fun t => (okReply t.eventsReply, t)
  | .clearEvents bits => fun t => t.clearEvents bits
  | .writeEventMask mask visible => fun t => t.writeEventMask mask visible
  | .writeRegion index base limit attr enable => fun t => t.writeRegion index base limit attr enable
  | .readRegion index => fun t => t.readRegion index
  | .writeGuardFilter filter =>
    fun t => (bareReply .ok, t.setClassifier { t.classifier with guardFilter := filter })
  | .readGuardFilter => fun t => (okReply (bytesOf 8 t.classifier.guardFilter.toNat), t)
  | .writeParameters claim limit depth warn => fun t => t.writeParameters claim limit depth warn
  | .readParameters => fun t => (okReply t.parametersReply, t)
  | .writeJournalPlacement base size => fun t => t.writePlacement base.toNat size.toNat
  | .closeEpoch => fun t => t.closeEpoch
  | .rollback => fun t => t.rollback
  | .initJournal epoch => fun t => t.initJournal epoch
  | .setInhibit => fun t => (bareReply .ok, t.setSoftware)
  | .clearInhibit => fun t => (bareReply .ok, t.setSupply { t.supply with software := false })
  | .resetUpstream => fun t => (bareReply .ok, t.resetUpstream)
  | .openPort => fun t => t.openPort
  | .write _ _ _ _ => fun t => (bareReply .ok, t)
  | .read _ _ _ => fun t => (bareReply .ok, t)
  | .frameError _ _ => fun t => (bareReply .ok, t)
  | .powerOnReset => fun t => (bareReply .ok, t)
  | .pinReset => fun t => (bareReply .ok, t)
  | .resetEnd => fun t => (bareReply .ok, t)
  | .configurationLoad _ => fun t => (bareReply .ok, t)
  | .comparatorChange _ => fun t => (bareReply .ok, t)
  | .supplyFilterExpiry _ => fun t => (bareReply .ok, t)
  | .wlockPinChange _ => fun t => (bareReply .ok, t)
  | .wlockFilterExpiry => fun t => (bareReply .ok, t)
  | .claimTimerExpiry _ => fun t => (bareReply .ok, t)
  | .memoryAnswer _ _ => fun t => (bareReply .ok, t)
  | .attemptTimeout => fun t => (bareReply .ok, t)
  | .backoffEnd => fun t => (bareReply .ok, t)
  | .mcsRisingEdge => fun t => (bareReply .ok, t)

/-- The state that a command leads to. -/
def State.after (s : State) : Instr → State
  | .write i addr ucount data => s.decideWrite (requestAt .write i addr ucount data)
  | .read i addr ucount => s.decideRead (requestAt .read i addr ucount 0)
  | .frameError bytes mcsRose => if s.takesFrame then s.frameErrorAt bytes mcsRose else s
  | .powerOnReset => s.startReset .powerOn .below220 s.startup.nrstLow
  | .pinReset => s.startReset .pin s.supply.level true
  | .resetEnd => if s.startup.inReset then s.endReset else s
  | .configurationLoad image => if !s.startup.inReset && s.startup.phase == .loading then s.endLoading image else s
  | .comparatorChange level =>
    if level = .below220 ∧ s.supply.level ≠ .below220 then s.startReset .powerOn .below220 s.startup.nrstLow
    else (s.setSupply { s.supply with level := level }).recompare
  | .supplyFilterExpiry f => if (s.supply.timers.get f).isSome then s.expireFilter f else s
  | .wlockPinChange high =>
    if s.supply.wlockPin = high then s
    else s.setSupply { s.supply with wlockPin := high, wlockTimer := some Config.wlockTime }
  | .wlockFilterExpiry => if s.supply.wlockTimer.isSome then s.followWlock else s
  | .claimTimerExpiry p =>
    match s.engine.table[p] with
    | some e => if e.timer.isSome then s.expireClaim p e else s
    | none => s
  | .memoryAnswer answer late =>
    match s.port.op with
    | some op => if late then s else s.answered op answer
    | none => s
  | .attemptTimeout =>
    match s.port.op with
    | some op => s.answered op .error
    | none => s
  | .backoffEnd =>
    match s.port.op with
    | some op => if op.phase = .backoff then s.endBackoff op else s
    | none => s
  | .mcsRisingEdge => if s.mgmt.frame = .request ∧ s.mgmt.received ≠ [] then s.frameFault.leaveFrame else s.leaveFrame
  | .status => manage .status (action .status) s
  | .readInhibits => manage .readInhibits (action .readInhibits) s
  | .readRegionCodes => manage .readRegionCodes (action .readRegionCodes) s
  | .readCounters clear => manage (.readCounters clear) (action (.readCounters clear)) s
  | .readFailedLines => manage .readFailedLines (action .readFailedLines) s
  | .readEvents => manage .readEvents (action .readEvents) s
  | .clearEvents bits => manage (.clearEvents bits) (action (.clearEvents bits)) s
  | .writeEventMask mask visible => manage (.writeEventMask mask visible) (action (.writeEventMask mask visible)) s
  | .writeRegion index base limit attr enable => manage (.writeRegion index base limit attr enable) (action (.writeRegion index base limit attr enable)) s
  | .readRegion index => manage (.readRegion index) (action (.readRegion index)) s
  | .writeGuardFilter filter => manage (.writeGuardFilter filter) (action (.writeGuardFilter filter)) s
  | .readGuardFilter => manage .readGuardFilter (action .readGuardFilter) s
  | .writeParameters claim limit depth warn => manage (.writeParameters claim limit depth warn) (action (.writeParameters claim limit depth warn)) s
  | .readParameters => manage .readParameters (action .readParameters) s
  | .writeJournalPlacement base size => manage (.writeJournalPlacement base size) (action (.writeJournalPlacement base size)) s
  | .closeEpoch => manage .closeEpoch (action .closeEpoch) s
  | .rollback => manage .rollback (action .rollback) s
  | .initJournal epoch => manage (.initJournal epoch) (action (.initJournal epoch)) s
  | .setInhibit => manage .setInhibit (action .setInhibit) s
  | .clearInhibit => manage .clearInhibit (action .clearInhibit) s
  | .resetUpstream => manage .resetUpstream (action .resetUpstream) s
  | .openPort => manage .openPort (action .openPort) s

/-- Every command leads to a next state. -/
theorem exec_eq_after (c : Instr) (s : State) : exec c s = .next (s.after c) := by cases c <;> rfl

theorem eq_after_of_exec {c : Instr} {s t : State} (h : exec c s = .next t) : t = s.after c := by
  rw [exec_eq_after] at h
  exact (Host.Outcome.next.inj h).symm

theorem after_of_isManagement {c : Instr} (h : c.isManagement = true) (s : State) : s.after c = manage c (action c) s := by
  cases c <;> first | rfl | cases h

namespace State

/-! ### What the events with a condition come to -/

/-- R131: an image read does nothing, or ends the loading. -/
theorem after_configurationLoad_cases (s : State) (image : Image) :
    s.after (.configurationLoad image) = s ∨
      (s.startup.inReset = false ∧ s.startup.phase = .loading ∧ s.after (.configurationLoad image) = s.endLoading image) := by
  simp only [after, Bool.and_eq_true, Bool.not_eq_true', beq_iff_eq]
  split
  next h => exact .inr ⟨h.1, h.2, rfl⟩
  · exact .inl rfl

/-- R74: a claim timer does nothing, or it is that of an entry and runs. -/
theorem after_claimTimerExpiry_cases (s : State) (p : Fin 4) :
    s.after (.claimTimerExpiry p) = s ∨
      ∃ e, s.engine.table[p] = some e ∧ e.timer.isSome = true ∧ s.after (.claimTimerExpiry p) = s.expireClaim p e := by
  simp only [after]
  split
  next e he =>
    split
    next ht => exact .inr ⟨e, he, ht, rfl⟩
    · exact .inl rfl
  · exact .inl rfl

/-- R110: an answer does nothing, or it is one to the operation in flight. -/
theorem after_memoryAnswer_cases (s : State) (a : MemAnswer) (late : Bool) :
    s.after (.memoryAnswer a late) = s ∨
      ∃ op, s.port.op = some op ∧ s.after (.memoryAnswer a late) = s.answered op a := by
  simp only [after]
  split
  next op hop =>
    split
    · exact .inl rfl
    · exact .inr ⟨op, hop, rfl⟩
  · exact .inl rfl

/-- R110: a timeout does nothing, or it is an answer to the operation in flight. -/
theorem after_attemptTimeout_cases (s : State) :
    s.after .attemptTimeout = s ∨ ∃ op, s.port.op = some op ∧ s.after .attemptTimeout = s.answered op .error := by
  simp only [after]
  split
  next op hop => exact .inr ⟨op, hop, rfl⟩
  · exact .inl rfl

/-- R113: the end of a back-off does nothing, or it is that of the operation in flight. -/
theorem after_backoffEnd_cases (s : State) :
    s.after .backoffEnd = s ∨
      ∃ op, s.port.op = some op ∧ op.phase = .backoff ∧ s.after .backoffEnd = s.endBackoff op := by
  simp only [after]
  split
  next op hop =>
    split
    next hp => exact .inr ⟨op, hop, hp, rfl⟩
    · exact .inl rfl
  · exact .inl rfl

/-! ### What moves the frame alone -/

theorem endRequest_framedAs (s : State) (q : List Byte) : (s.endRequest q).framedAs s := ⟨rfl, rfl, rfl⟩

theorem respond_framedAs (s : State) (q : List Byte) (r : Reply) (flag : Bool) : (s.respond q r flag).framedAs s :=
  ⟨rfl, rfl, rfl⟩

theorem leaveFrame_framedAs (s : State) : s.leaveFrame.framedAs s := ⟨rfl, rfl, rfl⟩

theorem flagError_framedAs (s : State) (b : Bool) : (s.flagError b).framedAs s := ⟨rfl, rfl, rfl⟩

/-! ### Properties that every step keeps -/

/-- A property of the state that the frame on the management port does not enter. -/
def Unframed (P : State → Prop) : Prop := ∀ {s u : State}, u.framedAs s → P s → P u

/-- A management command keeps such a property where its action does. -/
theorem Unframed.manage {P : State → Prop} (hP : Unframed P) {c : Instr} {act : State → Reply × State} {s : State}
    (h : P s) (hact : ∀ u, P u → P (act u).2) : P (manage c act s) := by
  unfold Machine.manage
  split
  · exact hP (respond_framedAs _ _ _ _) (hact _ (hP (s.endRequest_framedAs _) h))
  · exact h

/-- A command keeps such a property where the action of a management command and the event of any other do. -/
theorem Unframed.after {P : State → Prop} (hP : Unframed P) {c : Instr} {s : State} (h : P s)
    (hact : ∀ u, P u → P (action c u).2) (hevent : c.isManagement = false → P (s.after c)) : P (s.after c) := by
  cases hc : c.isManagement
  case true =>
    rw [after_of_isManagement hc]
    exact hP.manage h hact
  case false => exact hevent hc

/-- A frame in error keeps such a property where its events do. -/
theorem Unframed.frameFault {P : State → Prop} (hP : Unframed P) {s : State}
    (h : P ((s.count .frameErrors).raise .mgmtError)) : P s.frameFault := hP (flagError_framedAs _ _) h

/-- Every step keeps such a property where every command and the events of a frame in error do. -/
theorem Unframed.step {P : State → Prop} (hP : Unframed P) (hexec : ∀ (c : Instr) (s : State), P s → P (s.after c))
    (hfault : ∀ s : State, P s → P ((s.count .frameErrors).raise .mgmtError)) {s t : State} (h : P s)
    (hst : Machine.step s = .next t) : P t := by
  obtain ⟨u, hu, -, rfl | ⟨c, hc⟩ | ⟨bytes, r, flag, rfl⟩⟩ := step_leadsTo hst
  · exact hP hu h
  · rw [eq_after_of_exec hc]
    exact hexec c u (hP hu h)
  · exact hP (respond_framedAs _ _ _ _) (hP.frameFault (hfault u (hP hu h)))

end State

end Sys2Proof.Machine
end

section
/-! O10 (R111, R113, R114): the attempt count, command by command. -/

namespace Sys2Proof.Machine

theorem counted_unframed : State.Unframed fun s => s.port.Counted := by
  intro s u hu h
  rw [hu.1]
  exact h

theorem parametersOk_iff {claim limit depth warn : Byte} :
    parametersOk claim limit depth warn = true ↔
      claim ≠ 0 ∧ limit ≠ 0 ∧ depth.toNat ≤ 3 ∧ warn.toNat ≤ 3 := by
  simp [parametersOk, and_assoc]

/-- R111, R114: a port with the operation of a counted one, under an attempt limit other than 0. -/
theorem MemoryPort.Counted.of_op_eq {p q : MemoryPort} (h : p.Counted) (hop : q.op = p.op)
    (hlimit : q.attemptLimit ≠ 0) : q.Counted := ⟨hlimit, fun op ho => h.2 op (hop ▸ ho)⟩

theorem State.setLimits_op (s : State) (claim limit depth : Byte) :
    (s.setLimits claim limit depth).port.op = s.port.op ∧
      (s.setLimits claim limit depth).port.attemptLimit = limit := ⟨rfl, rfl⟩

theorem action_counted (c : Instr) {u : State} (h : u.port.Counted) : (action c u).2.port.Counted := by
  cases c
  case readFailedLines => exact MemoryPort.Counted.of_op_eq h rfl h.1
  case writeParameters a b d w =>
    simp only [action, State.writeParameters]
    split
    case isTrue hok =>
      obtain ⟨-, hlimit, -, -⟩ := parametersOk_iff.mp hok
      obtain ⟨hop, hnew⟩ := u.setLimits_op a b d
      simp only [State.setWarnLevel_frame]
      exact h.of_op_eq hop (hnew ▸ hlimit)
    case isFalse => exact h
  all_goals simp [action, h]

/-- R132: the fields of an image that loads are legal. -/
theorem fieldsOk_of_loaded {im : List Byte} (h : judgeImage im = .loaded) : imageFieldsOk im = true := by
  unfold judgeImage at h
  split at h
  · cases h
  · split at h
    next hok =>
      obtain ⟨-, -, -, -, hfields⟩ := hok
      exact hfields
    · cases h

/-- R132: what the fields of an image that loads hold. -/
theorem imageFieldsOk_iff {im : List Byte} : imageFieldsOk im = true ↔
    attributeByteOk (imageByte im 4) = true ∧ (∀ i < 8, imageRegionOk im i = true) ∧
      placementOk (imageField im 61 2) (imageField im 63 2) = true ∧ (imageByte im 65).toNat ≤ 1 ∧
      parametersOk (imageByte im 66) (imageByte im 67) (imageByte im 68) (imageByte im 69) = true ∧
      imageField im 70 2 < 512 ∧ (imageByte im 72).toNat ≤ 1 := by
  simp [imageFieldsOk, and_assoc]

/-- R133: an applied image gives the attempt limit and leaves the operation in flight. -/
theorem State.applyImage_port (im : List Byte) (s : State) :
    (s.applyImage im).port = { s.port with attemptLimit := imageByte im 67 } := by
  simp only [State.applyImage]
  split <;> simp [State.applySettings, State.setLimits]

theorem State.judgeShadow_counted {s : State} (h : s.port.Counted) : s.judgeShadow.port.Counted := by
  simp only [State.judgeShadow]
  split
  case isTrue hloaded =>
    obtain ⟨-, -, -, -, hparameters, -, -⟩ := imageFieldsOk_iff.mp (fieldsOk_of_loaded hloaded)
    obtain ⟨-, hlimit, -, -⟩ := parametersOk_iff.mp hparameters
    rw [State.applyImage_port]
    exact MemoryPort.Counted.of_op_eq h rfl hlimit
  case isFalse => exact h

theorem State.endLoading_counted {s : State} (h : s.port.Counted) (im : Image) : (s.endLoading im).port.Counted := by
  have hread : (s.setStartup { s.startup with shadow := readImage im }).port.Counted := h
  simp [State.endLoading, State.judgeShadow_counted hread]

theorem after_counted (c : Instr) (s : State) (h : s.port.Counted) : (s.after c).port.Counted := by
  refine counted_unframed.after h (fun u hu => action_counted c hu) fun hc => ?_
  cases c <;> cases hc
  case configurationLoad image =>
    obtain heq | ⟨-, -, heq⟩ := s.after_configurationLoad_cases image
    · rwa [heq]
    · rw [heq]; exact State.endLoading_counted h image
  case memoryAnswer a late =>
    obtain heq | ⟨op, hop, heq⟩ := s.after_memoryAnswer_cases a late
    · rwa [heq]
    · rw [heq]; exact State.answered_counted s op a h (h.2 op hop)
  case attemptTimeout =>
    obtain heq | ⟨op, hop, heq⟩ := s.after_attemptTimeout_cases
    · rwa [heq]
    · rw [heq]; exact State.answered_counted s op _ h (h.2 op hop)
  case backoffEnd =>
    obtain heq | ⟨op, hop, hp, heq⟩ := s.after_backoffEnd_cases
    · rwa [heq]
    · rw [heq]; exact State.endBackoff_counted s op h (h.2 op hop) hp
  all_goals simp only [State.after]
  all_goals repeat' split
  all_goals simp [h]

/-- Settles O10: every command keeps the operation counted, and the frame does not enter. -/
theorem everyStepKeepsTheAttemptCount : Obligations.EveryStepKeepsTheAttemptCount := by
  intro s t h hstep
  rw [attemptsLaw_iff] at h ⊢
  exact counted_unframed.step after_counted (fun u hu => by simpa using hu) h hstep

end Sys2Proof.Machine
end

section
/-! O5 (R151, R152): the inhibit latches cover their states, command by command. -/

namespace Sys2Proof.Machine

theorem covers_unframed : State.Unframed fun s => Covers s.supply s.journal.state := by
  intro s u hu h
  rw [hu.1]
  exact h

theorem action_covers (c : Instr) {u : State} (h : Covers u.supply u.journal.state) :
    Covers (action c u).2.supply (action c u).2.journal.state := by
  cases c
  case clearInhibit =>
    obtain ⟨hwlock, -, hwarn, hfail, hjournal⟩ := h
    exact ⟨hwlock, fun hoff => (Bool.false_ne_true hoff).elim, hwarn, hfail, hjournal⟩
  all_goals simp [action, h]

theorem after_covers (c : Instr) (s : State) (h : Covers s.supply s.journal.state) :
    Covers (s.after c).supply (s.after c).journal.state := by
  refine covers_unframed.after h (fun u hu => action_covers c hu) fun hc => ?_
  cases c <;> cases hc
  case comparatorChange level =>
    simp only [State.after]
    split
    · exact State.startReset_latches s _ _ _ h
    · simpa using State.recompare_latches (s.setSupply { s.supply with level := level }) h
  case wlockPinChange high =>
    simp only [State.after]
    split <;> exact h
  all_goals simp only [State.after]
  all_goals repeat' split
  all_goals simp [h]

/-- Settles O5: every command keeps the latches covering, and the frame does not enter. -/
theorem everyStepKeepsTheLatches : Obligations.EveryStepKeepsTheLatches := by
  intro s t h hstep
  rw [latchesCover_iff] at h ⊢
  exact covers_unframed.step after_covers (fun u hu => by simpa using hu) h hstep

end Sys2Proof.Machine
end

section
/-! O11 (R109, R110, assumption log 3): the canonical form of what is known of memory, command by command. -/

namespace Sys2Proof.Machine

theorem memory_unframed : State.Unframed fun s => Memory.wf s.memory = true := by
  intro s u hu h
  rw [hu.1]
  exact h

theorem Operation.wf_spoils (op : Operation) {m : List Host.Cell} (h : Memory.wf m = true) : Memory.wf (op.spoils m) = true := by
  unfold Operation.spoils
  split
  · exact Memory.wf_forgetLine h
  · exact h

/-- R110: what an answer makes of memory is a line written, a line forgotten, or memory as it was. -/
theorem State.answered_wf {s : State} (h : Memory.wf s.memory = true) (op : Operation) (a : MemAnswer) :
    Memory.wf (s.answered op a).memory = true := by
  cases hp : op.phase
  case awaiting =>
    obtain ⟨hok, hbusy, herror⟩ := State.answered_memory_awaiting (s := s) hp
    cases a with
    | ok d => rw [hok]; split; exacts [Memory.wf_writeLine h, h]
    | busy => rw [hbusy]; split; exacts [h, op.wf_spoils h]
    | error => rw [herror]; exact op.wf_spoils h
  case verifying =>
    obtain ⟨hok, hother⟩ := State.answered_memory_verify (s := s) hp
    cases a with
    | ok d => rw [hok]; split; exacts [h, op.wf_spoils h]
    | busy => rw [hother _ (.inl rfl)]; split; exacts [h, op.wf_spoils h]
    | error => rw [hother _ (.inr rfl)]; split; exacts [h, op.wf_spoils h]
  case backoff => simpa [State.answered, hp] using h
  case held => simpa [State.answered, hp] using h

/-- R121: a reset forgets one line at most. -/
theorem State.memoryAtReset_wf {s : State} (h : Memory.wf s.memory = true) : Memory.wf s.memoryAtReset = true := by
  unfold State.memoryAtReset
  split
  · split
    · exact Memory.wf_forgetLine h
    · exact h
  · exact h

theorem action_memory (c : Instr) (u : State) : (action c u).2.memory = u.memory := by
  cases c <;> simp [action]

theorem after_wf (c : Instr) (s : State) (h : Memory.wf s.memory = true) : Memory.wf (s.after c).memory = true := by
  refine memory_unframed.after h (fun u hu => by rwa [action_memory]) fun hc => ?_
  cases c <;> cases hc
  case powerOnReset => exact State.memoryAtReset_wf h
  case pinReset => exact State.memoryAtReset_wf h
  case comparatorChange level =>
    simp only [State.after]
    split
    · exact State.memoryAtReset_wf h
    · simpa using h
  case memoryAnswer a late =>
    obtain heq | ⟨op, -, heq⟩ := s.after_memoryAnswer_cases a late
    · rwa [heq]
    · rw [heq]; exact State.answered_wf h op a
  case attemptTimeout =>
    obtain heq | ⟨op, -, heq⟩ := s.after_attemptTimeout_cases
    · rwa [heq]
    · rw [heq]; exact State.answered_wf h op _
  all_goals simp only [State.after]
  all_goals repeat' split
  all_goals simp [h]

/-- Settles O11: every command keeps the form, and the frame does not enter. -/
theorem everyStepKeepsTheMemoryForm : Obligations.EveryStepKeepsTheMemoryForm := by
  intro s t h hstep
  exact memory_unframed.step after_wf (fun u hu => by simpa using hu) h hstep

end Sys2Proof.Machine
end

section
/-! O14 (R156, R158): fault codes and counters outside a reset, command by command. -/

namespace Sys2Proof.Machine

/-- R156, R158: codes get no less severe and counters do not fall, but where the two read-outs clear them. -/
def FaultUnit.RisesBy (c : Instr) (f g : FaultUnit) : Prop :=
  (c ≠ .readRegionCodes → ∀ i : Fin 9, g.codes[i].byte ≤ f.codes[i].byte) ∧
    (c ≠ .readCounters 1 → ∀ k : CounterKind, (f.counters.get k).toNat ≤ (g.counters.get k).toNat)

theorem FaultUnit.Grows.risesBy {f g : FaultUnit} (h : f.Grows g) (c : Instr) : f.RisesBy c g :=
  ⟨fun _ => h.1, fun _ => h.2.1⟩

theorem FaultUnit.risesBy_of_eq {f g : FaultUnit} (c : Instr) (hcodes : g.codes = f.codes) (hcounters : g.counters = f.counters) :
    f.RisesBy c g := ⟨fun _ i => by rw [hcodes], fun _ k => by rw [hcounters]⟩

theorem manage_faults (c : Instr) (act : State → Reply × State) (s : State) :
    (manage c act s).faults = s.faults ∨ (manage c act s).faults = (act (s.endRequest (requestOf c))).2.faults := by
  unfold manage
  split
  · exact .inr rfl
  · exact .inl rfl

theorem action_risesBy (c : Instr) (u : State) : u.faults.RisesBy c (action c u).2.faults := by
  cases c
  case readRegionCodes => exact ⟨fun h => (h rfl).elim, fun _ k => le_refl _⟩
  case readCounters clear =>
    simp only [action, State.readCounters]
    split
    · exact (FaultUnit.Grows.refl _).risesBy _
    · split
      next hone => exact ⟨fun _ i => le_refl _, fun h => (h (hone ▸ rfl)).elim⟩
      · exact (FaultUnit.Grows.refl _).risesBy _
  case clearEvents bits =>
    simp only [action, State.clearEvents]
    split <;> exact FaultUnit.risesBy_of_eq _ rfl rfl
  case writeEventMask mask visible =>
    simp only [action, State.writeEventMask]
    split <;> exact FaultUnit.risesBy_of_eq _ rfl rfl
  all_goals
    refine FaultUnit.Grows.risesBy ?_ _
    simp [action, FaultUnit.Grows.refl]

theorem FaultUnit.RisesBy.grows {f g h : FaultUnit} {c : Instr} (a : f.RisesBy c g) (b : g.Grows h) : f.RisesBy c h := by
  obtain ⟨hcodes, hcounters⟩ := a
  exact ⟨fun hc i => le_trans (b.1 i) (hcodes hc i), fun hc k => le_trans (hcounters hc k) (b.2.1 k)⟩

/-- R133: what follows the settings of an image only grows. -/
theorem State.applyImage_risesBy (im : List Byte) (s : State) (c : Instr) : s.faults.RisesBy c (s.applyImage im).faults := by
  have hset : s.faults.RisesBy c (s.applySettings im).faults := FaultUnit.risesBy_of_eq c rfl rfl
  refine hset.grows ?_
  simp only [State.applyImage]
  split <;> simp [FaultUnit.Grows.refl]

theorem State.judgeShadow_risesBy (s : State) (c : Instr) : s.faults.RisesBy c s.judgeShadow.faults := by
  simp only [State.judgeShadow]
  split
  · exact State.applyImage_risesBy _ (s.setStartup _) c
  · exact (FaultUnit.Grows.refl _).risesBy _

theorem State.endLoading_risesBy (s : State) (im : Image) (c : Instr) : s.faults.RisesBy c (s.endLoading im).faults :=
  (State.judgeShadow_risesBy (s.setStartup { s.startup with shadow := readImage im }) c).grows
    (by simp [State.endLoading, FaultUnit.Grows.refl])

theorem after_risesBy {c : Instr} (hreset : c.mayReset = false) (s : State) : s.faults.RisesBy c (s.after c).faults := by
  cases hc : c.isManagement
  case true =>
    rw [after_of_isManagement hc]
    obtain heq | heq := manage_faults c (action c) s <;> rw [heq]
    · exact (FaultUnit.Grows.refl _).risesBy _
    · exact action_risesBy c _
  case false =>
    cases c <;> cases hc
    case configurationLoad image =>
      obtain heq | ⟨-, -, heq⟩ := s.after_configurationLoad_cases image <;> rw [heq]
      · exact (FaultUnit.Grows.refl _).risesBy _
      · exact s.endLoading_risesBy image _
    case comparatorChange level =>
      have hlevel : level ≠ .below220 := fun h => by subst h; cases hreset
      simp only [State.after, hlevel, false_and, if_false]
      exact FaultUnit.Grows.risesBy (State.recompare_grows _ (FaultUnit.Grows.refl _)) _
    case powerOnReset => cases hreset
    case pinReset => cases hreset
    all_goals refine FaultUnit.Grows.risesBy ?_ _
    all_goals simp only [State.after]
    all_goals repeat' split
    all_goals simp [FaultUnit.Grows.refl]

/-- Settles O14: every command but the resets only lets codes and counters grow, but for what its read-out clears. -/
theorem codesAndCountersOnlyGrow : Obligations.CodesAndCountersOnlyGrow := by
  intro c s t h hreset
  rw [eq_after_of_exec h]
  exact after_risesBy hreset s

end Sys2Proof.Machine
end

section
/-! O9 (R1, R17, R78, R80, R105, R114, R132, R174): the settings stay legal, command by command. -/

namespace Sys2Proof.Machine

/-! ### The four groups of settings -/

/-- R1: the pages of a region are in order and exist. -/
def Region.Legal (r : Region) : Prop := r.basePage ≤ r.limitPage ∧ r.limitPage ≤ 16383

/-- R1: every region of the table is legal. -/
def Classifier.Legal (c : Classifier) : Prop := ∀ i : Fin 8, c.regions[i].Legal

/-- R80: the journal area lies in memory. -/
def Journal.Legal (j : Journal) : Prop := j.basePage ≤ 16383 ∧ j.sizePages ≤ 1024 ∧ j.basePage + j.sizePages ≤ 16384

theorem settingsLegal_iff (s : State) : s.settingsLegal ↔
    s.classifier.Legal ∧ s.journal.Legal ∧ s.engine.claimTimeout ≠ 0 ∧ s.port.attemptLimit ≠ 0 := Iff.rfl

theorem settingsLegal_unframed : State.Unframed State.settingsLegal := by
  intro s u hu h
  rw [hu.1]
  exact h

/-- What a state must have of another for its settings to be the same. -/
theorem settingsLegal_of_eq {s t : State} (h : s.settingsLegal) (hc : t.classifier = s.classifier)
    (hj : t.journal.basePage = s.journal.basePage ∧ t.journal.sizePages = s.journal.sizePages)
    (he : t.engine.claimTimeout = s.engine.claimTimeout) (hp : t.port.attemptLimit = s.port.attemptLimit) :
    t.settingsLegal := by
  obtain ⟨hbase, hsize⟩ := hj
  unfold State.settingsLegal at h ⊢
  rwa [hc, hbase, hsize, he, hp]

/-! ### Checked arguments -/

theorem regionFieldsOk_legal {base limit : Nat} {attr enable : Byte} (h : regionFieldsOk base limit attr enable = true) :
    (regionOfFields base limit attr enable).Legal := by
  simp only [regionFieldsOk, Bool.and_eq_true, decide_eq_true_eq] at h
  obtain ⟨⟨⟨hbase, hlimit⟩, -⟩, -⟩ := h
  exact ⟨hbase, hlimit⟩

theorem placementOk_iff {base size : Nat} :
    placementOk base size = true ↔ size ≤ 1024 ∧ base ≤ 16383 ∧ base + size ≤ 16384 := by
  simp only [placementOk, Bool.and_eq_true, decide_eq_true_eq, and_assoc]
  exact Iff.rfl

/-- R3, R17: replacing a record by a legal one leaves the table legal. -/
theorem Classifier.putRegion_legal {c : Classifier} (hc : c.Legal) (index : Nat) {r : Region} (hr : r.Legal) :
    (c.putRegion index r).Legal := by
  intro i
  unfold Classifier.putRegion
  split
  next hi =>
    simp only [Fin.getElem_fin, Vector.getElem_set]
    split
    · exact hr
    · exact hc i
  · exact hc i

/-! ### The commands -/

theorem action_settingsLegal (c : Instr) {u : State} (h : u.settingsLegal) : (action c u).2.settingsLegal := by
  obtain ⟨hc, hj, he, hp⟩ := (settingsLegal_iff u).mp h
  cases c
  case writeRegion index base limit attr enable =>
    simp only [action, State.writeRegion]
    split
    next hok => exact ⟨Classifier.putRegion_legal hc _ (regionFieldsOk_legal hok.2), hj, he, hp⟩
    · exact h
  case writeGuardFilter filter => exact h
  case writeParameters claim limit depth warn =>
    simp only [action, State.writeParameters]
    split
    case isTrue hok =>
      obtain ⟨hclaim, hlimit, -, -⟩ := parametersOk_iff.mp hok
      have hset : (u.setLimits claim limit depth).settingsLegal := ⟨hc, hj, hclaim, hlimit⟩
      refine settingsLegal_of_eq hset ?_ ?_ ?_ ?_ <;> simp
    case isFalse => exact h
  case writeJournalPlacement base size =>
    simp only [action, State.writePlacement]
    split
    · exact h
    next hbad =>
      obtain ⟨hsize, hbase, hend⟩ := placementOk_iff.mp (by simpa using hbad)
      split
      · exact h
      · rw [settingsLegal_iff]
        simpa [State.placeJournal] using ⟨hc, ⟨by simpa, by simpa, by simpa⟩, he, hp⟩
  all_goals refine settingsLegal_of_eq h ?_ ?_ ?_ ?_ <;> simp [action]

/-- R132, R133: an image that loads has legal settings. -/
theorem imageSettings_legal {im : List Byte} (h : imageFieldsOk im = true) (s : State) :
    (s.applyImage im).settingsLegal := by
  obtain ⟨-, hregions, hplacement, -, hparameters, -, -⟩ := imageFieldsOk_iff.mp h
  obtain ⟨hclaim, hlimit, -, -⟩ := parametersOk_iff.mp hparameters
  obtain ⟨hsize, hbase, hend⟩ := placementOk_iff.mp hplacement
  have hset : (s.applySettings im).settingsLegal := by
    refine ⟨fun i => ?_, ⟨hbase, hsize, hend⟩, hclaim, hlimit⟩
    have hi := regionFieldsOk_legal (hregions i.val i.isLt)
    simpa [State.applySettings, State.setLimits, State.setEvents, State.setClassifier, State.setEngine, State.setPort,
      State.setStartup, State.setJournal, imageClassifier, Region.Legal, imageRegion] using hi
  simp only [State.applyImage]
  split <;> refine settingsLegal_of_eq hset ?_ ?_ ?_ ?_ <;> simp

theorem State.endLoading_settingsLegal {s : State} (h : s.settingsLegal) (im : Image) : (s.endLoading im).settingsLegal := by
  have hjudged : (s.setStartup { s.startup with shadow := readImage im }).judgeShadow.settingsLegal := by
    simp only [State.judgeShadow]
    split
    next hloaded => exact imageSettings_legal (fieldsOk_of_loaded hloaded) _
    · exact h
  refine settingsLegal_of_eq hjudged ?_ ?_ ?_ ?_ <;> simp [State.endLoading]

theorem startReset_settingsLegal (cause : ResetCause) (level : SupplyLevel) (nrstLow : Bool) (s : State) :
    (s.startReset cause level nrstLow).settingsLegal := by
  have hjournal : Journal.reset.Legal := ⟨by decide, by decide, by decide⟩
  have hclaim : Config.resetClaimTimeout ≠ 0 := by decide
  have hlimit : Config.resetAttemptLimit ≠ 0 := by decide
  refine ⟨fun i => ?_, hjournal, hclaim, hlimit⟩
  simp [State.startReset, Classifier.reset, Region.reset]

theorem after_settingsLegal (c : Instr) (s : State) (h : s.settingsLegal) : (s.after c).settingsLegal := by
  refine settingsLegal_unframed.after h (fun u hu => action_settingsLegal c hu) fun hc => ?_
  cases c <;> cases hc
  case powerOnReset => exact startReset_settingsLegal _ _ _ s
  case pinReset => exact startReset_settingsLegal _ _ _ s
  case comparatorChange level =>
    simp only [State.after]
    split
    · exact startReset_settingsLegal _ _ _ s
    · refine settingsLegal_of_eq h ?_ ?_ ?_ ?_ <;> simp
  case configurationLoad image =>
    obtain heq | ⟨-, -, heq⟩ := s.after_configurationLoad_cases image <;> rw [heq]
    · exact h
    · exact State.endLoading_settingsLegal h image
  all_goals
    refine settingsLegal_of_eq h ?_ ?_ ?_ ?_ <;> simp only [State.after]
  all_goals repeat' split
  all_goals simp

/-- Settles O9: every command keeps the settings legal, and the frame does not enter. -/
theorem everyStepKeepsTheSettingsLegal : Obligations.EveryStepKeepsTheSettingsLegal := by
  intro s t h hstep
  exact settingsLegal_unframed.step after_settingsLegal (fun u hu => settingsLegal_of_eq hu (by simp) (by simp) (by simp) (by simp))
    h hstep

end Sys2Proof.Machine
end

section
/-! O4 (R148, R162, R166): IRQ#, NWARN and MDO follow what they signal, command by command and edge by edge. -/

namespace Sys2Proof.Machine

/-! ### IRQ# and the events -/

/-- R160: the place of an event in the sets of events. -/
def EventKind.place : EventKind → Nat
  | .startupDone => 0
  | .portHold => 1
  | .regionFault => 2
  | .inhibit => 3
  | .journal => 4
  | .longDone => 5
  | .failedLine => 6
  | .mgmtError => 7
  | .counterSat => 8

theorem EventKind.bit_eq (k : EventKind) : k.bit = BitVec.twoPow 9 k.place := by cases k <;> rfl

theorem EventKind.exists_place {i : Nat} (hi : i < 9) : ∃ k : EventKind, k.place = i := by
  interval_cases i
  exacts [⟨.startupDone, rfl⟩, ⟨.portHold, rfl⟩, ⟨.regionFault, rfl⟩, ⟨.inhibit, rfl⟩, ⟨.journal, rfl⟩, ⟨.longDone, rfl⟩,
    ⟨.failedLine, rfl⟩, ⟨.mgmtError, rfl⟩, ⟨.counterSat, rfl⟩]

theorem EventKind.place_lt (k : EventKind) : k.place < 9 := by cases k <;> decide

/-- R160: an event is in a set exactly when its bit is 1. -/
theorem EventKind.and_bit_eq_zero (k : EventKind) (x : BitVec 9) : x &&& k.bit = 0 ↔ x.getLsbD k.place = false := by
  rw [k.bit_eq, BitVec.and_twoPow]
  cases h : x.getLsbD k.place
  case false => simp
  case true =>
    have hbit : BitVec.twoPow 9 k.place ≠ 0 := by cases k <;> decide
    simpa using hbit

/-- R162: the condition of IRQ# by the events. -/
theorem irqCondition_iff_exists (events mask : BitVec 9) :
    irqCondition events mask = true ↔ ∃ k : EventKind, events &&& k.bit ≠ 0 ∧ mask &&& k.bit = 0 := by
  rw [irqCondition_iff]
  constructor
  · rintro ⟨i, hi, hpending, hmask⟩
    obtain ⟨k, rfl⟩ := EventKind.exists_place hi
    exact ⟨k, by rw [ne_eq, k.and_bit_eq_zero, hpending]; decide, by rwa [k.and_bit_eq_zero]⟩
  · rintro ⟨k, hpending, hmask⟩
    rw [ne_eq, k.and_bit_eq_zero, Bool.not_eq_false] at hpending
    exact ⟨k.place, k.place_lt, hpending, (k.and_bit_eq_zero mask).mp hmask⟩

/-! ### The three pins -/

/-- R162: IRQ# follows the pending and the mask set. -/
def FaultUnit.Signals (f : FaultUnit) : Prop := f.irqLow = irqCondition f.events f.mask

/-- R148: NWARN follows the supply state. -/
def SupplyUnit.Signals (u : SupplyUnit) : Prop := u.nwarnLow = true ↔ u.state ≠ .normal

/-- R166: MDO is undriven exactly in IDLE. -/
def ManagementPort.Drives (m : ManagementPort) : Prop := m.mdoLine = none ↔ m.frame = .idle

theorem pinsFollow_iff (s : State) : s.pinsFollow ↔ s.faults.Signals ∧ s.supply.Signals ∧ s.mgmt.Drives := by
  unfold State.pinsFollow FaultUnit.Signals
  rw [← irqCondition_iff_exists, ← Bool.eq_iff_iff]
  rfl

theorem FaultUnit.Grows.signals {f g : FaultUnit} (h : f.Grows g) (hf : f.Signals) : g.Signals := by
  obtain ⟨-, -, -, -, -, hsignals⟩ := h
  exact hsignals hf

/-! ### What leaves the supply state -/

/-- R145, R148: supply state and NWARN are as they were. -/
def SupplyUnit.Stays (u v : SupplyUnit) : Prop := v.state = u.state ∧ v.nwarnLow = u.nwarnLow

theorem SupplyUnit.Stays.signals {u v : SupplyUnit} (h : u.Stays v) (hu : u.Signals) : v.Signals := by
  unfold SupplyUnit.Signals
  rw [h.1, h.2]
  exact hu

namespace State

/-- R144: fresh comparisons move no supply state. -/
@[simp] theorem recompare_stays (s : State) :
    s.recompare.supply.state = s.supply.state ∧ s.recompare.supply.nwarnLow = s.supply.nwarnLow := by
  obtain ⟨t, heq, -⟩ := recompare_compared s
  rw [heq]
  exact ⟨rfl, rfl⟩

@[simp] theorem setWarnLevel_stays (s : State) (w : Byte) :
    (s.setWarnLevel w).supply.state = s.supply.state ∧ (s.setWarnLevel w).supply.nwarnLow = s.supply.nwarnLow := by
  simp [setWarnLevel]

@[simp] theorem takeClose_stays (s : State) :
    s.takeClose.supply.state = s.supply.state ∧ s.takeClose.supply.nwarnLow = s.supply.nwarnLow := by
  simp [takeClose]

@[simp] theorem takeInit_stays (s : State) (e : BitVec 32) :
    (s.takeInit e).supply.state = s.supply.state ∧ (s.takeInit e).supply.nwarnLow = s.supply.nwarnLow := by
  simp [takeInit]

@[simp] theorem takeRollback_stays (s : State) :
    s.takeRollback.supply.state = s.supply.state ∧ s.takeRollback.supply.nwarnLow = s.supply.nwarnLow := by
  simp [takeRollback]

@[simp] theorem placeJournal_stays (s : State) (base size : Nat) :
    (s.placeJournal base size).supply.state = s.supply.state ∧
      (s.placeJournal base size).supply.nwarnLow = s.supply.nwarnLow := by
  simp [placeJournal]

@[simp] theorem applyImage_stays (s : State) (im : List Byte) :
    (s.applyImage im).supply.state = s.supply.state ∧ (s.applyImage im).supply.nwarnLow = s.supply.nwarnLow := by
  simp only [applyImage]
  split <;> simp

@[simp] theorem judgeShadow_stays (s : State) :
    s.judgeShadow.supply.state = s.supply.state ∧ s.judgeShadow.supply.nwarnLow = s.supply.nwarnLow := by
  simp only [judgeShadow]
  split <;> simp

@[simp] theorem endLoading_stays (s : State) (im : Image) :
    (s.endLoading im).supply.state = s.supply.state ∧ (s.endLoading im).supply.nwarnLow = s.supply.nwarnLow := by
  simp [endLoading]

@[simp] theorem followWlock_stays (s : State) :
    s.followWlock.supply.state = s.supply.state ∧ s.followWlock.supply.nwarnLow = s.supply.nwarnLow := by
  simp only [followWlock]
  split <;> simp

end State

/-- R145: no management command moves the supply state. -/
theorem action_stays (c : Instr) (u : State) : u.supply.Stays (action c u).2.supply := by
  unfold SupplyUnit.Stays
  cases c <;> simp only [action]
  case readInhibits => exact ⟨rfl, rfl⟩
  case setInhibit => simp [State.setSoftware]
  case writeParameters claim limit depth warn =>
    simp only [State.writeParameters]
    split <;> simp
  case writeJournalPlacement base size =>
    simp only [State.writePlacement]
    repeat' split
    all_goals simp
  case closeEpoch =>
    simp only [State.closeEpoch]
    repeat' split
    all_goals simp
  case initJournal epoch =>
    simp only [State.initJournal]
    repeat' split
    all_goals simp
  case rollback =>
    simp only [State.rollback]
    repeat' split
    all_goals simp
  all_goals simp

/-! ### IRQ# and NWARN -/

theorem signals_unframed : State.Unframed fun s => s.faults.Signals ∧ s.supply.Signals := by
  intro s u hu h
  rw [hu.1]
  exact h

theorem action_faults_signals (c : Instr) {u : State} (h : u.faults.Signals) : (action c u).2.faults.Signals := by
  cases c
  case readRegionCodes => exact h
  case readCounters clear =>
    simp only [action, State.readCounters]
    split
    · exact h
    · split <;> exact h
  case clearEvents bits =>
    simp only [action, State.clearEvents]
    split
    · rfl
    · exact h
  case writeEventMask mask visible =>
    simp only [action, State.writeEventMask]
    split
    · rfl
    · exact h
  all_goals refine FaultUnit.Grows.signals ?_ h
  all_goals simp [action, FaultUnit.Grows.refl]

/-- R148: a move of the supply state takes NWARN with it. -/
theorem State.enterSupply_signals (st : SupplyState) (s : State) : (s.enterSupply st).supply.Signals := by
  cases st <;> simp [State.enterSupply, SupplyUnit.Signals]

theorem State.moveSupply_signals (st : SupplyState) (s : State) : (s.moveSupply st).supply.Signals := by
  have h := State.enterSupply_signals st s
  unfold State.moveSupply SupplyUnit.Signals at *
  split <;> simpa using h

theorem SupplyUnit.expire_stays (u : SupplyUnit) (f : SupplyFilter) : u.Stays (u.expire f) := by cases f <;> exact ⟨rfl, rfl⟩

theorem State.expireFilter_signals (f : SupplyFilter) {s : State} (h : s.supply.Signals) :
    (s.expireFilter f).supply.Signals := by
  simp only [State.expireFilter]
  split
  · exact State.moveSupply_signals _ _
  · exact (s.supply.expire_stays f).signals h

theorem startReset_signals (cause : ResetCause) (level : SupplyLevel) (nrstLow : Bool) (s : State) :
    (s.startReset cause level nrstLow).faults.Signals ∧ (s.startReset cause level nrstLow).supply.Signals :=
  have hreset : FaultUnit.reset.Signals := by unfold FaultUnit.Signals; decide
  ⟨hreset, by simp [State.startReset, SupplyUnit.atReset, SupplyUnit.Signals]⟩

/-- R133: the events keep their pins under an image's masks. -/
theorem State.endLoading_signals (im : Image) {s : State} (h : s.faults.Signals) : (s.endLoading im).faults.Signals := by
  have himage (bytes : List Byte) (u : State) : (u.applyImage bytes).faults.Signals := by
    have hset : (u.applySettings bytes).faults.Signals := rfl
    refine FaultUnit.Grows.signals ?_ hset
    simp only [State.applyImage]
    split <;> simp [FaultUnit.Grows.refl]
  have hjudged : (s.setStartup { s.startup with shadow := readImage im }).judgeShadow.faults.Signals := by
    simp only [State.judgeShadow]
    split
    · exact himage _ _
    · exact h
  refine FaultUnit.Grows.signals ?_ hjudged
  simp [State.endLoading, FaultUnit.Grows.refl]

theorem after_signals (c : Instr) (s : State) (h : s.faults.Signals ∧ s.supply.Signals) :
    (s.after c).faults.Signals ∧ (s.after c).supply.Signals := by
  refine signals_unframed.after h
    (fun u hu => ⟨action_faults_signals c hu.1, (action_stays c u).signals hu.2⟩) fun hc => ?_
  cases c <;> cases hc
  case powerOnReset => exact startReset_signals _ _ _ s
  case pinReset => exact startReset_signals _ _ _ s
  case comparatorChange level =>
    simp only [State.after]
    split
    · exact startReset_signals _ _ _ s
    · exact ⟨FaultUnit.Grows.signals (State.recompare_grows _ (FaultUnit.Grows.refl _)) h.1,
        SupplyUnit.Stays.signals (State.recompare_stays _) h.2⟩
  case configurationLoad image =>
    obtain heq | ⟨-, -, heq⟩ := s.after_configurationLoad_cases image <;> rw [heq]
    · exact h
    · exact ⟨State.endLoading_signals image h.1, SupplyUnit.Stays.signals (State.endLoading_stays s image) h.2⟩
  case resetEnd =>
    simp only [State.after]
    split <;> exact h
  case supplyFilterExpiry f =>
    simp only [State.after]
    split
    · exact ⟨FaultUnit.Grows.signals (State.expireFilter_grows s f (FaultUnit.Grows.refl _)) h.1,
        State.expireFilter_signals f h.2⟩
    · exact h
  all_goals refine ⟨FaultUnit.Grows.signals ?_ h.1, SupplyUnit.Stays.signals ?_ h.2⟩ <;> simp only [State.after]
  all_goals repeat' split
  all_goals simp [FaultUnit.Grows.refl, SupplyUnit.Stays]

/-! ### MDO -/

/-- R166: the frame and MDO are as they were. -/
def ManagementPort.Rests (m n : ManagementPort) : Prop := n.frame = m.frame ∧ n.mdoLine = m.mdoLine

theorem ManagementPort.Rests.drives {m n : ManagementPort} (h : m.Rests n) (hm : m.Drives) : n.Drives := by
  unfold ManagementPort.Drives
  rw [h.1, h.2]
  exact hm

theorem frameFault_drives {s : State} (h : s.mgmt.Drives) : s.frameFault.mgmt.Drives :=
  ManagementPort.Rests.drives (by simp [State.frameFault, State.flagError, State.setMgmt, ManagementPort.Rests]) h

theorem respond_drives (s : State) (q : List Byte) (r : Reply) (flag : Bool) : (s.respond q r flag).mgmt.Drives := by
  simp [State.respond, State.setMgmt, ManagementPort.Drives]

theorem leaveFrame_drives (s : State) : s.leaveFrame.mgmt.Drives := by
  simp [State.leaveFrame, State.setMgmt, ManagementPort.Drives]

theorem startReset_drives (cause : ResetCause) (level : SupplyLevel) (nrstLow : Bool) (s : State) :
    (s.startReset cause level nrstLow).mgmt.Drives := by
  simp [State.startReset, ManagementPort.Drives, ManagementPort.reset]

/-- R166: a command takes the port where its frame goes, a frame in error or the rise of MCS# ends it, and the rest leaves
it. -/
theorem after_drives (c : Instr) {s : State} (h : s.mgmt.Drives) : (s.after c).mgmt.Drives := by
  cases hc : c.isManagement
  case true =>
    rw [after_of_isManagement hc]
    unfold manage
    split
    · exact respond_drives _ _ _ _
    · exact h
  case false =>
    cases c <;> cases hc
    case frameError bytes mcsRose =>
      simp only [State.after, State.frameErrorAt]
      repeat' split
      all_goals first
        | exact h
        | exact frameFault_drives h
        | exact respond_drives _ _ _ _
    case mcsRisingEdge =>
      simp only [State.after]
      split <;> exact leaveFrame_drives _
    case powerOnReset => exact startReset_drives _ _ _ s
    case pinReset => exact startReset_drives _ _ _ s
    case comparatorChange level =>
      simp only [State.after]
      split
      · exact startReset_drives _ _ _ s
      · simpa using h
    all_goals refine ManagementPort.Rests.drives ?_ h
    all_goals simp only [State.after]
    all_goals repeat' split
    all_goals simp [ManagementPort.Rests]

theorem advanceFrame_drives {s : State} (h : s.mgmt.Drives) : s.advanceFrame.mgmt.Drives := by
  unfold State.advanceFrame ManagementPort.Drives at *
  repeat' split
  all_goals simp_all [State.setMgmt]

/-- R166: the bit that MCK puts on MDO is undriven exactly in IDLE. -/
theorem mdoBit_eq_none (s : State) : s.mdoBit = none ↔ s.mgmt.frame = .idle := by
  unfold State.mdoBit State.mdo
  cases s.mgmt.frame <;> simp

theorem judgeReceived_drives {s t : State} (h : s.mgmt.Drives) (ht : s.judgeReceived = .next t) : t.mgmt.Drives := by
  unfold State.judgeReceived at ht
  split at ht
  case h_1 => cases ht; exact h
  case h_2 => cases ht; exact respond_drives _ _ _ _
  case h_3 =>
    split at ht
    case h_1 =>
      rw [eq_after_of_exec ht]
      exact after_drives _ (by simp [State.setMgmt, ManagementPort.Drives])
    case h_2 => cases ht; exact h

theorem completeByte_drives {b : Byte} {s t : State} (h : s.mgmt.Drives) (ht : s.completeByte b = .next t) : t.mgmt.Drives := by
  unfold State.completeByte at ht
  split at ht
  case h_1 => exact judgeReceived_drives (by exact h) ht
  all_goals
    cases ht
    first | exact advanceFrame_drives h | exact h

/-- R166: an edge on the lines leaves MDO undriven exactly in IDLE. -/
theorem frameEdge_drives {e : FrameEdge} {s t : State} (h : s.mgmt.Drives) (he : s.frameEdge e = .next t) : t.mgmt.Drives := by
  cases e
  case mcsFalls =>
    cases he
    unfold State.fallMcs
    split
    · simp [State.setMgmt, ManagementPort.Drives]
    · exact h
  case mcsRises =>
    rw [eq_after_of_exec (c := .mcsRisingEdge) he]
    exact after_drives _ h
  case mckRises mdi =>
    simp only [State.frameEdge, State.riseMck] at he
    split at he
    · cases he; exact h
    · split at he
      · cases he; exact h
      · exact completeByte_drives h he
  case mckFalls =>
    cases he
    unfold State.fallMck
    split
    · exact h
    · exact mdoBit_eq_none s

/-- R166, R170: a byte time on MCK leaves MDO undriven exactly in IDLE. -/
theorem clockByte_drives {s : State} (h : s.mgmt.Drives) : s.clockByte.mgmt.Drives := by
  unfold State.clockByte
  split
  case h_1 => exact h
  case h_2 => exact h
  all_goals
    next hframe =>
      refine advanceFrame_drives ?_
      simp [State.driveMdo, State.setMgmt, ManagementPort.Drives, State.mdo, hframe]

theorem step_drives {s t : State} (h : s.mgmt.Drives) (hstep : step s = .next t) : t.mgmt.Drives := by
  unfold step at hstep
  split at hstep
  · rw [eq_after_of_exec hstep]
    exact after_drives _ h
  · split at hstep
    · exact frameEdge_drives (by exact h) hstep
    · cases hstep
      exact clockByte_drives h

/-- Settles O4: IRQ# and NWARN by what each command does to the unit, MDO by what each edge does to the frame. -/
theorem everyStepKeepsThePins : Obligations.EveryStepKeepsThePins := by
  intro s t h hstep
  rw [pinsFollow_iff] at h ⊢
  obtain ⟨hirq, hnwarn, hmdo⟩ := h
  obtain ⟨hirq', hnwarn'⟩ := signals_unframed.step after_signals
    (fun u hu => ⟨FaultUnit.Grows.signals (by simp [FaultUnit.Grows.refl]) hu.1, by simpa using hu.2⟩) ⟨hirq, hnwarn⟩ hstep
  exact ⟨hirq', hnwarn', step_drives hmdo hstep⟩

end Sys2Proof.Machine
end

section
/-! O6 (R35, R50, R102): the law of the posted write queue, of the queue, the drain and the long-command slot on one side and of
the operation in flight on the other. -/

namespace Sys2Proof.Machine

/-! ### The law in its parts -/

/-- R35, R50: the part of the queue's law that the operation in flight does not enter. -/
def QueueKept (q : List QueueEntry) (d : Option Drain) (l : Option LongCommand) : Prop :=
  q.length ≤ 16 ∧ q.countP QueueEntry.isMarker ≤ 1 ∧ (q.any QueueEntry.isMarker = true ↔ l = some .closeEpoch) ∧
    ∀ x, d = some x → (x.item = .postedWrite → ∃ b rest, q = .write b :: rest) ∧
      (x.item = .closeMarker → ∃ m rest, q = .marker m :: rest)

namespace QueueKept

variable {q : List QueueEntry} {d : Option Drain} {l : Option LongCommand}

theorem without_drain (h : QueueKept q d l) : QueueKept q none l :=
  ⟨h.1, h.2.1, h.2.2.1, fun _ hx => by cases hx⟩

/-- R38: the drain takes a value that is of the queue's head, or of no entry of the queue. -/
theorem with_drain (h : QueueKept q d l) {x : Drain} (hp : x.item = .postedWrite → ∃ b rest, q = .write b :: rest)
    (hc : x.item = .closeMarker → ∃ m rest, q = .marker m :: rest) : QueueKept q (some x) l :=
  ⟨h.1, h.2.1, h.2.2.1, fun _ hy => by cases hy; exact ⟨hp, hc⟩⟩

/-- R40, R41: the drain goes on to another stage. -/
theorem restage {x y : Drain} (h : QueueKept q (some x) l) (hi : y.item = x.item) : QueueKept q (some y) l := by
  obtain ⟨hpost, hclose⟩ := h.2.2.2 x rfl
  exact h.with_drain (hi ▸ hpost) (hi ▸ hclose)

/-- R42: a posted write leaves the queue. -/
theorem pop_write {b : Body} {rest : List QueueEntry} (h : QueueKept (.write b :: rest) d l) : QueueKept rest none l := by
  obtain ⟨hlen, hone, hmark, -⟩ := h
  refine ⟨Nat.le_of_succ_le hlen, ?_, ?_, fun _ hx => by cases hx⟩
  · simpa [QueueEntry.isMarker] using hone
  · simpa [QueueEntry.isMarker] using hmark

/-- R99: the close marker leaves the queue, and with it the command the slot. -/
theorem pop_marker {m : Nat} {rest : List QueueEntry} (h : QueueKept (.marker m :: rest) d l) : QueueKept rest none none := by
  obtain ⟨hlen, hone, -, -⟩ := h
  have hnone : rest.countP QueueEntry.isMarker = 0 := by
    rw [List.countP_cons_of_pos rfl] at hone
    omega
  refine ⟨Nat.le_of_succ_le hlen, by omega, ?_, fun _ hx => by cases hx⟩
  rw [List.countP_eq_zero] at hnone
  simpa using hnone

/-- R92: the queue's head takes another body. -/
theorem replace_head {b b' : Body} {rest : List QueueEntry} (h : QueueKept (.write b :: rest) d l) :
    QueueKept (.write b' :: rest) d l := by
  obtain ⟨hlen, hone, hmark, hdrain⟩ := h
  refine ⟨hlen, ?_, ?_, fun x hx => ⟨fun _ => ⟨b', rest, rfl⟩, fun hi => ?_⟩⟩
  · simpa [QueueEntry.isMarker] using hone
  · simpa [QueueEntry.isMarker] using hmark
  · obtain ⟨m, rest', heq⟩ := (hdrain x hx).2 hi
    cases heq

/-- R36: a posted write joins the queue. -/
theorem push_write (h : QueueKept q d l) (hroom : q.length < 16) (b : Body) : QueueKept (q ++ [.write b]) d l := by
  obtain ⟨hlen, hone, hmark, hdrain⟩ := h
  refine ⟨by simpa using hroom, ?_, ?_, fun x hx => ⟨fun hi => ?_, fun hi => ?_⟩⟩
  · simpa [QueueEntry.isMarker] using hone
  · simpa [QueueEntry.isMarker] using hmark
  · obtain ⟨b', rest, rfl⟩ := (hdrain x hx).1 hi
    exact ⟨b', rest ++ [.write b], rfl⟩
  · obtain ⟨m, rest, rfl⟩ := (hdrain x hx).2 hi
    exact ⟨m, rest ++ [.write b], rfl⟩

/-- R98: CLOSE EPOCH takes the free slot, and its marker joins the queue. -/
theorem push_marker (h : QueueKept q d none) (hroom : q.length < 16) (m : Nat) :
    QueueKept (q ++ [.marker m]) d (some .closeEpoch) := by
  obtain ⟨hlen, hone, hmark, hdrain⟩ := h
  have hnone : q.countP QueueEntry.isMarker = 0 := by
    rw [List.countP_eq_zero]
    simpa using hmark
  refine ⟨by simpa using hroom, ?_, ?_, fun x hx => ⟨fun hi => ?_, fun hi => ?_⟩⟩
  · simp [hnone, QueueEntry.isMarker]
  · simp [QueueEntry.isMarker]
  · obtain ⟨b', rest, rfl⟩ := (hdrain x hx).1 hi
    exact ⟨b', rest ++ [.marker m], rfl⟩
  · obtain ⟨m', rest, rfl⟩ := (hdrain x hx).2 hi
    exact ⟨m', rest ++ [.marker m], rfl⟩

/-- R172: the slot changes between commands other than CLOSE EPOCH. -/
theorem change_slot {l' : Option LongCommand} (h : QueueKept q d l) (hl : l ≠ some .closeEpoch)
    (hl' : l' ≠ some .closeEpoch) : QueueKept q d l' :=
  ⟨h.1, h.2.1, by rw [h.2.2.1]; exact ⟨fun hc => absurd hc hl, fun hc => absurd hc hl'⟩, h.2.2.2⟩

theorem empty : QueueKept [] none none :=
  ⟨by decide, by decide, by decide, fun _ hx => by cases hx⟩

end QueueKept

namespace State

/-- R35, R50: the queue's law without the operation in flight. -/
abbrev queueKept (s : State) : Prop := QueueKept s.queue s.drain s.mgmt.longCmd

/-- R102: the header write of INIT JOURNAL is carried only while that command occupies the slot. -/
def initHeld (s : State) : Prop := ∀ op, s.port.op = some op → op.owner = .initHeader → s.mgmt.longCmd = some .initJournal

theorem queueLaw_iff (s : State) : s.queueLaw ↔ s.queueKept ∧ s.initHeld := by
  unfold queueLaw queueKept QueueKept
  simp only [and_assoc]
  exact Iff.rfl

/-! ### Drains -/

theorem queueKept_leave {s : State} (h : s.queueKept) (i : DrainItem) (c : RegionCode) (r : EntryResult) :
    (s.leave i c r).queueKept := by
  unfold queueKept at *
  cases i <;> simp only [leave]
  case postedWrite =>
    split
    next b hb =>
      obtain ⟨rest, hq⟩ : ∃ rest, s.queue = .write b :: rest := by
        rcases hq : s.queue with - | ⟨b' | m, rest⟩ <;> simp [itemBody, hq, QueueEntry.body] at hb
        exact ⟨rest, by rw [hb]⟩
      rw [hq] at h
      simpa [popQueue, setDrain, hq] using h.pop_write
    · exact h.without_drain
  case delayedWrite p =>
    split
    · simpa [setDrain] using h.without_drain
    · exact h.without_drain
  all_goals exact h.without_drain

theorem queueKept_beginItem {s : State} (h : s.queueKept) {i : DrainItem} (hi : s.headItem = some i) :
    (s.beginItem i).queueKept := by
  have hbegun (stage : DrainStage) : QueueKept s.queue (some ⟨i, stage, 0, true⟩) s.mgmt.longCmd :=
    h.with_drain (fun hp => headItem_posted (hp ▸ hi)) fun hc => headItem_marker (hc ▸ hi)
  simp only [beginItem]
  split
  · split
    · exact hbegun _
    · exact h
  · split
    · exact queueKept_leave h _ _ _
    · simpa [queueKept, setDrain] using hbegun _

theorem queueKept_beginDrains (n : Nat) {s : State} (h : s.queueKept) : (State.beginDrains n s).queueKept := by
  induction n generalizing s with
  | zero => exact h
  | succ n ih =>
    simp only [beginDrains]
    split
    · split
      · exact h
      next hi => exact ih (queueKept_beginItem h hi)
    · exact h

theorem queueKept_settle {s : State} (h : s.queueKept) : s.settle.queueKept := by
  have hdrains := queueKept_beginDrains longestOrder h
  unfold queueKept at *
  simpa [settle] using hdrains

/-! ### The operation in flight -/

/-- R118: the arbiter grants an operation of the scan or the rollback, the write class's offer, or a fill. -/
def grants (s : State) (op : Operation) : Prop :=
  s.procedureOp = some op ∨ s.writeOffer = some op ∨ op.owner = .demandFill ∨ op.owner = .prefetch

theorem grantDemand_op (s : State) (p : Fin 4) :
    (s.grantDemand p).port.op = s.port.op ∨ ∃ op, (s.grantDemand p).port.op = some op ∧ op.owner = .demandFill := by
  unfold grantDemand
  split
  · exact .inr ⟨_, rfl, rfl⟩
  · exact .inl rfl
  · exact .inl rfl

theorem grantPrefetch_op (s : State) (line : Nat) (rest : List Nat) :
    (s.grantPrefetch line rest).port.op = s.port.op ∨
      ∃ op, (s.grantPrefetch line rest).port.op = some op ∧ op.owner = .prefetch := by
  simp only [grantPrefetch]
  split
  · exact .inr ⟨_, rfl, rfl⟩
  · exact .inl rfl

theorem grantOffer_op (s : State) (offer : Option Operation) :
    (s.grantOffer offer).port.op = s.port.op ∨ (s.grantOffer offer).port.op = offer := by
  cases offer
  · exact .inl rfl
  · exact .inr rfl

theorem takeRead_op (s : State) (offer : Option Operation) :
    (s.takeRead offer).port.op = s.port.op ∨ (s.takeRead offer).port.op = offer ∨
      ∃ op, (s.takeRead offer).port.op = some op ∧ (op.owner = .demandFill ∨ op.owner = .prefetch) := by
  unfold takeRead
  split
  next p _ =>
    obtain h | ⟨op, hop, ho⟩ := s.grantDemand_op p
    · exact .inl h
    · exact .inr (.inr ⟨op, hop, .inl ho⟩)
  · unfold takePrefetch
    split
    next line rest _ =>
      obtain h | ⟨op, hop, ho⟩ := s.grantPrefetch_op line rest
      · exact .inl h
      · exact .inr (.inr ⟨op, hop, .inr ho⟩)
    · obtain h | h := grantOffer_op (s.setEngine { s.engine with prefetch := [] }) offer
      · exact .inl h
      · exact .inr (.inl h)

/-- R118, R119: the operation at the port stays, or is one that the arbiter grants to a free port. -/
theorem arbitrate_op (s : State) : s.arbitrate.port.op = s.port.op ∨
    (s.port.op = none ∧ s.supply.state ≠ .fail ∧ ∃ op, s.arbitrate.port.op = some op ∧ s.grants op) := by
  unfold arbitrate
  split
  · exact .inl rfl
  next hfree =>
    simp only [Bool.or_eq_true, Option.isSome_iff_ne_none, beq_iff_eq, not_or, not_not] at hfree
    obtain ⟨hop, hsupply⟩ := hfree
    have offered {t : State} {offer : Option Operation} (ho : offer = s.writeOffer) (h : t.port.op = offer) :
        t.port.op = s.port.op ∨ (s.port.op = none ∧ s.supply.state ≠ .fail ∧ ∃ op, t.port.op = some op ∧ s.grants op) := by
      cases hw : s.writeOffer with
      | none => exact .inl (by rw [h, ho, hw, hop])
      | some op => exact .inr ⟨hop, hsupply, op, by rw [h, ho, hw], .inr (.inl hw)⟩
    split
    next op hproc => exact .inr ⟨hop, hsupply, op, rfl, .inl hproc⟩
    · split
      · obtain h | h := s.grantOffer_op s.writeOffer
        · exact .inl h
        · exact offered rfl h
      · obtain h | h | ⟨op, h, ho⟩ := s.takeRead_op s.writeOffer
        · exact .inl h
        · exact offered rfl h
        · exact .inr ⟨hop, hsupply, op, h, .inr (.inr ho)⟩

/-- R102: the write class offers the header write of INIT JOURNAL only while that command occupies the slot. -/
theorem writeOffer_owner {s : State} {op : Operation} (h : s.writeOffer = some op) :
    (op.owner = .initHeader ∧ s.mgmt.longCmd = some .initJournal) ∨ op.owner = .head := by
  unfold writeOffer at h
  split at h
  next hinit =>
    cases h
    exact .inl ⟨rfl, by simpa [initOutstanding] using hinit⟩
  · split at h
    · exact .inr (drainOp_owner h)
    · cases h

theorem initHeld_of_free {s : State} (h : s.port.op = none) : s.initHeld := fun op hop => by rw [h] at hop; cases hop

theorem initHeld_settle {s : State} (h : s.initHeld) : s.settle.initHeld := by
  intro op hop hinit
  have hlong : s.settle.mgmt.longCmd = s.mgmt.longCmd := by simp
  rw [hlong]
  obtain hsame | ⟨-, -, op', hop', hgrant⟩ := (State.beginDrains longestOrder s).arbitrate_op
  · refine h op ?_ hinit
    simpa [settle, hsame] using hop
  · have heq : op' = op := Option.some.inj (hop'.symm.trans hop)
    subst heq
    obtain hp | hw | ho | ho := hgrant
    · obtain ho | ho := procedureOp_owner hp <;> rw [ho] at hinit <;> cases hinit
    · obtain ⟨-, hl⟩ | ho := writeOffer_owner hw
      · simpa using hl
      · rw [ho] at hinit; cases hinit
    all_goals rw [ho] at hinit; cases hinit

theorem queueLaw_settle {s : State} (h : s.queueKept) (hi : s.initHeld) : s.settle.queueLaw :=
  (queueLaw_iff _).mpr ⟨queueKept_settle h, initHeld_settle hi⟩

/-! ### The outcomes of the head's operation -/

theorem queue_of_itemBody {s : State} {b : Body} (h : s.itemBody .postedWrite = some b) : ∃ rest, s.queue = .write b :: rest := by
  rcases hq : s.queue with - | ⟨b' | m, rest⟩ <;> simp [itemBody, hq, QueueEntry.body] at h
  exact ⟨rest, by rw [h]⟩

/-- R87, R92: a record's completion leaves the queue's law, a drain in progress on a posted write being that of its head. -/
theorem queueKept_completeRecord {s : State} (h : s.queueKept) (i : DrainItem) (b : Body)
    (hi : i = .postedWrite → ∃ b' rest, s.queue = .write b' :: rest) : (s.completeRecord i b).queueKept := by
  unfold queueKept at *
  cases i
  case postedWrite =>
    obtain ⟨b', rest, hq⟩ := hi rfl
    rw [hq] at h
    simpa [completeRecord, setItemBody, hq] using h.replace_head
  case delayedWrite p =>
    simp only [completeRecord, setItemBody]
    split <;> simpa using h
  all_goals simpa [completeRecord, setItemBody] using h

theorem queueKept_closeSucceeded {s : State} (h : s.queueKept) {m : Nat} {rest : List QueueEntry}
    (hq : s.queue = .marker m :: rest) : s.closeSucceeded.queueKept := by
  unfold queueKept at *
  rw [hq] at h
  simpa [closeSucceeded, endLong, popQueue, setDrain, hq] using h.pop_marker

theorem queueKept_closeFailed {s : State} (h : s.queueKept) {m : Nat} {rest : List QueueEntry}
    (hq : s.queue = .marker m :: rest) : s.closeFailed.queueKept := by
  unfold queueKept at *
  rw [hq] at h
  simpa [closeFailed, endLong, popQueue, setDrain, hq] using h.pop_marker

theorem queueKept_stageSucceeded {s : State} (h : s.queueKept) {d : Drain} (hd : s.drain = some d) (b : Body) (data : Line)
    (first : Bool) : (s.stageSucceeded d b data first).queueKept := by
  have hrestage {t : State} (ht : t.queueKept) (htd : t.drain = some d) (stage : DrainStage) (image : Line) (ft : Bool) :
      (t.setDrain (some ⟨d.item, stage, image, ft⟩)).queueKept := by
    unfold queueKept at ht
    rw [htd] at ht
    exact ht.restage rfl
  unfold stageSucceeded
  cases d.stage
  case recordHeader =>
    refine hrestage (queueKept_completeRecord h _ _ fun hi => ?_) (by simpa using hd) _ _ _
    exact (h.2.2.2 d hd).1 hi
  case dataWrite => exact queueKept_leave h _ _ _
  case closeHeader => exact h.without_drain
  all_goals exact hrestage h hd _ _ _

theorem queueKept_stageFailed {s : State} (h : s.queueKept) (d : Drain) : (s.stageFailed d).queueKept := by
  have hfailed : (s.setJournalState .failed).queueKept := by simpa [queueKept] using h
  unfold stageFailed
  cases d.stage
  case closeHeader => exact h.without_drain
  case imageWrite => exact queueKept_leave hfailed _ _ _
  case recordHeader => exact queueKept_leave hfailed _ _ _
  all_goals exact queueKept_leave h _ _ _

theorem queueKept_headSucceeded {s : State} (h : s.queueKept) (data : Line) (first : Bool) :
    (s.headSucceeded data first).queueKept := by
  unfold headSucceeded
  split
  · exact h
  next d hd =>
    split
    next hi =>
      obtain ⟨m, rest, hq⟩ := (h.2.2.2 d hd).2 hi
      exact queueKept_closeSucceeded h hq
    next b hi =>
      unfold removedSucceeded
      split
      · exact (queueKept_completeRecord h _ _ fun hp => by rw [hi] at hp; cases hp).without_drain
      all_goals exact h.without_drain
    all_goals
      split
      · exact queueKept_stageSucceeded h hd _ _ _
      · exact h.without_drain

theorem queueKept_headFailed {s : State} (h : s.queueKept) : s.headFailed.queueKept := by
  unfold headFailed
  split
  · exact h
  next d hd =>
    split
    next hi =>
      obtain ⟨m, rest, hq⟩ := (h.2.2.2 d hd).2 hi
      exact queueKept_closeFailed h hq
    · unfold removedFailed
      split
      all_goals first
        | exact h.without_drain
        | simpa [queueKept, setDrain] using h.without_drain
    all_goals exact queueKept_stageFailed h _

/-! ### The outcomes of the other operations -/

theorem queueKept_rollbackEnds {s : State} (h : s.queueKept) (r : LongResult) : (s.rollbackEnds r).queueKept := by
  unfold queueKept rollbackEnds at *
  split
  next noted hlong =>
    rw [hlong] at h
    simpa [endLong, setStartup] using h.change_slot (by simp) (by simp)
  all_goals simpa [setStartup] using h

theorem queueKept_rollSucceeded {s : State} (h : s.queueKept) (data : Line) : (s.rollSucceeded data).queueKept := by
  unfold rollSucceeded
  split
  case h_4 =>
    refine queueKept_rollbackEnds ?_ _
    simpa [queueKept, setJournal] using h
  all_goals
    try split
  all_goals exact h

theorem queueKept_rollFailed {s : State} (h : s.queueKept) : s.rollFailed.queueKept := by
  unfold rollFailed
  split
  case h_4 =>
    refine queueKept_rollbackEnds ?_ _
    simpa [queueKept] using h
  all_goals exact h

theorem queueKept_ownerSucceeded {s : State} (h : s.queueKept) {op : Operation}
    (hinit : op.owner = .initHeader → s.mgmt.longCmd = some .initJournal) (data : Line) :
    (s.ownerSucceeded op data).queueKept := by
  unfold ownerSucceeded
  cases ho : op.owner
  case head => exact queueKept_headSucceeded h _ _
  case initHeader =>
    unfold queueKept at *
    rw [hinit ho] at h
    simpa [initEnded, endLong] using h.change_slot (by simp) (by simp)
  case rollback => exact queueKept_rollSucceeded h _
  all_goals simpa [queueKept] using h

theorem queueKept_ownerFailed {s : State} (h : s.queueKept) {op : Operation}
    (hinit : op.owner = .initHeader → s.mgmt.longCmd = some .initJournal) : (s.ownerFailed op).queueKept := by
  unfold ownerFailed
  cases ho : op.owner
  case head => exact queueKept_headFailed h
  case initHeader =>
    unfold queueKept at *
    rw [hinit ho] at h
    simpa [initEnded, endLong] using h.change_slot (by simp) (by simp)
  case rollback => exact queueKept_rollFailed h
  all_goals simpa [queueKept] using h

/-! ### The end of an operation, and its attempts -/

/-- R102, R117: the operation in flight belongs to INIT JOURNAL only where that command occupies the slot. -/
theorem queueLaw_succeed {s : State} (h : s.queueLaw) {op : Operation} (hop : s.port.op = some op) (data : Line) :
    (s.succeed op data).queueLaw := by
  rw [queueLaw_iff] at h
  obtain ⟨hkept, hinit⟩ := h
  exact queueLaw_settle (queueKept_ownerSucceeded (s := s.freePort) hkept (hinit op hop) data)
    (initHeld_of_free (by simp [freePort]))

theorem queueLaw_failAtLimit {s : State} (h : s.queueLaw) {op : Operation} (hop : s.port.op = some op) :
    (s.failAtLimit op).queueLaw := by
  rw [queueLaw_iff] at h
  obtain ⟨hkept, hinit⟩ := h
  unfold failAtLimit
  rw [failOp_eq]
  refine queueLaw_settle (queueKept_ownerFailed ?_ fun ho => ?_) (initHeld_of_free ?_)
  · simpa [queueKept, setMemory] using hkept
  · simpa [setMemory] using hinit op hop ho
  · simp [beforeFailure_port_op]

/-- R113: another phase of the operation in flight changes nothing that the law looks at. -/
theorem queueLaw_of_reissued {s t : State} (h : s.queueLaw) {op op' : Operation} (hop : s.port.op = some op)
    (hq : t.queue = s.queue) (hd : t.drain = s.drain) (hl : t.mgmt = s.mgmt) (ht : t.port.op = some op')
    (ho : op'.owner = op.owner) : t.queueLaw := by
  rw [queueLaw_iff] at *
  obtain ⟨hkept, hinit⟩ := h
  refine ⟨by rwa [queueKept, hq, hd, hl], fun op'' hop'' hi => ?_⟩
  rw [ht, Option.some.injEq] at hop''
  subst hop''
  rw [hl]
  exact hinit op hop (ho ▸ hi)

theorem queueLaw_congr {s t : State} (h : s.queueLaw) (hq : t.queue = s.queue) (hd : t.drain = s.drain)
    (hl : t.mgmt.longCmd = s.mgmt.longCmd) (hop : t.port.op = s.port.op) : t.queueLaw := by
  rw [queueLaw_iff] at *
  unfold initHeld queueKept
  rw [hq, hd, hl, hop]
  exact h

theorem queueLaw_answered {s : State} (h : s.queueLaw) {op : Operation} (hop : s.port.op = some op) (a : MemAnswer) :
    (s.answered op a).queueLaw := by
  have hbackOff {t : State} (n : NextIssue) (ht : t = s ∨ ∃ m, t = s.setMemory m) : (t.backOff op n).queueLaw := by
    obtain rfl | ⟨m, rfl⟩ := ht <;> exact queueLaw_of_reissued h hop rfl rfl rfl rfl rfl
  have hsucceed {t : State} (data : Line) (ht : t = s ∨ ∃ m, t = s.setMemory m) : (t.succeed op data).queueLaw := by
    obtain rfl | ⟨m, rfl⟩ := ht
    · exact queueLaw_succeed h hop data
    · exact queueLaw_succeed (s := s.setMemory m) h hop data
  unfold answered
  split
  case h_1 =>
    unfold attemptOk
    split
    · exact hsucceed _ (.inl rfl)
    · simp only []
      split
      · exact queueLaw_of_reissued h hop rfl rfl rfl rfl rfl
      · exact hsucceed _ (.inr ⟨_, rfl⟩)
  case h_2 =>
    unfold attemptFailed
    split
    · exact hbackOff _ (.inl rfl)
    · exact queueLaw_failAtLimit h hop
  case h_3 =>
    unfold attemptError
    split
    · exact hbackOff _ (.inr ⟨_, rfl⟩)
    · exact queueLaw_failAtLimit h hop
  case h_4 =>
    unfold verifyOk
    split
    · exact hsucceed _ (.inl rfl)
    · split
      · exact hbackOff _ (.inl rfl)
      · exact queueLaw_failAtLimit h hop
  case h_5 | h_6 =>
    unfold verifyFailed
    split
    · exact hbackOff _ (.inl rfl)
    · exact queueLaw_failAtLimit h hop
  all_goals exact h

theorem queueLaw_reissue {s : State} (h : s.queueLaw) {op : Operation} (hop : s.port.op = some op) :
    (s.reissue op).queueLaw := by
  have hissued (op' : Operation) (ho : op'.owner = op.owner) : (s.issue op').queueLaw :=
    queueLaw_of_reissued h hop rfl rfl rfl rfl ho
  have hcounted (phase : Phase) (k : CounterKind) :
      ((s.issue { op with phase := phase, attempts := op.attempts + 1 }).count k).queueLaw := by
    have hop' := hissued { op with phase := phase, attempts := op.attempts + 1 } rfl
    exact queueLaw_congr hop' (by simp) (by simp) (by simp) (by simp)
  unfold reissue
  split
  case h_4 => exact hissued _ rfl
  all_goals exact hcounted _ _

/-! ### The management commands and the events -/

theorem queueLaw_unframed : Unframed queueLaw := by
  intro s u hu h
  obtain ⟨heq, hlong, -⟩ := hu
  rw [heq]
  exact queueLaw_congr h rfl rfl hlong rfl

theorem queueLaw_settle_of {s u : State} (h : s.queueLaw) (hq : u.queue = s.queue) (hd : u.drain = s.drain)
    (hl : u.mgmt.longCmd = s.mgmt.longCmd) (hop : u.port.op = s.port.op) : u.settle.queueLaw := by
  have hu := (queueLaw_iff _).mp (queueLaw_congr h hq hd hl hop)
  exact queueLaw_settle hu.1 hu.2

/-- R98: CLOSE EPOCH is taken with the slot free and room in the queue. -/
theorem queueLaw_takeClose {s : State} (h : s.queueLaw) (hlong : s.mgmt.longCmd = none) (hroom : s.queue.length < 16) :
    s.takeClose.queueLaw := by
  obtain ⟨hkept, hinit⟩ := (queueLaw_iff s).mp h
  unfold queueKept at hkept
  rw [hlong] at hkept
  refine queueLaw_settle ?_ fun op hop ho => ?_
  · simpa [queueKept, takeLong, appendMarker] using hkept.push_marker hroom s.nextPos
  · have hnone := hinit op (by simpa [takeLong, appendMarker] using hop) ho
    rw [hlong] at hnone
    cases hnone

/-- R101, R103: INIT JOURNAL and ROLLBACK are taken with the slot free. -/
theorem queueLaw_takeLong {s u : State} (h : s.queueLaw) (hlong : s.mgmt.longCmd = none) (hq : u.queue = s.queue)
    (hd : u.drain = s.drain) (hl : u.mgmt.longCmd ≠ some .closeEpoch) (hop : u.port.op = s.port.op) : u.settle.queueLaw := by
  obtain ⟨hkept, hinit⟩ := (queueLaw_iff s).mp h
  unfold queueKept at hkept
  rw [hlong] at hkept
  refine queueLaw_settle ?_ fun op hop' ho => ?_
  · rw [queueKept, hq, hd]
    exact hkept.change_slot (by simp) hl
  · have hnone := hinit op (hop ▸ hop') ho
    rw [hlong] at hnone
    cases hnone

/-- R52, R76: a delayed write that RESET UPSTREAM removes stays the head outside the queue. -/
theorem queueKept_orphanDrain {s : State} (h : s.queueKept) : s.orphanDrain.queueKept := by
  have hremoved (b : Body) (stage : DrainStage) (image : Line) (ft : Bool) :
      (s.setDrain (some ⟨.removed b, stage, image, ft⟩)).queueKept :=
    QueueKept.with_drain h (fun hi => by cases hi) fun hi => by cases hi
  have hnone : (s.setDrain none).queueKept := h.without_drain
  unfold orphanDrain
  repeat' split
  all_goals first
    | exact h
    | exact hnone
    | exact hremoved _ _ _ _

theorem queueLaw_resetUpstream {s : State} (h : s.queueLaw) : s.resetUpstream.queueLaw := by
  obtain ⟨hkept, hinit⟩ := (queueLaw_iff s).mp h
  refine queueLaw_settle (queueKept_orphanDrain hkept) fun op hop ho => ?_
  simpa [setEngine] using hinit op (by simpa [setEngine] using hop) ho

theorem queueLaw_action (c : Instr) {u : State} (h : u.queueLaw) : (action c u).2.queueLaw := by
  cases c
  case closeEpoch =>
    simp only [action, closeEpoch]
    split
    · exact h
    next hlong =>
      split
      · exact h
      · split
        · exact h
        next hroom =>
          exact queueLaw_takeClose h (by simpa using hlong) (by simpa [Config.queueDepth] using hroom)
  case initJournal epoch =>
    simp only [action, initJournal]
    split
    · exact h
    · split
      · exact h
      next hlong =>
        split
        · exact h
        · exact queueLaw_takeLong h (by simpa using hlong) (by simp [takeLong, setJournal])
            (by simp [takeLong, setJournal]) (by simp [takeLong]) (by simp [takeLong, setJournal])
  case rollback =>
    simp only [action, rollback]
    split
    · exact h
    next hlong =>
      split
      · exact h
      · exact queueLaw_takeLong h (by simpa using hlong) (by simp [takeLong, setEngine, setStartup])
          (by simp [takeLong, setEngine, setStartup]) (by simp [takeLong, setEngine, setStartup])
          (by simp [takeLong, setEngine, setStartup])
  case resetUpstream => exact queueLaw_resetUpstream h
  case writeParameters claim limit depth warn =>
    simp only [action, writeParameters]
    split
    · obtain ⟨hop, -⟩ := u.setLimits_op claim limit depth
      exact queueLaw_congr h (by simp) (by simp) (by simp) (by simpa using hop)
    · exact h
  all_goals exact queueLaw_congr h (by simp [action]) (by simp [action]) (by simp [action]) (by simp [action])

end State

end Sys2Proof.Machine
end

section
/-! The presentations by what they do, and the end of O6. -/

namespace Sys2Proof.Machine

namespace State

/-! ### What a presentation does -/

/-- R32: at most a code is reported or NO_ROOM counted before the presentation is answered. -/
def Recorded (s u : State) : Prop := u = s ∨ (∃ region code, u = s.report region code) ∨ u = s.count .noRoom

/-- R22: the presentation is answered, and at most a code or a count recorded. -/
def Answered (s t : State) (r : Request) : Prop := ∃ u a d, s.Recorded u ∧ t = u.answerTo r a d

theorem answered_retryTo (s : State) (r : Request) : s.Answered (s.retryTo r) r := ⟨s, _, _, .inl rfl, rfl⟩

theorem answered_abortTo (s : State) (r : Request) (region : Fin 9) (code : RegionCode) :
    s.Answered (s.abortTo r region code) r := ⟨_, _, _, .inr (.inl ⟨region, code, rfl⟩), rfl⟩

theorem answered_noRoomTo (s : State) (r : Request) : s.Answered (s.noRoomTo r) r := ⟨_, _, _, .inr (.inr rfl), rfl⟩

/-- R26 to R31: what a WRITE presentation comes to: an answer, a claim of the entry it matches, or an acceptance. -/
def WriteGoes (s t : State) (r : Request) : Prop :=
  s.Answered t r ∨ (∃ p e, s.matching r = some (p, e) ∧ t = s.answerFromEntry r p e) ∨
    ∃ c : Classification, (c.reservation = .listed → s.reservationFor r.line = some .listed) ∧
      ((s.queue.length < 16 ∧ t = s.acceptPosted r c) ∨
        ∃ p, s.engine.freePlace = some p ∧ (s.engine.entries.any fun x => x.2.sameKey r) = false ∧ t = s.acceptDurable r c p)

theorem roomWrite_goes {s : State} {r : Request} {c : Classification}
    (hc : c.reservation = .listed → s.reservationFor r.line = some .listed) : s.WriteGoes (s.roomWrite r c) r := by
  unfold roomWrite
  split
  · split
    · exact .inl (s.answered_noRoomTo r)
    next hroom => exact .inr (.inr ⟨c, hc, .inl ⟨by simpa [Config.queueDepth] using hroom, rfl⟩⟩)
  · unfold roomDurable
    split
    · exact .inl (s.answered_noRoomTo r)
    next hkey =>
      split
      next p hp => exact .inr (.inr ⟨c, hc, .inr ⟨p, hp, by simpa using hkey, rfl⟩⟩)
      · exact .inl (s.answered_noRoomTo r)
  · exact .inl (s.answered_abortTo r _ _)
  · exact .inl (s.answered_abortTo r _ _)

theorem guardWrite_goes (s : State) (r : Request) : s.WriteGoes (s.guardWrite r) r := by
  simp only [guardWrite]
  split
  · exact roomWrite_goes fun h => by simp [classify] at h
  · split
    · split
      next k hk => exact roomWrite_goes fun h => by rw [hk, ← h]
      · exact .inl (s.answered_abortTo r _ _)
    · exact .inl (s.answered_retryTo r)
    all_goals exact .inl (s.answered_abortTo r _ _)

theorem decideWrite_goes (s : State) (r : Request) : s.WriteGoes (s.decideWrite r) r := by
  unfold decideWrite
  split
  · exact .inl (s.answered_retryTo r)
  · exact .inl (s.answered_retryTo r)
  · exact .inl (s.answered_abortTo r _ _)
  · split
    next p e he => exact .inr (.inl ⟨p, e, he, rfl⟩)
    · unfold classifyWrite
      simp only []
      split
      · exact .inl (s.answered_abortTo r _ _)
      · split
        · exact .inl (s.answered_abortTo r _ _)
        · split
          · exact .inl (s.answered_retryTo r)
          · exact s.guardWrite_goes r

/-- R30, R31: what a READ presentation comes to: an answer, a claim of the entry it matches, or a new entry. -/
def ReadGoes (s t : State) (r : Request) : Prop :=
  s.Answered t r ∨ (∃ p e, s.matching r = some (p, e) ∧ t = s.answerFromEntry r p e) ∨
    ∃ p, s.engine.freePlace = some p ∧ s.matching r = none ∧ t = s.createRead r p

theorem matchRead_goes (s : State) (r : Request) : s.ReadGoes (s.matchRead r) r := by
  unfold matchRead
  split
  next p e he => exact .inr (.inl ⟨p, e, he, rfl⟩)
  next hnone =>
    unfold classifyRead
    split
    · exact .inl (s.answered_abortTo r _ _)
    · split
      · exact .inl (s.answered_retryTo r)
      · unfold bufferRead
        split
        · exact .inl ⟨_, _, _, .inr (.inl ⟨_, _, rfl⟩), rfl⟩
        · split
          next p hp => exact .inr (.inr ⟨p, hp, hnone, rfl⟩)
          · exact .inl (s.answered_noRoomTo r)

theorem decideRead_goes (s : State) (r : Request) : s.ReadGoes (s.decideRead r) r := by
  unfold decideRead
  split
  · exact .inl (s.answered_retryTo r)
  · exact .inl (s.answered_retryTo r)
  · exact s.matchRead_goes r
  · exact s.matchRead_goes r

/-! ### The queue's law -/

theorem queueLaw_of_answered {s t : State} {r : Request} (h : s.queueLaw) (ht : s.Answered t r) : t.queueLaw := by
  obtain ⟨u, a, d, rfl | ⟨region, code, rfl⟩ | rfl, rfl⟩ := ht
  all_goals exact queueLaw_congr h (by simp [answerTo]) (by simp [answerTo]) (by simp [answerTo]) (by simp [answerTo])

theorem queueLaw_answerFromEntry {s : State} (h : s.queueLaw) (r : Request) (p : Fin 4) (e : DelayedEntry) :
    (s.answerFromEntry r p e).queueLaw :=
  queueLaw_congr h (by simp) (by simp) (by simp) (by simp)

theorem queueLaw_acceptPosted {s : State} (h : s.queueLaw) (r : Request) (c : Classification) (hroom : s.queue.length < 16) :
    (s.acceptPosted r c).queueLaw := by
  obtain ⟨hkept, hinit⟩ := (queueLaw_iff s).mp h
  have hsettled : (({ s.takeReservation c.reservation r.line with
      queue := (s.takeReservation c.reservation r.line).queue ++ [.write (bodyOf r c s.nextPos)] } : State).freshen
      r.line).settle.queueLaw := by
    refine queueLaw_settle ?_ fun op hop ho => ?_
    · simpa [queueKept] using hkept.push_write hroom (bodyOf r c s.nextPos)
    · simpa using hinit op (by simpa using hop) ho
  exact queueLaw_congr hsettled rfl rfl rfl rfl

theorem queueLaw_acceptDurable {s : State} (h : s.queueLaw) (r : Request) (c : Classification) (p : Fin 4) :
    (s.acceptDurable r c p).queueLaw :=
  queueLaw_congr (queueLaw_settle_of (u := (((s.takeReservation c.reservation r.line).setEntry p
    (some (newEntry r c s.nextPos))).freshen r.line)) h (by simp) (by simp) (by simp) (by simp)) rfl rfl rfl rfl

theorem queueLaw_createRead {s : State} (h : s.queueLaw) (r : Request) (p : Fin 4) : (s.createRead r p).queueLaw :=
  queueLaw_congr (queueLaw_settle_of (u := { s.setEntry p (some (newEntry r (s.classify r.line) s.nextPos)) with
    nextPos := s.nextPos + 1 }) h (by simp) (by simp) (by simp) (by simp)) rfl rfl rfl rfl

theorem queueLaw_decideWrite {s : State} (h : s.queueLaw) (r : Request) : (s.decideWrite r).queueLaw := by
  obtain ht | ⟨p, e, -, ht⟩ | ⟨c, -, ⟨hroom, ht⟩ | ⟨p, -, -, ht⟩⟩ := s.decideWrite_goes r
  · exact queueLaw_of_answered h ht
  · rw [ht]; exact queueLaw_answerFromEntry h r p e
  · rw [ht]; exact queueLaw_acceptPosted h r c hroom
  · rw [ht]; exact queueLaw_acceptDurable h r c p

theorem queueLaw_decideRead {s : State} (h : s.queueLaw) (r : Request) : (s.decideRead r).queueLaw := by
  obtain ht | ⟨p, e, -, ht⟩ | ⟨p, -, -, ht⟩ := s.decideRead_goes r
  · exact queueLaw_of_answered h ht
  · rw [ht]; exact queueLaw_answerFromEntry h r p e
  · rw [ht]; exact queueLaw_createRead h r p

theorem queueLaw_startReset (cause : ResetCause) (level : SupplyLevel) (nrstLow : Bool) (s : State) :
    (s.startReset cause level nrstLow).queueLaw :=
  (queueLaw_iff _).mpr ⟨QueueKept.empty, initHeld_of_free rfl⟩

theorem queueLaw_releaseHeld {s : State} (h : s.queueLaw) : s.releaseHeld.queueLaw := by
  unfold releaseHeld
  split
  next op hop =>
    split
    · exact queueLaw_reissue h hop
    · exact h
  · exact h

theorem queueLaw_moveSupply {s : State} (h : s.queueLaw) (st : SupplyState) : (s.moveSupply st).queueLaw := by
  have hentered : (s.enterSupply st).endWaitIfNormal.queueLaw :=
    queueLaw_congr h (by simp) (by simp) (by simp) (by simp)
  unfold moveSupply
  simp only []
  split
  · exact queueLaw_settle_of (queueLaw_releaseHeld hentered) rfl rfl rfl rfl
  · exact queueLaw_settle_of hentered rfl rfl rfl rfl

/-- R131, R133: a configuration image leaves the operation in flight. -/
theorem endLoading_before_settle (s : State) (im : Image) :
    ∃ u : State, s.endLoading im = u.settle ∧ u.queue = s.queue ∧ u.drain = s.drain ∧ u.mgmt = s.mgmt ∧
      u.engine.table = s.engine.table ∧ u.nextPos = s.nextPos ∧ u.port.op = s.port.op := by
  have himage (v : State) (bytes : List Byte) : (v.applyImage bytes).port.op = v.port.op ∧
      (v.applyImage bytes).engine.table = v.engine.table := by
    simp only [applyImage]
    split <;> simp [applySettings, setLimits, setClassifier, setStartup, setJournal, setEvents, setPort, setEngine]
  have hjudged (v : State) : v.judgeShadow.port.op = v.port.op ∧ v.judgeShadow.engine.table = v.engine.table := by
    simp only [judgeShadow]
    split
    · exact himage _ _
    · exact ⟨rfl, rfl⟩
  refine ⟨_, rfl, ?_⟩
  have hport := hjudged (s.setStartup { s.startup with shadow := readImage im })
  refine ⟨by simp, by simp, by simp, ?_, by simp, ?_⟩
  · simpa using hport.2
  · simpa using hport.1

theorem queueLaw_after (c : Instr) (s : State) (h : s.queueLaw) : (s.after c).queueLaw := by
  refine queueLaw_unframed.after h (fun u hu => queueLaw_action c hu) fun hc => ?_
  cases c <;> cases hc
  case write => exact queueLaw_decideWrite h _
  case read => exact queueLaw_decideRead h _
  case powerOnReset => exact queueLaw_startReset _ _ _ s
  case pinReset => exact queueLaw_startReset _ _ _ s
  case comparatorChange level =>
    simp only [after]
    split
    · exact queueLaw_startReset _ _ _ s
    · exact queueLaw_congr h (by simp) (by simp) (by simp) (by simp)
  case configurationLoad image =>
    obtain heq | ⟨-, -, heq⟩ := s.after_configurationLoad_cases image <;> rw [heq]
    · exact h
    · obtain ⟨u, hu, hq, hd, hm, -, -, hop⟩ := s.endLoading_before_settle image
      rw [hu]
      exact queueLaw_settle_of h hq hd (by rw [hm]) hop
  case supplyFilterExpiry f =>
    have hexpired : (s.setSupply (s.supply.expire f)).queueLaw := h
    simp only [after, expireFilter]
    repeat' split
    all_goals first
      | exact queueLaw_moveSupply hexpired _
      | exact h
  case claimTimerExpiry p =>
    obtain heq | ⟨e, -, -, heq⟩ := s.after_claimTimerExpiry_cases p <;> rw [heq]
    · exact h
    · exact queueLaw_congr h (by simp) (by simp) (by simp) (by simp)
  case memoryAnswer a late =>
    obtain heq | ⟨op, hop, heq⟩ := s.after_memoryAnswer_cases a late <;> rw [heq]
    · exact h
    · exact queueLaw_answered h hop a
  case attemptTimeout =>
    obtain heq | ⟨op, hop, heq⟩ := s.after_attemptTimeout_cases <;> rw [heq]
    · exact h
    · exact queueLaw_answered h hop .error
  case backoffEnd =>
    obtain heq | ⟨op, hop, -, heq⟩ := s.after_backoffEnd_cases <;> rw [heq]
    · exact h
    · unfold endBackoff
      split
      · exact queueLaw_of_reissued h hop rfl rfl rfl rfl rfl
      · exact queueLaw_reissue h hop
  case frameError bytes mcsRose =>
    have hfault : s.frameFault.queueLaw :=
      queueLaw_unframed.frameFault (queueLaw_congr h (by simp) (by simp) (by simp) (by simp))
    simp only [after, frameErrorAt]
    repeat' split
    all_goals first
      | exact h
      | exact hfault
  case mcsRisingEdge =>
    simp only [after]
    split
    · exact queueLaw_unframed (leaveFrame_framedAs _)
        (queueLaw_unframed.frameFault (queueLaw_congr h (by simp) (by simp) (by simp) (by simp)))
    · exact queueLaw_unframed (leaveFrame_framedAs _) h
  all_goals simp only [after]
  all_goals split
  all_goals first
    | exact h
    | exact queueLaw_congr h (by simp) (by simp) (by simp) (by simp)

end State

/-- Settles O6: a drain takes the queue's head alone, and a marker joins and leaves the queue with CLOSE EPOCH. -/
theorem everyStepKeepsTheQueueLaw : Obligations.EveryStepKeepsTheQueueLaw := fun _ _ h hstep =>
  State.queueLaw_unframed.step State.queueLaw_after
    (fun _ hu => State.queueLaw_congr hu (by simp) (by simp) (by simp) (by simp)) h hstep

end Sys2Proof.Machine
end

section
/-! O13 (R120): while the supply is FAIL no attempt, reissue or verify read is issued. -/

namespace Sys2Proof.Machine.State

theorem issuesNothing_of_op_eq {s t : State} (h : t.port.op = s.port.op) : s.issuesNothing t :=
  fun o ho => ⟨o, h ▸ ho, rfl, rfl, rfl, rfl, fun _ => rfl⟩

theorem issuesNothing_of_free {s t : State} (h : t.port.op = none) : s.issuesNothing t :=
  fun o ho => by rw [h] at ho; cases ho

/-- R113, R120: an operation that waits issues nothing. -/
theorem issuesNothing_of_waiting {s t : State} {op : Operation} {phase : Phase} {next : NextIssue} (h : s.port.op = some op)
    (ht : t.port.op = some { op with phase := phase, next := next }) (hp : phase = .backoff ∨ phase = .held) :
    s.issuesNothing t := by
  intro o ho
  rw [ht, Option.some.injEq] at ho
  subst ho
  refine ⟨op, h, rfl, rfl, rfl, rfl, fun hissued => ?_⟩
  obtain rfl | rfl := hp <;> obtain hissued | hissued := hissued <;> cases hissued

theorem issuesNothing_trans {s t u : State} (h : t.issuesNothing u) (heq : t.port.op = s.port.op) : s.issuesNothing u := by
  intro o ho
  obtain ⟨o', ho', hsame⟩ := h o ho
  exact ⟨o', heq ▸ ho', hsame⟩

/-- R120: in FAIL nothing follows an event at the port. -/
theorem settle_op_of_fail {s : State} (h : s.supply.state = .fail) : s.settle.port.op = s.port.op := by rw [settle_of_fail h]

/-! ### Answers -/

/-- R117, R120: an operation that ends in FAIL leaves the port free. -/
theorem succeed_op_of_fail {s : State} {op : Operation} {data : Line} (h : s.supply.state = .fail) :
    (s.succeed op data).port.op = none := by
  unfold succeed
  rw [settle_op_of_fail (by simpa [freePort, setPort] using h)]
  simp [freePort]

theorem failAtLimit_op_of_fail {s : State} {op : Operation} (h : s.supply.state = .fail) :
    (s.failAtLimit op).port.op = none := by
  unfold failAtLimit
  rw [failOp_eq, settle_op_of_fail (by simpa [setMemory] using h)]
  simp [beforeFailure_port_op]

theorem issuesNothing_answered {s : State} {op : Operation} (hop : s.port.op = some op) (h : s.supply.state = .fail)
    (a : MemAnswer) : s.issuesNothing (s.answered op a) := by
  have hbackOff {t : State} (n : NextIssue) : s.issuesNothing (t.backOff op n) :=
    issuesNothing_of_waiting hop rfl (.inl rfl)
  have hfailed : s.issuesNothing (s.failAtLimit op) := issuesNothing_of_free (failAtLimit_op_of_fail h)
  have hsucceeded {t : State} (data : Line) (ht : t.supply.state = .fail) : s.issuesNothing (t.succeed op data) :=
    issuesNothing_of_free (succeed_op_of_fail ht)
  unfold answered
  split
  case h_1 =>
    unfold attemptOk
    split
    · exact hsucceeded _ h
    · simp only []
      split
      · unfold startVerify
        refine issuesNothing_of_waiting (phase := .held) (next := .firstVerify) hop ?_ (.inr rfl)
        simp [issue, setPort, setMemory, h]
      · exact hsucceeded _ h
  case h_2 =>
    unfold attemptFailed
    split
    · exact hbackOff _
    · exact hfailed
  case h_3 =>
    unfold attemptError
    split
    · exact hbackOff _
    · exact hfailed
  case h_4 =>
    unfold verifyOk
    split
    · exact hsucceeded _ h
    · split
      · exact hbackOff _
      · exact hfailed
  case h_5 | h_6 =>
    unfold verifyFailed
    split
    · exact hbackOff _
    · exact hfailed
  all_goals exact issuesNothing_of_op_eq rfl

/-! ### The other commands -/

/-- R120: no management command issues anything in FAIL. -/
theorem action_op_of_fail (c : Instr) {u : State} (h : u.supply.state = .fail) : (action c u).2.port.op = u.port.op := by
  cases c
  case closeEpoch =>
    simp only [action, closeEpoch, takeClose]
    repeat' split
    case isFalse.isFalse.isFalse =>
      rw [settle_op_of_fail (by simpa [takeLong, appendMarker] using h)]
      simp [takeLong, appendMarker]
    all_goals rfl
  case initJournal epoch =>
    simp only [action, initJournal, takeInit]
    repeat' split
    case isFalse.isFalse.isFalse =>
      rw [settle_op_of_fail (by simpa [takeLong, setJournal] using h)]
      simp [takeLong, setJournal]
    all_goals rfl
  case rollback =>
    simp only [action, rollback, takeRollback]
    repeat' split
    case isFalse.isFalse =>
      rw [settle_op_of_fail (by simpa [takeLong, setEngine, setStartup] using h)]
      simp [takeLong, setEngine, setStartup]
    all_goals rfl
  case resetUpstream =>
    simp only [action, resetUpstream]
    rw [settle_op_of_fail (by simpa [setEngine] using h)]
    simp [setEngine]
  case writeParameters claim limit depth warn =>
    simp only [action, writeParameters]
    split
    · obtain ⟨hop, -⟩ := u.setLimits_op claim limit depth
      simpa using hop
    · rfl
  all_goals simp [action]

theorem issuesNothing_decideWrite {s : State} (h : s.supply.state = .fail) (r : Request) :
    s.issuesNothing (s.decideWrite r) := by
  refine issuesNothing_of_op_eq ?_
  obtain ⟨u, a, d, rfl | ⟨region, code, rfl⟩ | rfl, ht⟩ | ⟨p, e, -, ht⟩ | ⟨c, -, ⟨-, ht⟩ | ⟨p, -, -, ht⟩⟩ := s.decideWrite_goes r
  case inr.inr.inl =>
    rw [ht]
    simp only [acceptPosted, answerTo]
    rw [settle_op_of_fail (by simpa using h)]
    simp
  case inr.inr.inr =>
    rw [ht]
    simp only [acceptDurable, retryTo, answerTo]
    rw [settle_op_of_fail (by simpa using h)]
    simp
  all_goals simp [ht, answerTo]

theorem issuesNothing_decideRead {s : State} (h : s.supply.state = .fail) (r : Request) :
    s.issuesNothing (s.decideRead r) := by
  refine issuesNothing_of_op_eq ?_
  obtain ⟨u, a, d, rfl | ⟨region, code, rfl⟩ | rfl, ht⟩ | ⟨p, e, -, ht⟩ | ⟨p, -, -, ht⟩ := s.decideRead_goes r
  case inr.inr =>
    rw [ht]
    simp only [createRead, retryTo, answerTo]
    rw [settle_op_of_fail (by simpa using h)]
    simp
  all_goals simp [ht, answerTo]

/-- R120, R145: a move of the supply state to FAIL issues nothing. -/
theorem moveSupply_op_of_fail {s : State} {st : SupplyState} (h : (s.moveSupply st).supply.state = .fail) :
    (s.moveSupply st).port.op = s.port.op := by
  have hst : st = .fail := by
    unfold moveSupply at h
    split at h <;> cases st <;> simp [enterSupply, setSupply] at h <;> rfl
  subst hst
  unfold moveSupply
  simp only [ne_eq, not_true_eq_false, and_false, if_false]
  rw [settle_op_of_fail (by simp [enterSupply, setSupply])]
  simp

theorem issuesNothing_after (c : Instr) {s : State} (h : (s.after c).supply.state = .fail) : s.issuesNothing (s.after c) := by
  cases hc : c.isManagement
  case true =>
    rw [after_of_isManagement hc] at h ⊢
    unfold manage at *
    split at h
    next hframe =>
      rw [if_pos hframe]
      obtain ⟨hstate, -⟩ := action_stays c (s.endRequest (requestOf c))
      exact issuesNothing_of_op_eq (action_op_of_fail c (hstate ▸ h))
    next hframe =>
      rw [if_neg hframe]
      exact issuesNothing_of_op_eq rfl
  case false =>
    cases c <;> cases hc
    case write =>
      refine issuesNothing_decideWrite ?_ _
      simpa [after] using h
    case read =>
      refine issuesNothing_decideRead ?_ _
      simpa [after] using h
    case powerOnReset => exact issuesNothing_of_free rfl
    case pinReset => exact issuesNothing_of_free rfl
    case comparatorChange level =>
      simp only [after]
      split
      · exact issuesNothing_of_free rfl
      · exact issuesNothing_of_op_eq (by simp)
    case configurationLoad image =>
      obtain heq | ⟨-, -, heq⟩ := s.after_configurationLoad_cases image
      · exact issuesNothing_of_op_eq (by rw [heq])
      · obtain ⟨u, hu, -, -, -, -, -, hop⟩ := s.endLoading_before_settle image
        rw [heq, hu] at h ⊢
        exact issuesNothing_of_op_eq (by rw [settle_op_of_fail (by simpa using h), hop])
    case supplyFilterExpiry f =>
      simp only [after, expireFilter] at h ⊢
      repeat' split at h
      all_goals simp only [*, if_true, if_false, Bool.false_eq_true]
      · exact issuesNothing_of_op_eq (moveSupply_op_of_fail h)
      · exact issuesNothing_of_op_eq rfl
      · exact issuesNothing_of_op_eq rfl
    case memoryAnswer a late =>
      obtain heq | ⟨op, hop, heq⟩ := s.after_memoryAnswer_cases a late <;> rw [heq] at h ⊢
      · exact issuesNothing_of_op_eq rfl
      · exact issuesNothing_answered hop (by simpa using h) a
    case attemptTimeout =>
      obtain heq | ⟨op, hop, heq⟩ := s.after_attemptTimeout_cases <;> rw [heq] at h ⊢
      · exact issuesNothing_of_op_eq rfl
      · exact issuesNothing_answered hop (by simpa using h) .error
    case backoffEnd =>
      obtain heq | ⟨op, hop, -, heq⟩ := s.after_backoffEnd_cases <;> rw [heq] at h ⊢
      · exact issuesNothing_of_op_eq rfl
      · have hfail : s.supply.state = .fail := by simpa using h
        unfold endBackoff
        rw [if_pos hfail]
        exact issuesNothing_of_waiting hop rfl (.inr rfl)
    all_goals refine issuesNothing_of_op_eq ?_
    all_goals simp only [after]
    all_goals repeat' split
    all_goals simp

/-- Settles O13: nothing is granted in FAIL, and an operation that is answered there waits or ends. -/
theorem nothingIsIssuedInFail : Obligations.NothingIsIssuedInFail := by
  intro s t hstep hfail
  obtain ⟨u, hu, -, rfl | ⟨c, hc⟩ | ⟨bytes, r, flag, rfl⟩⟩ := step_leadsTo hstep
  · exact issuesNothing_of_op_eq (by rw [hu.1])
  · rw [eq_after_of_exec hc] at hfail ⊢
    exact issuesNothing_trans (issuesNothing_after c hfail) (by rw [hu.1])
  · refine issuesNothing_of_op_eq ?_
    rw [hu.1]
    simp

end Sys2Proof.Machine.State
end

section
/-! What becomes of the entries that stand (R38, R55, R57): but for the acceptances and the freshness actions every command leaves
of the queue a part, in its order, and in each place of the table the entry that was there, with its request and its position. -/

namespace Sys2Proof.Machine

/-! ### The relation -/

/-- R55: two entries are of one request. -/
def DelayedEntry.SameRequest (e f : DelayedEntry) : Prop :=
  f.kind = e.kind ∧ f.initiator = e.initiator ∧ f.body.line = e.body.line ∧ f.body.offset = e.body.offset ∧
    f.body.count = e.body.count ∧ f.body.data = e.body.data

theorem DelayedEntry.SameRequest.of_body_eq {e f : DelayedEntry} (hk : f.kind = e.kind) (hi : f.initiator = e.initiator)
    (hb : f.body = e.body) : e.SameRequest f := ⟨hk, hi, by rw [hb], by rw [hb], by rw [hb], by rw [hb]⟩

theorem DelayedEntry.SameRequest.trans {e f g : DelayedEntry} (h : e.SameRequest f) (h' : f.SameRequest g) :
    e.SameRequest g := by
  obtain ⟨h1, h2, h3, h4, h5, h6⟩ := h
  obtain ⟨g1, g2, g3, g4, g5, g6⟩ := h'
  exact ⟨g1.trans h1, g2.trans h2, g3.trans h3, g4.trans h4, g5.trans h5, g6.trans h6⟩

namespace State

/-- R38, R55, R57: nothing joins the queue or the table, and what stays there keeps its request and its position. -/
structure Descends (s t : State) : Prop where
  queue : (t.queue.map QueueEntry.pos).Sublist (s.queue.map QueueEntry.pos)
  table : ∀ (p : Fin 4) (f : DelayedEntry), t.engine.table[p] = some f →
    ∃ e, s.engine.table[p] = some e ∧ e.SameRequest f ∧ f.body.pos = e.body.pos
  nextPos : t.nextPos = s.nextPos

namespace Descends

variable {s t u : State}

/-- The queue, the table and the positions given out are as they were. -/
theorem of_eq (hq : t.queue = s.queue) (ht : t.engine.table = s.engine.table) (hn : t.nextPos = s.nextPos) : s.Descends t :=
  ⟨by rw [hq], fun p f hf => ⟨f, ht ▸ hf, .of_body_eq rfl rfl rfl, rfl⟩, hn⟩

theorem refl (s : State) : s.Descends s := of_eq rfl rfl rfl

theorem trans (h : s.Descends t) (h' : t.Descends u) : s.Descends u where
  queue := h'.queue.trans h.queue
  table q g hg := by
    obtain ⟨f, hf, hsame, hpos⟩ := h'.table q g hg
    obtain ⟨e, he, hsame', hpos'⟩ := h.table q f hf
    exact ⟨e, he, hsame'.trans hsame, hpos.trans hpos'⟩
  nextPos := h'.nextPos.trans h.nextPos

/-- A state with the queue, the table and the positions of one that descends. -/
theorem congr (h : s.Descends t) (hq : u.queue = t.queue) (ht : u.engine.table = t.engine.table)
    (hn : u.nextPos = t.nextPos) : s.Descends u := h.trans (of_eq hq ht hn)

/-- What descends from a state with the same queue, table and positions. -/
theorem of_same (h : t.Descends u) (hq : t.queue = s.queue) (ht : t.engine.table = s.engine.table)
    (hn : t.nextPos = s.nextPos) : s.Descends u := (of_eq hq ht hn).trans h

/-- The part of the queue that is left, with the table as it was. -/
theorem of_queue (hq : t.queue.Sublist s.queue) (ht : t.engine.table = s.engine.table) (hn : t.nextPos = s.nextPos) :
    s.Descends t :=
  ⟨hq.map _, fun _ f hf => ⟨f, ht ▸ hf, .of_body_eq rfl rfl rfl, rfl⟩, hn⟩

/-- One entry changes, but not its request and position. -/
theorem of_set {p : Fin 4} {e f : DelayedEntry} (he : s.engine.table[p] = some e) (hsame : e.SameRequest f)
    (hpos : f.body.pos = e.body.pos) : s.Descends (s.setEntry p (some f)) where
  queue := .refl _
  table q g hg := by
    have hset : (s.setEntry p (some f)).engine.table = s.engine.table.set p (some f) := rfl
    rw [hset, get_set] at hg
    split at hg
    next hpq =>
      subst hpq
      cases hg
      exact ⟨e, he, hsame, hpos⟩
    · exact ⟨g, hg, .of_body_eq rfl rfl rfl, rfl⟩
  nextPos := rfl

/-- One entry is removed. -/
theorem of_remove (s : State) (p : Fin 4) : s.Descends (s.setEntry p none) where
  queue := .refl _
  table q g hg := by
    have hset : (s.setEntry p none).engine.table = s.engine.table.set p none := rfl
    rw [hset, get_set] at hg
    split at hg
    · cases hg
    · exact ⟨g, hg, .of_body_eq rfl rfl rfl, rfl⟩
  nextPos := rfl

end Descends

/-! ### The engine -/

theorem completeEntry_descends {s : State} {p : Fin 4} {e : DelayedEntry} (he : s.engine.table[p] = some e) (r : EntryResult)
    (slot : Option (Fin 8)) : s.Descends (s.completeEntry p e r slot) :=
  .of_set he (.of_body_eq rfl rfl rfl) rfl

/-- R63, R64: an entry is COMPLETE, and its code is reported. -/
theorem completed_descends {s u : State} (hu : s.Descends u) {p : Fin 4} {e : DelayedEntry}
    (he : u.engine.table[p] = some e) (r : EntryResult) (slot : Option (Fin 8)) (region : Fin 9) (code : RegionCode) :
    s.Descends ((u.completeEntry p e r slot).report region code) :=
  (hu.trans (completeEntry_descends he r slot)).congr (by simp) (by simp) (by simp)

theorem adopt_descends (s : State) (i : Fin 8) : s.Descends (s.adopt i) := by
  unfold adopt
  split
  next line data age _ =>
    split
    next p _ =>
      split
      next e he =>
        have hslot : s.Descends (s.setSlot i (.valid line data (some p) age)) := .of_eq rfl rfl rfl
        exact completed_descends hslot he .ok (some i) _ .clean
      · exact .refl s
    · exact .refl s
  all_goals exact .refl s

theorem releaseSlot_descends (s : State) (slot : Option (Fin 8)) : s.Descends (s.releaseSlot slot) := by
  unfold releaseSlot
  split
  · exact .refl s
  · split
    · exact (adopt_descends _ _).of_same rfl rfl rfl
    all_goals exact .refl s

theorem removeEntry_descends (s : State) (p : Fin 4) (e : DelayedEntry) : s.Descends (s.removeEntry p e) :=
  (Descends.of_remove s p).trans (releaseSlot_descends (s.setEntry p none) e.slot)

theorem returnReader_descends (s : State) (owner : Option (Fin 4)) : s.Descends (s.returnReader owner) := by
  unfold returnReader
  split
  · exact .refl s
  · split
    next he => exact .of_set he (.of_body_eq rfl rfl rfl) rfl
    · exact .refl s

theorem demandSucceeded_descends (s : State) (data : Line) (first : Bool) : s.Descends (s.demandSucceeded data first) := by
  have hfilled (i : Fin 8) (line : Nat) (owner : Option (Fin 4)) : s.Descends (s.fillSlot i line data owner) := .of_eq rfl rfl rfl
  unfold demandSucceeded
  split
  · exact .refl s
  · exact (returnReader_descends _ _).of_same rfl rfl rfl
  · simp only []
    split
    · exact hfilled _ _ _
    · split
      next he => exact completed_descends (hfilled _ _ _) he _ _ _ _
      · exact hfilled _ _ _

theorem demandFailed_descends (s : State) : s.Descends s.demandFailed := by
  have hfreed (i : Fin 8) : s.Descends (s.setSlot i .free) := .of_eq rfl rfl rfl
  unfold demandFailed
  split
  · exact .refl s
  · exact (hfreed _).trans (returnReader_descends _ _)
  · simp only []
    split
    · exact hfreed _
    · split
      next he => exact completed_descends (hfreed _) he _ _ _ _
      · exact hfreed _

theorem prefetchSucceeded_descends (s : State) (data : Line) : s.Descends (s.prefetchSucceeded data) := by
  unfold prefetchSucceeded
  split
  · exact .refl s
  · exact .of_eq rfl rfl rfl
  · exact (adopt_descends _ _).of_same rfl rfl rfl

theorem prefetchFailed_descends (s : State) : s.Descends s.prefetchFailed := by
  unfold prefetchFailed
  split
  · exact .refl s
  · exact .of_eq rfl rfl rfl

/-! ### Drains -/

theorem leave_descends (s : State) (i : DrainItem) (c : RegionCode) (r : EntryResult) : s.Descends (s.leave i c r) := by
  unfold leave
  split
  · split
    · exact .of_queue (by simpa [setDrain, popQueue] using s.queue.tail_sublist) (by simp [setDrain, popQueue])
        (by simp [setDrain, popQueue])
    · exact .of_eq rfl rfl rfl
  · split
    next he =>
      exact (completeEntry_descends he r none).congr (by simp [setDrain]) (by simp [setDrain]) (by simp [setDrain])
    · exact .of_eq rfl rfl rfl
  all_goals exact .of_eq rfl rfl rfl

theorem issueEntry_descends (s : State) (i : DrainItem) : s.Descends (s.issueEntry i) := by
  unfold issueEntry
  split
  · split
    next he => exact .of_set he (.of_body_eq rfl rfl rfl) rfl
    · exact .refl s
  all_goals exact .refl s

theorem beginItem_descends (s : State) (i : DrainItem) : s.Descends (s.beginItem i) := by
  unfold beginItem
  split
  · split
    · exact .of_eq rfl rfl rfl
    · exact .refl s
  · split
    · exact leave_descends _ _ _ _
    · exact (issueEntry_descends s i).congr rfl rfl rfl

theorem beginDrains_descends (n : Nat) (s : State) : s.Descends (State.beginDrains n s) := by
  induction n generalizing s with
  | zero => exact .refl s
  | succ n ih =>
    unfold beginDrains
    split
    · split
      · exact .refl s
      · exact (beginItem_descends s _).trans (ih _)
    · exact .refl s

theorem arbitrate_descends (s : State) : s.Descends s.arbitrate where
  queue := by simp
  table p f hf := by
    obtain ⟨e, he, hb, hk, -⟩ := arbitrate_entry s p f hf
    obtain ⟨-, f', hf', -, -, hi, -⟩ := arbitrate_table he
    rw [hf, Option.some.injEq] at hf'
    subst hf'
    exact ⟨e, he, .of_body_eq hk hi hb, by rw [hb]⟩
  nextPos := by simp

theorem settle_descends (s : State) : s.Descends s.settle := (beginDrains_descends _ _).trans (arbitrate_descends _)

/-- A state that settles after a change that leaves the queue, the table and the positions. -/
theorem settle_descends_of {s u : State} (hq : u.queue = s.queue) (ht : u.engine.table = s.engine.table)
    (hn : u.nextPos = s.nextPos) : s.Descends u.settle := (Descends.of_eq hq ht hn).trans (settle_descends u)

/-! ### The outcomes of the head's operation -/

/-- R92: a record's completion marks the body of the drained entry. -/
theorem completeRecord_descends {s : State} {i : DrainItem} {b : Body} (hi : s.itemBody i = some b) :
    s.Descends (s.completeRecord i b) := by
  cases i with
  | postedWrite =>
    obtain ⟨rest, hq⟩ := queue_of_itemBody hi
    refine ⟨?_, fun p f hf => ⟨f, ?_, .of_body_eq rfl rfl rfl, rfl⟩, ?_⟩
    · simp [completeRecord, setItemBody, hq, QueueEntry.pos]
    · simpa [completeRecord, setItemBody] using hf
    · simp [completeRecord, setItemBody]
  | delayedWrite p =>
    obtain ⟨e, he, rfl⟩ : ∃ e, s.engine.table[p] = some e ∧ e.body = b := by simpa [itemBody] using hi
    have hset := Descends.of_set (f := { e with body := { e.body with recorded := true } }) he
      ⟨rfl, rfl, rfl, rfl, rfl, rfl⟩ rfl
    refine hset.congr ?_ ?_ ?_ <;> simp [completeRecord, setItemBody, setJournal, he, setEntry, setEngine]
  | closeMarker => cases hi
  | removed _ => exact .of_eq (by simp [completeRecord, setItemBody]) (by simp [completeRecord, setItemBody]) (by simp)

theorem pop_descends {s t : State} (hq : t.queue = s.queue.tail) (ht : t.engine.table = s.engine.table)
    (hn : t.nextPos = s.nextPos) : s.Descends t := .of_queue (by rw [hq]; exact s.queue.tail_sublist) ht hn

theorem closeSucceeded_descends (s : State) : s.Descends s.closeSucceeded :=
  pop_descends (by simp [closeSucceeded, popQueue, setDrain]) (by simp) (by simp)

theorem closeFailed_descends (s : State) : s.Descends s.closeFailed :=
  pop_descends (by simp [closeFailed, popQueue, setDrain]) (by simp) (by simp)

theorem removedSucceeded_descends {s : State} {d : Drain} {b : Body} (hi : d.item = .removed b) :
    s.Descends (s.removedSucceeded d b) := by
  unfold removedSucceeded
  split
  · exact (completeRecord_descends (by rw [hi]; rfl)).congr rfl rfl rfl
  all_goals exact .of_eq rfl rfl rfl

theorem removedFailed_descends (s : State) (d : Drain) : s.Descends (s.removedFailed d) :=
  .of_eq (by simp) (by simp) (by simp)

theorem stageSucceeded_descends {s : State} {d : Drain} {b : Body} (hi : s.itemBody d.item = some b) (data : Line)
    (first : Bool) : s.Descends (s.stageSucceeded d b data first) := by
  unfold stageSucceeded
  split
  case h_3 => exact (completeRecord_descends hi).congr rfl rfl rfl
  case h_4 => exact leave_descends _ _ _ _
  all_goals exact .of_eq rfl rfl rfl

theorem stageFailed_descends (s : State) (d : Drain) : s.Descends (s.stageFailed d) := by
  have hfailed : s.Descends (s.setJournalState .failed) := .of_eq (by simp) (by simp) (by simp)
  unfold stageFailed
  split
  case h_5 => exact .of_eq rfl rfl rfl
  case h_3 | h_4 => exact hfailed.trans (leave_descends _ _ _ _)
  all_goals exact leave_descends _ _ _ _

theorem headSucceeded_descends (s : State) (data : Line) (first : Bool) : s.Descends (s.headSucceeded data first) := by
  unfold headSucceeded
  split
  · exact .refl s
  next d hd =>
    split
    · exact closeSucceeded_descends s
    next hi => exact removedSucceeded_descends hi
    all_goals
      next hi =>
        split
        next b hb => exact stageSucceeded_descends (by rw [hi]; exact hb) _ _
        · exact .of_eq rfl rfl rfl

theorem headFailed_descends (s : State) : s.Descends s.headFailed := by
  unfold headFailed
  split
  · exact .refl s
  · split
    · exact closeFailed_descends s
    · exact removedFailed_descends s _
    all_goals exact stageFailed_descends s _

/-! ### The end of an operation -/

theorem ownerSucceeded_descends (s : State) (op : Operation) (data : Line) : s.Descends (s.ownerSucceeded op data) := by
  unfold ownerSucceeded
  cases op.owner
  case head => exact headSucceeded_descends s _ _
  case demandFill => exact demandSucceeded_descends s _ _
  case prefetch => exact prefetchSucceeded_descends s _
  all_goals exact .of_eq (by simp) (by simp) (by simp)

theorem ownerFailed_descends (s : State) (op : Operation) : s.Descends (s.ownerFailed op) := by
  unfold ownerFailed
  cases op.owner
  case head => exact headFailed_descends s
  case demandFill => exact demandFailed_descends s
  case prefetch => exact prefetchFailed_descends s
  all_goals exact .of_eq (by simp) (by simp) (by simp)

theorem succeed_descends (s : State) (op : Operation) (data : Line) : s.Descends (s.succeed op data) :=
  ((ownerSucceeded_descends s.freePort op data).trans (settle_descends _)).of_same rfl rfl rfl

theorem failAtLimit_descends (s : State) (op : Operation) : s.Descends (s.failAtLimit op) := by
  unfold failAtLimit
  rw [failOp_eq]
  have hbefore : s.Descends ((s.setMemory (op.spoils s.memory)).beforeFailure op) :=
    .of_eq (by simp [setMemory]) (by simp [setMemory]) (by simp [setMemory])
  exact (hbefore.trans (ownerFailed_descends _ op)).trans (settle_descends _)

theorem answered_descends (s : State) (op : Operation) (a : MemAnswer) : s.Descends (s.answered op a) := by
  have hkept {t : State} (n : NextIssue) (ht : s.Descends t) : s.Descends (t.backOff op n) := ht.congr rfl rfl rfl
  have hmemory (m : List Host.Cell) : s.Descends (s.setMemory m) := .of_eq rfl rfl rfl
  have hfailed := failAtLimit_descends s op
  unfold answered
  split
  case h_1 =>
    unfold attemptOk
    split
    · exact succeed_descends s _ _
    · simp only []
      split
      · exact .of_eq rfl rfl rfl
      · exact (hmemory _).trans (succeed_descends _ _ _)
  case h_2 =>
    unfold attemptFailed
    split
    · exact hkept _ (.refl s)
    · exact hfailed
  case h_3 =>
    unfold attemptError
    split
    · exact hkept _ (hmemory _)
    · exact hfailed
  case h_4 =>
    unfold verifyOk
    split
    · exact succeed_descends s _ _
    · split
      · exact hkept _ (.refl s)
      · exact hfailed
  case h_5 | h_6 =>
    unfold verifyFailed
    split
    · exact hkept _ (.refl s)
    · exact hfailed
  all_goals exact .refl s

end State

end Sys2Proof.Machine
end

section
/-! O7 (R55), and the order of O8 (R38, R57): the requests of the table, and the positions of the queue and of the table. -/

namespace Sys2Proof.Machine

/-! ### The requests of the table -/

namespace State

/-- R55: entries that come from those of a table with the law, each from its own place, keep it. -/
theorem tableLaw_of_from {s t : State} (h : s.tableLaw)
    (ht : ∀ (p : Fin 4) (f : DelayedEntry), t.engine.table[p] = some f → ∃ e, s.engine.table[p] = some e ∧ e.SameRequest f) :
    t.tableLaw := by
  obtain ⟨hkeys, hdata⟩ := h
  refine ⟨fun p q f g hf hg hpq hsame => ?_, fun p f hf hk => ?_⟩
  · obtain ⟨e, he, h1, h2, h3, h4, h5, -⟩ := ht p f hf
    obtain ⟨e', he', g1, g2, g3, g4, g5, -⟩ := ht q g hg
    rw [h1, h2, h3, h4, h5, g1, g2, g3, g4, g5] at hsame
    exact hkeys p q e e' he he' hpq hsame
  · obtain ⟨e, he, h1, -, -, -, -, h6⟩ := ht p f hf
    rw [h6]
    exact hdata p e he (h1 ▸ hk)

theorem Descends.tableLaw {s t : State} (h : s.Descends t) (hs : s.tableLaw) : t.tableLaw :=
  tableLaw_of_from hs fun p f hf => by
    obtain ⟨e, he, hsame, -⟩ := h.table p f hf
    exact ⟨e, he, hsame⟩

/-- R57, R65: the freshness actions leave the requests. -/
theorem refreshEntry_sameRequest (g : Engine) (line first : Nat) (e : DelayedEntry) :
    e.SameRequest (g.refreshEntry line first e) := by
  have hrestart : e.restart.kind = e.kind ∧ e.restart.initiator = e.initiator ∧ e.restart.body = e.body := by
    unfold DelayedEntry.restart
    split <;> exact ⟨rfl, rfl, rfl⟩
  obtain ⟨hk, hi, -⟩ := hrestart
  unfold Engine.refreshEntry
  split
  · exact ⟨hk, hi, rfl, rfl, rfl, rfl⟩
  · exact .of_body_eq rfl rfl rfl

theorem freshen_table (s : State) (line : Nat) (p : Fin 4) :
    (s.freshen line).engine.table[p] = (s.engine.table[p]).map (s.engine.refreshEntry line (s.nextPos + 1)) := by
  simp [freshen, Engine.refresh]

/-- R65: an entry after the freshness actions is one before them. -/
theorem freshen_table_eq_some {s : State} {line : Nat} {p : Fin 4} {f : DelayedEntry}
    (h : (s.freshen line).engine.table[p] = some f) :
    ∃ e, s.engine.table[p] = some e ∧ f = s.engine.refreshEntry line (s.nextPos + 1) e := by
  rw [freshen_table, Option.map_eq_some_iff] at h
  obtain ⟨e, he, rfl⟩ := h
  exact ⟨e, he, rfl⟩

theorem tableLaw_freshen {s : State} (h : s.tableLaw) (line : Nat) : (s.freshen line).tableLaw :=
  tableLaw_of_from h fun p f hf => by
    obtain ⟨e, he, rfl⟩ := freshen_table_eq_some hf
    exact ⟨e, he, refreshEntry_sameRequest _ _ _ e⟩

theorem tableLaw_congr {s t : State} (h : s.tableLaw) (ht : t.engine.table = s.engine.table) : t.tableLaw :=
  tableLaw_of_from h fun _ f hf => ⟨f, ht ▸ hf, .of_body_eq rfl rfl rfl⟩

/-- R28, R55: a new entry's request is that of no other entry, and a read's carries no data. -/
theorem tableLaw_place {s : State} (h : s.tableLaw) {p : Fin 4} {f : DelayedEntry}
    (hnew : ∀ (q : Fin 4) (e : DelayedEntry), s.engine.table[q] = some e → ¬ (e.initiator = f.initiator ∧ e.kind = f.kind ∧
      e.body.line = f.body.line ∧ e.body.offset = f.body.offset ∧ e.body.count = f.body.count))
    (hdata : f.kind = .read → f.body.data = 0) : (s.setEntry p (some f)).tableLaw := by
  have hget (q : Fin 4) : (s.setEntry p (some f)).engine.table[q] = if p = q then some f else s.engine.table[q] :=
    get_set _ _ _ _
  refine ⟨fun q q' e e' he he' hqq hsame => ?_, fun q e he hk => ?_⟩
  · rw [hget] at he he'
    split at he
    next hpq =>
      cases he
      rw [if_neg (fun hpq' => hqq (hpq.symm.trans hpq'))] at he'
      obtain ⟨h1, h2, h3, h4, h5⟩ := hsame
      exact hnew q' e' he' ⟨h1.symm, h2.symm, h3.symm, h4.symm, h5.symm⟩
    next hpq =>
      split at he'
      · cases he'
        exact hnew q e he hsame
      · exact h.1 q q' e e' he he' hqq hsame
  · rw [hget] at he
    split at he
    · cases he; exact hdata hk
    · exact h.2 q e he hk

/-- R28: no entry has the request's key. -/
theorem not_sameKey {s : State} {r : Request} (h : (s.engine.entries.any fun x => x.2.sameKey r) = false) {q : Fin 4}
    {e : DelayedEntry} (he : s.engine.table[q] = some e) : ¬ (e.initiator = r.initiator ∧ e.kind = r.kind ∧
      e.body.line = r.line ∧ e.body.offset = r.offset ∧ e.body.count = r.count) := by
  rintro ⟨h1, h2, h3, h4, h5⟩
  have hany := List.any_eq_false.mp h (q, e) (Engine.mem_entries.mpr he)
  simp [DelayedEntry.sameKey, h1, h2, h3, h4, h5] at hany

/-- R24, R55: a read that no entry matches has the key of no read entry, since no read carries data. -/
theorem not_sameKey_of_unmatched {s : State} {r : Request} (hs : s.tableLaw) (h : s.matching r = none)
    (hkind : r.kind = .read) (hdata : r.data = 0) {q : Fin 4} {e : DelayedEntry} (he : s.engine.table[q] = some e) :
    ¬ (e.initiator = r.initiator ∧ e.kind = r.kind ∧ e.body.line = r.line ∧ e.body.offset = r.offset ∧
      e.body.count = r.count) := by
  rintro ⟨h1, h2, h3, h4, h5⟩
  have hnone := List.find?_eq_none.mp h (q, e) (Engine.mem_entries.mpr he)
  have h6 := hs.2 q e he (h2.trans hkind)
  simp [DelayedEntry.matches, h1, h2, h3, h4, h5, h6, hdata] at hnone

theorem tableLaw_acceptPosted {s : State} (h : s.tableLaw) (r : Request) (c : Classification) : (s.acceptPosted r c).tableLaw := by
  refine tableLaw_congr ((settle_descends _).tableLaw (tableLaw_freshen (s := { s.takeReservation c.reservation r.line with
    queue := (s.takeReservation c.reservation r.line).queue ++ [.write (bodyOf r c s.nextPos)] }) ?_ r.line)) rfl
  exact tableLaw_congr h (by simp)

theorem tableLaw_acceptDurable {s : State} (h : s.tableLaw) {r : Request} (hr : r.kind = .write) (c : Classification)
    (p : Fin 4) (hkey : (s.engine.entries.any fun x => x.2.sameKey r) = false) : (s.acceptDurable r c p).tableLaw := by
  refine tableLaw_congr ((settle_descends _).tableLaw (tableLaw_freshen (s := (s.takeReservation c.reservation r.line).setEntry
    p (some (newEntry r c s.nextPos))) ?_ r.line)) rfl
  refine tableLaw_place (tableLaw_congr h (by simp)) (fun q e he => ?_) fun hk => ?_
  · exact not_sameKey hkey (by simpa using he)
  · cases hr.symm.trans hk

theorem tableLaw_createRead {s : State} (h : s.tableLaw) {r : Request} (hr : r.kind = .read) (hdata : r.data = 0) (p : Fin 4)
    (hnone : s.matching r = none) : (s.createRead r p).tableLaw := by
  refine tableLaw_congr ((settle_descends _).tableLaw (tableLaw_congr (t := { s.setEntry p
    (some (newEntry r (s.classify r.line) s.nextPos)) with nextPos := s.nextPos + 1 })
    (tableLaw_place h (fun q e he => ?_) fun _ => hdata) rfl)) rfl
  exact not_sameKey_of_unmatched h hnone hr hdata he

/-! ### The positions -/

theorem Descends.orderLaw {s t : State} (h : s.Descends t) (hs : s.orderLaw) : t.orderLaw := by
  obtain ⟨hsorted, hgiven, htable, hdistinct⟩ := hs
  have hmem (x : QueueEntry) (hx : x ∈ t.queue) : ∃ y ∈ s.queue, y.pos = x.pos :=
    List.mem_map.mp (h.queue.subset (List.mem_map_of_mem hx))
  refine ⟨hsorted.sublist h.queue, fun x hx => ?_, fun p f hf => ?_, fun p q f g hf hg hpq => ?_⟩
  · obtain ⟨y, hy, hpos⟩ := hmem x hx
    rw [h.nextPos, ← hpos]
    exact hgiven y hy
  · obtain ⟨e, he, -, hpos⟩ := h.table p f hf
    obtain ⟨hlt, hne⟩ := htable p e he
    rw [h.nextPos, hpos]
    refine ⟨hlt, fun x hx => ?_⟩
    obtain ⟨y, hy, heq⟩ := hmem x hx
    rw [← heq]
    exact hne y hy
  · obtain ⟨e, he, -, hpos⟩ := h.table p f hf
    obtain ⟨e', he', -, hpos'⟩ := h.table q g hg
    rw [hpos, hpos']
    exact hdistinct p q e e' he he' hpq

/-- R38: an entry of the newest position joins the queue. -/
theorem orderLaw_push {s : State} (h : s.orderLaw) {x : QueueEntry} (hx : x.pos = s.nextPos) :
    ({ s with queue := s.queue ++ [x], nextPos := s.nextPos + 1 } : State).orderLaw := by
  obtain ⟨hsorted, hgiven, htable, hdistinct⟩ := h
  refine ⟨?_, fun y hy => ?_, fun p e he => ⟨?_, fun y hy => ?_⟩, hdistinct⟩
  · rw [List.map_append, List.pairwise_append]
    refine ⟨hsorted, List.pairwise_singleton _ _, fun n hn m hm => ?_⟩
    obtain ⟨y, hy, rfl⟩ := List.mem_map.mp hn
    obtain rfl : m = x.pos := by simpa using hm
    rw [hx]
    exact hgiven y hy
  · obtain hy | hy := List.mem_append.mp hy
    · exact Nat.lt_succ_of_lt (hgiven y hy)
    · obtain rfl : y = x := by simpa using hy
      simp [hx]
  · exact Nat.lt_succ_of_lt (htable p e he).1
  · obtain hy | hy := List.mem_append.mp hy
    · exact (htable p e he).2 y hy
    · obtain rfl : y = x := by simpa using hy
      rw [hx]
      exact Nat.ne_of_gt (htable p e he).1

/-- R57: an entry of the newest position takes a place of the table. -/
theorem orderLaw_place {s : State} (h : s.orderLaw) {p : Fin 4} {f : DelayedEntry} (hf : f.body.pos = s.nextPos) :
    ({ s.setEntry p (some f) with nextPos := s.nextPos + 1 } : State).orderLaw := by
  obtain ⟨hsorted, hgiven, htable, hdistinct⟩ := h
  have hget (q : Fin 4) : (s.engine.table.set p (some f))[q] = if p = q then some f else s.engine.table[q] := get_set _ _ _ _
  refine ⟨hsorted, fun x hx => Nat.lt_succ_of_lt (hgiven x hx), fun q e (he : (s.engine.table.set p (some f))[q] = some e) => ?_,
    fun q q' e e' (he : (s.engine.table.set p (some f))[q] = some e)
      (he' : (s.engine.table.set p (some f))[q'] = some e') hqq => ?_⟩
  · rw [hget] at he
    split at he
    · cases he
      exact ⟨by simp [hf], fun x hx => hf ▸ Nat.ne_of_lt (hgiven x hx)⟩
    · obtain ⟨hlt, hne⟩ := htable q e he
      exact ⟨Nat.lt_succ_of_lt hlt, hne⟩
  · rw [hget] at he he'
    split at he
    next hpq =>
      cases he
      rw [if_neg (fun hpq' => hqq (hpq.symm.trans hpq'))] at he'
      rw [hf]
      exact Nat.ne_of_gt (htable q' e' he').1
    next hpq =>
      split at he'
      · cases he'
        rw [hf]
        exact Nat.ne_of_lt (htable q e he).1
      · exact hdistinct q q' e e' he he' hqq

/-- R57, R65: what a refreshed entry's position is: its own, or that of its rank among the reads of the line. -/
theorem refreshEntry_pos_cases (g : Engine) (line first : Nat) (e : DelayedEntry) :
    (g.refreshEntry line first e).body.pos = e.body.pos ∨
      (e.readsLine line = true ∧ (g.refreshEntry line first e).body.pos = first + g.readsBefore line e.body.pos) := by
  cases hk : e.readsLine line
  case false => exact .inl (by simp [Engine.refreshEntry, hk])
  case true => exact .inr ⟨rfl, refreshEntry_pos g hk⟩

/-- R57, R65: the read entries of a line move behind the write of the newest position, in the order that they had. -/
theorem orderLaw_freshen {s : State} (h : ({ s with nextPos := s.nextPos + 1 } : State).orderLaw) (line : Nat) :
    (s.freshen line).orderLaw := by
  obtain ⟨hsorted, hgiven, htable, hdistinct⟩ := h
  have hnext : (s.freshen line).nextPos = s.nextPos + 1 + s.engine.readsOf line := rfl
  refine ⟨by simpa using hsorted, fun x hx => ?_, fun p f hf => ?_, fun p q f g hf hg hpq => ?_⟩
  · rw [hnext]
    exact Nat.lt_add_right _ (hgiven x (by simpa using hx))
  · obtain ⟨e, he, rfl⟩ := freshen_table_eq_some hf
    obtain ⟨hlt, hne⟩ := htable p e he
    obtain hpos | ⟨hk, hpos⟩ := refreshEntry_pos_cases s.engine line (s.nextPos + 1) e <;> rw [hpos, hnext]
    · exact ⟨Nat.lt_add_right _ hlt, fun x hx => hne x (by simpa using hx)⟩
    · have hrank := readsBefore_lt he hk
      refine ⟨by omega, fun x hx => ?_⟩
      have hbefore : x.pos < s.nextPos + 1 := hgiven x (by simpa using hx)
      omega
  · obtain ⟨e, he, rfl⟩ := freshen_table_eq_some hf
    obtain ⟨e', he', rfl⟩ := freshen_table_eq_some hg
    have hlt : e.body.pos < s.nextPos + 1 := (htable p e he).1
    have hlt' : e'.body.pos < s.nextPos + 1 := (htable q e' he').1
    have hne : e.body.pos ≠ e'.body.pos := hdistinct p q e e' he he' hpq
    obtain hpos | ⟨hk, hpos⟩ := refreshEntry_pos_cases s.engine line (s.nextPos + 1) e <;>
      obtain hpos' | ⟨hk', hpos'⟩ := refreshEntry_pos_cases s.engine line (s.nextPos + 1) e' <;> rw [hpos, hpos']
    · exact hne
    · omega
    · omega
    · obtain hrank | hrank := Nat.lt_or_gt_of_ne hne
      · have := readsBefore_lt_readsBefore he hk hrank
        omega
      · have := readsBefore_lt_readsBefore he' hk' hrank
        omega

theorem orderLaw_congr {s t : State} (h : s.orderLaw) (hq : t.queue = s.queue) (ht : t.engine.table = s.engine.table)
    (hn : t.nextPos = s.nextPos) : t.orderLaw := (Descends.of_eq hq ht hn).orderLaw h

theorem orderLaw_acceptPosted {s : State} (h : s.orderLaw) (r : Request) (c : Classification) : (s.acceptPosted r c).orderLaw := by
  refine orderLaw_congr ((settle_descends _).orderLaw (orderLaw_freshen (s := { s.takeReservation c.reservation r.line with
    queue := (s.takeReservation c.reservation r.line).queue ++ [.write (bodyOf r c s.nextPos)] }) ?_ r.line)) rfl rfl rfl
  exact orderLaw_congr (orderLaw_push h (x := .write (bodyOf r c s.nextPos)) rfl) (by simp) (by simp) (by simp)

theorem orderLaw_acceptDurable {s : State} (h : s.orderLaw) (r : Request) (c : Classification) (p : Fin 4) :
    (s.acceptDurable r c p).orderLaw := by
  refine orderLaw_congr ((settle_descends _).orderLaw (orderLaw_freshen (s := (s.takeReservation c.reservation r.line).setEntry
    p (some (newEntry r c s.nextPos))) ?_ r.line)) rfl rfl rfl
  exact orderLaw_congr (orderLaw_place h (p := p) (f := newEntry r c s.nextPos) rfl) (by simp) (by simp [setEntry, setEngine])
    (by simp)

theorem orderLaw_createRead {s : State} (h : s.orderLaw) (r : Request) (p : Fin 4) : (s.createRead r p).orderLaw :=
  orderLaw_congr ((settle_descends _).orderLaw (orderLaw_place h (p := p)
    (f := newEntry r (s.classify r.line) s.nextPos) rfl)) rfl rfl rfl

end State

end Sys2Proof.Machine
end

section
/-! What every step keeps of the entries (O7 and the order of O8): a property that descends is kept where the resets have it and
the acceptances and the close marker keep it. -/

namespace Sys2Proof.Machine.State

/-- A property of the queue, the table and the positions that every step keeps. -/
structure EntryLaw (P : State → Prop) : Prop where
  descends : ∀ {s t : State}, s.Descends t → P s → P t
  reset : ∀ (cause : ResetCause) (level : SupplyLevel) (nrstLow : Bool) (s : State), P (s.startReset cause level nrstLow)
  marker : ∀ {s : State}, P s → P s.appendMarker
  write : ∀ {s : State} (i : BitVec 2) (addr : BitVec 26) (ucount : BitVec 6) (data : Line), P s →
    P (s.decideWrite (requestAt .write i addr ucount data))
  read : ∀ {s : State} (i : BitVec 2) (addr : BitVec 26) (ucount : BitVec 6), P s →
    P (s.decideRead (requestAt .read i addr ucount 0))

namespace EntryLaw

variable {P : State → Prop}

theorem congr (hP : EntryLaw P) {s t : State} (h : P s) (hq : t.queue = s.queue)
    (ht : t.engine.table = s.engine.table) (hn : t.nextPos = s.nextPos) : P t := hP.descends (.of_eq hq ht hn) h

theorem settled (hP : EntryLaw P) {s u : State} (h : P s) (hq : u.queue = s.queue)
    (ht : u.engine.table = s.engine.table) (hn : u.nextPos = s.nextPos) : P u.settle :=
  hP.descends (settle_descends_of hq ht hn) h

theorem unframed (hP : EntryLaw P) : Unframed P := by
  intro s u hu h
  rw [hu.1]
  exact hP.congr h rfl rfl rfl

/-- R75: RESET UPSTREAM empties the table. -/
theorem resetUpstream (hP : EntryLaw P) {u : State} (h : P u) : P u.resetUpstream := by
  have hempty : u.Descends (u.orphanDrain.setEngine u.engine.empty) :=
    ⟨by simp [setEngine], fun p f hf => by simp [setEngine, Engine.empty] at hf, by simp [setEngine]⟩
  exact hP.descends (hempty.trans (settle_descends _)) h

theorem action (hP : EntryLaw P) (c : Instr) {u : State} (h : P u) : P (Machine.action c u).2 := by
  cases c
  case closeEpoch =>
    simp only [Machine.action, closeEpoch]
    repeat' split
    all_goals first
      | exact h
      | exact hP.settled (hP.marker h) (by simp [takeLong]) (by simp [takeLong]) (by simp [takeLong])
  case initJournal epoch =>
    simp only [Machine.action, initJournal]
    repeat' split
    all_goals first
      | exact h
      | exact hP.settled h (by simp [takeLong, setJournal]) (by simp [takeLong, setJournal]) (by simp [takeLong, setJournal])
  case rollback =>
    simp only [Machine.action, rollback]
    repeat' split
    all_goals first
      | exact h
      | exact hP.settled h (by simp [takeLong, setEngine, setStartup])
          (by simp [takeLong, setEngine, setStartup, Engine.freeBuffer]) (by simp [takeLong, setEngine, setStartup])
  case resetUpstream => exact hP.resetUpstream h
  case writeParameters claim limit depth warn =>
    simp only [Machine.action, writeParameters]
    split
    · exact hP.congr h (by simp) (by simp [setLimits, setEngine, setPort]) (by simp)
    · exact h
  all_goals exact hP.congr h (by simp [Machine.action]) (by simp [Machine.action]) (by simp [Machine.action])

theorem moveSupply (hP : EntryLaw P) {s : State} (h : P s) (st : SupplyState) : P (s.moveSupply st) := by
  unfold State.moveSupply
  simp only []
  split <;> exact hP.settled h (by simp) (by simp) (by simp)

theorem after (hP : EntryLaw P) (c : Instr) (s : State) (h : P s) : P (s.after c) := by
  refine Unframed.after (P := P) hP.unframed h (fun u hu => hP.action c hu) fun hc => ?_
  cases c <;> cases hc
  case write => exact hP.write _ _ _ _ h
  case read => exact hP.read _ _ _ h
  case powerOnReset => exact hP.reset _ _ _ s
  case pinReset => exact hP.reset _ _ _ s
  case comparatorChange level =>
    simp only [State.after]
    split
    · exact hP.reset _ _ _ s
    · exact hP.congr h (by simp) (by simp) (by simp)
  case configurationLoad image =>
    obtain heq | ⟨-, -, heq⟩ := s.after_configurationLoad_cases image <;> rw [heq]
    · exact h
    · obtain ⟨u, hu, hq, -, -, ht, hn, -⟩ := s.endLoading_before_settle image
      rw [hu]
      exact hP.settled h hq ht hn
  case supplyFilterExpiry f =>
    have hexpired : P (s.setSupply (s.supply.expire f)) := hP.congr h rfl rfl rfl
    simp only [State.after, expireFilter]
    repeat' split
    all_goals first
      | exact hP.moveSupply hexpired _
      | exact hexpired
      | exact h
  case claimTimerExpiry p =>
    obtain heq | ⟨e, -, -, heq⟩ := s.after_claimTimerExpiry_cases p <;> rw [heq]
    · exact h
    · refine hP.descends (removeEntry_descends _ p e) (hP.congr h ?_ ?_ ?_) <;> simp
  case memoryAnswer a late =>
    obtain heq | ⟨op, -, heq⟩ := s.after_memoryAnswer_cases a late <;> rw [heq]
    · exact h
    · exact hP.descends (answered_descends s op a) h
  case attemptTimeout =>
    obtain heq | ⟨op, -, heq⟩ := s.after_attemptTimeout_cases <;> rw [heq]
    · exact h
    · exact hP.descends (answered_descends s op .error) h
  all_goals refine hP.congr h ?_ ?_ ?_ <;> simp only [State.after]
  all_goals repeat' split
  all_goals simp

theorem step (hP : EntryLaw P) {s t : State} (h : P s) (hstep : Machine.step s = .next t) : P t :=
  Unframed.step (P := P) hP.unframed hP.after (fun _ hu => hP.congr hu (by simp) (by simp) (by simp)) h hstep

end EntryLaw

/-! ### The laws of the table and of the order -/

theorem descends_of_answered {s t : State} {r : Request} (h : s.Answered t r) : s.Descends t := by
  obtain ⟨u, a, d, rfl | ⟨region, code, rfl⟩ | rfl, rfl⟩ := h
  all_goals exact .of_eq (by simp [answerTo]) (by simp [answerTo]) (by simp [answerTo])

theorem answerFromEntry_descends (s : State) (r : Request) (p : Fin 4) (e : DelayedEntry) :
    s.Descends (s.answerFromEntry r p e) := by
  have hremoved := removeEntry_descends s p e
  unfold answerFromEntry
  split
  case h_1 | h_2 => exact .of_eq rfl rfl rfl
  all_goals exact hremoved.congr rfl rfl rfl

/-- A read's request carries no data. -/
theorem requestAt_read_data (i : BitVec 2) (addr : BitVec 26) (ucount : BitVec 6) :
    (requestAt .read i addr ucount 0).data = 0 := by
  simp [requestAt, keepBytes]

theorem tableLaw_entryLaw : EntryLaw tableLaw where
  descends h := h.tableLaw
  reset cause level nrstLow s := by
    refine ⟨fun p q e f he => ?_, fun p e he => ?_⟩ <;> simp [startReset, Engine.reset] at he
  marker h := tableLaw_congr h rfl
  write {s} i addr ucount data h := by
    obtain ht | ⟨p, e, -, ht⟩ | ⟨c, -, ⟨-, ht⟩ | ⟨p, -, hkey, ht⟩⟩ := s.decideWrite_goes (requestAt .write i addr ucount data)
    · exact (descends_of_answered ht).tableLaw h
    · rw [ht]; exact (answerFromEntry_descends s _ p e).tableLaw h
    · rw [ht]; exact tableLaw_acceptPosted h _ c
    · rw [ht]; exact tableLaw_acceptDurable h rfl c p hkey
  read {s} i addr ucount h := by
    obtain ht | ⟨p, e, -, ht⟩ | ⟨p, -, hnone, ht⟩ := s.decideRead_goes (requestAt .read i addr ucount 0)
    · exact (descends_of_answered ht).tableLaw h
    · rw [ht]; exact (answerFromEntry_descends s _ p e).tableLaw h
    · rw [ht]; exact tableLaw_createRead h rfl (requestAt_read_data i addr ucount) p hnone

theorem orderLaw_entryLaw : EntryLaw orderLaw where
  descends h := h.orderLaw
  reset cause level nrstLow s := by
    refine ⟨List.Pairwise.nil, fun x hx => (by cases hx), fun p e he => ?_, fun p q e f he => ?_⟩ <;>
      simp [startReset, Engine.reset] at he
  marker h := orderLaw_push h rfl
  write {s} i addr ucount data h := by
    obtain ht | ⟨p, e, -, ht⟩ | ⟨c, -, ⟨-, ht⟩ | ⟨p, -, -, ht⟩⟩ := s.decideWrite_goes (requestAt .write i addr ucount data)
    · exact (descends_of_answered ht).orderLaw h
    · rw [ht]; exact (answerFromEntry_descends s _ p e).orderLaw h
    · rw [ht]; exact orderLaw_acceptPosted h _ c
    · rw [ht]; exact orderLaw_acceptDurable h _ c p
  read {s} i addr ucount h := by
    obtain ht | ⟨p, e, -, ht⟩ | ⟨p, -, -, ht⟩ := s.decideRead_goes (requestAt .read i addr ucount 0)
    · exact (descends_of_answered ht).orderLaw h
    · rw [ht]; exact (answerFromEntry_descends s _ p e).orderLaw h
    · rw [ht]; exact orderLaw_createRead h _ p

/-- Settles O7: an entry keeps its request, and a new one is of no other entry's. -/
theorem everyStepKeepsTheTableLaw : Obligations.EveryStepKeepsTheTableLaw := fun _ _ => tableLaw_entryLaw.step

end Sys2Proof.Machine.State
end

section
/-! O8 (R38, R57, R86, R122): the order, the epoch line set and the failed-line list, and with the laws of the work that stands the
fills. -/

namespace Sys2Proof.Machine.State

/-! ### The epoch line set (R86) -/

/-- R86: the lines of the epoch line set are those that they were, or none. -/
def KeepsLines (s t : State) : Prop :=
  t.journal.lineSet.map (·.1) = s.journal.lineSet.map (·.1) ∨ t.journal.lineSet = []

theorem KeepsLines.of_eq {s t : State} (h : t.journal.lineSet = s.journal.lineSet) : s.KeepsLines t := .inl (by rw [h])

theorem KeepsLines.lineSetLaw {s t : State} (h : s.KeepsLines t) (hs : s.lineSetLaw) : t.lineSetLaw := by
  obtain hsame | hempty := h
  · have hlen : t.journal.lineSet.length = s.journal.lineSet.length := by simpa using congrArg List.length hsame
    unfold State.lineSetLaw
    rw [hlen, hsame]
    exact hs
  · unfold State.lineSetLaw
    rw [hempty]
    exact ⟨by decide, List.nodup_nil⟩

/-- R92: a record's completion changes a mark and no line. -/
theorem completeRecord_keepsLines (s : State) (i : DrainItem) (b : Body) : s.KeepsLines (s.completeRecord i b) := by
  have hlines : (s.completeRecord i b).journal.lineSet = (s.journal.record b.line).lineSet := by
    simp only [completeRecord, count_frame]
    cases i <;> simp [setItemBody, setJournal]
    split <;> rfl
  left
  rw [hlines]
  simp only [Journal.record, List.map_map]
  refine List.map_congr_left fun x _ => ?_
  simp only [Function.comp_apply]
  split <;> rfl

theorem headSucceeded_keepsLines (s : State) (data : Line) (first : Bool) : s.KeepsLines (s.headSucceeded data first) := by
  unfold headSucceeded
  split
  · exact .of_eq rfl
  · split
    · exact .inr (by simp [closeSucceeded, Journal.clear, setJournal])
    · unfold removedSucceeded
      split
      · exact completeRecord_keepsLines s _ _
      all_goals exact .of_eq rfl
    all_goals
      split
      · unfold stageSucceeded
        simp only []
        split
        case h_3 => exact completeRecord_keepsLines s _ _
        case h_4 => exact .of_eq (by simp)
        all_goals exact .of_eq rfl
      · exact .of_eq rfl

theorem scanEnds_lineSet (s : State) (n : Nat) : (s.scanEnds n).journal.lineSet = s.journal.lineSet := by
  simp only [scanEnds]
  repeat' split
  all_goals simp [setJournal, setStartup]

theorem scanTo_lineSet (s : State) (k : Nat) : (s.scanTo k).journal.lineSet = s.journal.lineSet := by
  simp only [scanTo]
  split
  · exact scanEnds_lineSet s k
  · rfl

theorem scanSucceeded_lineSet (s : State) (data : Line) : (s.scanSucceeded data).journal.lineSet = s.journal.lineSet := by
  unfold scanSucceeded
  split
  case h_1 =>
    split
    · exact scanTo_lineSet _ _
    · simp
  case h_2 =>
    split
    · rfl
    · exact scanEnds_lineSet _ _
  case h_3 =>
    split
    · exact scanTo_lineSet _ _
    · exact scanEnds_lineSet _ _
  all_goals rfl

theorem scanFailed_lineSet (s : State) : s.scanFailed.journal.lineSet = s.journal.lineSet := by
  unfold scanFailed
  split <;> simp [scanBroken, setJournal]

theorem rollSucceeded_keepsLines (s : State) (data : Line) : s.KeepsLines (s.rollSucceeded data) := by
  unfold rollSucceeded
  split
  case h_4 => exact .inr (by simp [rollHeaderSucceeded, setJournal, Journal.clear])
  case h_1 | h_2 => split <;> exact .of_eq rfl
  all_goals exact .of_eq rfl

theorem ownerSucceeded_keepsLines (s : State) (op : Operation) (data : Line) : s.KeepsLines (s.ownerSucceeded op data) := by
  unfold ownerSucceeded
  cases op.owner
  case head => exact headSucceeded_keepsLines s _ _
  case scan => exact .of_eq (scanSucceeded_lineSet s data)
  case rollback => exact rollSucceeded_keepsLines s data
  all_goals exact .of_eq (by simp)

theorem ownerFailed_lineSet (s : State) (op : Operation) : (s.ownerFailed op).journal.lineSet = s.journal.lineSet := by
  unfold ownerFailed
  cases op.owner
  case scan => exact scanFailed_lineSet s
  all_goals simp

theorem succeed_keepsLines (s : State) (op : Operation) (data : Line) : s.KeepsLines (s.succeed op data) := by
  have howner := ownerSucceeded_keepsLines s.freePort op data
  unfold KeepsLines succeed at *
  simpa using howner

theorem failAtLimit_lineSet (s : State) (op : Operation) : (s.failAtLimit op).journal.lineSet = s.journal.lineSet := by
  unfold failAtLimit
  rw [failOp_eq]
  simp [ownerFailed_lineSet, setMemory]

theorem answered_keepsLines (s : State) (op : Operation) (a : MemAnswer) : s.KeepsLines (s.answered op a) := by
  have hfailed : s.KeepsLines (s.failAtLimit op) := .of_eq (failAtLimit_lineSet s op)
  unfold answered
  split
  case h_1 =>
    unfold attemptOk
    split
    · exact succeed_keepsLines s _ _
    · simp only []
      split
      · exact .of_eq rfl
      · exact succeed_keepsLines (s.setMemory _) _ _
  case h_2 =>
    unfold attemptFailed
    split
    · exact .of_eq rfl
    · exact hfailed
  case h_3 =>
    unfold attemptError
    split
    · exact .of_eq rfl
    · exact hfailed
  case h_4 =>
    unfold verifyOk
    split
    · exact succeed_keepsLines s _ _
    · split
      · exact .of_eq rfl
      · exact hfailed
  case h_5 | h_6 =>
    unfold verifyFailed
    split
    · exact .of_eq rfl
    · exact hfailed
  all_goals exact .of_eq rfl

/-- R86, R88: a LISTED reservation is of a line that is not in the set, while the set has room. -/
theorem lineSetLaw_takeReservation {s : State} (h : s.lineSetLaw) {k : ReservationKind} {line : Nat}
    (hk : k = .listed → s.reservationFor line = some .listed) : (s.takeReservation k line).lineSetLaw := by
  cases k
  case listed =>
    have hlisted := hk rfl
    unfold reservationFor at hlisted
    split at hlisted
    · cases hlisted
    next hnew =>
      split at hlisted
      · split at hlisted
        next hroom =>
          obtain ⟨-, hnodup⟩ := h
          rw [inSet_eq, decide_eq_true_eq] at hnew
          unfold State.lineSetLaw
          simp only [takeReservation, setJournal, List.map_append, List.length_append]
          refine ⟨hroom, ?_⟩
          rw [List.nodup_append]
          refine ⟨hnodup, List.nodup_singleton _, fun x hx y hy => ?_⟩
          obtain rfl : y = line := by simpa using hy
          rintro rfl
          exact hnew hx
        · cases hlisted
      · cases hlisted
  all_goals exact h

theorem lineSetLaw_congr {s t : State} (h : s.lineSetLaw) (ht : t.journal.lineSet = s.journal.lineSet) : t.lineSetLaw :=
  (KeepsLines.of_eq ht).lineSetLaw h

theorem lineSetLaw_decideWrite {s : State} (h : s.lineSetLaw) (r : Request) : (s.decideWrite r).lineSetLaw := by
  obtain ⟨u, a, d, rfl | ⟨region, code, rfl⟩ | rfl, ht⟩ | ⟨p, e, -, ht⟩ | ⟨c, hc, ⟨-, ht⟩ | ⟨p, -, -, ht⟩⟩ := s.decideWrite_goes r
  case inr.inr.inl | inr.inr.inr =>
    rw [ht]
    exact lineSetLaw_congr (lineSetLaw_takeReservation h hc) (by simp [acceptPosted, acceptDurable, answerTo])
  all_goals exact lineSetLaw_congr h (by simp [ht, answerTo])

theorem action_keepsLines (c : Instr) (u : State) : u.KeepsLines (action c u).2 := by
  cases c
  case writeJournalPlacement base size =>
    simp only [action, writePlacement]
    repeat' split
    all_goals first
      | exact .of_eq rfl
      | exact .inr (by simp [placeJournal, setJournal])
  case closeEpoch =>
    simp only [action, closeEpoch]
    repeat' split
    all_goals exact .of_eq (by simp)
  case initJournal epoch =>
    simp only [action, initJournal]
    repeat' split
    all_goals first
      | exact .of_eq rfl
      | exact .inr (by simp [takeInit, takeLong, setJournal, Journal.clear])
  case rollback =>
    simp only [action, rollback]
    repeat' split
    all_goals exact .of_eq (by simp)
  all_goals exact .of_eq (by simp [action])

theorem lineSetLaw_unframed : Unframed lineSetLaw := by
  intro s u hu h
  rw [hu.1]
  exact h

theorem endLoading_lineSet (s : State) (im : Image) : (s.endLoading im).journal.lineSet = s.journal.lineSet := by
  have himage (v : State) (bytes : List Byte) : (v.applyImage bytes).journal.lineSet = v.journal.lineSet := by
    simp only [applyImage]
    split <;> simp [applySettings, setLimits, setClassifier, setStartup, setJournal, setEvents, setPort, setEngine]
  have hjudged (v : State) : v.judgeShadow.journal.lineSet = v.journal.lineSet := by
    simp only [judgeShadow]
    split
    · exact himage _ _
    · rfl
  simp [endLoading, hjudged, setStartup]

theorem lineSetLaw_after (c : Instr) (s : State) (h : s.lineSetLaw) : (s.after c).lineSetLaw := by
  refine lineSetLaw_unframed.after h (fun u hu => (action_keepsLines c u).lineSetLaw hu) fun hc => ?_
  cases c <;> cases hc
  case write => exact lineSetLaw_decideWrite h _
  case powerOnReset => exact KeepsLines.lineSetLaw (.inr rfl) h
  case pinReset => exact KeepsLines.lineSetLaw (.inr rfl) h
  case comparatorChange level =>
    simp only [after]
    split
    · exact KeepsLines.lineSetLaw (.inr rfl) h
    · exact lineSetLaw_congr h (by simp)
  case configurationLoad image =>
    obtain heq | ⟨-, -, heq⟩ := s.after_configurationLoad_cases image <;> rw [heq]
    · exact h
    · exact lineSetLaw_congr h (endLoading_lineSet s image)
  case memoryAnswer a late =>
    obtain heq | ⟨op, -, heq⟩ := s.after_memoryAnswer_cases a late <;> rw [heq]
    · exact h
    · exact (answered_keepsLines s op a).lineSetLaw h
  case attemptTimeout =>
    obtain heq | ⟨op, -, heq⟩ := s.after_attemptTimeout_cases <;> rw [heq]
    · exact h
    · exact (answered_keepsLines s op .error).lineSetLaw h
  all_goals refine lineSetLaw_congr h ?_
  all_goals simp only [after]
  all_goals repeat' split
  all_goals simp

theorem lineSetLaw_step {s t : State} (h : s.lineSetLaw) (hstep : Machine.step s = .next t) : t.lineSetLaw :=
  lineSetLaw_unframed.step lineSetLaw_after (fun _ hu => lineSetLaw_congr hu (by simp)) h hstep

/-! ### The failed-line list (R122) -/

theorem failedListLaw_congr {s t : State} (h : s.failedListLaw) (ht : t.port.failed = s.port.failed) : t.failedListLaw := by
  unfold failedListLaw at *
  rwa [ht]

theorem failedListLaw_of_nil {t : State} (ht : t.port.failed = []) : t.failedListLaw := by
  unfold failedListLaw
  rw [ht]
  exact ⟨by decide, List.nodup_nil⟩

/-- R122: a line that is listed joins an unfull list in which it is not. -/
theorem failedListLaw_listFailure {s : State} (h : s.failedListLaw) (op : Operation) : (s.listFailure op).failedListLaw := by
  unfold listFailure
  split
  · exact h
  next k _ =>
    split
    · exact h
    next hnew =>
      split
      next hroom =>
        refine failedListLaw_congr (s := s.setPort { s.port with failed := s.port.failed ++ [⟨op.line, k, op.region⟩] }) ?_
          (by simp)
        obtain ⟨-, hnodup⟩ := h
        simp only [failedListLaw, setPort, List.map_append, List.length_append]
        refine ⟨hroom, ?_⟩
        rw [List.nodup_append]
        refine ⟨hnodup, List.nodup_singleton _, fun x hx y hy => ?_⟩
        obtain rfl : y = op.line := by simpa using hy
        rintro rfl
        obtain ⟨f, hf, hline⟩ := List.mem_map.mp hx
        exact hnew (List.any_eq_true.mpr ⟨f, hf, by simp [hline]⟩)
      · exact h

theorem failedListLaw_failAtLimit {s : State} (h : s.failedListLaw) (op : Operation) : (s.failAtLimit op).failedListLaw := by
  have hbefore : ((s.setMemory (op.spoils s.memory)).beforeFailure op).failedListLaw := by
    unfold beforeFailure
    refine failedListLaw_listFailure ?_ op
    split
    · exact failedListLaw_congr h (by simp [freePort, setMemory, setPort])
    · exact h
  unfold failAtLimit
  rw [failOp_eq]
  exact failedListLaw_congr hbefore (by simp)

theorem failedListLaw_answered {s : State} (h : s.failedListLaw) (op : Operation) (a : MemAnswer) :
    (s.answered op a).failedListLaw := by
  have hfailed := failedListLaw_failAtLimit h op
  have hsucceed {t : State} (data : Line) (ht : t.port = s.port) : (t.succeed op data).failedListLaw :=
    failedListLaw_congr h (by simp [ht])
  unfold answered
  split
  case h_1 =>
    unfold attemptOk
    split
    · exact hsucceed _ rfl
    · simp only []
      split
      · exact h
      · exact hsucceed _ rfl
  case h_2 =>
    unfold attemptFailed
    split
    · exact h
    · exact hfailed
  case h_3 =>
    unfold attemptError
    split
    · exact h
    · exact hfailed
  case h_4 =>
    unfold verifyOk
    split
    · exact hsucceed _ rfl
    · split
      · exact h
      · exact hfailed
  case h_5 | h_6 =>
    unfold verifyFailed
    split
    · exact h
    · exact hfailed
  all_goals exact h

theorem action_failedListLaw (c : Instr) {u : State} (h : u.failedListLaw) : (action c u).2.failedListLaw := by
  cases c
  case readFailedLines => exact failedListLaw_of_nil rfl
  all_goals exact failedListLaw_congr h (by simp [action])

theorem failedListLaw_unframed : Unframed failedListLaw := by
  intro s u hu h
  rw [hu.1]
  exact h

theorem failedListLaw_after (c : Instr) (s : State) (h : s.failedListLaw) : (s.after c).failedListLaw := by
  refine failedListLaw_unframed.after h (fun u hu => action_failedListLaw c hu) fun hc => ?_
  cases c <;> cases hc
  case powerOnReset => exact failedListLaw_of_nil rfl
  case pinReset => exact failedListLaw_of_nil rfl
  case comparatorChange level =>
    simp only [after]
    split
    · exact failedListLaw_of_nil rfl
    · exact failedListLaw_congr h (by simp)
  case memoryAnswer a late =>
    obtain heq | ⟨op, -, heq⟩ := s.after_memoryAnswer_cases a late <;> rw [heq]
    · exact h
    · exact failedListLaw_answered h op a
  case attemptTimeout =>
    obtain heq | ⟨op, -, heq⟩ := s.after_attemptTimeout_cases <;> rw [heq]
    · exact h
    · exact failedListLaw_answered h op .error
  all_goals refine failedListLaw_congr h ?_
  all_goals simp only [after]
  all_goals repeat' split
  all_goals simp

theorem failedListLaw_step {s t : State} (h : s.failedListLaw) (hstep : Machine.step s = .next t) : t.failedListLaw :=
  failedListLaw_unframed.step failedListLaw_after (fun _ hu => failedListLaw_congr hu (by simp)) h hstep

/-! ### The work that stands -/

theorem lawful_step {s t : State} (h : s.Lawful) (hstep : Machine.step s = .next t) : t.Lawful :=
  Unframed.step (P := Lawful) (fun hu hs => hs.of_framedAs hu)
    (fun c u hu => hu.exec (exec_eq_after c u)) (fun _ hu => hu.congr (by simp [parts]) (by simp [inFlight])) h hstep

/-- R112: the port carries what it carried, or a fresh fill, or an operation that is not a fill at its first attempt. -/
theorem step_portFollows {s t : State} (h : s.attemptsLaw) (hstep : Machine.step s = .next t) : s.portFollows t := by
  obtain ⟨u, hu, -, rfl | ⟨c, hc⟩ | ⟨bytes, r, flag, rfl⟩⟩ := step_leadsTo hstep
  · exact portFollows_of_eq (by rw [hu.1])
  · have hop : u.port = s.port := by rw [hu.1]
    have hlaw : u.attemptsLaw := by
      unfold attemptsLaw
      rwa [hop]
    have hfollows := exec_portFollows hlaw hc
    unfold portFollows at *
    rwa [hop] at hfollows
  · refine portFollows_of_eq ?_
    rw [hu.1]
    simp

/-- R62, R72: a fill that has just been issued is a LINE READ at its first attempt. -/
theorem fillIssued_op {t : State} {line : Nat} {owner : Option (Fin 4)} (h : t.fillIssued line owner) :
    ∃ op, t.port.op = some op ∧ op.kind = .lineRead ∧ op.line = line ∧ op.attempts = 1 ∧ op.phase = .awaiting ∧
      (op.owner = .demandFill ∨ op.owner = .prefetch) := by
  cases owner with
  | none =>
    obtain ⟨op, hop, hkind, hline, howner, -, -, hattempts, hphase, -⟩ := h
    exact ⟨op, hop, hkind, hline, hattempts, hphase, .inr howner⟩
  | some p =>
    obtain ⟨e, -, -, op, hop, hkind, hline, howner, -, -, hattempts, hphase, -⟩ := h
    exact ⟨op, hop, hkind, hline, hattempts, hphase, .inl howner⟩

/-- R58, R65, R67: a fill that a step issues is of no line with a write in the write order. -/
theorem fillIssued_clear {s t : State} (ht : t.Lawful) (hfollows : s.portFollows t) {line : Nat} {owner : Option (Fin 4)}
    (hnew : s.port.op ≠ t.port.op) (hissued : t.fillIssued line owner) : ∀ b, t.writeStands b → b.line ≠ line := by
  obtain ⟨op, hop, hkind, rfl, hattempts, hphase, howner⟩ := fillIssued_op hissued
  obtain hsame | hfresh | ⟨op', hop', hother⟩ := hfollows
  · exact absurd hsame.symm hnew
  · exact ht.clear_of_fillsFresh hfresh hop howner
  · rw [hop, Option.some.injEq] at hop'
    subst hop'
    obtain hother | hother | hother := hother
    · exact absurd hphase hother
    · omega
    · rw [hkind] at hother
      cases hother

/-- Settles O8: the order as the entries' positions go, the two lists by what joins them, and the work that stands with the
queue's law. -/
theorem everyStepKeepsTheOrderAndTheLists : Obligations.EveryStepKeepsTheOrderAndTheLists := by
  intro s t hstep
  refine ⟨fun h => orderLaw_entryLaw.step h hstep, fun h => lineSetLaw_step h hstep, fun h => failedListLaw_step h hstep,
    fun horder hqueue hwork => ?_⟩
  have ht := lawful_step (lawful_of_laws horder hqueue hwork) hstep
  exact ⟨ht.work, fun hattempts _ _ hnew hissued => fillIssued_clear ht (step_portFollows hattempts hstep) hnew hissued⟩

end Sys2Proof.Machine.State
end

section
/-! O1, O2: what a step is. O3, O12 (R126, R127): the values of a reset, and the laws that hold in them. -/

namespace Sys2Proof.Machine

/-! ### Steps -/

/-- Settles O1: the front command is carried out on the queue's rest. -/
theorem stepRunsTheFrontCommand : Obligations.StepRunsTheFrontCommand := fun _ _ _ => rfl

/-- No command changes the queue of waiting commands. -/
theorem after_pending (c : Instr) (s : State) : (s.after c).pending = s.pending := by
  cases hc : c.isManagement
  case true =>
    have haction (u : State) : (action c u).2.pending = u.pending := by cases c <;> simp [action]
    rw [after_of_isManagement hc]
    unfold manage
    split
    · exact haction _
    · rfl
  case false =>
    cases c <;> cases hc
    all_goals simp only [State.after]
    all_goals repeat' split
    all_goals simp [State.leaveFrame, State.setMgmt]

theorem judgeReceived_next (s : State) : ∃ t, s.judgeReceived = .next t := by
  unfold State.judgeReceived
  split
  · exact ⟨_, rfl⟩
  · exact ⟨_, rfl⟩
  · split
    · exact ⟨_, exec_eq_after _ _⟩
    · exact ⟨_, rfl⟩

theorem completeByte_next (b : Byte) (s : State) : ∃ t, s.completeByte b = .next t := by
  unfold State.completeByte
  split
  · exact judgeReceived_next _
  all_goals exact ⟨_, rfl⟩

/-- R166: an edge on the lines leads to a next state. -/
theorem frameEdge_next (e : FrameEdge) (s : State) : ∃ t, s.frameEdge e = .next t := by
  cases e
  case mckRises mdi =>
    simp only [State.frameEdge, State.riseMck]
    split
    · exact ⟨_, rfl⟩
    · split
      · exact ⟨_, rfl⟩
      · exact completeByte_next _ _
  all_goals exact ⟨_, rfl⟩

theorem step_next (s : State) : ∃ t, step s = .next t := by
  unfold step
  split
  · exact ⟨_, exec_eq_after _ _⟩
  · split
    · exact frameEdge_next _ _
    · exact ⟨_, rfl⟩

/-- Settles O2: every command leads to a next state, and what waits loses its front alone. -/
theorem everyStepAnswersANextState : Obligations.EveryStepAnswersANextState := by
  intro s
  obtain ⟨t, hstep⟩ := step_next s
  refine ⟨t, hstep, ?_⟩
  obtain ⟨u, -, hpending, rfl | ⟨c, hc⟩ | ⟨bytes, r, flag, rfl⟩⟩ := step_leadsTo hstep
  · exact hpending
  · rw [eq_after_of_exec hc, after_pending, hpending]
  · simpa using hpending

/-! ### Resets -/

/-- R144, R146, R147: at a reset every filter begins anew on the comparisons. -/
theorem atReset_begunAfresh (level : SupplyLevel) (wlockPin : Bool) : (SupplyUnit.atReset level wlockPin).begunAfresh := by
  cases level <;> exact ⟨rfl, rfl, rfl, rfl, rfl⟩

theorem startReset_hasResetValues (cause : ResetCause) (level : SupplyLevel) (nrstLow : Bool) (s : State) :
    (s.startReset cause level nrstLow).hasResetValues :=
  ⟨⟨rfl, rfl, rfl, rfl, rfl⟩, rfl, rfl, rfl, ⟨rfl, rfl, rfl, rfl, rfl, rfl, rfl, rfl, rfl⟩,
    ⟨rfl, rfl, rfl, atReset_begunAfresh level s.supply.wlockPin, rfl, rfl, rfl, rfl⟩, rfl, rfl⟩

/-- R121: the line of a LINE WRITE whose attempt is outstanding becomes undefined. -/
theorem memoryAtReset_read_spoiled {s : State} {op : Operation} {a : Nat} (ha : a < 67108864) (hop : s.port.op = some op)
    (hkind : op.kind = .lineWrite) (hphase : op.phase = .awaiting) (hline : a / 64 = op.line) :
    Memory.read s.memoryAtReset a = none := by
  have hlines : op.line < Config.lines := by
    have : Config.lines = 1048576 := rfl
    omega
  simp only [State.memoryAtReset, hop, hkind, hphase, and_self, if_true]
  exact Memory.read_forgetLine_same s.memory hlines hline

/-- R121: nothing else of memory changes. -/
theorem memoryAtReset_read_kept {s : State} {a : Nat} (h : ∀ op, s.port.op = some op → op.kind = .lineWrite →
    op.phase = .awaiting → a / 64 ≠ op.line) : Memory.read s.memoryAtReset a = Memory.read s.memory a := by
  unfold State.memoryAtReset
  split
  next op hop =>
    split
    next hwrite => exact Memory.read_forgetLine_other s.memory (h op hop hwrite.1 hwrite.2)
    · rfl
  · rfl

/-- Settles O3: a reset gives every block its reset state, and memory is that of the attempt abandoned. -/
theorem resetsGiveTheResetValues : Obligations.ResetsGiveTheResetValues := by
  intro s
  refine ⟨fun h => ?_, fun h => ?_, _, _, rfl, rfl, startReset_hasResetValues _ _ _ s, startReset_hasResetValues _ _ _ s, rfl,
    rfl, rfl, rfl, rfl, ⟨rfl, rfl, rfl, rfl, rfl⟩, ⟨rfl, rfl, rfl, rfl, rfl⟩, fun a ha => ⟨?_, memoryAtReset_read_kept⟩⟩
  · rw [exec_eq_after, State.after, if_pos h]
    rfl
  · simp only [exec_eq_after, State.after, h]
    rfl
  · exact fun op hop hkind hphase hline => memoryAtReset_read_spoiled ha hop hkind hphase hline

/-! ### The laws after a reset -/

theorem reset_hasResetValues : State.reset.hasResetValues :=
  ⟨⟨rfl, rfl, rfl, rfl, rfl⟩, rfl, rfl, rfl, ⟨rfl, rfl, rfl, rfl, rfl, rfl, rfl, rfl, rfl⟩,
    ⟨rfl, rfl, rfl, ⟨rfl, rfl, rfl, rfl, rfl⟩, rfl, rfl, rfl, rfl⟩, rfl, rfl⟩

theorem reset_lawful : State.reset.Lawful :=
  State.lawful_of_reset rfl (by decide) (by decide) rfl rfl rfl rfl ⟨rfl, rfl, rfl⟩

theorem reset_pinsFollow : State.reset.pinsFollow :=
  (pinsFollow_iff _).mpr ⟨by unfold FaultUnit.Signals; decide, by unfold SupplyUnit.Signals; decide,
    by unfold ManagementPort.Drives; decide⟩

theorem reset_latchesCover : State.reset.latchesCover := by
  intro k
  cases k <;> decide

theorem reset_settingsLegal : State.reset.settingsLegal := by
  refine ⟨?_, ?_, ?_, ?_⟩ <;> decide

theorem reset_tableLaw : State.reset.tableLaw := by
  refine ⟨fun p q e f he => ?_, fun p e he => ?_⟩ <;> simp [State.reset, Engine.reset] at he

theorem reset_attemptsLaw : State.reset.attemptsLaw := ⟨by decide, fun _ hop => by cases hop⟩

/-- Settles O12: every law holds of an empty part. -/
theorem theLawsHoldAfterReset : Obligations.TheLawsHoldAfterReset :=
  ⟨⟨reset_hasResetValues, rfl, rfl, rfl, rfl, rfl⟩, reset_pinsFollow, reset_latchesCover,
    (State.queueLaw_iff _).mpr ⟨QueueKept.empty, State.initHeld_of_free rfl⟩, reset_tableLaw, reset_lawful.order,
    ⟨by decide, List.nodup_nil⟩, State.failedListLaw_of_nil rfl, reset_settingsLegal, reset_attemptsLaw, reset_lawful.work,
    rfl⟩

end Sys2Proof.Machine
end

section
/-! O28, O59, O58 and O27 (R144 to R150, R174, R175): the software inhibit, WLOCK, the comparisons and the parameters. -/

namespace Sys2Proof.Machine

/-! ### The software inhibit (R150) -/

/-- R152: setting a latch, with the latch of its source set in the supply unit and INHIBIT raised where it was clear. -/
theorem State.setLatch_eq_set (k : InhibitSource) (s : State) : s.setLatch k = { s with
    supply := { s.supply with latches := s.supply.latches.set k true }
    faults := if s.supply.latches.get k then s.faults else (s.raise .inhibit).faults } := by
  have hset (hget : s.supply.latches.get k = true) : s.supply.latches.set k true = s.supply.latches := by
    cases k <;> simp [Latches.get] at hget <;> simp [Latches.set, ← hget]
  rw [State.setLatch_eq]
  by_cases hget : s.supply.latches.get k = true
  · simp [State.setLatch, hget, hset]
  · simp [State.setLatch, hget, State.setLatches]

theorem State.setSoftware_eq (s : State) : s.setSoftware = { s with
    supply := { s.supply with software := true, latches := { s.supply.latches with software := true } }
    faults := if s.supply.latches.software then s.faults else (s.raise .inhibit).faults } := by
  have hraise (u : SupplyUnit) : ((s.setSupply u).raise .inhibit).faults = (s.raise .inhibit).faults :=
    State.raise_faults_congr (s := s) (t := s.setSupply u) rfl _
  rw [State.setSoftware, State.setLatch_eq_set, hraise]
  rfl

/-- Settles O28: each command by what its frame leaves. -/
theorem setAndClearInhibit : Obligations.SetAndClearInhibit := by
  intro s h
  refine ⟨manage_of_flagged h ?_, manage_of_flagged h rfl⟩
  have hraise : ((s.endRequest (requestOf .setInhibit)).raise .inhibit).faults = (s.raise .inhibit).faults :=
    State.raise_faults_congr (s := s) (t := s.endRequest _) rfl _
  rw [State.setSoftware_eq, hraise]
  rfl

/-! ### WLOCK (R149) -/

theorem State.followWlock_eq (s : State) : s.followWlock = { s with
    supply := { s.supply with
      wlock := s.supply.wlockPin, wlockTimer := none
      latches := { s.supply.latches with wlock := s.supply.latches.wlock || s.supply.wlockPin } }
    faults := if s.supply.wlockPin && !s.supply.latches.wlock then (s.raise .inhibit).faults else s.faults } := by
  have hraise (u : SupplyUnit) : ((s.setSupply u).raise .inhibit).faults = (s.raise .inhibit).faults :=
    State.raise_faults_congr (s := s) (t := s.setSupply u) rfl _
  simp only [State.followWlock]
  cases hpin : s.supply.wlockPin
  case false => simp [State.setSupply]
  case true =>
    rw [if_pos rfl, State.setLatch_eq_set, hraise]
    cases hlatch : s.supply.latches.wlock <;> simp [State.setSupply, Latches.set, Latches.get, hlatch]

/-- Settles O59: a change of the pin starts the filter, and its end takes the level. -/
theorem wlockIsFiltered : Obligations.WlockIsFiltered := by
  intro high s
  refine ⟨fun h => ?_, fun h => ?_, fun h => ?_, fun h => ?_⟩ <;> rw [exec_eq_after, State.after]
  · rw [if_neg h]; rfl
  · rw [if_pos h]
  · rw [h]; rfl
  · rw [if_pos h, State.followWlock_eq]

/-! ### Comparisons (R144, R145, R147) -/

/-- R144: a comparison at a level of VDD with a WARN level, whatever both were. -/
theorem compared_setSupply (s : State) (level level' : SupplyLevel) (warn warn' : BitVec 2) (t : SupplyTimers) :
    (s.setSupply { s.supply with level := level', warnLevel := warn' }).compared level warn t = s.compared level warn t := by
  have hraise (u : SupplyUnit) : ((s.setSupply u).raise .inhibit).faults = (s.raise .inhibit).faults :=
    State.raise_faults_congr (s := s) (t := s.setSupply u) rfl _
  simp only [State.compared, hraise]
  rfl

/-- Settles O58: a fall below 2.20 V is a reset, and any other change is a fresh comparison. -/
theorem comparatorChangesRunTheFilters : Obligations.ComparatorChangesRunTheFilters := by
  intro level s
  refine ⟨fun hlevel hbefore => ?_, fun hchange => ?_⟩
  · refine ⟨_, ?_, rfl, startReset_hasResetValues _ _ _ s, rfl, rfl⟩
    rw [exec_eq_after, State.after, if_pos ⟨hlevel, hbefore⟩]
  · obtain ⟨t, heq, hfollow⟩ := recompare_compared (s.setSupply { s.supply with level := level })
    refine ⟨t, ?_, hfollow⟩
    rw [exec_eq_after, State.after, if_neg hchange, heq]
    exact congrArg _ (compared_setSupply s level level s.supply.warnLevel s.supply.warnLevel t)

/-! ### Parameters (R174, R175) -/

/-- R174: WRITE PARAMETERS with legal arguments is the limits and a fresh comparison. -/
theorem writeParameters_of_ok {claim limit depth warn : Byte} (h : parametersOk claim limit depth warn = true) (s : State) :
    s.writeParameters claim limit depth warn = (bareReply .ok, (s.setLimits claim limit depth).setWarnLevel warn) := by
  rw [State.writeParameters, if_pos h]

theorem writeParameters_of_not_ok {claim limit depth warn : Byte} (h : ¬ parametersOk claim limit depth warn = true)
    (s : State) : s.writeParameters claim limit depth warn = (bareReply .arg, s) := by
  rw [State.writeParameters, if_neg h]

/-- R144: a comparison leaves the frame at the management port. -/
theorem compared_endRequest (s : State) (q : List Byte) (level : SupplyLevel) (w : BitVec 2) (t : SupplyTimers) :
    (s.endRequest q).compared level w t = (s.compared level w t).endRequest q := by
  have hraise : ((s.endRequest q).raise .inhibit).faults = (s.raise .inhibit).faults :=
    State.raise_faults_congr (s := s) (t := s.endRequest q) rfl _
  simp only [State.compared, hraise]
  rfl

/-- Settles O27: the written parameters with the fresh comparison, and the read ones from the reply. -/
theorem parametersAreWrittenAndRead : Obligations.ParametersAreWrittenAndRead := by
  intro claim limit depth warn s h
  refine ⟨fun hclaim hlimit hdepth hwarn => ?_, fun hbad => ?_, ?_⟩
  · let c := Instr.writeParameters claim limit depth warn
    let u := (s.endRequest (requestOf c)).setLimits claim limit depth
    obtain ⟨t, heq, hfollow⟩ := recompare_compared (u.setSupply { u.supply with warnLevel := warn.setWidth 2 })
    have hlevel : (warn.setWidth 2 : BitVec 2).toNat = warn.toNat := by
      rw [BitVec.toNat_setWidth]
      exact Nat.mod_eq_of_lt (by omega)
    refine ⟨warn.setWidth 2, t, hlevel, hfollow, manage_of_flagged h ?_⟩
    rw [writeParameters_of_ok (parametersOk_iff.mpr ⟨hclaim, hlimit, hdepth, hwarn⟩), ← compared_endRequest]
    refine Prod.ext rfl (heq.trans ?_)
    exact compared_setSupply u s.supply.level s.supply.level (warn.setWidth 2) (warn.setWidth 2) t
  · refine manage_of_flagged h ?_
    rw [writeParameters_of_not_ok]
    · rfl
    · rw [parametersOk_iff]
      rintro ⟨hclaim, hlimit, hdepth, hwarn⟩
      obtain hbad | hbad | hbad | hbad := hbad
      · exact hclaim hbad
      · exact hlimit hbad
      · omega
      · omega
  · refine ⟨s.engine.prefetchDepth.setWidth 8, s.supply.warnLevel.setWidth 8, manage_of_flagged h rfl, ?_, ?_⟩
    · exact BitVec.toNat_setWidth_of_le (by decide)
    · exact BitVec.toNat_setWidth_of_le (by decide)

end Sys2Proof.Machine
end

section
/-! O60, O24 and O25 (R3, R17, R18, R155 to R162, R165): the unit's three actions, the event mask, and the region table. -/

namespace Sys2Proof.Machine

/-! ### Events, counters and codes -/

namespace State

theorem raise_events_of_shown {s : State} {k : EventKind} (h : s.faults.mask &&& k.bit = 0 ∨ s.faults.visible = true) :
    (s.raise k).faults.events = s.faults.events ||| k.bit := by
  rw [raise, if_pos h]
  rfl

theorem raise_of_hidden {s : State} {k : EventKind} (h : ¬ (s.faults.mask &&& k.bit = 0 ∨ s.faults.visible = true)) :
    s.raise k = s := by
  rw [raise, if_neg h]

/-- R161: what a cause leaves of the events depends on the events, the mask and the visibility alone. -/
theorem raise_events_congr {s t : State} (k : EventKind) (he : t.faults.events = s.faults.events)
    (hm : t.faults.mask = s.faults.mask) (hv : t.faults.visible = s.faults.visible) :
    (t.raise k).faults.events = (s.raise k).faults.events := by
  unfold raise
  rw [he, hm, hv]
  split
  · rfl
  · exact he

theorem raise_counters (s : State) (k : EventKind) : (s.raise k).faults.counters = s.faults.counters := by
  unfold raise
  split <;> rfl

end State

theorem Counters.get_set_same (c : Counters) (k : CounterKind) (v : BitVec 16) : (c.set k v).get k = v := by cases k <;> rfl

theorem Counters.get_set_other (c : Counters) {k m : CounterKind} (h : m ≠ k) (v : BitVec 16) :
    (c.set k v).get m = c.get m := by
  cases k <;> cases m <;> first | rfl | exact absurd rfl h

namespace State

/-- R158: a count raises its counter by 1 up to 65535. -/
theorem count_get_same (s : State) (k : CounterKind) :
    ((s.count k).faults.counters.get k).toNat = min ((s.faults.counters.get k).toNat + 1) 65535 := by
  rw [count_counters]
  split
  next hfull => rw [hfull]; rfl
  next hroom =>
    have hlt := (s.faults.counters.get k).isLt
    have hone : (1 : BitVec 16).toNat = 1 := rfl
    have hne : (s.faults.counters.get k).toNat ≠ 65535 := fun h => hroom (BitVec.eq_of_toNat_eq h)
    rw [Counters.get_set_same, BitVec.toNat_add, hone]
    omega

theorem count_get_other (s : State) {k m : CounterKind} (h : m ≠ k) :
    (s.count k).faults.counters.get m = s.faults.counters.get m := by
  rw [count_counters]
  split
  · rfl
  · exact Counters.get_set_other _ h _

/-- R158: the count that reaches 65535 raises COUNTER_SAT. -/
theorem count_events (s : State) (k : CounterKind) : (s.count k).faults.events =
    if (s.faults.counters.get k).toNat = 65534 then (s.raise .counterSat).faults.events else s.faults.events := by
  have hreached : s.faults.counters.get k + 1 = BitVec.allOnes 16 ↔ (s.faults.counters.get k).toNat = 65534 := by
    have hlt := (s.faults.counters.get k).isLt
    have hone : (1 : BitVec 16).toNat = 1 := rfl
    rw [BitVec.toNat_eq, BitVec.toNat_add, hone, BitVec.toNat_allOnes]
    omega
  simp only [count]
  by_cases hfull : s.faults.counters.get k = BitVec.allOnes 16
  · have hne : (s.faults.counters.get k).toNat ≠ 65534 := by rw [hfull]; decide
    rw [if_pos hfull, if_neg hne]
  · rw [if_neg hfull]
    by_cases hsat : (s.faults.counters.get k).toNat = 65534
    · rw [if_pos (hreached.mpr hsat), if_pos hsat]
      exact raise_events_congr _ rfl rfl rfl
    · rw [if_neg (fun h => hsat (hreached.mp h)), if_neg hsat]
      rfl

/-- R156: a report leaves the more severe of the two codes. -/
theorem report_byte (s : State) (region : Fin 9) (code : RegionCode) :
    (s.report region code).faults.codes[region].byte = min code.byte s.faults.codes[region].byte := by
  rw [report_code]
  split <;> omega

/-- R156: a change into a fault code raises REGION_FAULT. -/
theorem report_events (s : State) (region : Fin 9) (code : RegionCode) : (s.report region code).faults.events =
    if code.byte < s.faults.codes[region].byte ∧ code.byte ≤ 4 then (s.raise .regionFault).faults.events
    else s.faults.events := by
  simp only [report, RegionCode.isFault, decide_eq_true_eq]
  by_cases hlt : code.byte < s.faults.codes[region].byte
  · rw [if_pos hlt]
    by_cases hfault : code.byte ≤ 4
    · rw [if_pos hfault, if_pos ⟨hlt, hfault⟩]
      exact raise_events_congr _ rfl rfl rfl
    · rw [if_neg hfault, if_neg (fun h => hfault h.2)]
      rfl
  · rw [if_neg hlt, if_neg (fun h => hlt h.1)]

end State

/-- Settles O60: each action by its own equations. -/
theorem faultsAreRecorded : Obligations.FaultsAreRecorded := by
  refine ⟨rfl, rfl, fun s k n region code => ⟨State.raise_events_of_shown, State.raise_of_hidden, s.count_get_same n,
    fun m hm => s.count_get_other hm, s.count_events n, s.report_byte region code, fun i hi => ?_, s.report_events region code⟩⟩
  exact s.report_code_other region code i hi

/-! ### WRITE EVENT MASK (R165) -/

theorem State.writeEventMask_of_legal {mask : BitVec 16} {visible : Byte} (hmask : mask.toNat < 512)
    (hvisible : visible.toNat ≤ 1) (s : State) : s.writeEventMask mask visible =
      (bareReply .ok, s.setEvents s.faults.events (mask.setWidth 9) (visible == 1)) := by
  rw [State.writeEventMask, if_pos ⟨(eventBitsOk_iff mask).mpr hmask, hvisible⟩]

theorem State.writeEventMask_of_illegal {mask : BitVec 16} {visible : Byte} (h : 512 ≤ mask.toNat ∨ 1 < visible.toNat)
    (s : State) : s.writeEventMask mask visible = (bareReply .arg, s) := by
  rw [State.writeEventMask, if_neg]
  rintro ⟨hmask, hvisible⟩
  have := (eventBitsOk_iff mask).mp hmask
  omega

/-- Settles O24: the command by what its frame leaves, IRQ# by its condition. -/
theorem writeEventMaskSetsMaskAndVisibility : Obligations.WriteEventMaskSetsMaskAndVisibility := by
  intro mask visible s h
  refine ⟨fun hmask hvisible => ?_, fun hbad => manage_of_flagged h (State.writeEventMask_of_illegal hbad _)⟩
  have hwidth : (mask.setWidth 9).toNat = mask.toNat := by
    rw [BitVec.toNat_setWidth]
    exact Nat.mod_eq_of_lt hmask
  refine ⟨(s.setEvents s.faults.events (mask.setWidth 9) (visible == 1)).faults,
    manage_of_flagged h (State.writeEventMask_of_legal hmask hvisible _), hwidth, beq_iff_eq, rfl, ?_, rfl, rfl⟩
  refine (irqCondition_iff _ _).trans (exists_congr fun i => and_congr_right fun hi => and_congr_right fun _ => ?_)
  simp [hi]

/-! ### The region table (R3, R17, R18) -/

theorem attributeByteOk_iff (b : Byte) : attributeByteOk b = true ↔ b.toNat / 8 % 4 ≠ 3 ∧ b.toNat < 64 := by
  simp only [attributeByteOk, Bool.and_eq_true, bne_iff_ne, beq_iff_eq]
  refine and_congr_right fun _ => ?_
  omega

/-- Table 11-1: a legal byte spells its attributes. -/
theorem attributesOf_spelled : ∀ b : Byte, attributeByteOk b = true → (attributesOf b).spelled b.toNat := by
  unfold Attributes.spelled
  decide +kernel

/-- Table 11-1: the attributes of a legal byte have that byte. -/
theorem byte_attributesOf : ∀ b : Byte, attributeByteOk b = true → (attributesOf b).byte = b := by decide +kernel

theorem regionFieldsOk_iff {base limit : Nat} {attr enable : Byte} : regionFieldsOk base limit attr enable = true ↔
    base ≤ limit ∧ limit ≤ 16383 ∧ attributeByteOk attr = true ∧ enable.toNat ≤ 1 := by
  simp only [regionFieldsOk, Bool.and_eq_true, decide_eq_true_eq, and_assoc]
  exact Iff.rfl

/-- R17: what WRITE REGION checks. -/
theorem writeRegion_legal_iff {index : Byte} {base limit : BitVec 16} {attr enable : Byte} :
    (index.toNat ≤ 8 ∧ regionFieldsOk base.toNat limit.toNat attr enable = true) ↔
      (index.toNat ≤ 8 ∧ base.toNat ≤ limit.toNat ∧ limit.toNat ≤ 16383 ∧ attr.toNat / 8 % 4 ≠ 3 ∧ attr.toNat < 64 ∧
        enable.toNat ≤ 1) := by
  rw [regionFieldsOk_iff, attributeByteOk_iff, and_assoc]

theorem putRegion_region {c : Classifier} {index : Nat} (r : Region) (i : Fin 8) :
    (c.putRegion index r).regions[i] = if i.val = index then r else c.regions[i] := by
  unfold Classifier.putRegion
  split
  next hindex =>
    simp only [Fin.getElem_fin, Vector.getElem_set]
    exact if_congr eq_comm rfl rfl
  next hindex => rw [if_neg (by omega)]

theorem putRegion_background {c : Classifier} {index : Nat} (r : Region) :
    (c.putRegion index r).background = if index < 8 then c.background else r.attributes := by
  unfold Classifier.putRegion
  split <;> rfl

/-- The byte of a word that has `k` bytes below it. -/
theorem ofNat_div_pow_eq_extract {w : Nat} (v : BitVec w) (k : Nat) :
    BitVec.ofNat 8 (v.toNat / 256 ^ k) = v.extractLsb' (8 * k) 8 := by
  apply BitVec.eq_of_toNat_eq
  have hpow : 256 ^ k = 2 ^ (8 * k) := by rw [Nat.pow_mul]
  rw [BitVec.toNat_ofNat, BitVec.extractLsb'_toNat, Nat.shiftRight_eq_div_pow, hpow]

/-- A 16-bit field in two bytes, most significant first. -/
theorem bytesOf_two (v : BitVec 16) : bytesOf 2 v.toNat = [v.extractLsb' 8 8, v.extractLsb' 0 8] := by
  rw [← ofNat_div_pow_eq_extract v 1, ← ofNat_div_pow_eq_extract v 0]
  rfl

/-- An enable byte is that of its flag. -/
theorem boolByte_eq_one {enable : Byte} (h : enable.toNat ≤ 1) : boolByte (enable == 1) = enable := by
  revert enable
  decide +kernel

/-- R18: the record that legal fields give is read as it was written. -/
theorem regionOfFields_reply {base limit : BitVec 16} {attr enable : Byte} (hattr : attributeByteOk attr = true)
    (henable : enable.toNat ≤ 1) : (regionOfFields base.toNat limit.toNat attr enable).reply =
      [base.extractLsb' 8 8, base.extractLsb' 0 8, limit.extractLsb' 8 8, limit.extractLsb' 0 8, attr, enable] := by
  unfold Region.reply regionOfFields
  rw [bytesOf_two, bytesOf_two, byte_attributesOf attr hattr, boolByte_eq_one henable]
  rfl

theorem backgroundReply (a : Attributes) : Region.reply ⟨false, 0, 0, a⟩ = [0, 0, 0, 0, a.byte, 0] := by
  have hzero : bytesOf 2 0 = [0, 0] := by decide
  unfold Region.reply
  rw [hzero]
  rfl

/-- R18: READ REGION, by its index. -/
theorem readRegion_of_region {s : State} {index : Byte} (i : Fin 8) (hi : i.val = index.toNat) :
    s.readRegion index = (okReply s.classifier.regions[i].reply, s) := by
  have hlt : index.toNat < 8 := by omega
  rw [State.readRegion, dif_pos hlt]
  simp only [Fin.getElem_fin, hi]

theorem readRegion_of_background {s : State} {index : Byte} (hi : index.toNat = 8) :
    s.readRegion index = (okReply (Region.reply ⟨false, 0, 0, s.classifier.background⟩), s) := by
  rw [State.readRegion, dif_neg (by omega), if_pos hi]

theorem readRegion_of_illegal {s : State} {index : Byte} (hi : 8 < index.toNat) :
    s.readRegion index = (bareReply .arg, s) := by
  rw [State.readRegion, dif_neg (by omega), if_neg (by omega)]

/-- Settles O25: the record in its place, and the reply by the bytes of what was written. -/
theorem writeRegionThenReadRegion : Obligations.WriteRegionThenReadRegion := by
  intro index base limit attr enable s h
  refine ⟨fun hindex hbase hlimit hguard hattr henable => ?_, fun hbad => manage_of_flagged h ?_,
    fun hindex => manage_of_flagged h (readRegion_of_illegal hindex)⟩
  · have hlegal := writeRegion_legal_iff.mpr ⟨hindex, hbase, hlimit, hguard, hattr, henable⟩
    have hok := (attributeByteOk_iff attr).mpr ⟨hguard, hattr⟩
    let r := regionOfFields base.toNat limit.toNat attr enable
    let c := s.classifier.putRegion index.toNat r
    have hregion (i : Fin 8) (hi : i.val = index.toNat) : c.regions[i] = r := (putRegion_region r i).trans (if_pos hi)
    refine ⟨c, manage_of_flagged h ?_, ?_, fun i hi => (putRegion_region r i).trans (if_neg hi), fun hi => ?_,
      fun i hi => ?_, fun hi => ?_, manage_of_flagged h ?_⟩
    · rw [State.writeRegion, if_pos hlegal]
      rfl
    · unfold c Classifier.putRegion
      split <;> rfl
    · exact (putRegion_background r).trans (if_pos (by omega))
    · rw [hregion i hi]
      exact ⟨rfl, rfl, rfl, attributesOf_spelled attr hok⟩
    · rw [(putRegion_background r).trans (if_neg (by omega))]
      exact attributesOf_spelled attr hok
    · by_cases hi : index.toNat = 8
      · rw [readRegion_of_background hi, if_pos hi]
        have hbackground : c.background = r.attributes := (putRegion_background r).trans (if_neg (by omega))
        refine Prod.ext ?_ rfl
        change okReply (Region.reply ⟨false, 0, 0, c.background⟩) = _
        rw [hbackground, backgroundReply]
        exact congrArg (fun b => okReply [0, 0, 0, 0, b, 0]) (byte_attributesOf attr hok)
      · have hlt : index.toNat < 8 := by omega
        rw [readRegion_of_region ⟨index.toNat, hlt⟩ rfl, if_neg hi]
        refine Prod.ext ?_ rfl
        change okReply (Region.reply c.regions[(⟨index.toNat, hlt⟩ : Fin 8)]) = _
        rw [hregion _ rfl, regionOfFields_reply hok henable]
        rfl
  · rw [State.writeRegion, if_neg (fun hlegal => hbad (writeRegion_legal_iff.mp hlegal))]
    rfl

end Sys2Proof.Machine
end

section
/-! O18 (R87, R173, R179): STATUS, its status byte bit by bit and its reply byte by byte. -/

namespace Sys2Proof.Machine

/-! ### The status byte -/

/-- R151, R179: the inhibit bit, by WLOCK, the software flag, the supply state and the journal state. -/
theorem State.anyInhibit_eq (s : State) : s.anyInhibit = (s.supply.wlock || s.supply.software ||
    decide (s.supply.state ≠ .normal) || decide (s.journal.state ≠ .active ∧ s.journal.state ≠ .off)) := by
  have hsupply : (s.supply.state == .warn || s.supply.state == .fail) = decide (s.supply.state ≠ .normal) := by
    cases s.supply.state <;> rfl
  have hjournal : s.journal.state.inhibits = decide (s.journal.state ≠ .active ∧ s.journal.state ≠ .off) := by
    cases s.journal.state <;> rfl
  simp only [State.anyInhibit, State.inhibitHolds, ← hsupply, ← hjournal, Bool.or_assoc]

theorem JournalState.attention_eq (j : JournalState) :
    j.attention = decide (j = .unknown ∨ j = .pending ∨ j = .failed) := by cases j <;> rfl

/-- R179: the bits of the status byte. -/
theorem State.statusByte_bits (s : State) (flag : Bool) : let b := s.statusByte flag
    b.getLsbD 0 = decide (s.startup.portState = .opened) ∧
      b.getLsbD 1 = decide (s.startup.portState = .starting ∨ s.startup.portState = .rolling) ∧
      b.getLsbD 2 = s.faults.irqLow ∧
      b.getLsbD 3 = (s.supply.wlock || s.supply.software || decide (s.supply.state ≠ .normal) ||
        decide (s.journal.state ≠ .active ∧ s.journal.state ≠ .off)) ∧
      b.getLsbD 4 = decide (s.journal.state = .unknown ∨ s.journal.state = .pending ∨ s.journal.state = .failed) ∧
      b.getLsbD 5 = s.mgmt.longCmd.isSome ∧ b.getLsbD 6 = decide (s.startup.loadResult = .bad) ∧ b.getLsbD 7 = flag := by
  have hopened : (s.startup.portState == .opened) = decide (s.startup.portState = .opened) := by
    cases s.startup.portState <;> rfl
  have hclosed : (s.startup.portState == .starting || s.startup.portState == .rolling) =
      decide (s.startup.portState = .starting ∨ s.startup.portState = .rolling) := by
    cases s.startup.portState <;> rfl
  have hbad : (s.startup.loadResult == .bad) = decide (s.startup.loadResult = .bad) := by
    cases s.startup.loadResult <;> rfl
  rw [← hopened, ← hclosed, ← hbad, ← s.anyInhibit_eq, ← s.journal.state.attention_eq]
  exact flagByte_bits _ _ _ _ _ _ _ _

/-! ### The codes of Table 10-1 -/

theorem PortState.getElem?_code (p : PortState) :
    [PortState.starting, .hold, .opened, .rolling][p.code.toNat]? = some p := by cases p <;> rfl

theorem StartPhase.getElem?_code (p : StartPhase) :
    [StartPhase.loading, .supplyWait, .scanning, .rolling, .done][p.code.toNat]? = some p := by cases p <;> rfl

theorem LoadResult.getElem?_code (r : LoadResult) :
    [LoadResult.none, .absent, .loaded, .bad][r.code.toNat]? = some r := by cases r <;> rfl

theorem LongResult.getElem?_code (r : LongResult) :
    [LongResult.none, .ok, .partly, .failed][r.code.toNat]? = some r := by cases r <;> rfl

theorem SupplyState.getElem?_code (x : SupplyState) :
    [SupplyState.normal, .warn, .fail][x.code.toNat]? = some x := by cases x <;> rfl

theorem JournalState.getElem?_code (j : JournalState) :
    [JournalState.off, .unknown, .pending, .active, .closing, .rolling, .failed][j.code.toNat]? = some j := by
  cases j <;> rfl

theorem ResetCause.getElem?_code (c : ResetCause) : [ResetCause.powerOn, .pin][c.code.toNat]? = some c := by cases c <;> rfl

/-! ### The reply -/

/-- A 2-byte field gives the number back, but for what it cannot carry. -/
theorem exists_bytesOf_two (v : Nat) : ∃ a b, bytesOf 2 v = [a, b] ∧ natOf [a, b] = v % 65536 :=
  ⟨_, _, rfl, natOf_bytesOf 2 v⟩

theorem exists_bytesOf_four (v : Nat) : ∃ a b c d, bytesOf 4 v = [a, b, c, d] ∧ natOf [a, b, c, d] = v % 4294967296 :=
  ⟨_, _, _, _, rfl, natOf_bytesOf 4 v⟩

/-- R87: R, by the queue, the table and a removed delayed write. -/
theorem State.reservations_eq_counts (s : State) : s.reservations =
    s.journal.lineSet.countP (fun e => e.2 == .reserved) + s.queue.countP (fun x => x.body.any Body.holdsOwn) +
      s.engine.table.toList.countP (fun x => x.any fun e => e.isPendingWrite && e.body.holdsOwn) +
      s.removedBody.toList.countP Body.holdsOwn := by
  rw [State.reservations_eq, Engine.countP_table]
  rfl

theorem execStatus_eq {s : State} (h : s.takesFrame = true) :
    execStatus s = .next (frameDone .status .ok s.statusReply s s) := manage_of_flagged h rfl

/-- Settles O18: the status byte by its flags, the reply by its fields. -/
theorem statusReportsThePart : Obligations.StatusReportsThePart := by
  intro s
  refine ⟨s.statusByte_bits, fun h => ⟨s.statusReply, execStatus_eq h, ?_⟩⟩
  obtain ⟨e0, e1, e2, e3, hepoch, hepoch'⟩ := exists_bytesOf_four s.journal.epoch.toNat
  obtain ⟨w0, w1, hwritten, hwritten'⟩ := exists_bytesOf_two s.journal.written
  obtain ⟨r0, r1, hheld, hheld'⟩ := exists_bytesOf_two s.reservations
  obtain ⟨c0, c1, hcapacity, hcapacity'⟩ := exists_bytesOf_two s.journal.capacity
  obtain ⟨k0, k1, hskipped, hskipped'⟩ := exists_bytesOf_two s.startup.skipped
  have hreply : s.statusReply = [s.startup.portState.code, s.startup.phase.code, s.startup.loadResult.code,
      s.startup.rollbackResult.code, s.supply.state.code, s.journal.state.code, e0, e1, e2, e3, w0, w1, r0, r1, c0, c1,
      BitVec.ofNat 8 s.queue.length, BitVec.ofNat 8 s.engine.occupancy, boolByte s.mgmt.longCmd.isSome,
      s.mgmt.lastLong.code, k0, k1, s.startup.cause.code] := by
    rw [State.statusReply, hepoch, hwritten, hheld, hcapacity, hskipped]
    rfl
  rw [hreply]
  rw [Nat.mod_eq_of_lt s.journal.epoch.isLt] at hepoch'
  rw [s.reservations_eq_counts] at hheld'
  exact ⟨rfl, s.startup.portState.getElem?_code, s.startup.phase.getElem?_code, s.startup.loadResult.getElem?_code,
    s.startup.rollbackResult.getElem?_code, s.supply.state.getElem?_code, s.journal.state.getElem?_code, hepoch', hwritten',
    hheld', hcapacity', rfl, rfl, getElem?_boolByte _, s.mgmt.lastLong.getElem?_code, hskipped',
    s.startup.cause.getElem?_code⟩

end Sys2Proof.Machine
end

section
/-! O15 (R167, R168, R179, Table 10-2): the requests of the management commands. -/

namespace Sys2Proof.Machine

/-! ### Fields of more than one byte -/

theorem bytesOf_four (v : BitVec 32) : bytesOf 4 v.toNat =
    [v.extractLsb' 24 8, v.extractLsb' 16 8, v.extractLsb' 8 8, v.extractLsb' 0 8] := by
  rw [← ofNat_div_pow_eq_extract v 3, ← ofNat_div_pow_eq_extract v 2, ← ofNat_div_pow_eq_extract v 1,
    ← ofNat_div_pow_eq_extract v 0]
  rfl

theorem bytesOf_eight (v : BitVec 64) : bytesOf 8 v.toNat = [v.extractLsb' 56 8, v.extractLsb' 48 8, v.extractLsb' 40 8,
    v.extractLsb' 32 8, v.extractLsb' 24 8, v.extractLsb' 16 8, v.extractLsb' 8 8, v.extractLsb' 0 8] := by
  rw [← ofNat_div_pow_eq_extract v 7, ← ofNat_div_pow_eq_extract v 6, ← ofNat_div_pow_eq_extract v 5,
    ← ofNat_div_pow_eq_extract v 4, ← ofNat_div_pow_eq_extract v 3, ← ofNat_div_pow_eq_extract v 2,
    ← ofNat_div_pow_eq_extract v 1, ← ofNat_div_pow_eq_extract v 0]
  rfl

/-- Adjacent fields of a word put together. -/
theorem extract_append_extract {w : Nat} (v : BitVec w) (lo n m : Nat) :
    v.extractLsb' (lo + n) m ++ v.extractLsb' lo n = v.extractLsb' lo (m + n) := by
  ext i hi
  simp only [BitVec.getElem_append, BitVec.getElem_extractLsb']
  split
  · rfl
  · congr 1
    omega

theorem append_two_bytes (v : BitVec 16) : v.extractLsb' 8 8 ++ v.extractLsb' 0 8 = v := by
  rw [extract_append_extract v 0 8 8]
  exact BitVec.extractLsb'_eq_self

theorem append_four_bytes (v : BitVec 32) :
    v.extractLsb' 24 8 ++ v.extractLsb' 16 8 ++ v.extractLsb' 8 8 ++ v.extractLsb' 0 8 = v := by
  rw [extract_append_extract v 16 8 8, extract_append_extract v 8 8 16, extract_append_extract v 0 8 24]
  exact BitVec.extractLsb'_eq_self

theorem append_eight_bytes (v : BitVec 64) :
    v.extractLsb' 56 8 ++ v.extractLsb' 48 8 ++ v.extractLsb' 40 8 ++ v.extractLsb' 32 8 ++ v.extractLsb' 24 8 ++
      v.extractLsb' 16 8 ++ v.extractLsb' 8 8 ++ v.extractLsb' 0 8 = v := by
  rw [extract_append_extract v 48 8 8, extract_append_extract v 40 8 16, extract_append_extract v 32 8 24,
    extract_append_extract v 24 8 32, extract_append_extract v 16 8 40, extract_append_extract v 8 8 48,
    extract_append_extract v 0 8 56]
  exact BitVec.extractLsb'_eq_self

/-! ### The judging of a whole request -/

/-- R167, R168: what a request whose last byte has come is judged to be. -/
theorem judgeRequest_complete (code n crc : Byte) {args : List Byte} (hn : args.length = n.toNat) (hmax : n.toNat ≤ 72) :
    judgeRequest (code :: n :: args ++ [crc]) =
      if crc8 (code :: n :: args) ≠ crc then .error
      else if argumentCount code = some n.toNat then .good code args else .error := by
  have hlong : ¬ Config.maxArgument < n.toNat := Nat.not_lt.mpr hmax
  have htake : (args ++ [crc]).take n.toNat = args := List.take_left' hn
  have hget : (args ++ [crc]).getD n.toNat 0 = crc := by simp [← hn]
  have hended : ¬ (args ++ [crc]).length ≤ n.toNat := by simp [hn]
  simp only [List.cons_append, judgeRequest]
  rw [if_neg hlong, if_neg hended, htake, hget]

/-- R167: a length byte above 72 is an error. -/
theorem judgeRequest_of_long {code n : Byte} (h : 72 < n.toNat) : judgeRequest [code, n] = .error := by
  simp only [judgeRequest]
  exact if_pos h

/-- R167: a request that has not its CRC byte is unfinished. -/
theorem judgeRequest_unfinished (code n : Byte) {args : List Byte} (hn : args.length ≤ n.toNat) (hmax : n.toNat ≤ 72) :
    judgeRequest (code :: n :: args) = .unfinished := by
  have hlong : ¬ Config.maxArgument < n.toNat := Nat.not_lt.mpr hmax
  simp only [judgeRequest]
  rw [if_neg hlong, if_pos hn]

/-- Table 10-2: the code of a command, with the number of arguments that the index gives, spells the command. -/
theorem codeAndArgs_spells {c : Instr} {code : Byte} {args : List Byte} (h : c.codeAndArgs = some (code, args)) :
    argumentCount code = some args.length ∧ args.length ≤ 8 ∧ commandOf code args = some c := by
  cases c <;> simp only [Instr.codeAndArgs, Option.some.injEq, Prod.mk.injEq, reduceCtorEq] at h
  all_goals obtain ⟨rfl, rfl⟩ := h
  case clearEvents b =>
    rw [bytesOf_two]
    exact ⟨rfl, by simp, congrArg (fun b => some (Instr.clearEvents b)) (append_two_bytes b)⟩
  case writeEventMask m v =>
    rw [bytesOf_two]
    exact ⟨rfl, by simp, congrArg (fun m => some (Instr.writeEventMask m v)) (append_two_bytes m)⟩
  case writeRegion i b l a e =>
    rw [bytesOf_two, bytesOf_two]
    exact ⟨rfl, by simp, congrArg₂ (fun b l => some (Instr.writeRegion i b l a e)) (append_two_bytes b) (append_two_bytes l)⟩
  case writeGuardFilter f =>
    rw [bytesOf_eight]
    exact ⟨rfl, by simp, congrArg (fun f => some (Instr.writeGuardFilter f)) (append_eight_bytes f)⟩
  case writeJournalPlacement b s =>
    rw [bytesOf_two, bytesOf_two]
    exact ⟨rfl, by simp, congrArg₂ (fun b s => some (Instr.writeJournalPlacement b s)) (append_two_bytes b) (append_two_bytes s)⟩
  case initJournal e =>
    rw [bytesOf_four]
    exact ⟨rfl, by simp, congrArg (fun e => some (Instr.initJournal e)) (append_four_bytes e)⟩
  all_goals exact ⟨rfl, by simp, rfl⟩

/-- R167: the length byte of a command's request gives its arguments' number. -/
theorem lengthByte_toNat {args : List Byte} (h : args.length ≤ 8) : (BitVec.ofNat 8 args.length).toNat = args.length := by
  rw [BitVec.toNat_ofNat]
  exact Nat.mod_eq_of_lt (by omega)

theorem judgeRequest_requestOf {c : Instr} {code : Byte} {args : List Byte} (h : c.codeAndArgs = some (code, args)) :
    judgeRequest (requestOf c) = .good code args := by
  obtain ⟨hcount, hlen, -⟩ := codeAndArgs_spells h
  have hbyte := lengthByte_toNat hlen
  simp only [requestOf, h, requestBytes]
  rw [judgeRequest_complete _ _ _ hbyte.symm (by omega), if_neg (by simp), hbyte, if_pos hcount]

/-! ### The CRC-8 -/

/-- R179: the CRC-8 goes on by one byte. -/
theorem crc8_append_singleton (bytes : List Byte) (b : Byte) : crc8 (bytes ++ [b]) = crc8Step^[8] (crc8 bytes ^^^ b) := by
  simp [crc8, crc8Byte, List.range_succ]

/-- Settles O15: the requests by the command index, the CRC-8 by its step. -/
theorem requestsSpellTheirCommands : Obligations.RequestsSpellTheirCommands := by
  refine ⟨fun c code args h => ⟨judgeRequest_requestOf h, (codeAndArgs_spells h).2.2⟩, rfl, fun a b c d u v e f => ?_, rfl,
    crc8_append_singleton⟩
  simp [Instr.codeAndArgs, bytesOf_two, bytesOf_four, bytesOf_eight]

end Sys2Proof.Machine
end

section
/-! O17 (R168, R169): frames in error. -/

namespace Sys2Proof.Machine

/-! ### What is judged to be in error -/

/-- A command of the code that has as many arguments as the index gives, if the index holds the code. -/
def indexed (code : Byte) : Bool :=
  (argumentCount code).all fun k => (commandOf code (List.replicate k 0)).any fun c =>
    c.codeAndArgs.any fun x => x.1 == code && x.2.length == k

/-- Table 10-2: every code for which an argument count is given is the code of a command with so many arguments. -/
theorem indexed_eq_true : ∀ code : Byte, indexed code = true := by decide +kernel

theorem exists_codeAndArgs_of_argumentCount {code : Byte} {k : Nat} (h : argumentCount code = some k) :
    ∃ (c : Instr) (args : List Byte), c.codeAndArgs = some (code, args) ∧ args.length = k := by
  have hi := indexed_eq_true code
  simp only [indexed, h, Option.all_some, Option.any_eq_true] at hi
  obtain ⟨c, -, ⟨code', args⟩, hargs, hx⟩ := hi
  simp only [Bool.and_eq_true, beq_iff_eq] at hx
  obtain ⟨rfl, hlen⟩ := hx
  exact ⟨c, args, hargs, hlen⟩

/-- R168: a request whose CRC, code or length is not right is an error. -/
theorem judgeRequest_error (code n crc : Byte) {args : List Byte} (hn : args.length = n.toNat) (hmax : n.toNat ≤ 72)
    (h : crc ≠ crc8 (code :: n :: args) ∨
      ∀ (c : Instr) (others : List Byte), c.codeAndArgs = some (code, others) → others.length ≠ n.toNat) :
    judgeRequest (code :: n :: args ++ [crc]) = .error := by
  rw [judgeRequest_complete code n crc hn hmax]
  by_cases hcrc : crc8 (code :: n :: args) ≠ crc
  · rw [if_pos hcrc]
  · have hcount : argumentCount code ≠ some n.toNat := by
      intro hc
      obtain ⟨c, others, hargs, hlen⟩ := exists_codeAndArgs_of_argumentCount hc
      rcases h with h | h
      · exact hcrc (Ne.symm h)
      · exact h c others hargs hlen
    rw [if_neg hcrc, if_neg hcount]

/-! ### What a frame in error does -/

namespace State

/-- R169: the fault unit after a frame in error. -/
def faultsOfFrameError (s : State) : FaultUnit := ((s.count .frameErrors).raise .mgmtError).faults

theorem faultsOfFrameError_congr {s t : State} (h : t.faults = s.faults) :
    t.faultsOfFrameError = s.faultsOfFrameError := raise_faults_congr (count_faults_congr h _) _

theorem frameFault_eq (s : State) : s.frameFault =
    { s with faults := s.faultsOfFrameError, mgmt := { s.mgmt with lastError := true } } := by
  simp only [frameFault, flagError, setMgmt, faultsOfFrameError]
  rw [raise_eq, count_eq]

/-- R169, R170: a frame in error that is answered. -/
theorem frameFault_respond (s : State) (bytes : List Byte) (flag : Bool) :
    s.frameFault.respond bytes (bareReply .frame) flag = { s with
      faults := s.faultsOfFrameError
      mgmt := { s.mgmt with
        frame := .filler, bits := [], mdoLine := some true, received := bytes, sent := 0, lastError := true
        response := responseBytes (({ s with faults := s.faultsOfFrameError } : State).statusByte flag) (bareReply .frame) } } := by
  rw [frameFault_eq]
  rfl

end State

/-- R169: a frame error at the length byte or the CRC byte. -/
theorem exec_frameError_of_error {s : State} {bytes : List Byte} (ht : s.takesFrame = true)
    (hj : judgeRequest bytes = .error) :
    exec (.frameError bytes false) s = .next (s.frameFault.respond bytes (bareReply .frame) s.mgmt.lastError) := by
  show Host.Outcome.next (if s.takesFrame then s.frameErrorAt bytes false else s) = _
  rw [if_pos ht]
  simp only [State.frameErrorAt, Bool.false_eq_true, if_false]
  rw [if_pos hj]

/-- R169: MCS# rises early. -/
theorem exec_frameError_rose {s : State} (bytes : List Byte) (ht : s.takesFrame = true) :
    exec (.frameError bytes true) s =
      .next (if bytes ≠ [] ∧ judgeRequest bytes = .unfinished then s.frameFault else s) := by
  show Host.Outcome.next (if s.takesFrame then s.frameErrorAt bytes true else s) = _
  rw [if_pos ht]
  simp only [State.frameErrorAt, if_true]

/-- R166 to R169: the edges that carry the bytes of a frame in error. -/
theorem run_frameError {s : State} {bytes : List Byte} {rest : List FrameEdge} (ht : s.takesFrame = true)
    (hp : s.pending = []) (hu : ∀ n < bytes.length, judgeRequest (bytes.take n) = .unfinished)
    (hj : judgeRequest bytes = .error) (hl : s.frameLines = .mcsFalls :: (edgesOf bytes ++ rest)) :
    core.run (16 * bytes.length) s = exec (.frameError bytes false) { s with frameLines := .mckFalls :: rest } := by
  obtain ⟨bs, b, rfl⟩ : ∃ bs b, bytes = bs ++ [b] := by
    rcases List.eq_nil_or_concat bytes with rfl | ⟨bs, b, rfl⟩
    · simp [judgeRequest] at hj
    · exact ⟨bs, b, by simp⟩
  have hbs : ∀ k < bs.length, judgeRequest (bs.take (k + 1)) = .unfinished := by
    intro k hk
    have hk' := hu (k + 1) (by simp; omega)
    rwa [List.take_append_of_le_length (by omega)] at hk'
  have hjudge : (s.inRequest (bs ++ [b]) [] (.mckFalls :: rest)).judgeReceived =
      .next ((s.inRequest (bs ++ [b]) [] (.mckFalls :: rest)).frameFault.respond (bs ++ [b]) (bareReply .frame)
        s.mgmt.lastError) := by
    simp only [State.judgeReceived, State.inRequest]
    rw [hj]
  rw [run_request hp ht bs b rest hbs hl hjudge, exec_frameError_of_error (s := { s with frameLines := .mckFalls :: rest }) ht hj,
    State.frameFault_respond, State.frameFault_respond,
    State.faultsOfFrameError_congr (s := s) (t := s.inRequest (bs ++ [b]) [] (.mckFalls :: rest)) rfl,
    State.faultsOfFrameError_congr (s := s) (t := { s with frameLines := .mckFalls :: rest }) rfl]
  rfl

/-- R169: MCS# rises in a request of which a byte has come. -/
theorem exec_mcsRisingEdge_in_request {s : State} {bytes : List Byte} (hb : bytes ≠ []) :
    exec .mcsRisingEdge { s with mgmt := { s.mgmt with frame := .request, received := bytes } } = .next { s with
      faults := s.faultsOfFrameError
      mgmt := { s.mgmt with
        frame := .idle, bits := [], mdoLine := none, received := [], response := [], sent := 0, lastError := true } } := by
  simp only [exec, execMcsRisingEdge]
  rw [if_pos ⟨trivial, hb⟩, State.frameFault_eq, State.faultsOfFrameError_congr (s := s)
    (t := { s with mgmt := { s.mgmt with frame := .request, received := bytes } }) rfl]
  rfl

/-- Settles O17: what is in error by the judging of a whole request, what it does by `frameFault`, and the edges by the run of
a request. -/
theorem frameErrorsAreCountedAndFlagged : Obligations.FrameErrorsAreCountedAndFlagged := by
  refine ⟨fun code n crc args => ⟨judgeRequest_of_long, judgeRequest_error code n crc⟩, rfl, fun bytes s ht => ⟨?_, ?_, ?_,
    fun rest hp hu hj hl => run_frameError ht hp hu hj hl, fun _ hb => exec_mcsRisingEdge_in_request hb⟩⟩
  · intro hj
    refine ⟨_, _, rfl, rfl, ?_⟩
    rw [exec_frameError_of_error ht hj, State.frameFault_respond]
    rfl
  · intro hb hj
    rw [exec_frameError_rose bytes ht, if_pos ⟨hb, hj⟩, State.frameFault_eq]
    rfl
  · rw [exec_frameError_rose [] ht, if_neg (fun h => h.1 rfl)]

end Sys2Proof.Machine
end

section
/-! O16 (R126, R166, R167, R168, R170): the turns of a frame. -/

namespace Sys2Proof.Machine

/-! ### No frame is taken -/

theorem exec_of_not_takesFrame {c : Instr} (hc : c.isManagement = true) {s : State} (ht : s.takesFrame = false) :
    exec c s = .next s := by
  rw [exec_eq_after, after_of_isManagement hc, manage_of_not_takesFrame ht]

theorem exec_frameError_of_not_takesFrame {s : State} (ht : s.takesFrame = false) (bytes : List Byte) (rose : Bool) :
    exec (.frameError bytes rose) s = .next s := by
  rw [exec_eq_after]
  simp [State.after, ht]

/-- R166: MCS# rises where no byte of a request has come. -/
theorem exec_mcsRisingEdge_of_no_byte {s : State} (h : s.mgmt.frame ≠ .request ∨ s.mgmt.received = []) :
    exec .mcsRisingEdge s = .next s.leaveFrame := by
  rw [exec_eq_after]
  simp only [State.after]
  rw [if_neg (by tauto)]

/-! ### A byte time -/

/-- On an empty queue with no edge to come one byte time passes. -/
theorem step_clockByte {s : State} (hp : s.pending = []) (hl : s.frameLines = []) : step s = .next s.clockByte := by
  simp [step, hp, hl]

namespace State

theorem clockByte_of_filler {s : State} (h : s.mgmt.frame = .filler) :
    s.clockByte = { s with mgmt := { s.mgmt with frame := .response, mdoLine := some true } } := by
  simp only [clockByte, h, advanceFrame, driveMdo, setMgmt, mdo]
  rfl

theorem clockByte_of_trailing {s : State} (h : s.mgmt.frame = .trailing) :
    s.clockByte = { s with mgmt := { s.mgmt with mdoLine := some true } } := by
  simp only [clockByte, h, advanceFrame, driveMdo, setMgmt, mdo]
  rfl

/-- R166: the last bit of the response byte that is put out. -/
def lastBit (s : State) : Option Bool := some ((s.mgmt.response.getD s.mgmt.sent 0xFF).getLsbD 0)

theorem clockByte_of_response {s : State} (h : s.mgmt.frame = .response) :
    s.clockByte = if s.mgmt.sent + 1 < s.mgmt.response.length then
      { s with mgmt := { s.mgmt with mdoLine := s.lastBit, sent := s.mgmt.sent + 1 } }
    else { s with mgmt := { s.mgmt with frame := .trailing, mdoLine := s.lastBit, sent := s.mgmt.response.length } } := by
  simp only [clockByte, h, advanceFrame, driveMdo, setMgmt, mdo]
  rfl

theorem clockByte_of_still {s : State} (h : s.mgmt.frame = .idle ∨ s.mgmt.frame = .request) : s.clockByte = s := by
  rcases h with h | h <;> simp only [clockByte, h]

theorem clockByte_setFrameLines (s : State) (q : List FrameEdge) :
    (s.setFrameLines q).clockByte = s.clockByte.setFrameLines q := by
  cases h : s.mgmt.frame with
  | idle => rw [clockByte_of_still (s := s.setFrameLines q) (.inl h), clockByte_of_still (.inl h)]
  | request => rw [clockByte_of_still (s := s.setFrameLines q) (.inr h), clockByte_of_still (.inr h)]
  | filler => rw [clockByte_of_filler (s := s.setFrameLines q) h, clockByte_of_filler h]; rfl
  | response =>
    rw [clockByte_of_response (s := s.setFrameLines q) h, clockByte_of_response h, apply_ite (setFrameLines q)]
    rfl
  | trailing => rw [clockByte_of_trailing (s := s.setFrameLines q) h, clockByte_of_trailing h]; rfl

/-! ### The edges -/

/-- R166: the byte that is being put out goes on by a whole byte, with MDO as it stood before. -/
theorem advanceFrame_eq_clockByte {s : State} (h : s.mgmt.frame = .filler ∨ s.mgmt.frame = .response ∨ s.mgmt.frame = .trailing) :
    s.advanceFrame = { s.clockByte with mgmt := { s.clockByte.mgmt with mdoLine := s.mgmt.mdoLine } } := by
  rcases h with h | h | h
  · rw [clockByte_of_filler h]
    simp only [advanceFrame, h]
    rfl
  · rw [clockByte_of_response h]
    simp only [advanceFrame, h]
    split <;> rfl
  · have hstays : s.advanceFrame = s := by simp only [advanceFrame, h]
    rw [clockByte_of_trailing h, hstays]

theorem completeByte_of_answered {s : State} (b : Byte)
    (h : s.mgmt.frame = .filler ∨ s.mgmt.frame = .response ∨ s.mgmt.frame = .trailing) :
    s.completeByte b = .next (s.setMgmt { s.mgmt with bits := [] }).advanceFrame := by
  rcases h with h | h | h <;> simp only [completeByte, h]

end State

/-- R166: a rising edge of MCK in IDLE. -/
theorem step_mckRises_of_idle {s : State} {mdi : Bool} {rest : List FrameEdge} (hp : s.pending = [])
    (hl : s.frameLines = .mckRises mdi :: rest) (h : s.mgmt.frame = .idle) : step s = .next (s.setFrameLines rest) := by
  rw [step_edge hp hl]
  simp only [State.frameEdge, State.riseMck]
  exact if_pos h

/-- R166: a rising edge of MCK that does not complete a byte. -/
theorem step_mckRises_of_bit {s : State} {mdi : Bool} {rest : List FrameEdge} (hp : s.pending = [])
    (hl : s.frameLines = .mckRises mdi :: rest) (h : s.mgmt.frame ≠ .idle) (hb : s.mgmt.bits.length < 7) :
    step s = .next ((s.setFrameLines rest).setMgmt { s.mgmt with bits := s.mgmt.bits ++ [mdi] }) := by
  rw [step_edge hp hl]
  simp only [State.frameEdge, State.riseMck]
  exact (if_neg h).trans (if_pos hb)

/-- R166: a rising edge of MCK that completes a byte time of the response. -/
theorem step_mckRises_of_byte {s : State} {mdi : Bool} {rest : List FrameEdge} (hp : s.pending = [])
    (hl : s.frameLines = .mckRises mdi :: rest)
    (h : s.mgmt.frame = .filler ∨ s.mgmt.frame = .response ∨ s.mgmt.frame = .trailing) (hb : 7 ≤ s.mgmt.bits.length) :
    ∃ t : State, step { s with frameLines := [], mgmt := { s.mgmt with bits := [] } } = .next t ∧
      step s = .next { t with frameLines := rest, mgmt := { t.mgmt with mdoLine := s.mgmt.mdoLine } } := by
  have hframe : s.mgmt.frame ≠ .idle := by rcases h with h | h | h <;> simp [h]
  have hbits : ¬ s.mgmt.bits.length < 7 := by omega
  let u : State := s.setMgmt { s.mgmt with bits := [] }
  refine ⟨(u.setFrameLines []).clockByte, step_clockByte (s := u.setFrameLines []) hp rfl, ?_⟩
  have hadvance : (u.setFrameLines rest).advanceFrame = _ := State.advanceFrame_eq_clockByte (s := u.setFrameLines rest) h
  rw [State.clockByte_setFrameLines] at hadvance ⊢
  rw [step_edge hp hl]
  simp only [State.frameEdge, State.riseMck]
  rw [if_neg (show (s.setFrameLines rest).mgmt.frame ≠ .idle from hframe),
    if_neg (show ¬ (s.setFrameLines rest).mgmt.bits.length < 7 from hbits),
    State.completeByte_of_answered (s := s.setFrameLines rest) _ h]
  exact congrArg Host.Outcome.next hadvance

/-! ### The edges of a command -/

/-- R168: what a management command does, it does from the state at the end of its request. -/
theorem exec_framed {c : Instr} (hc : c.isManagement = true) {s t : State} (hs : s.takesFrame = true) (ht : t.takesFrame = true)
    (hend : t.endRequest (requestOf c) = s.endRequest (requestOf c)) (hflag : t.mgmt.lastError = s.mgmt.lastError) :
    exec c t = exec c s := by
  rw [exec_eq_after, exec_eq_after, after_of_isManagement hc, after_of_isManagement hc]
  simp only [manage]
  rw [if_pos hs, if_pos ht, hend, hflag]

/-- R167: the request of a command is unfinished until its last byte. -/
theorem requestOf_cut {c : Instr} {code : Byte} {args : List Byte} (h : c.codeAndArgs = some (code, args)) :
    ∃ (bs : List Byte) (b : Byte), requestOf c = bs ++ [b] ∧ ∀ k < bs.length, judgeRequest (bs.take (k + 1)) = .unfinished := by
  obtain ⟨-, hlen, -⟩ := codeAndArgs_spells h
  have hbyte := lengthByte_toNat hlen
  refine ⟨code :: BitVec.ofNat 8 args.length :: args, crc8 (code :: BitVec.ofNat 8 args.length :: args), ?_, fun k hk => ?_⟩
  · simp only [requestOf, h, requestBytes]
  · match k with
    | 0 => rfl
    | k + 1 =>
      refine judgeRequest_unfinished code _ ?_ (by omega)
      rw [hbyte, List.length_take]
      exact Nat.min_le_right _ _

/-- R166 to R168: the edges that carry a command's request. -/
theorem run_command {c : Instr} {s : State} {rest : List FrameEdge} (hc : c.isManagement = true) (ht : s.takesFrame = true)
    (hp : s.pending = []) (hl : s.frameLines = .mcsFalls :: (edgesOf (requestOf c) ++ rest)) :
    core.run (16 * (requestOf c).length) s = exec c { s with frameLines := .mckFalls :: rest } := by
  obtain ⟨⟨code, args⟩, hargs⟩ := Option.isSome_iff_exists.mp hc
  obtain ⟨bs, b, hreq, hcut⟩ := requestOf_cut hargs
  obtain ⟨hgood, hspell⟩ : judgeRequest (requestOf c) = .good code args ∧ commandOf code args = some c :=
    ⟨judgeRequest_requestOf hargs, (codeAndArgs_spells hargs).2.2⟩
  let u : State := { s with frameLines := .mckFalls :: rest }
  let v : State := s.inRequest (requestOf c) [] (.mckFalls :: rest)
  let w : State := v.setMgmt { v.mgmt with frame := .idle, mdoLine := none }
  have hidle : s.startup.inReset = false ∧ s.mgmt.frame = .idle := by simpa [State.takesFrame] using ht
  have hw : w.takesFrame = true := by simp [State.takesFrame, w, v, State.setMgmt, State.inRequest, hidle.1]
  have hjudge : (s.inRequest (requestOf c) [] (.mckFalls :: rest)).judgeReceived = .next (u.after c) := by
    have hexec : exec c w = exec c u := exec_framed hc (s := u) ht hw rfl rfl
    rw [← exec_eq_after, ← hexec]
    simp only [State.judgeReceived]
    rw [show (s.inRequest (requestOf c) [] (.mckFalls :: rest)).mgmt.received = requestOf c from rfl, hgood]
    simp only [hspell]
    rfl
  rw [hreq] at hl hjudge ⊢
  rw [run_request hp ht bs b rest hcut hl hjudge]
  exact (exec_eq_after c u).symm

/-- Settles O16: no frame taken, MCS# rising, the byte times, the edges, and MDO, each by its lemma. -/
theorem framesAreTakenInTurn : Obligations.FramesAreTakenInTurn := by
  intro s
  refine ⟨fun h => ⟨fun c hc => exec_of_not_takesFrame hc (takesFrame_eq_false h), fun bytes rose =>
    exec_frameError_of_not_takesFrame (takesFrame_eq_false h) bytes rose⟩, exec_mcsRisingEdge_of_no_byte,
    fun hp hl => ⟨fun h => ?_, fun h hmore => ?_, fun h hdone => ?_, fun h => ?_, fun h => ?_⟩,
    fun e rest hp hl => ⟨?_, ?_, ?_, ?_⟩, fun c rest hc ht hp hl => run_command hc ht hp hl, ?_, ?_, ?_, ?_⟩
  · rw [step_clockByte hp hl, State.clockByte_of_filler h]
  · rw [step_clockByte hp hl, State.clockByte_of_response h, if_pos hmore]
    rfl
  · rw [step_clockByte hp hl, State.clockByte_of_response h, if_neg (by omega)]
    rfl
  · rw [step_clockByte hp hl, State.clockByte_of_trailing h]
  · rw [step_clockByte hp hl, State.clockByte_of_still h]
  · rintro rfl
    rw [step_edge hp hl]
    rfl
  · rintro rfl
    rw [step_edge hp hl]
    simp [State.frameEdge, State.fallMcs, State.takesFrame, State.setFrameLines, State.setMgmt]
  · rintro rfl
    rw [step_edge hp hl]
    rfl
  · rintro mdi rfl
    exact ⟨step_mckRises_of_idle hp hl, step_mckRises_of_bit hp hl, step_mckRises_of_byte hp hl⟩
  · intro h
    simp only [State.mdo, h]
  · rintro (h | h | h) <;> simp only [State.mdo, h]
  · intro h b hb
    simp only [State.mdo, h, List.getD_eq_getElem?_getD, hb, Option.getD_some]
  · intro b hb hbits
    have hmsb : b.getMsbD s.mgmt.bits.length = b.getLsbD (7 - s.mgmt.bits.length) := by
      simp [BitVec.getMsbD, hbits]
    simp only [State.mdoBit, hb, Option.map_some, hmsb]

end Sys2Proof.Machine
end

section
/-! O37 (R25, R26, R27, R32): the WRITE presentations that are not accepted. -/

namespace Sys2Proof.Machine.State

/-! ### The decision order of a WRITE -/

theorem decideWrite_of_starting {s : State} (r : Request) (h : s.startup.portState = .starting ∨ s.startup.portState = .rolling) :
    s.decideWrite r = s.retryTo r := by
  rcases h with h | h <;> simp only [decideWrite, h]

theorem decideWrite_of_hold {s : State} (r : Request) (h : s.startup.portState = .hold) :
    s.decideWrite r = s.abortTo r (s.regionAt r.line) .refused := by
  simp only [decideWrite, h]
  rfl

/-- R26: in OPEN, with no entry that matches, the classification decides. -/
theorem decideWrite_of_opened {s : State} {r : Request} (h : s.startup.portState = .opened) (hm : s.matchesNone r) :
    s.decideWrite r = s.classifyWrite r := by
  simp only [decideWrite, h, matching_eq_none hm]

theorem classifyWrite_of_not_writable {s : State} {r : Request} (h : ¬ s.writable r.line) :
    s.classifyWrite r = s.abortTo r (s.regionAt r.line) .refused := by
  simp only [classifyWrite]
  exact if_pos (refusesWrite_of_not_writable h)

/-- R26 step 5: the inhibits of the host's own side. -/
theorem classifyWrite_of_inhibit {s : State} {r : Request} (hw : s.writable r.line)
    (h : s.supply.wlock = true ∨ s.supply.software = true) :
    s.classifyWrite r = s.abortTo r (s.regionAt r.line) .refused := by
  simp only [classifyWrite, refusesWrite_of_writable hw, Bool.false_eq_true, if_false]
  exact if_pos (by simpa using h)

/-- R26 step 5: the supply. -/
theorem classifyWrite_of_supply {s : State} {r : Request} (hw : s.writable r.line) (hl : s.supply.wlock = false)
    (hs : s.supply.software = false) (h : s.supply.state ≠ .normal) : s.classifyWrite r = s.retryTo r := by
  simp [classifyWrite, refusesWrite_of_writable hw, hl, hs, h]

/-- R26 steps 1 to 5 passed. -/
theorem decideWrite_of_unhindered {s : State} {r : Request} (h : s.unhindered r) : s.decideWrite r = s.guardWrite r := by
  obtain ⟨hopen, hmatch, hwritable, hlock, hsoft, hnormal⟩ := h
  rw [decideWrite_of_opened hopen hmatch]
  simp [classifyWrite, refusesWrite_of_writable hwritable, hlock, hsoft, hnormal]

/-- R27: a guarded write goes by the journal state. -/
theorem guardWrite_of_guarded {s : State} {r : Request} (hg : s.isGuarded r.line = true) :
    (s.journal.state = .closing → s.guardWrite r = s.retryTo r) ∧
    (s.journal.state ≠ .closing → s.journal.state ≠ .active →
      s.guardWrite r = s.abortTo r (s.regionAt r.line) .journalFail) ∧
    (s.journal.state = .active → s.reservationFor r.line = none →
      s.guardWrite r = s.abortTo r (s.regionAt r.line) .journalFull) := by
  have hcls : (s.classify r.line).guarded = true := hg
  simp only [guardWrite, hcls, Bool.not_true, Bool.false_eq_true, if_false]
  refine ⟨fun h => by rw [h], fun h1 h2 => ?_, fun h hn => by rw [h, hn]; rfl⟩
  cases h : s.journal.state
  case closing => exact absurd h h1
  case active => exact absurd h h2
  all_goals rfl

end Sys2Proof.Machine.State

namespace Sys2Proof.Machine

/-- Settles O37, step by step of the decision order. -/
theorem writesThatAreNotAccepted : Obligations.WritesThatAreNotAccepted := by
  intro i addr ucount data s r refused retried
  have answers {t : State} (h : s.decideWrite r = t) : exec (.write i addr ucount data) s = .next t := congrArg _ h
  refine ⟨fun h => answers (State.decideWrite_of_starting r h), fun h => answers (State.decideWrite_of_hold r h),
    fun ho hm hw => ?_, fun ho hm hw hi => ?_, fun ho hm hw hl hs hn => ?_, fun hu hg hj => ?_, fun hu hg hc ha => ?_,
    fun hu hg hj hn => ?_⟩
  · exact answers ((State.decideWrite_of_opened ho hm).trans (State.classifyWrite_of_not_writable hw))
  · exact answers ((State.decideWrite_of_opened ho hm).trans (State.classifyWrite_of_inhibit hw hi))
  · exact answers ((State.decideWrite_of_opened ho hm).trans (State.classifyWrite_of_supply hw hl hs hn))
  · exact answers ((State.decideWrite_of_unhindered hu).trans ((State.guardWrite_of_guarded hg).1 hj))
  · exact answers ((State.decideWrite_of_unhindered hu).trans ((State.guardWrite_of_guarded hg).2.1 hc ha))
  · exact answers ((State.decideWrite_of_unhindered hu).trans
      ((State.guardWrite_of_guarded hg).2.2 hj (reservationFor_eq_none hn)))

end Sys2Proof.Machine
end

section
/-! O43, O44, O45, O46 (R43, R46, R110, R112 to R116, R120, R122): the attempts of an operation at the memory port. -/

namespace Sys2Proof.Machine

/-! ### Memory by the answers -/

/-- R110, R113: what an answer in time does. -/
theorem exec_memoryAnswer {s : State} {op : Operation} (hop : s.port.op = some op) (a : MemAnswer) :
    exec (.memoryAnswer a false) s = .next (s.answered op a) := by
  rw [exec_eq_after]
  simp [State.after, hop]

theorem exec_attemptTimeout {s : State} {op : Operation} (hop : s.port.op = some op) :
    exec .attemptTimeout s = .next (s.answered op .error) := by
  rw [exec_eq_after]
  simp [State.after, hop]

/-- R110: an answer with no attempt outstanding is discarded. -/
theorem answered_of_waiting {s : State} {op : Operation} (h : op.phase = .backoff ∨ op.phase = .held) (a : MemAnswer) :
    s.answered op a = s := by
  rcases h with h | h <;> simp [State.answered, h]

/-- R110: a LINE READ leaves memory as it is. -/
theorem spoils_of_read {op : Operation} (h : op.kind = .lineRead) (m : List Host.Cell) : op.spoils m = m := by
  simp only [Operation.spoils, h]

theorem spoils_of_write {op : Operation} (h : op.kind = .lineWrite) (m : List Host.Cell) :
    op.spoils m = Memory.forgetLine op.line m := by
  simp only [Operation.spoils, h]

theorem spoils_eq (op : Operation) (m : List Host.Cell) :
    op.spoils m = if op.kind = .lineWrite then Memory.forgetLine op.line m else m := by
  cases hk : op.kind with
  | lineRead => rw [spoils_of_read hk, if_neg (by simp)]
  | lineWrite => rw [spoils_of_write hk, if_pos rfl]

/-- R110: an attempt that leaves its line undefined changes no byte of another line. -/
theorem read_spoils_other {op : Operation} (m : List Host.Cell) {a : Nat} (ha : a / 64 ≠ op.line) :
    Memory.read (op.spoils m) a = Memory.read m a := by
  cases hk : op.kind with
  | lineRead => rw [spoils_of_read hk]
  | lineWrite => rw [spoils_of_write hk, Memory.read_forgetLine_other m ha]

/-- R43, R110: an answer changes no byte of another line, and none where the operation is a LINE READ. -/
theorem read_answered_other {s : State} {op : Operation} {a : Nat} (x : MemAnswer)
    (h : a / 64 ≠ op.line ∨ op.kind = .lineRead ∨ op.phase = .backoff ∨ op.phase = .held) :
    Memory.read (s.answered op x).memory a = Memory.read s.memory a := by
  have hspoils (hs : a / 64 ≠ op.line ∨ op.kind = .lineRead) :
      Memory.read (op.spoils s.memory) a = Memory.read s.memory a := by
    rcases hs with hs | hs
    · exact read_spoils_other _ hs
    · rw [spoils_of_read hs]
  have hmemory {m : List Host.Cell} {b : Prop} [Decidable b] (hs : a / 64 ≠ op.line ∨ op.kind = .lineRead)
      (hm : m = if b then s.memory else op.spoils s.memory) : Memory.read m a = Memory.read s.memory a := by
    rw [hm]
    split
    · rfl
    · exact hspoils hs
  cases hp : op.phase with
  | backoff => rw [answered_of_waiting (.inl hp)]
  | held => rw [answered_of_waiting (.inr hp)]
  | awaiting =>
    have hs : a / 64 ≠ op.line ∨ op.kind = .lineRead := by simpa [hp] using h
    obtain ⟨hok, hbusy, herror⟩ := State.answered_memory_awaiting (s := s) hp
    cases x with
    | ok d =>
      rw [hok]
      split
      next hk =>
        rcases hs with hs | hs
        · exact Memory.read_writeLine_other _ _ _ hs
        · rw [hs] at hk; cases hk
      next => rfl
    | busy => exact hmemory hs hbusy
    | error => rw [herror]; exact hspoils hs
  | verifying =>
    have hs : a / 64 ≠ op.line ∨ op.kind = .lineRead := by simpa [hp] using h
    obtain ⟨hok, hother⟩ := State.answered_memory_verify (s := s) hp
    cases x with
    | ok d => exact hmemory hs (hok d)
    | busy => exact hmemory hs (hother _ (.inl rfl))
    | error => exact hmemory hs (hother _ (.inr rfl))

/-- A byte of the line of a LINE WRITE after an answer that leaves it or makes it undefined. -/
theorem read_kept_or_spoilt {op : Operation} {m : List Host.Cell} {a : Nat} {b : Prop} [Decidable b] (ha : a < 67108864)
    (hl : a / 64 = op.line) (hk : op.kind = .lineWrite) :
    Memory.read (if b then m else op.spoils m) a = if b then Memory.read m a else none := by
  have hline : op.line < Config.lines := hl ▸ (by simp only [Config.lines]; omega)
  rw [spoils_of_write hk]
  split
  · rfl
  · exact Memory.read_forgetLine_same m hline hl

/-- Settles O43: what each answer makes of memory, read at one address. -/
theorem memoryFollowsTheAnswers : Obligations.MemoryFollowsTheAnswers := by
  intro s op bytes hop
  refine ⟨_, _, _, _, exec_memoryAnswer hop _, exec_memoryAnswer hop _, exec_memoryAnswer hop _, exec_attemptTimeout hop,
    fun a ha => ⟨?_, ?_, ?_⟩⟩
  · rintro h t (rfl | rfl | rfl | rfl)
    all_goals exact read_answered_other _ h
  · intro hl hk hp
    have hline : op.line < Config.lines := hl ▸ (by simp only [Config.lines]; omega)
    obtain ⟨hok, hbusy, herror⟩ := State.answered_memory_awaiting (s := s) hp
    have hspoilt : Memory.read (op.spoils s.memory) a = none := by
      rw [spoils_of_write hk]
      exact Memory.read_forgetLine_same _ hline hl
    refine ⟨?_, ?_, ?_, ?_⟩
    · rw [hok, if_pos hk]
      exact Memory.read_writeLine_same _ _ _ hline hl
    · rw [herror, hspoilt]
    · rw [herror, hspoilt]
    · rw [hbusy]
      exact read_kept_or_spoilt ha hl hk
  · intro hl hk hp
    obtain ⟨hok, hother⟩ := State.answered_memory_verify (s := s) hp
    refine ⟨?_, ?_⟩
    · rw [hok]
      exact read_kept_or_spoilt ha hl hk
    · rintro t (rfl | rfl | rfl)
      · rw [hother _ (.inl rfl)]
        exact read_kept_or_spoilt ha hl hk
      all_goals
        rw [hother _ (.inr rfl)]
        exact read_kept_or_spoilt ha hl hk

/-! ### Attempts below the limit -/

/-- R113: an operation put into back-off. -/
theorem backOff_eq (s : State) (op : Operation) (n : NextIssue) : s.backOff op n =
    { s with port := { s.port with op := some { op with phase := .backoff, next := n } } } := rfl

/-- Settles O44, by the phase of the operation and the answer. -/
theorem attemptsAreAnswered : Obligations.AttemptsAreAnswered := by
  intro s op bytes hop goesTo
  have late (a : MemAnswer) : exec (.memoryAnswer a true) s = .next s := by
    rw [exec_eq_after]
    simp [State.after, hop]
  refine ⟨fun hn hp => ⟨?_, ?_⟩, fun hn hp => ⟨?_, fun hd => ?_⟩, fun hp hk hv => ?_, late, fun hp => ⟨fun a => ?_, ?_⟩⟩
  · refine (exec_memoryAnswer hop _).trans (congrArg _ ?_)
    simp only [State.answered, hp, State.attemptFailed, if_pos hn]
    rfl
  · have herror : s.answered op .error = { s with
        port := { s.port with op := some { op with phase := .backoff, next := .attemptAgain } }
        memory := if op.kind = .lineWrite then Memory.forgetLine op.line s.memory else s.memory } := by
      simp only [State.answered, hp, State.attemptError, if_pos hn, spoils_eq]
      rfl
    rintro c (rfl | rfl)
    · exact (exec_memoryAnswer hop _).trans (congrArg _ herror)
    · exact (exec_attemptTimeout hop).trans (congrArg _ herror)
  · have hfailed : s.verifyFailed op =
        { s with port := { s.port with op := some { op with phase := .backoff, next := .verifyAgain } } } := by
      simp only [State.verifyFailed, if_pos hn, backOff_eq]
    rintro c (rfl | rfl | rfl)
    · refine (exec_memoryAnswer hop _).trans (congrArg _ ?_)
      simpa only [State.answered, hp] using hfailed
    · refine (exec_memoryAnswer hop _).trans (congrArg _ ?_)
      simpa only [State.answered, hp] using hfailed
    · refine (exec_attemptTimeout hop).trans (congrArg _ ?_)
      simpa only [State.answered, hp] using hfailed
  · refine (exec_memoryAnswer hop _).trans (congrArg _ ?_)
    simp only [State.answered, hp, State.verifyOk, hd, if_pos hn, Bool.false_eq_true, if_false, backOff_eq]
  · have hverify : s.answered op (.ok bytes) =
        (s.setMemory (Memory.writeLine op.line op.mask op.data s.memory)).startVerify op := by
      simp only [State.answered, hp, State.attemptOk, hk, hv, if_true]
    exact (exec_memoryAnswer hop _).trans (congrArg _ hverify)
  · rw [exec_memoryAnswer hop, answered_of_waiting hp]
  · rw [exec_attemptTimeout hop, answered_of_waiting hp]

/-! ### The end of a back-off -/

/-- Settles O45, by what the operation waits for. -/
theorem theBackoffEnds : Obligations.TheBackoffEnds := by
  intro s op hop reissued
  have ends (h : op.phase = .backoff) : exec .backoffEnd s = .next (s.endBackoff op) := by
    rw [exec_eq_after]
    simp [State.after, hop, h]
  have resumes (h : op.phase = .backoff) (hf : s.supply.state ≠ .fail) : exec .backoffEnd s = .next (s.reissue op) := by
    rw [ends h, State.endBackoff, if_neg hf]
  refine ⟨fun h hf => ⟨fun hn => ?_, fun hn => ?_, fun hn => ?_⟩, fun h hf => ?_, fun h => ?_⟩
  · refine (resumes h hf).trans (congrArg _ ?_)
    simp only [State.reissue, hn]
    rfl
  · refine (resumes h hf).trans (congrArg _ ?_)
    simp only [State.reissue, hn]
    rfl
  · refine (resumes h hf).trans (congrArg _ ?_)
    simp only [State.reissue, hn]
    rfl
  · rw [ends h, State.endBackoff, if_pos hf]
    rfl
  · rw [exec_eq_after]
    simp [State.after, hop, h]

end Sys2Proof.Machine
end

section
/-! O46 (R112, R122): the failed-line list. -/

namespace Sys2Proof.Machine.State

/-! ### The list before the owner is told -/

/-- R122: a line that is listed already, or an operation that lists none. -/
theorem listFailure_of_listed {s : State} {op : Operation}
    (h : op.failure = none ∨ ∃ f ∈ s.port.failed, f.line = op.line) : s.listFailure op = s := by
  simp only [listFailure]
  split
  next => rfl
  next k hk =>
    obtain ⟨f, hf, hline⟩ : ∃ f ∈ s.port.failed, f.line = op.line := by simpa [hk] using h
    exact if_pos (List.any_eq_true.mpr ⟨f, hf, by simpa using hline⟩)

/-- R122: a line that is not listed. -/
theorem listFailure_of_unlisted {s : State} {op : Operation} {k : FailureKind} (hk : op.failure = some k)
    (h : ∀ f ∈ s.port.failed, f.line ≠ op.line) :
    s.listFailure op = if s.port.failed.length < 8 then
      (s.setPort { s.port with failed := s.port.failed ++ [⟨op.line, k, op.region⟩] }).raise .failedLine
    else s.setPort { s.port with overflow := true } := by
  have hany : (s.port.failed.any fun f => f.line == op.line) = false :=
    List.any_eq_false.mpr fun f hf => by simpa using h f hf
  simp only [listFailure, hk, hany, Bool.false_eq_true, if_false]
  rfl

/-- The state whose line is listed when an operation fails: the port free, and a failed prefetch counted. -/
def afterFailure (s : State) (op : Operation) : State := if op.owner = .prefetch then s.freePort.count .memRetry else s.freePort

theorem beforeFailure_eq (s : State) (op : Operation) : s.beforeFailure op = (s.afterFailure op).listFailure op := rfl

@[simp] theorem afterFailure_port (s : State) (op : Operation) : (s.afterFailure op).port = { s.port with op := none } := by
  simp only [afterFailure]
  split
  · simp
  · rfl

end Sys2Proof.Machine.State

namespace Sys2Proof.Machine

/-- Settles O46: the list before the owner is told, which neither the owner nor the next grant changes. -/
theorem failuresListTheirLine : Obligations.FailuresListTheirLine := by
  intro c s op hop hfails
  let u : State := (s.setMemory (op.spoils s.memory)).afterFailure op
  let t : State := ((u.listFailure op).ownerFailed op).settle
  have hu : u.port.failed = s.port.failed ∧ u.port.overflow = s.port.overflow := by simp [u]
  have hlist : t.port.failed = (u.listFailure op).port.failed ∧ t.port.overflow = (u.listFailure op).port.overflow := by
    simp [t]
  have hgrows : (u.listFailure op).faults.Grows t.faults :=
    State.settle_grows _ (State.ownerFailed_grows _ _ (.refl _))
  refine ⟨t, exec_of_failsBy hop hfails, fun h => ?_, fun k hk h => ⟨fun hlen => ?_, fun hlen => ?_⟩⟩
  · rw [hlist.1, hlist.2, State.listFailure_of_listed (by rwa [hu.1])]
    exact hu
  · have hunlisted := State.listFailure_of_unlisted (s := u) hk (by rwa [hu.1])
    rw [if_pos (by rwa [hu.1])] at hunlisted
    refine ⟨?_, ?_, State.recorded_of_grows hgrows ?_⟩
    · rw [hlist.1, hunlisted]
      simp [hu.1]
    · rw [hlist.2, hunlisted]
      simp [hu.2]
    · rw [hunlisted]
      exact State.raise_recorded _ _
  · have hunlisted := State.listFailure_of_unlisted (s := u) hk (by rwa [hu.1])
    rw [if_neg (by rw [hu.1]; omega)] at hunlisted
    refine ⟨?_, ?_⟩
    · rw [hlist.1, hunlisted]
      simp [hu.1]
    · rw [hlist.2, hunlisted]
      simp

end Sys2Proof.Machine
end

section
/-! O41, O42 (R31, R56, R64, R74): the claiming of COMPLETE entries and the expiry of their timers. -/

namespace Sys2Proof.Machine.State

/-! ### The removal of an entry -/

/-- R31: an entry that was removed has gone, whoever adopts its slot. -/
theorem removeEntry_table (s : State) (p : Fin 4) (e : DelayedEntry) : (s.removeEntry p e).engine.table[p] = none := by
  rw [Option.eq_none_iff_forall_not_mem]
  intro f hf
  obtain ⟨e', he', -⟩ := (releaseSlot_descends (s.setEntry p none) e.slot).table p f hf
  have hnone : (s.setEntry p none).engine.table[p] = none := by simp [setEntry, setEngine]
  rw [hnone] at he'
  cases he'

/-- R31: an entry without a slot. -/
theorem removeEntry_of_no_slot {s : State} {e : DelayedEntry} (p : Fin 4) (h : e.slot = none) :
    s.removeEntry p e = s.setEntry p none := by
  simp only [removeEntry, releaseSlot, h]

/-- R64: an adopter stands in the table. -/
theorem adopt_slot {s : State} {j : Fin 8} {line : Nat} {d : Line} {age : Nat}
    (hj : s.engine.slots[j] = .valid line d none age) :
    ∃ o, (s.adopt j).engine.slots[j] = .valid line d o age ∧ ∀ q, o = some q → (s.engine.table[q]).isSome = true := by
  cases ho : s.oldestReadyRead (fun l => l == line) with
  | none => exact ⟨none, by simp [adopt, hj, ho], by simp⟩
  | some q =>
    obtain ⟨e, he, -⟩ := oldestReadyRead_waiting ho
    refine ⟨some q, by simp [adopt, hj, ho, he, completeEntry, setEntry, setSlot, setEngine], fun q' hq => ?_⟩
    cases hq
    simp [he]

/-- R64: an adoption leaves the prefetch list and the counters as they are. -/
theorem adopt_leaves (s : State) (i : Fin 8) :
    (s.adopt i).engine.prefetch = s.engine.prefetch ∧ (s.adopt i).faults.counters = s.faults.counters := by
  unfold adopt
  split
  · split
    · split <;> simp [completeEntry, setEntry, setSlot, setEngine]
    · simp
  all_goals simp

theorem removeEntry_leaves (s : State) (p : Fin 4) (e : DelayedEntry) :
    (s.removeEntry p e).engine.prefetch = s.engine.prefetch ∧ (s.removeEntry p e).faults.counters = s.faults.counters := by
  simp only [removeEntry, releaseSlot]
  split
  · exact ⟨rfl, rfl⟩
  · split
    · exact adopt_leaves _ _
    all_goals exact ⟨rfl, rfl⟩

/-- R31, R74: the slot of an entry that was removed stays VALID, and is no longer its own. -/
theorem removeEntry_slot {s : State} {p : Fin 4} {e : DelayedEntry} {j : Fin 8} {line : Nat} {d : Line} {o : Option (Fin 4)}
    {age : Nat} (hs : e.slot = some j) (hj : s.engine.slots[j] = .valid line d o age) :
    ∃ o', (s.removeEntry p e).engine.slots[j] = .valid line d o' age ∧ o' ≠ some p := by
  let u : State := (s.setEntry p none).setSlot j (.valid line d none age)
  have hu : s.removeEntry p e = u.adopt j := by
    have hj' : (s.setEntry p none).engine.slots[j] = .valid line d o age := hj
    simp only [removeEntry, releaseSlot, hs, hj']
    rfl
  obtain ⟨o', ho, hstands⟩ := adopt_slot (s := u) (j := j) (line := line) (d := d) (age := age)
    (by simp [u, setSlot, setEngine])
  refine ⟨o', hu ▸ ho, fun hp => ?_⟩
  have hnone : u.engine.table[p] = none := by simp [u, setSlot, setEntry, setEngine]
  have hsome := hstands p hp
  rw [hnone] at hsome
  cases hsome

end Sys2Proof.Machine.State

namespace Sys2Proof.Machine

/-! ### Claims -/

/-- R25, R30: a presentation that matches an entry is answered from the entry. -/
theorem exec_of_sameAs {c : Instr} {r : Request} {i : BitVec 2} {addr : BitVec 26} {ucount : BitVec 6} {data : Line} {s : State}
    {p : Fin 4} {e : DelayedEntry}
    (hc : (c = .write i addr ucount data ∧ r = requestAt .write i addr ucount data) ∨
      (c = .read i addr ucount ∧ r = requestAt .read i addr ucount 0))
    (hport : s.startup.portState = .opened ∨ (r.kind = .read ∧ s.startup.portState = .hold)) (hl : s.tableLaw)
    (he : s.engine.table[p] = some e) (hr : r.sameAs e) : exec c s = .next (s.answerFromEntry r p e) := by
  have hmatch : s.matching r = some (p, e) := matching_eq_some hl he hr
  rcases hc with ⟨rfl, hreq⟩ | ⟨rfl, hreq⟩
  · have hopen : s.startup.portState = .opened := by
      rcases hport with h | ⟨h, -⟩
      · exact h
      · rw [hreq] at h; cases h
    rw [exec_eq_after]
    simp only [State.after, ← hreq, State.decideWrite, hopen, hmatch]
  · rw [exec_eq_after]
    simp only [State.after, ← hreq]
    rcases hport with h | ⟨-, h⟩ <;> simp only [State.decideRead, h, State.matchRead, hmatch]

/-- R31, R63: the data of a claim: the entry's own bytes of its slot. -/
theorem claimData_of_read {g : Engine} {e : DelayedEntry} {j : Fin 8} {line : Nat} {d : Line} {o : Option (Fin 4)} {age : Nat}
    (hk : e.kind = .read) (hs : e.slot = some j) (hj : g.slots[j] = .valid line d o age) :
    g.claimData e = takeBytes e.body.offset e.body.count d := by
  simp only [Engine.claimData, hk, hs, Engine.slotData, hj]

theorem claimData_of_write {g : Engine} {e : DelayedEntry} (hk : e.kind = .write) : g.claimData e = 0 := by
  simp only [Engine.claimData, hk]

/-- Settles O41, by the state of the entry that matches. -/
theorem completeEntriesAreClaimed : Obligations.CompleteEntriesAreClaimed := by
  intro c r i addr ucount data s p e hc hport hl he hr
  have hexec := exec_of_sameAs hc hport hl he hr
  have hinit : r.initiator = i := by rcases hc with ⟨-, rfl⟩ | ⟨-, rfl⟩ <;> rfl
  have hhandled : r.handled = handledAnswer addr ucount := by
    rcases hc with ⟨-, rfl⟩ | ⟨-, rfl⟩ <;> exact handled_eq _ _ _ _ _
  obtain ⟨hkind, -, -, hoffset, hcount, -⟩ := hr
  rw [hexec]
  refine ⟨fun hw => ?_, fun hf hs => ?_, fun hk hok hs => ?_, fun j line d g hk hok hs hj => ?_⟩
  · rw [← hinit]
    rcases hw with hw | hw <;> simp only [State.answerFromEntry, hw] <;> rfl
  · rw [← hinit]
    simp only [State.answerFromEntry, hf, State.removeEntry_of_no_slot p hs]
    rfl
  · rw [← hinit, ← hhandled]
    simp only [State.answerFromEntry, hok, State.removeEntry_of_no_slot p hs, claimData_of_write (hkind.trans hk)]
    rfl
  · have hread : e.kind = .read := hkind.trans hk
    have hanswer : s.answerFromEntry r p e = (s.removeEntry p e).answerTo r r.handled (takeBytes r.offset r.count d) := by
      simp only [State.answerFromEntry, hok, claimData_of_read hread hs hj, hoffset, hcount]
    obtain ⟨hnone, hadopts⟩ := State.removeEntry_of_read he hread hok hs hj
    refine ⟨_, congrArg _ hanswer, ?_, s.removeEntry_table p e, fun h => ?_, fun q f h => ?_⟩
    · rw [← hinit, ← hhandled, ← hk]
      rfl
    · rw [hnone h]
      rfl
    · rw [hadopts q f h]
      rfl

/-! ### Claim timers -/

/-- R74: what is counted and reported of an entry whose claim timer runs out. -/
def State.lostFaults (s : State) (e : DelayedEntry) : FaultUnit :=
  ((s.report e.body.cls.region .claimLost).count .claimLost).faults

theorem expireClaim_eq (s : State) (p : Fin 4) (e : DelayedEntry) :
    s.expireClaim p e = ({ s with faults := s.lostFaults e } : State).removeEntry p e := by
  simp only [State.expireClaim, State.lostFaults]
  rw [State.count_eq, State.report_eq]

/-- R74: CLAIM_LOST or a more severe code stands for the region. -/
theorem lostFaults_code (s : State) (e : DelayedEntry) : (s.lostFaults e).codes[e.body.cls.region].byte ≤ 4 := by
  have hcount : (s.lostFaults e).codes = (s.report e.body.cls.region .claimLost).faults.codes := by
    simp [State.lostFaults]
  rw [hcount, State.report_code]
  split
  · exact le_refl _
  next h => exact Nat.not_lt.mp h

/-- Settles O42: the removal of the entry under the fault unit with the loss recorded. -/
theorem claimTimersExpire : Obligations.ClaimTimersExpire := by
  intro p s
  refine ⟨fun e he htimer => ?_, fun h => ?_⟩
  · let u : State := { s with faults := s.lostFaults e }
    have hexec : exec (.claimTimerExpiry p) s = .next (u.removeEntry p e) := by
      rw [exec_eq_after]
      simp only [State.after, he, htimer, if_true, expireClaim_eq]
      rfl
    have hgrows : (s.lostFaults e).Grows (u.removeEntry p e).faults := State.removeEntry_grows u p e (.refl _)
    refine ⟨_, hexec, u.removeEntry_table p e, ?_, le_trans (hgrows.1 _) (lostFaults_code s e), by simp [u], by simp [u],
      by simp [u], by simp [u], by simp [u],
      (u.removeEntry_leaves p e).1, fun hs => ?_, fun j line d o g hs hj => ?_,
      fun j line d g hk hok hs hj => ⟨fun h => ?_, fun q f h => ?_⟩⟩
    · exact (u.removeEntry_leaves p e).2
    · rw [State.removeEntry_of_no_slot p hs]
      rfl
    · exact State.removeEntry_slot hs hj
    · exact (State.removeEntry_of_read (s := u) he hk hok hs hj).1 h
    · have hreport : (u.report f.body.cls.region .clean).faults =
          (((s.report e.body.cls.region .claimLost).count .claimLost).report f.body.cls.region .clean).faults :=
        State.report_faults_congr (t := u) (s := (s.report e.body.cls.region .claimLost).count .claimLost) rfl _ _
      rw [(State.removeEntry_of_read (s := u) he hk hok hs hj).2 q f h, hreport]
  · rw [exec_eq_after]
    rcases h with h | ⟨e, he, ht⟩
    · simp only [State.after, h]
    · simp [State.after, he, ht]

end Sys2Proof.Machine
end

section
/-! O56 (R48, R120, R145, R147, R148, R152): the filters of the supply. -/

namespace Sys2Proof.Machine

/-! ### The condition of a filter -/

/-- R145: the state that the condition of a filter leads to, which is the state itself where it leads nowhere. -/
def filterGoal : SupplyFilter → SupplyState → SupplyState
  | .belowWarn, .normal => .warn
  | .belowFail, _ => .fail
  | .notBelowWarn, _ => .normal
  | .between, .fail => .warn
  | _, st => st

theorem filterTarget_eq (f : SupplyFilter) (st : SupplyState) :
    filterTarget f st = if filterGoal f st = st then none else some (filterGoal f st) := by
  cases f <;> cases st <;> rfl

namespace State

/-! ### Entering a state -/

/-- R145, R147, R148, R152: what the supply unit is after a state was entered. -/
theorem enterSupply_supply (st : SupplyState) (s : State) : (s.enterSupply st).supply = { s.supply with
    state := st, nwarnLow := st != .normal, warnWatch := false, failWatch := false
    timers := { s.supply.timers with failRisen := none }
    latches := { s.supply.latches with
      warn := s.supply.latches.warn || decide (st = .warn), fail := s.supply.latches.fail || decide (st = .fail) } } := by
  cases st with
  | normal => simp [enterSupply, setSupply]
  | warn =>
    simp only [enterSupply]
    rw [setLatch_eq_set]
    simp [setSupply, Latches.set]
  | fail =>
    simp only [enterSupply]
    rw [setLatch_eq_set]
    simp [setSupply, Latches.set]

/-- R152: an INHIBIT is recorded where the latch of a state that is entered was clear. -/
theorem enterSupply_recorded {st : SupplyState} {s : State} (h : (st = .warn ∧ s.supply.latches.warn = false) ∨
    (st = .fail ∧ s.supply.latches.fail = false)) : (s.enterSupply st).recorded .inhibit := by
  have hraised : (s.enterSupply st).faults = (s.raise .inhibit).faults := by
    rw [enterSupply_eq]
    rcases h with ⟨rfl, h⟩ | ⟨rfl, h⟩ <;> simp [h]
  have hrecorded := s.raise_recorded .inhibit
  simp only [recorded] at hrecorded ⊢
  rwa [hraised]

/-- R148, R152: entering a state from a unit with the latches of the state before. -/
theorem enterSupply_setSupply {s : State} {w : SupplyUnit} (hl : w.latches = s.supply.latches) (st : SupplyState) :
    (s.setSupply w).enterSupply st = { s with
      supply := ((s.setSupply w).enterSupply st).supply
      faults := match st with
        | .normal => s.faults
        | .warn => if s.supply.latches.warn then s.faults else (s.raise .inhibit).faults
        | .fail => if s.supply.latches.fail then s.faults else (s.raise .inhibit).faults } := by
  have hraise : ((s.setSupply w).raise .inhibit).faults = (s.raise .inhibit).faults :=
    raise_faults_congr (t := s.setSupply w) (s := s) rfl _
  rw [← hl, ← hraise]
  exact enterSupply_eq st (s.setSupply w)

/-! ### The move -/

theorem moveSupply_supply (st : SupplyState) (s : State) : (s.moveSupply st).supply = (s.enterSupply st).supply := by
  simp only [moveSupply]
  split <;> simp

/-- What follows a move only adds to the fault unit. -/
theorem moveSupply_grows_from (st : SupplyState) (s : State) :
    (s.enterSupply st).faults.Grows (s.moveSupply st).faults := by
  simp only [moveSupply]
  split
  · exact resume_grows _ (endWaitIfNormal_grows _ (.refl _))
  · exact settle_grows _ (endWaitIfNormal_grows _ (.refl _))

/-- R145: a filter that has run out stops no other, and changes neither the state nor the latches nor the levels. -/
theorem expire_keeps (u : SupplyUnit) (f : SupplyFilter) : (u.expire f).state = u.state ∧ (u.expire f).latches = u.latches ∧
    (u.expire f).nwarnLow = u.nwarnLow ∧ (u.expire f).level = u.level ∧ (u.expire f).wlock = u.wlock ∧
    (u.expire f).software = u.software := by
  cases f <;> exact ⟨rfl, rfl, rfl, rfl, rfl, rfl⟩

theorem expireFilter_eq (f : SupplyFilter) (s : State) : s.expireFilter f =
    if filterGoal f s.supply.state = s.supply.state then s.setSupply (s.supply.expire f)
    else (s.setSupply (s.supply.expire f)).moveSupply (filterGoal f s.supply.state) := by
  by_cases h : filterGoal f s.supply.state = s.supply.state
  · simp only [expireFilter, filterTarget_eq, if_pos h]
  · simp only [expireFilter, filterTarget_eq, if_neg h]

end State

/-- Settles O56: a filter stops, and the state moves where its condition leads to another. -/
theorem supplyFiltersMoveTheState : Obligations.SupplyFiltersMoveTheState := by
  intro f s
  have hexec : exec (.supplyFilterExpiry f) s = .next (if (s.supply.timers.get f).isSome then s.expireFilter f else s) := rfl
  extract_lets running target
  have hrunning : running = s.supply.timers.get f := by cases f <;> rfl
  have htarget : target = filterGoal f s.supply.state := by
    simp only [target]
    generalize s.supply.state = st
    cases f <;> cases st <;> rfl
  rw [hexec, hrunning, htarget]
  clear_value running target
  let u : State := s.setSupply (s.supply.expire f)
  obtain ⟨hstate, hlatches, hnwarn, hlevel, hwlock, hsoft⟩ := State.expire_keeps s.supply f
  refine ⟨fun h => by simp [h], fun h => ?_⟩
  rw [if_pos h, State.expireFilter_eq]
  refine ⟨_, rfl, ?_, fun hstay => ?_, fun hmove => ?_⟩
  · split
    next hstay => exact hstate.trans hstay.symm
    next => rw [State.moveSupply_supply, State.enterSupply_supply_state]
  · rw [if_pos hstay]
    exact ⟨_, rfl, hlatches, hnwarn, hlevel⟩
  · rw [if_neg hmove]
    have hsupply := State.moveSupply_supply (filterGoal f s.supply.state) u
    have hgrows := State.moveSupply_grows_from (filterGoal f s.supply.state) u
    have hbne (st : SupplyState) : (st != .normal) = decide (st ≠ .normal) := by cases st <;> rfl
    have hsame : u.supply.latches = s.supply.latches := hlatches
    rw [State.enterSupply_supply] at hsupply
    refine ⟨by rw [hsupply]; exact hbne _, by rw [hsupply]; exact hlevel, by rw [hsupply]; exact hwlock,
      by rw [hsupply]; exact hsoft, by simp, by simp, by simp, by simp, by rw [hsupply, hsame],
      by rw [hsupply, hsame], by rw [hsupply, hsame], fun hw => ⟨?_, fun hc => ?_⟩, fun hf => ⟨?_, fun hc => ?_⟩,
      fun hf => ?_, fun hw hn hbusy => ?_⟩
    · rw [hsupply]
      simp [Latches.get, hw]
    · exact State.recorded_of_grows hgrows (State.enterSupply_recorded (.inl ⟨hw, hsame ▸ hc⟩))
    · rw [hsupply]
      simp [Latches.get, hf]
    · exact State.recorded_of_grows hgrows (State.enterSupply_recorded (.inr ⟨hf, hsame ▸ hc⟩))
    · rw [hf, State.moveSupply_to_fail]
      exact State.enterSupply_setSupply hlatches .fail
    · have hstays : u.moveSupply .warn = u.enterSupply .warn :=
        State.moveSupply_of_busyPort (s := u) hbusy (by simp [u, State.setSupply, hstate, hn]) (by simp)
      rw [hw, hstays]
      exact State.enterSupply_setSupply hlatches .warn

end Sys2Proof.Machine
end

section
/-! O38, O39 (R26 step 7, R28, R29, R36, R37, R55, R60, R65, R86 to R88): the writes that are accepted. -/

namespace Sys2Proof.Machine.State

/-! ### What an acceptance makes of the state, before the drains begin -/

/-- R86, R88: the journal with the reservation of an accepted write. -/
def reserved (s : State) (k : ReservationKind) (line : Nat) : Journal :=
  { s.journal with lineSet := if k = .listed then s.journal.lineSet ++ [(line, .reserved)] else s.journal.lineSet }

theorem takeReservation_eq (s : State) (k : ReservationKind) (line : Nat) :
    s.takeReservation k line = { s with journal := s.reserved k line } := by
  cases k <;> rfl

/-- R29, R37: a posted write has joined the queue, with its reservation and the freshness actions. -/
def enqueued (s : State) (r : Request) (k : ReservationKind) : State :=
  { s with
    queue := s.queue ++ [.write (s.carried r k)], journal := s.reserved k r.line
    engine := s.engine.refresh r.line (s.nextPos + 1), nextPos := s.nextPos + 1 + s.engine.readsOf r.line }

theorem acceptPosted_eq (s : State) (r : Request) (k : ReservationKind) :
    s.acceptPosted r { s.classify r.line with reservation := k } = (s.enqueued r k).settle.answerTo r r.handled 0 := by
  simp only [acceptPosted, takeReservation_eq]
  rfl

/-- R28, R55: the entry of a durable write. -/
def delayedWriteOf (s : State) (r : Request) (k : ReservationKind) : DelayedEntry :=
  ⟨.write, r.initiator, s.carried r k, .waiting, none, none⟩

/-- R87: how many entries satisfy a condition, with one put into a free place. -/
theorem countP_entries_set {g : Engine} {p : Fin 4} (e : DelayedEntry) (f : DelayedEntry → Bool) (hp : g.table[p] = none) :
    ({ g with table := g.table.set p (some e) } : Engine).entries.countP (fun x => f x.2) =
      g.entries.countP (fun x => f x.2) + if f e then 1 else 0 := by
  rw [← Engine.countP_table, ← Engine.countP_table, Vector.toList_set, List.countP_set (by simp)]
  have hget : g.table.toList[p.val]'(by simp) = none := by simpa using hp
  rw [hget]
  simp

/-- R28, R29: a durable write has its entry, with its reservation and the freshness actions. -/
def delayed (s : State) (r : Request) (k : ReservationKind) (p : Fin 4) : State :=
  { s with
    engine := { s.engine.refresh r.line (s.nextPos + 1) with
      table := (s.engine.refresh r.line (s.nextPos + 1)).table.set p (some (s.delayedWriteOf r k)) }
    journal := s.reserved k r.line, nextPos := s.nextPos + 1 + s.engine.readsOf r.line }

theorem acceptDurable_eq {s : State} {r : Request} (hk : r.kind = .write) (k : ReservationKind) {p : Fin 4}
    (hp : s.engine.table[p] = none) :
    s.acceptDurable r { s.classify r.line with reservation := k } p = (s.delayed r k p).settle.retryTo r := by
  have hentry : newEntry r { s.classify r.line with reservation := k } s.nextPos = s.delayedWriteOf r k := by
    simp only [newEntry, hk]
    rfl
  have hfresh : ((({ s with journal := s.reserved k r.line } : State).setEntry p (some (s.delayedWriteOf r k))).freshen r.line) =
      s.delayed r k p := by
    simp only [freshen, setEntry, setEngine, delayed]
    obtain ⟨hengine, hreads⟩ := refresh_set_write s.engine r.line (s.nextPos + 1) (e := s.delayedWriteOf r k) hp rfl
    rw [hengine, hreads]
  simp only [acceptDurable, takeReservation_eq, hentry]
  rw [← hfresh]

/-- R27: with the journal FAILED no guarded write is admitted. -/
theorem not_failed_of_admits {s : State} {r : Request} {k : ReservationKind} (h : s.admits r k) :
    (s.carried r k).cls.guarded = true → s.journal.state ≠ .failed := by
  intro hg
  rcases h.2 with ⟨hn, -⟩ | ⟨-, hactive, -⟩
  · have hguarded : s.isGuarded r.line = true := hg
    rw [hn] at hguarded
    cases hguarded
  · simp [hactive]

/-! ### Room -/

theorem roomWrite_of_posted {s : State} {r : Request} (c : Classification) (h : s.writeModeAt r.line = .posted) :
    s.roomWrite r c = if 16 ≤ s.queue.length then s.noRoomTo r else s.acceptPosted r c := by
  simp only [roomWrite, h]
  rfl

theorem roomWrite_of_durable {s : State} {r : Request} (c : Classification) (h : s.writeModeAt r.line = .durable) :
    s.roomWrite r c = s.roomDurable r c := by
  simp only [roomWrite, h]

/-- R28: an entry has the key of the request. -/
theorem any_sameKey_iff {s : State} {r : Request} : (s.engine.entries.any fun x => x.2.sameKey r) = true ↔
    ∃ (p : Fin 4) (e : DelayedEntry), s.engine.table[p] = some e ∧ e.kind = r.kind ∧ e.initiator = r.initiator ∧
      e.body.line = r.line ∧ e.body.offset = r.offset ∧ e.body.count = r.count := by
  simp only [List.any_eq_true, Prod.exists, Engine.mem_entries, DelayedEntry.sameKey, Bool.and_eq_true, beq_iff_eq, and_assoc]

/-! ### Reservations -/

theorem carried_holdsOwn (s : State) (r : Request) (k : ReservationKind) :
    (s.carried r k).holdsOwn = decide (k = .own) := by
  cases k <;> rfl

end Sys2Proof.Machine.State

namespace Sys2Proof.Machine

/-- Settles O38: the acceptance, what its settling leaves of it, and on a busy port the acceptance itself. -/
theorem postedWritesAreAccepted : Obligations.PostedWritesAreAccepted := by
  intro i addr ucount data s k r hadmits hmode
  have hroom : exec (.write i addr ucount data) s = .next (s.roomWrite r { s.classify r.line with reservation := k }) :=
    congrArg Host.Outcome.next (State.decideWrite_of_admits hadmits)
  rw [hroom, State.roomWrite_of_posted _ hmode]
  refine ⟨fun hlen => ?_, fun hlen => by rw [if_pos hlen]; rfl⟩
  rw [if_neg (by omega), State.acceptPosted_eq]
  have hlast := State.settle_queue_last (s := s.enqueued r k) (q := s.queue) (b := s.carried r k) rfl
    (State.not_failed_of_admits hadmits)
  refine ⟨_, rfl, ?_, hlast, State.settle_dropsFrom (s.enqueued r k), ?_, fun hbusy => ?_⟩
  · rw [← handled_eq RequestKind.write i addr ucount data]
    rfl
  · exact (show (s.enqueued r k).settle.journal = (s.enqueued r k).journal by simp)
  · have hstays : (s.enqueued r k).settle = s.enqueued r k := State.settle_of_busyPort (State.busyPort_congr hbusy rfl rfl)
    rw [hstays]
    refine ⟨_, _, State.refresh_freshened s r.line (s.nextPos + 1) (by omega), ?_, State.covers_of_parts hadmits rfl rfl ?_, rfl⟩
    · omega
    · show (s.queue ++ [QueueEntry.write (s.carried r k)]).countP _ + (s.engine.refresh r.line (s.nextPos + 1)).entries.countP _ = _
      rw [Engine.countP_refresh _ _ _ _ (State.refreshEntry_holdsOwn _ _ _), List.countP_append]
      simp only [List.countP_singleton, QueueEntry.body, Option.any_some, State.carried_holdsOwn, decide_eq_true_eq]
      omega

/-- Settles O39: as O38, with the entry in the table instead of the queue. -/
theorem durableWritesAreGivenAnEntry : Obligations.DurableWritesAreGivenAnEntry := by
  intro i addr ucount data s k r conflict hadmits hmode
  have hroom : exec (.write i addr ucount data) s = .next (s.roomDurable r { s.classify r.line with reservation := k }) :=
    congrArg Host.Outcome.next ((State.decideWrite_of_admits hadmits).trans (State.roomWrite_of_durable _ hmode))
  have hkey : (s.engine.entries.any fun x => x.2.sameKey r) = true ↔ conflict := State.any_sameKey_iff
  rw [hroom]
  refine ⟨?_, fun h => ?_⟩
  · intro p hfree hp hlow e
    have hnokey : (s.engine.entries.any fun x => x.2.sameKey r) = false := by simpa using hkey.not.mpr hfree
    have haccept : s.roomDurable r { s.classify r.line with reservation := k } = (s.delayed r k p).settle.retryTo r := by
      simp only [State.roomDurable, hnokey, freePlace_eq_some hp hlow, Bool.false_eq_true, if_false]
      exact State.acceptDurable_eq rfl k hp
    have hentry : (s.delayed r k p).engine.table[p] = some e := by
      simp [State.delayed, e, State.delayedWriteOf, r, requestAt]
    rw [haccept]
    refine ⟨_, rfl, rfl, ?_, State.settle_dropsFrom (s.delayed r k p), ?_, fun hbusy => ?_⟩
    · exact State.settle_table_of_write hentry rfl (State.not_failed_of_admits hadmits)
    · exact (show (s.delayed r k p).settle.journal = (s.delayed r k p).journal by simp)
    · have hstays : (s.delayed r k p).settle = s.delayed r k p := State.settle_of_busyPort (State.busyPort_congr hbusy rfl rfl)
      rw [hstays]
      have hnone : (s.engine.refresh r.line (s.nextPos + 1)).table[p] = none := by
        simpa [Engine.refresh] using hp
      refine ⟨s.engine.refresh r.line (s.nextPos + 1), s.nextPos + 1 + s.engine.readsOf r.line,
        State.refresh_freshened s r.line (s.nextPos + 1) (by omega), ?_, State.covers_of_parts hadmits rfl rfl ?_, ?_⟩
      · omega
      · show s.queue.countP _ + ({ s.engine.refresh r.line (s.nextPos + 1) with table := _ } : Engine).entries.countP _ = _
        rw [State.countP_entries_set _ _ hnone, Engine.countP_refresh _ _ _ _ (State.refreshEntry_holdsOwn _ _ _)]
        have howns : (s.delayedWriteOf r k).holdsOwn = decide (k = .own) := by
          simp [DelayedEntry.holdsOwn, DelayedEntry.isPendingWrite, State.delayedWriteOf, State.carried_holdsOwn]
        rw [howns]
        simp only [decide_eq_true_eq]
        omega
      · rfl
  · rcases h with h | h
    · simp only [State.roomDurable, hkey.mpr h, if_true]
      rfl
    · simp only [State.roomDurable, freePlace_eq_none h, ite_self]
      rfl

end Sys2Proof.Machine
end

section
/-! O40 (R25, R30, R55, R62, R70): the READ presentations that no entry matches. -/

namespace Sys2Proof.Machine.State

/-! ### The decision order of a READ -/

theorem decideRead_of_starting {s : State} (r : Request) (h : s.startup.portState = .starting ∨ s.startup.portState = .rolling) :
    s.decideRead r = s.retryTo r := by
  rcases h with h | h <;> simp only [decideRead, h]

/-- R30: with no entry that matches, the classification decides. -/
theorem decideRead_of_unmatched {s : State} {r : Request} (h : s.startup.portState = .opened ∨ s.startup.portState = .hold)
    (hm : s.matchesNone r) : s.decideRead r = s.classifyRead r := by
  rcases h with h | h <;> simp only [decideRead, h, matchRead, matching_eq_none hm]

theorem refusesRead_iff {s : State} {line : Nat} : s.refusesRead line = true ↔
    s.writeModeAt line = .noAccess ∨ (s.startup.portState = .hold ∧ s.isGuarded line = true) := by
  simp [refusesRead]

theorem classifyRead_of_forbidden {s : State} {r : Request} (h : s.refusesRead r.line = true) :
    s.classifyRead r = s.abortTo r (s.regionAt r.line) .refused := by
  simp only [classifyRead, h, if_true]
  rfl

theorem classifyRead_of_fail {s : State} {r : Request} (h : s.refusesRead r.line = false) (hf : s.supply.state = .fail) :
    s.classifyRead r = s.retryTo r := by
  simp [classifyRead, h, hf]

/-- R30 steps 1 to 5 passed. -/
theorem decideRead_of_admitsRead {s : State} {r : Request} (h : s.admitsRead r) : s.decideRead r = s.bufferRead r := by
  obtain ⟨hport, hmatch, haccess, hguard, hsupply⟩ := h
  have hrefuses : s.refusesRead r.line = false := by
    rw [Bool.eq_false_iff, Ne, refusesRead_iff]
    rintro (h | ⟨hhold, hguarded⟩)
    · exact haccess h
    · rcases hguard with h | h
      · rw [hhold] at h; cases h
      · rw [hguarded] at h; cases h
  rw [decideRead_of_unmatched hport hmatch]
  simp [classifyRead, hrefuses, hsupply]

/-! ### The read buffer -/

/-- R70: a line in a VALID slot is served by a VALID slot of the line. -/
theorem validSlot_eq_some {g : Engine} {line : Nat} {d : Line}
    (h : ∃ (j : Fin 8) (d' : Line) (o : Option (Fin 4)) (a : Nat), g.slots[j] = .valid line d' o a)
    (hd : ∀ (j : Fin 8) (d' : Line) (o : Option (Fin 4)) (a : Nat), g.slots[j] = .valid line d' o a → d' = d) :
    g.validSlot line = some d := by
  obtain ⟨j, d', o, a, hj⟩ := h
  have hsome : (g.validSlot line).isSome = true := by
    simp only [Engine.validSlot, List.findSome?_isSome_iff]
    exact ⟨j, List.mem_finRange j, by simp [hj]⟩
  obtain ⟨d'', hd''⟩ := Option.isSome_iff_exists.mp hsome
  rw [hd'', Option.some.injEq]
  obtain ⟨i, -, hi⟩ := List.exists_of_findSome?_eq_some hd''
  split at hi
  next l d3 o3 a3 hslot =>
    split at hi
    next hl =>
      cases hi
      exact hd i _ o3 a3 (hl ▸ hslot)
    next => cases hi
  all_goals cases hi

theorem validSlot_eq_none {g : Engine} {line : Nat}
    (h : ¬ ∃ (j : Fin 8) (d : Line) (o : Option (Fin 4)) (a : Nat), g.slots[j] = .valid line d o a) : g.validSlot line = none := by
  simp only [Engine.validSlot, List.findSome?_eq_none_iff]
  intro i _
  split
  next l d o a hslot => exact if_neg fun (hl : l = line) => h ⟨i, d, o, a, hl ▸ hslot⟩
  all_goals rfl

/-- R55: the entry of a read. -/
def delayedReadOf (s : State) (r : Request) : DelayedEntry := ⟨.read, r.initiator, s.carried r .none, .waiting, none, none⟩

/-- R30 step 7: a read has its entry. -/
def awaiting (s : State) (r : Request) (p : Fin 4) : State :=
  { s with
    engine := { s.engine with table := s.engine.table.set p (some (s.delayedReadOf r)) }, nextPos := s.nextPos + 1 }

theorem createRead_eq {s : State} {r : Request} (hk : r.kind = .read) (p : Fin 4) :
    s.createRead r p = (s.awaiting r p).settle.retryTo r := by
  have hentry : newEntry r (s.classify r.line) s.nextPos = s.delayedReadOf r := by
    simp only [newEntry, hk]
    rfl
  simp only [createRead, hentry]
  rfl

end Sys2Proof.Machine.State

namespace Sys2Proof.Machine

/-- Settles O40, step by step of the decision order; the entry by what the settling leaves of a WAITING read. -/
theorem readsAreAnsweredOrDelayed : Obligations.ReadsAreAnsweredOrDelayed := by
  intro i addr ucount s r passes forbidden buffered
  have answers {t : State} (h : s.decideRead r = t) : exec (.read i addr ucount) s = .next t := congrArg _ h
  have hforbidden : s.refusesRead r.line = true ↔ forbidden := State.refusesRead_iff
  refine ⟨fun h => answers (State.decideRead_of_starting r h), fun ⟨hp, hm⟩ hf => ?_, fun ⟨hp, hm⟩ hf hs => ?_,
    fun d ha hb hd => ?_, fun p ha hb hfree hlow => ?_, fun ha hb hfull => ?_⟩
  · exact answers ((State.decideRead_of_unmatched hp hm).trans (State.classifyRead_of_forbidden (hforbidden.mpr hf)))
  · exact answers ((State.decideRead_of_unmatched hp hm).trans
      (State.classifyRead_of_fail (by simpa using hforbidden.not.mpr hf) hs))
  · refine answers ((State.decideRead_of_admitsRead ha).trans ?_)
    rw [← handled_eq RequestKind.read i addr ucount 0]
    simp only [State.bufferRead, State.validSlot_eq_some hb hd]
    rfl
  · intro e
    have hcreate : s.decideRead r = (s.awaiting r p).settle.retryTo r := by
      rw [State.decideRead_of_admitsRead ha, ← State.createRead_eq rfl]
      simp only [State.bufferRead, State.validSlot_eq_none hb, freePlace_eq_some hfree hlow]
    have hentry : (s.awaiting r p).engine.table[p] = some e := by
      simp [State.awaiting, e, State.delayedReadOf, r, requestAt]
    refine ⟨_, answers hcreate, rfl, ?_, State.settle_dropsFrom (s.awaiting r p), ?_, fun hbusy => ?_⟩
    · exact State.settle_table_of_waiting hentry rfl
    · exact (show (s.awaiting r p).settle.journal = s.journal by simp [State.awaiting])
    · have hstays : (s.awaiting r p).settle = s.awaiting r p := State.settle_of_busyPort (State.busyPort_congr hbusy rfl rfl)
      rw [hstays]
      rfl
  · refine answers ((State.decideRead_of_admitsRead ha).trans ?_)
    simp only [State.bufferRead, State.validSlot_eq_none hb, freePlace_eq_none hfull]
    rfl

end Sys2Proof.Machine
end

section
/-! O36 (R2, R7, R9 to R13, R22, R23, R36): the cut and the classification of a request. -/

namespace Sys2Proof.Machine

/-! ### Bytes of a line -/

/-- Bit j of byte i of a line. -/
theorem lineByte_getLsbD (l : Line) (i j : Nat) : (lineByte l i).getLsbD j = (decide (j < 8) && l.getLsbD (8 * (63 - i) + j)) := by
  simp [lineByte]

/-- R21, R23: the bytes past the count are not there. -/
theorem lineByte_keepBytes {n i : Nat} (l : Line) (hi : i < 64) :
    lineByte (keepBytes n l) i = if i < n then lineByte l i else 0 := by
  apply BitVec.eq_of_getLsbD_eq
  intro j hj
  have hbit : 8 * (63 - i) + j < 512 := by omega
  split
  next hn =>
    have hlow : ¬ 8 * (63 - i) + j < 8 * (64 - n) := by omega
    have hsum : 8 * (64 - n) + (8 * (63 - i) + j - 8 * (64 - n)) = 8 * (63 - i) + j := by omega
    simp only [lineByte_getLsbD, keepBytes, BitVec.getLsbD_shiftLeft, BitVec.getLsbD_ushiftRight, hsum]
    simp [hj, hbit, hlow]
  next hn =>
    have hlow : 8 * (63 - i) + j < 8 * (64 - n) := by omega
    simp only [lineByte_getLsbD, keepBytes, BitVec.getLsbD_shiftLeft]
    simp [hlow]

/-- R30, R63: byte i of the bytes from an offset on. -/
theorem lineByte_shiftLeft {off i : Nat} (l : Line) (h : off + i < 64) : lineByte (l <<< (8 * off)) i = lineByte l (off + i) := by
  apply BitVec.eq_of_getLsbD_eq
  intro j hj
  have hbit : 8 * (63 - i) + j < 512 := by omega
  have hlow : ¬ 8 * (63 - i) + j < 8 * off := by omega
  have hsub : 8 * (63 - i) + j - 8 * off = 8 * (63 - (off + i)) + j := by omega
  simp only [lineByte_getLsbD, BitVec.getLsbD_shiftLeft, hsub]
  simp [hbit, hlow]

/-- R36: byte i of bytes moved to an offset. -/
theorem lineByte_ushiftRight {off i : Nat} (l : Line) (hi : i < 64) (h : off ≤ i) :
    lineByte (l >>> (8 * off)) i = lineByte l (i - off) := by
  apply BitVec.eq_of_getLsbD_eq
  intro j hj
  have hadd : 8 * off + (8 * (63 - i) + j) = 8 * (63 - (i - off)) + j := by omega
  simp only [lineByte_getLsbD, BitVec.getLsbD_ushiftRight, hadd]

theorem lineByte_takeBytes {off n i : Nat} (l : Line) (hi : i < 64) (hn : off + n ≤ 64) :
    lineByte (takeBytes off n l) i = if i < n then lineByte l (off + i) else 0 := by
  rw [takeBytes, lineByte_keepBytes _ hi]
  split
  · exact lineByte_shiftLeft l (by omega)
  · rfl

/-- R36: flag i of the byte mask. -/
theorem byteMask_getLsbD {off n i : Nat} (hi : i < 64) :
    (byteMask off n).getLsbD i = decide (off ≤ i ∧ i < off + n) := by
  rw [byteMask, BitVec.getLsbD_ofNat, Nat.testBit_mul_two_pow, Nat.testBit_two_pow_sub_one]
  simp only [hi, decide_true, Bool.true_and, ← Bool.decide_and, decide_eq_decide]
  omega

/-! ### The cut -/

section
variable (kind : RequestKind) (initiator : BitVec 2) (addr : BitVec 26) (ucount : BitVec 6) (data : Line)

theorem countOf_le : countOf ucount ≤ 64 := by
  have := ucount.isLt
  simp only [countOf]
  split <;> omega

/-- R23: the count after the cut. -/
theorem requestAt_count :
    (requestAt kind initiator addr ucount data).count = min (countOf ucount) (64 - addr.toNat % 64) := by
  simp only [requestAt]
  split <;> omega

theorem handledAnswer_eq : handledAnswer addr ucount =
    if addr.toNat % 64 + countOf ucount ≤ 64 then .done else .short (BitVec.ofNat 6 (64 - addr.toNat % 64)) := rfl

/-- R22, R23: the answer that a request is handled carries its count where it was cut. -/
theorem handled_ushort {k : BitVec 6} (h : (handledAnswer addr ucount).ushort = some k) :
    k.toNat = (requestAt kind initiator addr ucount data).count := by
  have hle := countOf_le ucount
  rw [requestAt_count]
  rw [handledAnswer_eq] at h
  split at h
  · cases h
  next hcut =>
    cases h
    rw [BitVec.toNat_ofNat, Nat.mod_eq_of_lt (by omega)]
    omega

theorem handled_uans : (handledAnswer addr ucount).uans = if addr.toNat % 64 + countOf ucount ≤ 64 then 0 else 1 := by
  rw [handledAnswer_eq]
  split <;> rfl

end

/-! ### Regions -/

/-- R2: the index of the first region that contains a page. -/
theorem regionOf_val (c : Classifier) (page : Nat) :
    (c.regionOf page).val = c.regions.toList.findIdx fun r => r.contains page := by
  have hle : (c.regions.toList.findIdx fun r => r.contains page) ≤ 8 :=
    le_of_le_of_eq List.findIdx_le_length (by simp)
  simp only [Classifier.regionOf, Fin.ofNat]
  exact Nat.mod_eq_of_lt (by omega)

theorem contains_iff {r : Region} {page : Nat} :
    r.contains page = true ↔ r.enable = true ∧ r.basePage ≤ page ∧ page ≤ r.limitPage := by
  simp [Region.contains, and_assoc]

theorem regionOf_of_within {c : Classifier} {page : Nat} {i : Fin 8} (hi : c.regions[i].contains page = true)
    (hj : ∀ j : Fin 8, j < i → ¬ c.regions[j].contains page = true) : (c.regionOf page).val = i.val := by
  rw [regionOf_val, List.findIdx_eq (by simp)]
  refine ⟨by simpa using hi, fun j hlt => ?_⟩
  simpa using hj ⟨j, by omega⟩ hlt

theorem regionOf_of_outside {c : Classifier} {page : Nat} (h : ∀ i : Fin 8, ¬ c.regions[i].contains page = true) :
    (c.regionOf page).val = 8 := by
  rw [regionOf_val]
  refine (List.findIdx_eq_length.mpr fun r hr => ?_).trans (by simp)
  obtain ⟨j, hj, rfl⟩ := List.mem_iff_getElem.mp hr
  simpa using h ⟨j, by simpa using hj⟩

/-- R7, R9: a line is guarded outside the journal area, under ALL, or under HASHED where the filter holds its index. -/
theorem isGuarded_iff {s : State} {line : Nat} : s.isGuarded line = true ↔ s.journal.inArea line = false ∧
    ((s.classifier.attributesAt (s.regionAt line)).guardMode = .all ∨
      ((s.classifier.attributesAt (s.regionAt line)).guardMode = .hashed ∧
        s.classifier.guardFilter.getLsbD (guardIndex (pageOf line)) = true)) := by
  simp only [State.isGuarded, State.regionAt, Bool.and_eq_true, Bool.not_eq_true']
  refine and_congr_right fun _ => ?_
  cases (s.classifier.attributesAt (s.classifier.regionOf (pageOf line))).guardMode <;> simp

theorem inArea_iff {j : Journal} {line : Nat} :
    j.inArea line = true ↔ j.basePage ≤ pageOf line ∧ pageOf line < j.basePage + j.sizePages := by
  simp [Journal.inArea]

/-- Settles O36: the cut, the bytes, the region and the attributes, each by its lemma. -/
theorem requestsAreCutAndClassified : Obligations.RequestsAreCutAndClassified := by
  intro kind initiator addr ucount data s r page n area within c a
  have hpage : pageOf r.line = page := Nat.div_div_eq_div_mul _ 64 64
  have hcount : r.count = min n (64 - addr.toNat % 64) := requestAt_count kind initiator addr ucount data
  have hoffset : r.offset = addr.toNat % 64 := rfl
  have harea : s.journal.inArea r.line = true ↔ area := by rw [inArea_iff, hpage]
  have hattributes : s.classifier.attributesAt (s.regionAt r.line) = a := rfl
  have hwithin (i : Fin 8) : (s.classifier.regions[i]).contains page = true ↔ within i := contains_iff
  have hregion : c.region = s.classifier.regionOf page := by rw [← hpage]; rfl
  have hmode : c.readMode = if s.journal.inArea r.line then .single else a.readMode := rfl
  refine ⟨⟨?_, Nat.mod_lt _ (by omega), hcount, handled_eq kind initiator addr ucount data, rfl, rfl⟩,
    ⟨?_, rfl, rfl, fun k hk => ?_⟩, fun i hi => ⟨?_, byteMask_getLsbD hi, fun l => ?_, fun h => lineByte_ushiftRight _ hi h⟩,
    fun i hi hj => ?_, fun h => ?_, ?_, fun h => ?_, fun h => ?_, rfl, rfl, harea, rfl, rfl, rfl⟩
  · exact Nat.div_add_mod' addr.toNat 64
  · rw [handled_eq]
    exact handled_uans addr ucount
  · rw [handled_eq] at hk
    exact handled_ushort kind initiator addr ucount data hk
  · exact lineByte_keepBytes data hi
  · exact lineByte_takeBytes l hi (by omega)
  · rw [hregion]
    exact regionOf_of_within ((hwithin i).mpr hi) fun j hlt => (hwithin j).not.mpr (hj j hlt)
  · rw [hregion]
    exact regionOf_of_outside fun i => (hwithin i).not.mpr (h i)
  · show s.isGuarded r.line = true ↔ _
    rw [isGuarded_iff, hattributes, hpage, ← Bool.not_eq_true, harea]
    rfl
  · rw [hmode, if_pos (harea.mpr h)]
  · rw [hmode, if_neg (harea.not.mpr h)]

end Sys2Proof.Machine
end

section
/-! O35 (R81, R136, R176, R177): the lines of the journal. -/

namespace Sys2Proof.Machine

/-! ### Fields of a line -/

/-- R176: a field as a number. -/
theorem lineField_toNat (l : Line) {off n : Nat} (h : off + n ≤ 64) : (lineField l off n).toNat = lineAt l off n := by
  have hpow : (256 : Nat) ^ (64 - off - n) = 2 ^ (512 - 8 * (off + n)) := by
    rw [show (256 : Nat) = 2 ^ 8 by rfl, ← pow_mul]
    congr 1
    omega
  have hmod : (256 : Nat) ^ n = 2 ^ (8 * n) := by
    rw [show (256 : Nat) = 2 ^ 8 by rfl, ← pow_mul]
  rw [lineField, BitVec.extractLsb'_toNat, Nat.shiftRight_eq_div_pow, lineAt, hpow, hmod]

theorem lineField_eq_iff {l : Line} {off n : Nat} (h : off + n ≤ 64) (v : BitVec (8 * n)) :
    lineField l off n = v ↔ lineAt l off n = v.toNat := by
  rw [← BitVec.toNat_inj, lineField_toNat l h]

/-- R176: the bytes of a field. -/
theorem bytesOf_lineField (l : Line) {off n : Nat} (h : off + n ≤ 64) :
    bytesOf n (lineField l off n).toNat = (List.range n).map fun i => lineByte l (off + i) := by
  simp only [bytesOf]
  refine List.map_congr_left fun i hi => ?_
  rw [List.mem_range] at hi
  rw [ofNat_div_pow_eq_extract]
  apply BitVec.eq_of_getLsbD_eq
  intro j hj
  have hin : 8 * (n - 1 - i) + j < 8 * n := by omega
  have hbit : 512 - 8 * (off + n) + (8 * (n - 1 - i) + j) = 8 * (63 - (off + i)) + j := by omega
  simp only [lineByte, lineField, BitVec.getLsbD_extractLsb', hin, hbit, hj, decide_true, Bool.true_and]

/-! ### What the part reads -/

/-- R81: the bytes under the CRC-32 of a journal header, field by field. -/
theorem headerBytes_eq (l : Line) : (lineBytes l).take 5 ++ ((lineBytes l).drop 8).take 4 ++ ((lineBytes l).drop 12).take 2 =
    bytesOf 4 (lineField l 0 4).toNat ++ bytesOf 1 (lineField l 4 1).toNat ++ bytesOf 4 (lineField l 8 4).toNat ++
      bytesOf 2 (lineField l 12 2).toNat := by
  rw [bytesOf_lineField l (off := 0) (n := 4) (by omega), bytesOf_lineField l (off := 4) (n := 1) (by omega),
    bytesOf_lineField l (off := 8) (n := 4) (by omega), bytesOf_lineField l (off := 12) (n := 2) (by omega)]
  rfl

theorem headerValid_iff (size : Nat) (l : Line) : headerValid size l = true ↔
    lineAt l 0 4 = 0x4B4E4A48 ∧ lineAt l 4 1 = 1 ∧ lineAt l 12 2 = size ∧ lineAt l 8 4 ≠ 0 ∧
      lineAt l 16 4 = (crc32 ([0, 1, 2, 3, 4, 8, 9, 10, 11, 12, 13].map (lineByte l))).toNat := by
  have hbytes : (lineBytes l).take 5 ++ ((lineBytes l).drop 8).take 4 ++ ((lineBytes l).drop 12).take 2 =
      [0, 1, 2, 3, 4, 8, 9, 10, 11, 12, 13].map (lineByte l) := rfl
  have hmarker : lineField l 0 4 = Config.headerMarker ↔ lineAt l 0 4 = 0x4B4E4A48 := lineField_eq_iff (by omega) _
  have hformat : lineField l 4 1 = Config.headerFormat ↔ lineAt l 4 1 = 1 := lineField_eq_iff (by omega) _
  have hcrc (v : BitVec 32) : lineField l 16 4 = v ↔ lineAt l 16 4 = v.toNat := lineField_eq_iff (off := 16) (n := 4) (by omega) v
  have hepoch : lineField l 8 4 = 0 ↔ lineAt l 8 4 = 0 := lineField_eq_iff (by omega) _
  simp only [headerValid, headerEpoch, hbytes, Bool.and_eq_true, beq_iff_eq, bne_iff_ne, ne_eq]
  rw [hmarker, hformat, hcrc, lineField_toNat l (off := 12) (n := 2) (by omega), hepoch]
  exact ⟨fun ⟨⟨⟨⟨hm, hf⟩, hc⟩, hs⟩, he⟩ => ⟨hm, hf, hs, he, hc⟩, fun ⟨hm, hf, hs, he, hc⟩ => ⟨⟨⟨⟨hm, hf⟩, hc⟩, hs⟩, he⟩⟩

theorem recordNamed_iff (epoch : BitVec 32) {k : Nat} (l : Line) (hk : k < 4294967296) : recordNamed epoch k l = true ↔
    lineAt l 0 4 = 0x4B4E4A52 ∧ lineAt l 4 4 = epoch.toNat ∧ lineAt l 8 4 = k := by
  have hmarker : lineField l 0 4 = Config.recordMarker ↔ lineAt l 0 4 = 0x4B4E4A52 := lineField_eq_iff (by omega) _
  have hepoch : lineField l 4 4 = epoch ↔ lineAt l 4 4 = epoch.toNat := lineField_eq_iff (by omega) _
  have hseq : lineField l 8 4 = BitVec.ofNat 32 k ↔ lineAt l 8 4 = k :=
    (lineField_eq_iff (by omega) _).trans (by rw [BitVec.toNat_ofNat, Nat.mod_eq_of_lt hk])
  simp only [recordNamed, Bool.and_eq_true, beq_iff_eq]
  rw [hmarker, hepoch, hseq, and_assoc]

theorem recordChecks_iff (header image : Line) : recordChecks header image = true ↔ lineAt header 16 4 =
    (crc32 ((List.range 12).map (fun i => lineByte header (4 + i)) ++ (List.range 64).map (lineByte image))).toNat := by
  have hbytes : bytesOf 4 (lineField header 4 4).toNat ++ bytesOf 4 (lineField header 8 4).toNat ++
      bytesOf 4 (lineField header 12 4).toNat = (List.range 12).map fun i => lineByte header (4 + i) := by
    rw [bytesOf_lineField header (off := 4) (n := 4) (by omega), bytesOf_lineField header (off := 8) (n := 4) (by omega),
      bytesOf_lineField header (off := 12) (n := 4) (by omega)]
    rfl
  have hcrc (v : BitVec 32) : lineField header 16 4 = v ↔ lineAt header 16 4 = v.toNat :=
    lineField_eq_iff (off := 16) (n := 4) (by omega) v
  simp only [recordChecks, beq_iff_eq]
  rw [hcrc, recordCrc, hbytes]
  rfl

/-! ### What the part writes -/

/-- R176: the fields of a journal header line. -/
theorem headerLine_fields (epoch : BitVec 32) (size : Nat) :
    lineField (headerLine epoch size) 0 4 = Config.headerMarker ∧ lineField (headerLine epoch size) 4 1 = Config.headerFormat ∧
    lineField (headerLine epoch size) 8 4 = epoch ∧ lineField (headerLine epoch size) 12 2 = BitVec.ofNat 16 size ∧
    lineField (headerLine epoch size) 16 4 = headerCrc epoch size := by
  simp only [lineField, headerLine]
  refine ⟨?_, ?_, ?_, ?_, ?_⟩
  · iterate 7 rw [BitVec.extractLsb'_append_eq_of_le (by decide)]
    exact BitVec.extractLsb'_eq_self
  · iterate 6 rw [BitVec.extractLsb'_append_eq_of_le (by decide)]
    rw [BitVec.extractLsb'_append_eq_of_add_le (by decide)]
    exact BitVec.extractLsb'_eq_self
  · iterate 4 rw [BitVec.extractLsb'_append_eq_of_le (by decide)]
    rw [BitVec.extractLsb'_append_eq_of_add_le (by decide)]
    exact BitVec.extractLsb'_eq_self
  · iterate 3 rw [BitVec.extractLsb'_append_eq_of_le (by decide)]
    rw [BitVec.extractLsb'_append_eq_of_add_le (by decide)]
    exact BitVec.extractLsb'_eq_self
  · rw [BitVec.extractLsb'_append_eq_of_le (by decide), BitVec.extractLsb'_append_eq_of_add_le (by decide)]
    exact BitVec.extractLsb'_eq_self

/-- R176: the fields of a record header line. -/
theorem recordLine_fields (epoch : BitVec 32) (k target : Nat) (image : Line) :
    lineField (recordLine epoch k target image) 0 4 = Config.recordMarker ∧
    lineField (recordLine epoch k target image) 4 4 = epoch ∧
    lineField (recordLine epoch k target image) 8 4 = BitVec.ofNat 32 k ∧
    lineField (recordLine epoch k target image) 12 4 = BitVec.ofNat 32 target ∧
    lineField (recordLine epoch k target image) 16 4 = recordCrc epoch (BitVec.ofNat 32 k) (BitVec.ofNat 32 target) image := by
  simp only [lineField, recordLine]
  refine ⟨?_, ?_, ?_, ?_, ?_⟩
  · iterate 5 rw [BitVec.extractLsb'_append_eq_of_le (by decide)]
    exact BitVec.extractLsb'_eq_self
  · iterate 4 rw [BitVec.extractLsb'_append_eq_of_le (by decide)]
    rw [BitVec.extractLsb'_append_eq_of_add_le (by decide)]
    exact BitVec.extractLsb'_eq_self
  · iterate 3 rw [BitVec.extractLsb'_append_eq_of_le (by decide)]
    rw [BitVec.extractLsb'_append_eq_of_add_le (by decide)]
    exact BitVec.extractLsb'_eq_self
  · iterate 2 rw [BitVec.extractLsb'_append_eq_of_le (by decide)]
    rw [BitVec.extractLsb'_append_eq_of_add_le (by decide)]
    exact BitVec.extractLsb'_eq_self
  · rw [BitVec.extractLsb'_append_eq_of_le (by decide), BitVec.extractLsb'_append_eq_of_add_le (by decide)]
    exact BitVec.extractLsb'_eq_self

/-- R136: the header line that the part writes is valid for its own size. -/
theorem headerValid_headerLine {epoch : BitVec 32} {size : Nat} (he : epoch ≠ 0) (hs : size < 65536) :
    headerValid size (headerLine epoch size) = true := by
  obtain ⟨hmarker, hformat, hepoch, hsize, hcrc⟩ := headerLine_fields epoch size
  have hsizeNat : (BitVec.ofNat 16 size).toNat = size := by rw [BitVec.toNat_ofNat, Nat.mod_eq_of_lt hs]
  have hbytes : (lineBytes (headerLine epoch size)).take 5 ++ ((lineBytes (headerLine epoch size)).drop 8).take 4 ++
      ((lineBytes (headerLine epoch size)).drop 12).take 2 =
        bytesOf 4 Config.headerMarker.toNat ++ [Config.headerFormat] ++ bytesOf 4 epoch.toNat ++ bytesOf 2 size := by
    have hformatBytes : [Config.headerFormat] = bytesOf 1 (lineField (headerLine epoch size) 4 1).toNat := by
      rw [hformat]
      rfl
    rw [headerBytes_eq, hmarker, hepoch, hsize, hsizeNat, ← hformatBytes]
  simp only [headerValid, headerEpoch, hbytes, hmarker, hformat, hepoch, hsize, hcrc, hsizeNat, headerCrc]
  simpa using he

/-- R177: the CRC-32 goes on by one byte. -/
theorem crc32_append_singleton (bytes : List Byte) (b : Byte) :
    crc32 (bytes ++ [b]) = ~~~ crc32Step^[8] (~~~ crc32 bytes ^^^ (b.setWidth 32 <<< 24)) := by
  simp [crc32, crc32Byte, List.range_succ]

/-- Settles O35: what the part reads by the fields of a line, what it writes by the fields of its lines. -/
theorem journalLinesReadBack : Obligations.JournalLinesReadBack := by
  refine ⟨headerValid_iff, fun epoch k l hk => recordNamed_iff epoch l hk, recordChecks_iff,
    fun epoch size he hs => ⟨headerValid_headerLine he hs, (headerLine_fields epoch size).2.2.1⟩,
    fun epoch k target image hk ht => ?_, rfl, fun bytes b => ?_⟩
  · obtain ⟨hmarker, hepoch, hseq, htarget, hcrc⟩ := recordLine_fields epoch k target image
    refine ⟨?_, ?_, ?_⟩
    · simp [recordNamed, hmarker, hepoch, hseq]
    · simp [recordChecks, hepoch, hseq, htarget, hcrc]
    · simp only [recordTarget, htarget, BitVec.toNat_ofNat, Config.lines]
      omega
  · exact crc32_append_singleton bytes b

end Sys2Proof.Machine
end

section
/-! O55 (R82, R105, R152), and what the journal commands have in common: the work that stands, and the moves of the journal
state. -/

namespace Sys2Proof.Machine

/-! ### Commands -/

/-- R168, R170: a management command whose action on the state at the end of its request is known. -/
theorem exec_of_action {c : Instr} (hc : c.isManagement = true) {s u : State} {r : ResultCode} {reply : List Byte}
    (h : s.takesFrame = true) (hact : action c (s.endRequest (requestOf c)) = (⟨r, reply⟩, u))
    (hu : u.mgmt.lastError = false) : exec c s = .next (frameDone c r reply s u) := by
  rw [exec_eq_after, after_of_isManagement hc]
  exact manage_of_action h hact hu

/-- The same, where the action's state is `t` at the end of the request. -/
theorem exec_of_flagged {c : Instr} (hc : c.isManagement = true) {s t : State} {r : ResultCode} {reply : List Byte}
    (h : s.takesFrame = true) (hact : action c (s.endRequest (requestOf c)) = (⟨r, reply⟩, t.endRequest (requestOf c))) :
    exec c s = .next (frameDone c r reply s t) := by
  rw [exec_eq_after, after_of_isManagement hc]
  exact manage_of_flagged h hact

namespace State

/-! ### Work -/

theorem occupancy_pos_iff {g : Engine} : 0 < g.occupancy ↔ ∃ p : Fin 4, g.table[p].isSome = true := by
  simp only [Engine.occupancy, List.countP_pos_iff]
  constructor
  · rintro ⟨x, hx, hsome⟩
    obtain ⟨j, hj, rfl⟩ := List.mem_iff_getElem.mp hx
    exact ⟨⟨j, by simpa using hj⟩, by simpa using hsome⟩
  · rintro ⟨p, hp⟩
    exact ⟨g.table[p], by simp, hp⟩

/-- R52, R101, R103, R105: the work that refuses a journal command. -/
theorem hasWork_iff {s : State} : s.hasWork = true ↔ s.workStands := by
  have hremoved : s.removedBody.isSome = true ↔ ∃ d b, s.drain = some d ∧ d.item = .removed b := by
    rw [Option.isSome_iff_exists]
    simp only [removedBody_eq_some]
    exact ⟨fun ⟨b, d, h⟩ => ⟨d, b, h⟩, fun ⟨d, b, h⟩ => ⟨b, d, h⟩⟩
  simp only [hasWork, workStands, Bool.or_eq_true, decide_eq_true_eq, occupancy_pos_iff, hremoved, or_assoc]
  simp

/-! ### Moves of the journal state -/

/-- R82, R151, R152: a move of the journal state raises JOURNAL, and sets the latch of a state that inhibits, with INHIBIT where
it was clear. -/
theorem setJournalState_eq (s : State) (x : JournalState) :
    let moved := if s.journal.state = x then s else s.raise .journal
    let latched := s.supply.latches.journal || decide (x.inhibits = true ∧ s.journal.state ≠ x)
    s.setJournalState x = { s with
      journal := { s.journal with state := x }
      supply := { s.supply with latches := { s.supply.latches with journal := latched } }
      faults := if latched && !s.supply.latches.journal then (moved.raise .inhibit).faults else moved.faults } := by
  by_cases h : s.journal.state = x
  · subst h
    simp [setJournalState]
  · have hmoved : (s.setJournal { s.journal with state := x }).raise .journal =
        { s with journal := { s.journal with state := x }, faults := (s.raise .journal).faults } := by
      rw [raise_eq, raise_faults_congr (s := s) (t := s.setJournal { s.journal with state := x }) rfl]
      rfl
    have hraise : (({ s with journal := { s.journal with state := x }, faults := (s.raise .journal).faults } : State).raise
        .inhibit).faults = ((s.raise .journal).raise .inhibit).faults :=
      raise_faults_congr (s := s.raise .journal)
        (t := { s with journal := { s.journal with state := x }, faults := (s.raise .journal).faults }) rfl _
    cases hi : x.inhibits with
    | false => simp [setJournalState, h, hi, hmoved]
    | true =>
      simp only [setJournalState, h, hi, hmoved, if_true, if_false, setLatch_eq_set, hraise]
      cases hl : s.supply.latches.journal <;> simp [Latches.get, Latches.set, hl, h]

theorem setJournalState_recorded {s : State} {x : JournalState} (h : s.journal.state ≠ x) :
    (s.setJournalState x).recorded .journal := by
  have hraised := (s.setJournal { s.journal with state := x }).raise_recorded .journal
  refine recorded_of_grows ?_ hraised
  simp only [setJournalState, if_neg h]
  split
  · exact setLatch_grows _ _ (.refl _)
  · exact .refl _

/-- R152: the latch of the source JOURNAL, after a move into a state that inhibits. -/
theorem setJournalState_inhibited {s : State} {x : JournalState} (h : s.journal.state ≠ x) (hi : x.inhibits = true) :
    (s.setJournalState x).inhibited s .journal := by
  refine ⟨setJournalState_latch h hi, fun hclear => ?_⟩
  have hmoved := setJournalState_eq s x
  simp only [Latches.get] at hclear
  simp only [hi, hclear, ne_eq, h, not_false_eq_true, and_self, decide_true, Bool.or_true, Bool.not_false,
    Bool.and_self, if_true] at hmoved
  have hrecorded := (s.raise .journal).raise_recorded .inhibit
  rw [hmoved]
  exact hrecorded

/-- R152: what follows leaves the supply unit, and only adds to the fault unit. -/
theorem inhibited_of_grows {s t u : State} {k : InhibitSource} (h : t.inhibited s k) (hs : u.supply = t.supply)
    (hg : t.faults.Grows u.faults) : u.inhibited s k :=
  ⟨by rw [hs]; exact h.1, fun hc => recorded_of_grows hg (h.2 hc)⟩

end State

/-- Settles O55: the two refusals, and the move of the journal to its new placement. -/
theorem writeJournalPlacementMovesTheJournal : Obligations.WriteJournalPlacementMovesTheJournal := by
  intro base size s ht c legal stateBad state moved latched
  have hlegal : placementOk base.toNat size.toNat = true ↔ legal := placementOk_iff
  have hbad : (s.startup.portState = .starting ∨ s.journal.state = .closing ∨ s.journal.state = .rolling ∨ s.hasWork = true) ↔
      stateBad := by rw [State.hasWork_iff]
  refine ⟨fun hl => exec_of_flagged rfl ht ?_, fun hl hb => exec_of_flagged rfl ht ?_,
    fun hl hb => exec_of_flagged rfl ht ?_⟩
  · have hno : placementOk base.toNat size.toNat = false := by simpa using hlegal.not.mpr hl
    simp only [action, State.writePlacement, hno, c, Bool.not_false, if_true]
    rfl
  · have hyes := hlegal.mpr hl
    simp only [action, State.writePlacement, hyes, c, Bool.not_true, Bool.false_eq_true, if_false]
    exact if_pos (hbad.mpr hb)
  · have hyes := hlegal.mpr hl
    let v : State := (s.endRequest (requestOf c)).setJournal
      { s.journal with basePage := base.toNat, sizePages := size.toNat, written := 0, lineSet := [] }
    have hplace : action c (s.endRequest (requestOf c)) = (⟨.ok, []⟩, v.setJournalState state) := by
      simp only [action, State.writePlacement, hyes, c, Bool.not_true, Bool.false_eq_true, if_false]
      exact if_neg (hbad.not.mpr hb)
    have hmoved : (if v.journal.state = state then v else v.raise .journal).faults = moved.faults := by
      simp only [moved]
      by_cases h : s.journal.state = state
      · rw [if_pos (show v.journal.state = state from h), if_pos h]
        rfl
      · rw [if_neg (show ¬ v.journal.state = state from h), if_neg h]
        exact State.raise_faults_congr (s := s) (t := v) rfl _
    have hinhibits : (state.inhibits = true ∧ s.journal.state ≠ state) ↔ (state = .unknown ∧ s.journal.state ≠ .unknown) := by
      simp only [state]
      split <;> simp [JournalState.inhibits]
    have hlatched : (v.supply.latches.journal || decide (state.inhibits = true ∧ v.journal.state ≠ state)) = latched :=
      congrArg _ (decide_eq_decide.mpr hinhibits)
    rw [hplace, State.setJournalState_eq]
    simp only [hlatched, hmoved, State.raise_faults_congr hmoved]
    rfl

end Sys2Proof.Machine
end

section
/-! O52 (R82, R84, R85, R98, R99, R152, R172): CLOSE EPOCH. -/

namespace Sys2Proof.Machine

namespace State

/-- R172: the end of a long command raises LONG_DONE. -/
theorem endLong_recorded (s : State) (r : LongResult) : (s.endLong r).recorded .longDone := raise_recorded _ _

@[simp] theorem endLong_longCmd (s : State) (r : LongResult) :
    (s.endLong r).mgmt.longCmd = none ∧ (s.endLong r).mgmt.lastLong = r := by
  simp [endLong]

/-! ### The end of the close header write -/

theorem headSucceeded_of_marker {s : State} {d : Drain} (data : Line) (first : Bool) (hd : s.drain = some d)
    (hi : d.item = .closeMarker) : s.headSucceeded data first = s.closeSucceeded := by
  simp only [headSucceeded, hd, hi]

theorem headFailed_of_marker {s : State} {d : Drain} (hd : s.drain = some d) (hi : d.item = .closeMarker) :
    s.headFailed = s.closeFailed := by
  simp only [headFailed, hd, hi]

/-- R99: the journal, the queue and the long-command slot after the close header write. -/
theorem closeSucceeded_eq (s : State) : s.closeSucceeded.queue = s.queue.tail ∧
    s.closeSucceeded.journal =
      { s.journal with epoch := nextEpoch s.journal.epoch, written := 0, lineSet := [], state := .active } := by
  simp only [closeSucceeded, endLong, raise_frame, setJournalState_journal, setJournalState_frame]
  exact ⟨rfl, rfl⟩

theorem closeSucceeded_recorded {s : State} (h : s.journal.state ≠ .active) : s.closeSucceeded.recorded .journal := by
  refine recorded_of_grows (endLong_grows _ _ (.refl _)) (setJournalState_recorded ?_)
  exact h

theorem closeFailed_eq (s : State) : s.closeFailed.queue = s.queue.tail ∧ s.closeFailed.drain = none ∧
    s.closeFailed.journal = { s.journal with state := .failed } := by
  simp only [closeFailed, endLong, raise_frame, setJournalState_journal, setJournalState_frame]
  exact ⟨rfl, rfl, rfl⟩

theorem closeFailed_recorded {s : State} (h : s.journal.state ≠ .failed) : s.closeFailed.recorded .journal := by
  refine recorded_of_grows (endLong_grows _ _ (.refl _)) (setJournalState_recorded ?_)
  exact h

end State

/-! ### The end of an operation -/

/-- R117: the state in which the owner of an operation that succeeds is told. -/
def State.freed (s : State) (op : Operation) : State := (s.setMemory (op.ended s.memory)).freePort

/-- R117, R122: the state in which the owner of an operation that fails is told. -/
def State.failing (s : State) (op : Operation) : State := (s.setMemory (op.spoils s.memory)).beforeFailure op

theorem exec_freed {c : Instr} {s : State} {op : Operation} {data : Line} (hop : s.port.op = some op)
    (h : op.succeedsBy data c) : exec c s = .next ((s.freed op).ownerSucceeded op data).settle := exec_of_succeedsBy hop h

theorem exec_failing {c : Instr} {s : State} {op : Operation} (hop : s.port.op = some op) (h : op.failsBy c) :
    exec c s = .next ((s.failing op).ownerFailed op).settle := exec_of_failsBy hop h

@[simp] theorem State.freed_frame (s : State) (op : Operation) :
    (s.freed op).lines = s.lines ∧ (s.freed op).classifier = s.classifier ∧ (s.freed op).queue = s.queue ∧
    (s.freed op).engine = s.engine ∧ (s.freed op).nextPos = s.nextPos ∧ (s.freed op).journal = s.journal ∧
    (s.freed op).drain = s.drain ∧ (s.freed op).port = { s.port with op := none } ∧ (s.freed op).startup = s.startup ∧
    (s.freed op).supply = s.supply ∧ (s.freed op).faults = s.faults ∧ (s.freed op).mgmt = s.mgmt :=
  ⟨rfl, rfl, rfl, rfl, rfl, rfl, rfl, rfl, rfl, rfl, rfl, rfl⟩

@[simp] theorem State.failing_frame (s : State) (op : Operation) :
    (s.failing op).lines = s.lines ∧ (s.failing op).classifier = s.classifier ∧ (s.failing op).queue = s.queue ∧
    (s.failing op).engine = s.engine ∧ (s.failing op).nextPos = s.nextPos ∧ (s.failing op).journal = s.journal ∧
    (s.failing op).drain = s.drain ∧ (s.failing op).startup = s.startup ∧ (s.failing op).supply = s.supply ∧
    (s.failing op).mgmt = s.mgmt ∧ (s.failing op).port.op = none := by
  simp [State.failing]

/-! ### The command -/

/-- R50, R98: what stands before the drains begin. -/
theorem takeClose_eq (s : State) : s.takeClose.queue = s.queue ++ [.marker s.nextPos] ∧
    s.takeClose.journal = { s.journal with state := .closing } ∧ s.takeClose.mgmt.longCmd = some .closeEpoch ∧
    s.takeClose.mgmt.lastError = s.mgmt.lastError := by
  let u : State := (s.appendMarker.setJournalState .closing).takeLong .closeEpoch
  have hjournal : u.journal = { s.journal with state := .closing } := State.setJournalState_journal s.appendMarker .closing
  have hqueue : u.queue = s.queue ++ [.marker s.nextPos] := by simp [u, State.takeLong]; rfl
  have hstays : u.settle.queue = u.queue := (State.settle_of_not_failed (by simp [hjournal])).1
  refine ⟨hstays.trans hqueue, ?_, ?_, ?_⟩
  · exact (show u.settle.journal = u.journal by simp).trans hjournal
  · exact (show u.settle.mgmt.longCmd = some .closeEpoch by simp [u, State.takeLong])
  · exact (show u.settle.mgmt.lastError = s.mgmt.lastError by simp [u, State.takeLong])

/-- R82, R152: the events of the taking. -/
theorem takeClose_recorded {s : State} (h : s.journal.state ≠ .closing) :
    s.takeClose.recorded .journal ∧ s.takeClose.inhibited s .journal := by
  have hmove : s.appendMarker.journal.state ≠ .closing := h
  have hgrows : (s.appendMarker.setJournalState .closing).faults.Grows s.takeClose.faults :=
    State.settle_grows _ (.refl _)
  have hsupply : s.takeClose.supply = (s.appendMarker.setJournalState .closing).supply := by
    simp [State.takeClose, State.takeLong]
  exact ⟨State.recorded_of_grows hgrows (State.setJournalState_recorded hmove),
    State.inhibited_of_grows (s := s.appendMarker) (State.setJournalState_inhibited hmove rfl) hsupply hgrows⟩

/-- Settles O52: the refusals, the taking, and the two ends of the marker's header write. -/
theorem closeEpochRunsToItsEnd : Obligations.CloseEpochRunsToItsEnd := by
  refine ⟨fun e => rfl, fun s => ⟨?_, fun c op data d hop ho hd hi => ⟨fun h => ?_, fun h => ?_⟩⟩⟩
  · intro ht stateBad
    refine ⟨fun hb => ?_, fun hb hs => ?_, fun hb hs hq => ?_, fun hb hs hq => ?_⟩
    · exact exec_of_flagged rfl ht (if_pos hb)
    · exact exec_of_flagged rfl ht ((if_neg (by simp [State.endRequest, State.setMgmt, hb])).trans (if_pos hs))
    · exact exec_of_flagged rfl ht ((if_neg (by simp [State.endRequest, State.setMgmt, hb])).trans
        ((if_neg hs).trans (if_pos hq)))
    · have hfree : ¬ (s.endRequest (requestOf .closeEpoch)).mgmt.longCmd.isSome = true := by
        simp [State.endRequest, State.setMgmt, hb]
      have htaken : action .closeEpoch (s.endRequest (requestOf .closeEpoch)) =
          (⟨.taken, []⟩, (s.endRequest (requestOf .closeEpoch)).takeClose) :=
        (if_neg hfree).trans ((if_neg hs).trans (if_neg (Nat.not_le.mpr hq)))
      obtain ⟨hqueue, hjournal, hlong, herror⟩ := takeClose_eq (s.endRequest (requestOf .closeEpoch))
      have hmove : s.journal.state ≠ .closing := fun hc => hs (.inr (by simp [hc]))
      obtain ⟨hrecorded, hinhibited⟩ := takeClose_recorded (s := s.endRequest (requestOf .closeEpoch)) hmove
      exact ⟨_, exec_of_action rfl ht htaken herror, hqueue, hjournal, hlong, hrecorded, hinhibited⟩
  · let u : State := s.freed op
    have hexec : exec c s = .next u.closeSucceeded.settle := by
      rw [exec_freed hop h, State.ownerSucceeded, ho]
      exact congrArg (fun t : State => Host.Outcome.next t.settle) (State.headSucceeded_of_marker data _ hd hi)
    obtain ⟨hqueue, hjournal⟩ := State.closeSucceeded_eq u
    obtain ⟨hlong, hlast⟩ : u.closeSucceeded.mgmt.longCmd = none ∧ u.closeSucceeded.mgmt.lastLong = .ok :=
      State.endLong_longCmd _ _
    have hgrows : u.closeSucceeded.faults.Grows u.closeSucceeded.settle.faults := State.settle_grows _ (.refl _)
    refine ⟨_, hexec, ?_, ?_, ?_, ?_, State.recorded_of_grows hgrows (State.endLong_recorded _ _),
      fun hmove => State.recorded_of_grows hgrows (State.closeSucceeded_recorded hmove)⟩
    · rw [(State.settle_of_not_failed (by simp [hjournal])).1]
      exact hqueue
    · simpa [u] using hjournal
    · simpa using hlong
    · simpa using hlast
  · let u : State := s.failing op
    have hexec : exec c s = .next u.closeFailed.settle := by
      rw [exec_failing hop h, State.ownerFailed, ho]
      exact congrArg (fun t : State => Host.Outcome.next t.settle)
        (State.headFailed_of_marker (s := u) (by simpa [u] using hd) hi)
    obtain ⟨hqueue, hdrain, hjournal⟩ := State.closeFailed_eq u
    obtain ⟨hlong, hlast⟩ : u.closeFailed.mgmt.longCmd = none ∧ u.closeFailed.mgmt.lastLong = .failed :=
      State.endLong_longCmd _ _
    have hgrows : u.closeFailed.faults.Grows u.closeFailed.settle.faults := State.settle_grows _ (.refl _)
    have htail : u.closeFailed.queue = s.queue.tail := by simpa [u] using hqueue
    refine ⟨_, hexec, ?_, State.settle_drainsAnew hdrain, fun hlen => State.settle_writesGoOn hdrain ?_, ?_, ?_, ?_,
      State.recorded_of_grows hgrows (State.endLong_recorded _ _),
      fun hmove => State.recorded_of_grows hgrows (State.closeFailed_recorded (by simpa [u] using hmove))⟩
    · rw [← htail]
      exact State.settle_dropsFrom _
    · rw [htail, List.length_tail]
      omega
    · simpa [u] using hjournal
    · simpa using hlong
    · simpa using hlast

end Sys2Proof.Machine
end

section
/-! O53 (R82, R101, R102, R152, R172): INIT JOURNAL. -/

namespace Sys2Proof.Machine

/-- R112, R113: a verified write of a whole line that has just been granted. -/
theorem justWrites_of_op {t : State} {owner : Owner} {line : Nat} {data : Line} {failure : FailureKind}
    (h : t.port.op = some (writeOp owner line data fullMask true t.port.attemptLimit.toNat failure noRegion)) :
    t.justWrites line data owner failure :=
  ⟨_, h, rfl, rfl, rfl, rfl, rfl, rfl, rfl, rfl, rfl, rfl, rfl⟩

/-- R112, R113: a read that has just been granted. -/
theorem justIssued_of_op {t : State} {owner : Owner} {line : Nat} {failure : FailureKind} {region : Fin 10}
    (hp : owner ≠ .prefetch) (h : t.port.op = some (readOp owner line t.port.attemptLimit.toNat (some failure) region)) :
    t.justIssued .lineRead line owner (some (failure, region)) := by
  refine ⟨_, h, rfl, rfl, rfl, rfl, (if_neg hp).symm, rfl, rfl, rfl, fun x hx => ?_⟩
  cases hx
  rfl

/-! ### The refusals -/

theorem initArgBad_iff {s : State} {epoch : BitVec 32} : s.initArgBad epoch = true ↔
    epoch = 0 ∨ (epoch = s.journal.epoch ∧ 0 < s.journal.written) := by
  simp [State.initArgBad]

theorem initStateBad_iff {s : State} : s.initStateBad = true ↔ s.startup.portState = .starting ∨ s.journal.state = .off ∨
    s.journal.state = .closing ∨ s.journal.state = .rolling ∨ s.workStands := by
  simp only [State.initStateBad, Bool.or_eq_true, beq_iff_eq, or_assoc, State.hasWork_iff]

/-! ### The taking -/

/-- R101: INIT JOURNAL is taken, before the arbiter grants. -/
def State.initiating (s : State) (epoch : BitVec 32) : State :=
  ((s.setJournal (s.journal.clear epoch)).setJournalState .closing).takeLong .initJournal

theorem initiating_eq (s : State) (epoch : BitVec 32) :
    (s.initiating epoch).journal = { s.journal with epoch := epoch, written := 0, lineSet := [], state := .closing } ∧
    (s.initiating epoch).mgmt.longCmd = some .initJournal ∧ (s.initiating epoch).mgmt.lastError = s.mgmt.lastError :=
  ⟨State.setJournalState_journal (s.setJournal (s.journal.clear epoch)) .closing, rfl, by
    simp [State.initiating, State.takeLong]⟩

theorem initiating_recorded {s : State} (epoch : BitVec 32) (h : s.journal.state ≠ .closing) :
    (s.initiating epoch).recorded .journal ∧ (s.initiating epoch).inhibited s .journal := by
  have hmove : (s.setJournal (s.journal.clear epoch)).journal.state ≠ .closing := h
  exact ⟨State.setJournalState_recorded hmove, State.setJournalState_inhibited hmove rfl⟩

/-- R102: while the header write is outstanding no drain begins, so that it is granted at once on a free port. -/
theorem initiating_writes {s : State} (epoch : BitVec 32) (hop : s.port.op = none) (hp : s.startup.procedure = .idle)
    (hf : s.supply.state ≠ .fail) (hl : s.engine.prefetch = []) (hw : ¬ s.workStands) :
    (s.initiating epoch).settle.port.op =
      some (writeOp .initHeader (s.journal.basePage * 64) (headerLine epoch s.journal.sizePages) fullMask true
        s.port.attemptLimit.toNat .journal noRegion) := by
  obtain ⟨hjournal, hlong, -⟩ := initiating_eq s epoch
  have houtstanding : (s.initiating epoch).initOutstanding = true := by simp [State.initOutstanding, hlong]
  have hbegins : (s.initiating epoch).mayBegin = false := by simp [State.mayBegin, houtstanding]
  have hframe : (s.initiating epoch).port = s.port ∧ (s.initiating epoch).startup = s.startup ∧
      (s.initiating epoch).engine = s.engine ∧ (s.initiating epoch).supply.state = s.supply.state := by
    simp [State.initiating, State.takeLong]
  obtain ⟨hport, hstartup, hengine, hsupply⟩ := hframe
  have hoffer : (s.initiating epoch).writeOffer = some (writeOp .initHeader (s.journal.basePage * 64)
      (headerLine epoch s.journal.sizePages) fullMask true s.port.attemptLimit.toNat .journal noRegion) := by
    simp only [State.writeOffer, houtstanding, if_true, State.headerOp, hjournal, hport]
    rfl
  have hempty (p : Fin 4) (e : DelayedEntry) (he : s.engine.table[p] = some e) : False :=
    hw (.inr (.inl ⟨p, by simp [he]⟩))
  rw [State.settle, State.beginDrains_of_not_mayBegin _ _ hbegins]
  exact (State.arbitrate_of_offer (by rw [hport]; exact hop) (by rw [hsupply]; exact hf) (by rw [hstartup]; exact hp) hoffer
    (.inr ⟨by rw [hengine]; exact hl, fun p e he => (hempty p e (by rwa [hengine] at he)).elim⟩)).1

/-! ### The end of the header write -/

/-- R102: the state after the header write. -/
theorem initEnded_eq (s : State) (ok : Bool) :
    (s.initEnded ok).journal = { s.journal with state := if ok then .active else .failed } ∧
    (s.initEnded ok).mgmt.longCmd = none ∧ (s.initEnded ok).mgmt.lastLong = (if ok then .ok else .failed) ∧
    (s.initEnded ok).recorded .longDone ∧
    (s.journal.state ≠ (if ok then .active else .failed) → (s.initEnded ok).recorded .journal) := by
  have hjournal (x : JournalState) (r : LongResult) : ((s.setJournalState x).endLong r).journal = { s.journal with state := x } := by
    simp [State.setJournalState_journal]
  have hrecorded (x : JournalState) (r : LongResult) (h : s.journal.state ≠ x) :
      ((s.setJournalState x).endLong r).recorded .journal :=
    State.recorded_of_grows (State.endLong_grows _ _ (.refl _)) (State.setJournalState_recorded h)
  cases ok with
  | true =>
    obtain ⟨hlong, hlast⟩ := State.endLong_longCmd (s.setJournalState .active) .ok
    exact ⟨hjournal .active .ok, hlong, hlast, State.endLong_recorded _ _, hrecorded .active .ok⟩
  | false =>
    obtain ⟨hlong, hlast⟩ := State.endLong_longCmd (s.setJournalState .failed) .failed
    exact ⟨hjournal .failed .failed, hlong, hlast, State.endLong_recorded _ _, hrecorded .failed .failed⟩

/-- R102: the same, when the grant that follows has been made. -/
theorem initEnded_settle {s u : State} (ok : Bool) (hu : u.journal = s.journal) :
    (u.initEnded ok).settle.journal = { s.journal with state := if ok then .active else .failed } ∧
    (u.initEnded ok).settle.mgmt.longCmd = none ∧ (u.initEnded ok).settle.mgmt.lastLong = (if ok then .ok else .failed) ∧
    (u.initEnded ok).settle.recorded .longDone ∧
    (s.journal.state ≠ (if ok then .active else .failed) → (u.initEnded ok).settle.recorded .journal) := by
  obtain ⟨hjournal, hlong, hlast, hdone, hmoved⟩ := initEnded_eq u ok
  have hgrows : (u.initEnded ok).faults.Grows (u.initEnded ok).settle.faults := State.settle_grows _ (.refl _)
  rw [← hu]
  exact ⟨by simpa using hjournal, by simpa using hlong, by simpa using hlast, State.recorded_of_grows hgrows hdone,
    fun h => State.recorded_of_grows hgrows (hmoved h)⟩

/-- Settles O53: the refusals in their order, the taking, and the two ends of the header write. -/
theorem initJournalRunsToItsEnd : Obligations.InitJournalRunsToItsEnd := by
  intro epoch s init argBad stateBad
  have harg : s.initArgBad epoch = true ↔ argBad := initArgBad_iff
  have hstate : s.initStateBad = true ↔ stateBad := initStateBad_iff
  refine ⟨fun ht => ⟨fun ha => ?_, fun ha hb => ?_, fun ha hb hs => ?_, fun ha hb hs => ?_⟩,
    fun c op data hop ho => ⟨fun h => ?_, fun h => ?_⟩⟩
  · exact exec_of_flagged rfl ht (if_pos (harg.mpr ha))
  · exact exec_of_flagged rfl ht ((if_neg (harg.not.mpr ha)).trans (if_pos hb))
  · exact exec_of_flagged rfl ht ((if_neg (harg.not.mpr ha)).trans
      ((if_neg (by simp [State.endRequest, State.setMgmt, hb])).trans (if_pos (hstate.mpr hs))))
  · let u : State := s.endRequest (requestOf init)
    have hfree : ¬ u.mgmt.longCmd.isSome = true := by simp [u, State.endRequest, State.setMgmt, hb]
    have htaken : action init u = (⟨.taken, []⟩, (u.initiating epoch).settle) :=
      (if_neg (harg.not.mpr ha)).trans ((if_neg hfree).trans (if_neg (hstate.not.mpr hs)))
    obtain ⟨hjournal, hlong, herror⟩ := initiating_eq u epoch
    have hmove : u.journal.state ≠ .closing := fun hc => hs (.inr (.inr (.inl hc)))
    have hwork : ¬ u.workStands := fun hw => hs (.inr (.inr (.inr (.inr hw))))
    obtain ⟨hrecorded, hinhibited⟩ := initiating_recorded epoch hmove
    have hgrows : (u.initiating epoch).faults.Grows (u.initiating epoch).settle.faults := State.settle_grows _ (.refl _)
    refine ⟨_, exec_of_action rfl ht htaken ?_, ?_, by simpa using hlong,
      State.recorded_of_grows hgrows hrecorded, State.inhibited_of_grows hinhibited (by simp) hgrows,
      fun hop hp hf hl => justWrites_of_op ?_⟩
    · exact (show (u.initiating epoch).settle.mgmt.lastError = (u.initiating epoch).mgmt.lastError by simp).trans herror
    · exact (show (u.initiating epoch).settle.journal = (u.initiating epoch).journal by simp).trans hjournal
    · rw [initiating_writes epoch (s := u) hop hp hf hl hwork]
      simp [State.initiating, State.takeLong]
      rfl
  · have hexec : exec c s = .next ((s.freed op).initEnded true).settle := by
      rw [exec_freed hop h, State.ownerSucceeded, ho]
    exact ⟨_, hexec, initEnded_settle true (by simp)⟩
  · have hexec : exec c s = .next ((s.failing op).initEnded false).settle := by
      rw [exec_failing hop h, State.ownerFailed, ho]
    exact ⟨_, hexec, initEnded_settle false (by simp)⟩

end Sys2Proof.Machine
end

section
/-! O54 (R82, R103, R119, R120, R141, R152), and what the scan and the rollback come to: the operation that is issued at once. -/

namespace Sys2Proof.Machine

namespace State

/-! ### The operation of a procedure -/

/-- R112, R119: with the port free and the supply not in FAIL the operation that the scan or the rollback has come to is issued. -/
theorem settle_procedureIssued {s : State} (hop : s.port.op = none) (hf : s.supply.state ≠ .fail) :
    s.settle.procedureIssued := by
  have hissued (op : Operation) (h : s.procedureOp = some op) : s.settle.port.op = some op := settle_of_procedure hop hf h
  have hstartup : s.settle.startup = s.startup := by simp
  have hjournal : s.settle.journal = s.journal := by simp
  have hlimit : s.settle.port.attemptLimit = s.port.attemptLimit := by simp
  simp only [procedureIssued, hstartup, hjournal]
  have area {owner : Owner} (ho : owner ≠ .prefetch) (i : Nat) (h : s.procedureOp = some (s.areaRead owner i)) :
      s.settle.justIssued .lineRead (s.journal.basePage * 64 + i) owner (some (.journal, 9)) :=
    justIssued_of_op ho (by rw [hlimit]; exact hissued _ h)
  cases hp : s.startup.procedure with
  | idle => trivial
  | scanHeader => exact area (by simp) 0 (by simp only [procedureOp, hp])
  | scanRecord k =>
    simp only [Nat.add_assoc]
    exact area (by simp) _ (by simp only [procedureOp, hp])
  | scanImage k header =>
    simp only [Nat.add_assoc]
    exact area (by simp) _ (by simp only [procedureOp, hp])
  | rollRecord k =>
    simp only [Nat.add_assoc]
    exact area (by simp) _ (by simp only [procedureOp, hp])
  | rollImage k header =>
    simp only [Nat.add_assoc]
    exact area (by simp) _ (by simp only [procedureOp, hp])
  | rollTarget k target image =>
    exact justWrites_of_op (by rw [hlimit]; exact hissued _ (by simp only [procedureOp, hp]; rfl))
  | rollHeader => exact justWrites_of_op (by rw [hlimit]; exact hissued _ (by simp only [procedureOp, hp]; rfl))

/-! ### The records of the rollback -/

/-- R141: the procedure that comes next to k records. -/
theorem rollsOn_of_rollFrom {t : State} {k : Nat} (h : t.startup.procedure = rollFrom k) : t.rollsOn k := by
  refine ⟨fun j hj => ?_, fun hk => ?_⟩
  · subst hj
    exact h
  · subst hk
    exact h

/-- R119, R141: what is issued for the record that comes next. -/
theorem rollsOnAtOnce_of_issued {t : State} {k : Nat} (h : t.startup.procedure = rollFrom k)
    (hi : t.supply.state ≠ .fail → t.procedureIssued) : t.rollsOnAtOnce k := by
  refine ⟨rollsOn_of_rollFrom h, fun hf => ?_⟩
  have hissued := hi hf
  simp only [procedureIssued, h] at hissued
  refine ⟨fun j hj => ?_, fun hk => ?_⟩
  · subst hj
    exact hissued
  · subst hk
    exact hissued

/-- R119, R120, R141: on a free port the procedure goes on at once. -/
theorem settle_rollsOnAtOnce {s : State} {k : Nat} (hop : s.port.op = none) (h : s.startup.procedure = rollFrom k) :
    s.settle.rollsOnAtOnce k := by
  refine rollsOnAtOnce_of_issued (by simpa using h) fun hf => settle_procedureIssued hop ?_
  simpa using hf

/-- R119: while the scan or the rollback has an operation the arbiter grants neither class. -/
theorem arbitrate_engine_of_procedure {s : State} {op : Operation} (h : s.procedureOp = some op) :
    s.arbitrate.engine = s.engine := by
  simp only [arbitrate, h]
  split <;> rfl

theorem procedureOp_congr {s t : State} (h1 : t.startup = s.startup) (h2 : t.journal = s.journal)
    (h3 : t.port.attemptLimit = s.port.attemptLimit) : t.procedureOp = s.procedureOp := by
  simp only [procedureOp, h1, areaRead, targetOp, headerOp, h2, h3]

theorem settle_slots_of_procedure {s : State} {op : Operation} (h : s.procedureOp = some op) :
    s.settle.engine.slots = s.engine.slots ∧ s.settle.engine.prefetch = s.engine.prefetch := by
  have hop : (State.beginDrains longestOrder s).procedureOp = some op := by
    rw [procedureOp_congr (s := s) (by simp) (by simp) (by simp), h]
  obtain ⟨hslots, hprefetch, -⟩ := beginDrains_slots longestOrder s
  rw [settle, arbitrate_engine_of_procedure hop]
  exact ⟨hslots, hprefetch⟩

/-! ### ROLLBACK -/

theorem rollbackStateBad_iff {s : State} : s.rollbackStateBad = true ↔
    (s.startup.portState ≠ .opened ∧ s.startup.portState ≠ .hold) ∨
      (s.journal.state ≠ .pending ∧ s.journal.state ≠ .active ∧ s.journal.state ≠ .failed) ∨ s.workStands := by
  simp only [rollbackStateBad, Bool.or_eq_true, Bool.and_eq_true, bne_iff_ne, or_assoc, and_assoc, hasWork_iff]

/-- R103: ROLLBACK is taken, before the arbiter grants. -/
def rolling (s : State) : State :=
  let s1 := (s.takeLong (.rollback s.startup.portState)).setJournalState .rolling
  let s2 := s1.setStartup { s1.startup with portState := .rolling }
  (s2.setEngine s2.engine.freeBuffer).beginRollback

theorem rolling_eq (s : State) : s.rolling.journal = { s.journal with state := .rolling } ∧
    s.rolling.startup = { s.startup with
      portState := .rolling, skipped := 0, rollPartial := false, procedure := rollFrom s.journal.written } ∧
    s.rolling.engine = s.engine.freeBuffer ∧ s.rolling.mgmt = { s.mgmt with longCmd := some (.rollback s.startup.portState) } ∧
    s.rolling.port = s.port := by
  have hjournal := setJournalState_journal (s.takeLong (.rollback s.startup.portState)) .rolling
  refine ⟨hjournal, ?_, ?_, ?_, ?_⟩
  · simp [rolling, beginRollback, setStartup, setEngine, takeLong]
  · simp [rolling, beginRollback, setStartup, setEngine, takeLong]
  · simp [rolling, beginRollback, setStartup, setEngine, takeLong]
  · simp [rolling, beginRollback, setStartup, setEngine, takeLong]

theorem rolling_recorded {s : State} (h : s.journal.state ≠ .rolling) :
    s.rolling.recorded .journal ∧ s.rolling.inhibited s .journal := by
  have hmove : (s.takeLong (.rollback s.startup.portState)).journal.state ≠ .rolling := h
  exact ⟨setJournalState_recorded hmove, setJournalState_inhibited hmove rfl⟩

/-- R141: a procedure that goes on has an operation. -/
theorem procedureOp_of_rollFrom {s : State} {k : Nat} (h : s.startup.procedure = rollFrom k) :
    ∃ op, s.procedureOp = some op := by
  cases k with
  | zero => exact ⟨_, by simp only [procedureOp, h, rollFrom]; rfl⟩
  | succ j => exact ⟨_, by simp only [procedureOp, h, rollFrom]; rfl⟩

/-- R103: no slot of the freed buffer is VALID. -/
theorem freeBuffer_slots (g : Engine) (j : Fin 8) (l : Nat) (d : Line) (o : Option (Fin 4)) (a : Nat) :
    g.freeBuffer.slots[j] ≠ .valid l d o a := by
  simp only [Engine.freeBuffer, Fin.getElem_fin, Vector.getElem_ofFn]
  cases g.slots[j.val] <;> simp [Slot.discard]

end State

/-- Settles O54: the refusals, and what the taking leaves. -/
theorem rollbackIsTaken : Obligations.RollbackIsTaken := by
  intro s ht stateBad
  have hstate : s.rollbackStateBad = true ↔ stateBad := State.rollbackStateBad_iff
  refine ⟨fun hb => ?_, fun hb hs => ?_, fun hb hs => ?_⟩
  · exact exec_of_flagged rfl ht (if_pos hb)
  · exact exec_of_flagged rfl ht ((if_neg (by simp [State.endRequest, State.setMgmt, hb])).trans (if_pos (hstate.mpr hs)))
  · let u : State := s.endRequest (requestOf .rollback)
    have hfree : ¬ u.mgmt.longCmd.isSome = true := by simp [u, State.endRequest, State.setMgmt, hb]
    have htaken : action .rollback u = (⟨.taken, []⟩, u.rolling.settle) :=
      (if_neg hfree).trans (if_neg (hstate.not.mpr hs))
    have hmove : u.journal.state ≠ .rolling := by
      intro hc
      have hc' : s.journal.state = .rolling := hc
      exact hs (.inr (.inl (by simp [hc'])))
    obtain ⟨hjournal, hstartup, hengine, hmgmt, hport⟩ := State.rolling_eq u
    obtain ⟨hrecorded, hinhibited⟩ := State.rolling_recorded hmove
    have hprocedure : u.rolling.startup.procedure = rollFrom u.journal.written := by rw [hstartup]
    obtain ⟨op, hop⟩ := State.procedureOp_of_rollFrom hprocedure
    obtain ⟨hslots, hprefetch⟩ := State.settle_slots_of_procedure hop
    have hgrows : u.rolling.faults.Grows u.rolling.settle.faults := State.settle_grows _ (.refl _)
    have hstays : u.rolling.settle.startup = u.rolling.startup := by simp
    have hmgmtStays : u.rolling.settle.mgmt = u.rolling.mgmt := by simp
    refine ⟨_, exec_of_action rfl ht htaken ?_, ?_, ?_, ?_, ?_, ?_, State.recorded_of_grows hgrows hrecorded,
      State.inhibited_of_grows hinhibited (by simp) hgrows, ?_, ?_, fun j l d o g => ?_, fun hn => ?_⟩
    · rw [hmgmtStays, hmgmt]
      rfl
    · exact (show u.rolling.settle.journal = u.rolling.journal by simp).trans hjournal
    · rw [hstays, hstartup]
    · rw [hstays, hstartup]
    · rw [hstays, hstartup]
    · exact State.rollsOn_of_rollFrom (hstays ▸ hprocedure)
    · rw [hmgmtStays, hmgmt]
      rfl
    · rw [hprefetch, hengine]
      rfl
    · rw [hslots, hengine]
      exact State.freeBuffer_slots _ j l d o g
    · exact State.settle_rollsOnAtOnce (by rw [hport]; exact hn) hprocedure

end Sys2Proof.Machine
end

section
/-! O30 (R52, R75, R76): RESET UPSTREAM. -/

namespace Sys2Proof.Machine

namespace State

/-! ### Nothing of the engine is left to grant -/

/-- R75: the table holds no entry, and nothing is to be prefetched. -/
def EngineIdle (s : State) : Prop := (∀ p : Fin 4, s.engine.table[p] = none) ∧ s.engine.prefetch = []

theorem leave_posted_engine (s : State) (code : RegionCode) (r : EntryResult) : (s.leave .postedWrite code r).engine = s.engine := by
  simp only [leave]
  split <;> simp [popQueue]

/-- R44, R50: the drain of the queue's head leaves the engine as it is. -/
theorem beginItem_engine {s : State} {item : DrainItem} (h : item = .postedWrite ∨ item = .closeMarker) :
    (s.beginItem item).engine = s.engine := by
  simp only [beginItem]
  split
  · split <;> simp
  · split
    · rcases h with rfl | rfl
      · exact leave_posted_engine _ _ _
      · simp [leave]
    · rcases h with rfl | rfl <;> simp [issueEntry]

/-- R38: with no delayed entry the head of the write order is the head of the queue. -/
theorem headItem_of_no_entry {s : State} (h : ∀ p : Fin 4, s.engine.table[p] = none) {item : DrainItem}
    (hi : s.headItem = some item) : item = .postedWrite ∨ item = .closeMarker := by
  cases item with
  | postedWrite => exact .inl rfl
  | closeMarker => exact .inr rfl
  | delayedWrite p =>
    obtain ⟨e, he, -⟩ := headItem_delayedWrite hi
    rw [h p] at he
    cases he
  | removed b => exact absurd hi (headItem_ne_removed s b)

theorem beginDrains_engine (n : Nat) {s : State} (h : ∀ p : Fin 4, s.engine.table[p] = none) :
    (State.beginDrains n s).engine = s.engine := by
  induction n generalizing s with
  | zero => rfl
  | succ n ih =>
    simp only [State.beginDrains]
    split
    · split
      · rfl
      next item hi =>
        have hstays := beginItem_engine (s := s) (headItem_of_no_entry h hi)
        rw [ih (by rw [hstays]; exact h), hstays]
    · rfl

theorem oldestReadyRead_of_no_entry {s : State} (h : ∀ p : Fin 4, s.engine.table[p] = none) (f : Nat → Bool) :
    s.oldestReadyRead f = none := by
  rw [Option.eq_none_iff_forall_not_mem]
  intro p hp
  obtain ⟨e, he, -⟩ := oldestReadyRead_waiting hp
  rw [h p] at he
  cases he

/-- R118: with nothing to read the arbiter grants the write class or nothing. -/
theorem arbitrate_engine {s : State} (h : s.EngineIdle) : s.arbitrate.engine = s.engine := by
  have hgrant (o : Option Operation) (t : State) : (t.grantOffer o).engine = t.engine := by cases o <;> rfl
  have hprefetch : s.engine.prefetchLeft = [] := by simp [Engine.prefetchLeft, h.2]
  simp only [arbitrate]
  split
  · rfl
  · split
    · rfl
    · split
      · exact hgrant _ _
      · simp only [takeRead, oldestReadyRead_of_no_entry h.1, takePrefetch, hprefetch]
        rw [hgrant]
        show ({ s.engine with prefetch := [] } : Engine) = s.engine
        rw [← h.2]

theorem settle_engine {s : State} (h : s.EngineIdle) : s.settle.engine = s.engine := by
  have hbegun := beginDrains_engine longestOrder h.1
  rw [settle, arbitrate_engine (by simpa only [EngineIdle, hbegun] using h), hbegun]

/-! ### The drain -/

/-- R52, R76: the drain of a delayed write whose operation is in flight passes to that operation. -/
theorem orphanDrain_of_delayed {s : State} {x : Drain} {op : Operation} {p : Fin 4} {e : DelayedEntry} (hd : s.drain = some x)
    (hop : s.port.op = some op) (hi : x.item = .delayedWrite p) (ho : op.owner = .head) (he : s.engine.table[p] = some e) :
    s.orphanDrain = s.setDrain (some { x with item := .removed e.body }) := by
  obtain ⟨item, stage, image, ft⟩ := x
  cases hi
  simp only [orphanDrain, hd, hop, he, ho, if_true]

theorem orphanDrain_of_other {s : State} {x : Drain} (hd : s.drain = some x) (hi : ∀ p, x.item ≠ .delayedWrite p) :
    s.orphanDrain = s := by
  obtain ⟨item, stage, image, ft⟩ := x
  cases item with
  | delayedWrite p => exact absurd rfl (hi p)
  | postedWrite => simp only [orphanDrain, hd]
  | closeMarker => simp only [orphanDrain, hd]
  | removed b => simp only [orphanDrain, hd]

/-- R75: the state before the drains begin and the arbiter grants. -/
def emptied (s : State) : State := s.orphanDrain.setEngine s.engine.empty

theorem resetUpstream_eq (s : State) : s.resetUpstream = s.emptied.settle := rfl

theorem emptied_idle (s : State) : s.emptied.EngineIdle := ⟨fun p => by simp [emptied, setEngine, Engine.empty], rfl⟩

/-- R38, R109: on a busy port nothing follows the emptying. -/
theorem resetUpstream_of_busy {s : State} {op : Operation} {d : Drain} (hop : s.port.op = some op)
    (hd : s.orphanDrain.drain = some d) : s.resetUpstream = s.emptied := by
  have hbusy : s.emptied.busyPort := ⟨by simp [emptied, setEngine, hop], by simp [emptied, setEngine, hd]⟩
  rw [resetUpstream_eq, settle_of_busyPort hbusy]

end State

/-- Settles O30: the engine is empty and stays so; on a busy port nothing follows. -/
theorem resetUpstreamEmptiesTheEngine : Obligations.ResetUpstreamEmptiesTheEngine := by
  intro s ht
  let u : State := s.endRequest (requestOf .resetUpstream)
  refine ⟨u.resetUpstream, exec_of_action rfl ht rfl (by simp; rfl), State.settle_engine u.emptied_idle, by simp; rfl, ?_, by simp; rfl,
    by simp; rfl, by simp; rfl, by simp; rfl, by simp; rfl, by simp; rfl, by simp; rfl, by simp; rfl, by simp; rfl, by simp; rfl,
    fun x op hd hop hx => ?_⟩
  · show u.emptied.settle.faults.counters = s.faults.counters
    simp [State.emptied]
    rfl
  · by_cases hi : ∃ p, x.item = .delayedWrite p
    · obtain ⟨p, hp⟩ := hi
      obtain ⟨hhead, hstands⟩ := hx p hp
      obtain ⟨e, he⟩ := Option.isSome_iff_exists.mp hstands
      have horphan := State.orphanDrain_of_delayed (s := u) hd hop hp hhead he
      have hstays := State.resetUpstream_of_busy (s := u) hop (d := { x with item := .removed e.body }) (by rw [horphan]; rfl)
      rw [hstays]
      simp only [State.emptied, horphan]
      refine ⟨rfl, rfl, rfl, fun hno => absurd hp (hno p), fun q f hq hf => ?_⟩
      have hpq : q = p := DrainItem.delayedWrite.inj (hq.symm.trans hp)
      subst hpq
      rw [he] at hf
      cases hf
      rfl
    · have hno (p : Fin 4) : x.item ≠ .delayedWrite p := fun hp => hi ⟨p, hp⟩
      have horphan := State.orphanDrain_of_other (s := u) hd hno
      have hstays := State.resetUpstream_of_busy (s := u) hop (d := x) (by rw [horphan]; exact hd)
      rw [hstays]
      simp only [State.emptied, horphan]
      exact ⟨rfl, rfl, rfl, fun _ => hd, fun p e hp => absurd hp (hno p)⟩

end Sys2Proof.Machine
end

section
/-! O31 and O32 (R129 to R135, R152, R178): the end of the image read. -/

namespace Sys2Proof.Machine

/-! ### The bytes of an image -/

/-- The bytes of a number from an offset on are those of what stands above the rest. -/
theorem bytesOf_drop_take (v : Nat) {l off n : Nat} (h : off + n ≤ l) :
    ((bytesOf l v).drop off).take n = bytesOf n (v / 256 ^ (l - off - n)) := by
  refine List.ext_getElem (by simp; omega) fun i hi hn => ?_
  have hlt : i < n := by simpa using hn
  have hpow : l - 1 - (off + i) = (l - off - n) + (n - 1 - i) := by omega
  simp only [bytesOf, List.getElem_take, List.getElem_drop, List.getElem_map, List.getElem_range]
  rw [hpow, pow_add, Nat.div_div_eq_div_mul]

theorem imageField_bytes (im : Image) {off n : Nat} (h : off + n ≤ 75) :
    imageField (bytesOf 75 im.toNat) off n = imageAt im off n := by
  rw [imageField, bytesOf_drop_take _ h, natOf_bytesOf, imageAt]

theorem imageByte_bytes (im : Image) {i : Nat} (h : i < 75) :
    (imageByte (bytesOf 75 im.toNat) i).toNat = imageAt im i 1 := by
  have hpow : 75 - 1 - i = 75 - i - 1 := by omega
  rw [imageByte, bytesOf_getD _ h, BitVec.toNat_ofNat, hpow]
  rfl

/-- A byte of an image, by its number. -/
theorem imageByte_bytes_eq_iff (im : Image) {i : Nat} (h : i < 75) (b : Byte) :
    imageByte (bytesOf 75 im.toNat) i = b ↔ imageAt im i 1 = b.toNat := by
  rw [← BitVec.toNat_inj, imageByte_bytes im h]

theorem foldl_add_toNat (bs : List Byte) (a : Nat) :
    bs.foldl (fun a b => a + b.toNat) a = a + (bs.map fun b => b.toNat).sum := by
  induction bs generalizing a with
  | nil => rfl
  | cons b bs ih => rw [List.foldl_cons, ih, List.map_cons, List.sum_cons, Nat.add_assoc]

theorem imageSum_bytes (im : Image) : imageSum (bytesOf 75 im.toNat) =
    ((List.range 73).map fun i => imageAt im i 1).sum % 65536 := by
  have htake : ((bytesOf 75 im.toNat).take 73).map (fun b => b.toNat) = (List.range 73).map fun i => imageAt im i 1 := by
    refine List.ext_getElem (by simp) fun i hi _ => ?_
    have hlt : i < 75 := by simp at hi; omega
    have hbyte := imageByte_bytes im hlt
    rw [imageByte, List.getD_eq_getElem _ _ (by simpa using hlt)] at hbyte
    simpa using hbyte
  rw [imageSum, foldl_add_toNat, htake, Nat.zero_add]

/-- R178: reading stops at a first byte other than the marker. -/
theorem readImage_of_marked {im : Image} (h : imageAt im 0 1 = 0xC3) : readImage im = bytesOf 75 im.toNat :=
  if_pos ((imageByte_bytes_eq_iff im (by omega) Config.imageMarker).mpr h)

theorem readImage_first (im : Image) : imageByte (readImage im) 0 = imageByte (bytesOf 75 im.toNat) 0 := by
  simp only [readImage]
  split
  · rfl
  · simp [imageByte]

/-! ### The judgment -/

theorem attributeByteLegal_bytes (im : Image) {i : Nat} (h : i < 75) :
    attributeByteOk (imageByte (bytesOf 75 im.toNat) i) = true ↔ attributeByteLegal (imageAt im i 1) := by
  rw [attributeByteOk_iff, imageByte_bytes im h]
  rfl

theorem imageByte_ne_zero (im : Image) {i : Nat} (h : i < 75) :
    imageByte (bytesOf 75 im.toNat) i ≠ 0 ↔ imageAt im i 1 ≠ 0 :=
  (imageByte_bytes_eq_iff im h 0).not

theorem imageRegionOk_bytes (im : Image) {i : Nat} (h : i < 8) : imageRegionOk (bytesOf 75 im.toNat) i = true ↔
    imageAt im (5 + 6 * i) 2 ≤ imageAt im (7 + 6 * i) 2 ∧ imageAt im (7 + 6 * i) 2 ≤ 16383 ∧
      attributeByteLegal (imageAt im (9 + 6 * i) 1) ∧ imageAt im (10 + 6 * i) 1 ≤ 1 := by
  rw [imageRegionOk, regionFieldsOk_iff, imageField_bytes im (by omega), imageField_bytes im (by omega),
    attributeByteLegal_bytes im (by omega), imageByte_bytes im (by omega)]

/-- R132: the fields of the image. -/
theorem imageFieldsOk_bytes (im : Image) : imageFieldsOk (bytesOf 75 im.toNat) = true ↔
    attributeByteLegal (imageAt im 4 1) ∧
      (∀ i < 8, imageAt im (5 + 6 * i) 2 ≤ imageAt im (7 + 6 * i) 2 ∧ imageAt im (7 + 6 * i) 2 ≤ 16383 ∧
        attributeByteLegal (imageAt im (9 + 6 * i) 1) ∧ imageAt im (10 + 6 * i) 1 ≤ 1) ∧
      (imageAt im 63 2 ≤ 1024 ∧ imageAt im 61 2 ≤ 16383 ∧ imageAt im 61 2 + imageAt im 63 2 ≤ 16384) ∧
      imageAt im 65 1 ≤ 1 ∧
      (imageAt im 66 1 ≠ 0 ∧ imageAt im 67 1 ≠ 0 ∧ imageAt im 68 1 ≤ 3 ∧ imageAt im 69 1 ≤ 3) ∧
      imageAt im 70 2 < 512 ∧ imageAt im 72 1 ≤ 1 := by
  rw [imageFieldsOk_iff, attributeByteLegal_bytes im (by omega), placementOk_iff, parametersOk_iff,
    imageField_bytes im (off := 61) (by omega), imageField_bytes im (off := 63) (by omega),
    imageField_bytes im (off := 70) (by omega), imageByte_bytes im (i := 65) (by omega),
    imageByte_bytes im (i := 68) (by omega), imageByte_bytes im (i := 69) (by omega),
    imageByte_bytes im (i := 72) (by omega), imageByte_ne_zero im (i := 66) (by omega),
    imageByte_ne_zero im (i := 67) (by omega)]
  have hregions := forall₂_congr fun i (hi : i < 8) => imageRegionOk_bytes im hi
  rw [hregions]

/-- R131, R178: ABSENT. -/
theorem judgeImage_absent {im : Image} (h : imageAt im 0 1 = 0xFF) : judgeImage (readImage im) = .absent := by
  have hfirst : imageByte (readImage im) 0 = Config.imageAbsent :=
    (readImage_first im).trans ((imageByte_bytes_eq_iff im (by omega) Config.imageAbsent).mpr h)
  rw [judgeImage, if_pos hfirst]

/-- R131, R132, R178: LOADED, for a legal image alone. -/
theorem judgeImage_loaded_iff {im : Image} : judgeImage (readImage im) = .loaded ↔ imageLegal im := by
  have hmarker := imageByte_bytes_eq_iff im (i := 0) (by omega) Config.imageMarker
  by_cases h : imageAt im 0 1 = 0xC3
  · have hnot : ¬ imageByte (bytesOf 75 im.toNat) 0 = Config.imageAbsent := by
      rw [hmarker.mpr h]
      decide
    have hversion := imageByte_bytes_eq_iff im (i := 1) (by omega) 1
    rw [readImage_of_marked h, judgeImage, if_neg hnot]
    simp only [ite_eq_left_iff, reduceCtorEq, imp_false, not_not]
    rw [hmarker, hversion, imageField_bytes im (off := 2) (by omega), imageField_bytes im (off := 73) (by omega),
      imageSum_bytes, imageFieldsOk_bytes]
    rfl
  · have hnot : ¬ imageByte (readImage im) 0 = Config.imageMarker := by rwa [readImage_first, hmarker]
    refine iff_of_false ?_ fun hl => h hl.1
    simp only [judgeImage, hnot, false_and, if_false]
    split <;> simp

theorem judgeImage_bad {im : Image} (h : imageAt im 0 1 ≠ 0xFF) (hl : ¬ imageLegal im) :
    judgeImage (readImage im) = .bad := by
  have hfirst : ¬ imageByte (readImage im) 0 = Config.imageAbsent := by
    rwa [readImage_first, imageByte_bytes_eq_iff im (by omega)]
  have hnot := judgeImage_loaded_iff.not.mpr hl
  rw [judgeImage, if_neg hfirst] at hnot ⊢
  exact if_neg fun hok => hnot (if_pos hok)

/-! ### The end of start-up -/

namespace State

theorem opensAtEnd_iff {s : State} : s.opensAtEnd = true ↔
    (s.startup.loadResult = .loaded ∨ s.startup.loadResult = .absent) ∧
      (s.journal.state = .off ∨ s.journal.state = .active) := by
  simp [opensAtEnd]

theorem endStartup_startup (s : State) : s.endStartup.startup =
    { s.startup with phase := .done, procedure := .idle, portState := if s.opensAtEnd then .opened else .hold } := by
  simp only [endStartup]
  split <;> simp [setStartup]

/-- R129, R130: start-up ends with its events. -/
theorem endStartup_startupEnded (s : State) : s.endStartup.startupEnded := by
  have hstartup := s.endStartup_startup
  have hopens : s.endStartup.opensAtEnd = s.opensAtEnd := by simp [opensAtEnd]
  have hdone : s.endStartup.recorded .startupDone := by
    simp only [endStartup]
    split
    · exact raise_recorded _ _
    · exact recorded_of_grows (raise_grows _ _ (.refl _)) (raise_recorded _ _)
  unfold startupEnded
  rw [← opensAtEnd_iff, hopens]
  refine ⟨by rw [hstartup], by rw [hstartup], hdone, fun h => by rw [hstartup, if_pos h], fun h => ⟨by rw [hstartup, if_neg h], ?_⟩⟩
  simp only [endStartup, if_neg h]
  exact raise_recorded _ _

/-- What follows leaves start-up ended. -/
theorem startupEnded_of_grows {t u : State} (h : t.startupEnded) (hs : u.startup = t.startup)
    (hj : u.journal.state = t.journal.state) (hg : t.faults.Grows u.faults) : u.startupEnded := by
  obtain ⟨hphase, hprocedure, hdone, hopen, hhold⟩ := h
  unfold startupEnded
  rw [hs, hj]
  exact ⟨hphase, hprocedure, recorded_of_grows hg hdone, hopen,
    fun hn => ⟨(hhold hn).1, recorded_of_grows hg (hhold hn).2⟩⟩

theorem endStartup_settle_startupEnded (s : State) : s.endStartup.settle.startupEnded :=
  startupEnded_of_grows s.endStartup_startupEnded (by simp) (by simp) (settle_grows _ (.refl _))

/-! ### The shadow copy -/

theorem judgeShadow_of_loaded {s : State} (h : judgeImage s.startup.shadow = .loaded) :
    s.judgeShadow = (s.setStartup { s.startup with loadResult := .loaded, shadow := [], phase := .supplyWait }).applyImage
      s.startup.shadow := by
  simp only [judgeShadow, h, if_true]

theorem judgeShadow_of_not_loaded {s : State} (h : judgeImage s.startup.shadow ≠ .loaded) :
    s.judgeShadow = s.setStartup
      { s.startup with loadResult := judgeImage s.startup.shadow, shadow := [], phase := .supplyWait } := by
  simp only [judgeShadow, if_neg h]

/-- R133: of the start-up state an image sets the start-up mode alone. -/
theorem applyImage_startup (s : State) (im : List Byte) :
    (s.applyImage im).startup = { s.startup with mode := imageMode im } := by
  simp only [applyImage]
  split <;> simp [applySettings, setLimits]

/-- R131, R135: what the end of the image read leaves of the start-up state. -/
theorem judgeShadow_startup (s : State) : s.judgeShadow.startup = { s.startup with
    loadResult := judgeImage s.startup.shadow, shadow := [], phase := .supplyWait, mode := s.judgeShadow.startup.mode } := by
  by_cases h : judgeImage s.startup.shadow = .loaded
  · rw [judgeShadow_of_loaded h, applyImage_startup, h]
    rfl
  · rw [judgeShadow_of_not_loaded h]
    rfl

/-- The state in which the image has been judged. -/
def judgedImage (s : State) (im : Image) : State := (s.setStartup { s.startup with shadow := readImage im }).judgeShadow

theorem endLoading_eq (s : State) (im : Image) : s.endLoading im = (s.judgedImage im).endWaitIfNormal.settle := rfl

theorem judgedImage_startup (s : State) (im : Image) : (s.judgedImage im).startup = { s.startup with
    loadResult := judgeImage (readImage im), shadow := [], phase := .supplyWait
    mode := (s.judgedImage im).startup.mode } := judgeShadow_startup _

theorem judgedImage_supply_state (s : State) (im : Image) : (s.judgedImage im).supply.state = s.supply.state :=
  (judgeShadow_stays _).1

/-- R131: without LOADED the start-up state alone changes. -/
theorem judgedImage_of_not_loaded {s : State} {im : Image} (h : ¬ imageLegal im) : s.judgedImage im = s.setStartup
    { s.startup with loadResult := judgeImage (readImage im), shadow := [], phase := .supplyWait } :=
  judgeShadow_of_not_loaded (s := s.setStartup { s.startup with shadow := readImage im }) (judgeImage_loaded_iff.not.mpr h)

/-- R133: a legal image is applied. -/
theorem judgedImage_of_loaded {s : State} {im : Image} (h : imageLegal im) : s.judgedImage im = (s.setStartup
    { s.startup with loadResult := .loaded, shadow := [], phase := .supplyWait }).applyImage (bytesOf 75 im.toNat) := by
  have hbytes : readImage im = bytesOf 75 im.toNat := readImage_of_marked h.1
  rw [← hbytes]
  exact judgeShadow_of_loaded (s := s.setStartup { s.startup with shadow := readImage im }) (judgeImage_loaded_iff.mpr h)

/-! ### The end of SUPPLY_WAIT -/

theorem endWaitIfNormal_of_not_normal {u : State} (h : u.supply.state ≠ .normal) : u.endWaitIfNormal = u :=
  if_neg fun hw => h hw.2

/-- R135, R136: with a journal the scan begins. -/
theorem endWaitIfNormal_scans {u : State} (hp : u.startup.phase = .supplyWait) (hn : u.supply.state = .normal)
    (hsize : 0 < u.journal.sizePages) :
    u.endWaitIfNormal = u.setStartup { u.startup with phase := .scanning, procedure := .scanHeader } :=
  (if_pos ⟨hp, hn⟩).trans (if_pos hsize)

/-- R135: without a journal start-up ends. -/
theorem endWaitIfNormal_ends {u : State} (hp : u.startup.phase = .supplyWait) (hn : u.supply.state = .normal)
    (hsize : u.journal.sizePages = 0) : u.endWaitIfNormal = u.endStartup :=
  (if_pos ⟨hp, hn⟩).trans (if_neg (by omega))

end State

/-! ### The command -/

theorem exec_configurationLoad {s : State} (image : Image) (hr : s.startup.inReset = false)
    (hp : s.startup.phase = .loading) : exec (.configurationLoad image) s = .next (s.endLoading image) := by
  rw [exec_eq_after]
  simp [State.after, hr, hp]

/-- Settles O31: the judgment of the image, and what SUPPLY_WAIT and the arbiter leave of it. -/
theorem configurationLoadJudgesTheImage : Obligations.ConfigurationLoadJudgesTheImage := by
  intro image s
  refine ⟨fun hr hp => ⟨s.endLoading image, exec_configurationLoad image hr hp, ?_⟩, fun hno => ?_⟩
  · have hstartup := s.judgedImage_startup image
    have hphase : (s.judgedImage image).startup.phase = .supplyWait := by rw [hstartup]
    have hport : (s.judgedImage image).startup.portState = s.startup.portState := by rw [hstartup]
    have hsupply := s.judgedImage_supply_state image
    have hload : (s.endLoading image).startup.loadResult = judgeImage (readImage image) := by
      simp only [State.endLoading_eq, State.settle_frame, State.endWaitIfNormal_keeps]
      rw [hstartup]
    have hjournal : (s.endLoading image).journal = (s.judgedImage image).journal := by simp [State.endLoading_eq]
    refine ⟨?_, fun h => hload.trans (judgeImage_absent h), fun h => hload.trans (judgeImage_loaded_iff.mpr h),
      fun h hl => hload.trans (judgeImage_bad h hl), fun hl => ?_, fun hn => ?_, fun hn hsize => ?_, fun hn hsize => ?_⟩
    · simp only [State.endLoading_eq, State.settle_frame, State.endWaitIfNormal_keeps]
      rw [hstartup]
    · have hjudged := State.judgedImage_of_not_loaded (s := s) hl
      obtain ⟨-, -, hmask, hvisible, -⟩ : s.faults.Grows (s.endLoading image).faults := by
        rw [State.endLoading_eq, hjudged]
        exact State.settle_grows _ (State.endWaitIfNormal_grows _ (.refl _))
      refine ⟨?_, ?_, ?_, ?_, ?_, ?_, ?_, hmask, hvisible⟩ <;>
        simp [State.endLoading_eq, hjudged]
    · rw [State.endLoading_eq, State.endWaitIfNormal_of_not_normal (by rwa [hsupply])]
      simp [hphase, hport]
    · rw [State.endLoading_eq, State.endWaitIfNormal_scans hphase (hsupply.trans hn) (hjournal ▸ hsize)]
      simp [hport]
    · rw [State.endLoading_eq, State.endWaitIfNormal_ends hphase (hsupply.trans hn) (hjournal ▸ hsize)]
      exact State.endStartup_settle_startupEnded _
  · rw [exec_eq_after]
    rcases hno with h | h <;> simp [State.after, h]

end Sys2Proof.Machine
end

section
/-! O32 (R133, R152, R178): a legal image is applied whole. -/

namespace Sys2Proof.Machine

/-! ### The settings of an image -/

/-- R178: the region table and the guard filter. -/
theorem imageClassifier_spelled {im : Image} (h : imageLegal im) :
    let c := imageClassifier (bytesOf 75 im.toNat)
    c.background.spelled (imageAt im 4 1) ∧
      (∀ i : Fin 8, c.regions[i].basePage = imageAt im (5 + 6 * i.val) 2 ∧
        c.regions[i].limitPage = imageAt im (7 + 6 * i.val) 2 ∧
        c.regions[i].attributes.spelled (imageAt im (9 + 6 * i.val) 1) ∧
        c.regions[i].enable = decide (imageAt im (10 + 6 * i.val) 1 = 1)) ∧
      c.guardFilter.toNat = imageAt im 53 8 := by
  obtain ⟨-, -, -, -, hbackground, hregions, -⟩ := h
  have hspelled {i : Nat} (hi : i < 75) (hl : attributeByteLegal (imageAt im i 1)) :
      (attributesOf (imageByte (bytesOf 75 im.toNat) i)).spelled (imageAt im i 1) := by
    rw [← imageByte_bytes im hi]
    exact attributesOf_spelled _ ((attributeByteLegal_bytes im hi).mpr hl)
  refine ⟨hspelled (by omega) hbackground, fun i => ?_, ?_⟩
  · obtain ⟨-, -, hattr, -⟩ := hregions i.val i.isLt
    have hregion : (imageClassifier (bytesOf 75 im.toNat)).regions[i] = imageRegion (bytesOf 75 im.toNat) i.val := by
      simp [imageClassifier]
    rw [hregion]
    refine ⟨imageField_bytes im (by omega), imageField_bytes im (by omega), hspelled (by omega) hattr, ?_⟩
    exact decide_eq_decide.mpr (imageByte_bytes_eq_iff im (by omega) 1)
  · have hfield := imageField_bytes im (off := 53) (n := 8) (by omega)
    have hlt : imageAt im 53 8 < 2 ^ 64 := Nat.mod_lt _ (by decide)
    rw [imageClassifier, hfield, BitVec.toNat_ofNat, Nat.mod_eq_of_lt hlt]

theorem imageMode_bytes (im : Image) :
    imageMode (bytesOf 75 im.toNat) = if imageAt im 65 1 = 1 then .auto else .hold :=
  if_congr (imageByte_bytes_eq_iff im (by omega) 1) rfl rfl

/-- A byte with a small value, in two bits. -/
theorem imageByte_setWidth {im : Image} {i : Nat} (hi : i < 75) (h : imageAt im i 1 ≤ 3) :
    ((imageByte (bytesOf 75 im.toNat) i).setWidth 2).toNat = imageAt im i 1 := by
  rw [BitVec.toNat_setWidth, imageByte_bytes im hi, Nat.mod_eq_of_lt (by omega)]

namespace State

/-! ### Applying an image -/

/-- R144: a fresh WARN level, and what the comparisons leave of the supply unit. -/
theorem setWarnLevel_supply (s : State) (w : Byte) : (s.setWarnLevel w).supply.warnLevel = w.setWidth 2 ∧
    (s.setWarnLevel w).supply.latches.journal = s.supply.latches.journal := by
  obtain ⟨t, heq, -⟩ := recompare_compared (s.setSupply { s.supply with warnLevel := w.setWidth 2 })
  rw [setWarnLevel, heq]
  exact ⟨rfl, rfl⟩

/-- The settings but for the journal state. -/
def applied (s : State) (im : List Byte) : State := (s.applySettings im).setWarnLevel (imageByte im 69)

theorem applyImage_of_size {s : State} {im : List Byte} (h : 0 < imageField im 63 2) :
    s.applyImage im = (s.applied im).setJournalState .unknown := if_pos h

theorem applyImage_of_no_size {s : State} {im : List Byte} (h : ¬ 0 < imageField im 63 2) :
    s.applyImage im = s.applied im := if_neg h

theorem applied_journal (s : State) (im : List Byte) : (s.applied im).journal =
    { s.journal with basePage := imageField im 61 2, sizePages := imageField im 63 2 } := by
  simp [applied, applySettings, setLimits]

theorem applied_settings (s : State) (im : List Byte) : (s.applied im).classifier = imageClassifier im ∧
    (s.applied im).engine.claimTimeout = imageByte im 66 ∧ (s.applied im).port.attemptLimit = imageByte im 67 ∧
    (s.applied im).engine.prefetchDepth = (imageByte im 68).setWidth 2 ∧
    (s.applied im).supply.warnLevel = (imageByte im 69).setWidth 2 ∧
    (s.applied im).supply.latches.journal = s.supply.latches.journal := by
  obtain ⟨hlevel, hlatch⟩ := (s.applySettings im).setWarnLevel_supply (imageByte im 69)
  refine ⟨by simp [applied, applySettings], by simp [applied, applySettings, setLimits],
    by simp [applied, applySettings, setLimits], by simp [applied, applySettings, setLimits], hlevel, ?_⟩
  exact hlatch.trans (by simp)

/-- R133: the masks and the visibility are in force for everything that follows. -/
theorem applied_grows (s : State) (im : List Byte) :
    (s.applySettings im).faults.Grows (s.applied im).faults := setWarnLevel_grows _ _ (.refl _)

theorem applyImage_journal (s : State) (im : List Byte) : (s.applyImage im).journal = { s.journal with
    basePage := imageField im 61 2, sizePages := imageField im 63 2
    state := if imageField im 63 2 = 0 then s.journal.state else .unknown } := by
  by_cases h : 0 < imageField im 63 2
  · rw [applyImage_of_size h, setJournalState_journal, applied_journal, if_neg (by omega)]
  · rw [applyImage_of_no_size h, applied_journal, if_pos (by omega)]

theorem applyImage_settings (s : State) (im : List Byte) : (s.applyImage im).classifier = imageClassifier im ∧
    (s.applyImage im).engine.claimTimeout = imageByte im 66 ∧ (s.applyImage im).port.attemptLimit = imageByte im 67 ∧
    (s.applyImage im).engine.prefetchDepth = (imageByte im 68).setWidth 2 ∧
    (s.applyImage im).supply.warnLevel = (imageByte im 69).setWidth 2 ∧
    (s.applySettings im).faults.Grows (s.applyImage im).faults := by
  obtain ⟨hclassifier, hclaim, hlimit, hdepth, hlevel, -⟩ := s.applied_settings im
  by_cases h : 0 < imageField im 63 2
  · rw [applyImage_of_size h]
    simp [hclassifier, hclaim, hlimit, hdepth, hlevel, s.applied_grows im]
  · rw [applyImage_of_no_size h]
    exact ⟨hclassifier, hclaim, hlimit, hdepth, hlevel, s.applied_grows im⟩

/-- R152: with a journal, its state becomes UNKNOWN with event and latch. -/
theorem applyImage_moves {s : State} {im : List Byte} (h : 0 < imageField im 63 2) (hs : s.journal.state ≠ .unknown) :
    (s.applyImage im).recorded .journal ∧ (s.applyImage im).inhibited s .journal := by
  obtain ⟨-, -, -, -, -, hlatch⟩ := s.applied_settings im
  have hmoves : (s.applied im).journal.state ≠ .unknown := by rwa [applied_journal]
  rw [applyImage_of_size h]
  obtain ⟨hset, hinhibit⟩ := setJournalState_inhibited hmoves rfl
  exact ⟨setJournalState_recorded hmoves, hset, fun hclear => hinhibit (hlatch.trans hclear)⟩

end State

/-- Settles O32: what the image applies, by its bytes, which the end of SUPPLY_WAIT and the arbiter leave. -/
theorem aLoadedImageIsAppliedWhole : Obligations.ALoadedImageIsAppliedWhole := by
  intro image s hr hp hl
  refine ⟨s.endLoading image, exec_configurationLoad image hr hp, ?_⟩
  let im := bytesOf 75 image.toNat
  let w := s.setStartup { s.startup with loadResult := .loaded, shadow := [], phase := .supplyWait }
  have heq : s.endLoading image = (w.applyImage im).endWaitIfNormal.settle := by
    rw [State.endLoading_eq, State.judgedImage_of_loaded hl]
  obtain ⟨hclassifier, hclaim, hlimit, hdepth, hlevel, hmasks⟩ := w.applyImage_settings im
  have hgrows : (w.applyImage im).faults.Grows (s.endLoading image).faults := by
    rw [heq]
    exact State.settle_grows _ (State.endWaitIfNormal_grows _ (.refl _))
  obtain ⟨-, -, hmask, hvisible, -⟩ : (w.applySettings im).faults.Grows (s.endLoading image).faults := by
    rw [heq]
    exact State.settle_grows _ (State.endWaitIfNormal_grows _ hmasks)
  obtain ⟨hbackground, hregions, hfilter⟩ := imageClassifier_spelled hl
  obtain ⟨-, -, -, -, -, -, -, -, ⟨-, -, hsmallDepth, hsmallLevel⟩, hsmallMask, -⟩ := hl
  have hsize : imageField im 63 2 = imageAt image 63 2 := imageField_bytes image (by omega)
  have hbase : imageField im 61 2 = imageAt image 61 2 := imageField_bytes image (by omega)
  have hclass : (s.endLoading image).classifier = imageClassifier im := by rw [heq, ← hclassifier]; simp
  rw [hclass]
  refine ⟨hbackground, hregions, hfilter, ?_, ?_, ?_, ?_, ?_, ?_, ?_, ?_, fun hpos hs => ?_⟩
  · have hjournal := w.applyImage_journal im
    rw [hsize, hbase] at hjournal
    have hkept : (s.endLoading image).journal = (w.applyImage im).journal := by rw [heq]; simp
    exact hkept.trans hjournal
  · rw [heq, ← imageMode_bytes]
    simp [State.applyImage_startup, im]
  · have hset : (s.endLoading image).engine.claimTimeout = imageByte im 66 := by rw [heq]; simpa using hclaim
    rw [hset, imageByte_bytes image (by omega)]
  · have hset : (s.endLoading image).port.attemptLimit = imageByte im 67 := by rw [heq]; simpa using hlimit
    rw [hset, imageByte_bytes image (by omega)]
  · have hset : (s.endLoading image).engine.prefetchDepth = (imageByte im 68).setWidth 2 := by rw [heq]; simpa using hdepth
    rw [hset, imageByte_setWidth (by omega) hsmallDepth]
  · have hset : (s.endLoading image).supply.warnLevel = (imageByte im 69).setWidth 2 := by rw [heq]; simpa using hlevel
    rw [hset, imageByte_setWidth (by omega) hsmallLevel]
  · have hfield : imageField im 70 2 = imageAt image 70 2 := imageField_bytes image (by omega)
    have hset : (s.endLoading image).faults.mask = BitVec.ofNat 9 (imageAt image 70 2) := by rw [hmask, ← hfield]; rfl
    rw [hset, BitVec.toNat_ofNat, Nat.mod_eq_of_lt (by omega)]
  · have hset : (s.endLoading image).faults.visible = (imageByte im 72 == 1) := hvisible
    rw [hset]
    exact decide_eq_decide.mpr (imageByte_bytes_eq_iff image (by omega) 1)
  · obtain ⟨hrecorded, hinhibited⟩ := State.applyImage_moves (s := w) (im := im) (by omega) hs
    have hsupply : (s.endLoading image).supply = (w.applyImage im).supply := by rw [heq]; simp
    exact ⟨State.recorded_of_grows hgrows hrecorded, State.inhibited_of_grows hinhibited hsupply hgrows⟩

end Sys2Proof.Machine
end

section
/-! O33 (R112, R129, R136, R137, R138): the scan. -/

namespace Sys2Proof.Machine

namespace State

/-! ### What the procedure goes on with -/

theorem setProcedure_settle (s : State) (p : Procedure) :
    ((s.setProcedure p).settle).startup.procedure = p ∧ ((s.setProcedure p).settle).journal = s.journal ∧
      ((s.setProcedure p).settle).startup = { s.startup with procedure := p } := by
  simp [setProcedure]

/-! ### The end of the scan -/

/-- R137: the number of validated records is noted before the journal state moves. -/
def scanned (s : State) (n : Nat) : State := s.setJournal { s.journal with written := n }

theorem scanned_moved (s : State) (n : Nat) (x : JournalState) :
    ((s.scanned n).setJournalState x).journal = { s.journal with state := x, written := n } :=
  setJournalState_journal (s.scanned n) x

theorem scanned_recorded {s : State} (n : Nat) {x : JournalState} (h : s.journal.state ≠ x) :
    ((s.scanned n).setJournalState x).recorded .journal := setJournalState_recorded (s := s.scanned n) h

/-- R129, R130, R137: start-up ends with the journal in a new state. -/
theorem scanned_endStartup (s : State) (n : Nat) (x : JournalState) :
    let t := ((s.scanned n).setJournalState x).endStartup.settle
    t.journal = { s.journal with state := x, written := n } ∧ t.startupEnded ∧
      (s.journal.state ≠ x → t.recorded .journal) := by
  refine ⟨?_, endStartup_settle_startupEnded _, fun h => ?_⟩
  · rw [← scanned_moved]
    simp
  · exact recorded_of_grows (settle_grows _ (endStartup_grows _ (.refl _))) (scanned_recorded n h)

/-- R138: the rollback that start-up mode AUTO goes on to. -/
def scanRolls (s : State) (n : Nat) : State :=
  let pending := (s.scanned n).setJournalState .pending
  ((pending.setStartup { pending.startup with phase := .rolling }).setJournalState .rolling).beginRollback

theorem scanRolls_eq (s : State) (n : Nat) : (s.scanRolls n).journal = { s.journal with state := .rolling, written := n } ∧
    (s.scanRolls n).startup =
      { s.startup with phase := .rolling, skipped := 0, rollPartial := false, procedure := rollFrom n } ∧
    (s.scanRolls n).port = s.port ∧ (s.scanRolls n).recorded .journal := by
  let pending := (s.scanned n).setJournalState .pending
  have hpending : pending.journal = { s.journal with state := .pending, written := n } := s.scanned_moved n .pending
  let u := pending.setStartup { pending.startup with phase := .rolling }
  have hjournal : (u.setJournalState .rolling).journal = { s.journal with state := .rolling, written := n } := by
    rw [setJournalState_journal, show u.journal = pending.journal from rfl, hpending]
  have hmoves : u.journal.state ≠ .rolling := by
    rw [show u.journal = pending.journal from rfl, hpending]
    simp
  have hwritten : (u.setJournalState .rolling).journal.written = n := by rw [hjournal]
  have heq : s.scanRolls n = (u.setJournalState .rolling).beginRollback := rfl
  refine ⟨hjournal, ?_, ?_, setJournalState_recorded hmoves⟩
  · rw [heq, beginRollback, hwritten]
    simp [u, pending, scanned, setStartup]
  · rw [heq, beginRollback]
    simp [u, pending, scanned]

theorem scanEnds_of_none (s : State) : s.scanEnds 0 = ((s.scanned 0).setJournalState .active).endStartup := by
  simp only [scanEnds, if_true]
  rfl

theorem scanEnds_of_hold {s : State} {n : Nat} (hn : 0 < n) (hm : s.startup.mode = .hold) :
    s.scanEnds n = ((s.scanned n).setJournalState .pending).endStartup := by
  refine (if_neg (by omega)).trans (if_neg ?_)
  simp [hm]

theorem scanEnds_of_auto {s : State} {n : Nat} (hn : 0 < n) (hm : s.startup.mode = .auto) : s.scanEnds n = s.scanRolls n := by
  refine (if_neg (by omega)).trans (if_pos ?_)
  simp [hm]

/-- R137, R138: the end of the scan, with the grant that follows. -/
theorem scanEnds_scanEnded {s : State} (hop : s.port.op = none) (n : Nat) : (s.scanEnds n).settle.scanEnded s n := by
  refine ⟨fun hn => ?_, fun hn hm => ?_, fun hn hm => ?_⟩
  · subst hn
    rw [scanEnds_of_none]
    exact s.scanned_endStartup 0 .active
  · rw [scanEnds_of_hold hn hm]
    exact s.scanned_endStartup n .pending
  · rw [scanEnds_of_auto hn hm]
    obtain ⟨hjournal, hstartup, hport, hrecorded⟩ := s.scanRolls_eq n
    have hstays : (s.scanRolls n).settle.startup = (s.scanRolls n).startup := by simp
    refine ⟨?_, ?_, ?_, ?_, ?_, recorded_of_grows (settle_grows _ (.refl _)) hrecorded,
      settle_rollsOnAtOnce (by rw [hport]; exact hop) (by rw [hstartup])⟩
    · exact (show (s.scanRolls n).settle.journal = (s.scanRolls n).journal by simp).trans hjournal
    all_goals rw [hstays, hstartup]

/-! ### A scan read that succeeds -/

/-- R136: a valid header gives its epoch, and the scan comes to record 0. -/
theorem scanSucceeded_of_header {s : State} {data : Line} (hp : s.startup.procedure = .scanHeader)
    (hsize : 0 < s.journal.sizePages) (h : headerValid s.journal.sizePages data = true) :
    s.scanSucceeded data = (s.setJournal { s.journal with epoch := headerEpoch data }).setProcedure (.scanRecord 0) := by
  have hcapacity : ¬ 0 = (s.setJournal { s.journal with epoch := headerEpoch data }).journal.capacity := by
    simp only [Journal.capacity, setJournal]
    omega
  simp only [scanSucceeded, hp, if_pos h, scanTo, if_neg hcapacity]

theorem scanSucceeded_of_bad_header {s : State} {data : Line} (hp : s.startup.procedure = .scanHeader)
    (h : headerValid s.journal.sizePages data = false) : s.scanSucceeded data = s.endStartup := by
  simp [scanSucceeded, hp, h]

/-- R137: a record header that names record k leads to its image. -/
theorem scanSucceeded_of_record {s : State} {data : Line} {k : Nat} (hp : s.startup.procedure = .scanRecord k)
    (h : recordNamed s.journal.epoch k data = true) : s.scanSucceeded data = s.setProcedure (.scanImage k data) := by
  simp [scanSucceeded, hp, h]

theorem scanSucceeded_of_bad_record {s : State} {data : Line} {k : Nat} (hp : s.startup.procedure = .scanRecord k)
    (h : recordNamed s.journal.epoch k data = false) : s.scanSucceeded data = s.scanEnds k := by
  simp [scanSucceeded, hp, h]

/-- R137: an image over which the CRC checks leads to record k + 1, and from the last record to the end. -/
theorem scanSucceeded_of_image {s : State} {data header : Line} {k : Nat} (hp : s.startup.procedure = .scanImage k header)
    (h : recordChecks header data = true) (hk : k + 1 ≠ s.journal.capacity) :
    s.scanSucceeded data = s.setProcedure (.scanRecord (k + 1)) := by
  simp [scanSucceeded, hp, h, scanTo, hk]

theorem scanSucceeded_of_last {s : State} {data header : Line} {k : Nat} (hp : s.startup.procedure = .scanImage k header)
    (h : recordChecks header data = true) (hk : k + 1 = s.journal.capacity) : s.scanSucceeded data = s.scanEnds (k + 1) := by
  simp [scanSucceeded, hp, h, scanTo, hk]

theorem scanSucceeded_of_bad_image {s : State} {data header : Line} {k : Nat}
    (hp : s.startup.procedure = .scanImage k header) (h : recordChecks header data = false) :
    s.scanSucceeded data = s.scanEnds k := by
  simp [scanSucceeded, hp, h]

/-! ### A scan read that fails -/

theorem scanFailed_of_header {s : State} (hp : s.startup.procedure = .scanHeader) : s.scanFailed = s.endStartup := by
  simp only [scanFailed, hp]

theorem scanFailed_of_record {s : State} {k : Nat}
    (hp : s.startup.procedure = .scanRecord k ∨ ∃ header, s.startup.procedure = .scanImage k header) :
    s.scanFailed = ((s.scanned k).setJournalState .failed).endStartup := by
  obtain hp | ⟨header, hp⟩ := hp <;> simp only [scanFailed, hp] <;> rfl

theorem endStartup_of_failed {s : State} (h : s.journal.state = .failed) : s.endStartup.startup.portState = .hold := by
  rw [endStartup_startup, if_neg]
  simp [opensAtEnd_iff, h]

end State

/-! ### The command -/

/-- R112, R119: the scan goes on with a line of the area. -/
theorem scanReads {u : State} {p : Procedure} {i line : Nat} (hop : u.port.op = none)
    (h : (u.setProcedure p).procedureOp = some (u.areaRead .scan i)) (hline : line = u.journal.basePage * 64 + i) :
    (u.setProcedure p).settle.startup.procedure = p ∧ (u.setProcedure p).settle.journal = u.journal ∧
      (u.supply.state ≠ .fail → (u.setProcedure p).settle.justIssued .lineRead line .scan (some (.journal, 9))) := by
  obtain ⟨hprocedure, hjournal, -⟩ := u.setProcedure_settle p
  have hlimit : (u.setProcedure p).settle.port.attemptLimit = u.port.attemptLimit := by simp [State.setProcedure]
  subst hline
  refine ⟨hprocedure, hjournal, fun hf => justIssued_of_op (by simp) ?_⟩
  rw [hlimit]
  exact State.settle_of_procedure (s := u.setProcedure p) hop hf h

/-- Settles O33: each procedure's success and failure by what it goes on with or ends in. -/
theorem theScanReadsTheJournal : Obligations.TheScanReadsTheJournal := by
  intro c s op data hop ho
  refine ⟨fun h => ?_, fun h => ?_⟩
  · let u : State := s.freed op
    have hfree : u.port.op = none := rfl
    have hexec : exec c s = .next (u.scanSucceeded data).settle := by rw [exec_freed hop h, State.ownerSucceeded, ho]
    refine ⟨_, hexec, by simp [u], fun hp hsize hv => ?_, fun hp hv => ?_, fun k hp hv => ?_, fun k hp hv => ?_,
      fun k header hp hv hk => ?_, fun k header hp hv hk => ?_, fun k header hp hv => ?_⟩
    · rw [State.scanSucceeded_of_header (s := u) hp hsize hv]
      exact scanReads (u := u.setJournal { u.journal with epoch := headerEpoch data }) hfree rfl rfl
    · rw [State.scanSucceeded_of_bad_header (s := u) hp hv]
      exact ⟨State.endStartup_settle_startupEnded u, by simp [u], by simp [u]⟩
    · rw [State.scanSucceeded_of_record (s := u) hp hv]
      exact scanReads hfree rfl (Nat.add_assoc _ _ _)
    · rw [State.scanSucceeded_of_bad_record (s := u) hp hv]
      exact State.scanEnds_scanEnded hfree k
    · rw [State.scanSucceeded_of_image (s := u) hp hv (Nat.ne_of_lt hk)]
      exact scanReads hfree rfl (Nat.add_assoc _ _ _)
    · rw [State.scanSucceeded_of_last (s := u) hp hv hk]
      exact State.scanEnds_scanEnded hfree (k + 1)
    · rw [State.scanSucceeded_of_bad_image (s := u) hp hv]
      exact State.scanEnds_scanEnded hfree k
  · let u : State := s.failing op
    obtain ⟨-, -, -, -, -, hjournal, -, hstartup, -⟩ := s.failing_frame op
    have hexec : exec c s = .next u.scanFailed.settle := by rw [exec_failing hop h, State.ownerFailed, ho]
    refine ⟨_, hexec, by simp [u], fun hp => ?_, fun k hp => ?_⟩
    · rw [State.scanFailed_of_header (s := u) (by rw [hstartup]; exact hp)]
      exact ⟨State.endStartup_settle_startupEnded u, by simp [u]⟩
    · rw [State.scanFailed_of_record (s := u) (k := k) (by rw [hstartup]; exact hp)]
      obtain ⟨hmoved, hended, hrecorded⟩ := u.scanned_endStartup k .failed
      rw [show u.journal = s.journal from hjournal] at hmoved hrecorded
      refine ⟨hended, ?_, hmoved, hrecorded⟩
      have hfailed : ((u.scanned k).setJournalState .failed).journal.state = .failed := by rw [State.scanned_moved]
      simpa using State.endStartup_of_failed hfailed

end Sys2Proof.Machine
end

section
/-! O34 (R112, R129, R130, R141, R172): the rollback procedure. -/

namespace Sys2Proof.Machine

namespace State

/-! ### A record is skipped, or the procedure goes on -/

/-- R141: record k is skipped and counted, and the procedure goes on at once. -/
theorem skipRecord_settle {s : State} (hop : s.port.op = none) (k : Nat) :
    (s.skipRecord k).settle.rollsOnAtOnce k ∧ (s.skipRecord k).settle.startup.skipped = s.startup.skipped + 1 ∧
      (s.skipRecord k).settle.startup.rollPartial = true := by
  refine ⟨settle_rollsOnAtOnce hop rfl, ?_, ?_⟩ <;> simp [skipRecord]

theorem rollSucceeded_of_record {s : State} {data : Line} {k : Nat} (hp : s.startup.procedure = .rollRecord k)
    (h : recordNamed s.journal.epoch k data = true) : s.rollSucceeded data = s.setProcedure (.rollImage k data) := by
  simp [rollSucceeded, hp, h]

theorem rollSucceeded_of_bad_record {s : State} {data : Line} {k : Nat} (hp : s.startup.procedure = .rollRecord k)
    (h : recordNamed s.journal.epoch k data = false) : s.rollSucceeded data = s.skipRecord k := by
  simp [rollSucceeded, hp, h]

/-- R141: an image that checks, for a target outside the area, leads to its write. -/
theorem rollSucceeded_of_image {s : State} {data header : Line} {k : Nat} (hp : s.startup.procedure = .rollImage k header)
    (h : recordChecks header data = true) (ha : s.journal.inArea (recordTarget header) = false) :
    s.rollSucceeded data = s.setProcedure (.rollTarget k (recordTarget header) data) := by
  simp [rollSucceeded, hp, h, ha]

theorem rollSucceeded_of_bad_image {s : State} {data header : Line} {k : Nat}
    (hp : s.startup.procedure = .rollImage k header)
    (h : recordChecks header data = false ∨ s.journal.inArea (recordTarget header) = true) :
    s.rollSucceeded data = s.skipRecord k := by
  obtain h | h := h <;> simp [rollSucceeded, hp, h]

theorem rollSucceeded_of_target {s : State} {data image : Line} {k target : Nat}
    (hp : s.startup.procedure = .rollTarget k target image) : s.rollSucceeded data = s.setProcedure (rollFrom k) := by
  simp only [rollSucceeded, hp]

theorem rollSucceeded_of_header {s : State} (data : Line) (hp : s.startup.procedure = .rollHeader) :
    s.rollSucceeded data = s.rollHeaderSucceeded := by
  simp only [rollSucceeded, hp]

/-- R141: before the header write the procedure leaves the journal as it is. -/
theorem rollSucceeded_journal {s : State} {data : Line} (h : s.startup.procedure ≠ .rollHeader) :
    (s.rollSucceeded data).journal = s.journal := by
  cases hp : s.startup.procedure with
  | rollRecord k => simp only [rollSucceeded, hp]; split <;> rfl
  | rollImage k header => simp only [rollSucceeded, hp]; split <;> rfl
  | rollTarget k target image => simp only [rollSucceeded, hp]; rfl
  | rollHeader => exact absurd hp h
  | idle => simp only [rollSucceeded, hp]
  | scanHeader => simp only [rollSucceeded, hp]
  | scanRecord k => simp only [rollSucceeded, hp]
  | scanImage k header => simp only [rollSucceeded, hp]

theorem rollFailed_of_record {s : State} {k : Nat}
    (hp : s.startup.procedure = .rollRecord k ∨ ∃ header, s.startup.procedure = .rollImage k header) :
    s.rollFailed = s.skipRecord k := by
  obtain hp | ⟨header, hp⟩ := hp <;> simp only [rollFailed, hp]

theorem rollFailed_of_target {s : State} {image : Line} {k target : Nat}
    (hp : s.startup.procedure = .rollTarget k target image) :
    s.rollFailed = s.setStartup { s.startup with rollPartial := true, procedure := rollFrom k } := by
  simp only [rollFailed, hp]

theorem rollFailed_of_header {s : State} (hp : s.startup.procedure = .rollHeader) :
    s.rollFailed = (s.setJournalState .failed).rollbackEnds .failed := by
  simp only [rollFailed, hp]

theorem rollFailed_journal {s : State} (h : s.startup.procedure ≠ .rollHeader) : s.rollFailed.journal = s.journal := by
  cases hp : s.startup.procedure with
  | rollHeader => exact absurd hp h
  | rollRecord k => simp only [rollFailed, hp]; rfl
  | rollImage k header => simp only [rollFailed, hp]; rfl
  | rollTarget k target image => simp only [rollFailed, hp]; rfl
  | idle => simp only [rollFailed, hp]
  | scanHeader => simp only [rollFailed, hp]
  | scanRecord k => simp only [rollFailed, hp]
  | scanImage k header => simp only [rollFailed, hp]

/-! ### The end of the procedure -/

/-- R103, R138, R141, R172: what the end of the procedure with a result leaves, of a command rollback and of one at start-up. -/
def RollbackEnded (t s : State) (r : LongResult) : Prop :=
  (∀ noted, s.mgmt.longCmd = some (.rollback noted) →
    t.mgmt.lastLong = r ∧ t.mgmt.longCmd = none ∧ t.startup.portState = noted ∧ t.startup.procedure = .idle ∧
      t.startup.phase = s.startup.phase ∧ t.recorded .longDone) ∧
  (s.mgmt.longCmd = none → t.startup.rollbackResult = r ∧ t.startup.loadResult = s.startup.loadResult ∧
    t.mgmt.longCmd = none ∧ t.mgmt.lastLong = s.mgmt.lastLong ∧ t.startupEnded)

theorem rollbackEnds_ended (s : State) (r : LongResult) : (s.rollbackEnds r).settle.RollbackEnded s r := by
  refine ⟨fun noted h => ?_, fun h => ?_⟩
  · have heq : s.rollbackEnds r = (s.setStartup { s.startup with procedure := .idle, portState := noted }).endLong r := by
      simp only [rollbackEnds, h]
    rw [heq]
    have hrecorded := endLong_recorded (s.setStartup { s.startup with procedure := .idle, portState := noted }) r
    refine ⟨?_, ?_, ?_, ?_, ?_, recorded_of_grows (settle_grows _ (.refl _)) hrecorded⟩ <;> simp [endLong]
  · have heq : s.rollbackEnds r = (s.setStartup { s.startup with rollbackResult := r }).endStartup := by
      simp only [rollbackEnds, h]
    rw [heq]
    refine ⟨?_, ?_, ?_, ?_, endStartup_settle_startupEnded _⟩ <;> simp [endStartup_startup, h]

theorem RollbackEnded.of_eq {s u t : State} {r : LongResult} (h : t.RollbackEnded u r) (hm : u.mgmt = s.mgmt)
    (hs : u.startup = s.startup) : t.RollbackEnded s r := by
  unfold RollbackEnded at h ⊢
  rwa [hm, hs] at h

/-- R141: the header write has ended: the journal moves, and the procedure reports. -/
theorem moved_rollbackEnds (s : State) (x : JournalState) (r : LongResult) :
    let t := ((s.setJournalState x).rollbackEnds r).settle
    t.journal = { s.journal with state := x } ∧ (s.journal.state ≠ x → t.recorded .journal) ∧ t.RollbackEnded s r := by
  refine ⟨?_, fun h => ?_, ?_⟩
  · rw [← setJournalState_journal]
    simp
  · exact recorded_of_grows (settle_grows _ (rollbackEnds_grows _ _ (.refl _))) (setJournalState_recorded h)
  · exact (rollbackEnds_ended (s.setJournalState x) r).of_eq (by simp) (by simp)

end State

/-- Settles O34: each procedure's success and failure by what it goes on with, and the header write by its end. -/
theorem theRollbackRestoresTheRecords : Obligations.TheRollbackRestoresTheRecords := by
  intro c s op data hop ho skips ends
  refine ⟨fun h => ?_, fun h => ?_⟩
  · let u : State := s.freed op
    have hfree : u.port.op = none := rfl
    have hexec : exec c s = .next (u.rollSucceeded data).settle := by rw [exec_freed hop h, State.ownerSucceeded, ho]
    refine ⟨_, hexec, fun k hp hv => ?_, fun k hp hv => ?_, fun k header hp hv ha => ?_, fun k header hp hv => ?_,
      fun k target image hp => ?_, fun hp => ?_, fun hp => ?_⟩
    · rw [State.rollSucceeded_of_record (s := u) hp hv]
      obtain ⟨hprocedure, hjournal, hstartup⟩ := u.setProcedure_settle (.rollImage k data)
      refine ⟨hprocedure, by rw [hstartup]; rfl, fun hf => ?_⟩
      have hissued := State.settle_procedureIssued (s := u.setProcedure (.rollImage k data)) hfree hf
      rwa [State.procedureIssued, hprocedure, hjournal] at hissued
    · rw [State.rollSucceeded_of_bad_record (s := u) hp hv]
      exact State.skipRecord_settle hfree k
    · rw [State.rollSucceeded_of_image (s := u) hp hv ha]
      obtain ⟨hprocedure, -, hstartup⟩ := u.setProcedure_settle (.rollTarget k (recordTarget header) data)
      refine ⟨hprocedure, by rw [hstartup]; rfl, fun hf => ?_⟩
      have hissued := State.settle_procedureIssued
        (s := u.setProcedure (.rollTarget k (recordTarget header) data)) hfree hf
      rwa [State.procedureIssued, hprocedure] at hissued
    · rw [State.rollSucceeded_of_bad_image (s := u) hp hv]
      exact State.skipRecord_settle hfree k
    · rw [State.rollSucceeded_of_target (s := u) hp]
      obtain ⟨-, -, hstartup⟩ := u.setProcedure_settle (rollFrom k)
      exact ⟨State.settle_rollsOnAtOnce hfree rfl, by rw [hstartup]; rfl, by rw [hstartup]; rfl⟩
    · have hjournal := State.rollSucceeded_journal (s := u) (data := data) hp
      exact (show (u.rollSucceeded data).settle.journal = (u.rollSucceeded data).journal by simp).trans hjournal
    · rw [State.rollSucceeded_of_header (s := u) data hp]
      exact State.moved_rollbackEnds (u.setJournal (u.journal.clear (nextEpoch u.journal.epoch))) .active
        (if u.startup.rollPartial then .partly else .ok)
  · let u : State := s.failing op
    obtain ⟨-, -, -, -, -, hjournal, -, hstartup, -, hmgmt, hfree⟩ := s.failing_frame op
    have hexec : exec c s = .next u.rollFailed.settle := by rw [exec_failing hop h, State.ownerFailed, ho]
    have hprocedure : u.startup.procedure = s.startup.procedure := by rw [hstartup]
    rw [← hprocedure]
    refine ⟨_, hexec, fun k hp => ?_, fun k target image hp => ?_, fun hp => ?_, fun hp => ?_⟩
    · rw [State.rollFailed_of_record hp]
      obtain ⟨hrolls, hskipped, hpartial⟩ := State.skipRecord_settle hfree k
      exact ⟨hrolls, by rw [hskipped, hstartup], hpartial⟩
    · rw [State.rollFailed_of_target hp]
      refine ⟨State.settle_rollsOnAtOnce hfree rfl, ?_, ?_⟩ <;> simp [u]
    · have hkept := State.rollFailed_journal hp
      simpa [u] using hkept
    · rw [State.rollFailed_of_header hp]
      obtain ⟨hmoved, hrecorded, hended⟩ := u.moved_rollbackEnds .failed .failed
      rw [show u.journal = s.journal from hjournal] at hmoved hrecorded
      exact ⟨hmoved, hrecorded, hended.of_eq hmgmt hstartup⟩

end Sys2Proof.Machine
end

section
/-! What the arbiter grants on a free port once the drains have begun (R62, R102, R112, R118). -/

namespace Sys2Proof.Machine

namespace State

/-! ### What the write class offers -/

theorem writeOffer_of_init {s : State} (h : s.mgmt.longCmd = some .initJournal) :
    s.writeOffer = some (s.headerOp .initHeader s.journal.epoch) :=
  if_pos (by simp [initOutstanding, h])

theorem writeOffer_of_not_init {s : State} (h : s.mgmt.longCmd ≠ some .initJournal) :
    s.writeOffer = s.drain.bind fun d => s.drainOp d := by
  have hno : s.initOutstanding = false := by simpa [initOutstanding] using h
  simp only [writeOffer, hno, Bool.false_eq_true, if_false]
  cases s.drain <;> rfl

/-- R39: a drain whose entry stands has an operation, and so has that of a close marker. -/
theorem drainOp_of_stands {s : State} {d : Drain} (h : d.stage = .closeHeader ∨ (s.itemBody d.item).isSome = true) :
    ∃ o, s.drainOp d = some o := by
  rcases h with h | h
  · exact ⟨_, by simp only [drainOp, h]; rfl⟩
  · obtain ⟨b, hb⟩ := Option.isSome_iff_exists.mp h
    cases hs : d.stage <;> exact ⟨_, by simp only [drainOp, hs, hb]; rfl⟩

/-- R118: a grant takes no body from an item. -/
theorem itemBody_of_arbitrate {s : State} {item : DrainItem} (h : (s.arbitrate.itemBody item).isSome = true) :
    (s.itemBody item).isSome = true := by
  cases item with
  | postedWrite => simpa [itemBody] using h
  | closeMarker => simp [itemBody] at h
  | removed b => rfl
  | delayedWrite p =>
    obtain ⟨f, hf⟩ := Option.isSome_iff_exists.mp h
    simp only [itemBody, Option.map_eq_some_iff] at hf
    obtain ⟨e, he, -⟩ := hf
    obtain ⟨e0, he0, -⟩ := arbitrate_entry s p e he
    simp [itemBody, he0]

/-! ### What the read class grants -/

/-- R118: the read class offers nothing. -/
def ReadsNothing (s : State) : Prop := s.engine.prefetch = [] ∧
  ∀ (p : Fin 4) (e : DelayedEntry), s.engine.table[p] = some e → e.kind = .read → e.state ≠ .waiting

theorem beginDrains_readsNothing (n : Nat) {s : State} (h : s.ReadsNothing) : (State.beginDrains n s).ReadsNothing := by
  obtain ⟨hprefetch, hnone⟩ := h
  refine ⟨(beginDrains_slots n s).2.1.trans hprefetch, fun p f hf hk => ?_⟩
  obtain ⟨e, he, -, -, -, hread⟩ := beginDrains_entry n hf
  cases hread hk
  exact hnone p f he hk

/-- R62, R69, R71, R112: the demand fill of an entry, with the slot it takes. -/
theorem grantDemand_eq {s : State} {p : Fin 4} {e : DelayedEntry} {i : Fin 8} (he : s.engine.table[p] = some e)
    (hi : s.engine.slotToTake = some i) :
    (s.grantDemand p).justIssued .lineRead e.body.line .demandFill (some (.read, e.body.cls.region.castSucc)) ∧
      (s.grantDemand p).port.lastClass = .read ∧
      (s.grantDemand p).engine.table = s.engine.table.set p (some { e with state := .issued, slot := some i }) ∧
      (s.grantDemand p).engine.slots = s.engine.slots.set i (.filling e.body.line false (some p)) := by
  have heq : s.grantDemand p =
      let s1 := (s.setEntry p (some { e with state := .issued, slot := some i })).setSlot i
        (.filling e.body.line false (some p))
      ((s1.setEngine { s1.engine with prefetch := s1.prefetchFor e.body }).grantedTo .read).issue
        (readOp .demandFill e.body.line s.port.attemptLimit.toNat (some .read) e.body.cls.region.castSucc) := by
    simp only [grantDemand, he, hi]
  rw [heq]
  refine ⟨⟨_, rfl, rfl, rfl, rfl, rfl, rfl, rfl, rfl, rfl, fun x hx => ?_⟩, rfl, rfl, rfl⟩
  cases hx
  rfl

/-! ### The grant that follows -/

section
variable {s : State} (hop : s.port.op = none) (hf : s.supply.state ≠ .fail) (hidle : s.startup.procedure = .idle)
include hop hf hidle

theorem settle_of_offer {op : Operation} (ho : (State.beginDrains longestOrder s).writeOffer = some op)
    (hr : s.port.lastClass = .read ∨ s.ReadsNothing) :
    s.settle.port.op = some op ∧ s.settle.port.lastClass = .write := by
  refine arbitrate_of_offer (by simpa using hop) (by simpa using hf) (by simpa using hidle) ho ?_
  exact hr.imp (by simp) (beginDrains_readsNothing longestOrder)

/-- R102: the header write of INIT JOURNAL. -/
theorem settle_initiates (hl : s.mgmt.longCmd = some .initJournal) (hr : s.port.lastClass = .read ∨ s.ReadsNothing) :
    s.settle.justWrites (s.journal.basePage * 64) (headerLine s.journal.epoch s.journal.sizePages) .initHeader .journal := by
  have hoffer := writeOffer_of_init (s := State.beginDrains longestOrder s) (by simpa using hl)
  refine justWrites_of_op ((settle_of_offer hop hf hidle hoffer hr).1.trans ?_)
  simp [headerOp, Journal.areaLine]

/-- R39, R118: the operation that the head's drain has reached. -/
theorem settle_drains (hl : s.mgmt.longCmd ≠ some .initJournal) (hr : s.port.lastClass = .read ∨ s.ReadsNothing) {d : Drain}
    (hd : s.settle.drain = some d) (hb : d.stage = .closeHeader ∨ (s.settle.itemBody d.item).isSome = true) :
    s.settle.port.lastClass = .write ∧ ∃ o, s.settle.port.op = some o ∧ o.owner = .head ∧ s.settle.carriesDrain o := by
  have hbegun : (State.beginDrains longestOrder s).drain = some d := by simpa [settle] using hd
  obtain ⟨o, ho⟩ := drainOp_of_stands (s := State.beginDrains longestOrder s) (hb.imp id itemBody_of_arbitrate)
  have hoffer : (State.beginDrains longestOrder s).writeOffer = some o := by
    rw [writeOffer_of_not_init (by simpa using hl), hbegun]
    exact ho
  obtain ⟨hgranted, hclass⟩ := settle_of_offer hop hf hidle hoffer hr
  exact ⟨hclass, o, hgranted, drainOp_owner ho, settle_head hop hgranted (drainOp_owner ho)⟩

/-- R62, R118: the oldest ready WAITING read entry is granted, where its class has the turn or no write is offered. -/
theorem settle_of_reader {p : Fin 4} {e : DelayedEntry} (ho : s.oldestReader p e)
    (ht : s.port.lastClass = .write ∨ (s.settle.drain = none ∧ s.mgmt.longCmd ≠ some .initJournal)) :
    s.settle = (State.beginDrains longestOrder s).grantDemand p := by
  have hready := oldestReadyRead_of_oldestReader (beginDrains_oldestReader longestOrder ho)
  refine arbitrate_of_reader (by simpa using hop) (by simpa using hf) (by simpa using hidle) hready ?_
  refine ht.imp (by simp) fun ⟨hd, hl⟩ => ?_
  have hbegun : (State.beginDrains longestOrder s).drain = none := by simpa [settle] using hd
  rw [writeOffer_of_not_init (by simpa using hl), hbegun]
  rfl

/-- R62, R69: with its demand fill. -/
theorem settle_reads_at {p : Fin 4} {e : DelayedEntry} {i : Fin 8} (ho : s.oldestReader p e)
    (hi : s.engine.slotToTake = some i)
    (ht : s.port.lastClass = .write ∨ (s.settle.drain = none ∧ s.mgmt.longCmd ≠ some .initJournal)) :
    s.settle.justIssued .lineRead e.body.line .demandFill (some (.read, e.body.cls.region.castSucc)) ∧
      s.settle.port.lastClass = .read ∧ s.settle.engine.table[p] = some { e with state := .issued, slot := some i } ∧
      s.settle.engine.slots[i] = .filling e.body.line false (some p) := by
  obtain ⟨⟨he, -⟩, -⟩ := beginDrains_oldestReader longestOrder ho
  have hslots := (beginDrains_slots longestOrder s).1
  have htake : (State.beginDrains longestOrder s).engine.slotToTake = some i := by
    rw [← hi]
    simp only [Engine.slotToTake, hslots]
  obtain ⟨hissued, hclass, htable, hslot⟩ := grantDemand_eq he htake
  rw [settle_of_reader hop hf hidle ho ht]
  exact ⟨hissued, hclass, by rw [htable, get_set, if_pos rfl], by rw [hslot]; simp⟩

theorem settle_reads {p : Fin 4} {e : DelayedEntry} (ho : s.oldestReader p e)
    (hfree : ∃ j : Fin 8, s.engine.slots[j] = .free)
    (ht : s.port.lastClass = .write ∨ (s.settle.drain = none ∧ s.mgmt.longCmd ≠ some .initJournal)) :
    s.settle.justIssued .lineRead e.body.line .demandFill (some (.read, e.body.cls.region.castSucc)) ∧
      s.settle.port.lastClass = .read ∧ ∃ j, s.settle.engine.table[p] = some { e with state := .issued, slot := some j } ∧
        s.settle.engine.slots[j] = .filling e.body.line false (some p) := by
  obtain ⟨i, hi⟩ := slotToTake_of_free hfree
  obtain ⟨hissued, hclass, htable, hslot⟩ := settle_reads_at hop hf hidle ho hi ht
  exact ⟨hissued, hclass, i, htable, hslot⟩

end

end State

end Sys2Proof.Machine
end

section
/-! O57 (R39, R48, R62, R112 to R120, R129, R135): the supply leaves FAIL, or goes from WARN to NORMAL. -/

namespace Sys2Proof.Machine

namespace State

/-! ### The supply state has moved -/

/-- R145: a filter has run out, and its state has been entered. -/
def entered (s : State) (f : SupplyFilter) (st : SupplyState) : State := (s.setSupply (s.supply.expire f)).enterSupply st

@[simp] theorem entered_frame (s : State) (f : SupplyFilter) (st : SupplyState) :
    (s.entered f st).queue = s.queue ∧ (s.entered f st).engine = s.engine ∧ (s.entered f st).journal = s.journal ∧
    (s.entered f st).drain = s.drain ∧ (s.entered f st).port = s.port ∧ (s.entered f st).startup = s.startup ∧
    (s.entered f st).mgmt = s.mgmt ∧ (s.entered f st).supply.state = st := by
  simp [entered]

theorem enterSupply_counters (s : State) (st : SupplyState) : (s.enterSupply st).faults.counters = s.faults.counters := by
  rw [enterSupply_eq]
  cases st with
  | normal => rfl
  | warn =>
    simp only
    split
    · rfl
    · exact raise_counters _ _
  | fail =>
    simp only
    split
    · rfl
    · exact raise_counters _ _

@[simp] theorem entered_counters (s : State) (f : SupplyFilter) (st : SupplyState) :
    (s.entered f st).faults.counters = s.faults.counters := enterSupply_counters _ _

theorem exec_expiry {s : State} {f : SupplyFilter} (ht : (s.supply.timers.get f).isSome = true)
    (hg : filterGoal f s.supply.state ≠ s.supply.state) : exec (.supplyFilterExpiry f) s =
      .next ((s.setSupply (s.supply.expire f)).moveSupply (filterGoal f s.supply.state)) := by
  rw [exec_eq_after]
  simp only [State.after, if_pos ht, expireFilter_eq, if_neg hg]

/-- R120, R135: what follows where FAIL is left. -/
theorem exec_leavesFail {s : State} {f : SupplyFilter} {goal : SupplyState} (ht : (s.supply.timers.get f).isSome = true)
    (hs : s.supply.state = .fail) (hg : filterGoal f .fail = goal) (hne : goal ≠ .fail) :
    exec (.supplyFilterExpiry f) s = .next (s.entered f goal).endWaitIfNormal.releaseHeld.settle := by
  rw [exec_expiry ht (by rw [hs, hg]; exact hne), hs, hg]
  exact congrArg Host.Outcome.next (if_pos ⟨(expire_keeps _ f).1.trans hs, hne⟩)

/-- R135: what follows where WARN goes to NORMAL. -/
theorem exec_leavesWarn {s : State} (ht : (s.supply.timers.get .notBelowWarn).isSome = true) (hs : s.supply.state = .warn) :
    exec (.supplyFilterExpiry .notBelowWarn) s = .next (s.entered .notBelowWarn .normal).endWaitIfNormal.settle := by
  have hgoal : filterGoal .notBelowWarn s.supply.state = .normal := rfl
  rw [exec_expiry ht (by rw [hgoal, hs]; simp), hgoal]
  refine congrArg Host.Outcome.next (if_neg fun hf => ?_)
  have hstate : (s.supply.expire .notBelowWarn).state = .fail := hf.1
  rw [(expire_keeps _ _).1, hs] at hstate
  cases hstate

/-! ### A HELD operation goes on -/

theorem endWaitIfNormal_counters (s : State) : s.endWaitIfNormal.faults.counters = s.faults.counters := by
  simp only [endWaitIfNormal]
  split
  · simp
  · rfl

theorem releaseHeld_of_held {s : State} {op : Operation} (hop : s.port.op = some op) (hp : op.phase = .held) :
    s.releaseHeld = s.reissue op := by
  simp only [releaseHeld, hop, if_pos hp]

theorem releaseHeld_of_not_held {s : State} {op : Operation} (hop : s.port.op = some op) (hp : op.phase ≠ .held) :
    s.releaseHeld = s := by
  simp only [releaseHeld, hop, if_neg hp]

theorem releaseHeld_of_free {s : State} (hop : s.port.op = none) : s.releaseHeld = s := by
  simp only [releaseHeld, hop]

/-- R113, R115, R116, R120: the reissue of what an operation waited for. -/
theorem reissue_eq (s : State) (op : Operation) :
    (s.reissue op).port.op = some { op with
      phase := if op.next = .verifyAgain ∨ op.next = .firstVerify then .verifying else .awaiting
      attempts := if op.next = .firstVerify then op.attempts else op.attempts + 1 } ∧
    (s.reissue op).faults.counters = (match op.next with
      | .attemptAgain => (s.count .memRetry).faults.counters
      | .verifyAgain => (s.count .memRetry).faults.counters
      | .writeAfterMismatch => (s.count .verifyMismatch).faults.counters
      | .firstVerify => s.faults.counters) := by
  have hcount (o : Operation) (k : CounterKind) : ((s.issue o).count k).port.op = some o ∧
      ((s.issue o).count k).faults.counters = (s.count k).faults.counters := by
    rw [count_faults_congr (s := s) (t := s.issue o) rfl]
    simp [issue, setPort]
  cases hn : op.next <;> simp only [reissue, hn]
  · exact hcount _ _
  · exact hcount _ _
  · exact hcount _ _
  · exact ⟨rfl, rfl⟩

/-! ### The end of SUPPLY_WAIT -/

/-- R129, R135, R136: SUPPLY_WAIT has ended: with a journal the scan begins, and without one start-up ends. -/
def WaitEnds (s t : State) : Prop :=
  (0 < s.journal.sizePages → t.startup.phase = .scanning ∧
    t.startup.portState = s.startup.portState ∧ t.startup.procedure = .scanHeader ∧
    (s.port.op = none → t.justIssued .lineRead (s.journal.basePage * 64) .scan (some (.journal, 9)))) ∧
  (s.journal.sizePages = 0 → t.startupEnded ∧ t.startup.loadResult = s.startup.loadResult)

/-- The end of SUPPLY_WAIT, with what only goes on at the port, and the grant that follows. -/
theorem waitEnds_settle {s w x : State} (hj : w.journal = s.journal) (hs : w.startup = s.startup)
    (hp : s.startup.phase = .supplyWait) (hn : w.supply.state = .normal) (hxs : x.startup = w.endWaitIfNormal.startup)
    (hxj : x.journal = s.journal) (hxn : x.supply.state = .normal) (hg : w.endWaitIfNormal.faults.Grows x.faults)
    (hfree : s.port.op = none → x.port.op = none) : s.WaitEnds x.settle := by
  have hwait : w.startup.phase = .supplyWait := by rw [hs, hp]
  have hstartup : x.settle.startup = x.startup := by simp
  have hjournal : x.settle.journal = s.journal := by simpa using hxj
  refine ⟨fun hsize => ?_, fun hsize => ?_⟩
  · have hscans : x.startup = { s.startup with phase := .scanning, procedure := .scanHeader } := by
      rw [hxs, endWaitIfNormal_scans hwait hn (by rwa [hj]), ← hs]
      rfl
    refine ⟨by rw [hstartup, hscans], by rw [hstartup, hscans], by rw [hstartup, hscans], fun hop => ?_⟩
    have hissued := settle_procedureIssued (hfree hop) (by rw [hxn]; simp)
    rw [procedureIssued, hstartup, hscans, hjournal] at hissued
    exact hissued
  · have hends := endWaitIfNormal_ends hwait hn (by rwa [hj])
    refine ⟨startupEnded_of_grows w.endStartup_startupEnded ?_ ?_ ?_, ?_⟩
    · rw [hstartup, hxs, hends]
    · rw [hjournal, ← hj]
      simp
    · rw [← hends]
      exact settle_grows _ hg
    · rw [hstartup, hxs]
      simp [hs]

theorem endWaitIfNormal_of_not_waiting {u : State} (h : u.startup.phase ≠ .supplyWait) : u.endWaitIfNormal = u :=
  if_neg fun hw => h hw.1

/-- R62: what stands in the write order and in the table decides who reads next. -/
theorem oldestReader_congr {s t : State} {p : Fin 4} {e : DelayedEntry} (h : s.oldestReader p e) (hq : t.queue = s.queue)
    (ht : t.engine.table = s.engine.table) (hd : t.drain = s.drain) : t.oldestReader p e := by
  simpa only [oldestReader, readyRead, noWriteBefore, writeStands, delays, hq, ht, hd] using h

end State

/-- Settles O57: the HELD operation by its reissue, SUPPLY_WAIT by its end, and the rest by what the arbiter grants. -/
theorem leavingFailResumesTheWork : Obligations.LeavingFailResumesTheWork := by
  refine ⟨fun f goal s hs hgoal => ?_, fun s hs ht => ?_⟩
  · obtain ⟨ht, hg, hne, hcase⟩ : (s.supply.timers.get f).isSome = true ∧ filterGoal f .fail = goal ∧ goal ≠ .fail ∧
        (goal = .normal ∨ goal = .warn) := by
      obtain ⟨rfl, rfl, h⟩ | ⟨rfl, rfl, h⟩ := hgoal
      · exact ⟨h, rfl, by simp, .inl rfl⟩
      · exact ⟨h, rfl, by simp, .inr rfl⟩
    let w : State := s.entered f goal
    let x : State := w.endWaitIfNormal.releaseHeld
    obtain ⟨hqueue, hengine, hjournal, hdrain, hport, hstartup, hmgmt, hsupply⟩ := s.entered_frame f goal
    have hvport : w.endWaitIfNormal.port = s.port := by simp [w]
    have hcounters : w.endWaitIfNormal.faults.counters = s.faults.counters := by
      rw [State.endWaitIfNormal_counters]
      exact s.entered_counters f goal
    refine ⟨x.settle, State.exec_leavesFail ht hs hg hne, by simp [x, w], fun op hop hp => ?_, fun op hop hp => ?_,
      fun hp hn => ?_, fun hp => ?_, fun d hd => ?_, fun hd => ?_, fun hop hp => ?_⟩
    · obtain ⟨hissued, hcount⟩ := State.reissue_eq w.endWaitIfNormal op
      have hx : x = w.endWaitIfNormal.reissue op := State.releaseHeld_of_held (hvport ▸ hop) hp
      rw [hx]
      refine ⟨by rw [State.settle_port_of_busy hissued]; exact hissued, ?_⟩
      rw [State.settle_counters, hcount]
      cases op.next <;> simp only [State.count_counters, hcounters]
    · have hx : x = w.endWaitIfNormal := State.releaseHeld_of_not_held (hvport ▸ hop) hp
      have hbusy : w.endWaitIfNormal.port.op = some op := hvport ▸ hop
      rw [hx, State.settle_port_of_busy hbusy, State.settle_counters]
      exact ⟨hbusy, hcounters⟩
    · have hfree (hop : s.port.op = none) : x.port.op = none := by
        rw [show x = w.endWaitIfNormal from State.releaseHeld_of_free (hvport ▸ hop), hvport]
        exact hop
      exact State.waitEnds_settle (w := w) hjournal hstartup hp (hsupply.trans hn) (by simp [x]) (by simp [x, w])
        (by simp [x, w, hn]) (State.releaseHeld_grows _ (.refl _)) hfree
    · have hstays : w.endWaitIfNormal = w := by
        obtain hp | hw := hp
        · exact State.endWaitIfNormal_of_not_waiting (by rw [hstartup]; exact hp)
        · exact State.endWaitIfNormal_of_not_normal (by rw [hsupply, hw]; simp)
      have hx : x = w.releaseHeld := by rw [← hstays]
      rw [hx]
      simp [w]
    · have hxdrain : x.drain = some d := by simpa [x, w] using hd
      have hbegins : State.beginDrains longestOrder x = x :=
        State.beginDrains_of_not_mayBegin _ _ (State.mayBegin_eq_false_of_drain hxdrain)
      refine ⟨State.settle_drain_of_some hxdrain, ?_⟩
      rw [State.settle, hbegins]
      simp [x, w]
    · have hxdrain : x.drain = none := by simpa [x, w] using hd
      have hxqueue : x.queue = s.queue := by simp [x, w]
      have hxengine : x.engine = s.engine := by simp [x, w]
      exact ⟨State.settle_drainsAnew hxdrain, fun hq => State.settle_writesGoOn hxdrain (by rwa [hxqueue]),
        hxqueue ▸ State.settle_dropsFrom x,
        fun p e he hk => State.settle_writeGoesOn hxdrain (by rw [hxengine]; exact he) hk⟩
    · have hx : x = w := by
        have hfree : w.endWaitIfNormal.port.op = none := hvport ▸ hop
        obtain hp | hw := hp
        · exact (State.releaseHeld_of_free hfree).trans
            (State.endWaitIfNormal_of_not_waiting (by rw [hstartup]; exact hp))
        · exact (State.releaseHeld_of_free hfree).trans
            (State.endWaitIfNormal_of_not_normal (by rw [hsupply, hw]; simp))
      rw [hx]
      have hwop : w.port.op = none := hport ▸ hop
      have hwf : w.supply.state ≠ .fail := by rw [hsupply]; exact hne
      refine ⟨State.settle_procedureIssued hwop hwf, fun hidle => ⟨fun hr => ?_, fun p e ho hfree hturn => ?_⟩⟩
      · have hwidle : w.startup.procedure = .idle := by rw [hstartup]; exact hidle
        have hwr : w.port.lastClass = .read ∨ w.ReadsNothing := by
          unfold State.ReadsNothing
          rw [hport, hengine]
          exact hr
        refine ⟨fun hl => ?_, fun hl d hd hb => ?_⟩
        · rw [← hjournal]
          exact State.settle_initiates hwop hwf hwidle (by rw [hmgmt]; exact hl) hwr
        · exact State.settle_drains hwop hwf hwidle (by rw [hmgmt]; exact hl) hwr hd hb
      · exact State.settle_reads hwop hwf (by rw [hstartup]; exact hidle)
          (State.oldestReader_congr ho hqueue (by rw [hengine]) hdrain) (by rw [hengine]; exact hfree)
          (by rw [hport, hmgmt]; exact hturn)
  · let w : State := s.entered .notBelowWarn .normal
    refine ⟨w.endWaitIfNormal.settle, State.exec_leavesWarn ht hs, by simp [w], fun op hop => ?_, fun hp => ?_,
      fun hp => ?_⟩
    · have hbusy : w.endWaitIfNormal.port.op = some op := by simpa [w] using hop
      rw [State.settle_port_of_busy hbusy, State.settle_counters, State.endWaitIfNormal_counters]
      exact ⟨hbusy, s.entered_counters _ _⟩
    · exact State.waitEnds_settle (w := w) rfl rfl hp rfl rfl (by simp [w]) (by simp [w]) (.refl _) (by simp [w])
    · have hstays : w.endWaitIfNormal = w := State.endWaitIfNormal_of_not_waiting hp
      rw [hstays]
      refine ⟨by simp [w], fun hbusy => ?_⟩
      rw [State.settle_of_busyPort (s := w) hbusy]
      rfl

end Sys2Proof.Machine
end

section
/-! O50 (R39, R40, R41, R60, R62, R71, R112, R118): an idle part starts at once. -/

namespace Sys2Proof.Machine

namespace State

/-! ### The head of the write order -/

theorem oldestDelayedWrite_eq_none {s : State}
    (hn : ∀ (p : Fin 4) (e : DelayedEntry), s.engine.table[p] = some e → e.isPendingWrite = false) :
    s.oldestDelayedWrite = none := by
  rw [Option.eq_none_iff_forall_not_mem]
  rintro ⟨p, n⟩ h
  obtain ⟨e, he, hpending, -⟩ := oldestDelayedWrite_pending h
  rw [hn p e he] at hpending
  cases hpending

theorem headItem_of_posted {s : State} {b : Body} {rest : List QueueEntry} (hq : s.queue = .write b :: rest)
    (hn : ∀ (p : Fin 4) (e : DelayedEntry), s.engine.table[p] = some e → e.isPendingWrite = false) :
    s.headItem = some .postedWrite := by
  simp only [headItem, hq, oldestDelayedWrite_eq_none hn]

theorem headItem_of_nothing {s : State} (hq : s.queue = [])
    (hn : ∀ (p : Fin 4) (e : DelayedEntry), s.engine.table[p] = some e → e.isPendingWrite = false) : s.headItem = none := by
  simp only [headItem, hq, oldestDelayedWrite_eq_none hn]

theorem headItem_of_delayed {s : State} {p : Fin 4} {e : DelayedEntry} (hq : s.queue = [])
    (he : s.engine.table[p] = some e) (hp : e.isPendingWrite = true) (hn : ∀ q, q ≠ p → s.engine.table[q] = none) :
    s.headItem = some (.delayedWrite p) := by
  cases hi : s.headItem with
  | none =>
    obtain ⟨-, hnone⟩ := headItem_none hi
    rw [hnone p e he] at hp
    cases hp
  | some item =>
    cases item with
    | postedWrite =>
      obtain ⟨b, rest, hposted⟩ := headItem_posted hi
      rw [hq] at hposted
      cases hposted
    | closeMarker =>
      obtain ⟨m, rest, hmarker⟩ := headItem_marker hi
      rw [hq] at hmarker
      cases hmarker
    | delayedWrite q =>
      obtain ⟨f, hf, -⟩ := headItem_delayedWrite hi
      by_cases hqp : q = p
      · rw [hqp]
      · rw [hn q hqp] at hf
        cases hf
    | removed x => exact absurd hi (headItem_ne_removed s x)

/-! ### A drain begins -/

/-- R39, R44, R60: the drain of a head that is not dropped begins, and no other with it. -/
theorem beginDrains_of_head {s : State} {item : DrainItem} {b : Body} (hd : s.drain = none) (hf : s.supply.state ≠ .fail)
    (hl : s.mgmt.longCmd ≠ some .initJournal) (hi : s.headItem = some item) (hb : s.itemBody item = some b)
    (hg : b.cls.guarded = true → s.journal.state ≠ .failed) :
    State.beginDrains longestOrder s = (s.issueEntry item).setDrain (some ⟨item, s.firstStage b, 0, true⟩) := by
  have hmay : s.mayBegin = true := by simp [mayBegin, initOutstanding, hd, hf, hl]
  have hitem : s.beginItem item = (s.issueEntry item).setDrain (some ⟨item, s.firstStage b, 0, true⟩) := by
    simp only [beginItem, hb]
    exact if_neg fun h => hg h.1 h.2
  simp only [longestOrder, State.beginDrains, if_pos hmay, hi, hitem]
  exact beginDrains_of_not_mayBegin 19 _ (mayBegin_eq_false_of_drain (d := ⟨item, s.firstStage b, 0, true⟩) rfl)

/-- R40, R41: the first operation of a drain. -/
theorem firstStage_iff (s : State) (b : Body) :
    (s.firstStage b = .dataWrite ↔ b.cls.guarded = false ∨ (b.line, Mark.recorded) ∈ s.journal.lineSet) ∧
      (s.firstStage b = .beforeImage ↔ ¬ (b.cls.guarded = false ∨ (b.line, Mark.recorded) ∈ s.journal.lineSet)) := by
  have hrecorded : s.journal.isRecorded b.line = true ↔ (b.line, Mark.recorded) ∈ s.journal.lineSet := by
    simp only [Journal.isRecorded, List.any_eq_true, Bool.and_eq_true, beq_iff_eq, Prod.exists]
    exact ⟨fun ⟨l, m, hmem, hline, hmark⟩ => hline ▸ hmark ▸ hmem, fun h => ⟨_, _, h, rfl, rfl⟩⟩
  rw [← hrecorded]
  cases hg : b.cls.guarded <;> cases hr : s.journal.isRecorded b.line <;> simp [firstStage, hg, hr]

theorem recorded_mem_reserved (s : State) (k : ReservationKind) (line l : Nat) :
    (l, Mark.recorded) ∈ (s.reserved k line).lineSet ↔ (l, Mark.recorded) ∈ s.journal.lineSet := by
  simp only [reserved]
  split <;> simp

/-- R39, R112, R118: with the port free and no read work, the drain that has begun is granted its first operation. -/
theorem settle_starts {s : State} {item : DrainItem} {b : Body} (hop : s.port.op = none) (hd : s.drain = none)
    (hf : s.supply.state ≠ .fail) (hidle : s.startup.procedure = .idle) (hl : s.mgmt.longCmd ≠ some .initJournal)
    (hr : s.ReadsNothing) (hi : s.headItem = some item) (hb : s.itemBody item = some b)
    (hg : b.cls.guarded = true → s.journal.state ≠ .failed) :
    s.settle.drain = some ⟨item, s.firstStage b, 0, true⟩ ∧
      ∃ o, s.settle.port.op = some o ∧ o.owner = .head ∧ o.attempts = 1 ∧ o.limit = s.port.attemptLimit.toNat ∧
        o.phase = .awaiting ∧ s.settle.carriesDrain o := by
  have hbegun := beginDrains_of_head hd hf hl hi hb hg
  have hstands : ((State.beginDrains longestOrder s).itemBody item).isSome = true := by
    rw [hbegun]
    cases item with
    | postedWrite => exact Option.isSome_iff_exists.mpr ⟨b, hb⟩
    | closeMarker => cases hb
    | removed x => rfl
    | delayedWrite p =>
      simp only [itemBody, Option.map_eq_some_iff] at hb
      obtain ⟨e, he, -⟩ := hb
      simp [issueEntry, he, setDrain, setEntry, itemBody]
  obtain ⟨o, ho⟩ := drainOp_of_stands (s := State.beginDrains longestOrder s) (d := ⟨item, s.firstStage b, 0, true⟩)
    (.inr hstands)
  have hoffer : (State.beginDrains longestOrder s).writeOffer = some o := by
    rw [writeOffer_of_not_init (by simpa using hl), ← ho, hbegun]
    rfl
  obtain ⟨hgranted, -⟩ := settle_of_offer hop hf hidle hoffer (.inr hr)
  have hcarries := settle_head hop hgranted (drainOp_owner ho)
  have hlimit : s.settle.port.attemptLimit = s.port.attemptLimit := by simp
  obtain ⟨d, hdrain, hcount, hattempts, hphase, hstage⟩ := hcarries
  refine ⟨?_, o, hgranted, drainOp_owner ho, hattempts, hlimit ▸ hcount, hphase, d, hdrain, hcount, hattempts, hphase, hstage⟩
  simp [settle, hbegun, setDrain]

/-! ### The prefetch run -/

/-- R71: the run goes on to the first line that may not be queued. -/
theorem prefetchRun_eq (s : State) (region : Fin 9) (first n i : Nat) : ∃ m ≤ n,
    s.prefetchRun region first i n = (List.range m).map (fun j => first + i + j) ∧
      (∀ j < m, s.mayPrefetch region first (first + i + j) = true) ∧
      (m < n → s.mayPrefetch region first (first + i + m) = false) := by
  induction n generalizing i with
  | zero => exact ⟨0, le_refl _, rfl, by simp, by simp⟩
  | succ n ih =>
    cases hmay : s.mayPrefetch region first (first + i) with
    | false =>
      refine ⟨0, Nat.zero_le _, ?_, by simp, fun _ => hmay⟩
      simp [prefetchRun, hmay]
    | true =>
      obtain ⟨m, hm, hrun, hyes, hno⟩ := ih (i + 1)
      have hshift (j : Nat) : first + (i + 1) + j = first + i + (j + 1) := by omega
      refine ⟨m + 1, by omega, ?_, fun j hj => ?_, fun hlt => ?_⟩
      · simp only [prefetchRun, hmay, if_true, hrun, List.range_succ_eq_map, List.map_cons, List.map_map, hshift]
        rfl
      · cases j with
        | zero => exact hmay
        | succ j =>
          rw [← hshift]
          exact hyes j (by omega)
      · rw [← hshift]
        exact hno (by omega)

/-- R71: what bars a line, with no write in the write order and one line in the slots. -/
theorem mayPrefetch_iff {s : State} {region : Fin 9} {first line : Nat} (hw : s.writesInOrder = [])
    (hs : s.engine.inSlot line = false) : s.mayPrefetch region first line = true ↔
      s.regionAt line = region ∧ s.journal.inArea line = false ∧ line / 16 = first / 16 := by
  simp only [mayPrefetch, hw, hs, Bool.and_eq_true, beq_iff_eq, Bool.not_eq_true', List.all_nil, and_true]
  exact and_assoc

end State

end Sys2Proof.Machine
end

section
/-! O50, the three acceptances of an idle part. -/

namespace Sys2Proof.Machine

namespace State

/-- R118: the delayed request table holds no entry. -/
theorem idlePort_table {s : State} (h : s.engine.table = Vector.replicate 4 none) (p : Fin 4) :
    s.engine.table[p] = none := by
  simp [h]

/-- R38: nothing stands in the write order. -/
theorem writesInOrder_eq_nil {s : State} (hq : s.queue = []) (hd : s.drain = none)
    (hn : ∀ (p : Fin 4) (e : DelayedEntry), s.engine.table[p] = some e → e.isPendingWrite = false) :
    s.writesInOrder = [] := by
  rw [List.eq_nil_iff_forall_not_mem]
  intro b hb
  rcases mem_writesInOrder.mp hb with hmem | ⟨p, e, hp, -⟩ | ⟨d, hdrain, -⟩
  · rw [hq] at hmem
    cases hmem
  · obtain ⟨he, hpending⟩ := delays_iff.mp hp
    rw [hn p e he] at hpending
    cases hpending
  · rw [hd] at hdrain
    cases hdrain

/-! ### A posted write -/

/-- R39, R118: what stands after a posted write joined an empty queue. -/
theorem enqueued_starts {s : State} {r : Request} {k : ReservationKind} (h : s.idlePort) (ha : s.admits r k) :
    let u := s.enqueued r k
    u.settle.queue = [.write (s.carried r k)] ∧
      u.settle.drain = some ⟨.postedWrite, u.firstStage (s.carried r k), 0, true⟩ ∧
      ∃ o, u.settle.port.op = some o ∧ o.owner = .head ∧ o.attempts = 1 ∧ o.limit = s.port.attemptLimit.toNat ∧
        o.phase = .awaiting ∧ u.settle.carriesDrain o := by
  obtain ⟨hop, hdrain, hqueue, htable, hprefetch, hidle, hlong, hsupply⟩ := h
  intro u
  have huqueue : u.queue = [.write (s.carried r k)] := by simp [u, enqueued, hqueue]
  have hutable (p : Fin 4) : u.engine.table[p] = none := by simp [u, enqueued, Engine.refresh, htable]
  have hreads : u.ReadsNothing := by
    refine ⟨by simp [u, enqueued, Engine.refresh, hprefetch], fun p e he => ?_⟩
    rw [hutable p] at he
    cases he
  have hhead : u.headItem = some .postedWrite := by
    refine headItem_of_posted huqueue fun p e he => ?_
    rw [hutable p] at he
    cases he
  have hbody : u.itemBody .postedWrite = some (s.carried r k) := by simp [itemBody, huqueue, QueueEntry.body]
  have hfail : u.supply.state ≠ .fail := by simp [u, enqueued, hsupply]
  have hinit : u.mgmt.longCmd ≠ some .initJournal := by simp [u, enqueued, hlong]
  have hguard : (s.carried r k).cls.guarded = true → u.journal.state ≠ .failed := not_failed_of_admits ha
  obtain ⟨hstarts, hgrant⟩ := settle_starts (s := u) hop hdrain hfail hidle hinit hreads hhead hbody hguard
  refine ⟨?_, hstarts, hgrant⟩
  have hbegun := beginDrains_of_head (s := u) hdrain hfail hinit hhead hbody hguard
  simp [settle, hbegun, issueEntry, setDrain, huqueue]

/-! ### A durable write -/

/-- R60: what stands after a durable write got the first entry. -/
theorem delayed_starts {s : State} {r : Request} {k : ReservationKind} (h : s.idlePort) (ha : s.admits r k) :
    let u := s.delayed r k 0
    u.settle.queue = [] ∧ u.settle.engine.table[(0 : Fin 4)] = some { s.delayedWriteOf r k with state := .issued } ∧
      u.settle.drain = some ⟨.delayedWrite 0, u.firstStage (s.carried r k), 0, true⟩ ∧
      ∃ o, u.settle.port.op = some o ∧ o.owner = .head ∧ o.attempts = 1 ∧ o.limit = s.port.attemptLimit.toNat ∧
        o.phase = .awaiting ∧ u.settle.carriesDrain o := by
  obtain ⟨hop, hdrain, hqueue, htable, hprefetch, hidle, hlong, hsupply⟩ := h
  intro u
  have hentry : u.engine.table[(0 : Fin 4)] = some (s.delayedWriteOf r k) := by simp [u, delayed]
  have hnone (q : Fin 4) (hq : q ≠ 0) : u.engine.table[q] = none := by
    have hrefreshed : (s.engine.refresh r.line (s.nextPos + 1)).table[q] = none := by simp [Engine.refresh, htable]
    exact (get_set _ _ _ _).trans ((if_neg fun h => hq h.symm).trans hrefreshed)
  have hreads : u.ReadsNothing := by
    refine ⟨by simp [u, delayed, Engine.refresh, hprefetch], fun p e he hk => ?_⟩
    by_cases hp : p = 0
    · subst hp
      rw [hentry] at he
      cases he
      cases hk
    · rw [hnone p hp] at he
      cases he
  have hhead : u.headItem = some (.delayedWrite 0) := headItem_of_delayed hqueue hentry rfl hnone
  have hbody : u.itemBody (.delayedWrite 0) = some (s.carried r k) := by
    simp only [itemBody, hentry]
    rfl
  have hfail : u.supply.state ≠ .fail := by simp [u, delayed, hsupply]
  have hinit : u.mgmt.longCmd ≠ some .initJournal := by simp [u, delayed, hlong]
  have hguard : (s.carried r k).cls.guarded = true → u.journal.state ≠ .failed := not_failed_of_admits ha
  obtain ⟨hstarts, hgrant⟩ := settle_starts (s := u) hop hdrain hfail hidle hinit hreads hhead hbody hguard
  have hbegun := beginDrains_of_head (s := u) hdrain hfail hinit hhead hbody hguard
  refine ⟨?_, ?_, hstarts, hgrant⟩
  · simp [settle, hbegun, issueEntry, hentry, setDrain, setEntry]
    exact hqueue
  · have hissued : (State.beginDrains longestOrder u).engine.table[(0 : Fin 4)] =
        some { s.delayedWriteOf r k with state := .issued } := by
      rw [hbegun]
      simp [issueEntry, hentry, setDrain, setEntry]
    exact (arbitrate_table hissued).1 (by simp [delayedWriteOf])

/-! ### A read -/

/-- R62, R71: what stands after a read got the first entry. -/
theorem awaiting_starts {s : State} {r : Request} (h : s.idlePort) (hfree : ∀ j : Fin 8, s.engine.slots[j] = .free) :
    let u := s.awaiting r 0
    u.settle = u.grantDemand 0 ∧ u.engine.slotToTake = some 0 ∧
      u.engine.table[(0 : Fin 4)] = some (s.delayedReadOf r) := by
  obtain ⟨hop, hdrain, hqueue, htable, hprefetch, hidle, hlong, hsupply⟩ := h
  intro u
  have hentry : u.engine.table[(0 : Fin 4)] = some (s.delayedReadOf r) := by simp [u, awaiting]
  have hnone (q : Fin 4) (hq : q ≠ 0) : u.engine.table[q] = none :=
    (get_set _ _ _ _).trans ((if_neg fun h => hq h.symm).trans (idlePort_table htable q))
  have honly (q : Fin 4) (f : DelayedEntry) (hf : u.engine.table[q] = some f) : q = 0 ∧ f = s.delayedReadOf r := by
    by_cases hq : q = 0
    · subst hq
      rw [hentry] at hf
      cases hf
      exact ⟨rfl, rfl⟩
    · rw [hnone q hq] at hf
      cases hf
  have hnoWrite (q : Fin 4) (f : DelayedEntry) (hf : u.engine.table[q] = some f) : f.isPendingWrite = false := by
    obtain ⟨-, rfl⟩ := honly q f hf
    rfl
  have hbegun : State.beginDrains longestOrder u = u := beginDrains_of_no_head _ _ (headItem_of_nothing hqueue hnoWrite)
  have hwrites : u.writesInOrder = [] := writesInOrder_eq_nil hqueue hdrain hnoWrite
  have hreader : u.oldestReader 0 (s.delayedReadOf r) := by
    refine ⟨⟨hentry, rfl, rfl, rfl, fun w hw => ?_⟩, fun q f hq hf => absurd (honly q f hf).1 hq⟩
    rw [← mem_writesInOrder, hwrites] at hw
    cases hw
  refine ⟨?_, ?_, hentry⟩
  · have hgrant := settle_of_reader (s := u) hop (by simp [u, awaiting, hsupply]) hidle hreader
      (.inr ⟨by simp [settle, hbegun]; exact hdrain, by simp [u, awaiting, hlong]⟩)
    rwa [hbegun] at hgrant
  · have hslots (j : Fin 8) : u.engine.slots[j] = .free := hfree j
    simp only [Engine.slotToTake, List.finRange_succ, List.find?_cons, hslots, beq_self_eq_true]

/-- R5, R71: the prefetch list of a demand fill, with no write and no other line in the slots. -/
theorem grantDemand_prefetch {u : State} {p : Fin 4} {i : Fin 8} {e : DelayedEntry} (he : u.engine.table[p] = some e)
    (hi : u.engine.slotToTake = some i) : ∃ s1 : State, (u.grantDemand p).engine.prefetch = s1.prefetchFor e.body ∧
      s1.queue = u.queue ∧ s1.drain = u.drain ∧ s1.classifier = u.classifier ∧ s1.journal = u.journal ∧
      s1.engine.table = u.engine.table.set p (some { e with state := .issued, slot := some i }) ∧
      s1.engine.slots = u.engine.slots.set i (.filling e.body.line false (some p)) ∧
      s1.engine.prefetchDepth = u.engine.prefetchDepth := by
  refine ⟨(u.setEntry p (some { e with state := .issued, slot := some i })).setSlot i
    (.filling e.body.line false (some p)), ?_, rfl, rfl, rfl, rfl, rfl, rfl, rfl⟩
  simp only [grantDemand, he, hi]
  rfl

theorem inSlot_eq_false {g : Engine} {line : Nat} (h : ∀ j : Fin 8, g.slots[j].holds line = false) :
    g.inSlot line = false := by
  rw [Engine.inSlot, List.any_eq_false]
  intro x hx
  obtain ⟨j, hj, rfl⟩ := List.mem_iff_getElem.mp hx
  simpa using h ⟨j, by simpa using hj⟩

/-- R71: the lines that are queued after the demand fill of the first read. -/
theorem awaiting_prefetches {s : State} {r : Request} (h : s.idlePort) (hfree : ∀ j : Fin 8, s.engine.slots[j] = .free) :
    ((s.classify r.line).readMode = .single → ((s.awaiting r 0).grantDemand 0).engine.prefetch = []) ∧
      ((s.classify r.line).readMode = .prefetch → ∃ m ≤ s.engine.prefetchDepth.toNat,
        ((s.awaiting r 0).grantDemand 0).engine.prefetch = (List.range m).map (fun j => r.line + 1 + j) ∧
        (∀ j < m, s.regionAt (r.line + 1 + j) = s.regionAt r.line ∧ s.journal.inArea (r.line + 1 + j) = false ∧
          (r.line + 1 + j) / 16 = r.line / 16) ∧
        (m < s.engine.prefetchDepth.toNat → ¬ (s.regionAt (r.line + 1 + m) = s.regionAt r.line ∧
          s.journal.inArea (r.line + 1 + m) = false ∧ (r.line + 1 + m) / 16 = r.line / 16))) := by
  obtain ⟨-, hslot, hentry⟩ := awaiting_starts (r := r) h hfree
  obtain ⟨s1, hprefetch, hqueue, hdrain, hclassifier, hjournal, htable, hslots, hdepth⟩ := grantDemand_prefetch hentry hslot
  have ⟨_, hnoDrain, hempty, hnoEntry, _⟩ := h
  have hwrites : s1.writesInOrder = [] := by
    refine writesInOrder_eq_nil (hqueue.trans hempty) (hdrain.trans hnoDrain) fun p e he => ?_
    rw [htable, get_set] at he
    split at he
    · cases he
      rfl
    next hp =>
      have hnone : (s.awaiting r 0).engine.table[p] = none :=
        (get_set _ _ _ _).trans ((if_neg hp).trans (idlePort_table hnoEntry p))
      rw [hnone] at he
      cases he
  have hin {line : Nat} (hline : line ≠ r.line) : s1.engine.inSlot line = false := by
    refine inSlot_eq_false fun j => ?_
    rw [hslots, get_set]
    split
    · exact beq_eq_false_iff_ne.mpr (Ne.symm hline)
    · exact congrArg (fun x : Slot => x.holds line) (hfree j)
  have hmay {line : Nat} (hline : line ≠ r.line) : s1.mayPrefetch (s.regionAt r.line) r.line line = true ↔
      s.regionAt line = s.regionAt r.line ∧ s.journal.inArea line = false ∧ line / 16 = r.line / 16 := by
    rw [mayPrefetch_iff hwrites (hin hline), hjournal, regionAt, hclassifier]
    rfl
  rw [hprefetch]
  have hcls : (s.delayedReadOf r).body.cls.readMode = (s.classify r.line).readMode := rfl
  refine ⟨fun hmode => ?_, fun hmode => ?_⟩
  · simp only [prefetchFor, hcls, hmode]
  · obtain ⟨m, hm, hrun, hyes, hno⟩ := s1.prefetchRun_eq (s.regionAt r.line) r.line s1.engine.prefetchDepth.toNat 1
    rw [hdepth] at hm hno
    refine ⟨m, hm, ?_, fun j hj => (hmay (by omega)).mp (hyes j hj), fun hlt hqueue => ?_⟩
    · simp only [prefetchFor, hcls, hmode]
      exact hrun
    · have hstops := hno hlt
      rw [(hmay (by omega)).mpr hqueue] at hstops
      cases hstops

end State

/-- Settles O50: each acceptance by what stands after it and what the arbiter then grants. -/
theorem anIdlePartStartsAtOnce : Obligations.AnIdlePartStartsAtOnce := by
  intro i addr ucount data s h
  have ⟨_, _, hempty, hnoEntry, _⟩ := h
  have hnone := State.idlePort_table hnoEntry
  refine ⟨fun k => ?_, ?_⟩
  · intro r begins ha
    have hstages (u : State) (hu : u.journal = s.reserved k r.line) {item : DrainItem} {t : State}
        (hd : t.drain = some ⟨item, u.firstStage (s.carried r k), 0, true⟩) : ∃ stage, t.drain = some ⟨item, stage, 0, true⟩ ∧
          (stage = .dataWrite ↔ s.isGuarded r.line = false ∨ (r.line, Mark.recorded) ∈ s.journal.lineSet) ∧
          (stage = .beforeImage ↔ ¬ (s.isGuarded r.line = false ∨ (r.line, Mark.recorded) ∈ s.journal.lineSet)) := by
      have hfirst := u.firstStage_iff (s.carried r k)
      rw [hu, State.recorded_mem_reserved] at hfirst
      exact ⟨_, hd, hfirst⟩
    have hdecide := State.decideWrite_of_admits ha
    refine ⟨fun hmode => ?_, fun hmode => ?_⟩
    · have hexec : exec (.write i addr ucount data) s = .next ((s.enqueued r k).settle.answerTo r r.handled 0) := by
        refine congrArg Host.Outcome.next (hdecide.trans ?_)
        rw [State.roomWrite_of_posted _ hmode, if_neg (by simp [hempty]), State.acceptPosted_eq]
      obtain ⟨hqueue, hdrain, hgrant⟩ := State.enqueued_starts h ha
      exact ⟨_, hexec, hqueue, hstages (s.enqueued r k) rfl hdrain, hgrant⟩
    · have hnokey : (s.engine.entries.any fun x => x.2.sameKey r) = false := by
        rw [Bool.eq_false_iff, Ne, State.any_sameKey_iff]
        rintro ⟨p, e, he, -⟩
        rw [hnone p] at he
        cases he
      have hexec : exec (.write i addr ucount data) s = .next ((s.delayed r k 0).settle.retryTo r) := by
        refine congrArg Host.Outcome.next (hdecide.trans ?_)
        rw [State.roomWrite_of_durable _ hmode]
        simp only [State.roomDurable, hnokey, freePlace_eq_some (hnone 0) (fun q hq => absurd hq (by omega)),
          Bool.false_eq_true, if_false]
        exact State.acceptDurable_eq rfl k (hnone 0)
      obtain ⟨hqueue, hentry, hdrain, hgrant⟩ := State.delayed_starts h ha
      exact ⟨_, hexec, hqueue, hentry, hstages (s.delayed r k 0) rfl hdrain, hgrant⟩
  · intro r queueable ha hfree
    have hexec : exec (.read i addr ucount) s = .next ((s.awaiting r 0).settle.retryTo r) := by
      refine congrArg Host.Outcome.next ((State.decideRead_of_admitsRead ha).trans ?_)
      have hno : ¬ ∃ (j : Fin 8) (d : Line) (o : Option (Fin 4)) (a : Nat), s.engine.slots[j] = .valid r.line d o a := by
        rintro ⟨j, d, o, a, hj⟩
        rw [hfree j] at hj
        cases hj
      rw [← State.createRead_eq rfl]
      simp only [State.bufferRead, State.validSlot_eq_none hno,
        freePlace_eq_some (hnone 0) (fun q hq => absurd hq (by omega))]
    obtain ⟨hsettle, hslot, hentry⟩ := State.awaiting_starts (r := r) h hfree
    obtain ⟨hissued, -, htable, hslots⟩ := State.grantDemand_eq hentry hslot
    obtain ⟨hsingle, hprefetch⟩ := State.awaiting_prefetches (r := r) h hfree
    rw [hsettle] at hexec
    refine ⟨_, hexec, hissued, ?_, ?_, hsingle, hprefetch⟩
    · exact (congrArg (fun v : Vector (Option DelayedEntry) 4 => v[(0 : Fin 4)]) htable).trans
        ((get_set _ _ _ _).trans (if_pos rfl))
    · exact (congrArg (fun v : Vector Slot 8 => v[(0 : Fin 8)]) hslots).trans ((get_set _ _ _ _).trans (if_pos rfl))

end Sys2Proof.Machine
end

section
/-! What a fill that ends makes of its slot and its entry (R63, R64, R66, R72, R76), before the grant that follows. -/

namespace Sys2Proof.Machine

namespace State

/-! ### The slot that is FILLING -/

/-- R68: the first FILLING slot is the one that the fill is for. -/
theorem fillingSlot_of_first {g : Engine} {j : Fin 8} {line : Nat} {stale : Bool} {o : Option (Fin 4)}
    (h : g.slots[j] = .filling line stale o)
    (hfirst : ∀ i : Fin 8, i < j → ∀ l st o, g.slots[i] ≠ .filling l st o) :
    g.fillingSlot = some (j, line, stale, o) := by
  rw [Engine.fillingSlot, ← Fin.findSome?_eq_findSome?_finRange, Fin.findSome?_eq_some_iff]
  refine ⟨j, by rw [h], fun i hi => ?_⟩
  split
  next l st o' hslot => exact absurd hslot (hfirst i hi l st o')
  next => rfl
  next => rfl

theorem fillingSlot_of_none {g : Engine} (h : ∀ (i : Fin 8) l st o, g.slots[i] ≠ .filling l st o) :
    g.fillingSlot = none := by
  cases hf : g.fillingSlot with
  | none => rfl
  | some x =>
    obtain ⟨i, l, st, o⟩ := x
    exact absurd (fillingSlot_eq_some hf) (h i l st o)

/-! ### A demand fill -/

section
variable {s : State} {j : Fin 8} {line : Nat} {p : Fin 4} {e : DelayedEntry}

/-- R63: in success the slot is VALID and the entry COMPLETE. -/
theorem demandSucceeded_of_fresh (data : Line) (first : Bool)
    (hf : s.engine.fillingSlot = some (j, line, false, some p)) (he : s.engine.table[p] = some e) :
    s.demandSucceeded data first = ((s.fillSlot j line data (some p)).completeEntry p e .ok (some j)).report
      e.body.cls.region (if first then .clean else .recovered) := by
  have hkept : (s.fillSlot j line data (some p)).engine.table[p] = some e := he
  simp only [demandSucceeded, hf, hkept]

/-- R66: a stale fill leaves its slot free and its entry WAITING. -/
theorem demandSucceeded_of_stale (data : Line) (first : Bool)
    (hf : s.engine.fillingSlot = some (j, line, true, some p)) (he : s.engine.table[p] = some e) :
    s.demandSucceeded data first = (s.setSlot j .free).setEntry p (some { e with state := .waiting, slot := none }) := by
  have hkept : (s.setSlot j .free).engine.table[p] = some e := he
  simp only [demandSucceeded, hf, returnReader, hkept]

theorem demandFailed_of_fresh (hf : s.engine.fillingSlot = some (j, line, false, some p))
    (he : s.engine.table[p] = some e) : s.demandFailed =
      ((s.setSlot j .free).completeEntry p e .fail none).report e.body.cls.region .memoryFail := by
  have hkept : (s.setSlot j .free).engine.table[p] = some e := he
  simp only [demandFailed, hf, hkept]

theorem demandFailed_of_stale (hf : s.engine.fillingSlot = some (j, line, true, some p))
    (he : s.engine.table[p] = some e) :
    s.demandFailed = (s.setSlot j .free).setEntry p (some { e with state := .waiting, slot := none }) := by
  have hkept : (s.setSlot j .free).engine.table[p] = some e := he
  simp only [demandFailed, hf, returnReader, hkept]

end

/-! ### A prefetch -/

theorem prefetchSucceeded_of_fresh {s : State} {j : Fin 8} {line : Nat} {o : Option (Fin 4)} (data : Line)
    (hf : s.engine.fillingSlot = some (j, line, false, o)) :
    s.prefetchSucceeded data = (s.fillSlot j line data none).adopt j := by
  simp only [prefetchSucceeded, hf]

theorem prefetchSucceeded_of_stale {s : State} {j : Fin 8} {line : Nat} {o : Option (Fin 4)} (data : Line)
    (hf : s.engine.fillingSlot = some (j, line, true, o)) : s.prefetchSucceeded data = s.setSlot j .free := by
  simp only [prefetchSucceeded, hf]

theorem prefetchFailed_of_filling {s : State} {j : Fin 8} {line : Nat} {stale : Bool} {o : Option (Fin 4)}
    (hf : s.engine.fillingSlot = some (j, line, stale, o)) : s.prefetchFailed = s.setSlot j .free := by
  simp only [prefetchFailed, hf]

/-! ### A fill that finds no slot -/

/-- R76: the result of a fill whose slot has been freed reaches nothing. -/
theorem ownerSucceeded_of_no_slot {s : State} {op : Operation} (data : Line) (ho : op.owner = .demandFill ∨ op.owner = .prefetch)
    (hf : s.engine.fillingSlot = none) : s.ownerSucceeded op data = s := by
  rcases ho with h | h <;> simp only [ownerSucceeded, h, demandSucceeded, prefetchSucceeded, hf]

theorem ownerFailed_of_no_slot {s : State} {op : Operation} (ho : op.owner = .demandFill ∨ op.owner = .prefetch)
    (hf : s.engine.fillingSlot = none) : s.ownerFailed op = s := by
  rcases ho with h | h <;> simp only [ownerFailed, h, demandFailed, prefetchFailed, hf]

/-! ### What a failure counts -/

theorem listFailure_keeps_counts (s : State) (op : Operation) :
    (s.listFailure op).faults.counters = s.faults.counters ∧ (s.listFailure op).faults.codes = s.faults.codes ∧
      (s.listFailure op).port.lastClass = s.port.lastClass := by
  simp only [listFailure]
  split
  · exact ⟨rfl, rfl, rfl⟩
  · split
    · exact ⟨rfl, rfl, rfl⟩
    · split
      · exact ⟨raise_counters _ _, by simp, by simp⟩
      · exact ⟨rfl, rfl, rfl⟩

/-- R113, R117: a failed prefetch counts MEM_RETRY, and the codes are not reached before the owner is told. -/
theorem failing_counts (s : State) (op : Operation) :
    (s.failing op).faults.counters = (if op.owner = .prefetch then s.count .memRetry else s).faults.counters ∧
      (s.failing op).faults.codes = s.faults.codes ∧ (s.failing op).port.lastClass = s.port.lastClass := by
  obtain ⟨hcounters, hcodes, hclass⟩ :=
    listFailure_keeps_counts ((s.setMemory (op.spoils s.memory)).afterFailure op) op
  rw [failing, beforeFailure_eq, hcounters, hcodes, hclass]
  simp only [afterFailure]
  split
  · rw [count_faults_congr (s := s) (t := (s.setMemory (op.spoils s.memory)).freePort) rfl]
    simp [freePort]
  · exact ⟨rfl, rfl, rfl⟩

theorem failing_faults {s : State} {op : Operation} (h : op.failure = none) :
    (s.failing op).faults = (if op.owner = .prefetch then s.count .memRetry else s).faults := by
  rw [failing, beforeFailure_eq, listFailure_of_listed (.inl h), afterFailure]
  split
  · exact count_faults_congr (s := s) (t := (s.setMemory (op.spoils s.memory)).freePort) rfl _
  · rfl

end State

end Sys2Proof.Machine
end

section
/-! O49 (R63, R64, R66, R72, R76): the end of a demand fill, of a prefetch, and of a fill whose slot has gone. -/

namespace Sys2Proof.Machine

namespace State

/-! ### A demand fill has ended -/

section
variable {s : State} {j : Fin 8} {line : Nat} {p : Fin 4} {e : DelayedEntry}

/-- R55, R73: an entry that is COMPLETE stands so after the grant that follows. -/
theorem completed_settle {u : State} (region : Fin 9) (code : RegionCode) (r : EntryResult) (slot : Option (Fin 8)) :
    (((u.completeEntry p e r slot).report region code).settle).engine.table[p] =
      some { e with state := .complete r, slot := slot, timer := some (u.engine.claimTimeout.toNat * 16) } := by
  refine settle_table_of_complete (r := r) ?_ rfl
  simp [completeEntry, setEntry, setEngine, Engine.claimTime, Config.claimUnit]

theorem demandSucceeded_settle (data : Line) (first : Bool) (hf : s.engine.fillingSlot = some (j, line, false, some p))
    (he : s.engine.table[p] = some e) :
    let t := (s.demandSucceeded data first).settle
    t.engine.table[p] = some { e with
      state := .complete .ok, slot := some j, timer := some (s.engine.claimTimeout.toNat * 16) } ∧
    t.engine.slots[j] = .valid line data (some p) s.engine.nextAge ∧
    (s.journal.state ≠ .failed → t.faults = (s.report e.body.cls.region (if first then .clean else .recovered)).faults) := by
  intro t
  have ht : t = (((s.fillSlot j line data (some p)).completeEntry p e .ok (some j)).report e.body.cls.region
      (if first then .clean else .recovered)).settle := congrArg State.settle (demandSucceeded_of_fresh data first hf he)
  rw [ht]
  refine ⟨completed_settle _ _ _ _, settle_slots_of_owned ?_, fun hj => ?_⟩
  · simp [completeEntry, setEntry, setEngine, fillSlot, setSlot]
  · rw [(settle_of_not_failed (by simpa using hj)).2]
    exact report_faults_congr (s := s) (t := (s.fillSlot j line data (some p)).completeEntry p e .ok (some j)) rfl _ _

/-- R66: the entry of a stale fill is to be read again. -/
theorem returned_settle (hk : e.kind = .read) :
    ∃ f, (((s.setSlot j .free).setEntry p (some { e with state := .waiting, slot := none })).settle).engine.table[p] = some f ∧
      f.body = e.body ∧ (f.state = .waiting ∨ f.state = .issued) := by
  obtain ⟨f, hf, hbody, -, -, hstate⟩ := settle_table_of_read
    (s := (s.setSlot j .free).setEntry p (some { e with state := .waiting, slot := none })) (q := p)
    (e := { e with state := .waiting, slot := none }) (by simp [setEntry, setEngine]) hk
  exact ⟨f, hf, hbody, hstate⟩

theorem demandFailed_settle (hf : s.engine.fillingSlot = some (j, line, false, some p)) (he : s.engine.table[p] = some e) :
    s.demandFailed.settle.engine.table[p] = some { e with
      state := .complete .fail, slot := none, timer := some (s.engine.claimTimeout.toNat * 16) } ∧
    s.demandFailed.settle.faults.codes[e.body.cls.region] = .memoryFail := by
  rw [demandFailed_of_fresh hf he]
  refine ⟨completed_settle _ _ _ _, ?_⟩
  let w : State := (s.setSlot j .free).completeEntry p e .fail none
  have hreported : (w.report e.body.cls.region .memoryFail).faults.codes[e.body.cls.region] = .memoryFail := by
    rw [report_code]
    cases w.faults.codes[e.body.cls.region] <;> rfl
  obtain hsame | ⟨-, hworse⟩ := settle_code (w.report e.body.cls.region .memoryFail) e.body.cls.region
  · exact hsame.trans hreported
  · rw [hreported] at hworse
    exact absurd hworse (by decide)

end

/-! ### A prefetch has ended -/

section
variable {s : State} {j : Fin 8} {line : Nat}

/-- R66, R72: a slot that is freed is the next fill's, and every WAITING read goes on. -/
theorem freed_settle : (s.setSlot j .free).settle.engine.slots[j] = .free ∨
    ∃ l o, (s.setSlot j .free).settle.engine.slots[j] = .filling l false o ∧ (s.setSlot j .free).settle.fillIssued l o := by
  refine settle_slot_of_free ?_
  simp [setSlot, setEngine]

theorem waiting_settle {q : Fin 4} {f : DelayedEntry} (hf : s.engine.table[q] = some f) (hk : f.kind = .read)
    (hw : f.state = .waiting) : ∃ f', s.settle.engine.table[q] = some f' ∧ f'.body = f.body ∧
      (f'.state = .waiting ∨ f'.state = .issued) := by
  obtain ⟨f', hf', hbody, -, -, hstate⟩ := settle_table_of_read hf hk
  exact ⟨f', hf', hbody, by rwa [hw] at hstate⟩

/-- R58, R62: what decides who reads a line. -/
theorem readyRead_congr {t : State} {q : Fin 4} {f : DelayedEntry} (hq : t.queue = s.queue)
    (ht : t.engine.table = s.engine.table) (hd : t.drain = s.drain) : t.readyRead line q f ↔ s.readyRead line q f := by
  simp only [readyRead, noWriteBefore, writeStands, delays, hq, ht, hd]

theorem adopter_congr {t : State} {q : Fin 4} {f : DelayedEntry} (hq : t.queue = s.queue)
    (ht : t.engine.table = s.engine.table) (hd : t.drain = s.drain) (h : s.adopter line q f) : t.adopter line q f := by
  obtain ⟨hready, holdest⟩ := h
  exact ⟨(readyRead_congr hq ht hd).mpr hready, fun q' f' hne hr => holdest q' f' hne ((readyRead_congr hq ht hd).mp hr)⟩

theorem fillSlot_slot (data : Line) (o : Option (Fin 4)) :
    (s.fillSlot j line data o).engine.slots[j] = .valid line data o s.engine.nextAge := by
  simp [fillSlot, setSlot, setEngine]

/-- R64: with no ready reader the slot stays unowned, where the grant that follows finds another. -/
theorem prefetched_unowned {st : Bool} {o : Option (Fin 4)} (data : Line) (hslot : s.engine.slots[j] = .filling line st o)
    (hn : ∀ q f, ¬ s.readyRead line q f) (hroom : ∃ i : Fin 8, s.engine.slots[i] = .free ∨
      ∃ l d a, s.engine.slots[i] = .valid l d none a ∧ a < s.engine.nextAge) :
    ((s.fillSlot j line data none).adopt j).settle.engine.slots[j] = .valid line data none s.engine.nextAge ∧
      (s.journal.state ≠ .failed → ((s.fillSlot j line data none).adopt j).settle.faults = s.faults) := by
  have hfilled := s.fillSlot_slot (j := j) (line := line) data none
  have hstays := (adopt_of_unowned hfilled).1 fun q f hr => hn q f ((readyRead_congr rfl rfl rfl).mp hr)
  rw [hstays]
  refine ⟨settle_slot_of_valid hfilled ?_, fun hj => ?_⟩
  · obtain ⟨i, hi⟩ := hroom
    have hij : i ≠ j := by
      rintro rfl
      rw [hslot] at hi
      simp at hi
    have hother : (s.fillSlot j line data none).engine.slots[i] = s.engine.slots[i] :=
      (get_set _ _ _ _).trans (if_neg (Ne.symm hij))
    exact ⟨i, by rwa [hother]⟩
  · exact (settle_of_not_failed (s := s.fillSlot j line data none) hj).2

/-- R64: the ready reader with the oldest position adopts the slot. -/
theorem prefetched_adopted (data : Line) {q : Fin 4} {f : DelayedEntry} (h : s.adopter line q f) :
    ((s.fillSlot j line data none).adopt j).settle.engine.slots[j] = .valid line data (some q) s.engine.nextAge ∧
      ((s.fillSlot j line data none).adopt j).settle.engine.table[q] = some { f with
        state := .complete .ok, slot := some j, timer := some (s.engine.claimTimeout.toNat * 16) } ∧
      (s.journal.state ≠ .failed → ((s.fillSlot j line data none).adopt j).settle.faults =
        (s.report f.body.cls.region .clean).faults) := by
  have hadopts := (adopt_of_unowned (s.fillSlot_slot (j := j) (line := line) data none)).2 q f
    (adopter_congr rfl rfl rfl h)
  rw [hadopts]
  refine ⟨settle_slots_of_owned ?_, settle_table_of_complete (r := .ok) ?_ rfl, fun hj => ?_⟩
  · exact (get_set _ _ _ _).trans (if_pos rfl)
  · exact (get_set _ _ _ _).trans (if_pos rfl)
  · refine (settle_of_not_failed ?_).2.trans ?_
    · exact hj
    · exact report_faults_congr (s := s) (t := s.fillSlot j line data none) rfl _ _

end

/-! ### A fill whose slot has gone -/

/-- R76: what a result that reaches nothing leaves, with the grant that follows. -/
theorem reachesNothing_settle {s u : State} (hq : u.queue = s.queue) (hg : u.engine = s.engine) (hj : u.journal = s.journal)
    (hc : u.faults.codes = s.faults.codes) :
    (∀ i : Fin 8, u.settle.engine.slots[i] = s.engine.slots[i] ∨
      ∃ l o, u.settle.engine.slots[i] = .filling l false o ∧ u.settle.fillIssued l o) ∧
    (∀ p e, s.engine.table[p] = some e → e.kind = .read → u.settle.engine.table[p] = some e ∨
      (e.state = .waiting ∧ ∃ i : Fin 8, u.settle.engine.table[p] = some { e with state := .issued, slot := some i } ∧
        u.settle.engine.slots[i] = .filling e.body.line false (some p))) ∧
    (∀ p e, s.engine.table[p] = some e → e.kind = .write → u.settle.writeGoesOn p e) ∧ u.settle.dropsFrom s.queue ∧
    u.settle.journal = s.journal ∧ u.settle.engine.nextAge = s.engine.nextAge ∧
    ∀ i : Fin 9, u.settle.faults.codes[i] = s.faults.codes[i] ∨
      (s.journal.state = .failed ∧ u.settle.faults.codes[i] = .journalFail) := by
  refine ⟨fun i => ?_, fun p e he hk => ?_, fun p e he hk => ?_, ?_, by simpa using hj, by simp [hg], fun i => ?_⟩
  · have hslot := u.settle_slot_cases i
    rwa [hg] at hslot
  · exact settle_table_of_reader (by rw [hg]; exact he) hk
  · exact settle_table_of_writer (by rw [hg]; exact he) hk
  · rw [← hq]
    exact settle_dropsFrom u
  · by_cases hf : s.journal.state = .failed
    · have hcode := u.settle_code i
      rw [hc] at hcode
      exact hcode.imp id fun h => ⟨hf, h.1⟩
    · rw [(settle_of_not_failed (by rwa [hj])).2, hc]
      exact .inl rfl

end State

/-- Settles O49: each owner by what it makes of the slot and the entry, which stand after the grant that follows. -/
theorem demandFillsEnd : Obligations.DemandFillsEnd := by
  refine ⟨?_, ?_, ?_⟩
  · intro c s op data j p e line stale hop ho hslot hfirst he hk completes
    have hfilling := State.fillingSlot_of_first hslot hfirst
    refine ⟨fun h => ?_, fun h => ?_⟩
    · have hexec : exec c s = .next ((s.freed op).demandSucceeded data (op.attempts == 1)).settle := by
        rw [exec_freed hop h, State.ownerSucceeded, ho]
      refine ⟨_, hexec, fun hs => ?_, fun hs => ?_⟩
      · subst hs
        have hends := State.demandSucceeded_settle (s := s.freed op) data (op.attempts == 1) hfilling he
        simp only [beq_iff_eq] at hends
        obtain ⟨hentry, hvalid, hfaults⟩ := hends
        exact ⟨hentry, hvalid, fun hj => (hfaults hj).trans
          (State.report_faults_congr (s := s) (t := s.freed op) rfl _ _)⟩
      · subst hs
        rw [State.demandSucceeded_of_stale (s := s.freed op) data _ hfilling he]
        exact State.returned_settle hk
    · obtain ⟨-, -, -, hengine, -⟩ := s.failing_frame op
      have hexec : exec c s = .next (s.failing op).demandFailed.settle := by
        rw [exec_failing hop h, State.ownerFailed, ho]
      rw [← hengine] at hfilling he
      refine ⟨_, hexec, fun hs => ?_, fun hs => ?_⟩
      · subst hs
        have hends := State.demandFailed_settle hfilling he
        rwa [hengine] at hends
      · subst hs
        rw [State.demandFailed_of_stale hfilling he]
        exact State.returned_settle hk
  · intro c s op data j line stale hop ho hslot hfirst waits roomBeside discards
    have hfilling := State.fillingSlot_of_first hslot hfirst
    have hdiscards (u : State) (hu : u.engine = s.engine) : discards (u.setSlot j .free).settle := by
      refine ⟨State.freed_settle, fun q f ⟨hf, hk, hw⟩ => State.waiting_settle ?_ hk hw⟩
      rw [← hu] at hf
      exact hf
    refine ⟨fun h => ?_, fun h => ?_⟩
    · have hexec : exec c s = .next ((s.freed op).prefetchSucceeded data).settle := by
        rw [exec_freed hop h, State.ownerSucceeded, ho]
      refine ⟨_, hexec, fun hs hn hroom => ?_, fun hs q f hadopts => ?_, fun hs => ?_⟩
      · subst hs
        rw [State.prefetchSucceeded_of_fresh (s := s.freed op) data hfilling]
        exact State.prefetched_unowned (s := s.freed op) data hslot hn hroom
      · subst hs
        rw [State.prefetchSucceeded_of_fresh (s := s.freed op) data hfilling]
        obtain ⟨hvalid, hentry, hfaults⟩ := State.prefetched_adopted (s := s.freed op) (j := j) data hadopts
        exact ⟨hvalid, hentry, fun hj => (hfaults hj).trans
          (State.report_faults_congr (s := s) (t := s.freed op) rfl _ _)⟩
      · subst hs
        rw [State.prefetchSucceeded_of_stale (s := s.freed op) data hfilling]
        exact ⟨hdiscards (s.freed op) rfl, fun hj => (State.settle_of_not_failed (s := (s.freed op).setSlot j .free) hj).2⟩
    · obtain ⟨-, -, -, hengine, -, hjournal, -⟩ := s.failing_frame op
      have hexec : exec c s = .next (s.failing op).prefetchFailed.settle := by
        rw [exec_failing hop h, State.ownerFailed, ho]
      obtain ⟨hcounters, -⟩ := s.failing_counts op
      rw [if_pos ho] at hcounters
      rw [State.prefetchFailed_of_filling (by rw [hengine]; exact hfilling)] at hexec
      refine ⟨_, hexec, hdiscards _ hengine, ?_, fun hnone hj => ?_⟩
      · rw [State.settle_counters]
        exact hcounters
      · rw [(State.settle_of_not_failed (s := (s.failing op).setSlot j .free) (by simpa using hj)).2]
        exact (State.failing_faults hnone).trans (by rw [if_pos ho])
  · intro c s op data hop ho hno reachesNothing
    have hfilling := State.fillingSlot_of_none hno
    refine ⟨fun h => ?_, fun h => ?_⟩
    · have hexec : exec c s = .next (s.freed op).settle := by
        rw [exec_freed hop h, State.ownerSucceeded_of_no_slot (s := s.freed op) data ho hfilling]
      exact ⟨_, hexec, State.reachesNothing_settle rfl rfl rfl rfl,
        fun hj => (State.settle_of_not_failed (s := s.freed op) hj).2⟩
    · obtain ⟨-, -, hqueue, hengine, -, hjournal, -⟩ := s.failing_frame op
      obtain ⟨hcounters, hcodes, -⟩ := s.failing_counts op
      have hexec : exec c s = .next (s.failing op).settle := by
        rw [exec_failing hop h, State.ownerFailed_of_no_slot ho (by rw [hengine]; exact hfilling)]
      refine ⟨_, hexec, State.reachesNothing_settle hqueue hengine hjournal hcodes, ?_, fun hnone hj => ?_⟩
      · rw [State.settle_counters]
        exact hcounters
      · rw [(State.settle_of_not_failed (by rwa [hjournal])).2]
        exact State.failing_faults hnone

end Sys2Proof.Machine
end

section
/-! O51 (R72, R112, R118, R122): the two classes alternate. -/

namespace Sys2Proof.Machine

namespace State

/-! ### The write class has the turn -/

/-- R118: the write class is granted where its turn is, and the read buffer is not touched. -/
theorem arbitrate_of_turn {s : State} {op : Operation} (hop : s.port.op = none) (hf : s.supply.state ≠ .fail)
    (hidle : s.startup.procedure = .idle) (ho : s.writeOffer = some op) (hr : s.port.lastClass = .read) :
    s.arbitrate = s.grantWrite op := by
  have hfree : (s.port.op.isSome || s.supply.state == .fail) = false := by simp [hop, hf]
  have hturn : s.writeTurn = true := by simp [writeTurn, ho, hr]
  simp only [arbitrate, hfree, procedureOp_of_idle hidle, Bool.false_eq_true, if_false, hturn, if_true, ho]
  rfl

/-- R39, R118: the drain in progress goes on. -/
theorem settle_drain_turn {s : State} {d : Drain} (hop : s.port.op = none) (hf : s.supply.state ≠ .fail)
    (hidle : s.startup.procedure = .idle) (hl : s.mgmt.longCmd ≠ some .initJournal) (hr : s.port.lastClass = .read)
    (hd : s.drain = some d) (hb : (s.itemBody d.item).isSome = true ∨ d.stage = .closeHeader) :
    s.settle.port.lastClass = .write ∧ s.settle.engine = s.engine ∧
      ∃ o, s.settle.port.op = some o ∧ o.owner = .head ∧ o.attempts = 1 ∧ s.settle.carriesDrain o := by
  obtain ⟨o, ho⟩ := drainOp_of_stands hb.symm
  have hoffer : s.writeOffer = some o := by
    rw [writeOffer_of_not_init hl, hd]
    exact ho
  have hsettle : s.settle = s.grantWrite o := by
    rw [settle, beginDrains_of_not_mayBegin _ _ (mayBegin_eq_false_of_drain hd)]
    exact arbitrate_of_turn hop hf hidle hoffer hr
  have hcarries : s.settle.carriesDrain o := settle_head hop (by rw [hsettle]; rfl) (drainOp_owner ho)
  have hattempts : o.attempts = 1 := by
    obtain ⟨-, -, -, hattempts, -⟩ := hcarries
    exact hattempts
  exact ⟨by rw [hsettle]; rfl, by rw [hsettle]; rfl, o, by rw [hsettle]; rfl, drainOp_owner ho, hattempts, hcarries⟩

/-! ### No write work stands -/

section
variable {s : State} (hop : s.port.op = none) (hf : s.supply.state ≠ .fail) (hidle : s.startup.procedure = .idle)
  (hl : s.mgmt.longCmd ≠ some .initJournal) (hd : s.drain = none) (hq : s.queue = [])
include hq in
/-- R39: no drain begins. -/
theorem beginDrains_of_nothing
    (hn : ∀ (p : Fin 4) (e : DelayedEntry), s.engine.table[p] = some e → e.isPendingWrite = false) :
    State.beginDrains longestOrder s = s := beginDrains_of_no_head _ _ (headItem_of_nothing hq hn)

include hq hd in
/-- R58, R62: the only entry, a WAITING read, is ready. -/
theorem oldestReader_of_only {p : Fin 4} {e : DelayedEntry} (he : s.engine.table[p] = some e) (hk : e.kind = .read)
    (hw : e.state = .waiting) (honly : ∀ q, q ≠ p → s.engine.table[q] = none) :
    s.oldestReader p e ∧
      ∀ (q : Fin 4) (f : DelayedEntry), s.engine.table[q] = some f → f.isPendingWrite = false := by
  have hread (q : Fin 4) (f : DelayedEntry) (hfq : s.engine.table[q] = some f) : q = p ∧ f = e := by
    by_cases hqp : q = p
    · subst hqp
      rw [he] at hfq
      cases hfq
      exact ⟨rfl, rfl⟩
    · rw [honly q hqp] at hfq
      cases hfq
  have hpending (q : Fin 4) (f : DelayedEntry) (hfq : s.engine.table[q] = some f) : f.isPendingWrite = false := by
    obtain ⟨-, rfl⟩ := hread q f hfq
    simp [DelayedEntry.isPendingWrite, hk]
  refine ⟨⟨⟨he, hk, hw, rfl, fun w hw => ?_⟩, fun q f hne hfq => absurd (hread q f hfq).1 hne⟩, hpending⟩
  rw [← mem_writesInOrder, writesInOrder_eq_nil hq hd hpending] at hw
  cases hw

include hop hf hidle hl hd hq in
/-- R118: with no entry the read class takes the prefetch list. -/
theorem settle_of_no_entry (hn : ∀ p : Fin 4, s.engine.table[p] = none) : s.settle = s.takePrefetch none := by
  have hbegun := beginDrains_of_nothing hq fun p e he => by rw [hn p] at he; cases he
  have hoffer : s.writeOffer = none := by
    rw [writeOffer_of_not_init hl, hd]
    rfl
  have hfree : (s.port.op.isSome || s.supply.state == .fail) = false := by simp [hop, hf]
  have hturn : ¬ s.writeTurn = true := by simp [writeTurn, hoffer]
  rw [settle, hbegun]
  simp only [arbitrate, hfree, procedureOp_of_idle hidle, Bool.false_eq_true, if_false, if_neg hturn, takeRead,
    oldestReadyRead_of_no_entry hn, hoffer]

end

/-- R72, R112: the first line of the list, in no slot, is prefetched with one attempt and no failure kind. -/
theorem takePrefetch_of_line {s : State} {l : Nat} {rest : List Nat} (hp : s.engine.prefetch = l :: rest)
    (hs : s.engine.inSlot l = false) (hfree : ∃ j : Fin 8, s.engine.slots[j] = .free) :
    (s.takePrefetch none).justIssued .lineRead l .prefetch none ∧ (s.takePrefetch none).engine.prefetch = rest ∧
      ∀ o, (s.takePrefetch none).port.op = some o → o.limit = 1 ∧ o.failure = none := by
  have hleft : s.engine.prefetchLeft = l :: rest := by simp [Engine.prefetchLeft, hp, hs]
  obtain ⟨i, hi⟩ := slotToTake_of_free (g := { s.engine with prefetch := rest }) hfree
  have hgrant : s.takePrefetch none = (((s.setEngine { s.engine with prefetch := rest }).setSlot i
      (.filling l false none)).grantedTo .read).issue (readOp .prefetch l 1 none noRegion) := by
    simp only [takePrefetch, hleft, grantPrefetch]
    rw [show (s.setEngine { s.engine with prefetch := rest }).engine.slotToTake = some i from hi]
  rw [hgrant]
  refine ⟨⟨_, rfl, rfl, rfl, rfl, rfl, rfl, rfl, rfl, rfl, fun x hx => by cases hx⟩, rfl, fun o ho => ?_⟩
  cases ho
  exact ⟨rfl, rfl⟩

theorem takePrefetch_of_no_line {s : State} (hop : s.port.op = none) (hp : s.engine.prefetch = []) :
    (s.takePrefetch none).port.op = none := by
  have hleft : s.engine.prefetchLeft = [] := by simp [Engine.prefetchLeft, hp]
  simp only [takePrefetch, hleft]
  exact hop

/-- R71: a slot that is freed holds no line. -/
theorem inSlot_of_freed {g : Engine} {l : Nat} (i : Fin 8) (h : g.inSlot l = false) :
    ({ g with slots := g.slots.set i .free } : Engine).inSlot l = false := by
  refine inSlot_eq_false fun j => ?_
  rw [get_set]
  split
  · rfl
  · rw [Engine.inSlot, List.any_eq_false] at h
    simpa using h g.slots[j] (by simp)

/-! ### The before-image read of the head -/

/-- R41, R42: an entry that still stands goes on to the next stage. -/
theorem headSucceeded_of_kept {s : State} {d : Drain} {b : Body} (data : Line) (first : Bool) (hd : s.drain = some d)
    (hb : s.itemBody d.item = some b) (hk : ∀ x, d.item ≠ .removed x) :
    s.headSucceeded data first = s.stageSucceeded d b data first := by
  cases hi : d.item with
  | postedWrite =>
    rw [hi] at hb
    simp only [headSucceeded, hd, hi, hb]
  | delayedWrite p =>
    rw [hi] at hb
    simp only [headSucceeded, hd, hi, hb]
  | closeMarker =>
    rw [hi] at hb
    cases hb
  | removed x => exact absurd hi (hk x)

/-- R58: a drain that goes on in another stage leaves the writes that stand. -/
theorem noWriteBefore_of_stage {s : State} {d d' : Drain} {b : Body} (hd : s.drain = some d) (hi : d'.item = d.item)
    (h : s.noWriteBefore b) : (s.setDrain (some d')).noWriteBefore b := by
  intro w hw
  refine h w ?_
  rcases hw with hmem | hdelayed | ⟨x, hx, hremoved⟩
  · exact .inl hmem
  · exact .inr (.inl hdelayed)
  · cases hx
    exact .inr (.inr ⟨d, hd, hi ▸ hremoved⟩)

end State

/-- Settles O51: the failed prefetch by each of the grants that may follow, the before-image read by the demand fill. -/
theorem theClassesAlternate : Obligations.TheClassesAlternate := by
  refine ⟨?_, ?_⟩
  · intro c s op i line stale hop ho hfails hslot hfirst hidle hf hclass hlong
    obtain ⟨-, -, hqueue, hengine, -, -, hdrain, hstartup, hsupply, hmgmt, hport⟩ := s.failing_frame op
    obtain ⟨-, -, hlast⟩ := s.failing_counts op
    let w : State := (s.failing op).setSlot i .free
    have hexec : exec c s = .next w.settle := by
      rw [exec_failing hop hfails, State.ownerFailed, ho]
      have hfilling := State.fillingSlot_of_first hslot hfirst
      rw [← hengine] at hfilling
      exact congrArg (fun t : State => Host.Outcome.next t.settle) (State.prefetchFailed_of_filling hfilling)
    have hwengine : w.engine = { s.engine with slots := s.engine.slots.set i .free } := by
      rw [← hengine]
      rfl
    have hwop : w.port.op = none := hport
    have hwf : w.supply.state ≠ .fail := (congrArg SupplyUnit.state hsupply).trans_ne hf
    have hwidle : w.startup.procedure = .idle := (congrArg Startup.procedure hstartup).trans hidle
    have hwlong : w.mgmt.longCmd ≠ some .initJournal :=
      (congrArg ManagementPort.longCmd hmgmt).trans_ne (by rw [hlong]; simp)
    have hfree : ∃ j : Fin 8, w.engine.slots[j] = .free := ⟨i, by rw [hwengine, get_set, if_pos rfl]⟩
    refine ⟨w.settle, hexec, fun d hd hb => ?_, fun hd hq p e he hk hw honly => ?_, fun hd hq htable => ⟨fun l rest hp hs => ?_,
      fun hp => ?_⟩⟩
    · have hwb : (w.itemBody d.item).isSome = true ∨ d.stage = .closeHeader := by
        refine hb.imp_left fun hb => ?_
        have hsame : w.itemBody d.item = s.itemBody d.item := by
          cases d.item with
          | postedWrite => exact congrArg (fun q : List QueueEntry => q.head?.bind QueueEntry.body) hqueue
          | closeMarker => rfl
          | delayedWrite p => simp only [State.itemBody, hwengine]
          | removed x => rfl
        rwa [hsame]
      obtain ⟨hwrite, hkept, hgrant⟩ := State.settle_drain_turn hwop hwf hwidle hwlong (hlast.trans hclass)
        (hdrain.trans hd) hwb
      exact ⟨hwrite, by rw [hkept, hwengine], hgrant⟩
    · obtain ⟨hreader, hpending⟩ := State.oldestReader_of_only (s := w) (hdrain.trans hd) (hqueue.trans hq) (p := p) (e := e)
        (by rw [hwengine]; exact he) hk hw (fun q hne => by rw [hwengine]; exact honly q hne)
      have hnoDrain : w.settle.drain = none := by
        rw [State.settle, State.beginDrains_of_nothing (s := w) (hqueue.trans hq) hpending]
        exact (show w.arbitrate.drain = w.drain by simp).trans (hdrain.trans hd)
      obtain ⟨hissued, hread, -⟩ := State.settle_reads hwop hwf hwidle hreader hfree (.inr ⟨hnoDrain, hwlong⟩)
      exact ⟨hissued, hread⟩
    · have hn (p : Fin 4) : w.engine.table[p] = none := by rw [hwengine]; exact State.idlePort_table htable p
      rw [State.settle_of_no_entry hwop hwf hwidle hwlong (hdrain.trans hd) (hqueue.trans hq) hn]
      exact State.takePrefetch_of_line (by rw [hwengine]; exact hp) (by rw [hwengine]; exact State.inSlot_of_freed i hs) hfree
    · have hn (p : Fin 4) : w.engine.table[p] = none := by rw [hwengine]; exact State.idlePort_table htable p
      rw [State.settle_of_no_entry hwop hwf hwidle hwlong (hdrain.trans hd) (hqueue.trans hq) hn]
      exact State.takePrefetch_of_no_line hwop (by rw [hwengine]; exact hp)
  · intro c s op data d b p e hop ho hsucceeds hd hb hr hs hidle hf hclass hlong he hk hw hready honly hfree
    let d' : Drain := ⟨d.item, .imageWrite, data, d.firstTry && op.attempts == 1⟩
    let w : State := (s.freed op).setDrain (some d')
    have hexec : exec c s = .next w.settle := by
      rw [exec_freed hop hsucceeds, State.ownerSucceeded, ho]
      refine congrArg (fun t : State => Host.Outcome.next t.settle)
        ((State.headSucceeded_of_kept (s := s.freed op) data (op.attempts == 1) hd hb hr).trans ?_)
      simp only [State.stageSucceeded, hs]
      rfl
    have hreader : w.oldestReader p e :=
      ⟨⟨he, hk, hw, rfl, State.noWriteBefore_of_stage (s := s.freed op) (d := d) hd rfl hready⟩,
        fun q f hne hfq hkf hwf => absurd hwf (honly q f hne hfq hkf)⟩
    obtain ⟨hissued, hread, hentry⟩ := State.settle_reads (s := w) rfl hf hidle hreader hfree (.inl hclass)
    exact ⟨w.settle, hexec, State.settle_drain_of_some (s := w) rfl, hissued, hread, hentry⟩

end Sys2Proof.Machine
end

section
/-! O48 (R43 to R46, R61, R76, R94, R112): the head's operation ends in failure. -/

namespace Sys2Proof.Machine

namespace State

/-! ### An item leaves the write order -/

/-- R42 to R46, R61, R76: what an item that leaves with a code and a result makes of the state. -/
structure Left (s w : State) (item : DrainItem) (b : Body) (code : RegionCode) (r : EntryResult) : Prop where
  drain : w.drain = none
  queue : w.queue = if item = .postedWrite then s.queue.tail else s.queue
  journal : w.journal = s.journal
  reported : (∀ x, item ≠ .removed x) → w.faults = (s.report b.cls.region code).faults
  unreported : (¬ ∀ x, item ≠ .removed x) → w.faults = s.faults
  other : ∀ p, item ≠ .delayedWrite p → w.engine.table[p] = s.engine.table[p]
  own : ∀ p e, item = .delayedWrite p → s.engine.table[p] = some e → w.engine.table[p] = some { e with
    state := .complete r, slot := none, timer := some (s.engine.claimTimeout.toNat * 16) }

theorem itemBody_delayed {s : State} {p : Fin 4} {b : Body} (hb : s.itemBody (.delayedWrite p) = some b) :
    ∃ e, s.engine.table[p] = some e ∧ e.body = b := by
  simpa only [itemBody, Option.map_eq_some_iff] using hb

theorem leave_left {s : State} {item : DrainItem} {b : Body} (hb : s.itemBody item = some b) (code : RegionCode)
    (r : EntryResult) : s.Left (s.leave item code r) item b code r := by
  cases item with
  | postedWrite =>
    have heq : s.leave .postedWrite code r = (s.popQueue.setDrain none).report b.cls.region code := by
      simp only [leave, hb]
    rw [heq]
    refine ⟨by simp, by simp [popQueue], by simp [popQueue], fun _ => ?_, fun h => absurd (by simp) h, fun p _ => ?_,
      fun p e h => by cases h⟩
    · exact report_faults_congr (s := s) (t := s.popQueue.setDrain none) rfl _ _
    · simp [popQueue]
  | closeMarker => cases hb
  | removed x =>
    exact ⟨rfl, rfl, rfl, fun h => absurd rfl (h x), fun _ => rfl, fun p _ => rfl, fun p e h => by cases h⟩
  | delayedWrite p =>
    obtain ⟨e, he, rfl⟩ := itemBody_delayed hb
    have heq : s.leave (.delayedWrite p) code r =
        ((s.completeEntry p e r none).setDrain none).report e.body.cls.region code := by
      simp only [leave, he]
    rw [heq]
    refine ⟨by simp, by simp, by simp, fun _ => ?_, fun h => absurd (by simp) h, fun q hq => ?_, fun q f hq hf => ?_⟩
    · exact report_faults_congr (s := s) (t := (s.completeEntry p e r none).setDrain none) rfl _ _
    · have hne : p ≠ q := fun h => hq (h ▸ rfl)
      simp only [report_frame]
      exact (get_set _ _ _ _).trans (if_neg hne)
    · cases hq
      rw [he] at hf
      cases hf
      simp only [report_frame]
      exact (get_set _ _ _ _).trans (if_pos rfl)

/-! ### The failure -/

/-- R45, R46, R94: the journal after a failed operation of a stage: FAILED after a write of the record. -/
def journalFails (s : State) (stage : DrainStage) : State :=
  if stage = .imageWrite ∨ stage = .recordHeader then s.setJournalState .failed else s

/-- R43, R45, R46: the code that a failed operation of a stage reports. -/
def failCode (stage : DrainStage) : RegionCode :=
  if stage = .imageWrite ∨ stage = .recordHeader then .journalFail else .memoryFail

theorem setDrain_setJournalState (s : State) (x : JournalState) :
    (s.setDrain none).setJournalState x = (s.setJournalState x).setDrain none := by
  by_cases hx : s.journal.state = x
  · have hsame : s.setJournalState x = s := if_pos hx
    have hdropped : (s.setDrain none).setJournalState x = s.setDrain none := if_pos hx
    rw [hsame, hdropped]
  · have hraise : ((s.setDrain none).raise .journal).faults = (s.raise .journal).faults :=
      raise_faults_congr (s := s) (t := s.setDrain none) rfl _
    have hagain : (((s.setDrain none).raise .journal).raise .inhibit).faults = ((s.raise .journal).raise .inhibit).faults :=
      raise_faults_congr hraise _
    have hdropped : ¬ (s.setDrain none).journal.state = x := hx
    rw [setJournalState_eq (s.setDrain none) x, setJournalState_eq s x]
    simp only [hx, hdropped, if_false, hraise, hagain]
    rfl

theorem headFailed_eq {s : State} {d : Drain} {b : Body} (hd : s.drain = some d) (hb : s.itemBody d.item = some b)
    (hs : d.stage ≠ .closeHeader) :
    s.headFailed = (s.journalFails d.stage).leave d.item (failCode d.stage) .fail := by
  cases hi : d.item with
  | postedWrite =>
    simp only [headFailed, hd, hi, stageFailed, journalFails, failCode]
    cases hstage : d.stage <;> first | rfl | exact absurd hstage hs
  | delayedWrite p =>
    simp only [headFailed, hd, hi, stageFailed, journalFails, failCode]
    cases hstage : d.stage <;> first | rfl | exact absurd hstage hs
  | closeMarker =>
    rw [hi] at hb
    cases hb
  | removed x =>
    simp only [headFailed, hd, hi, removedFailed, journalFails]
    cases hstage : d.stage
    case closeHeader => exact absurd hstage hs
    case imageWrite => exact setDrain_setJournalState s .failed
    case recordHeader => exact setDrain_setJournalState s .failed
    case beforeImage => rfl
    case dataWrite => rfl

/-- R45, R46, R94: what a failed operation of a stage makes of the journal and the fault unit. -/
theorem journalFails_eq (s : State) (stage : DrainStage) :
    (s.journalFails stage).journal = { s.journal with
      state := if stage = .imageWrite ∨ stage = .recordHeader then .failed else s.journal.state } ∧
    (s.journalFails stage).queue = s.queue ∧ (s.journalFails stage).engine = s.engine ∧
    (s.journalFails stage).port = s.port ∧ (s.journalFails stage).faults.counters = s.faults.counters ∧
    (s.journalFails stage).faults.codes = s.faults.codes := by
  unfold journalFails
  split
  · simp [setJournalState_journal]
  · exact ⟨rfl, rfl, rfl, rfl, rfl, rfl⟩

theorem journalFails_recorded {s : State} {stage : DrainStage} (h : stage = .imageWrite ∨ stage = .recordHeader)
    (hj : s.journal.state ≠ .failed) : (s.journalFails stage).recorded .journal := by
  rw [journalFails, if_pos h]
  exact setJournalState_recorded hj

/-- R43, R45, R46, R156: the code of the entry's region after the failure. -/
theorem report_failCode (s : State) (region : Fin 9) (stage : DrainStage) :
    (s.report region (failCode stage)).faults.codes[region] =
      if (stage = .imageWrite ∨ stage = .recordHeader) ∧ s.faults.codes[region] ≠ .memoryFail then .journalFail
      else .memoryFail := by
  rw [report_code, failCode]
  by_cases h : stage = .imageWrite ∨ stage = .recordHeader
  · simp only [h, true_and]
    cases s.faults.codes[region] <;> rfl
  · simp only [h, false_and, if_false]
    cases s.faults.codes[region] <;> rfl

/-- R44: at a code as severe as JOURNAL_FAIL a drop that follows reports nothing. -/
theorem settle_code_of_severe {s : State} {i : Fin 9} (h : s.faults.codes[i].byte ≤ 2) :
    s.settle.faults.codes[i] = s.faults.codes[i] := by
  obtain hsame | ⟨-, hworse⟩ := s.settle_code i
  · exact hsame
  · omega

/-- R44: a code changes by a drop alone, in journal FAILED. -/
theorem settle_code_cases (s : State) (i : Fin 9) : s.settle.faults.codes[i] = s.faults.codes[i] ∨
    (s.settle.journal.state = .failed ∧ s.settle.faults.codes[i] = .journalFail) := by
  by_cases hf : s.journal.state = .failed
  · exact (s.settle_code i).imp id fun h => ⟨by simpa using hf, h.1⟩
  · exact .inl (by rw [(settle_of_not_failed hf).2])

/-! ### An item has left -/

section
variable {s w : State} {item : DrainItem} {b : Body} {code : RegionCode} {r : EntryResult} (h : s.Left w item b code r)
include h

theorem Left.queue_length (hq : s.queue.length ≤ 16) : w.queue.length ≤ 16 := by
  rw [h.queue]
  split
  · rw [List.length_tail]
    omega
  · exact hq

theorem Left.writesGoOn (hq : s.queue.length ≤ 16) : w.settle.writesGoOn :=
  settle_writesGoOn h.drain (h.queue_length hq)

theorem Left.writeGoesOn {p : Fin 4} {e : DelayedEntry} (hp : item ≠ .delayedWrite p) (he : s.engine.table[p] = some e)
    (hk : e.kind = .write) : w.settle.writeGoesOn p e :=
  settle_writeGoesOn h.drain ((h.other p hp).trans he) hk

theorem Left.dropsFrom_posted (hi : item = .postedWrite) : w.settle.dropsFrom s.queue.tail := by
  have hdrops := settle_dropsFrom w
  rwa [h.queue, if_pos hi] at hdrops

theorem Left.dropsFrom_other (hi : item ≠ .postedWrite) : w.settle.dropsFrom s.queue := by
  have hdrops := settle_dropsFrom w
  rwa [h.queue, if_neg hi] at hdrops

theorem Left.completed {p : Fin 4} {e : DelayedEntry} (hi : item = .delayedWrite p) (he : s.engine.table[p] = some e) :
    w.settle.engine.table[p] = some { e with
      state := .complete r, slot := none, timer := some (s.engine.claimTimeout.toNat * 16) } :=
  settle_table_of_complete (r := r) (h.own p e hi he) rfl

/-- R156: the other regions keep their codes. -/
theorem Left.code_other {i : Fin 9} (hk : ∀ x, item ≠ .removed x) (hi : i ≠ b.cls.region) :
    w.faults.codes[i] = s.faults.codes[i] := by
  rw [h.reported hk]
  exact report_code_other _ _ _ _ hi

end

/-- R38, R44: with no write left nothing is dropped and no drain begins. -/
theorem settle_of_nothing {s : State} (hd : s.drain = none) (hq : s.queue = [])
    (hn : ∀ (p : Fin 4) (e : DelayedEntry), s.engine.table[p] = some e → e.isPendingWrite = false) :
    s.settle.faults = s.faults ∧ s.settle.drain = none := by
  rw [settle, beginDrains_of_nothing hq hn]
  simp [hd]

end State

/-- Settles O48: the failed operation by what leaves, and what the settling makes of it. -/
theorem theHeadsOperationFails : Obligations.TheHeadsOperationFails := by
  intro c s op d b hop ho hfails hd hb hs written kept
  obtain ⟨-, -, hqueue, hengine, -, hjournal, hdrain, -, -, -, hport⟩ := s.failing_frame op
  obtain ⟨hcounters, hcodes, -⟩ := s.failing_counts op
  rw [if_neg (by simp [ho])] at hcounters
  let u : State := s.failing op
  let v : State := u.journalFails d.stage
  let w : State := v.leave d.item (State.failCode d.stage) .fail
  obtain ⟨hvjournal, hvqueue, hvengine, hvport, hvcounters, hvcodes⟩ := u.journalFails_eq d.stage
  have hbody (x : State) (hxq : x.queue = s.queue) (hxg : x.engine = s.engine) : x.itemBody d.item = some b := by
    rw [← hb]
    cases d.item <;> simp only [State.itemBody, hxq, hxg]
  have hexec : exec c s = .next w.settle := by
    rw [exec_failing hop hfails, State.ownerFailed, ho]
    exact congrArg (fun t : State => Host.Outcome.next t.settle)
      (State.headFailed_eq (s := u) (hdrain.trans hd) (hbody u hqueue hengine) hs)
  have hleft : v.Left w d.item b (State.failCode d.stage) .fail :=
    State.leave_left (hbody v (hvqueue.trans hqueue) (hvengine.trans hengine)) _ _
  have hvq : v.queue = s.queue := hvqueue.trans hqueue
  have hvg : v.engine = s.engine := hvengine.trans hengine
  have hvc : v.faults.codes = s.faults.codes := hvcodes.trans hcodes
  have hwjournal : w.settle.journal = v.journal := by simp [w]
  have hwport : w.port.op = none := (show w.port.op = u.port.op by simp [w, v, hvport]).trans hport
  have hcases (i : Fin 9) (hi : w.faults.codes[i] = s.faults.codes[i]) : w.settle.faults.codes[i] = s.faults.codes[i] ∨
      (w.settle.journal.state = .failed ∧ w.settle.faults.codes[i] = .journalFail) := hi ▸ w.settle_code_cases i
  refine ⟨w.settle, hexec, State.settle_drainsAnew hleft.drain, fun hq => hleft.writesGoOn (by rwa [hvq]),
    fun p e hp he hk => hleft.writeGoesOn hp (by rwa [hvg]) hk, ?_, fun hw hj => ?_, ?_, fun hk => ?_,
    fun i hk hi => hcases i ?_, fun hk i => hcases i ?_, fun hk hq hn => ?_, fun hi => ?_, fun hi => ?_, fun hj => ?_,
    fun p e hi he => ?_, fun o hissued howner => State.settle_head hwport hissued howner⟩
  · rw [hwjournal, hvjournal, hjournal]
  · refine State.recorded_of_grows ?_ (State.journalFails_recorded (s := u) hw (by rwa [hjournal]))
    exact State.settle_grows _ (State.leave_grows _ _ _ _ (.refl _))
  · rw [State.settle_counters, State.leave_counters]
    exact hvcounters.trans hcounters
  · have hregion : w.faults.codes[b.cls.region] = if written ∧ s.faults.codes[b.cls.region] ≠ .memoryFail then .journalFail
        else .memoryFail := by
      rw [hleft.reported hk, State.report_failCode, hvc]
    rw [← hregion]
    refine State.settle_code_of_severe ?_
    rw [hregion]
    split <;> decide
  · rw [hleft.code_other hk hi, hvc]
  · rw [hleft.unreported hk, hvc]
  · have hposted : d.item ≠ .postedWrite := fun h => hk fun x hx => by rw [h] at hx; cases hx
    have hdelayed (p : Fin 4) : d.item ≠ .delayedWrite p := fun h => hk fun x hx => by rw [h] at hx; cases hx
    obtain ⟨hfaults, hnone⟩ := State.settle_of_nothing hleft.drain (by rw [hleft.queue, if_neg hposted, hvq, hq])
      (fun p e he => hn p e (by rwa [hleft.other p (hdelayed p), hvg] at he))
    exact ⟨by rw [hfaults, hleft.unreported hk, hvc], hnone⟩
  · exact hvq ▸ hleft.dropsFrom_posted hi
  · exact hvq ▸ hleft.dropsFrom_other hi
  · have hwj : w.journal.state ≠ .failed := by simpa using hj
    rw [(State.settle_of_not_failed hwj).1, hleft.queue, hvq]
  · have hcompleted := hleft.completed hi (by rwa [hvg])
    rwa [hvg] at hcompleted

end Sys2Proof.Machine
end

section
/-! O47 (R40, R41, R42, R44, R47, R61, R76, R87, R91, R92, R112): the head's operation ends in success. -/

namespace Sys2Proof.Machine

namespace State

/-! ### Reservations at a grant -/

/-- R87: entries that count alike, place by place. -/
theorem countP_table_congr {f : DelayedEntry → Bool} {v w : Vector (Option DelayedEntry) 4}
    (h : ∀ p : Fin 4, v[p].any f = w[p].any f) :
    v.toList.countP (fun x => x.any f) = w.toList.countP (fun x => x.any f) := by
  have hmap : v.toList.map (fun x => x.any f) = w.toList.map (fun x => x.any f) := by
    refine List.ext_getElem (by simp) fun i hi _ => ?_
    have hlt : i < 4 := by simpa using hi
    simpa using h ⟨i, hlt⟩
  have hcount (l : List (Option DelayedEntry)) : l.countP (fun x => x.any f) = (l.map fun x => x.any f).countP id := by
    rw [List.countP_map]
    rfl
  rw [hcount, hcount, hmap]

theorem holdsOwn_of_read {e : DelayedEntry} (h : e.kind = .read) : e.holdsOwn = false := by
  simp [DelayedEntry.holdsOwn, DelayedEntry.isPendingWrite, h]

/-- R87, R118: a grant changes no entry of the write order. -/
theorem arbitrate_holdsOwn (s : State) (p : Fin 4) :
    (s.arbitrate.engine.table[p]).any (·.holdsOwn) = (s.engine.table[p]).any (·.holdsOwn) := by
  cases he : s.engine.table[p] with
  | none =>
    cases hf : s.arbitrate.engine.table[p] with
    | none => rfl
    | some f =>
      obtain ⟨e, he', -⟩ := arbitrate_entry s p f hf
      rw [he] at he'
      cases he'
  | some e =>
    obtain ⟨hstays, f, hf, -, hkind, -⟩ := arbitrate_table he
    cases hk : e.kind with
    | write => rw [hstays (by simp [hk])]
    | read =>
      rw [hf]
      simp only [Option.any_some, holdsOwn_of_read hk, holdsOwn_of_read (hkind.trans hk)]

theorem arbitrate_reservations (s : State) : s.arbitrate.reservations = s.reservations := by
  have hremoved : s.arbitrate.removedBody = s.removedBody := by simp [removedBody]
  have hentries : s.arbitrate.engine.entries.countP (fun x => x.2.holdsOwn) =
      s.engine.entries.countP (fun x => x.2.holdsOwn) := by
    rw [← Engine.countP_table, ← Engine.countP_table]
    exact countP_table_congr s.arbitrate_holdsOwn
  simp [reservations_eq, hremoved, hentries]

/-! ### A record completes -/

/-- R86, R92: W rises, and the line is RECORDED. -/
theorem completeRecord_eq (s : State) (item : DrainItem) (b : Body) :
    (s.completeRecord item b).journal = { s.journal with
      written := s.journal.written + 1
      lineSet := s.journal.lineSet.map fun e => if e.1 = b.line then (e.1, Mark.recorded) else e } ∧
    (s.completeRecord item b).faults = (s.count .journalRecords).faults := by
  refine ⟨by simp [completeRecord, Journal.record], ?_⟩
  exact count_faults_congr (by simp) _

theorem completeRecord_faults_codes (s : State) (item : DrainItem) (b : Body) :
    (s.completeRecord item b).faults.codes = s.faults.codes := by
  rw [(s.completeRecord_eq item b).2]
  simp

/-- R92: the record of a posted write is noted in the queue's head. -/
theorem completeRecord_posted (s : State) (b : Body) :
    (s.completeRecord .postedWrite b).queue = .write { b with recorded := true } :: s.queue.tail ∧
      (s.completeRecord .postedWrite b).engine = s.engine := by
  simp [completeRecord, setItemBody]

theorem completeRecord_removed (s : State) (x b : Body) : (s.completeRecord (.removed x) b).queue = s.queue ∧
    (s.completeRecord (.removed x) b).engine = s.engine := by
  simp [completeRecord, setItemBody]

theorem removedBody_of_posted {s : State} {d : Drain} (hd : s.drain = some d) (hi : d.item = .postedWrite) :
    s.removedBody = none := by
  rw [Option.eq_none_iff_forall_not_mem]
  intro b hb
  obtain ⟨d', hd', hremoved⟩ := removedBody_eq_some.mp hb
  rw [hd] at hd'
  cases hd'
  rw [hi] at hremoved
  cases hremoved

/-- R87, R92: the record takes the line's reservation or the entry's own. -/
theorem completeRecord_reservations {s : State} {d d' : Drain} {b : Body} (hd : s.drain = some d) (hi : d.item = .postedWrite)
    (hb : s.itemBody .postedWrite = some b) (hi' : d'.item = .postedWrite) (hl : s.lineSetLaw)
    (hr : ((b.line, Mark.reserved) ∈ s.journal.lineSet ∧ b.holdsOwn = false) ∨
      (b.line ∉ s.journal.lineSet.map (·.1) ∧ b.holdsOwn = true)) :
    ((s.completeRecord .postedWrite b).setDrain (some d')).journal.written +
        ((s.completeRecord .postedWrite b).setDrain (some d')).reservations =
      s.journal.written + s.reservations := by
  let w : State := (s.completeRecord .postedWrite b).setDrain (some d')
  obtain ⟨hjournal, -⟩ := s.completeRecord_eq .postedWrite b
  obtain ⟨hqueue, hengine⟩ := s.completeRecord_posted b
  have hwj : w.journal = (s.completeRecord .postedWrite b).journal := rfl
  have hwq : w.queue = .write { b with recorded := true } :: s.queue.tail := hqueue
  have hwg : w.engine = s.engine := hengine
  have hhead : s.queue = .write b :: s.queue.tail := by
    cases hq : s.queue with
    | nil => simp [itemBody, hq] at hb
    | cons x rest =>
      cases x with
      | write b' =>
        simp [itemBody, hq, QueueEntry.body] at hb
        rw [hb]
        rfl
      | marker m => simp [itemBody, hq, QueueEntry.body] at hb
  have hnone : s.removedBody = none := removedBody_of_posted hd hi
  have hwnone : w.removedBody = none := removedBody_of_posted (d := d') rfl hi'
  have htaken : ({ b with recorded := true } : Body).holdsOwn = false := by simp [Body.holdsOwn]
  obtain ⟨hreserved, hunlisted⟩ := countP_record s.journal.lineSet b.line hl.2
  show w.journal.written + w.reservations = _
  rw [reservations_eq w, reservations_eq s, hnone, hwnone, hwg, hwq, hwj, hjournal, hhead]
  simp only [List.countP_cons, List.tail_cons, QueueEntry.body, Option.any_some, htaken, Option.toList_none, List.countP_nil]
  rcases hr with ⟨hmem, howns⟩ | ⟨hmem, howns⟩
  · have hcount := hreserved hmem
    simp only [howns]
    omega
  · rw [hunlisted hmem]
    simp only [howns]
    simp
    omega

end State

end Sys2Proof.Machine
end

section
/-! O47, its ends: the drain that goes on, and the drain that is over. -/

namespace Sys2Proof.Machine

namespace State

/-! ### The end of the drain -/

/-- R76, R92: the record that the last operation of a drain completes, if it is a record header write. -/
def recordCompletes (s : State) (d : Drain) (b : Body) : State :=
  if d.stage = .recordHeader then s.completeRecord d.item b else s

theorem recordCompletes_of_other {s : State} {d : Drain} (b : Body) (h : d.stage ≠ .recordHeader) :
    s.recordCompletes d b = s := if_neg h

/-- R76: where the drain is over, the record leaves the queue, the engine and the codes as they are. -/
theorem recordCompletes_eq {s : State} {d : Drain} (b : Body) (h : (∀ x, d.item ≠ .removed x) → d.stage = .dataWrite) :
    (s.recordCompletes d b).queue = s.queue ∧ (s.recordCompletes d b).engine = s.engine ∧
      (s.recordCompletes d b).journal.state = s.journal.state ∧
      (s.recordCompletes d b).faults.codes = s.faults.codes ∧ (s.recordCompletes d b).port = s.port := by
  by_cases hs : d.stage = .recordHeader
  · cases hi : d.item with
    | removed x =>
      obtain ⟨hqueue, hengine⟩ := s.completeRecord_removed x b
      rw [recordCompletes, if_pos hs, hi]
      exact ⟨hqueue, hengine, by simp, s.completeRecord_faults_codes _ b, by simp⟩
    | postedWrite => cases hs.symm.trans (h (by simp [hi]))
    | delayedWrite p => cases hs.symm.trans (h (by simp [hi]))
    | closeMarker => cases hs.symm.trans (h (by simp [hi]))
  · rw [recordCompletes_of_other b hs]
    exact ⟨rfl, rfl, rfl, rfl, rfl⟩

/-- R42, R76: the drain is over after the data write, and after any operation of a removed write. -/
theorem headSucceeded_of_last {s : State} {d : Drain} {b : Body} (data : Line) (first : Bool) (hd : s.drain = some d)
    (hb : s.itemBody d.item = some b) (h : (∀ x, d.item ≠ .removed x) → d.stage = .dataWrite) :
    s.headSucceeded data first =
      (s.recordCompletes d b).leave d.item (if d.firstTry && first then .clean else .recovered) .ok := by
  by_cases hk : ∀ x, d.item ≠ .removed x
  · have hs := h hk
    rw [headSucceeded_of_kept data first hd hb hk, recordCompletes_of_other b (by rw [hs]; decide)]
    simp only [stageSucceeded, hs]
  · obtain ⟨x, hx⟩ : ∃ x, d.item = .removed x := by simpa using hk
    have hbx : b = x := by
      rw [hx] at hb
      cases hb
      rfl
    subst hbx
    simp only [headSucceeded, hd, hx, removedSucceeded, recordCompletes]
    cases d.stage <;> rfl

/-- R91, R92: a record header write completes the record, and a drain whose entry stands goes on to its data write. -/
theorem headSucceeded_of_record {s : State} {d : Drain} {b : Body} (data : Line) (first : Bool) (hd : s.drain = some d)
    (hb : s.itemBody d.item = some b) (hs : d.stage = .recordHeader) :
    ∃ next, s.headSucceeded data first = (s.completeRecord d.item b).setDrain next ∧
      ((∀ x, d.item ≠ .removed x) → next = some ⟨d.item, .dataWrite, d.image, d.firstTry && first⟩) := by
  by_cases hk : ∀ x, d.item ≠ .removed x
  · refine ⟨_, (headSucceeded_of_kept data first hd hb hk).trans ?_, fun _ => rfl⟩
    simp only [stageSucceeded, hs]
  · obtain ⟨x, hx⟩ : ∃ x, d.item = .removed x := by simpa using hk
    refine ⟨none, ?_, fun h => absurd h hk⟩
    rw [headSucceeded_of_last data first hd hb fun h => absurd h hk, recordCompletes, if_pos hs, hx]
    rfl

end State

/-- Settles O47: the drain that goes on by its next stage, the drain that is over by what leaves. -/
theorem theHeadsOperationSucceeds : Obligations.TheHeadsOperationSucceeds := by
  intro c s op data d b hop ho hsucceeds hd hb once kept recorded left
  let u : State := s.freed op
  let w : State := u.headSucceeded data (op.attempts == 1)
  have hexec : exec c s = .next w.settle := by rw [exec_freed hop hsucceeds, State.ownerSucceeded, ho]
  have hgoes (hk : kept) {stage : DrainStage} {next : Drain} (hs : d.stage = stage)
      (hnext : u.stageSucceeded d b data (op.attempts == 1) = u.setDrain (some next)) :
      w.settle.drain = some next ∧ w.settle.journal = s.journal := by
    have hw : w = u.setDrain (some next) :=
      (State.headSucceeded_of_kept (s := u) data _ hd hb hk).trans hnext
    rw [hw]
    exact ⟨State.settle_drain_of_some rfl, by simp [u]⟩
  have hends (hlast : kept → d.stage = .dataWrite) :
      (u.recordCompletes d b).Left w d.item b (if once then .clean else .recovered) .ok ∧
        (u.recordCompletes d b).queue = s.queue ∧ (u.recordCompletes d b).engine = s.engine ∧
        (u.recordCompletes d b).journal.state = s.journal.state ∧ (u.recordCompletes d b).faults.codes = s.faults.codes := by
    obtain ⟨hqueue, hengine, hstate, hcodes, -⟩ := State.recordCompletes_eq (s := u) b hlast
    have hbody : (u.recordCompletes d b).itemBody d.item = some b := by
      rw [← hb]
      cases d.item <;> simp only [State.itemBody, hqueue, hengine] <;> rfl
    refine ⟨?_, hqueue, hengine, hstate, hcodes⟩
    have hw : w = (u.recordCompletes d b).leave d.item (if once then .clean else .recovered) .ok :=
      State.headSucceeded_of_last (s := u) data _ hd hb hlast
    rw [hw]
    exact State.leave_left hbody _ _
  refine ⟨w.settle, hexec, fun hk hs => hgoes hk hs (by simp only [State.stageSucceeded, hs]; rfl),
    fun hk hs => hgoes hk hs (by simp only [State.stageSucceeded, hs]; rfl), fun hs => ?_, fun hi hs hl hr => ?_,
    fun hlast => ?_, fun hk hs => ?_, fun hk => ?_, fun o hissued howner => State.settle_head ?_ hissued howner⟩
  · obtain ⟨next, hw, hnext⟩ := State.headSucceeded_of_record (s := u) data (op.attempts == 1) hd hb hs
    obtain ⟨hjournal, hfaults⟩ := u.completeRecord_eq d.item b
    refine ⟨?_, ?_, fun hk => State.settle_drain_of_some ((congrArg State.drain hw).trans (hnext hk))⟩
    · exact (show w.settle.journal = w.journal by simp).trans ((congrArg State.journal hw).trans hjournal)
    · have hwfaults : w.faults = (u.count .journalRecords).faults := (congrArg State.faults hw).trans hfaults
      rw [State.settle_counters, hwfaults]
      exact congrArg FaultUnit.counters (State.count_faults_congr (s := s) (t := u) rfl _)
  · obtain ⟨next, hw, hnext⟩ := State.headSucceeded_of_record (s := u) data (op.attempts == 1) hd hb hs
    have hdrain := hnext (by simp [hi])
    rw [hi] at hw hb hdrain
    subst hdrain
    have hwdrain : w.drain = some ⟨.postedWrite, .dataWrite, d.image, once⟩ := congrArg State.drain hw
    have hsettle : w.settle = w.arbitrate := by
      rw [State.settle, State.beginDrains_of_not_mayBegin _ _ (State.mayBegin_eq_false_of_drain hwdrain)]
    have hjournal : w.arbitrate.journal = w.journal := by simp
    rw [hsettle, State.arbitrate_reservations, hjournal, show w = _ from hw]
    exact State.completeRecord_reservations (s := u) hd hi hb rfl hl hr
  · obtain ⟨hleft, hqueue, hengine, -, -⟩ := hends hlast
    exact ⟨State.settle_drainsAnew hleft.drain, fun hq => hleft.writesGoOn (by rwa [hqueue]),
      fun hi => hqueue ▸ hleft.dropsFrom_posted hi, fun hi => hqueue ▸ hleft.dropsFrom_other hi,
      fun p e hp he hk => hleft.writeGoesOn hp (by rwa [hengine]) hk⟩
  · obtain ⟨hleft, hqueue, hengine, -, -⟩ := hends fun _ => hs
    have hv : u.recordCompletes d b = u := State.recordCompletes_of_other b (by rw [hs]; decide)
    rw [hv] at hleft hengine
    have hreported : w.faults = left := (hleft.reported hk).trans (State.report_faults_congr (s := s) (t := u) rfl _ _)
    have hjournal : w.journal = s.journal := hleft.journal
    refine ⟨(show w.settle.journal = w.journal by simp).trans hjournal, ?_, fun hj => ⟨?_, fun hi => ?_⟩, fun i => ?_,
      fun p e hi he => hleft.completed hi he⟩
    · rw [State.settle_counters, hreported]
      exact State.report_keeps _ _ _
    · rw [(State.settle_of_not_failed (by rwa [hjournal])).2, hreported]
    · rw [(State.settle_of_not_failed (by rwa [hjournal])).1, hleft.queue, if_pos hi]
      rfl
    · rw [← hreported]
      exact (w.settle_code_cases i).imp id fun h => h.2
  · obtain ⟨hleft, hqueue, hengine, hstate, hcodes⟩ := hends fun h => absurd h hk
    have hwstate : w.journal.state = s.journal.state := by rw [hleft.journal, hstate]
    have hwcodes : w.faults.codes = s.faults.codes := by rw [hleft.unreported hk, hcodes]
    have hposted : d.item ≠ .postedWrite := fun h => hk fun x hx => by rw [h] at hx; cases hx
    refine ⟨fun hs => ?_, fun hj => ?_, fun i => ?_⟩
    · rw [State.recordCompletes_of_other b hs] at hleft
      exact (show w.settle.journal = w.journal by simp).trans hleft.journal
    · obtain ⟨hkept, hfaults⟩ := State.settle_of_not_failed (s := w) (by rwa [hwstate])
      rw [hkept, hfaults, hleft.queue, if_neg hposted, hqueue, hwcodes]
      exact ⟨rfl, rfl⟩
    · rw [← hwcodes]
      exact (w.settle_code_cases i).imp id fun h => h.2
  · exact (show w.port.op = u.port.op by simp [w])

end Sys2Proof.Machine
end
